-- ==== Sys2Proof/Word.lean ====
section
/-! DEFINITION. The words of the JDA-740: the field types of spec/00_scope.md ("Field types") as bit vectors. -/

namespace Sys2Proof

/-- U8, one byte. -/
abbrev U8 := BitVec 8
/-- U16, sent most significant byte first. -/
abbrev U16 := BitVec 16
/-- U32, sent most significant byte first. -/
abbrev U32 := BitVec 32

/-- A flag byte: 0 means absent or off, any other value present or on (00, "Field types"). -/
def flagSet (b : U8) : Bool := b != 0

end Sys2Proof
end

