-- ==== Sys2Proof/Word/Records.lean ====
section
/-! DEFINITION. The records that cross the part's ports and that its tables hold: keys, placements, rights, the
store's index records and record copies, and the fields of the longer requests. Plain data. -/

namespace Sys2Proof

/-- Edition key: day number and edition code together (00, "Field types"). -/
structure EditionKey where
  day : U16
  code : U8
  deriving DecidableEq, Repr

/-- Page key: edition key, page number, version; version 0 names the current version (00, R8). -/
structure PageKey where
  edition : EditionKey
  page : U8
  version : U8
  deriving DecidableEq, Repr

/-- A photograph's place on a page, in tiles, columns and rows counted from 1 (R9). -/
structure Placement where
  photo : U32
  firstCol : U8
  firstRow : U8
  cols : U8
  rows : U8
  deriving DecidableEq, Repr

/-- Rights class of a photograph, codes 0 to 3 (R13). -/
inductive RightsClass where
  | staff | agency | freelance | pub
  deriving DecidableEq, Repr

/-- What a photograph's rights fields hold (R13). -/
structure Rights where
  cls : RightsClass
  untilDay : Option Nat
  group : Nat
  deriving DecidableEq, Repr

/-- The applied points, black and white (00, "Terms"). -/
structure Points where
  b : Nat
  w : Nat
  deriving DecidableEq, Repr

/-- A grid of tiles (00, "Bodies and checks"). -/
structure Grid where
  cols : Nat
  rows : Nat
  deriving DecidableEq, Repr

/-- A page's record in the store's resident index (R15). A locator or check that the store is about to assign is
absent in a record the part sends, and present in a record the store returns. -/
structure IdxPage where
  key : EditionKey
  planned : Nat
  number : Nat
  version : Nat
  sectionCode : Nat
  grid : Grid
  declared : U32
  raw : Option U32
  current : Option U32
  stored : Option U32
  level : Nat
  points : Option Points
  placements : List Placement
  deriving DecidableEq, Repr

/-- A photograph's record in the store's resident index (R15). -/
structure IdxPhoto where
  number : U32
  rights : Rights
  grid : Grid
  declared : U32
  raw : Option U32
  current : Option U32
  stored : Option U32
  level : Nat
  points : Option Points
  filedOn : Nat
  deriving DecidableEq, Repr

/-- The close mark of an edition (R15, R58). -/
structure CloseMark where
  key : EditionKey
  planned : Nat
  closedOn : Nat
  gaps : List Nat
  forced : Bool
  failedPages : Nat
  deriving DecidableEq, Repr

/-- The resident index, as INDEX READ returns it (R23). -/
structure StoreIndex where
  marks : List CloseMark
  pages : List IdxPage
  photos : List IdxPhoto
  deriving DecidableEq, Repr

/-- The key of an entry within a sealed volume (R92). -/
inductive EntryKey where
  | page (edition : EditionKey) (number version : Nat)
  | photo (number : U32)
  deriving DecidableEq, Repr

/-- A placement of a recall slot's page copy, with the copy of its photograph's fields (R92). -/
structure PlacedCopy where
  place : Placement
  rights : Rights
  grid : Grid
  current : U32
  stored : U32
  level : Nat
  deriving DecidableEq, Repr

/-- The record copy of a sealed page (R92). -/
structure PageCopy where
  version : Nat
  sectionCode : Nat
  grid : Grid
  current : U32
  stored : U32
  level : Nat
  points : Option Points
  placed : List PlacedCopy
  deriving DecidableEq, Repr

/-- The record copy of a sealed photograph (R92). -/
structure PhotoCopy where
  rights : Rights
  grid : Grid
  current : U32
  stored : U32
  level : Nat
  points : Option Points
  filedOn : Nat
  deriving DecidableEq, Repr

/-- What READ VOLUME ENTRY returns (R71). -/
inductive EntryCopy where
  | page (c : PageCopy)
  | photo (c : PhotoCopy)
  deriving DecidableEq, Repr

/-- The store's answer to an operation: one of four statuses; DONE carries the operation's returns (R71, R74). -/
inductive Answer (α : Type) where
  | done (a : α)
  | notFound
  | full
  | mediaError
  deriving DecidableEq, Repr

/-- The address of an answer: the operation slot and the issue number it carries (R74). -/
structure SlotTag where
  slot : BitVec 3
  issue : U16
  deriving DecidableEq, Repr

/-- What a successful write returns: locator and stored CRC (R71). -/
structure Written where
  locator : U32
  stored : U32
  deriving DecidableEq, Repr

/-- A character as the line receiver hands it over; damaged marks a framing error or noise (R172). -/
structure LineChar where
  byte : U8
  damaged : Bool
  deriving DecidableEq, Repr

/-- The return line as the part finds it when it would begin a frame: character times of idle, and whether another part has held
the line, in a contest it won or with a frame of its own, since this part's last whole frame (R177). -/
structure ReturnIdle where
  idle : Nat
  afterOther : Bool
  deriving DecidableEq, Repr

/-- What the part finds at power-on: whether the backup domain kept supply, and the straps (R25, R172). -/
structure PowerUp where
  backupKept : Bool
  rate : BitVec 2
  station : BitVec 3
  deriving DecidableEq, Repr

/-- The fields of OPEN EDITION (R42) after the edition key and planned pages, and of SET DEADLINE (R40). -/
structure DeadlineFields where
  flag : U8
  day : U16
  hour : U8
  minute : U8
  deriving DecidableEq, Repr

/-- The fields of FILE PAGE (R45). placements are the ones the frame's body gives for the count, at most 12 read. -/
structure FilePageFields where
  key : EditionKey
  page : U8
  sectionCode : U8
  cols : U8
  rows : U8
  declared : U32
  count : U8
  placements : List Placement
  deriving DecidableEq, Repr

/-- The fields of FILE PHOTO (R47). -/
structure FilePhotoFields where
  photo : U32
  cls : U8
  untilFlag : U8
  untilDay : U16
  group : U8
  cols : U8
  rows : U8
  declared : U32
  deriving DecidableEq, Repr

/-- The target fields of RESTORE and REVERT (R102, R116). -/
structure TargetFields where
  kind : U8
  volume : U32
  key : PageKey
  photo : U32
  deriving DecidableEq, Repr

/-- The fields of PLACE HOLD (R120). -/
structure HoldFields where
  scope : U8
  reason : U8
  untilFlag : U8
  untilDay : U16
  day : U16
  code : U8
  page : U8
  photo : U32
  deriving DecidableEq, Repr

/-- The fields of PLACE ORDER (R132). -/
structure OrderFields where
  account : U16
  key : PageKey
  volume : U32
  useClass : U8
  sizeClass : U8
  copies : U8
  restore : U8
  photo : U32
  deriving DecidableEq, Repr

/-- The fields of SET SCHEDULE (R149): 20 bases, 4 age factors, 8 tier discounts, 8 royalties, surcharge, minimum,
5 caps. -/
structure ScheduleFields where
  base : List U32
  age : List U16
  tier : List U8
  royalty : List U32
  surcharge : U32
  minimum : U32
  caps : List U32
  deriving DecidableEq, Repr

end Sys2Proof
end

