-- ==== Sys2Proof/Syntax.lean ====
section
/-! DEFINITION. The commands of the JDA-740: one constructor per row of spec/opcode_table.json, with the row's operands.
A request carries its tag and the fields its rule lists, in the rule's order (R183). -/

namespace Sys2Proof

/-- The commands. -/
inductive Instr where
  /-- POWER_ON (R25). -/
  | powerOn (p : PowerUp)
  /-- LINK_RESET (R178). -/
  | linkReset
  /-- FRAME_RECEIVED (R174): the characters of the frame that has ended. -/
  | frameReceived (chars : List LineChar)
  /-- FRAME_SEND_START (R177): the idle of the return line, in character times. -/
  | frameSendStart (idle : ReturnIdle)
  /-- ARBITRATION_LOST (R177). -/
  | arbitrationLost
  /-- FRAME_SENT (R176). -/
  | frameSent
  /-- UNKNOWN_REQUEST (R183). -/
  | unknownRequest (tag : U8) (kind : U8)
  /-- IDENTIFY (R190). -/
  | identify (tag : U8)
  /-- START_SERVICE (R186). -/
  | startService (tag : U8)
  /-- ENTER_SETUP (R187). -/
  | enterSetup (tag : U8)
  /-- SETUP_ENTRY_COMPLETE (R187). -/
  | setupEntryComplete
  /-- ENTER_STANDBY (R188). -/
  | enterStandby (tag : U8)
  /-- STANDBY_ENTRY_COMPLETE (R188). -/
  | standbyEntryComplete
  /-- SET_OPTION (R189). -/
  | setOption (tag : U8) (number : U8) (value : U16)
  /-- READ_OPTIONS (R189). -/
  | readOptions (tag : U8)
  /-- READ_NOTICES (R192). -/
  | readNotices (tag : U8)
  /-- SET_NOTICE_MASK (R192). -/
  | setNoticeMask (tag : U8) (mask : U32)
  /-- WAIT (R193). -/
  | wait (tag : U8) (mask : U32) (seconds : U16)
  /-- WAIT_MET (R193). -/
  | waitMet
  /-- WAIT_TIMEOUT (R193). -/
  | waitTimeout
  /-- CANCEL_TRANSFER (R181). -/
  | cancelTransfer (tag : U8)
  /-- LINK_STATUS (R182). -/
  | linkStatus (tag : U8) (clear : U8)
  /-- SELECT_ASSERTED (R179). -/
  | selectAsserted
  /-- TRANSFER_COMPLETE (R180): the byte on the data lines at the last clock edge. -/
  | transferComplete (data : U8)
  /-- SELECT_RELEASED (R180). -/
  | selectReleased
  /-- LANE_BIND_EXPIRY (R180). -/
  | laneBindExpiry
  /-- BASE_TICK (R27). -/
  | baseTick
  /-- MINUTE_EVENT (R34). -/
  | minuteEvent
  /-- DAY_ROLLOVER (R35). -/
  | dayRollover
  /-- TRADE_DAY_BOUNDARY (R36). -/
  | tradeDayBoundary
  /-- SET_TIME (R29). -/
  | setTime (tag : U8) (second minute hour : U8) (day : U16)
  /-- RUN_CALENDAR (R30). -/
  | runCalendar (tag : U8)
  /-- STOP_CALENDAR (R31). -/
  | stopCalendar (tag : U8)
  /-- READ_TIME (R32). -/
  | readTime (tag : U8)
  /-- SET_DEADLINE (R40). -/
  | setDeadline (tag : U8) (key : EditionKey) (d : DeadlineFields)
  /-- LIST_DEADLINES (R41). -/
  | listDeadlines (tag : U8)
  /-- QUERY_EDITION (R16). -/
  | queryEdition (tag : U8) (key : EditionKey)
  /-- LIST_EDITIONS (R17). -/
  | listEditions (tag : U8) (start : U8)
  /-- QUERY_PAGE (R18). -/
  | queryPage (tag : U8) (key : PageKey)
  /-- QUERY_PHOTO (R19). -/
  | queryPhoto (tag : U8) (photo : U32)
  /-- DROP_PHOTO (R20). -/
  | dropPhoto (tag : U8) (photo : U32)
  /-- RELOAD_CATALOGUE (R22). -/
  | reloadCatalogue (tag : U8)
  /-- INDEX_READ_COMPLETION (R23). -/
  | indexReadCompletion (at_ : SlotTag) (ans : Answer StoreIndex)
  /-- OPEN_EDITION (R42). -/
  | openEdition (tag : U8) (key : EditionKey) (planned : U8) (d : DeadlineFields)
  /-- REPLAN_EDITION (R44). -/
  | replanEdition (tag : U8) (key : EditionKey) (planned : U8)
  /-- FILE_PAGE (R45). -/
  | filePage (tag : U8) (f : FilePageFields)
  /-- FILE_PHOTO (R47). -/
  | filePhoto (tag : U8) (f : FilePhotoFields)
  /-- INTAKE_WRITE_COMPLETION (R52). -/
  | intakeWriteCompletion (at_ : SlotTag) (ans : Answer Written)
  /-- CLOSE_EDITION (R55). -/
  | closeEdition (tag : U8) (key : EditionKey)
  /-- CLOSE_END (R57): the edition slot. -/
  | closeEnd (slot : BitVec 6)
  /-- CLOSE_MARK_COMPLETION (R58). -/
  | closeMarkCompletion (at_ : SlotTag) (ans : Answer Unit)
  /-- QUERY_STAGING (R69). -/
  | queryStaging (tag : U8)
  /-- CLAIM_GRANT (R66). -/
  | claimGrant
  /-- LATE_STORE_ANSWER (R74). -/
  | lateStoreAnswer (at_ : SlotTag) (ans : Answer Unit)
  /-- STORE_OPERATION_TIMEOUT (R75). -/
  | storeOperationTimeout (slot : BitVec 3)
  /-- PROBE_INTERVAL_EXPIRY (R78). -/
  | probeIntervalExpiry
  /-- PROBE_ANSWER (R78). -/
  | probeAnswer (at_ : SlotTag) (ans : Answer Unit)
  /-- RESUME_STORE (R80). -/
  | resumeStore (tag : U8)
  /-- QUERY_STORE (R81). -/
  | queryStore (tag : U8)
  /-- FREE_BODY_COMPLETION (R72). -/
  | freeBodyCompletion (at_ : SlotTag) (ans : Answer Unit)
  /-- SEAL_EDITION (R85). -/
  | sealEdition (tag : U8) (key : EditionKey)
  /-- SEAL_START (R87). -/
  | sealStart
  /-- SEAL_VOLUME_COMPLETION (R89): DONE carries the volume number. -/
  | sealVolumeCompletion (at_ : SlotTag) (ans : Answer U32)
  /-- QUERY_SEALING (R91). -/
  | querySealing (tag : U8)
  /-- READ_VOLUME_ENTRY_COMPLETION (R95). -/
  | readVolumeEntryCompletion (at_ : SlotTag) (ans : Answer EntryCopy)
  /-- RECALL_WAIT_SERVE (R97). -/
  | recallWaitServe
  /-- QUERY_RECALL (R99). -/
  | queryRecall (tag : U8) (detail : U8)
  /-- RESTORE (R102). -/
  | restore (tag : U8) (t : TargetFields) (l : U16) (h : U16) (sp : U8)
  /-- JOB_START (R106). -/
  | jobStart
  /-- SURVEY_READ_COMPLETION (R108): DONE carries the body that landed. -/
  | surveyReadCompletion (at_ : SlotTag) (ans : Answer (List U8))
  /-- MAPPING_END (R110). -/
  | mappingEnd
  /-- RESTORATION_WRITE_COMPLETION (R112). -/
  | restorationWriteCompletion (at_ : SlotTag) (ans : Answer Written)
  /-- HELD_DISCARD_RELEASE (R113). -/
  | heldDiscardRelease
  /-- REVERT (R116). -/
  | revert (tag : U8) (t : TargetFields)
  /-- QUERY_RESTORE (R117). -/
  | queryRestore (tag : U8) (job : U16)
  /-- PLACE_HOLD (R120). -/
  | placeHold (tag : U8) (f : HoldFields)
  /-- LIFT_HOLD (R122). -/
  | liftHold (tag : U8) (number : U8)
  /-- LIST_HOLDS (R128). -/
  | listHolds (tag : U8)
  /-- PLACE_ORDER (R132). -/
  | placeOrder (tag : U8) (f : OrderFields)
  /-- CANCEL_ORDER (R139). -/
  | cancelOrder (tag : U8) (order : U32)
  /-- RETIRE_ORDER (R140). -/
  | retireOrder (tag : U8) (order : U32)
  /-- QUERY_ORDER (R147). -/
  | queryOrder (tag : U8) (order : U32)
  /-- PREPARE_DELIVERY (R141). -/
  | prepareDelivery (tag : U8) (order : U32)
  /-- DELIVERY_READ_COMPLETION (R142): DONE carries the body that landed. -/
  | deliveryReadCompletion (at_ : SlotTag) (ans : Answer (List U8))
  /-- PREPARATION_END (R142). -/
  | preparationEnd (order : U32)
  /-- READY_EXPIRY (R143). -/
  | readyExpiry (order : U32)
  /-- BIND_DELIVERY (R144). -/
  | bindDelivery (tag : U8) (order : U32)
  /-- SET_SCHEDULE (R149). -/
  | setSchedule (tag : U8) (f : ScheduleFields)
  /-- READ_SCHEDULE (R150). -/
  | readSchedule (tag : U8)
  /-- LOAD_ACCOUNT (R159): account, tier, balance (S32), credit limit. -/
  | loadAccount (tag : U8) (account : U16) (tier : U8) (balance : U32) (limit : U32)
  /-- CREDIT_ACCOUNT (R160). -/
  | creditAccount (tag : U8) (account : U16) (amount : U32)
  /-- SET_LIMIT (R161). -/
  | setLimit (tag : U8) (account : U16) (limit : U32)
  /-- QUERY_ACCOUNT (R163). -/
  | queryAccount (tag : U8) (account : U16)
  /-- CLOSE_STATEMENT (R169). -/
  | closeStatement (tag : U8)
  /-- RELEASE_STATEMENT (R170). -/
  | releaseStatement (tag : U8) (number : U32)
  /-- READ_STATEMENT (R171). -/
  | readStatement (tag : U8) (index : U8) (first : U16) (count : U8)
  /-- MAIN_POWER_LOSS (R25). -/
  | mainPowerLoss
  /-- BYTE_MOVED (R179): the byte on the data lines at the clock edge. -/
  | byteMoved (data : U8)
  /-- BREAK_END (R178). -/
  | breakEnd
  deriving DecidableEq, Repr

end Sys2Proof
end

