-- ==== Sys2Proof/Decode.lean ====
section
/-! DEFINITION. The fields of requests in frame bodies (R183 and each request's own rule): reading a frame's body as a
command, and the body that spells a command. The table's rows give no bits, so no table word spells a command. -/

namespace Sys2Proof

/-- Byte k of a body; a body shorter than its field list has the missing fields zero (R149, R183). That a value of which only some
bytes came keeps them, its missing low bytes zero, is the model's choice (log 42). -/
def byteAt (body : List U8) (k : Nat) : U8 := body.getD k 0

/-- The U16 at offset k, most significant byte first. -/
def wordAt (body : List U8) (k : Nat) : U16 :=
  BitVec.ofNat 16 ((byteAt body k).toNat * 256 + (byteAt body (k + 1)).toNat)

/-- The U32 at offset k, most significant byte first. -/
def longAt (body : List U8) (k : Nat) : U32 :=
  BitVec.ofNat 32 ((wordAt body k).toNat * 65536 + (wordAt body (k + 2)).toNat)

/-- Edition key at offset k: day (U16), code (U8). -/
def keyAt (body : List U8) (k : Nat) : EditionKey := ⟨wordAt body k, byteAt body (k + 2)⟩

/-- Page key at offset k: edition key, page number, version. -/
def pageKeyAt (body : List U8) (k : Nat) : PageKey := ⟨keyAt body k, byteAt body (k + 3), byteAt body (k + 4)⟩

/-- Placement at offset k (FILE PAGE body layout, 12). -/
def placementAt (body : List U8) (k : Nat) : Placement :=
  ⟨longAt body k, byteAt body (k + 4), byteAt body (k + 5), byteAt body (k + 6), byteAt body (k + 7)⟩

/-- Deadline flag, day, hour and minute at offset k (R40, R42). -/
def deadlineAt (body : List U8) (k : Nat) : DeadlineFields :=
  ⟨byteAt body k, wordAt body (k + 1), byteAt body (k + 3), byteAt body (k + 4)⟩

/-- The target fields of RESTORE and REVERT (R102). -/
def targetAt (body : List U8) : TargetFields :=
  ⟨byteAt body 0, longAt body 1, pageKeyAt body 5, longAt body 10⟩

/-- FILE PAGE's fields (R45): placements beyond the count are ignored, and more than 12 are refused whatever they are. -/
def filePageAt (body : List U8) : FilePageFields :=
  { key := keyAt body 0, page := byteAt body 3, sectionCode := byteAt body 4, cols := byteAt body 5
    rows := byteAt body 6, declared := longAt body 7, count := byteAt body 11
    placements := (List.range (min (byteAt body 11).toNat 12)).map fun k => placementAt body (12 + 8 * k) }

/-- FILE PHOTO's fields (R47). -/
def filePhotoAt (body : List U8) : FilePhotoFields :=
  { photo := longAt body 0, cls := byteAt body 4, untilFlag := byteAt body 5, untilDay := wordAt body 6
    group := byteAt body 8, cols := byteAt body 9, rows := byteAt body 10, declared := longAt body 11 }

/-- PLACE HOLD's fields (R120). -/
def holdAt (body : List U8) : HoldFields :=
  { scope := byteAt body 0, reason := byteAt body 1, untilFlag := byteAt body 2, untilDay := wordAt body 3
    day := wordAt body 5, code := byteAt body 7, page := byteAt body 8, photo := longAt body 9 }

/-- PLACE ORDER's fields (R132, and its body layout in 12). -/
def orderAt (body : List U8) : OrderFields :=
  { account := wordAt body 0, key := pageKeyAt body 2, volume := longAt body 7, useClass := byteAt body 11
    sizeClass := byteAt body 12, copies := byteAt body 13, restore := byteAt body 14, photo := longAt body 15 }

/-- SET SCHEDULE's fields (R149). -/
def scheduleAt (body : List U8) : ScheduleFields :=
  { base := (List.range 20).map fun k => longAt body (4 * k)
    age := (List.range 4).map fun k => wordAt body (80 + 2 * k)
    tier := (List.range 8).map fun k => byteAt body (88 + k)
    royalty := (List.range 8).map fun k => longAt body (96 + 4 * k)
    surcharge := longAt body 128
    minimum := longAt body 132
    caps := (List.range 5).map fun k => longAt body (136 + 4 * k) }

/-- The command that a request frame's kind, tag and body spell (R183); every kind that names no request is an
UNKNOWN_REQUEST. -/
def decodeRequest (kind tag : U8) (body : List U8) : Instr :=
  match kind.toNat with
  | 0x01 => .identify tag
  | 0x02 => .startService tag
  | 0x03 => .enterSetup tag
  | 0x04 => .enterStandby tag
  | 0x05 => .setOption tag (byteAt body 0) (wordAt body 1)
  | 0x06 => .readOptions tag
  | 0x08 => .readNotices tag
  | 0x09 => .setNoticeMask tag (longAt body 0)
  | 0x0A => .wait tag (longAt body 0) (wordAt body 4)
  | 0x14 => .placeHold tag (holdAt body)
  | 0x15 => .liftHold tag (byteAt body 0)
  | 0x16 => .listHolds tag
  | 0x1A => .cancelTransfer tag
  | 0x1B => .linkStatus tag (byteAt body 0)
  | 0x21 => .openEdition tag (keyAt body 0) (byteAt body 3) (deadlineAt body 4)
  | 0x22 => .replanEdition tag (keyAt body 0) (byteAt body 3)
  | 0x23 => .filePage tag (filePageAt body)
  | 0x24 => .filePhoto tag (filePhotoAt body)
  | 0x25 => .closeEdition tag (keyAt body 0)
  | 0x30 => .setTime tag (byteAt body 0) (byteAt body 1) (byteAt body 2) (wordAt body 3)
  | 0x31 => .runCalendar tag
  | 0x32 => .stopCalendar tag
  | 0x33 => .readTime tag
  | 0x34 => .setDeadline tag (keyAt body 0) (deadlineAt body 3)
  | 0x35 => .listDeadlines tag
  | 0x40 => .queryEdition tag (keyAt body 0)
  | 0x41 => .listEditions tag (byteAt body 0)
  | 0x42 => .queryPage tag (pageKeyAt body 0)
  | 0x43 => .queryPhoto tag (longAt body 0)
  | 0x44 => .dropPhoto tag (longAt body 0)
  | 0x45 => .reloadCatalogue tag
  | 0x50 => .queryStaging tag
  | 0x51 => .queryStore tag
  | 0x52 => .resumeStore tag
  | 0x60 => .sealEdition tag (keyAt body 0)
  | 0x61 => .querySealing tag
  | 0x62 => .queryRecall tag (byteAt body 0)
  | 0x64 => .setSchedule tag (scheduleAt body)
  | 0x65 => .readSchedule tag
  | 0x66 => .loadAccount tag (wordAt body 0) (byteAt body 2) (longAt body 3) (longAt body 7)
  | 0x67 => .creditAccount tag (wordAt body 0) (longAt body 2)
  | 0x68 => .setLimit tag (wordAt body 0) (longAt body 2)
  | 0x69 => .queryAccount tag (wordAt body 0)
  | 0x6A => .readStatement tag (byteAt body 0) (wordAt body 1) (byteAt body 3)
  | 0x6B => .releaseStatement tag (longAt body 0)
  | 0x6C => .closeStatement tag
  | 0x70 => .restore tag (targetAt body) (wordAt body 14) (wordAt body 16) (byteAt body 18)
  | 0x71 => .revert tag (targetAt body)
  | 0x72 => .queryRestore tag (wordAt body 0)
  | 0x78 => .placeOrder tag (orderAt body)
  | 0x79 => .cancelOrder tag (longAt body 0)
  | 0x7A => .retireOrder tag (longAt body 0)
  | 0x7B => .queryOrder tag (longAt body 0)
  | 0x7C => .prepareDelivery tag (longAt body 0)
  | 0x7D => .bindDelivery tag (longAt body 0)
  | _ => .unknownRequest tag kind

/-- The requests that only read: the queries, IDENTIFY, READ OPTIONS, READ TIME, READ SCHEDULE, READ STATEMENT and the lists. -/
def Instr.reads : Instr → Bool
  | .identify _ | .readOptions _ | .readTime _ | .listDeadlines _ | .queryEdition _ _ | .listEditions _ _ => true
  | .queryPage _ _ | .queryPhoto _ _ | .queryStaging _ | .queryStore _ | .querySealing _ | .queryRecall _ _ => true
  | .queryRestore _ _ | .listHolds _ | .queryOrder _ _ | .readSchedule _ | .queryAccount _ _ => true
  | .readStatement _ _ _ _ => true
  | _ => false

/-- The kinds that name requests (each in the form "(kind .. hex)" in its request's rule). -/
def requestKinds : List Nat :=
  [0x01, 0x02, 0x03, 0x04, 0x05, 0x06, 0x08, 0x09, 0x0A, 0x14, 0x15, 0x16, 0x1A, 0x1B] ++
  [0x21, 0x22, 0x23, 0x24, 0x25, 0x30, 0x31, 0x32, 0x33, 0x34, 0x35] ++
  [0x40, 0x41, 0x42, 0x43, 0x44, 0x45, 0x50, 0x51, 0x52, 0x60, 0x61, 0x62] ++
  [0x64, 0x65, 0x66, 0x67, 0x68, 0x69, 0x6A, 0x6B, 0x6C, 0x70, 0x71, 0x72] ++
  [0x78, 0x79, 0x7A, 0x7B, 0x7C, 0x7D]

/-- The two bytes of a U16, most significant first. -/
def wordBytes (x : U16) : List U8 := [BitVec.ofNat 8 (x.toNat / 256), BitVec.ofNat 8 x.toNat]

/-- The four bytes of a U32, most significant first. -/
def longBytes (x : U32) : List U8 :=
  wordBytes (BitVec.ofNat 16 (x.toNat / 65536)) ++ wordBytes (BitVec.ofNat 16 x.toNat)

/-- The three bytes of an edition key. -/
def keyBytes (k : EditionKey) : List U8 := wordBytes k.day ++ [k.code]

/-- The five bytes of a page key. -/
def pageKeyBytes (k : PageKey) : List U8 := keyBytes k.edition ++ [k.page, k.version]

/-- The eight bytes of a placement in a FILE PAGE body. -/
def placementBytes (p : Placement) : List U8 := longBytes p.photo ++ [p.firstCol, p.firstRow, p.cols, p.rows]

/-- The five bytes of the deadline fields. -/
def deadlineBytes (d : DeadlineFields) : List U8 := d.flag :: (wordBytes d.day ++ [d.hour, d.minute])

/-- The fourteen bytes of the target fields. -/
def targetBytes (t : TargetFields) : List U8 :=
  t.kind :: (longBytes t.volume ++ pageKeyBytes t.key ++ longBytes t.photo)

/-- FILE PAGE's body (layout in 12). -/
def filePageBytes (f : FilePageFields) : List U8 :=
  keyBytes f.key ++ [f.page, f.sectionCode, f.cols, f.rows] ++ longBytes f.declared ++ [f.count] ++
    f.placements.flatMap placementBytes

/-- FILE PHOTO's body. -/
def filePhotoBytes (f : FilePhotoFields) : List U8 :=
  longBytes f.photo ++ [f.cls, f.untilFlag] ++ wordBytes f.untilDay ++ [f.group, f.cols, f.rows] ++
    longBytes f.declared

/-- PLACE HOLD's body. -/
def holdBytes (f : HoldFields) : List U8 :=
  [f.scope, f.reason, f.untilFlag] ++ wordBytes f.untilDay ++ wordBytes f.day ++ [f.code, f.page] ++
    longBytes f.photo

/-- PLACE ORDER's body (layout in 12). -/
def orderBytes (f : OrderFields) : List U8 :=
  wordBytes f.account ++ pageKeyBytes f.key ++ longBytes f.volume ++
    [f.useClass, f.sizeClass, f.copies, f.restore] ++ longBytes f.photo

/-- SET SCHEDULE's body, 156 bytes for a well-formed command (R149). -/
def scheduleBytes (f : ScheduleFields) : List U8 :=
  f.base.flatMap longBytes ++ f.age.flatMap wordBytes ++ f.tier ++ f.royalty.flatMap longBytes ++
    longBytes f.surcharge ++ longBytes f.minimum ++ f.caps.flatMap longBytes

/-- The kind, tag and body of the frame that spells a request; none for a command that is no request. -/
def encodeRequest : Instr → Option (U8 × U8 × List U8)
  | .unknownRequest tag kind => some (kind, tag, [])
  | .identify tag => some (0x01, tag, [])
  | .startService tag => some (0x02, tag, [])
  | .enterSetup tag => some (0x03, tag, [])
  | .enterStandby tag => some (0x04, tag, [])
  | .setOption tag n v => some (0x05, tag, n :: wordBytes v)
  | .readOptions tag => some (0x06, tag, [])
  | .readNotices tag => some (0x08, tag, [])
  | .setNoticeMask tag m => some (0x09, tag, longBytes m)
  | .wait tag m secs => some (0x0A, tag, longBytes m ++ wordBytes secs)
  | .placeHold tag f => some (0x14, tag, holdBytes f)
  | .liftHold tag n => some (0x15, tag, [n])
  | .listHolds tag => some (0x16, tag, [])
  | .cancelTransfer tag => some (0x1A, tag, [])
  | .linkStatus tag c => some (0x1B, tag, [c])
  | .openEdition tag k p d => some (0x21, tag, keyBytes k ++ [p] ++ deadlineBytes d)
  | .replanEdition tag k p => some (0x22, tag, keyBytes k ++ [p])
  | .filePage tag f => some (0x23, tag, filePageBytes f)
  | .filePhoto tag f => some (0x24, tag, filePhotoBytes f)
  | .closeEdition tag k => some (0x25, tag, keyBytes k)
  | .setTime tag s m h d => some (0x30, tag, [s, m, h] ++ wordBytes d)
  | .runCalendar tag => some (0x31, tag, [])
  | .stopCalendar tag => some (0x32, tag, [])
  | .readTime tag => some (0x33, tag, [])
  | .setDeadline tag k d => some (0x34, tag, keyBytes k ++ deadlineBytes d)
  | .listDeadlines tag => some (0x35, tag, [])
  | .queryEdition tag k => some (0x40, tag, keyBytes k)
  | .listEditions tag st => some (0x41, tag, [st])
  | .queryPage tag k => some (0x42, tag, pageKeyBytes k)
  | .queryPhoto tag n => some (0x43, tag, longBytes n)
  | .dropPhoto tag n => some (0x44, tag, longBytes n)
  | .reloadCatalogue tag => some (0x45, tag, [])
  | .queryStaging tag => some (0x50, tag, [])
  | .queryStore tag => some (0x51, tag, [])
  | .resumeStore tag => some (0x52, tag, [])
  | .sealEdition tag k => some (0x60, tag, keyBytes k)
  | .querySealing tag => some (0x61, tag, [])
  | .queryRecall tag d => some (0x62, tag, [d])
  | .setSchedule tag f => some (0x64, tag, scheduleBytes f)
  | .readSchedule tag => some (0x65, tag, [])
  | .loadAccount tag a t b l => some (0x66, tag, wordBytes a ++ [t] ++ longBytes b ++ longBytes l)
  | .creditAccount tag a n => some (0x67, tag, wordBytes a ++ longBytes n)
  | .setLimit tag a l => some (0x68, tag, wordBytes a ++ longBytes l)
  | .queryAccount tag a => some (0x69, tag, wordBytes a)
  | .readStatement tag i f c => some (0x6A, tag, [i] ++ wordBytes f ++ [c])
  | .releaseStatement tag n => some (0x6B, tag, longBytes n)
  | .closeStatement tag => some (0x6C, tag, [])
  | .restore tag t l h sp => some (0x70, tag, targetBytes t ++ wordBytes l ++ wordBytes h ++ [sp])
  | .revert tag t => some (0x71, tag, targetBytes t)
  | .queryRestore tag j => some (0x72, tag, wordBytes j)
  | .placeOrder tag f => some (0x78, tag, orderBytes f)
  | .cancelOrder tag n => some (0x79, tag, longBytes n)
  | .retireOrder tag n => some (0x7A, tag, longBytes n)
  | .queryOrder tag n => some (0x7B, tag, longBytes n)
  | .prepareDelivery tag n => some (0x7C, tag, longBytes n)
  | .bindDelivery tag n => some (0x7D, tag, longBytes n)
  | .powerOn _ | .linkReset | .frameReceived _ | .frameSendStart _ | .arbitrationLost | .frameSent => none
  | .setupEntryComplete | .standbyEntryComplete | .waitMet | .waitTimeout | .selectAsserted => none
  | .transferComplete _ | .selectReleased | .laneBindExpiry | .baseTick | .minuteEvent | .dayRollover => none
  | .tradeDayBoundary | .indexReadCompletion _ _ | .intakeWriteCompletion _ _ | .closeEnd _ => none
  | .closeMarkCompletion _ _ | .claimGrant | .lateStoreAnswer _ _ | .storeOperationTimeout _ => none
  | .probeIntervalExpiry | .probeAnswer _ _ | .freeBodyCompletion _ _ | .sealStart => none
  | .sealVolumeCompletion _ _ | .readVolumeEntryCompletion _ _ | .recallWaitServe | .jobStart => none
  | .surveyReadCompletion _ _ | .mappingEnd | .restorationWriteCompletion _ _ | .heldDiscardRelease => none
  | .deliveryReadCompletion _ _ | .preparationEnd _ | .readyExpiry _ | .mainPowerLoss | .byteMoved _ => none
  | .breakEnd => none

/-- No row of spec/opcode_table.json gives bits, so no word numbered as the table numbers words spells a command. -/
def decodeTableWord (_nbits _w : Nat) : Option Instr := none

end Sys2Proof
end

