-- ==== Sys2Proof/Config.lean ====
section
/-! DEFINITION. What the part fixes: its capacities (R190 and the rules that own them) and the lengths of its timeouts in
base ticks (R26). The spec leaves no value of the part open, so no constant here is without a body. -/

namespace Sys2Proof.Config

/-- Edition entries (R3). -/
@[simp] abbrev editionEntries : Nat := 64
/-- Page records (R3). -/
@[simp] abbrev pageRecords : Nat := 2048
/-- Photo records (R3). -/
@[simp] abbrev photoRecords : Nat := 4096
/-- Staging segments (R62). -/
@[simp] abbrev stagingSegments : Nat := 128
/-- Segments that claims leave free, the intake reserve (R65). -/
@[simp] abbrev intakeReserve : Nat := 32
/-- Free segments at or below which STAGING_LOW is true (R68). -/
@[simp] abbrev stagingLow : Nat := 40
/-- Store operation slots (R70). -/
@[simp] abbrev storeSlots : Nat := 8
/-- FREE BODY operations the link holds at most (R72). -/
@[simp] abbrev discardLimit : Nat := 32
/-- Consecutive failures at which the link goes OFFLINE (R77). -/
@[simp] abbrev failureLimit : Nat := 8
/-- Good probes at which the link becomes RECOVERED (R79). -/
@[simp] abbrev goodProbeLimit : Nat := 16
/-- Recall slots (R92). -/
@[simp] abbrev recallSlots : Nat := 16
/-- Live restoration jobs (R100). -/
@[simp] abbrev jobs : Nat := 8
/-- Finished jobs kept (R101). -/
@[simp] abbrev finishedJobs : Nat := 8
/-- Live orders (R129). -/
@[simp] abbrev orders : Nat := 32
/-- Finished orders kept (R131). -/
@[simp] abbrev finishedOrders : Nat := 16
/-- Prepared orders (R130). -/
@[simp] abbrev preparedOrders : Nat := 4
/-- Hold entries (R118). -/
@[simp] abbrev holds : Nat := 64
/-- Accounts (R158). -/
@[simp] abbrev accounts : Nat := 32
/-- Entries of the open statement (R165). -/
@[simp] abbrev statementEntries : Nat := 512
/-- Closed statements (R165). -/
@[simp] abbrev closedStatements : Nat := 2
/-- Frames of the inbound buffer (R175). -/
@[simp] abbrev inboundFrames : Nat := 2
/-- Frames of the outbound queue (R176). -/
@[simp] abbrev outboundFrames : Nat := 8
/-- Body bytes of a frame at most (R173). -/
@[simp] abbrev frameBody : Nat := 1024
/-- Largest balance of an account, in minor units (R158). -/
@[simp] abbrev balanceLimit : Int := 2000000000
/-- Samples of a tile (00, "Bodies and checks"). -/
@[simp] abbrev tileBytes : Nat := 4096

/-- Store operation timeout, 4 s (R26). -/
@[simp] abbrev storeTicks : Nat := 1024
/-- Store probe interval, 1 s (R26). -/
@[simp] abbrev probeTicks : Nat := 256
/-- Lane bind expiry, 60 s (R26). -/
@[simp] abbrev bindTicks : Nat := 15360
/-- Ready expiry, 600 s (R26). -/
@[simp] abbrev readyTicks : Nat := 153600
/-- Base ticks of a second (R26). -/
@[simp] abbrev secondTicks : Nat := 256

/-- Guard time after the part has itself sent a whole frame, in character times (R177). -/
@[simp] abbrev guardAfterOwn : Nat := 7
/-- Guard time otherwise, in character times (R177). -/
@[simp] abbrev guardOtherwise : Nat := 3

/-- Consequences one change works through at most. A change has some hundreds of them at the very most, so the bound is
never met from a state the part reaches. DESIGN CHOICE, unsafe beyond it: log 6. -/
@[simp] abbrev changeBound : Nat := 65536

end Sys2Proof.Config
end

