-- ==== Sys2Proof/Machine/State.lean ====
section
/-! DEFINITION. The state of the JDA-740, block by block (00, "Block overview"), as plain data, and the part right after
power-on. -/

namespace Sys2Proof.Machine

/-- Outcome codes (R184). -/
inductive Code where
  | ok | pending | unknownRequest | notInService | badState | busy | notFound | duplicate | outOfRange | tableFull
  | stagingFull | laneBusy | storeOffline | storeFault | storeTimeout | bodyShort | bodyCheck | aborted | expired
  | calendarUnset | calendarRunning | editionClosed | editionOpen | pageOutOfPlan | versionLimit | photoNotFiled
  | placementInvalid | notFiled | notInVolume | notResident | sealed | levelLimit | held | rightsExpired
  | limitViolation | alreadyCharged | orderNumbersExhausted
  deriving DecidableEq, Repr

/-! ### Calendar (02) -/

/-- Calendar states (R28). -/
inductive CalState where
  | invalid | stopped | running
  deriving DecidableEq, Repr

/-- The calendar of the backup domain (R25, R27, R28). -/
structure Calendar where
  state : CalState
  fraction : Nat
  second : Nat
  minute : Nat
  hour : Nat
  day : Nat
  deriving DecidableEq, Repr

/-- Calendar events raised by a tick and not yet taken: the minute event with its "now", the rollover and the boundary
with the day after the change (R33). -/
structure DueEvents where
  minute : Option Nat
  rollover : Option Nat
  boundary : Option Nat
  deriving DecidableEq, Repr

/-! ### Catalogue (01) -/

/-- States of an occupied edition entry; an entry that is FREE is an absent one (R5). -/
inductive EdState where
  | opened | closing | closed | sealing
  deriving DecidableEq, Repr

/-- A deadline (R4). -/
structure Deadline where
  day : Nat
  hour : Nat
  minute : Nat
  deriving DecidableEq, Repr

/-- An occupied edition entry (R4). -/
structure Edition where
  key : EditionKey
  state : EdState
  planned : Nat
  deadline : Option Deadline
  warned : Bool
  forced : Bool
  interrupted : Bool
  due : Bool
  pins : Nat
  closedOn : Option Nat
  gaps : Option (List Nat)
  failedPages : Nat
  deriving DecidableEq, Repr

/-- States of a page or photo record (R6, R7, R13). -/
inductive RecState where
  | receiving | staged | writing | filed | failed
  deriving DecidableEq, Repr

/-- A page record (R6); the segments it holds are read from the pool. -/
structure Page where
  slot : Nat
  number : Nat
  version : Nat
  sectionCode : Nat
  state : RecState
  superseded : Bool
  grid : Grid
  declared : U32
  raw : Option U32
  current : Option U32
  stored : Option U32
  level : Nat
  points : Option Points
  placements : List Placement
  outcome : Code
  deriving DecidableEq, Repr

/-- A photo record (R13); the segments it holds are read from the pool. -/
structure Photo where
  number : U32
  state : RecState
  rights : Rights
  grid : Grid
  declared : U32
  raw : Option U32
  current : Option U32
  stored : Option U32
  level : Nat
  points : Option Points
  refs : Nat
  pins : Nat
  filedOn : Option Nat
  outcome : Code
  deriving DecidableEq, Repr

/-- The catalogue (R3): 64 edition entries by slot, the occupied page and photo records, and whether a reload is in
flight (R22). Positions of page and photo records are not visible. -/
structure Catalogue where
  editions : List (Option Edition)
  pages : List Page
  photos : List Photo
  reloading : Bool
  deriving DecidableEq, Repr

/-! ### Staging pool (04) -/

/-- A page or photo record, by its key within the part. -/
inductive RecId where
  | page (slot number version : Nat)
  | photo (number : U32)
  deriving DecidableEq, Repr

/-- The holder of a segment: an intake record, a restoration job or an order (R62). -/
inductive Holder where
  | record (r : RecId)
  | job (number : Nat)
  | order (number : Nat)
  deriving DecidableEq, Repr

/-- A claim: its owner, which gives its class, and its need (R65). -/
structure Claim where
  owner : Holder
  need : Nat
  deriving DecidableEq, Repr

/-- The staging pool (R62, R63, R65): the holder of each of the 128 segments, the bytes that lie in each holder's segments
in body order, and the claim queue, head first. -/
structure Pool where
  segments : List (Option Holder)
  contents : List (Holder × List U8)
  claims : List Claim
  deriving DecidableEq, Repr

/-! ### Store link (04) -/

/-- Link states (R70). -/
inductive LinkState where
  | online | offline | recovered
  deriving DecidableEq, Repr

/-- An index record that an operation carries (R15). -/
inductive IndexRecord where
  | page (p : IdxPage)
  | photo (p : IdxPhoto)
  deriving DecidableEq, Repr

/-- What a FREE BODY asks besides discarding the body: after a refused write, to discard that write's index record (R53);
from a restoration, nothing; from REVERT, to put the record it carries in the index (R15, R113). -/
inductive FreeKind where
  | refusedWrite
  | plain
  | withIndex (record : Option IndexRecord)
  deriving DecidableEq, Repr

/-- What SEAL VOLUME carries (R87). -/
structure SealContent where
  key : EditionKey
  planned : Nat
  closedOn : Nat
  gaps : List Nat
  forced : Bool
  failedPages : Nat
  pages : List Page
  photos : List Photo
  deriving DecidableEq, Repr

/-- The operations of the store link, each with its owner and what it carries (R71). -/
inductive Op where
  | writeIntake (record : RecId) (length : Nat) (index : IndexRecord)
  | writeRestoration (job : Nat) (length : Nat) (index : IndexRecord)
  | readForJob (job : Nat) (volume locator : U32)
  | readForOrder (order : Nat) (volume locator : U32)
  | freeBody (locator : U32) (kind : FreeKind)
  | sealVolume (slot : Nat) (content : SealContent)
  | readEntry (recallSlot : Nat) (volume : U32) (key : EntryKey)
  | amend (job : Nat) (volume : U32) (key : EntryKey) (length : Nat) (points : Points) (level : Nat)
  | closeMark (slot : Nat) (mark : CloseMark)
  | indexRead
  | probe
  deriving DecidableEq, Repr

/-- An operation in a slot, with the base ticks left before its timeout (R72). -/
structure Running where
  op : Op
  ticks : Nat
  deriving DecidableEq, Repr

/-- An operation slot: its issue number (U16) and its operation (R70). -/
structure OpSlot where
  issue : Nat
  occupant : Option Running
  deriving DecidableEq, Repr

/-- The store link (R70). probeTicks is what is left of the probe interval while one runs (R78). -/
structure StoreLink where
  state : LinkState
  slots : List OpSlot
  waiting : List Op
  failures : Nat
  goodProbes : Nat
  discards : Nat
  dropped : Nat
  probeTicks : Option Nat
  deriving DecidableEq, Repr

/-! ### Volume unit (05) -/

/-- A requester of a recall (R93). -/
inductive Requester where
  | order (number : Nat)
  | job (number : Nat)
  deriving DecidableEq, Repr

/-- An occupied recall slot (R92): FETCHING while it has no copy, RESIDENT with one. The requesters that pin it stand in
the order in which they pinned it; the pin count is their number. -/
structure RecallSlot where
  volume : U32
  key : EntryKey
  pinners : List Requester
  copy : Option EntryCopy
  deriving DecidableEq, Repr

/-- A requester in the recall wait queue, with the key it asks for (R97). -/
structure RecallWaiter where
  requester : Requester
  volume : U32
  key : EntryKey
  deriving DecidableEq, Repr

/-- The last seal result (R83). -/
structure SealResult where
  key : EditionKey
  outcome : Code
  volume : U32
  deriving DecidableEq, Repr

/-- The volume unit (R83, R92, R97). -/
structure VolumeUnit where
  sealQueue : List Nat
  waiters : List Nat
  lastSeal : Option SealResult
  table : List (Option RecallSlot)
  lru : List Nat
  recallWait : List RecallWaiter
  deriving DecidableEq, Repr

/-! ### Restoration engine (06) -/

/-- Job states (R100). -/
inductive JobState where
  | queued | claiming | survey | mapping | writing | done | failed
  deriving DecidableEq, Repr

/-- What a job works on (R100). -/
inductive Target where
  | page (slot number version : Nat)
  | photo (number : U32)
  | sealed (volume : U32) (key : EntryKey)
  deriving DecidableEq, Repr

/-- A restoration job (R100). A job on a sealed target is ready once its recall slot is recorded (R106, R115). The edition is
the key of a resident page's edition, which the entry of the finished list keeps (R101, R117); zero for the others. -/
structure Job where
  number : Nat
  state : JobState
  target : Target
  recallSlot : Option Nat
  low : Nat
  high : Nat
  span : Nat
  creator : Option Nat
  joiners : List Nat
  need : Nat
  startLevel : Nat
  points : Option Points
  outcome : Code
  edition : EditionKey
  deriving DecidableEq, Repr

/-- A locator held back from discard; from REVERT, with the record whose index record its FREE BODY carries (R113). -/
structure HeldDiscard where
  locator : U32
  revertOf : Option RecId
  deriving DecidableEq, Repr

/-- The restoration engine (R100, R101, R113). The histogram is empty while it is clear. -/
structure Engine where
  jobs : List Job
  histogram : List Nat
  nextJob : Nat
  finished : List Job
  heldDiscards : List HeldDiscard
  deriving DecidableEq, Repr

/-! ### Hold list (07) -/

/-- Scope and key of a hold (R118). -/
inductive HoldKey where
  | day (d : Nat)
  | edition (k : EditionKey)
  | page (k : EditionKey) (number : Nat)
  | photo (number : U32)
  deriving DecidableEq, Repr

/-- A hold entry (R118). -/
structure Hold where
  number : Nat
  key : HoldKey
  reason : Nat
  untilDay : Option Nat
  deriving DecidableEq, Repr

/-- The hold list, entries in ascending order of number, and the rights-held list, oldest first (R118). -/
structure HoldList where
  entries : List Hold
  held : List Nat
  deriving DecidableEq, Repr

/-! ### Order table (08) -/

/-- Order states, the final ones of the finished list among them (R130, R131). -/
inductive OrdState where
  | accepted | waitSeal | recalling | restoreWait | pricing | heldRights | heldStatement | heldFunds | charged
  | preparing | ready | delivering | done | cancelled | retired | ended
  deriving DecidableEq, Repr

/-- A reprint order (R129). An edition pin names the edition's slot, a photo pin the photo; a recall pin stands in the
recall slot or the recall wait queue. readOf holds the locator and stored CRC recorded at the hand-off of the read,
landed that the body has landed with a matching check (R142), prepTag the tag of a suspended PREPARE DELIVERY reply
(R141), readyTicks what is left of the ready expiry (R143). -/
structure Order where
  number : Nat
  account : Nat
  key : EditionKey
  page : Nat
  version : Nat
  resolved : Option Nat
  photo : Option U32
  volume : U32
  useClass : Nat
  sizeClass : Nat
  copies : Nat
  restore : Bool
  bearer : Bool
  state : OrdState
  outcome : Code
  pinEdition : Option Nat
  pinPhoto : Option U32
  recallSlot : Option Nat
  job : Option Nat
  masked : Nat
  charged : Nat
  maskSet : Option (List Nat)
  prepared : Option (Nat × U32)
  attempts : Nat
  lastPrep : Option Code
  readOf : Option (U32 × U32)
  landed : Bool
  prepTag : Option U8
  readyTicks : Nat
  deriving DecidableEq, Repr

/-- The order table (R129, R131): live orders in ascending order of number, the next number (4,294,967,296 when the
numbers are exhausted), the finished list, newest last. -/
structure OrderTable where
  live : List Order
  next : Nat
  finished : List Order
  deriving DecidableEq, Repr

/-! ### Fee unit (09) -/

/-- The fee schedule (R148). base holds use class by use class the four size classes. -/
structure Schedule where
  base : List Nat
  age : List Nat
  tier : List Nat
  royalty : List Nat
  surcharge : Nat
  minimum : Nat
  caps : List Nat
  deriving DecidableEq, Repr

/-- An account (R158). -/
structure Account where
  number : Nat
  tier : Nat
  balance : Int
  limit : Nat
  live : Nat
  queue : List Nat
  deriving DecidableEq, Repr

/-- The fee unit (R148, R158). -/
structure FeeUnit where
  schedule : Schedule
  accounts : List Account
  deriving DecidableEq, Repr

/-! ### Statement buffer (10) -/

/-- A statement entry (R164). -/
structure Entry where
  order : Nat
  account : Nat
  day : Nat
  hour : Nat
  minute : Nat
  useClass : Nat
  sizeClass : Nat
  copies : Nat
  masked : Nat
  core : Nat
  royalties : Nat
  surcharge : Nat
  total : Nat
  deriving DecidableEq, Repr

/-- The open statement (R165). -/
structure OpenStatement where
  number : Nat
  firstDay : Nat
  missed : Nat
  entries : List Entry
  deriving DecidableEq, Repr

/-- A closed statement (R165). -/
structure ClosedStatement where
  number : Nat
  firstDay : Nat
  lastDay : Nat
  spanned : Nat
  cause : Nat
  entries : List Entry
  deriving DecidableEq, Repr

/-- The statement buffer (R165): closed statements oldest first, held-for-room list oldest first. -/
structure StatementBuffer where
  current : OpenStatement
  closed : List ClosedStatement
  held : List Nat
  deriving DecidableEq, Repr

/-! ### Message port and body lane (11) -/

/-- A frame (R173), without its length and check, which its body and bytes give. -/
structure Frame where
  station : U8
  kind : U8
  tag : U8
  body : List U8
  deriving DecidableEq, Repr

/-- The message port (R172, R174 to R178). sending holds the bytes of the frame on the line; ownFrame that the guard time
owed is the longer one, after a whole frame of the part's own; inBreak that no frame is assembled yet after a break. -/
structure MessagePort where
  rate : BitVec 2
  station : BitVec 3
  inbound : List Frame
  outbound : List Frame
  waiting : List Frame
  sending : Option (List U8)
  ownFrame : Bool
  inBreak : Bool
  linkErrors : Nat
  overruns : Nat
  linkResets : Nat
  deriving DecidableEq, Repr

/-- Whether a binding waits for select, with the base ticks left of its expiry, or is under way (R179). -/
inductive BindState where
  | bound (ticks : Nat)
  | active
  deriving DecidableEq, Repr

/-- A binding: inbound to a record or outbound from an order (R179). crc is the CRC-32 register, not yet inverted. -/
structure Binding where
  owner : Holder
  outbound : Bool
  count : Nat
  moved : Nat
  crc : U32
  state : BindState
  deriving DecidableEq, Repr

/-- The body lane (R179, R180): its binding slot, BSEL as the part sees it, the byte it drives on the data lines, and
whether it drives FF hex after a complete outbound transfer. -/
structure Lane where
  slot : Option Binding
  select : Bool
  out : Option U8
  trailing : Bool
  deriving DecidableEq, Repr

/-! ### Request processor (12) -/

/-- Modes (R185). -/
inductive Mode where
  | setup | setupPending | service | standbyPending | standby
  deriving DecidableEq, Repr

/-- Options (R189). -/
structure Options where
  retention : Nat
  lead : Nat
  boundary : Nat
  autoResume : Bool
  deriving DecidableEq, Repr

/-- The WAIT slot's content (R193); no ticks when no timeout runs. -/
structure WaitSlot where
  tag : U8
  mask : U32
  ticks : Option Nat
  deriving DecidableEq, Repr

/-- The request processor (R185 to R193): mode, options, notice state, WAIT slot, and the tags of the suspended replies of
a pending mode entry and of RELOAD CATALOGUE. -/
structure RequestUnit where
  mode : Mode
  options : Options
  latched : U32
  mask : U32
  armed : Bool
  wait : Option WaitSlot
  entryTag : Option U8
  reloadTag : Option U8
  deriving DecidableEq, Repr

/-! ### One change: what is still to be done in it, and the replies it has formed (the model's own; log 5, 27) -/

/-- What a completed operation returns to its owner (R71). -/
inductive Returns where
  | nothing
  | written (w : Written)
  | body (b : List U8)
  | volume (v : U32)
  | entry (c : EntryCopy)
  | index (x : StoreIndex)
  deriving DecidableEq, Repr

/-- A completion handed to the owner (R74). -/
inductive Completion where
  | ok (r : Returns)
  | failed (c : Code)
  deriving DecidableEq, Repr

/-- A consequence that the rules place in the change of its cause. -/
inductive Task where
  /-- The completion of an operation reaches its owner (R71). -/
  | complete (op : Op) (c : Completion)
  /-- The claim queue is re-examined (R66). -/
  | regrant
  /-- The close of a CLOSING edition may have come to its end (R57). -/
  | closeTest (slot : Nat)
  /-- The seal of the head may have become startable (R87). -/
  | sealTest
  /-- The recall wait queue is served (R97). -/
  | serveRecall
  /-- The engine may start a job (R106). -/
  | startJob
  /-- A recall is handed to a requester with its slot (R95). -/
  | recallGiven (r : Requester) (slot : Nat)
  /-- A failed recall is handed to a requester (R96). -/
  | recallFailed (r : Requester) (c : Code)
  /-- The held-discard list is looked through (R113). -/
  | heldDiscards
  deriving DecidableEq, Repr

/-- The replies formed in a change, by their place in the order of R176. -/
structure Formed where
  immediate : Option Frame
  prepare : List (Nat × Frame)
  reload : Option Frame
  entry : Option Frame
  deriving DecidableEq, Repr

/-- The state of the part. -/
structure State where
  powered : Bool
  cal : Calendar
  events : DueEvents
  deadlines : List Nat
  cat : Catalogue
  pool : Pool
  link : StoreLink
  vol : VolumeUnit
  eng : Engine
  hold : HoldList
  ord : OrderTable
  fee : FeeUnit
  stmt : StatementBuffer
  port : MessagePort
  lane : Lane
  req : RequestUnit
  agenda : List Task
  formed : Formed
  pending : List Instr
  deriving DecidableEq, Repr

/-- The reasons the part stops. The spec gives none: every command of the part has an effect or a refusal that is a reply,
so nothing raises this. -/
inductive Fault where
  /-- Raised by no command; it stands so that the type is not empty. Safe. -/
  | neverRaised
  deriving DecidableEq, Repr

/-- The reasons a command has no meaning. -/
inductive Refusal where
  /-- Raised by an arm of exec whose command is not modelled; there is none. Safe. -/
  | notModelled (mnemonic : String)
  deriving DecidableEq, Repr

/-! ### Power-on contents -/

/-- The calendar after the backup domain lost all supply (R25). -/
def Calendar.unset : Calendar := { state := .invalid, fraction := 0, second := 0, minute := 0, hour := 0, day := 0 }

/-- The catalogue at power-on (R3, R22). -/
def Catalogue.initial : Catalogue :=
  { editions := List.replicate 64 none, pages := [], photos := [], reloading := false }

/-- The staging pool at power-on (R62). -/
def Pool.initial : Pool := { segments := List.replicate 128 none, contents := [], claims := [] }

/-- The store link at power-on (R70). -/
def StoreLink.initial : StoreLink :=
  { state := .online, slots := List.replicate 8 ⟨0, none⟩, waiting := [], failures := 0, goodProbes := 0
    discards := 0, dropped := 0, probeTicks := none }

/-- The volume unit at power-on (R83, R92). -/
def VolumeUnit.initial : VolumeUnit :=
  { sealQueue := [], waiters := [], lastSeal := none, table := List.replicate 16 none, lru := [], recallWait := [] }

/-- The restoration engine at power-on (R100, R101, R113). -/
def Engine.initial : Engine := { jobs := [], histogram := [], nextJob := 1, finished := [], heldDiscards := [] }

/-- The fee schedule at power-on: every value of every table is 0 (R148). -/
def Schedule.zero : Schedule :=
  { base := List.replicate 20 0, age := List.replicate 4 0, tier := List.replicate 8 0
    royalty := List.replicate 8 0, surcharge := 0, minimum := 0, caps := List.replicate 5 0 }

/-- The statement buffer at power-on, with the day counter then (R165). -/
def StatementBuffer.initial (day : Nat) : StatementBuffer :=
  { current := { number := 1, firstDay := day, missed := 0, entries := [] }, closed := [], held := [] }

/-- The message port at power-on, with the straps it samples (R172, R174 to R178). -/
def MessagePort.initial (rate : BitVec 2) (station : BitVec 3) : MessagePort :=
  { rate := rate, station := station, inbound := [], outbound := [], waiting := [], sending := none
    ownFrame := false, inBreak := false, linkErrors := 0, overruns := 0, linkResets := 0 }

/-- The body lane at power-on (R179). -/
def Lane.initial : Lane := { slot := none, select := false, out := none, trailing := false }

/-- The options at power-on (R189). -/
def Options.defaults : Options := { retention := 2, lead := 15, boundary := 6, autoResume := true }

/-- The request processor at power-on (R186, R189, R191, R193). -/
def RequestUnit.initial : RequestUnit :=
  { mode := .setup, options := Options.defaults, latched := 0, mask := 0, armed := true, wait := none
    entryTag := none, reloadTag := none }

/-- No reply formed. -/
def Formed.none : Formed := { immediate := Option.none, prepare := [], reload := Option.none, entry := Option.none }

/-- The part at power-on: every block at its power-on contents, with the calendar, the straps and the queue of commands
given (R25). -/
def State.atPowerOn (cal : Calendar) (rate : BitVec 2) (station : BitVec 3) (pending : List Instr) : State :=
  { powered := true
    cal := cal
    events := { minute := Option.none, rollover := Option.none, boundary := Option.none }
    deadlines := []
    cat := Catalogue.initial
    pool := Pool.initial
    link := StoreLink.initial
    vol := VolumeUnit.initial
    eng := Engine.initial
    hold := { entries := [], held := [] }
    ord := { live := [], next := 1, finished := [] }
    fee := { schedule := Schedule.zero, accounts := [] }
    stmt := StatementBuffer.initial cal.day
    port := MessagePort.initial rate station
    lane := Lane.initial
    req := RequestUnit.initial
    agenda := []
    formed := Formed.none
    pending := pending }

/-- The part right after power-on with the backup domain lost (R25), its straps at 0 (log 1), no command waiting. -/
def State.reset : State := State.atPowerOn Calendar.unset 0 0 []

end Sys2Proof.Machine
end

