-- ==== Sys2Proof/Machine/Checks.lean ====
section
/-! DEFINITION. The two checks of spec/00_scope.md, R2, and the bytes of a frame on the line (R173). -/

namespace Sys2Proof.Machine

/-- One bit of the reflected CRC-32 of polynomial 04C11DB7 hex (reflected, EDB88320 hex). -/
def crc32Bit (r : U32) : U32 := if r.getLsbD 0 then (r >>> 1) ^^^ 0xEDB88320#32 else r >>> 1

/-- One byte into the CRC-32 register. -/
def crc32Byte (r : U32) (b : U8) : U32 :=
  crc32Bit (crc32Bit (crc32Bit (crc32Bit (crc32Bit (crc32Bit (crc32Bit (crc32Bit
    (r ^^^ b.setWidth 32))))))))

/-- The CRC-32 register before the first byte: all ones (R2). -/
def crc32Start : U32 := 0xFFFFFFFF#32

/-- The check that a CRC-32 register stands for: the register inverted (R2). -/
def crc32End (r : U32) : U32 := ~~~r

/-- Body check: CRC-32 over the bytes (R2). -/
def crc32 (bytes : List U8) : U32 := crc32End (bytes.foldl crc32Byte crc32Start)

/-- One bit of the CRC-16 of polynomial 1021 hex, not reflected. -/
def crc16Bit (r : U16) : U16 := if r.getLsbD 15 then (r <<< 1) ^^^ 0x1021#16 else r <<< 1

/-- One byte into the CRC-16 register. -/
def crc16Byte (r : U16) (b : U8) : U16 :=
  crc16Bit (crc16Bit (crc16Bit (crc16Bit (crc16Bit (crc16Bit (crc16Bit (crc16Bit
    (r ^^^ (b.setWidth 16 <<< 8)))))))))

/-- Frame check: CRC-16 over the bytes, initial value FFFF hex, no final inversion (R2). -/
def crc16 (bytes : List U8) : U16 := bytes.foldl crc16Byte 0xFFFF#16

/-- The bytes of a frame before its check (R173). -/
def Frame.head (f : Frame) : List U8 :=
  [f.station, f.kind, f.tag] ++
    [BitVec.ofNat 8 (f.body.length / 256), BitVec.ofNat 8 f.body.length] ++ f.body

/-- The bytes of a frame on the line, its check last (R173). -/
def Frame.bytes (f : Frame) : List U8 :=
  f.head ++ [BitVec.ofNat 8 ((crc16 f.head).toNat / 256), BitVec.ofNat 8 (crc16 f.head).toNat]

end Sys2Proof.Machine
end

