-- ==== Sys2Proof/Machine/Operands.lean ====
section
/-! DEFINITION. Fields in replies: widths, most significant byte first, flag bytes, and the numeric codes that the rules give
for outcomes, states and names. -/

namespace Sys2Proof.Machine

/-- A U8 field. -/
def u8 (n : Nat) : List U8 := [BitVec.ofNat 8 n]

/-- A U16 field, most significant byte first. -/
def u16 (n : Nat) : List U8 := [BitVec.ofNat 8 (n / 256), BitVec.ofNat 8 n]

/-- A U32 field, most significant byte first. -/
def u32 (n : Nat) : List U8 := u16 (n / 65536) ++ u16 n

/-- An S32 field, two's complement. -/
def s32 (x : Int) : List U8 := u32 (BitVec.ofInt 32 x).toNat

/-- A flag byte: 1 when present or on. -/
def flagByte (b : Bool) : List U8 := if b then [1] else [0]

/-- An optional U8, with a value that stands for its absence. -/
def u8Or (absent : Nat) (n : Option Nat) : List U8 := u8 (n.getD absent)

/-- A locator or check, 0 while absent (R18). -/
def u32Opt (x : Option U32) : List U8 := u32 ((x.map BitVec.toNat).getD 0)

/-- A flag byte and a U16, zero when absent. -/
def flaggedDay (d : Option Nat) : List U8 := flagByte d.isSome ++ u16 (d.getD 0)

/-- Points flag, b and w, zero when absent (R18). -/
def pointsField (p : Option Points) : List U8 :=
  flagByte p.isSome ++ u8 ((p.map Points.b).getD 0) ++ u8 ((p.map Points.w).getD 0)

/-- An edition key: day (U16), code (U8). -/
def keyField (k : EditionKey) : List U8 := u16 k.day.toNat ++ u8 k.code.toNat

/-- An edition key of zeros, for a field that does not apply. -/
def noKey : EditionKey := ⟨0, 0⟩

/-- Outcome codes (R184). -/
def Code.toNat : Code → Nat
  | .ok => 0 | .pending => 1 | .unknownRequest => 2 | .notInService => 3 | .badState => 4 | .busy => 5
  | .notFound => 6 | .duplicate => 7 | .outOfRange => 8 | .tableFull => 9 | .stagingFull => 10 | .laneBusy => 11
  | .storeOffline => 12 | .storeFault => 13 | .storeTimeout => 14 | .bodyShort => 15 | .bodyCheck => 16
  | .aborted => 17 | .expired => 18 | .calendarUnset => 19 | .calendarRunning => 20 | .editionClosed => 21
  | .editionOpen => 22 | .pageOutOfPlan => 23 | .versionLimit => 24 | .photoNotFiled => 25
  | .placementInvalid => 26 | .notFiled => 27 | .notInVolume => 28 | .notResident => 29 | .sealed => 30
  | .levelLimit => 31 | .held => 32 | .rightsExpired => 33 | .limitViolation => 34 | .alreadyCharged => 35
  | .orderNumbersExhausted => 36

/-- Calendar state codes (R28). -/
def CalState.toNat : CalState → Nat
  | .invalid => 0 | .stopped => 1 | .running => 2

/-- Edition state codes; FREE is 0 (R5). -/
def EdState.toNat : EdState → Nat
  | .opened => 1 | .closing => 2 | .closed => 3 | .sealing => 4

/-- Record state codes (R6). -/
def RecState.toNat : RecState → Nat
  | .receiving => 0 | .staged => 1 | .writing => 2 | .filed => 3 | .failed => 4

/-- Rights class codes (R13). -/
def rightsCode : RightsClass → Nat
  | .staff => 0 | .agency => 1 | .freelance => 2 | .pub => 3

/-- The rights class of a code 0 to 3 (R13). -/
def rightsOfCode (n : Nat) : RightsClass :=
  if n = 0 then .staff else if n = 1 then .agency else if n = 2 then .freelance else .pub

/-- Link state codes (R70). -/
def LinkState.toNat : LinkState → Nat
  | .online => 0 | .offline => 1 | .recovered => 2

/-- Operation codes (R81). -/
def Op.code : Op → Nat
  | .writeIntake _ _ _ => 1 | .writeRestoration _ _ _ => 1 | .readForJob _ _ _ => 2 | .readForOrder _ _ _ => 2
  | .freeBody _ _ => 3 | .sealVolume _ _ => 4 | .readEntry _ _ _ => 5 | .amend _ _ _ _ _ _ => 6
  | .closeMark _ _ => 7 | .indexRead => 8 | .probe => 9

/-- Job state codes (R100). -/
def JobState.toNat : JobState → Nat
  | .queued => 0 | .claiming => 1 | .survey => 2 | .mapping => 3 | .writing => 4 | .done => 5 | .failed => 6

/-- Order state codes (R130, R131). -/
def OrdState.toNat : OrdState → Nat
  | .accepted => 0 | .waitSeal => 1 | .recalling => 2 | .restoreWait => 3 | .pricing => 4 | .heldRights => 5
  | .heldStatement => 6 | .heldFunds => 7 | .charged => 8 | .preparing => 9 | .ready => 10 | .delivering => 11
  | .done => 12 | .cancelled => 13 | .retired => 14 | .ended => 15

/-- Mode codes (R185). -/
def Mode.toNat : Mode → Nat
  | .setup => 0 | .setupPending => 1 | .service => 2 | .standbyPending => 3 | .standby => 4

/-- A placement in a reply: photo number, first column, first row, columns, rows (R18). -/
def placementField (p : Placement) : List U8 :=
  u32 p.photo.toNat ++ u8 p.firstCol.toNat ++ u8 p.firstRow.toNat ++ u8 p.cols.toNat ++ u8 p.rows.toNat

/-- Rights fields in a reply: class, until flag and day, royalty group (R19). -/
def rightsField (r : Rights) : List U8 := u8 (rightsCode r.cls) ++ flaggedDay r.untilDay ++ u8 r.group

/-- Columns and rows in a reply. -/
def gridField (g : Grid) : List U8 := u8 g.cols ++ u8 g.rows

end Sys2Proof.Machine
end

