-- ==== Sys2Proof/Machine/Flags.lean ====
section
/-! DEFINITION. The notice state's bits: latched events and level conditions (R191). -/

namespace Sys2Proof.Machine

/-- The events that are latched (R191). -/
inductive Event where
  | editionClosed | deadlineClosed | deadlineNear | fileFailed | sealDone | sealFailed | restoreDone | restoreFailed
  | orderHeld | orderEnded | readyExpired | statementClosed | statementFull | storeOffline | storeRecovered
  | lineError | frameOverrun | modeChanged | woken
  deriving DecidableEq, Repr

/-- The bit number of an event (R191). -/
def Event.bit : Event → Nat
  | .editionClosed => 0 | .deadlineClosed => 1 | .deadlineNear => 2 | .fileFailed => 3 | .sealDone => 4
  | .sealFailed => 5 | .restoreDone => 6 | .restoreFailed => 7 | .orderHeld => 8 | .orderEnded => 9
  | .readyExpired => 10 | .statementClosed => 11 | .statementFull => 12 | .storeOffline => 13
  | .storeRecovered => 14 | .lineError => 15 | .frameOverrun => 16 | .modeChanged => 17 | .woken => 18

/-- The word with one bit set. -/
def bitWord (n : Nat) : U32 := BitVec.twoPow 32 n

/-- A level's bit while it is true. -/
def levelBit (n : Nat) (b : Bool) : U32 := if b then bitWord n else 0

/-- The bits that a notice mask keeps: 0 to 18 and 24 to 27 (R192). -/
def maskBits : U32 := 0x0F07FFFF#32

/-- An event is latched; latching it again leaves the set as it was (R191). -/
def State.latch (s : State) (e : Event) : State :=
  { s with req := { s.req with latched := s.req.latched ||| bitWord e.bit } }

/-- Segments no holder holds (R62). -/
def Pool.free (p : Pool) : Nat := p.segments.countP Option.isNone

/-- An order in a held state (R130). -/
def OrdState.isHeld (st : OrdState) : Bool := st == .heldRights || st == .heldStatement || st == .heldFunds

/-- STAGING_LOW is true (R68). -/
def State.stagingIsLow (s : State) : Bool := decide (s.pool.free ≤ Config.stagingLow)

/-- The levels, read from their owners' state (R191). -/
def State.levels (s : State) : U32 :=
  levelBit 24 (s.link.state != .online) ||| levelBit 25 s.stagingIsLow |||
  levelBit 26 (decide (0 < s.stmt.current.missed)) ||| levelBit 27 (s.ord.live.any fun o => o.state.isHeld)

end Sys2Proof.Machine
end

