-- ==== Sys2Proof/Machine/Ops.lean ====
section
/-! DEFINITION. Named operations over the blocks: reading and changing records, giving and returning segments, the claim
queue, handing operations to the store link, pins, and recalls. A consequence that the rules place in the same change is
put on the change's list with push and worked through before the change ends (log 5). -/

namespace Sys2Proof.Machine

/-- A consequence joins the end of the change's list. -/
def State.push (s : State) (t : Task) : State := { s with agenda := s.agenda ++ [t] }

/-! ### Grids -/

/-- Tiles of a grid. -/
def gridTiles (g : Grid) : Nat := g.cols * g.rows

/-- Segments a body needs: ceil(tiles ÷ 16) (R63). -/
def gridSegments (g : Grid) : Nat := (gridTiles g + 15) / 16

/-- Bytes of a body: tiles times 4,096 (00, "Bodies and checks"). -/
def gridBytes (g : Grid) : Nat := gridTiles g * Config.tileBytes

/-! ### Catalogue -/

/-- Slot of the occupied entry with the key (R4). -/
def Catalogue.slotOf (c : Catalogue) (k : EditionKey) : Option Nat :=
  c.editions.findIdx? fun e => e.any fun x => x.key == k

/-- The entry of a slot; none when it is FREE (R3). -/
def Catalogue.edition? (c : Catalogue) (slot : Nat) : Option Edition := c.editions[slot]?.join

/-- An entry changed in place. -/
def Catalogue.withEdition (c : Catalogue) (slot : Nat) (f : Edition → Edition) : Catalogue :=
  { c with editions := c.editions.modify slot (Option.map f) }

/-- An entry put into a slot, or freed. -/
def Catalogue.putEdition (c : Catalogue) (slot : Nat) (e : Option Edition) : Catalogue :=
  { c with editions := c.editions.set slot e }

/-- The page record is this page number's version in this slot. -/
def Page.isAt (p : Page) (slot number version : Nat) : Bool :=
  p.slot == slot && p.number == number && p.version == version

/-- The page record of a key (R6). -/
def Catalogue.page? (c : Catalogue) (slot number version : Nat) : Option Page :=
  c.pages.find? fun p => p.isAt slot number version

/-- A page record changed in place. -/
def Catalogue.withPage (c : Catalogue) (slot number version : Nat) (f : Page → Page) : Catalogue :=
  { c with pages := c.pages.map fun p => if p.isAt slot number version then f p else p }

/-- The current version: FILED and not superseded (R8). -/
def Catalogue.current? (c : Catalogue) (slot number : Nat) : Option Page :=
  c.pages.find? fun p => p.slot == slot && p.number == number && p.state == .filed && !p.superseded

/-- The photo record of a number (R13). -/
def Catalogue.photo? (c : Catalogue) (n : U32) : Option Photo := c.photos.find? fun p => p.number == n

/-- A photo record changed in place. -/
def Catalogue.withPhoto (c : Catalogue) (n : U32) (f : Photo → Photo) : Catalogue :=
  { c with photos := c.photos.map fun p => if p.number == n then f p else p }

/-- Each placed photo's reference count rises by 1 (R10). -/
def Catalogue.raiseRefs (c : Catalogue) (ps : List Placement) : Catalogue :=
  { c with photos := c.photos.map fun p =>
      if ps.any (fun pl => pl.photo == p.number) then { p with refs := p.refs + 1 } else p }

/-- Each placed photo's reference count falls by 1 (R10). -/
def Catalogue.dropRefs (c : Catalogue) (ps : List Placement) : Catalogue :=
  { c with photos := c.photos.map fun p =>
      if ps.any (fun pl => pl.photo == p.number) then { p with refs := p.refs - 1 } else p }

/-- A record on its way: RECEIVING, STAGED or WRITING (R57). -/
def RecState.inFlight (st : RecState) : Bool := st == .receiving || st == .staged || st == .writing

/-- The edition's page records, in any state. -/
def Catalogue.pagesOf (c : Catalogue) (slot : Nat) : List Page := c.pages.filter fun p => p.slot == slot

/-- Order of edition keys: day first, then code (R24). -/
def EditionKey.before (a b : EditionKey) : Bool :=
  decide (a.day.toNat < b.day.toNat ∨ (a.day.toNat = b.day.toNat ∧ a.code.toNat ≤ b.code.toNat))

/-- An element put in front of the first that it comes before. -/
def insertBy {α : Type} (le : α → α → Bool) (x : α) : List α → List α
  | [] => [x]
  | y :: ys => if le x y then x :: y :: ys else y :: insertBy le x ys

/-- A list in the order of le, equal elements in the order they stood. -/
def sortBy {α : Type} (le : α → α → Bool) : List α → List α
  | [] => []
  | x :: xs => insertBy le x (sortBy le xs)

/-- The catalogue changed. -/
def State.withCat (s : State) (f : Catalogue → Catalogue) : State := { s with cat := f s.cat }

/-! ### Orders, jobs and accounts by number -/

/-- A live order (R129). -/
def State.order? (s : State) (n : Nat) : Option Order := s.ord.live.find? fun o => o.number == n

/-- A live order changed in place. -/
def State.withOrder (s : State) (n : Nat) (f : Order → Order) : State :=
  { s with ord := { s.ord with live := s.ord.live.map fun o => if o.number == n then f o else o } }

/-- A live job (R100). -/
def State.job? (s : State) (n : Nat) : Option Job := s.eng.jobs.find? fun j => j.number == n

/-- A live job changed in place. -/
def State.withJob (s : State) (n : Nat) (f : Job → Job) : State :=
  { s with eng := { s.eng with jobs := s.eng.jobs.map fun j => if j.number == n then f j else j } }

/-- The account of a number (R158). -/
def FeeUnit.account? (f : FeeUnit) (n : Nat) : Option Account := f.accounts.find? fun a => a.number == n

/-- An account changed in place. -/
def State.withAccount (s : State) (n : Nat) (f : Account → Account) : State :=
  { s with fee := { s.fee with accounts := s.fee.accounts.map fun a => if a.number == n then f a else a } }

/-! ### Store link -/

/-- Kinds for the wait list (R71). -/
def Op.isFiling : Op → Bool
  | .writeIntake _ _ _ => true
  | .closeMark _ _ => true
  | .writeRestoration _ _ _ | .readForJob _ _ _ | .readForOrder _ _ _ | .freeBody _ _ | .sealVolume _ _ => false
  | .readEntry _ _ _ | .amend _ _ _ _ _ _ | .indexRead | .probe => false

/-- The discard kind: FREE BODY (R71). -/
def Op.isDiscard : Op → Bool
  | .freeBody _ _ => true
  | .writeIntake _ _ _ | .closeMark _ _ | .writeRestoration _ _ _ | .readForJob _ _ _ | .readForOrder _ _ _ => false
  | .sealVolume _ _ | .readEntry _ _ _ | .amend _ _ _ _ _ _ | .indexRead | .probe => false

/-- An owner's operation, that is, not a PROBE (R71, R78). -/
def Op.isOwned (op : Op) : Bool := op != .probe

/-- The operation takes the slot: its issue number is raised, wrapping at 65,536, and its timeout starts (R72). -/
def StoreLink.occupy (l : StoreLink) (i : Nat) (op : Op) : StoreLink :=
  { l with slots := l.slots.modify i fun sl =>
      { issue := (sl.issue + 1) % 65536, occupant := some ⟨op, Config.storeTicks⟩ } }

/-- The slot is emptied; its issue number stays. -/
def StoreLink.vacate (l : StoreLink) (i : Nat) : StoreLink :=
  { l with slots := l.slots.modify i fun sl => { sl with occupant := none } }

/-- The operation in a slot (R70). -/
def StoreLink.running? (l : StoreLink) (i : Nat) : Option Running := (l.slots[i]?).bind OpSlot.occupant

/-- The first operation that meets a test, and the list without it. -/
def takeFirst (p : Op → Bool) : List Op → Option (Op × List Op)
  | [] => none
  | x :: xs => if p x then some (x, xs) else (takeFirst p xs).map fun r => (r.1, x :: r.2)

/-- The waiting operation that a freed slot is given to: the oldest of the filing kind, else the oldest (R73). -/
def nextWaiting (w : List Op) : Option (Op × List Op) :=
  match takeFirst Op.isFiling w with
  | some r => some r
  | none => takeFirst (fun _ => true) w

/-- A freed slot passes on to a waiting operation (R73). -/
def StoreLink.passOn (l : StoreLink) (i : Nat) : StoreLink :=
  match nextWaiting l.waiting with
  | some (op, rest) => StoreLink.occupy { l with waiting := rest } i op
  | none => l

/-- An operation is taken in ONLINE: by the lowest-numbered empty slot, or else by the wait list's tail (R72). -/
def StoreLink.accept (l : StoreLink) (op : Op) : StoreLink :=
  let l1 := if op.isDiscard then { l with discards := l.discards + 1 } else l
  match l1.slots.findIdx? (fun sl => sl.occupant.isNone) with
  | some i => l1.occupy i op
  | none => { l1 with waiting := l1.waiting ++ [op] }

/-- An owner hands an operation to the store link (R72). -/
def State.handOff (s : State) (op : Op) : State :=
  match s.link.state with
  | .online =>
    if op.isDiscard && s.link.discards == Config.discardLimit then
      { s with link := { s.link with dropped := min 65535 (s.link.dropped + 1) } }
    else { s with link := s.link.accept op }
  | .offline | .recovered => s.push (.complete op (.failed .storeOffline))

/-- Every operation the link holds, in slots and waiting. -/
def StoreLink.held (l : StoreLink) : List Op :=
  l.slots.filterMap (fun sl => sl.occupant.map Running.op) ++ l.waiting

/-- The link holds no owner's operation (R82, R187, R188). -/
def StoreLink.idle (l : StoreLink) : Bool := l.held.all fun op => !op.isOwned

/-- The link goes OFFLINE at the failure of the operation in slot i (R77). -/
def State.goOffline (s : State) (i : Nat) (op : Op) (c : Completion) : State :=
  let l := s.link.vacate i
  let others := l.held
  let down : StoreLink :=
    { state := .offline, slots := l.slots.map fun sl => ⟨sl.issue, none⟩, waiting := []
      failures := Config.failureLimit, goodProbes := 0, discards := 0, dropped := l.dropped
      probeTicks := some Config.probeTicks }
  let s1 : State := { s with link := down }
  others.foldl (fun t o => State.push t (.complete o (.failed .storeOffline)))
    ((s1.latch .storeOffline).push (.complete op c))

/-- The operation in slot i completes: the failure counter rises after a failing answer or timeout and is 0 after any other
answer; at 8 the link goes OFFLINE; else the slot passes on (R73 to R77). -/
def State.completeSlot (s : State) (i : Nat) (op : Op) (c : Completion) (failure : Bool) : State :=
  if failure && s.link.failures + 1 ≥ Config.failureLimit then s.goOffline i op c
  else
    let l := s.link.vacate i
    let l1 := { l with
      failures := if failure then l.failures + 1 else 0
      discards := if op.isDiscard then l.discards - 1 else l.discards }
    State.push { s with link := l1.passOn i } (.complete op c)

/-! ### Staging pool -/

/-- Segments a holder holds (R62). -/
def Pool.heldBy (p : Pool) (h : Holder) : Nat := p.segments.countP fun x => x == some h

/-- n free segments given to a holder, the lowest-numbered first (log 11). -/
def fillFree (h : Holder) : Nat → List (Option Holder) → List (Option Holder)
  | 0, l => l
  | _ + 1, [] => []
  | n + 1, none :: l => some h :: fillFree h n l
  | n + 1, some x :: l => some x :: fillFree h (n + 1) l

/-- The segments of a holder freed. -/
def emptyOut (h : Holder) (l : List (Option Holder)) : List (Option Holder) :=
  l.map fun x => if x == some h then none else x

/-- The bytes that lie in a holder's segments (R63). -/
def Pool.content (p : Pool) (h : Holder) : List U8 := ((p.contents.find? fun c => c.1 == h).map Prod.snd).getD []

/-- The bytes in a holder's segments replaced. -/
def Pool.putContent (p : Pool) (h : Holder) (b : List U8) : Pool :=
  { p with contents := (p.contents.filter fun c => c.1 != h) ++ [(h, b)] }

/-- A holder is given n segments (R62). -/
def State.give (s : State) (h : Holder) (n : Nat) : State :=
  { s with pool := { s.pool with segments := fillFree h n s.pool.segments } }

/-- A holder returns its segments, and the claim queue is re-examined (R62, R66); a holder of none releases nothing. -/
def State.release (s : State) (h : Holder) : State :=
  if s.pool.heldBy h = 0 then s
  else State.push { s with pool := { s.pool with
    segments := emptyOut h s.pool.segments, contents := s.pool.contents.filter fun c => c.1 != h } } .regrant

/-- A claim fits: the free segments less the reserve are at least its need (R65). -/
def Pool.fits (p : Pool) (c : Claim) : Bool := decide (c.need + Config.intakeReserve ≤ p.free)

/-- A claim leaves the queue without a grant; when it was the head, the queue is re-examined (R67). -/
def State.removeClaim (s : State) (h : Holder) : State :=
  let s1 := { s with pool := { s.pool with claims := s.pool.claims.filter fun c => c.owner != h } }
  match s.pool.claims with
  | c :: _ => if c.owner == h then s1.push .regrant else s1
  | [] => s1

/-! ### Pins -/

/-- An edition joins the tail of the seal queue, unless it stands there (R83). -/
def State.enqueueSeal (s : State) (slot : Nat) : State :=
  if s.vol.sealQueue.contains slot then s
  else State.push { s with vol := { s.vol with sealQueue := s.vol.sealQueue ++ [slot] } } .sealTest

/-- An order or job pins an edition (R11). -/
def State.pinEdition (s : State) (slot : Nat) : State :=
  s.withCat fun c => c.withEdition slot fun e => { e with pins := e.pins + 1 }

/-- An order or job releases an edition's pin; a due edition whose last pin goes joins the seal queue (R11). -/
def State.unpinEdition (s : State) (slot : Nat) : State :=
  match s.cat.edition? slot with
  | none => s
  | some e =>
    if e.pins ≤ 1 && e.due then
      (s.withCat fun c => c.withEdition slot fun e => { e with pins := e.pins - 1, due := false }).enqueueSeal slot
    else s.withCat fun c => c.withEdition slot fun e => { e with pins := e.pins - 1 }

/-- An order or job pins a photo (R12). -/
def State.pinPhoto (s : State) (n : U32) : State :=
  s.withCat fun c => c.withPhoto n fun p => { p with pins := p.pins + 1 }

/-- An order or job releases a photo's pin (R12). -/
def State.unpinPhoto (s : State) (n : U32) : State :=
  s.withCat fun c => c.withPhoto n fun p => { p with pins := p.pins - 1 }

/-! ### Recalls -/

/-- The recall slot that holds a key (R92, R93). -/
def VolumeUnit.holding (v : VolumeUnit) (volume : U32) (key : EntryKey) : Option Nat :=
  v.table.findIdx? fun r => r.any fun x => x.volume == volume && x.key == key

/-- The content of a recall slot; none when it is FREE. -/
def VolumeUnit.slot? (v : VolumeUnit) (i : Nat) : Option RecallSlot := v.table[i]?.join

/-- A recall slot changed in place. -/
def State.withRecall (s : State) (i : Nat) (f : RecallSlot → RecallSlot) : State :=
  { s with vol := { s.vol with table := s.vol.table.modify i (Option.map f) } }

/-- A requester pins a slot: it is handed a RESIDENT slot in the same change and the slot leaves the least-recently-unpinned
list; it waits on a FETCHING one (R93, step 1). -/
def State.pinSlot (s : State) (r : Requester) (i : Nat) : State :=
  let s1 := s.withRecall i fun x => { x with pinners := x.pinners ++ [r] }
  let s2 := { s1 with vol := { s1.vol with lru := s1.vol.lru.filter fun j => j != i } }
  if (s.vol.slot? i).any fun x => x.copy.isSome then s2.push (.recallGiven r i) else s2

/-- A slot takes a key and fetches it with one requester's pin (R93, step 3). -/
def State.fetch (s : State) (i : Nat) (w : RecallWaiter) : State :=
  State.handOff { s with vol := { s.vol with table := s.vol.table.set i (some ⟨w.volume, w.key, [w.requester], none⟩) } }
    (.readEntry i w.volume w.key)

/-- Steps 1, 3 and 4 of R93: a slot that holds the key, a FREE slot, or an evicted one. -/
def State.tryServe (s : State) (w : RecallWaiter) : Option State :=
  match s.vol.holding w.volume w.key with
  | some i => some (s.pinSlot w.requester i)
  | none =>
    match s.vol.table.findIdx? Option.isNone with
    | some i => some (s.fetch i w)
    | none =>
      match s.vol.lru with
      | i :: rest => some (State.fetch { s with vol := { s.vol with lru := rest } } i w)
      | [] => none

/-- A requester joins the tail of the recall wait queue (R93, steps 2 and 5). -/
def State.joinRecallWait (s : State) (w : RecallWaiter) : State :=
  { s with vol := { s.vol with recallWait := s.vol.recallWait ++ [w] } }

/-- A requester asks for a recall (R93). -/
def State.requestRecall (s : State) (w : RecallWaiter) : State :=
  if (s.vol.holding w.volume w.key).isNone && !s.vol.recallWait.isEmpty then s.joinRecallWait w
  else
    match s.tryServe w with
    | some t => t
    | none => s.joinRecallWait w

/-- After the head has been given a slot, every later requester for the same key pins it, in queue order (R97). -/
def State.joinSameKey (s : State) (volume : U32) (key : EntryKey) : State :=
  match s.vol.holding volume key with
  | none => s
  | some i =>
    let same := s.vol.recallWait.filter fun w => w.volume == volume && w.key == key
    let rest := s.vol.recallWait.filter fun w => !(w.volume == volume && w.key == key)
    same.foldl (fun t w => t.pinSlot w.requester i) { s with vol := { s.vol with recallWait := rest } }

/-- The recall wait queue is served from its head until it is empty or the head cannot be given a slot (R97). The first
argument bounds the heads served; the length of the queue is enough. -/
def State.serveRecall : Nat → State → State
  | 0, s => s
  | n + 1, s =>
    match s.vol.recallWait with
    | [] => s
    | w :: rest =>
      match State.tryServe { s with vol := { s.vol with recallWait := rest } } w with
      | none => s
      | some t => State.serveRecall n (t.joinSameKey w.volume w.key)

/-- A slot that no requester pins joins the least-recently-unpinned list at its most recent end, and the recall wait queue
is served (R95, R98). -/
def State.unpinned (s : State) (i : Nat) : State :=
  State.push { s with vol := { s.vol with lru := s.vol.lru ++ [i] } } .serveRecall

/-- A requester gives up its slot's pin (R98). -/
def State.releaseSlot (s : State) (r : Requester) : State :=
  match s.vol.table.findIdx? (fun x => x.any fun y => y.pinners.contains r) with
  | none => s
  | some i =>
    let s1 := s.withRecall i fun x => { x with pinners := x.pinners.filter fun q => q != r }
    match s1.vol.slot? i with
    | some x => if x.pinners.isEmpty && x.copy.isSome then s1.unpinned i else s1
    | none => s1

/-- A requester leaves the recall wait queue; when it was the head, serving is tried again (R97). -/
def State.leaveRecallWait (s : State) (r : Requester) : State :=
  let s1 := { s with vol := { s.vol with recallWait := s.vol.recallWait.filter fun w => w.requester != r } }
  match s.vol.recallWait with
  | w :: _ => if w.requester == r then s1.push .serveRecall else s1
  | [] => s1

/-- A requester gives up its recall, wherever it stands (R97, R98). -/
def State.releaseRecall (s : State) (r : Requester) : State := (s.leaveRecallWait r).releaseSlot r

/-! ### What an order or a job works on -/

/-- A placement with the rights of its photograph. -/
structure Placed where
  place : Placement
  rights : Rights
  deriving DecidableEq, Repr

/-- The fields of a body that orders and jobs read: from the resident record, or from the copy in a recall slot (R92). -/
structure View where
  grid : Grid
  level : Nat
  current : U32
  stored : U32
  placed : List Placed
  own : Option Rights
  deriving DecidableEq, Repr

/-- Rights read for a photograph whose record is gone; a placed or pinned photograph's record never is (R10; log 21). -/
def noRights : Rights := ⟨.staff, none, 0⟩

/-- A resident page's fields. -/
def Catalogue.pageView (c : Catalogue) (p : Page) : View :=
  { grid := p.grid, level := p.level, current := p.current.getD 0, stored := p.stored.getD 0
    placed := p.placements.map fun pl => ⟨pl, ((c.photo? pl.photo).map Photo.rights).getD noRights⟩
    own := none }

/-- A resident photograph's fields. -/
def photoView (p : Photo) : View :=
  { grid := p.grid, level := p.level, current := p.current.getD 0, stored := p.stored.getD 0
    placed := [], own := some p.rights }

/-- A record copy's fields (R92). -/
def copyView : EntryCopy → View
  | .page c =>
    { grid := c.grid, level := c.level, current := c.current, stored := c.stored
      placed := c.placed.map fun p => ⟨p.place, p.rights⟩, own := none }
  | .photo c =>
    { grid := c.grid, level := c.level, current := c.current, stored := c.stored
      placed := [], own := some c.rights }

/-- The copy in a recall slot. -/
def VolumeUnit.copy? (v : VolumeUnit) (i : Nat) : Option EntryCopy := (v.slot? i).bind RecallSlot.copy

/-- What an order's target holds: the page or photograph of the catalogue, or the copy in its recall slot (R129, R142). -/
def State.orderView (s : State) (o : Order) : Option View :=
  if o.volume = 0 then
    match o.photo with
    | some n => (s.cat.photo? n).map photoView
    | none => (s.cat.page? (o.pinEdition.getD 64) o.page (o.resolved.getD 0)).map s.cat.pageView
  else (o.recallSlot.bind s.vol.copy?).map copyView

/-- What a job's target holds (R106, R107). -/
def State.jobView (s : State) (j : Job) : Option View :=
  match j.target with
  | .page slot number version => (s.cat.page? slot number version).map s.cat.pageView
  | .photo n => (s.cat.photo? n).map photoView
  | .sealed _ _ => (j.recallSlot.bind s.vol.copy?).map copyView

/-- The volume a job reads from: 0 for a resident target (R107). -/
def Target.volume : Target → U32
  | .sealed v _ => v
  | .page _ _ _ | .photo _ => 0

/-! ### Claims granted -/

/-- A claim is granted: the owner is given its segments and goes on. A job becomes SURVEY and reads its body (R107); a
preparation records the locator and check of the body it reads, and reads it (R142). -/
def State.grant (s : State) (c : Claim) : State :=
  let s1 := s.give c.owner c.need
  match c.owner with
  | .record _ => s1
  | .job n =>
    match s1.job? n with
    | none => s1
    | some j =>
      match s1.jobView j with
      | none => s1
      | some v => (s1.withJob n fun j => { j with state := .survey }).handOff (.readForJob n j.target.volume v.current)
  | .order n =>
    match s1.order? n with
    | none => s1
    | some o =>
      match s1.orderView o with
      | none => s1
      | some v =>
        (s1.withOrder n fun o => { o with readOf := some (v.current, v.stored) }).handOff
          (.readForOrder n o.volume v.current)

/-- A claim is placed: granted at once when the queue is empty and it fits, else added at the tail (R65). -/
def State.placeClaim (s : State) (c : Claim) : State :=
  if s.pool.claims.isEmpty && s.pool.fits c then s.grant c
  else { s with pool := { s.pool with claims := s.pool.claims ++ [c] } }

/-- The claims at the head that fit are granted in order (R66); the list is the claim queue. -/
def State.regrant : List Claim → State → State
  | [], s => s
  | c :: rest, s =>
    if s.pool.fits c then State.regrant rest (State.grant { s with pool := { s.pool with claims := rest } } c) else s

end Sys2Proof.Machine
end

