-- ==== Sys2Proof/Machine/Pricing.lean ====
section
/-! DEFINITION. Holds, the pricing sequence, the charge, and an order's leaving the table (07, 08, 09, 10): shared by every
command that prices, holds or ends an order. -/

namespace Sys2Proof.Machine

/-! ### What a hold covers (R119) -/

/-- A hold's key covers the page. -/
def coversPage (h : HoldKey) (k : EditionKey) (page : Nat) : Bool :=
  match h with
  | .day d => d == k.day.toNat
  | .edition x => x == k
  | .page x n => x == k && n == page
  | .photo _ => false

/-- A hold's key covers the photograph. -/
def coversPhoto (h : HoldKey) (n : U32) : Bool :=
  match h with
  | .photo x => x == n
  | .day _ | .edition _ | .page _ _ => false

/-- The page matches a hold (R119). -/
def HoldList.pageMatches (l : HoldList) (k : EditionKey) (page : Nat) : Bool :=
  l.entries.any fun h => coversPage h.key k page

/-- The photograph matches a hold (R119). -/
def HoldList.photoMatches (l : HoldList) (n : U32) : Bool := l.entries.any fun h => coversPhoto h.key n

/-- A photograph's rights have lapsed on the day given (R119). -/
def lapsed (r : Rights) (today : Nat) : Bool := r.untilDay.any fun d => decide (d < today)

/-- A placement is masked: its photograph matches or has lapsed (R125). -/
def State.isMasked (s : State) (p : Placed) : Bool :=
  s.hold.photoMatches p.place.photo || lapsed p.rights s.cal.day

/-- The list positions, from 1, of a body's masked placements (R125, R126). -/
def State.maskOf (s : State) (v : View) : List Nat :=
  (v.placed.zipIdx 1).filterMap fun x => if s.isMasked x.1 then some x.2 else none

/-- A photo-only order's photograph has lapsed (R125). -/
def State.ownLapsed (s : State) (o : Order) (v : View) : Bool :=
  o.photo.isSome && v.own.any fun r => lapsed r s.cal.day

/-- An order is matched: its page, or for a photo-only order its page or its photograph (R124, R125). -/
def State.orderMatches (s : State) (o : Order) : Bool :=
  s.hold.pageMatches o.key o.page || o.photo.any fun n => s.hold.photoMatches n

/-- What the hold check finds (R125). -/
inductive HoldCheck where
  | held
  | expired
  | passed (masked : List Nat)
  deriving DecidableEq, Repr

/-- The hold check (R125). -/
def State.holdCheck (s : State) (o : Order) (v : View) : HoldCheck :=
  if s.orderMatches o then .held else if s.ownLapsed o v then .expired else .passed (s.maskOf v)

/-! ### The price (R151, R153, R154) -/

/-- Age of an edition in days; 0 for a future day (R151). -/
def ageInDays (today editionDay : Nat) : Nat := today - editionDay

/-- Age band (R151). -/
def ageBand (age : Nat) : Nat := if age ≤ 6 then 0 else if age ≤ 364 then 1 else if age ≤ 9124 then 2 else 3

/-- The core: B × F × (100 − D) per copy, rounded once over all copies, halves upward, then capped (R153). -/
def coreOf (b f d copies cap : Nat) : Nat :=
  let raw := (copies * (b * f * (100 - d)) + 5000) / 10000
  if cap ≠ 0 ∧ cap < raw then cap else raw

/-- The royalty per copy of a photograph: its group's for AGENCY and FREELANCE, else nothing (R154). -/
def Schedule.royaltyOf (f : Schedule) (r : Rights) : Nat :=
  match r.cls with
  | .agency | .freelance => f.royalty.getD r.group 0
  | .staff | .pub => 0

/-- A computed price (R153, R154). -/
structure Price where
  core : Nat
  royalties : Nat
  surcharge : Nat
  total : Nat
  deriving DecidableEq, Repr

/-- The price of an order on a day, for an account's tier and the photographs it pays for (R153, R154). -/
def Schedule.price (f : Schedule) (today tier : Nat) (o : Order) (sold : List Rights) : Price :=
  let band := ageBand (ageInDays today o.key.day.toNat)
  let core := coreOf (f.base.getD (o.useClass * 4 + o.sizeClass) 0) (f.age.getD band 0) (f.tier.getD tier 0)
    o.copies (f.caps.getD o.useClass 0)
  let royalties := o.copies * (sold.map f.royaltyOf).sum
  let surcharge := if o.bearer then f.surcharge else 0
  { core := core, royalties := royalties, surcharge := surcharge
    total := max f.minimum (core + royalties + surcharge) }

/-- The photographs an order pays for: a photo-only order's own, or the page's that are not masked (R154). -/
def soldRights (o : Order) (v : View) (masked : List Nat) : List Rights :=
  if o.photo.isSome then v.own.toList
  else (v.placed.zipIdx 1).filterMap fun x => if masked.contains x.2 then none else some x.1.rights

/-! ### Leaving the table (R131, R138) -/

/-- An order leaves every list it may stand in: rights-held, held-for-room, seal waiters, joiners, its account's queue. -/
def State.forgetOrder (s : State) (o : Order) : State :=
  { s with
    hold := { s.hold with held := s.hold.held.filter fun n => n != o.number }
    stmt := { s.stmt with held := s.stmt.held.filter fun n => n != o.number }
    vol := { s.vol with waiters := s.vol.waiters.filter fun n => n != o.number }
    eng := { s.eng with jobs := s.eng.jobs.map fun j =>
      { j with joiners := j.joiners.filter fun n => n != o.number } }
    fee := { s.fee with accounts := s.fee.accounts.map fun a =>
      if a.number == o.account then
        { a with live := a.live - 1, queue := a.queue.filter fun n => n != o.number }
      else a } }

/-- An order releases its edition's and photograph's pins (R11, R12). -/
def State.releasePins (s : State) (o : Order) : State :=
  let s1 := match o.pinEdition with
    | some slot => s.unpinEdition slot
    | none => s
  match o.pinPhoto with
  | some n => s1.unpinPhoto n
  | none => s1

/-- The copy of an order that enters the finished list: its fields after its releases (R131; log 16). -/
def Order.finishedCopy (o : Order) (final : OrdState) (code : Code) : Order :=
  { o with state := final, outcome := code, pinEdition := none, pinPhoto := none, job := none, prepared := none
           readOf := none, landed := false, prepTag := none, readyTicks := 0 }

/-- An order leaves the table: pins, recall, claim and segments are released, every list forgets it, and a copy enters the
finished list (R131, R138). -/
def State.leaveTable (s : State) (n : Nat) (final : OrdState) (code : Code) : State :=
  match s.order? n with
  | none => s
  | some o =>
    let t := ((((s.releasePins o).releaseRecall (.order n)).removeClaim (.order n)).release (.order n)).forgetOrder o
    { t with ord := { t.ord with
      live := t.ord.live.filter fun x => x.number != n
      finished := t.ord.finished ++ [o.finishedCopy final code] } }

/-- An order ends with a failing outcome (R138). -/
def State.endOrder (s : State) (n : Nat) (code : Code) : State :=
  if (s.order? n).isSome then (s.leaveTable n .ended code).latch .orderEnded else s

/-! ### The pricing sequence (R152 to R157) -/

/-- An order is put in a held state, and ORDER_HELD is latched (R152). -/
def State.putOnHold (s : State) (n : Nat) (st : OrdState) : State :=
  (s.withOrder n fun o => { o with state := st }).latch .orderHeld

/-- HELD_RIGHTS: the order joins the tail of the rights-held list (R124). -/
def State.holdForRights (s : State) (n : Nat) : State :=
  State.putOnHold { s with hold := { s.hold with held := s.hold.held ++ [n] } } n .heldRights

/-- HELD_STATEMENT: the order joins the tail of the held-for-room list (R155, R168). -/
def State.holdForRoom (s : State) (n : Nat) : State :=
  State.putOnHold { s with stmt := { s.stmt with held := s.stmt.held ++ [n] } } n .heldStatement

/-- HELD_FUNDS: the order joins the tail of its account's queue (R156). -/
def State.holdForFunds (s : State) (n account : Nat) : State :=
  (s.withAccount account fun a => { a with queue := a.queue ++ [n] }).putOnHold n .heldFunds

/-- A retried order that still does not fit is back at the head of its queue; nothing is latched (R162). -/
def State.keepAtHead (s : State) (n account : Nat) : State :=
  (s.withAccount account fun a => { a with queue := n :: a.queue }).withOrder n fun o => { o with state := .heldFunds }

/-- The open statement has room for one more entry (R155). -/
def StatementBuffer.hasRoom (b : StatementBuffer) : Bool := decide (b.current.entries.length < Config.statementEntries)

/-- The statement entry of a charge (R157, R164). -/
def chargeEntry (cal : Calendar) (o : Order) (masked : Nat) (p : Price) : Entry :=
  { order := o.number, account := o.account, day := cal.day, hour := cal.hour, minute := cal.minute
    useClass := o.useClass, sizeClass := o.sizeClass, copies := o.copies, masked := masked
    core := p.core, royalties := p.royalties, surcharge := p.surcharge, total := p.total }

/-- An entry is appended to the open statement. -/
def StatementBuffer.append (b : StatementBuffer) (e : Entry) : StatementBuffer :=
  { b with current := { b.current with entries := b.current.entries ++ [e] } }

/-- The charge: the balance falls, the entry is appended, the order becomes CHARGED; the 512th entry latches STATEMENT_FULL
(R157, R168). -/
def State.charge (s : State) (o : Order) (masked : Nat) (p : Price) : State :=
  let s1 := s.withAccount o.account fun a => { a with balance := a.balance - p.total }
  let s2 := { s1 with stmt := s1.stmt.append (chargeEntry s.cal o masked p) }
  let s3 := s2.withOrder o.number fun o => { o with state := .charged, masked := masked, charged := p.total }
  if s3.stmt.hasRoom then s3 else s3.latch .statementFull

/-- The total fits the account's room: its balance plus its credit limit (R156). -/
def Account.fits (a : Account) (total : Nat) : Bool := decide ((total : Int) ≤ a.balance + a.limit)

/-- The statement room, funds and charge steps (R155, R156, R157). retried says that the order comes from its account's
queue, which it has left. -/
def State.fundsStep (s : State) (o : Order) (a : Account) (masked : Nat) (p : Price) (retried : Bool) : State :=
  if !s.stmt.hasRoom then s.holdForRoom o.number
  else if !retried && !a.queue.isEmpty then s.holdForFunds o.number a.number
  else if a.fits p.total then s.charge o masked p
  else if retried then s.keepAtHead o.number a.number
  else s.holdForFunds o.number a.number

/-- The pricing sequence on a live order (R152). -/
def State.priceOrder (s : State) (n : Nat) (retried : Bool) : State :=
  match s.order? n with
  | none => s
  | some o =>
    match s.orderView o, s.fee.account? o.account with
    | some v, some a =>
      match s.holdCheck o v with
      | .held => s.holdForRights n
      | .expired => s.endOrder n .rightsExpired
      | .passed masked =>
        s.fundsStep o a masked.length (s.fee.schedule.price s.cal.day a.tier o (soldRights o v masked)) retried
    | _, _ => s

/-! ### Retries -/

/-- An order's state, none when it is not live. -/
def State.orderState? (s : State) (n : Nat) : Option OrdState := (s.order? n).map Order.state

/-- The re-evaluation of the rights-held list over the orders given, with the number that left HELD_RIGHTS (R124). -/
def State.reevaluate : List Nat → State → State × Nat
  | [], s => (s, 0)
  | n :: rest, s =>
    if (s.order? n).any fun o => s.orderMatches o then State.reevaluate rest s
    else
      let s1 := { s with hold := { s.hold with held := s.hold.held.filter fun m => m != n } }
      let r := State.reevaluate rest (s1.priceOrder n false)
      (r.1, r.2 + 1)

/-- The retry of an account's held-funds queue, with the number of orders charged (R162). The first argument bounds the
heads taken; the length of the queue is enough. -/
def State.retryFunds (account : Nat) : Nat → State → State × Nat
  | 0, s => (s, 0)
  | k + 1, s =>
    match (s.fee.account? account).map Account.queue with
    | some (n :: rest) =>
      let s1 := (s.withAccount account fun a => { a with queue := rest }).priceOrder n true
      if s1.orderState? n == some .heldFunds then (s1, 0)
      else
        let r := State.retryFunds account k s1
        (r.1, r.2 + if s1.orderState? n == some .charged then 1 else 0)
    | some [] | none => (s, 0)

/-- Length of an account's held-funds queue. -/
def FeeUnit.queueLength (f : FeeUnit) (account : Nat) : Nat :=
  ((f.account? account).map fun a => a.queue.length).getD 0

/-- The whole retry of an account's queue (R162). -/
def State.retryAccount (s : State) (account : Nat) : State × Nat :=
  State.retryFunds account (s.fee.queueLength account) s

/-- The retry of the held-for-room list: each order leaves it and is priced again (R168). -/
def State.retryRoom : List Nat → State → State
  | [], s => s
  | n :: rest, s =>
    State.retryRoom rest
      (State.priceOrder { s with stmt := { s.stmt with held := s.stmt.held.filter fun m => m != n } } n false)

/-! ### The close of the open statement (R166) -/

/-- The statement number after n, wrapping from 4,294,967,295 to 1 (R166). -/
def nextStatement (n : Nat) : Nat := if n = 4294967295 then 1 else n + 1

/-- The open statement as it is closed (R166, step 1). -/
def OpenStatement.closedAs (o : OpenStatement) (day cause : Nat) : ClosedStatement :=
  { number := o.number, firstDay := o.firstDay, lastDay := day, spanned := o.missed, cause := cause
    entries := o.entries }

/-- The open statement closes and a new one begins (R166, steps 1 to 3). -/
def StatementBuffer.turnOver (b : StatementBuffer) (day cause : Nat) : StatementBuffer :=
  { b with
    closed := b.closed ++ [b.current.closedAs day cause]
    current := { number := nextStatement b.current.number, firstDay := day, missed := 0, entries := [] } }

/-- The close of the open statement, with the retry that follows it (R166). -/
def State.closeOpenStatement (s : State) (cause : Nat) : State :=
  let s1 := State.latch { s with stmt := s.stmt.turnOver s.cal.day cause } .statementClosed
  State.retryRoom s1.stmt.held s1

end Sys2Proof.Machine
end

