-- ==== Sys2Proof/Machine/Jobs.lean ====
section
/-! DEFINITION. Restoration jobs, the discard of replaced bodies, the tone stretch, and what an order does once it has
its target (06; R134 to R137). -/

namespace Sys2Proof.Machine

/-! ### Index records (R15) -/

/-- A page's index record, as the page record stands (R15). -/
def Catalogue.indexPage (c : Catalogue) (p : Page) : IdxPage :=
  { key := ((c.edition? p.slot).map Edition.key).getD noKey
    planned := ((c.edition? p.slot).map Edition.planned).getD 0
    number := p.number, version := p.version, sectionCode := p.sectionCode, grid := p.grid, declared := p.declared
    raw := p.raw, current := p.current, stored := p.stored, level := p.level, points := p.points
    placements := p.placements }

/-- A photograph's index record, as the photo record stands (R15). -/
def indexPhoto (p : Photo) : IdxPhoto :=
  { number := p.number, rights := p.rights, grid := p.grid, declared := p.declared
    raw := p.raw, current := p.current, stored := p.stored, level := p.level, points := p.points
    filedOn := p.filedOn.getD 0 }

/-- The index record of a record, as the record stands (R15). -/
def Catalogue.indexOf (c : Catalogue) : RecId → Option IndexRecord
  | .page slot number version => (c.page? slot number version).map fun p => .page (c.indexPage p)
  | .photo n => (c.photo? n).map fun p => .photo (indexPhoto p)

/-! ### Discarding a replaced body (R113) -/

/-- The operation is a READ BODY of volume 0 that names the locator. -/
def Op.reads (locator : U32) : Op → Bool
  | .readForJob _ v l => v == 0 && l == locator
  | .readForOrder _ v l => v == 0 && l == locator
  | .writeIntake _ _ _ | .writeRestoration _ _ _ | .freeBody _ _ | .sealVolume _ _ | .readEntry _ _ _ => false
  | .amend _ _ _ _ _ _ | .closeMark _ _ | .indexRead | .probe => false

/-- FREE BODY for a replaced body; from REVERT it carries the record as it stands now (R15, R113). -/
def State.issueDiscard (s : State) (d : HeldDiscard) : State :=
  s.handOff (.freeBody d.locator
    (match d.revertOf with
     | some r => .withIndex (s.cat.indexOf r)
     | none => .plain))

/-- A locator is handed to discard: held while a READ BODY names it, else freed at once (R113). -/
def State.discard (s : State) (d : HeldDiscard) : State :=
  if s.link.held.any (Op.reads d.locator) then
    { s with eng := { s.eng with heldDiscards := s.eng.heldDiscards ++ [d] } }
  else s.issueDiscard d

/-- The held locators given are looked at again: those that no READ BODY names are freed (R113). -/
def State.releaseDiscards : List HeldDiscard → State → State
  | [], s => s
  | d :: rest, s =>
    if s.link.held.any (Op.reads d.locator) then State.releaseDiscards rest s
    else State.releaseDiscards rest
      (State.issueDiscard { s with eng := { s.eng with heldDiscards := s.eng.heldDiscards.erase d } } d)

/-! ### Jobs -/

/-- The job is active (R100). -/
def JobState.isActive (st : JobState) : Bool :=
  st == .claiming || st == .survey || st == .mapping || st == .writing

/-- The job number after n, wrapping from 65,535 to 1 (R101). -/
def nextNumber (n : Nat) : Nat := if 65535 ≤ n then 1 else n + 1

/-- A job number is held by a live job or by an entry of the finished list (R101). -/
def Engine.holdsNumber (e : Engine) (n : Nat) : Bool :=
  e.jobs.any (fun j => j.number == n) || e.finished.any fun j => j.number == n

/-- The first number from n on that is not held (R101). The first argument bounds the numbers skipped: 17 are enough. -/
def Engine.freeNumber (e : Engine) : Nat → Nat → Nat
  | 0, n => n
  | k + 1, n => if e.holdsNumber n then e.freeNumber k (nextNumber n) else n

/-- The job has the target: the target as given, or for a sealed one the key of the slot that serves it (R103). A job of version 0
that pins a slot and has not been handed it does not yet have the key of that slot, which is the model's choice (log 36). -/
def State.jobHas (s : State) (t : Target) (j : Job) : Bool :=
  j.target == t ||
  match t with
  | .sealed v k => (j.recallSlot.bind s.vol.slot?).any fun r => r.volume == v && r.key == k
  | .page _ _ _ | .photo _ => false

/-- The live job on a target (R100). -/
def State.jobOn? (s : State) (t : Target) : Option Job := s.eng.jobs.find? fun j => s.jobHas t j

/-- A job takes its hold on its target (R104). -/
def State.holdTarget (s : State) (n : Nat) : Target → State
  | .page slot _ _ => s.pinEdition slot
  | .photo p => s.pinPhoto p
  | .sealed v k => s.requestRecall ⟨.job n, v, k⟩

/-- The key of a resident page target's edition; zero for the other targets (R101, R117). -/
def Catalogue.editionOf (c : Catalogue) : Target → EditionKey
  | .page slot _ _ => ((c.edition? slot).map Edition.key).getD noKey
  | .photo _ | .sealed _ _ => noKey

/-- A job is created at the tail of the queue and takes its hold; the engine tests for a start (R104, R106). That the next
number skips held ones as it advances, and not when it is given, is the model's choice (R101; log 34). -/
def State.createJob (s : State) (t : Target) (low high span : Nat) (creator : Option Nat) : State :=
  let n := s.eng.nextJob
  let j : Job := { number := n, state := .queued, target := t, recallSlot := none, low := low, high := high
                   span := span, creator := creator, joiners := [], need := 0, startLevel := 0, points := none
                   outcome := .pending, edition := s.cat.editionOf t }
  let e := { s.eng with jobs := s.eng.jobs ++ [j] }
  State.push
    (State.holdTarget { s with eng := { e with nextJob := e.freeNumber 17 (nextNumber n) } } n t) .startJob

/-- A job on a resident target is ready; on a sealed one, once its recall has been delivered and checked (R106). -/
def Job.isReady (j : Job) : Bool :=
  match j.target with
  | .page _ _ _ | .photo _ => true
  | .sealed _ _ => j.recallSlot.isSome

/-- The engine starts the oldest ready QUEUED job when none is active (R106). -/
def State.startJob (s : State) : State :=
  if s.eng.jobs.any fun j => j.state.isActive then s
  else
    match s.eng.jobs.find? fun j => j.state == .queued && j.isReady with
    | none => s
    | some j =>
      match s.jobView j with
      | none => s
      | some v =>
        (s.withJob j.number fun j =>
          { j with state := .claiming, startLevel := v.level, need := gridSegments v.grid }).placeClaim
          ⟨.job j.number, gridSegments v.grid⟩

/-- A job gives back its claim, its segments and its hold on the target (R112, R114). -/
def State.releaseJob (s : State) (j : Job) : State :=
  let s1 := (s.removeClaim (.job j.number)).release (.job j.number)
  match j.target with
  | .page slot _ _ => s1.unpinEdition slot
  | .photo n => s1.unpinPhoto n
  | .sealed _ _ => s1.releaseRecall (.job j.number)

/-- The target with the version that the serving slot's key gives, where it is known (R117). -/
def State.resolvedTarget (s : State) (j : Job) : Target :=
  match j.target with
  | .sealed v k => .sealed v (((j.recallSlot.bind s.vol.slot?).map RecallSlot.key).getD k)
  | .page slot number version => .page slot number version
  | .photo n => .photo n

/-- A job leaves the queue and enters the finished list, which keeps the last 8; the histogram of a job that leaves in MAPPING
is cleared (R100, R101). -/
def State.retireJob (s : State) (j : Job) (st : JobState) (c : Code) : State :=
  let copy := { j with state := st, outcome := c, target := s.resolvedTarget j }
  let all := s.eng.finished ++ [copy]
  { s with eng := { s.eng with
    jobs := s.eng.jobs.filter fun x => x.number != j.number
    histogram := if j.state == .mapping then [] else s.eng.histogram
    finished := all.drop (all.length - Config.finishedJobs) } }

/-- The orders that a job's end reaches: the creator, then the joiners (R112, R114). -/
def Job.orders (j : Job) : List Nat := j.creator.toList ++ j.joiners

/-- A job fails (R114). -/
def State.failJob (s : State) (n : Nat) (c : Code) : State :=
  match s.job? n with
  | none => s
  | some j =>
    let s1 := State.latch ((s.retireJob j .failed c).releaseJob j) .restoreFailed
    (j.orders.foldl (fun t o => t.endOrder o c) s1).push .startJob

/-- The change that a restoration makes to a placement copy of the photograph (R112). -/
def amendPlaced (n : U32) (w : Written) (level : Nat) (p : PlacedCopy) : PlacedCopy :=
  if p.place.photo == n then { p with current := w.locator, stored := w.stored, level := level } else p

/-- The change that a restoration of an entry makes to a copy of a recall slot of the same volume (R112). -/
def amendCopy (same : Bool) (key : EntryKey) (w : Written) (level : Nat) (pts : Option Points) :
    EntryCopy → EntryCopy
  | .page c =>
    if same then .page { c with current := w.locator, stored := w.stored, level := level, points := pts }
    else
      match key with
      | .photo n => .page { c with placed := c.placed.map (amendPlaced n w level) }
      | .page _ _ _ => .page c
  | .photo c =>
    if same then .photo { c with current := w.locator, stored := w.stored, level := level, points := pts }
    else .photo c

/-- The record change of a successful write-back (R14, R112). -/
def State.applyRestored (s : State) (j : Job) (w : Written) : State :=
  let level := min 3 (j.startLevel + 1)
  match j.target with
  | .page slot number version => s.withCat fun c => c.withPage slot number version fun p =>
      { p with current := some w.locator, stored := some w.stored, level := level, points := j.points }
  | .photo n => s.withCat fun c => c.withPhoto n fun p =>
      { p with current := some w.locator, stored := some w.stored, level := level, points := j.points }
  | .sealed _ _ =>
    match j.recallSlot.bind s.vol.slot? with
    | none => s
    | some r => { s with vol := { s.vol with table := s.vol.table.map fun x => x.map fun y =>
        if y.volume == r.volume then
          { y with copy := y.copy.map (amendCopy (y.key == r.key) r.key w level j.points) }
        else y } }

/-- The locator that a resident job's write replaces, unless it is the raw body's (R112, R113). -/
def State.supersededBy (s : State) (j : Job) : Option U32 :=
  if j.startLevel = 0 then none
  else
    match j.target with
    | .page slot number version => (s.cat.page? slot number version).bind Page.current
    | .photo n => (s.cat.photo? n).bind Photo.current
    | .sealed _ _ => none

/-- An order that waited on a job goes on to PRICING (R137). -/
def State.priceAfterJob (s : State) (n : Nat) : State :=
  (s.withOrder n fun o => { o with job := none }).priceOrder n false

/-- A WRITING job ends DONE (R112). -/
def State.finishJob (s : State) (n : Nat) (w : Written) : State :=
  match (s.job? n).filter fun j => j.state == .writing with
  | none => s
  | some j =>
    let s1 := (((s.applyRestored j w).retireJob j .done .ok).releaseJob j).latch .restoreDone
    let s2 := j.orders.foldl State.priceAfterJob s1
    let s3 := match s.supersededBy j with
      | some locator => s2.discard ⟨locator, none⟩
      | none => s2
    s3.push .startJob

/-! ### The tone stretch (R109, R110) -/

/-- The counts of the 256 sample values of a body (R109). -/
def histogramOf (body : List U8) : List Nat :=
  body.foldl (fun h x => h.modify x.toNat (· + 1)) (List.replicate 256 0)

/-- The smallest value from v on whose cumulative count meets a test; the list holds the counts from v on, cum the count
below v. -/
def firstValue (test : Nat → Bool) : List Nat → Nat → Nat → Nat
  | [], v, _ => v
  | h :: rest, v, cum => if test (cum + h) then v else firstValue test rest (v + 1) (cum + h)

/-- The points that a histogram and the parameters give: black, white, widening (R109). -/
def pointsOf (hist : List Nat) (low high span : Nat) : Points :=
  let n := hist.sum
  let b := firstValue (fun c => decide (n * low < c * 1000)) hist 0 0
  let w := firstValue (fun c => decide (n * high ≤ c * 1000)) hist 0 0
  if span ≤ w - b then ⟨b, w⟩ else if 255 < b + span then ⟨255 - span, 255⟩ else ⟨b, b + span⟩

/-- The map of one sample (R110). -/
def stretch (p : Points) (x : U8) : U8 :=
  if x.toNat ≤ p.b then 0
  else if p.w ≤ x.toNat then 255
  else BitVec.ofNat 8 (((x.toNat - p.b) * 510 + (p.w - p.b)) / (2 * (p.w - p.b)))

/-- The write that a job hands off at the end of MAPPING: WRITE BODY with the record as it will stand, or AMEND VOLUME
ENTRY (R111). -/
def State.jobWrite? (s : State) (j : Job) (length : Nat) (p : Points) : Option Op :=
  let level := min 3 (j.startLevel + 1)
  match j.target with
  | .page slot number version => (s.cat.page? slot number version).map fun r =>
      .writeRestoration j.number length
        (.page { s.cat.indexPage r with current := none, stored := none, level := level, points := some p })
  | .photo n => (s.cat.photo? n).map fun r =>
      .writeRestoration j.number length
        (.photo { indexPhoto r with current := none, stored := none, level := level, points := some p })
  | .sealed _ _ => (j.recallSlot.bind s.vol.slot?).map fun r => .amend j.number r.volume r.key length p level

/-- The end of MAPPING: the body is mapped in place, the points are recorded, the histogram is discarded and the write is
handed off (R110, R111). -/
def State.endMapping (s : State) (j : Job) : State :=
  let p := pointsOf s.eng.histogram j.low j.high j.span
  let body := (s.pool.content (.job j.number)).map (stretch p)
  let s1 : State := { s with pool := s.pool.putContent (.job j.number) body, eng := { s.eng with histogram := [] } }
  let s2 := s1.withJob j.number fun j => { j with state := .writing, points := some p }
  match s.jobWrite? j body.length p with
  | some op => s2.handOff op
  | none => s2

/-! ### Orders that have, or ask for, their target (R134 to R137) -/

/-- What an order asks a restoration of (R137). -/
def State.orderTarget? (s : State) (o : Order) : Option Target :=
  if o.volume = 0 then
    match o.photo with
    | some n => some (.photo n)
    | none => o.pinEdition.map fun e => .page e o.page (o.resolved.getD 0)
  else (o.recallSlot.bind s.vol.slot?).map fun r => .sealed r.volume r.key

/-- An order joins a live job (R105, R137). -/
def State.joinJob (s : State) (n : Nat) (j : Job) : State :=
  (s.withJob j.number fun j => { j with joiners := j.joiners ++ [n] }).withOrder n fun o =>
    { o with state := .restoreWait, job := some j.number }

/-- An order creates its job, or ends TABLE_FULL with 8 live (R105, R137). -/
def State.createOrderJob (s : State) (n : Nat) (t : Target) : State :=
  if Config.jobs ≤ s.eng.jobs.length then s.endOrder n .tableFull
  else
    (s.withOrder n fun o => { o with state := .restoreWait, job := some s.eng.nextJob, bearer := true }).createJob t
      5 995 16 (some n)

/-- The restore-flag step (R137). -/
def State.restoreStep (s : State) (n : Nat) : State :=
  match s.order? n with
  | none => s
  | some o =>
    match s.orderView o, s.orderTarget? o with
    | some v, some t =>
      if !o.restore || decide (1 ≤ v.level) then s.priceOrder n false
      else
        match s.jobOn? t with
        | some j => s.joinJob n j
        | none => s.createOrderJob n t
    | _, _ => s

/-- The key an order recalls: its photograph, or its page with the resolved version where there is one (R135, R136). -/
def Order.recallKey (o : Order) : EntryKey :=
  match o.photo with
  | some n => .photo n
  | none => .page o.key o.page (o.resolved.getD o.version)

/-- An order becomes RECALL and makes its recall request (R136). -/
def State.askRecall (s : State) (n : Nat) : State :=
  match s.order? n with
  | none => s
  | some o => (s.withOrder n fun o => { o with state := .recalling }).requestRecall ⟨.order n, o.volume, o.recallKey⟩

/-- An order pins its CLOSED edition, and a photo-only order its photograph, and goes to its restore-flag step (R134). -/
def State.settleResident (s : State) (n slot : Nat) : State :=
  match s.order? n with
  | none => s
  | some o =>
    let s1 := (s.pinEdition slot).withOrder n fun o => { o with pinEdition := some slot, pinPhoto := o.photo }
    let s2 := match o.photo with
      | some p => s1.pinPhoto p
      | none => s1
    s2.restoreStep n

/-- The page record that a page key of an edition slot names, or the outcome that refuses it (R8, R134). -/
def Catalogue.resolve (c : Catalogue) (slot page version : Nat) : Except Code Page :=
  if version = 0 then
    match c.current? slot page with
    | some p => .ok p
    | none => .error .notFiled
  else
    match c.page? slot page version with
    | none => .error .notFound
    | some p => if p.state == .filed then .ok p else .error .notFiled

/-- An order with volume number 0 locates its page in the resident catalogue (R134). -/
def State.locateResident (s : State) (o : Order) : State :=
  match s.cat.slotOf o.key with
  | none => s.endOrder o.number .notResident
  | some slot =>
    match (s.cat.edition? slot).map Edition.state with
    | some .closed | some .sealing =>
      match s.cat.resolve slot o.page o.version with
      | .error c => s.endOrder o.number c
      | .ok p =>
        if o.photo.any fun n => p.placements.all fun pl => pl.photo != n then s.endOrder o.number .notFound
        else
          let s1 := s.withOrder o.number fun o => { o with resolved := some p.version }
          if (s.cat.edition? slot).any fun e => e.state == .sealing then
            { s1 with vol := { s1.vol with waiters := s1.vol.waiters ++ [o.number] } }.withOrder o.number fun o =>
              { o with state := .waitSeal }
          else s1.settleResident o.number slot
    | some .opened | some .closing | none => s.endOrder o.number .editionOpen

/-- A new order locates its target (R133). -/
def State.locate (s : State) (o : Order) : State :=
  if o.volume = 0 then s.locateResident o else s.askRecall o.number

/-! ### A recall's end reaches its requester (R95, R96, R115, R136) -/

/-- The version that a slot's key carries. -/
def slotVersion (r : RecallSlot) : Option Nat :=
  match r.key with
  | .page _ _ v => some v
  | .photo _ => none

/-- An order is handed its recall slot (R136). -/
def State.orderRecalled (s : State) (n i : Nat) : State :=
  match s.orderState? n with
  | some .recalling =>
    (s.withOrder n fun o => { o with
      recallSlot := some i
      resolved := if o.photo.isSome then o.resolved else (s.vol.slot? i).bind slotVersion }).restoreStep n
  | _ => s

/-- The job that already is served by the slot, other than the one given (R115). -/
def State.servedBy? (s : State) (n i : Nat) : Option Job :=
  s.eng.jobs.find? fun j => j.number != n && j.recallSlot == some i

/-- Job a stands before job b in the queue, that is, was accepted earlier (R100). -/
def Engine.isBefore (e : Engine) (a b : Nat) : Bool :=
  e.jobs.findIdx (fun j => j.number == a) < e.jobs.findIdx (fun j => j.number == b)

/-- A QUEUED job is handed its recall slot: level and duplicate checks, then it is ready (R115). Of two jobs that one slot
serves the later accepted fails, QUEUED or active (log 28). -/
def State.jobRecalled (s : State) (n i : Nat) : State :=
  match s.job? n with
  | none => s
  | some j =>
    if j.state != .queued then s
    else
      let s1 := s.withJob n fun j => { j with recallSlot := some i }
      if (s.vol.copy? i).any fun c => (copyView c).level == 3 then s1.failJob n .levelLimit
      else
        match s.servedBy? n i with
        | none => s1.push .startJob
        | some k =>
          if s.eng.isBefore n k.number then (s1.failJob k.number .duplicate).push .startJob
          else s1.failJob n .duplicate

/-- A recall is handed to its requester (R95). -/
def State.recallGiven (s : State) (r : Requester) (i : Nat) : State :=
  match r with
  | .order n => s.orderRecalled n i
  | .job n => s.jobRecalled n i

/-- A recall's failure is handed to its requester (R96). -/
def State.recallFailed (s : State) (r : Requester) (c : Code) : State :=
  match r with
  | .order n => s.endOrder n c
  | .job n => s.failJob n c

end Sys2Proof.Machine
end

