-- ==== Sys2Proof/Machine/Seals.lean ====
section
/-! DEFINITION. The seal queue and the recall table at the events that move them (05). -/

namespace Sys2Proof.Machine

/-! ### Entering the queue (R84, R86) -/

/-- An edition closed earlier, or on the same day with a lower key, comes first (R84, R86). -/
def closedBefore (a b : Nat × Edition) : Bool :=
  let x := a.2.closedOn.getD 0
  let y := b.2.closedOn.getD 0
  decide (x < y) || (x == y && EditionKey.before a.2.key b.2.key)

/-- The occupied entries with their slots, in slot order. -/
def Catalogue.occupied (c : Catalogue) : List (Nat × Edition) :=
  c.editions.zipIdx.filterMap fun x => x.1.map fun e => (x.2, e)

/-- A CLOSED edition outside the queue is due on the day given (R84). -/
def State.isDue (s : State) (today : Nat) (x : Nat × Edition) : Bool :=
  x.2.state == .closed && !s.vol.sealQueue.contains x.1 &&
    x.2.closedOn.any fun d => decide (d + s.req.options.retention ≤ today)

/-- The retention sweep: due unpinned editions join the queue in order, due pinned ones get their due flag (R84). -/
def State.retentionSweep (s : State) (today : Nat) : State :=
  let due := s.cat.occupied.filter (s.isDue today)
  let s1 := (due.filter fun x => decide (0 < x.2.pins)).foldl (fun t x => t.withCat fun c =>
    c.withEdition x.1 fun e => { e with due := true }) s
  (sortBy closedBefore (due.filter fun x => x.2.pins == 0)).foldl (fun t x => t.enqueueSeal x.1) s1

/-- A pressure seal: with an empty queue, the oldest unpinned CLOSED edition joins it (R48, R86). -/
def State.pressureSeal (s : State) : State :=
  if s.vol.sealQueue.isEmpty then
    match sortBy closedBefore (s.cat.occupied.filter fun x => x.2.state == .closed && x.2.pins == 0) with
    | x :: _ => s.enqueueSeal x.1
    | [] => s
  else s

/-! ### Starting a seal (R87) -/

/-- A CLOSE MARK of the edition is in flight (R58). -/
def StoreLink.marking (l : StoreLink) (slot : Nat) : Bool :=
  l.held.any fun op =>
    match op with
    | .closeMark x _ => x == slot
    | _ => false

/-- What SEAL VOLUME carries (R87). -/
def Catalogue.sealContent (c : Catalogue) (slot : Nat) (e : Edition) : SealContent :=
  let filed := (c.pagesOf slot).filter fun p => p.state == .filed
  { key := e.key, planned := e.planned, closedOn := e.closedOn.getD 0, gaps := e.gaps.getD [], forced := e.forced
    failedPages := e.failedPages, pages := filed
    photos := c.photos.filter fun p => filed.any fun q => q.placements.any fun pl => pl.photo == p.number }

/-- A seal may start in the mode (R87). -/
def Mode.seals (m : Mode) : Bool := m == .service || m == .setup

/-- The heads are tested: a pinned one leaves with its due flag, the first unpinned one starts its seal, unless one is in
flight, the mode holds the queue, or the head's close mark is in flight (R87). The list is the queue. -/
def State.sealTest : List Nat → State → State
  | [], s => s
  | slot :: rest, s =>
    match s.cat.edition? slot with
    | none => s
    | some e =>
      if e.state == .sealing || !s.req.mode.seals || s.link.marking slot then s
      else if 0 < e.pins then
        State.sealTest rest
          (State.withCat { s with vol := { s.vol with sealQueue := rest } } fun c =>
            c.withEdition slot fun e => { e with due := true })
      else
        (s.withCat fun c => c.withEdition slot fun e => { e with state := .sealing }).handOff
          (.sealVolume slot (s.cat.sealContent slot e))

/-! ### Ending a seal (R89, R90) -/

/-- The sealed edition's pages are freed, with their references, and its entry becomes FREE (R10, R89). -/
def Catalogue.freeEdition (c : Catalogue) (slot : Nat) : Catalogue :=
  let c1 := (c.pagesOf slot).foldl (fun x p => x.dropRefs p.placements) c
  { c1 with pages := c1.pages.filter fun p => p.slot != slot }.putEdition slot none

/-- The seal result is recorded and the edition leaves the queue. -/
def State.recordSeal (s : State) (slot : Nat) (r : SealResult) : State :=
  { s with vol := { s.vol with
    sealQueue := s.vol.sealQueue.filter fun x => x != slot, lastSeal := some r, waiters := [] } }

/-- A waiter of a successful seal takes the volume number and makes its recall request (R89, R135). -/
def State.waiterSealed (volume : U32) (s : State) (n : Nat) : State :=
  (s.withOrder n fun o => { o with volume := volume }).askRecall n

/-- The SEALING edition of a slot. -/
def Catalogue.sealing? (c : Catalogue) (slot : Nat) : Option Edition :=
  (c.edition? slot).filter fun e => e.state == .sealing

/-- The seal succeeds (R89). -/
def State.sealDone (s : State) (slot : Nat) (volume : U32) : State :=
  match s.cat.sealing? slot with
  | none => s
  | some e =>
    let s1 := ((s.withCat fun c => c.freeEdition slot).recordSeal slot ⟨e.key, .ok, volume⟩).latch .sealDone
    (s.vol.waiters.foldl (State.waiterSealed volume) s1).push .sealTest

/-- The seal fails; each waiter pins the edition again and goes on (R90, R135). -/
def State.sealFailed (s : State) (slot : Nat) (c : Code) : State :=
  match s.cat.sealing? slot with
  | none => s
  | some e =>
    let s1 := (s.withCat fun c => c.withEdition slot fun e => { e with state := .closed }).recordSeal slot ⟨e.key, c, 0⟩
    (s.vol.waiters.foldl (fun t n => t.settleResident n slot) (s1.latch .sealFailed)).push .sealTest

/-! ### Fetch completion (R94 to R96) -/

/-- The key of a slot with the version that the store resolved (R94). For a copy that does not fit its key, a photograph's for a
page or another version than the one asked for, the rules state nothing: that the key stays is the model's choice (log 33). -/
def resolvedKey (key : EntryKey) (c : EntryCopy) : EntryKey :=
  match key, c with
  | .page k n 0, .page p => .page k n p.version
  | .page k n v, _ => .page k n v
  | .photo n, _ => .photo n

/-- The requesters of a fetching slot move to the slot that holds the resolved key; the fetching slot becomes FREE and its
copy is discarded (R94). That they move in the order in which they pinned is the model's choice (log 20). -/
def State.mergeSlot (s : State) (i j : Nat) (x : RecallSlot) : State :=
  let s1 : State := { s with vol := { s.vol with table := s.vol.table.set i none } }
  (x.pinners.foldl (fun t r => t.pinSlot r j) s1).push .serveRecall

/-- The slot becomes RESIDENT; its requesters are handed it in the order in which they pinned it (R95). Only a slot that none pins
joins the least-recently-unpinned list and has the recall wait queue served (R97); a head that waits for the key as it was resolved
is not served here, which is the model's choice (log 41). -/
def State.fillSlot (s : State) (i : Nat) (x : RecallSlot) (key : EntryKey) (c : EntryCopy) : State :=
  let s1 : State := { s with vol := { s.vol with
    table := s.vol.table.set i (some { x with key := key, copy := some c }) } }
  if x.pinners.isEmpty then s1.unpinned i
  else x.pinners.foldl (fun t r => t.push (.recallGiven r i)) s1

/-- READ VOLUME ENTRY completes OK (R94, R95). -/
def State.fetchDone (s : State) (i : Nat) (c : EntryCopy) : State :=
  match s.vol.slot? i with
  | none => s
  | some x =>
    let key := resolvedKey x.key c
    if key == x.key then s.fillSlot i x key c
    else
      match s.vol.holding x.volume key with
      | some j => s.mergeSlot i j x
      | none => s.fillSlot i x key c

/-- READ VOLUME ENTRY fails: the slot becomes FREE and its requesters are handed the outcome (R96), in the order in which they
pinned it, which is the model's choice (log 20). -/
def State.fetchFailed (s : State) (i : Nat) (c : Code) : State :=
  match s.vol.slot? i with
  | none => s
  | some x =>
    let s1 : State := { s with vol := { s.vol with table := s.vol.table.set i none } }
    (x.pinners.foldl (fun t r => t.push (.recallFailed r c)) s1).push .serveRecall

end Sys2Proof.Machine
end

