-- ==== Sys2Proof/Machine/Intake.lean ====
section
/-! DEFINITION. Records on their way to FILED or FAILED, the close of an edition, the body lane's endings, and the rebuilding
of the catalogue (01, 03, 11). -/

namespace Sys2Proof.Machine

/-! ### Records -/

/-- The declared check of a record. -/
def Catalogue.declaredOf (c : Catalogue) : RecId → Option U32
  | .page slot number version => (c.page? slot number version).map Page.declared
  | .photo n => (c.photo? n).map Photo.declared

/-- The state of a record. -/
def Catalogue.recState (c : Catalogue) : RecId → Option RecState
  | .page slot number version => (c.page? slot number version).map Page.state
  | .photo n => (c.photo? n).map Photo.state

/-- The grid of a record. -/
def Catalogue.gridOf (c : Catalogue) : RecId → Option Grid
  | .page slot number version => (c.page? slot number version).map Page.grid
  | .photo n => (c.photo? n).map Photo.grid

/-- A record on its way becomes FAILED: its outcome is kept and a page's placements are undone. FILED and FAILED are final
(R7, R10, R50). -/
def Catalogue.failRecord (c : Catalogue) (r : RecId) (code : Code) : Catalogue :=
  match r with
  | .page slot number version =>
    match (c.page? slot number version).filter fun p => p.state.inFlight with
    | none => c
    | some p => (c.dropRefs p.placements).withPage slot number version fun p =>
        { p with state := .failed, outcome := code, placements := [] }
  | .photo n => c.withPhoto n fun p => if p.state.inFlight then { p with state := .failed, outcome := code } else p

/-- A page's edition counts a failed write (R4, R53, R54). -/
def Catalogue.countFailedPage (c : Catalogue) : RecId → Catalogue
  | .page slot _ _ => c.withEdition slot fun e => { e with failedPages := min 65535 (e.failedPages + 1) }
  | .photo _ => c

/-- The end of a page's way may end its edition's close (R57). -/
def State.pushCloseTest (s : State) : RecId → State
  | .page slot _ _ => s.push (.closeTest slot)
  | .photo _ => s

/-- A record becomes FAILED: at the lane, or at the write, which for a page also counts (R50, R53, R54). -/
def State.failFiling (s : State) (r : RecId) (code : Code) (atWrite : Bool) : State :=
  let s1 := s.withCat fun c =>
    if atWrite then (c.failRecord r code).countFailedPage r else c.failRecord r code
  ((s1.release (.record r)).latch .fileFailed).pushCloseTest r

/-- Supersession as a version becomes FILED (R8). -/
def Catalogue.supersede (c : Catalogue) (slot number version : Nat) : Catalogue :=
  match c.current? slot number with
  | none => c
  | some cur =>
    if cur.version < version then c.withPage slot number cur.version fun p => { p with superseded := true }
    else c.withPage slot number version fun p => { p with superseded := true }

/-- A WRITING record becomes FILED; FILED and FAILED are final (R7, R14, R52). -/
def Catalogue.fileRecord (c : Catalogue) (r : RecId) (w : Written) : Catalogue :=
  match r with
  | .page slot number version =>
    if (c.page? slot number version).any fun p => p.state == .writing then
      (c.supersede slot number version).withPage slot number version fun p =>
        { p with state := .filed, outcome := .ok, raw := some w.locator, current := some w.locator
                 stored := some w.stored }
    else c
  | .photo n => c.withPhoto n fun p =>
      if p.state == .writing then
        { p with state := .filed, outcome := .ok, raw := some w.locator, current := some w.locator
                 stored := some w.stored }
      else p

/-- An intake WRITE BODY completes OK: the record is FILED, or FAILED when the store's check differs, and the refused body is
discarded (R52, R53). -/
def State.writeDone (s : State) (r : RecId) (w : Written) : State :=
  if s.cat.declaredOf r == some w.stored then
    State.pushCloseTest ((s.withCat fun c => c.fileRecord r w).release (.record r)) r
  else (s.failFiling r .bodyCheck true).handOff (.freeBody w.locator .refusedWrite)

/-- A complete body with a matching check: the RECEIVING record is STAGED (R7, R49). -/
def Catalogue.stageRecord (c : Catalogue) : RecId → Catalogue
  | .page slot number version => c.withPage slot number version fun p =>
      if p.state == .receiving then { p with state := .staged } else p
  | .photo n => c.withPhoto n fun p => if p.state == .receiving then { p with state := .staged } else p

/-- The lane's ending makes the record STAGED; the hand-off of its WRITE BODY is the next change (R49, R57; log 10). -/
def State.stage (s : State) (r : RecId) : State := (s.withCat fun c => c.stageRecord r).pushCloseTest r

/-- The record becomes WRITING as its WRITE BODY is handed off; a photograph's filed-on day is taken then (R49). -/
def State.handOver (s : State) (r : RecId) : State :=
  let s1 := s.withCat fun c =>
    match r with
    | .page slot number version => c.withPage slot number version fun p => { p with state := .writing }
    | .photo n => c.withPhoto n fun p => { p with state := .writing, filedOn := some s.cal.day }
  match s1.cat.indexOf r, s1.cat.gridOf r with
  | some x, some g => s1.handOff (.writeIntake r (gridBytes g) x)
  | _, _ => s1

/-- The STAGED record, where there is one: its WRITE BODY is still to be handed off (R49). -/
def Catalogue.staged? (c : Catalogue) : Option RecId :=
  match c.pages.find? fun p => p.state == .staged with
  | some p => some (.page p.slot p.number p.version)
  | none => (c.photos.find? fun p => p.state == .staged).map fun p => .photo p.number

/-- A STAGED record's WRITE BODY is handed to the store link (R49; log 10). -/
def State.handStaged (s : State) : State :=
  match s.cat.staged? with
  | some r => s.handOver r
  | none => s

/-! ### The close of an edition (R55 to R58) -/

/-- The pages of an edition that are RECEIVING, STAGED or WRITING (R55, R57). -/
def Catalogue.inFlight (c : Catalogue) (slot : Nat) : Nat := (c.pagesOf slot).countP fun p => p.state.inFlight

/-- The gap list: the plan's page numbers with no FILED version (R57, step 1). -/
def Catalogue.gapsOf (c : Catalogue) (slot planned : Nat) : List Nat :=
  (List.range' 1 planned).filter fun n =>
    !(c.pages.any fun p => p.slot == slot && p.number == n && p.state == .filed)

/-- An edition becomes CLOSING, off the deadline list (R55, R56). -/
def State.beginClose (s : State) (slot : Nat) (forced : Bool) : State :=
  State.push (State.withCat { s with deadlines := s.deadlines.filter fun x => x != slot } fun c =>
    c.withEdition slot fun e => { e with state := .closing, forced := forced, deadline := none }) (.closeTest slot)

/-- A CLOSING edition with no page in flight ends its close (R57). -/
def State.closeTest (s : State) (slot : Nat) : State :=
  match s.cat.edition? slot with
  | none => s
  | some e =>
    if e.state == .closing && s.cat.inFlight slot == 0 then
      let gaps := s.cat.gapsOf slot e.planned
      let s1 := s.withCat fun c => c.withEdition slot fun e =>
        { e with state := .closed, closedOn := some s.cal.day, gaps := some gaps }
      (s1.handOff (.closeMark slot ⟨e.key, e.planned, s.cal.day, gaps, e.forced, e.failedPages⟩)).latch
        (if e.forced then .deadlineClosed else .editionClosed)
    else s

/-! ### The body lane's endings (R50, R145, R180) -/

/-- An ending other than complete (R180). -/
inductive LaneEnding where
  | short | aborted | expired
  deriving DecidableEq, Repr

/-- The outcome of a record whose transfer ended so (R50). -/
def LaneEnding.code : LaneEnding → Code
  | .short => .bodyShort
  | .aborted => .aborted
  | .expired => .expired

/-- The binding slot becomes FREE and the lane stops driving (R180). Select may still be asserted from an outbound transfer that
was complete before; the next clock edge then drives FF again, which is the model's choice (log 38). -/
def State.freeLane (s : State) : State := { s with lane := { s.lane with slot := none, out := none } }

/-- An order is READY with a fresh ready expiry (R143, R145). -/
def State.backToReady (s : State) (n : Nat) : State :=
  s.withOrder n fun o => { o with state := .ready, readyTicks := Config.readyTicks }

/-- A transfer ends short, aborted or expired (R50, R145, R180). -/
def State.endTransfer (s : State) (b : Binding) (e : LaneEnding) : State :=
  match b.owner with
  | .record r => s.freeLane.failFiling r e.code false
  | .order n => s.freeLane.backToReady n
  | .job _ => s.freeLane

/-- A transfer is complete, with the lane's check (R49, R145, R180). -/
def State.completeTransfer (s : State) (b : Binding) (check : U32) : State :=
  match b.owner with
  | .record r =>
    if s.cat.declaredOf r == some check then s.freeLane.stage r else s.freeLane.failFiling r .bodyCheck false
  | .order n => s.freeLane.leaveTable n .done .ok
  | .job _ => s.freeLane

/-- The lane is bound to a transfer and its bind expiry starts (R179). -/
def State.bindLane (s : State) (owner : Holder) (outbound : Bool) (count : Nat) : State :=
  let b : Binding := ⟨owner, outbound, count, 0, crc32Start, .bound Config.bindTicks⟩
  { s with lane := { s.lane with slot := some b } }

/-! ### Rebuilding the catalogue (R23, R24) -/

/-- No element stands twice. -/
def distinct {α : Type} [DecidableEq α] : List α → Bool
  | [] => true
  | x :: xs => !xs.contains x && distinct xs

/-- The keys of the returned editions, each once, in ascending order (R24). -/
def indexKeys (x : StoreIndex) : List EditionKey :=
  sortBy EditionKey.before ((x.marks.map CloseMark.key ++ x.pages.map IdxPage.key).eraseDups)

/-- What INDEX READ returned fits the tables and agrees with itself; else the outcome of the reload (R23). For an index that
fails both checks the rule names no order; that TABLE_FULL comes first is the model's choice (log 32). -/
def indexCheck (x : StoreIndex) : Code :=
  if Config.editionEntries < (indexKeys x).length ∨ Config.pageRecords < x.pages.length ∨
      Config.photoRecords < x.photos.length then .tableFull
  else if (x.pages.all fun p => p.placements.all fun pl => x.photos.any fun q => q.number == pl.photo) &&
      distinct (x.marks.map CloseMark.key) && distinct (x.pages.map fun p => (p.key, p.number, p.version)) &&
      distinct (x.photos.map IdxPhoto.number) then .ok
  else .storeFault

/-- A returned edition (R24). -/
def returnedEdition (x : StoreIndex) (k : EditionKey) : Edition :=
  match x.marks.find? fun m => m.key == k with
  | some m =>
    { key := k, state := .closed, planned := m.planned, deadline := none, warned := false, forced := m.forced
      interrupted := false, due := false, pins := 0, closedOn := some m.closedOn, gaps := some m.gaps
      failedPages := m.failedPages }
  | none =>
    { key := k, state := .opened
      planned := ((x.pages.filter fun p => p.key == k).map IdxPage.planned).foldl max 0
      deadline := none, warned := false, forced := false, interrupted := true, due := false, pins := 0
      closedOn := none, gaps := none, failedPages := 0 }

/-- A returned page record (R24). -/
def returnedPage (x : StoreIndex) (p : IdxPage) : Page :=
  { slot := (indexKeys x).findIdx fun k => k == p.key
    number := p.number, version := p.version, sectionCode := p.sectionCode, state := .filed
    superseded := x.pages.any fun q => q.key == p.key && q.number == p.number && decide (p.version < q.version)
    grid := p.grid, declared := p.declared, raw := p.raw, current := p.current, stored := p.stored, level := p.level
    points := p.points, placements := p.placements, outcome := .ok }

/-- A returned photo record (R24). -/
def returnedPhoto (x : StoreIndex) (p : IdxPhoto) : Photo :=
  { number := p.number, state := .filed, rights := p.rights, grid := p.grid, declared := p.declared, raw := p.raw
    current := p.current, stored := p.stored, level := p.level, points := p.points
    refs := (x.pages.map fun q => q.placements.countP fun pl => pl.photo == p.number).sum
    pins := 0, filedOn := some p.filedOn, outcome := .ok }

/-- The tables rebuilt from the returned index (R24). -/
def rebuiltCatalogue (x : StoreIndex) : Catalogue :=
  { editions := ((indexKeys x).map fun k => some (returnedEdition x k)) ++ List.replicate (64 - (indexKeys x).length) none
    pages := x.pages.map (returnedPage x), photos := x.photos.map (returnedPhoto x), reloading := false }

end Sys2Proof.Machine
end

