-- ==== Sys2Proof/Machine/Completions.lean ====
section
/-! DEFINITION. Replies, the preparation of a delivery, the completion of each store operation at its owner (R71), and the
working through of a change's consequences. -/

namespace Sys2Proof.Machine

/-! ### Replies (R173, R183) -/

/-- A frame from the part: the station plus 80 hex, the kind given, the tag, the body (R173). -/
def State.frame (s : State) (kind tag : U8) (body : List U8) : Frame :=
  { station := s.port.station.setWidth 8 + 0x80, kind := kind, tag := tag, body := body }

/-- A reply: the request's kind plus 80 hex, the outcome code, then the fields (R183). -/
def State.replyFrame (s : State) (kind tag : U8) (code : Code) (fields : List U8) : Frame :=
  s.frame (kind + 0x80) tag (u8 code.toNat ++ fields)

/-- The immediate reply of the request being taken (R183). -/
def State.answer (s : State) (kind tag : U8) (code : Code) (fields : List U8) : State :=
  { s with formed := { s.formed with immediate := some (s.replyFrame kind tag code fields) } }

/-- A refusal: the outcome alone (R183). -/
def State.refuse (s : State) (kind tag : U8) (code : Code) : State := s.answer kind tag code []

/-- The suspended PREPARE DELIVERY reply of an order, unless a link reset lost it (R142, R146). -/
def State.answerPrepare (s : State) (o : Order) (code : Code) (fields : List U8) : State :=
  match o.prepTag with
  | none => s
  | some tag => { s with formed := { s.formed with
      prepare := s.formed.prepare ++ [(o.number, s.replyFrame 0x7C tag code (u32 o.number ++ fields))] } }

/-- The suspended RELOAD CATALOGUE reply, unless a link reset lost it (R22, R23). -/
def State.answerReload (s : State) (code : Code) (fields : List U8) : State :=
  match s.req.reloadTag with
  | none => s
  | some tag => { s with
      formed := { s.formed with reload := some (s.replyFrame 0x45 tag code fields) }
      req := { s.req with reloadTag := none } }

/-! ### Preparation (R142) -/

/-- The order is CHARGED again, its segments returned and its prepared contents discarded (R142, R143). -/
def State.unprepare (s : State) (n : Nat) : State :=
  State.release (s.withOrder n fun o => { o with
    state := .charged, maskSet := none, prepared := none, readOf := none, landed := false, prepTag := none
    readyTicks := 0 }) (.order n)

/-- A preparation fails (R142). -/
def State.failPreparation (s : State) (n : Nat) (c : Code) : State :=
  match s.order? n with
  | none => s
  | some o =>
    State.answerPrepare ((s.withOrder n fun o => { o with lastPrep := some c }).unprepare n) o c []

/-- The body of a delivery has landed (R142). -/
def State.deliveryRead (s : State) (n : Nat) (body : List U8) : State :=
  match s.order? n with
  | none => s
  | some o =>
    if (o.readOf.map Prod.snd) == some (crc32 body) then
      State.withOrder { s with pool := s.pool.putContent (.order n) body } n fun o => { o with landed := true }
    else s.failPreparation n .bodyCheck

/-- A tile, by its index in row order, lies in a placement's rectangle (R142). -/
def inRectangle (g : Grid) (p : Placement) (tile : Nat) : Bool :=
  let col := tile % g.cols + 1
  let row := tile / g.cols + 1
  decide (p.firstCol.toNat ≤ col ∧ col < p.firstCol.toNat + p.cols.toNat ∧
    p.firstRow.toNat ≤ row ∧ row < p.firstRow.toNat + p.rows.toNat)

/-- The placements that a mask set names, by their list positions from 1 (R126). -/
def maskedPlaces (v : View) (mask : List Nat) : List Placement :=
  (v.placed.zipIdx 1).filterMap fun x => if mask.contains x.2 then some x.1.place else none

/-- Every sample of the masked tiles is filled with 255 (R142). -/
def maskBody (g : Grid) (places : List Placement) (body : List U8) : List U8 :=
  body.zipIdx.map fun x => if places.any fun p => inRectangle g p (x.2 / Config.tileBytes) then 255 else x.1

/-- The finishing work of a preparation comes to its end: the order is READY (R142, R143). -/
def State.finishPreparation (s : State) (o : Order) : State :=
  match s.orderView o with
  | none => s
  | some v =>
    let body := maskBody v.grid (maskedPlaces v (o.maskSet.getD [])) (s.pool.content (.order o.number))
    let check := crc32 body
    let s1 := State.withOrder { s with pool := s.pool.putContent (.order o.number) body } o.number fun o =>
      { o with state := .ready, prepared := some (body.length, check), lastPrep := some .ok, readOf := none
               landed := false, prepTag := none, readyTicks := Config.readyTicks }
    s1.answerPrepare o .ok (u32 body.length ++ u32 check.toNat ++ u8 o.attempts)

/-! ### The survey (R108) and the reload (R23) -/

/-- The survey's body has landed: with a matching check the job is MAPPING and the histogram is its body's, else the job
fails (R108, R109; log 17). -/
def State.surveyRead (s : State) (n : Nat) (body : List U8) : State :=
  match s.job? n with
  | none => s
  | some j =>
    if ((s.jobView j).map View.stored) == some (crc32 body) then
      State.withJob { s with
        pool := s.pool.putContent (.job n) body, eng := { s.eng with histogram := histogramOf body } } n fun j =>
        { j with state := .mapping }
    else s.failJob n .bodyCheck

/-- A reload ends with the tables left empty (R23). -/
def State.reloadFailed (s : State) (c : Code) : State :=
  (s.withCat fun x => { x with reloading := false }).answerReload c []

/-- The index is returned to a reload in flight: checked, then the tables are rebuilt in one change (R23, R24). -/
def State.reloadDone (s : State) (x : StoreIndex) : State :=
  match s.cat.reloading, indexCheck x with
  | false, _ => s
  | true, .ok => State.answerReload { s with cat := rebuiltCatalogue x } .ok
      (u8 (indexKeys x).length ++ u16 x.pages.length ++ u16 x.photos.length)
  | true, c => s.reloadFailed c

/-! ### Completions at their owners (R71) -/

/-- The completion of an operation reaches its owner (R71). -/
def State.completed (s : State) (op : Op) (c : Completion) : State :=
  match op, c with
  | .writeIntake r _ _, .ok (.written w) => s.writeDone r w
  | .writeIntake r _ _, .failed c => s.failFiling r c true
  | .writeRestoration n _ _, .ok (.written w) => s.finishJob n w
  | .writeRestoration n _ _, .failed c => s.failJob n c
  | .amend n _ _ _ _ _, .ok (.written w) => s.finishJob n w
  | .amend n _ _ _ _ _, .failed c => s.failJob n c
  | .readForJob n _ _, .ok (.body b) => (s.surveyRead n b).push .heldDiscards
  | .readForJob n _ _, .failed c => (s.failJob n c).push .heldDiscards
  | .readForOrder n _ _, .ok (.body b) => (s.deliveryRead n b).push .heldDiscards
  | .readForOrder n _ _, .failed c => (s.failPreparation n c).push .heldDiscards
  | .sealVolume slot _, .ok (.volume v) => s.sealDone slot v
  | .sealVolume slot _, .failed c => s.sealFailed slot c
  | .readEntry i _ _, .ok (.entry e) => s.fetchDone i e
  | .readEntry i _ _, .failed c => s.fetchFailed i c
  | .indexRead, .ok (.index x) => s.reloadDone x
  | .indexRead, .failed c => s.reloadFailed c
  | .closeMark _ _, _ => s.push .sealTest
  | .freeBody _ _, _ | .probe, _ => s
  | _, .ok _ => s

/-! ### Working through a change -/

/-- One consequence is worked. -/
def State.runTask (s : State) : Task → State
  | .complete op c => s.completed op c
  | .regrant => State.regrant s.pool.claims s
  | .closeTest slot => s.closeTest slot
  | .sealTest => State.sealTest s.vol.sealQueue s
  | .serveRecall => State.serveRecall s.vol.recallWait.length s
  | .startJob => s.startJob
  | .recallGiven r i => s.recallGiven r i
  | .recallFailed r c => s.recallFailed r c
  | .heldDiscards => State.releaseDiscards s.eng.heldDiscards s

/-- The consequences are worked through, first in first out (log 5, 6). -/
def State.settle : Nat → State → State
  | 0, s => s
  | n + 1, s =>
    match s.agenda with
    | [] => s
    | t :: rest => State.settle n (State.runTask { s with agenda := rest } t)

/-- All consequences of a change, up to the bound. -/
def State.settled (s : State) : State := State.settle Config.changeBound s

end Sys2Proof.Machine
end

