-- ==== Sys2Proof/Machine/Change.lean ====
section
/-! DEFINITION. The frame of every change: taking a request (R176, R183, R186), and the end of a change, with the tests of a
pending mode entry (R187, R188), of the notice state (R191) and of the WAIT (R193), and the frames it formed (R176). -/

namespace Sys2Proof.Machine

/-! ### Mode entries (R187, R188) -/

/-- What a pending entry to SETUP waits for (R187). -/
def State.setupReady (s : State) : Bool :=
  (s.cat.editions.all fun e => e.all fun x => x.state != .closing && x.state != .sealing) &&
  s.eng.jobs.isEmpty && (s.ord.live.all fun o => o.state == .charged) &&
  (s.cat.pages.all fun p => !p.state.inFlight) && (s.cat.photos.all fun p => !p.state.inFlight) && s.link.idle

/-- What a pending entry to STANDBY waits for (R188). -/
def State.standbyReady (s : State) : Bool :=
  s.link.idle && s.eng.jobs.isEmpty && (s.ord.live.all fun o => o.state != .preparing) && s.lane.slot.isNone

/-- The suspended reply of a mode entry, unless a link reset lost it (R187). -/
def State.answerEntry (s : State) (kind : U8) (code : Code) : State :=
  match s.req.entryTag with
  | none => s
  | some tag => { s with
      formed := { s.formed with entry := some (s.replyFrame kind tag code []) }
      req := { s.req with entryTag := none } }

/-- The mode changes, with MODE_CHANGED latched (R186). -/
def State.changeMode (s : State) (m : Mode) : State :=
  State.latch { s with req := { s.req with mode := m } } .modeChanged

/-- A pending mode entry is due: what it waits for holds (R187, R188). -/
def State.entryDue (s : State) : Bool :=
  match s.req.mode with
  | .setupPending => s.setupReady
  | .standbyPending => s.standbyReady
  | .setup | .service | .standby => false

/-- A pending mode entry completes (R187, R188); entering SETUP lets the volume unit test its head (R87). -/
def State.completeEntry (s : State) : State :=
  match s.req.mode with
  | .setupPending => ((s.changeMode .setup).answerEntry 0x03 .ok).push .sealTest
  | .standbyPending => (s.changeMode .standby).answerEntry 0x04 .ok
  | .setup | .service | .standby => s

/-! ### Notices and the WAIT (R191, R193) -/

/-- The latched events and the levels that are true. -/
def State.conditions (s : State) : U32 := s.req.latched ||| s.levels

/-- A NOTICE is formed: armed, with masked events or levels (R191). -/
def State.noticeDue (s : State) : Bool := s.req.armed && s.conditions &&& s.req.mask != 0

/-- The NOTICE frame: latched events and levels (R191). -/
def State.noticeFrame (s : State) : Frame := s.frame 0x7F 0 (u32 s.req.latched.toNat ++ u32 s.levels.toNat)

/-- The WAIT whose condition is met (R193). -/
def State.waitMet? (s : State) : Option WaitSlot := s.req.wait.filter fun w => s.conditions &&& w.mask != 0

/-- The OK reply of a WAIT: the events that met the mask and the levels (R193). -/
def State.waitFrame (s : State) (w : WaitSlot) : Frame :=
  s.replyFrame 0x0A w.tag .ok (u32 (s.req.latched &&& w.mask).toNat ++ u32 s.levels.toNat)

/-- The notice flag after a change's test (R191). -/
def State.disarm (s : State) : State := { s with req := { s.req with armed := s.req.armed && !s.noticeDue } }

/-- A WAIT that is met clears the events that met it and frees the slot (R193). -/
def State.endWait (s : State) : State :=
  match s.waitMet? with
  | none => s
  | some w => { s with req := { s.req with latched := s.req.latched &&& ~~~w.mask, wait := none } }

/-! ### Frames (R176) -/

/-- A frame joins the outbound queue, or the pending list when the queue is full or the list is not empty (R176). -/
def MessagePort.put (p : MessagePort) (f : Frame) : MessagePort :=
  if p.waiting.isEmpty && decide (p.outbound.length < Config.outboundFrames) then
    { p with outbound := p.outbound ++ [f] }
  else { p with waiting := p.waiting ++ [f] }

/-- The frames of a change in the order of R176. -/
def State.frames (s : State) : List Frame :=
  s.formed.immediate.toList ++
  (sortBy (fun a b : Nat × Frame => decide (a.1 ≤ b.1)) s.formed.prepare).map Prod.snd ++
  s.formed.reload.toList ++ (s.waitMet?.map s.waitFrame).toList ++ s.formed.entry.toList ++
  (if s.noticeDue then [s.noticeFrame] else [])

/-- The finished list keeps the last 16 (R131). -/
def OrderTable.trim (t : OrderTable) : OrderTable :=
  { t with finished := t.finished.drop (t.finished.length - Config.finishedOrders) }

/-- The frames of a change join the queue, and the change's own lists are cleared. -/
def State.send (s : State) (frames : List Frame) : State :=
  { s with port := frames.foldl MessagePort.put s.port, ord := s.ord.trim, agenda := [], formed := Formed.none }

/-- What the end of a change does once its consequences are worked through: the notice and WAIT tests, and the frames. -/
def State.close (s : State) : State := s.disarm.endWait.send s.frames

/-- The end of a change: its consequences, then a mode entry that is due, then the tests and the frames. -/
def State.endChange (s : State) : State :=
  if s.settled.entryDue then s.settled.completeEntry.settled.close else s.settled.close

/-! ### Taking a request (R176, R183, R186) -/

/-- A request is taken while the outbound queue has a place and the pending list is empty. It stands at the head of the
inbound buffer, or comes directly while the buffer is empty and frames are assembled: not from a link reset until the line has
been high again (R176, R178; log 4). -/
def State.takes (s : State) (c : Instr) : Bool :=
  s.powered && decide (s.port.outbound.length < Config.outboundFrames) && s.port.waiting.isEmpty &&
  match s.port.inbound with
  | [] => !s.port.inBreak
  | f :: _ => decide (decodeRequest f.kind f.tag f.body = c)

/-- A part in STANDBY is woken to SERVICE: WOKEN is latched, and the volume unit tests its head (R87, R186; log 12). -/
def State.wake (s : State) : State :=
  if s.req.mode == .standby then
    State.settled ((State.latch { s with req := { s.req with mode := .service } } .woken).push .sealTest)
  else s

/-- The head of the inbound buffer is removed, and a part in STANDBY is woken (R175, R186). -/
def State.take (s : State) : State :=
  State.wake { s with port := { s.port with inbound := s.port.inbound.tail } }

/-- What is due is one change of its own. -/
def State.due (happens : State → Bool) (body : State → State) (s : State) : State :=
  if happens s then (body s).endChange else s

/-- A STAGED record's WRITE BODY is handed off, in a change of its own with all that follows from it (R49; log 10). -/
def State.handedOff (s : State) : State := State.due (fun t => t.cat.staged?.isSome) State.handStaged s

/-- A request that only reads waits at the head of the inbound buffer, and can be taken (R175, R176). -/
def State.queryWaits (s : State) : Bool :=
  s.port.inbound.head?.any fun f =>
    (decodeRequest f.kind f.tag f.body).reads && s.takes (decodeRequest f.kind f.tag f.body)

/-- The hand-off of a STAGED record's WRITE BODY comes at once, as the second change of the same step; only a query that waits
already, and can be taken, comes between the two and reports STAGED (R49; log 10). -/
def State.handAtOnce (s : State) : State := if s.queryWaits then s else s.handedOff

/-- A request that is taken: its checks, effects and replies are one change (R183); else nothing happens. -/
def State.serve (s : State) (c : Instr) (body : State → State) : State :=
  if s.takes c then (body s.take).endChange else s

/-- A request that only reads. It reports what stands, a STAGED record too; the record's hand-off follows at once (R49;
log 10). -/
def query (c : Instr) (body : State → State) (s : State) : Host.Outcome State Fault Refusal :=
  .next (if s.takes c then (s.serve c body).handAtOnce else s)

/-- A request. The hand-off of a STAGED record's WRITE BODY, where a query has kept it waiting, is the change before it; a frame
that the hand-off forms may leave the request no place, and it then waits (R49, R176; log 10). -/
def request (c : Instr) (body : State → State) (s : State) : Host.Outcome State Fault Refusal :=
  .next (if s.takes c then s.handedOff.serve c body else s)

/-- An event that happens, while the part has power and its cause is there, is one change, with what follows it at once; else
nothing happens (log 3). The hand-off of a STAGED record's WRITE BODY, where a query has kept it waiting, is the change before it,
so that the cause is looked for behind it (R49; log 10). -/
def eventWith (follows : State → State) (happens : State → Bool) (body : State → State) (s : State) :
    Host.Outcome State Fault Refusal :=
  .next (if s.powered && happens s.handedOff then follows (body s.handedOff).endChange else s)

/-- An event that is one change, with nothing to follow it at once. -/
def event (happens : State → Bool) (body : State → State) (s : State) : Host.Outcome State Fault Refusal :=
  eventWith id happens body s

/-- A signal that latches nothing, completes nothing and forms no frame. -/
def signal (happens : State → Bool) (body : State → State) (s : State) : Host.Outcome State Fault Refusal :=
  .next (if s.powered && happens s then body s else s)

/-- The part is in SERVICE. -/
def State.inService (s : State) : Bool := s.req.mode == .service

end Sys2Proof.Machine
end

