-- ==== Sys2Proof/Machine/Calendar.lean ====
section
/-! DEFINITION. The calendar's requests and its three events, and the deadline list (02). -/

namespace Sys2Proof.Machine

/-! ### Requests (R29 to R32) -/

/-- The minute number of a time (R33). -/
def minuteNumber (day hour minute : Nat) : Nat := day * 1440 + hour * 60 + minute

/-- The calendar's own minute number (R33). -/
def Calendar.now (c : Calendar) : Nat := minuteNumber c.day c.hour c.minute

/-- SET TIME's checks and effect (R29). -/
def State.setTime (s : State) (tag second minute hour : U8) (day : U16) : State :=
  if s.cal.state == .running then s.refuse 0x30 tag .calendarRunning
  else if 59 < second.toNat ∨ 59 < minute.toNat ∨ 23 < hour.toNat then s.refuse 0x30 tag .outOfRange
  else State.answer { s with cal :=
    { state := .stopped, fraction := 0, second := second.toNat, minute := minute.toNat, hour := hour.toNat
      day := day.toNat } } 0x30 tag .ok []

/-- SET TIME (R29). -/
def execSetTime (tag second minute hour : U8) (day : U16) (s : State) : Host.Outcome State Fault Refusal :=
  request (.setTime tag second minute hour day) (fun s => s.setTime tag second minute hour day) s

/-- The calendar has the state given, its counters as they are. -/
def State.withCalState (s : State) (st : CalState) : State := { s with cal := { s.cal with state := st } }

/-- RUN CALENDAR's check and effect (R30). -/
def State.runCalendar (s : State) (tag : U8) : State :=
  match s.cal.state with
  | .invalid => s.refuse 0x31 tag .calendarUnset
  | .stopped | .running => (s.withCalState .running).answer 0x31 tag .ok []

/-- RUN CALENDAR (R30). -/
def execRunCalendar (tag : U8) (s : State) : Host.Outcome State Fault Refusal :=
  request (.runCalendar tag) (fun s => s.runCalendar tag) s

/-- The fields of READ TIME (R32). -/
def timeFields (c : Calendar) : List U8 :=
  u8 c.state.toNat ++ u16 c.day ++ u8 c.hour ++ u8 c.minute ++ u8 c.second ++ u8 c.fraction

/-- READ TIME (R32). -/
def execReadTime (tag : U8) (s : State) : Host.Outcome State Fault Refusal :=
  query (.readTime tag) (fun s => s.answer 0x33 tag .ok (timeFields s.cal)) s

/-! ### The deadline list (R37 to R41) -/

/-- The minute number of a deadline (R33). -/
def Deadline.number (d : Deadline) : Nat := minuteNumber d.day d.hour d.minute

/-- The deadline minute number of an edition slot, by the entry's deadline field (R37). -/
def Catalogue.deadlineOf (c : Catalogue) (slot : Nat) : Option Nat :=
  ((c.edition? slot).bind Edition.deadline).map Deadline.number

/-- A slot is inserted after every entry whose deadline is earlier than or equal to its own (R37). -/
def insertDeadline (num : Nat → Nat) (slot : Nat) : List Nat → List Nat
  | [] => [slot]
  | y :: ys => if num y ≤ num slot then y :: insertDeadline num slot ys else slot :: y :: ys

/-- An edition with a deadline is placed in the list, as a new insertion (R37). -/
def State.placeDeadline (s : State) (slot : Nat) : State :=
  { s with deadlines :=
    insertDeadline (fun x => (s.cat.deadlineOf x).getD 0) slot (s.deadlines.filter fun x => x != slot) }

/-- The 0-based position of a slot in the list, or 255 (R40, R43). -/
def deadlinePosition (l : List Nat) (slot : Nat) : Nat := (l.findIdx? fun x => x == slot).getD 255

/-- The deadline that the fields give; none with the flag 0 (R40, R42). -/
def givenDeadline (d : DeadlineFields) : Option Deadline :=
  if flagSet d.flag then some ⟨d.day.toNat, d.hour.toNat, d.minute.toNat⟩ else none

/-- The deadline fields are in range (R40, R42). -/
def deadlineInRange (d : DeadlineFields) : Bool := !flagSet d.flag || decide (d.hour.toNat ≤ 23 ∧ d.minute.toNat ≤ 59)

/-- SET DEADLINE's effect on an OPEN edition (R37, R40). -/
def State.changeDeadline (s : State) (slot : Nat) (d : Option Deadline) : State :=
  match d with
  | none =>
    State.withCat { s with deadlines := s.deadlines.filter fun x => x != slot } fun c =>
      c.withEdition slot fun e => { e with deadline := none, warned := false }
  | some x =>
    let later := decide (s.cal.now + s.req.options.lead < x.number)
    (s.withCat fun c => c.withEdition slot fun e =>
      { e with deadline := some x, warned := e.warned && !later }).placeDeadline slot

/-- SET DEADLINE's checks (R40). -/
def State.setDeadline (s : State) (tag : U8) (key : EditionKey) (d : DeadlineFields) : State :=
  if 15 < key.code.toNat ∨ !deadlineInRange d then s.refuse 0x34 tag .outOfRange
  else
    match s.cat.slotOf key with
    | none => s.refuse 0x34 tag .notFound
    | some slot =>
      if (s.cat.edition? slot).any fun e => e.state != .opened then s.refuse 0x34 tag .badState
      else if flagSet d.flag && s.cal.state == .invalid then s.refuse 0x34 tag .calendarUnset
      else
        let t := s.changeDeadline slot (givenDeadline d)
        t.answer 0x34 tag .ok (u8 (deadlinePosition t.deadlines slot))

/-- SET DEADLINE (R40). -/
def execSetDeadline (tag : U8) (key : EditionKey) (d : DeadlineFields) (s : State) :
    Host.Outcome State Fault Refusal :=
  request (.setDeadline tag key d) (fun s => s.setDeadline tag key d) s

/-- One entry of LIST DEADLINES, 9 bytes (R41). -/
def Catalogue.deadlineFields (c : Catalogue) (slot : Nat) : List U8 :=
  match c.edition? slot with
  | none => []
  | some e =>
    let d := e.deadline.getD ⟨0, 0, 0⟩
    u8 slot ++ keyField e.key ++ u16 d.day ++ u8 d.hour ++ u8 d.minute ++ flagByte e.warned

/-- LIST DEADLINES (R41). -/
def execListDeadlines (tag : U8) (s : State) : Host.Outcome State Fault Refusal :=
  query (.listDeadlines tag)
    (fun s => s.answer 0x35 tag .ok
      (u8 s.req.options.lead ++ u8 s.deadlines.length ++ s.deadlines.flatMap s.cat.deadlineFields)) s

/-! ### The minute event (R34, R38, R39) -/

/-- Due heads of the list given begin their forced close, in list order (R38, R56). -/
def State.fireDeadlines (now : Nat) : List Nat → State → State
  | [], s => s
  | slot :: rest, s =>
    if (s.cat.deadlineOf slot).any fun d => decide (d ≤ now) then
      State.fireDeadlines now rest (s.beginClose slot true)
    else s

/-- The listed editions to be warned: not warned yet, with a deadline at or before now plus the lead, which is not 0 (R39). -/
def State.toWarn (s : State) (now : Nat) : List Nat :=
  if s.req.options.lead = 0 then []
  else s.deadlines.filter fun slot =>
    (s.cat.edition? slot).any (fun e => !e.warned) &&
    (s.cat.deadlineOf slot).any fun d => decide (d ≤ now + s.req.options.lead)

/-- The warnings of a minute event; DEADLINE_NEAR is latched once (R39). -/
def State.raiseWarnings (s : State) (now : Nat) : State :=
  match s.toWarn now with
  | [] => s
  | w => (w.foldl (fun t slot => t.withCat fun c => c.withEdition slot fun e => { e with warned := true }) s).latch
      .deadlineNear

/-- A minute event: due deadlines fire, then warnings are raised (R34). -/
def State.minuteWork (s : State) (now : Nat) : State := (State.fireDeadlines now s.deadlines s).raiseWarnings now

/-- What a RUNNING calendar has raised and no command has taken; another calendar has no event (R31, R33). -/
def State.raised? {α : Type} (s : State) (mark : DueEvents → Option α) : Option α :=
  if s.cal.state == .running then mark s.events else none

/-- The minute event that a tick raised is taken (R34; log 8). -/
def State.takeMinute (s : State) : State :=
  match s.raised? DueEvents.minute with
  | some now => State.minuteWork { s with events := { s.events with minute := none } } now
  | none => s

/-- MINUTE EVENT (R34). -/
def execMinuteEvent (s : State) : Host.Outcome State Fault Refusal :=
  event (fun s => (s.raised? DueEvents.minute).isSome) State.takeMinute s

/-! ### The day rollover (R21, R35, R123) -/

/-- A hold has run out on the new day (R123). -/
def Hold.expired (h : Hold) (day : Nat) : Bool := h.untilDay.any fun d => decide (d < day)

/-- Holds that have run out are removed; if any was, the rights-held list is re-evaluated (R123). -/
def State.expireHolds (s : State) (day : Nat) : State :=
  if s.hold.entries.any fun h => h.expired day then
    let s1 := { s with hold := { s.hold with entries := s.hold.entries.filter fun h => !h.expired day } }
    (State.reevaluate s1.hold.held s1).1
  else s

/-- An orphan photo on the new day (R21). -/
def Photo.isOrphan (p : Photo) (day retention : Nat) : Bool :=
  p.state == .filed && p.refs == 0 && p.pins == 0 && p.filedOn.any fun d => decide (d + retention < day)

/-- The orphan sweep (R21). -/
def State.sweepOrphans (s : State) (day : Nat) : State :=
  s.withCat fun c => { c with photos := c.photos.filter fun p => !p.isOrphan day s.req.options.retention }

/-- The day rollover that a tick raised is taken (R35; log 8). -/
def State.takeRollover (s : State) : State :=
  match s.raised? DueEvents.rollover with
  | some day => (State.expireHolds { s with events := { s.events with rollover := none } } day).sweepOrphans day
  | none => s

/-- DAY ROLLOVER (R35). -/
def execDayRollover (s : State) : Host.Outcome State Fault Refusal :=
  event (fun s => (s.raised? DueEvents.rollover).isSome) State.takeRollover s

/-! ### The trade-day boundary (R36, R84, R167) -/

/-- The statement buffer at a boundary: the open statement closes with cause 1, or the boundary is missed (R167). -/
def State.boundaryStatement (s : State) : State :=
  if s.stmt.closed.length < Config.closedStatements then s.closeOpenStatement 1
  else { s with stmt := { s.stmt with current :=
    { s.stmt.current with missed := min 65535 (s.stmt.current.missed + 1) } } }

/-- The boundary that a tick raised is taken: the part is woken, the statement buffer acts, the retention sweep runs (R36,
R186; log 8). -/
def State.takeBoundary (s : State) : State :=
  match s.raised? DueEvents.boundary with
  | some day =>
    (State.wake { s with events := { s.events with boundary := none } }).boundaryStatement.retentionSweep day
  | none => s

/-- TRADE-DAY BOUNDARY (R36). -/
def execTradeDayBoundary (s : State) : Host.Outcome State Fault Refusal :=
  event (fun s => (s.raised? DueEvents.boundary).isSome) State.takeBoundary s

/-! ### STOP CALENDAR (R31) -/

/-- What the last base tick raised is taken, each event with its consequences, in the table's order (R33; log 8). -/
def State.takeRaised (s : State) : State := s.takeMinute.settled.takeRollover.settled.takeBoundary.settled

/-- STOP CALENDAR's check and effect. The events of the last tick occurred at that tick, so they are taken before the
calendar stops; while it is STOPPED none occurs (R31, R33; log 8). -/
def State.stopCalendar (s : State) (tag : U8) : State :=
  match s.cal.state with
  | .invalid => s.refuse 0x32 tag .calendarUnset
  | .stopped => s.answer 0x32 tag .ok []
  | .running => (s.takeRaised.withCalState .stopped).answer 0x32 tag .ok []

/-- STOP CALENDAR (R31). -/
def execStopCalendar (tag : U8) (s : State) : Host.Outcome State Fault Refusal :=
  request (.stopCalendar tag) (fun s => s.stopCalendar tag) s

end Sys2Proof.Machine
end

