-- ==== Sys2Proof/Machine/CatalogueRequests.lean ====
section
/-! DEFINITION. The catalogue's queries, DROP PHOTO and the reload's request (01, R16 to R22). -/

namespace Sys2Proof.Machine

/-- The deadline fields of QUERY EDITION (R16). -/
def deadlineReply (d : Option Deadline) : List U8 :=
  let x := d.getD ⟨0, 0, 0⟩
  flagByte d.isSome ++ u16 x.day ++ u8 x.hour ++ u8 x.minute

/-- The fields of QUERY EDITION (R16). -/
def Catalogue.editionFields (c : Catalogue) (slot : Nat) (e : Edition) : List U8 :=
  let gaps := e.gaps.getD []
  u8 slot ++ u8 e.state.toNat ++ u8 e.planned ++ deadlineReply e.deadline ++
  flagByte e.warned ++ flagByte e.forced ++ flagByte e.interrupted ++ flagByte e.due ++ u8 e.pins ++
  flaggedDay e.closedOn ++ u16 e.failedPages ++ u16 (c.pagesOf slot).length ++
  u8 gaps.length ++ gaps.flatMap u8

/-- QUERY EDITION's checks and reply (R16). -/
def State.queryEdition (s : State) (tag : U8) (key : EditionKey) : State :=
  if 15 < key.code.toNat then s.refuse 0x40 tag .outOfRange
  else
    match s.cat.slotOf key with
    | none => s.refuse 0x40 tag .notFound
    | some slot =>
      match s.cat.edition? slot with
      | none => s.refuse 0x40 tag .notFound
      | some e => s.answer 0x40 tag .ok (s.cat.editionFields slot e)

/-- QUERY EDITION (R16). -/
def execQueryEdition (tag : U8) (key : EditionKey) (s : State) : Host.Outcome State Fault Refusal :=
  query (.queryEdition tag key) (fun s => s.queryEdition tag key) s

/-- The fields of LIST EDITIONS from a start slot: up to 32 entries, and where to resume (R17). -/
def Catalogue.listFields (c : Catalogue) (start : Nat) : List U8 :=
  let found := c.occupied.filter fun x => decide (start ≤ x.1)
  let shown := found.take 32
  let resume := if found.length ≤ 32 then 64 else (shown.getLast?.map fun x => x.1 + 1).getD 64
  u8 shown.length ++ u8 resume ++
  shown.flatMap fun x => u8 x.1 ++ keyField x.2.key ++ u8 x.2.state.toNat ++ u8 x.2.pins

/-- LIST EDITIONS (R17). -/
def execListEditions (tag start : U8) (s : State) : Host.Outcome State Fault Refusal :=
  query (.listEditions tag start)
    (fun s => if 63 < start.toNat then s.refuse 0x41 tag .outOfRange
      else s.answer 0x41 tag .ok (s.cat.listFields start.toNat)) s

/-- A page key is in range (R18). -/
def pageKeyInRange (k : PageKey) : Bool :=
  decide (k.edition.code.toNat ≤ 15 ∧ 1 ≤ k.page.toNat ∧ k.page.toNat ≤ 128 ∧ k.version.toNat ≤ 7)

/-- Levels and points in a reply: level, points flag, b, w (R18, R19). -/
def levelFields (level : Nat) (p : Option Points) : List U8 := u8 level ++ pointsField p

/-- The fields of QUERY PAGE (R18). -/
def State.pageFields (s : State) (p : Page) : List U8 :=
  u8 p.slot ++ u8 p.number ++ u8 p.version ++ u8 p.sectionCode ++ u8 p.state.toNat ++ flagByte p.superseded ++
  gridField p.grid ++ u32 p.declared.toNat ++ u32Opt p.raw ++ u32Opt p.current ++ u32Opt p.stored ++
  levelFields p.level p.points ++ u8 p.outcome.toNat ++
  u8 (s.pool.heldBy (.record (.page p.slot p.number p.version))) ++
  u8 p.placements.length ++ p.placements.flatMap placementField

/-- The record that QUERY PAGE reports: version 0 is the current version (R8, R18). -/
def Catalogue.lookUp (c : Catalogue) (slot page version : Nat) : Except Code Page :=
  if version = 0 then (c.current? slot page).elim (.error .notFiled) .ok
  else (c.page? slot page version).elim (.error .notFound) .ok

/-- QUERY PAGE's checks and reply (R18). -/
def State.queryPage (s : State) (tag : U8) (k : PageKey) : State :=
  if !pageKeyInRange k then s.refuse 0x42 tag .outOfRange
  else
    match s.cat.slotOf k.edition with
    | none => s.refuse 0x42 tag .notFound
    | some slot =>
      match s.cat.lookUp slot k.page.toNat k.version.toNat with
      | .error c => s.refuse 0x42 tag c
      | .ok p => s.answer 0x42 tag .ok (s.pageFields p)

/-- QUERY PAGE (R18). -/
def execQueryPage (tag : U8) (k : PageKey) (s : State) : Host.Outcome State Fault Refusal :=
  query (.queryPage tag k) (fun s => s.queryPage tag k) s

/-- The filed-on fields of QUERY PHOTO: reported from FILED (R19). -/
def filedOnFields (p : Photo) : List U8 := flaggedDay (if p.state == .filed then p.filedOn else none)

/-- The fields of QUERY PHOTO (R19). -/
def State.photoFields (s : State) (p : Photo) : List U8 :=
  u8 p.state.toNat ++ rightsField p.rights ++ gridField p.grid ++ u32 p.declared.toNat ++
  u32Opt p.raw ++ u32Opt p.current ++ u32Opt p.stored ++ levelFields p.level p.points ++
  u16 p.refs ++ u8 p.pins ++ filedOnFields p ++ u8 p.outcome.toNat ++
  u8 (s.pool.heldBy (.record (.photo p.number)))

/-- QUERY PHOTO's checks and reply (R19). -/
def State.queryPhoto (s : State) (tag : U8) (n : U32) : State :=
  if n = 0 then s.refuse 0x43 tag .outOfRange
  else
    match s.cat.photo? n with
    | none => s.refuse 0x43 tag .notFound
    | some p => s.answer 0x43 tag .ok (s.photoFields p)

/-- QUERY PHOTO (R19). -/
def execQueryPhoto (tag : U8) (n : U32) (s : State) : Host.Outcome State Fault Refusal :=
  query (.queryPhoto tag n) (fun s => s.queryPhoto tag n) s

/-- DROP PHOTO may free the record: FAILED, or FILED with no references and no pins (R20). -/
def Photo.mayDrop (p : Photo) : Bool :=
  p.state == .failed || (p.state == .filed && p.refs == 0 && p.pins == 0)

/-- DROP PHOTO's checks and effect (R20). -/
def State.dropPhoto (s : State) (tag : U8) (n : U32) : State :=
  if n = 0 then s.refuse 0x44 tag .outOfRange
  else
    match s.cat.photo? n with
    | none => s.refuse 0x44 tag .notFound
    | some p =>
      if p.mayDrop then
        (s.withCat fun c => { c with photos := c.photos.filter fun q => q.number != n }).answer 0x44 tag .ok []
      else s.refuse 0x44 tag .badState

/-- DROP PHOTO (R20). -/
def execDropPhoto (tag : U8) (n : U32) (s : State) : Host.Outcome State Fault Refusal :=
  request (.dropPhoto tag n) (fun s => s.dropPhoto tag n) s

/-- The tables are empty (R22). -/
def Catalogue.isEmpty (c : Catalogue) : Bool := c.editions.all Option.isNone && c.pages.isEmpty && c.photos.isEmpty

/-- RELOAD CATALOGUE's checks and effect: the INDEX READ is handed off and the reply suspended (R22). -/
def State.reload (s : State) (tag : U8) : State :=
  if s.req.mode != .setup || !s.cat.isEmpty then s.refuse 0x45 tag .badState
  else if s.cat.reloading then s.refuse 0x45 tag .busy
  else
    State.handOff { s with
      cat := { s.cat with reloading := true }, req := { s.req with reloadTag := some tag } } .indexRead

/-- RELOAD CATALOGUE (R22). -/
def execReloadCatalogue (tag : U8) (s : State) : Host.Outcome State Fault Refusal :=
  request (.reloadCatalogue tag) (fun s => s.reload tag) s

end Sys2Proof.Machine
end

