-- ==== Sys2Proof/Machine/Line.lean ====
section
/-! DEFINITION. The message line: frames received and sent, arbitration, link reset and its end (11, R172 to R178), and LINK
STATUS (R182). -/

namespace Sys2Proof.Machine

/-- What a frame that has ended is judged to be (R174). -/
inductive Verdict where
  | ignored
  | discarded
  | good (f : Frame)
  deriving DecidableEq, Repr

/-- The byte at an offset of a received frame. -/
def charByte (chars : List LineChar) (k : Nat) : U8 := ((chars[k]?).map LineChar.byte).getD 0

/-- The length field of a received frame (R173). -/
def lengthField (chars : List LineChar) : Nat := (charByte chars 3).toNat * 256 + (charByte chars 4).toNat

/-- The check field of a received frame: its last two bytes (R173). -/
def checkField (chars : List LineChar) : U16 :=
  BitVec.ofNat 16 ((charByte chars (chars.length - 2)).toNat * 256 + (charByte chars (chars.length - 1)).toNat)

/-- The frame's bytes before its check are those that the check covers (R173, R174). -/
def checkMatches (chars : List LineChar) : Bool :=
  crc16 ((chars.take (chars.length - 2)).map LineChar.byte) == checkField chars

/-- The frame that good characters carry (R173). -/
def frameOf (chars : List LineChar) : Frame :=
  { station := charByte chars 0, kind := charByte chars 1, tag := charByte chars 2
    body := ((chars.drop 5).take (lengthField chars)).map LineChar.byte }

/-- The judgement of a frame that has ended: the first test that applies decides (R174). -/
def judge (station : BitVec 3) (chars : List LineChar) : Verdict :=
  if chars.head?.any fun c => !c.damaged && c.byte != station.setWidth 8 then .ignored
  else if chars.length < 7 then .discarded
  else if chars.any LineChar.damaged then .discarded
  else if Config.frameBody < lengthField chars ∨ chars.length ≠ 7 + lengthField chars then .discarded
  else if checkMatches chars then .good (frameOf chars)
  else .discarded

/-- A discarded frame is counted and latched (R174). -/
def State.countLineError (s : State) : State :=
  State.latch { s with port := { s.port with linkErrors := min 255 (s.port.linkErrors + 1) } } .lineError

/-- A good frame joins the inbound buffer, or is lost to a full one (R175). -/
def State.buffer (s : State) (f : Frame) : State :=
  if s.port.inbound.length < Config.inboundFrames then
    { s with port := { s.port with inbound := s.port.inbound ++ [f] } }
  else State.latch { s with port := { s.port with overruns := min 255 (s.port.overruns + 1) } } .frameOverrun

/-- What a frame's end does (R174, R175). -/
def State.receive (s : State) (chars : List LineChar) : State :=
  match judge s.port.station chars with
  | .ignored => s
  | .discarded => s.countLineError
  | .good f => s.buffer f

/-- FRAME_RECEIVED (R174, R175); while a break has not ended, no frame is assembled (R178). -/
def execFrameReceived (chars : List LineChar) (s : State) : Host.Outcome State Fault Refusal :=
  event (fun s => !s.port.inBreak && !chars.isEmpty) (fun s => s.receive chars) s

/-- Character times of idle that the part owes the return line: 7 after it has itself sent a whole frame, 3 otherwise, so also
once another part has held the line since (R177). -/
def MessagePort.guardTime (p : MessagePort) (afterOther : Bool) : Nat :=
  if p.ownFrame && !afterOther then Config.guardAfterOwn else Config.guardOtherwise

/-- The head of the outbound queue goes on the line; another part's turn has ended the longer guard time (R176, R177). -/
def MessagePort.begin (p : MessagePort) (afterOther : Bool) : MessagePort :=
  { p with sending := p.outbound.head?.map Frame.bytes, ownFrame := p.ownFrame && !afterOther }

/-- FRAME_SEND_START: the head of the outbound queue goes on the line after the guard time (R176, R177). -/
def execFrameSendStart (idle : ReturnIdle) (s : State) : Host.Outcome State Fault Refusal :=
  signal
    (fun s => s.port.sending.isNone && !s.port.outbound.isEmpty && decide (s.port.guardTime idle.afterOther ≤ idle.idle))
    (fun s => { s with port := s.port.begin idle.afterOther }) s

/-- ARBITRATION_LOST: the part stops driving and keeps the frame at the head. After a lost contest the winner has held the
line, so 3 character times are owed; after a fault of the line the guard time is what it was (R177; log 26). -/
def execArbitrationLost (s : State) : Host.Outcome State Fault Refusal :=
  signal (fun s => s.port.sending.isSome) (fun s => { s with port := { s.port with sending := none } }) s

/-- The head frame has been sent: it leaves the queue, and one frame of the pending list takes the place (R176). -/
def MessagePort.sent (p : MessagePort) : MessagePort :=
  match p.waiting with
  | [] => { p with outbound := p.outbound.tail, sending := none, ownFrame := true }
  | f :: rest => { p with outbound := p.outbound.tail ++ [f], waiting := rest, sending := none, ownFrame := true }

/-- FRAME_SENT (R176). -/
def execFrameSent (s : State) : Host.Outcome State Fault Refusal :=
  signal (fun s => s.port.sending.isSome) (fun s => { s with port := s.port.sent }) s

/-- The message port at a link reset (R178). That a frame cut off, which was not sent whole, leaves the guard time owed as it
was is the model's choice (log 40). -/
def MessagePort.atReset (p : MessagePort) : MessagePort :=
  { p with inbound := [], outbound := [], waiting := [], sending := none, inBreak := true
           linkResets := min 255 (p.linkResets + 1) }

/-- The request processor at a link reset: the WAIT and the suspended replies are dropped, the flag is armed (R178). -/
def RequestUnit.atReset (r : RequestUnit) : RequestUnit :=
  { r with armed := true, wait := none, entryTag := none, reloadTag := none }

/-- A binding is aborted (R178, R180). -/
def State.abortLane (s : State) : State :=
  match s.lane.slot with
  | some b => s.endTransfer b .aborted
  | none => s

/-- What a link reset does (R178). -/
def State.linkReset (s : State) : State :=
  State.abortLane { s with
    port := s.port.atReset, req := s.req.atReset
    ord := { s.ord with live := s.ord.live.map fun o => { o with prepTag := none } } }

/-- LINK_RESET (R178). -/
def execLinkReset (s : State) : Host.Outcome State Fault Refusal := event (fun _ => true) State.linkReset s

/-- BREAK_END: the line has been high for 2 character times, and frames are assembled again (R178). -/
def execBreakEnd (s : State) : Host.Outcome State Fault Refusal :=
  signal (fun s => s.port.inBreak) (fun s => { s with port := { s.port with inBreak := false } }) s

/-! ### LINK STATUS (R182) -/

/-- Slot state, direction, owner, counts and expiry of the lane's binding, zero when FREE (R182). -/
def laneFields : Option Binding → List U8
  | none => u8 0 ++ u8 0 ++ u8 0 ++ u32 0 ++ u32 0 ++ u32 0 ++ u16 0
  | some b =>
    let owner := match b.owner with
      | .record (.page _ _ _) => u8 1 ++ u32 0
      | .record (.photo _) => u8 2 ++ u32 0
      | .order n => u8 3 ++ u32 n
      | .job _ => u8 0 ++ u32 0
    match b.state with
    | .bound ticks => u8 1 ++ u8 (if b.outbound then 2 else 1) ++ owner ++ u32 b.count ++ u32 b.moved ++ u16 ticks
    | .active => u8 2 ++ u8 (if b.outbound then 2 else 1) ++ owner ++ u32 b.count ++ u32 b.moved ++ u16 0

/-- The fields of LINK STATUS (R182). The request's own frame has left the buffer when the frames in it are counted, which is the
model's choice (log 37). -/
def State.linkFields (s : State) : List U8 :=
  u8 s.port.rate.toNat ++ u8 s.port.station.toNat ++ u8 s.port.linkErrors ++ u8 s.port.overruns ++
  u8 s.port.linkResets ++ u8 s.port.inbound.length ++ u8 s.port.outbound.length ++ u8 s.port.waiting.length ++
  laneFields s.lane.slot

/-- The three counters set to 0 when the clear flag is set (R182). -/
def MessagePort.cleared (p : MessagePort) (clear : U8) : MessagePort :=
  if flagSet clear then { p with linkErrors := 0, overruns := 0, linkResets := 0 } else p

/-- LINK STATUS (R182). -/
def execLinkStatus (tag clear : U8) (s : State) : Host.Outcome State Fault Refusal :=
  request (.linkStatus tag clear)
    (fun s => State.answer { s with port := s.port.cleared clear } 0x1B tag .ok s.linkFields) s

end Sys2Proof.Machine
end

