-- ==== Sys2Proof/Machine/Lane.lean ====
section
/-! DEFINITION. The body lane: select, bytes, the ends of a transfer, and CANCEL TRANSFER (11, R179 to R181). -/

namespace Sys2Proof.Machine

/-- The byte that an outbound transfer drives: the one that moves next (R179). -/
def State.drivenByte (s : State) (b : Binding) : Option U8 :=
  if b.outbound then (s.pool.content b.owner)[b.moved]? else none

/-- Select goes from released to asserted: a BOUND slot becomes ACTIVE, its bind expiry stopped (R179). -/
def State.assertSelect (s : State) : State :=
  match s.lane.slot with
  | some b =>
    let b1 := { b with state := .active }
    { s with lane := { s.lane with select := true, slot := some b1, out := s.drivenByte b1 } }
  | none => { s with lane := { s.lane with select := true } }

/-- SELECT_ASSERTED (R179). -/
def execSelectAsserted (s : State) : Host.Outcome State Fault Refusal :=
  signal (fun s => !s.lane.select) State.assertSelect s

/-- The ACTIVE binding while select is asserted. -/
def Lane.moving? (l : Lane) : Option Binding := if l.select then l.slot.filter fun b => b.state == .active else none

/-- A byte moves: inbound it is taken into the owner's segments; it adds to the CRC and to the bytes moved (R179). The
operand is the byte on the data lines; outbound the part itself drives them. -/
def State.moveByte (s : State) (b : Binding) (data : U8) : State × Binding :=
  let byte := (s.drivenByte b).getD data
  let b1 := { b with moved := b.moved + 1, crc := crc32Byte b.crc byte }
  let s1 : State := if b.outbound then s
    else { s with pool := s.pool.putContent b.owner (s.pool.content b.owner ++ [data]) }
  (s1, b1)

/-- A byte that does not reach the count moves; after a complete outbound transfer the lane drives FF (R179, R180). -/
def State.clockByte (s : State) (data : U8) : State :=
  match s.lane.moving? with
  | some b =>
    let r := s.moveByte b data
    { r.1 with lane := { r.1.lane with slot := some r.2, out := r.1.drivenByte r.2 } }
  | none => { s with lane := { s.lane with out := if s.lane.trailing then some 0xFF else s.lane.out } }

/-- BYTE_MOVED: a clock edge that does not bring the count (R179, R180). -/
def execByteMoved (data : U8) (s : State) : Host.Outcome State Fault Refusal :=
  signal (fun s => match s.lane.moving? with
      | some b => decide (b.moved + 1 < b.count)
      | none => s.lane.select && s.lane.trailing)
    (fun s => s.clockByte data) s

/-- The byte that reaches the count moves, and the transfer is complete; after an outbound one the lane drives FF until
select is released (R180). -/
def State.lastByte (s : State) (data : U8) : State :=
  match s.lane.moving? with
  | none => s
  | some b =>
    let r := s.moveByte b data
    let t := r.1.completeTransfer r.2 (crc32End r.2.crc)
    if b.outbound then { t with lane := { t.lane with out := some 0xFF, trailing := true } } else t

/-- TRANSFER_COMPLETE; where it makes a record STAGED, the hand-off of its WRITE BODY follows at once (R49, R180). -/
def execTransferComplete (data : U8) (s : State) : Host.Outcome State Fault Refusal :=
  eventWith State.handAtOnce (fun s => s.lane.moving?.any fun b => b.moved + 1 == b.count) (fun s => s.lastByte data) s

/-- Select is released: an ACTIVE transfer ends short, and the lane stops driving (R180). -/
def State.releaseSelect (s : State) : State :=
  let s1 : State := { s with lane := { s.lane with select := false, trailing := false, out := none } }
  match s.lane.moving? with
  | some b => s1.endTransfer b .short
  | none => s1

/-- SELECT_RELEASED (R180). -/
def execSelectReleased (s : State) : Host.Outcome State Fault Refusal :=
  event (fun s => s.lane.select) State.releaseSelect s

/-- The binding whose bind expiry has run out (R180). -/
def Lane.expired? (l : Lane) : Option Binding := l.slot.filter fun b => b.state == .bound 0

/-- The bind expiry runs out while BOUND: the transfer has expired (R180). -/
def State.expireBinding (s : State) : State :=
  match s.lane.expired? with
  | some b => s.endTransfer b .expired
  | none => s

/-- LANE_BIND_EXPIRY (R180). -/
def execLaneBindExpiry (s : State) : Host.Outcome State Fault Refusal :=
  event (fun s => s.lane.expired?.isSome) State.expireBinding s

/-- CANCEL TRANSFER: the transfer is aborted and reported, or BAD_STATE while FREE (R181). -/
def execCancelTransfer (tag : U8) (s : State) : Host.Outcome State Fault Refusal :=
  request (.cancelTransfer tag)
    (fun s => match s.lane.slot with
      | none => s.refuse 0x1A tag .badState
      | some b => s.abortLane.answer 0x1A tag .ok
          (u8 (if b.outbound then 2 else 1) ++ u32 b.count ++ u32 b.moved)) s

end Sys2Proof.Machine
end

