-- ==== Sys2Proof/Machine/Modes.lean ====
section
/-! DEFINITION. Requests of no job: unknown requests, identification, modes, options, notices and the WAIT (12). -/

namespace Sys2Proof.Machine

/-- UNKNOWN REQUEST: a kind that names no request is refused; its reply carries the low eight bits of the kind plus 80 hex
(R183). -/
def execUnknownRequest (tag kind : U8) (s : State) : Host.Outcome State Fault Refusal :=
  request (.unknownRequest tag kind)
    (fun s => if requestKinds.contains kind.toNat then s else s.refuse kind tag .unknownRequest) s

/-- The fields of IDENTIFY (R190). -/
def State.identity (s : State) : List U8 :=
  u16 0x0740 ++ u8 1 ++ u8 s.port.station.toNat ++ u8 s.req.mode.toNat ++
  u8 Config.editionEntries ++ u16 Config.pageRecords ++ u16 Config.photoRecords ++ u8 Config.stagingSegments ++
  u8 Config.intakeReserve ++ u8 Config.storeSlots ++ u8 Config.recallSlots ++ u8 Config.jobs ++ u8 Config.orders ++
  u8 Config.preparedOrders ++ u8 Config.holds ++ u8 Config.accounts ++ u16 Config.statementEntries ++
  u8 Config.closedStatements

/-- IDENTIFY (R190). -/
def execIdentify (tag : U8) (s : State) : Host.Outcome State Fault Refusal :=
  query (.identify tag) (fun s => s.answer 0x01 tag .ok s.identity) s

/-! ### Modes -/

/-- The mode becomes SERVICE; the volume unit tests its head (R87, R186). -/
def State.toService (s : State) : State := (s.changeMode .service).push .sealTest

/-- START SERVICE by the mode (R186). -/
def State.startService (s : State) (tag : U8) : State :=
  match s.req.mode with
  | .setup =>
    if s.cat.reloading then s.refuse 0x02 tag .busy else s.toService.answer 0x02 tag .ok []
  | .setupPending => ((s.answerEntry 0x03 .aborted).toService).answer 0x02 tag .ok []
  | .standbyPending => ((s.answerEntry 0x04 .aborted).toService).answer 0x02 tag .ok []
  | .service | .standby => s.answer 0x02 tag .ok []

/-- START SERVICE (R186). -/
def execStartService (tag : U8) (s : State) : Host.Outcome State Fault Refusal :=
  request (.startService tag) (fun s => s.startService tag) s

/-- An edition stands in one of the states that the test names. -/
def Catalogue.anyEdition (c : Catalogue) (p : EdState → Bool) : Bool := c.editions.any fun e => e.any fun x => p x.state

/-- The mode becomes a pending one, and the reply is suspended (R187, R188). -/
def State.pend (s : State) (m : Mode) (tag : U8) : State :=
  { s with req := { s.req with mode := m, entryTag := some tag } }

/-- ENTER SETUP by the mode (R187). -/
def State.enterSetup (s : State) (tag : U8) : State :=
  match s.req.mode with
  | .service | .standby =>
    if s.cat.anyEdition (fun st => st == .opened) || s.ord.live.any fun o => o.state.isHeld then
      s.refuse 0x03 tag .badState
    else s.pend .setupPending tag
  | .setup => s.answer 0x03 tag .ok []
  | .setupPending => s.refuse 0x03 tag .busy
  | .standbyPending => s.refuse 0x03 tag .badState

/-- ENTER SETUP (R187). -/
def execEnterSetup (tag : U8) (s : State) : Host.Outcome State Fault Refusal :=
  request (.enterSetup tag) (fun s => s.enterSetup tag) s

/-- SETUP ENTRY COMPLETE: a pending entry whose conditions hold completes; the end of every change tests it too (R187;
log 7). -/
def execSetupEntryComplete (s : State) : Host.Outcome State Fault Refusal :=
  event (fun s => s.req.mode == .setupPending && s.setupReady) id s

/-- ENTER STANDBY by the mode (R188). -/
def State.enterStandby (s : State) (tag : U8) : State :=
  match s.req.mode with
  | .service | .standby =>
    if s.cat.anyEdition fun st => st == .opened || st == .closing then s.refuse 0x04 tag .badState
    else s.pend .standbyPending tag
  | .standbyPending => s.refuse 0x04 tag .busy
  | .setup | .setupPending => s.refuse 0x04 tag .badState

/-- ENTER STANDBY (R188). -/
def execEnterStandby (tag : U8) (s : State) : Host.Outcome State Fault Refusal :=
  request (.enterStandby tag) (fun s => s.enterStandby tag) s

/-- STANDBY ENTRY COMPLETE: as for SETUP (R188; log 7). -/
def execStandbyEntryComplete (s : State) : Host.Outcome State Fault Refusal :=
  event (fun s => s.req.mode == .standbyPending && s.standbyReady) id s

/-! ### Options (R189) -/

/-- A value clamped into a range. -/
def clamp (low high n : Nat) : Nat := max low (min high n)

/-- The options after option number n is set to a value, with the value in force; none out of range (R189). -/
def Options.set (o : Options) (n v : Nat) : Option (Options × Nat) :=
  if n = 1 then some ({ o with retention := clamp 1 30 v }, clamp 1 30 v)
  else if n = 2 then some ({ o with lead := clamp 0 60 v }, clamp 0 60 v)
  else if n = 3 then if v ≤ 23 then some ({ o with boundary := v }, v) else none
  else if n = 4 then some ({ o with autoResume := v != 0 }, if v = 0 then 0 else 1)
  else none

/-- SET OPTION's effect (R189). -/
def State.setOption (s : State) (tag number : U8) (value : U16) : State :=
  match s.req.options.set number.toNat value.toNat with
  | none => s.refuse 0x05 tag .outOfRange
  | some r => State.answer { s with req := { s.req with options := r.1 } } 0x05 tag .ok (u8 number.toNat ++ u16 r.2)

/-- SET OPTION (R189). -/
def execSetOption (tag number : U8) (value : U16) (s : State) : Host.Outcome State Fault Refusal :=
  request (.setOption tag number value) (fun s => s.setOption tag number value) s

/-- The fields of READ OPTIONS (R189). -/
def optionFields (o : Options) : List U8 := u8 o.retention ++ u8 o.lead ++ u8 o.boundary ++ flagByte o.autoResume

/-- READ OPTIONS (R189). -/
def execReadOptions (tag : U8) (s : State) : Host.Outcome State Fault Refusal :=
  query (.readOptions tag) (fun s => s.answer 0x06 tag .ok (optionFields s.req.options)) s

/-! ### Notices (R192) -/

/-- READ NOTICES' effect: the events are reported and cleared, and the flag is armed (R192). -/
def State.readNotices (s : State) (tag : U8) : State :=
  State.answer { s with req := { s.req with latched := 0, armed := true } } 0x08 tag .ok
    (u32 s.req.latched.toNat ++ u32 s.levels.toNat ++ u32 s.req.mask.toNat)

/-- READ NOTICES (R192). -/
def execReadNotices (tag : U8) (s : State) : Host.Outcome State Fault Refusal :=
  request (.readNotices tag) (fun s => s.readNotices tag) s

/-- SET NOTICE MASK's effect: a non-zero mask arms the flag (R192). That this is the mask as stored is the model's choice (log
39). -/
def State.setMask (s : State) (tag : U8) (mask : U32) : State :=
  let m := mask &&& maskBits
  State.answer { s with req := { s.req with mask := m, armed := s.req.armed || m != 0 } } 0x09 tag .ok (u32 m.toNat)

/-- SET NOTICE MASK (R192). -/
def execSetNoticeMask (tag : U8) (mask : U32) (s : State) : Host.Outcome State Fault Refusal :=
  request (.setNoticeMask tag mask) (fun s => s.setMask tag mask) s

/-! ### The WAIT (R193) -/

/-- WAIT's checks; when taken it holds the slot, and the end of the change tests it at once (R193). R193 gives its two refusals no
order: a WAIT out of range is refused OUT_OF_RANGE also while another is suspended, which is the model's choice (log 43). -/
def State.takeWait (s : State) (tag : U8) (mask : U32) (seconds : U16) : State :=
  if 3600 < seconds.toNat ∨ (mask = 0 ∧ seconds = 0) then s.refuse 0x0A tag .outOfRange
  else if s.req.wait.isSome then s.refuse 0x0A tag .busy
  else
    let w : WaitSlot := ⟨tag, mask, if seconds = 0 then none else some (seconds.toNat * Config.secondTicks)⟩
    { s with req := { s.req with wait := some w } }

/-- WAIT (R193). -/
def execWait (tag : U8) (mask : U32) (seconds : U16) (s : State) : Host.Outcome State Fault Refusal :=
  request (.wait tag mask seconds) (fun s => s.takeWait tag mask seconds) s

/-- WAIT MET: a WAIT whose condition is met ends; the end of every change tests it too (R193; log 7). -/
def execWaitMet (s : State) : Host.Outcome State Fault Refusal := event (fun s => s.waitMet?.isSome) id s

/-- The WAIT whose timeout has run out (R193). -/
def RequestUnit.expiredWait? (r : RequestUnit) : Option WaitSlot := r.wait.filter fun w => w.ticks == some 0

/-- The timeout's expiry: EXPIRED, nothing cleared, the slot freed (R193). -/
def State.expireWait (s : State) : State :=
  match s.req.expiredWait? with
  | some w => State.refuse { s with req := { s.req with wait := none } } 0x0A w.tag .expired
  | none => s

/-- WAIT TIMEOUT (R193). -/
def execWaitTimeout (s : State) : Host.Outcome State Fault Refusal :=
  event (fun s => s.req.expiredWait?.isSome) State.expireWait s

end Sys2Proof.Machine
end

