-- ==== Sys2Proof/Machine/Orders.lean ====
section
/-! DEFINITION. The order table's commands (08). -/

namespace Sys2Proof.Machine

/-! ### PLACE ORDER (R132, R133) -/

/-- PLACE ORDER's fields are in range (R132, check 3). -/
def orderInRange (f : OrderFields) : Bool :=
  pageKeyInRange f.key &&
  decide (f.useClass.toNat ≤ 4 ∧ f.sizeClass.toNat ≤ 3 ∧ 1 ≤ f.copies.toNat ∧ f.copies.toNat ≤ 50) &&
  (f.sizeClass != 3 || f.photo != 0)

/-- The order numbers are exhausted (R131). -/
def OrderTable.exhausted (t : OrderTable) : Bool := decide (4294967295 < t.next)

/-- The new order record (R129, R133). -/
def newOrder (f : OrderFields) (n : Nat) : Order :=
  { number := n, account := f.account.toNat, key := f.key.edition, page := f.key.page.toNat
    version := f.key.version.toNat, resolved := none, photo := if f.sizeClass = 3 then some f.photo else none
    volume := f.volume, useClass := f.useClass.toNat, sizeClass := f.sizeClass.toNat, copies := f.copies.toNat
    restore := flagSet f.restore, bearer := false, state := .accepted, outcome := .pending, pinEdition := none
    pinPhoto := none, recallSlot := none, job := none, masked := 0, charged := 0, maskSet := none, prepared := none
    attempts := 0, lastPrep := none, readOf := none, landed := false, prepTag := none, readyTicks := 0 }

/-- An order is accepted: its record is made, its number used, its account counts it (R131, R133, R158). -/
def State.acceptOrder (s : State) (o : Order) : State :=
  State.withAccount { s with ord := { s.ord with live := s.ord.live ++ [o], next := o.number + 1 } } o.account fun a =>
    { a with live := a.live + 1 }

/-- The reply's outcome and state for an order after its acceptance change (R133). -/
def State.placedOrder (s : State) (n : Nat) : Code × OrdState :=
  match s.order? n with
  | some o => (.ok, o.state)
  | none => ((s.ord.finished.find? fun o => o.number == n).map fun o => (o.outcome, o.state)).getD (.ok, .ended)

/-- PLACE ORDER's effect: the order goes on as far as it can in the change, then the reply is formed (R133). -/
def State.placeOrder (s : State) (tag : U8) (f : OrderFields) : State :=
  let o := newOrder f s.ord.next
  let t := ((s.acceptOrder o).locate o).settled
  t.answer 0x78 tag (t.placedOrder o.number).1 (u32 o.number ++ u8 (t.placedOrder o.number).2.toNat)

/-- PLACE ORDER's checks (R132). -/
def State.tryOrder (s : State) (tag : U8) (f : OrderFields) : State :=
  if !s.inService then s.refuse 0x78 tag .notInService
  else if s.cal.state == .invalid then s.refuse 0x78 tag .calendarUnset
  else if !orderInRange f then s.refuse 0x78 tag .outOfRange
  else if (s.fee.account? f.account.toNat).isNone then s.refuse 0x78 tag .notFound
  else if Config.orders ≤ s.ord.live.length then s.refuse 0x78 tag .tableFull
  else if s.ord.exhausted then s.refuse 0x78 tag .orderNumbersExhausted
  else s.placeOrder tag f

/-- PLACE ORDER (R132). -/
def execPlaceOrder (tag : U8) (f : OrderFields) (s : State) : Host.Outcome State Fault Refusal :=
  request (.placeOrder tag f) (fun s => s.tryOrder tag f) s

/-! ### CANCEL ORDER (R105, R139, R162) -/

/-- The order has been charged (R130). -/
def OrdState.isCharged (st : OrdState) : Bool :=
  st == .charged || st == .preparing || st == .ready || st == .delivering

/-- A cancelled order leaves its job: a joiner leaves the list; a creator removes a QUEUED job without joiners, and is
cleared from any other (R105). That the finished entry of a job removed so still names its creator is the model's choice (log
35). -/
def State.leaveJob (s : State) (o : Order) : State :=
  match o.job.bind s.job? with
  | none => s
  | some j =>
    if j.creator != some o.number then
      s.withJob j.number fun j => { j with joiners := j.joiners.filter fun n => n != o.number }
    else if j.state == .queued && j.joiners.isEmpty then (s.retireJob j .failed .aborted).releaseJob j
    else s.withJob j.number fun j => { j with creator := none }

/-- The order is the head of its account's held-funds queue. -/
def State.isQueueHead (s : State) (o : Order) : Bool :=
  ((s.fee.account? o.account).bind fun a => a.queue.head?) == some o.number

/-- CANCEL ORDER's effect; the removal of a queue's head retries the queue (R139, R162). -/
def State.cancel (s : State) (o : Order) : State :=
  let t := (s.leaveJob o).leaveTable o.number .cancelled .aborted
  if s.isQueueHead o then (t.retryAccount o.account).1 else t

/-- CANCEL ORDER's checks (R139). -/
def State.cancelOrder (s : State) (tag : U8) (n : U32) : State :=
  if n = 0 then s.refuse 0x79 tag .outOfRange
  else
    match s.order? n.toNat with
    | none => s.refuse 0x79 tag .notFound
    | some o =>
      if o.state.isCharged then s.refuse 0x79 tag .alreadyCharged
      else (s.cancel o).answer 0x79 tag .ok (u8 o.state.toNat)

/-- CANCEL ORDER (R139). -/
def execCancelOrder (tag : U8) (n : U32) (s : State) : Host.Outcome State Fault Refusal :=
  request (.cancelOrder tag n) (fun s => s.cancelOrder tag n) s

/-! ### RETIRE ORDER (R140) -/

/-- RETIRE ORDER's checks and effect (R140). -/
def State.retireOrder (s : State) (tag : U8) (n : U32) : State :=
  if n = 0 then s.refuse 0x7A tag .outOfRange
  else
    match s.order? n.toNat with
    | none => s.refuse 0x7A tag .notFound
    | some o =>
      if o.state != .charged then s.refuse 0x7A tag .badState
      else (s.leaveTable o.number .retired .ok).answer 0x7A tag .ok (u32 o.charged)

/-- RETIRE ORDER (R140). -/
def execRetireOrder (tag : U8) (n : U32) (s : State) : Host.Outcome State Fault Refusal :=
  request (.retireOrder tag n) (fun s => s.retireOrder tag n) s

/-! ### PREPARE DELIVERY and its end (R126, R141, R142) -/

/-- What the hold checks refuse an order with, at preparation and at the bind (R126, R127). -/
def State.deliveryHold? (s : State) (o : Order) (v : View) : Option Code :=
  if s.orderMatches o then some .held else if s.ownLapsed o v then some .rightsExpired else none

/-- The order is prepared or being prepared (R130). -/
def OrdState.isPrepared (st : OrdState) : Bool := st == .preparing || st == .ready || st == .delivering

/-- Orders that are PREPARING, READY or DELIVERING (R130). -/
def OrderTable.preparedCount (t : OrderTable) : Nat := t.live.countP fun o => o.state.isPrepared

/-- PREPARE DELIVERY's effect: attempts, mask set, state, claim; the reply is suspended (R141). -/
def State.prepare (s : State) (tag : U8) (o : Order) (v : View) : State :=
  let mask := if o.photo.isSome then some [] else some (s.maskOf v)
  (s.withOrder o.number fun o =>
    { o with attempts := min 255 (o.attempts + 1), maskSet := mask, state := .preparing, prepTag := some tag
             landed := false, readOf := none }).placeClaim ⟨.order o.number, gridSegments v.grid⟩

/-- PREPARE DELIVERY's checks on a live order (R141, checks 3 to 5). -/
def State.prepareOrder (s : State) (tag : U8) (o : Order) (v : View) : State :=
  if o.state != .charged then s.refuse 0x7C tag .badState
  else
    match s.deliveryHold? o v with
    | some c => s.refuse 0x7C tag c
    | none =>
      if Config.preparedOrders ≤ s.ord.preparedCount then s.refuse 0x7C tag .busy else s.prepare tag o v

/-- PREPARE DELIVERY's checks (R141). -/
def State.prepareDelivery (s : State) (tag : U8) (n : U32) : State :=
  if !s.inService then s.refuse 0x7C tag .notInService
  else if n = 0 then s.refuse 0x7C tag .outOfRange
  else
    match s.order? n.toNat with
    | none => s.refuse 0x7C tag .notFound
    | some o =>
      match s.orderView o with
      | none => s.refuse 0x7C tag .badState
      | some v => s.prepareOrder tag o v

/-- PREPARE DELIVERY (R141). -/
def execPrepareDelivery (tag : U8) (n : U32) (s : State) : Host.Outcome State Fault Refusal :=
  request (.prepareDelivery tag n) (fun s => s.prepareDelivery tag n) s

/-- The PREPARING order whose body has landed (R142). -/
def State.landed? (s : State) (n : Nat) : Option Order :=
  (s.order? n).filter fun o => o.state == .preparing && o.landed

/-- The end of a preparation's finishing work, where there is one (R142). -/
def State.endPreparation (s : State) (n : Nat) : State :=
  match s.landed? n with
  | some o => s.finishPreparation o
  | none => s

/-- PREPARATION END: the preparation's own completion (R142). -/
def execPreparationEnd (n : U32) (s : State) : Host.Outcome State Fault Refusal :=
  event (fun s => (s.landed? n.toNat).isSome) (fun s => s.endPreparation n.toNat) s

/-! ### Ready expiry and BIND DELIVERY (R143, R144) -/

/-- The order is READY and its expiry has run out (R143). -/
def State.readyExpired (s : State) (n : Nat) : Bool :=
  (s.order? n).any fun o => o.state == .ready && o.readyTicks == 0

/-- A ready expiry (R143). -/
def State.expireReady (s : State) (n : Nat) : State := (s.unprepare n).latch .readyExpired

/-- READY EXPIRY (R143). -/
def execReadyExpiry (n : U32) (s : State) : Host.Outcome State Fault Refusal :=
  event (fun s => s.readyExpired n.toNat) (fun s => s.expireReady n.toNat) s

/-- BIND DELIVERY's effect: the expiry stops, the lane is bound outbound, the order is DELIVERING (R144). -/
def State.bindOrder (s : State) (tag : U8) (o : Order) (length : Nat) (check : U32) : State :=
  ((s.withOrder o.number fun o => { o with state := .delivering, readyTicks := 0 }).bindLane (.order o.number) true
    length).answer 0x7D tag .ok (u32 o.number ++ u32 length ++ u32 check.toNat)

/-- BIND DELIVERY's checks on a live order (R144, checks 3 to 5). -/
def State.bindReady (s : State) (tag : U8) (o : Order) : State :=
  match o.state == .ready, o.prepared, s.orderView o with
  | true, some (length, check), some v =>
    match s.deliveryHold? o v with
    | some c => s.refuse 0x7D tag c
    | none => if s.lane.slot.isSome then s.refuse 0x7D tag .laneBusy else s.bindOrder tag o length check
  | _, _, _ => s.refuse 0x7D tag .badState

/-- BIND DELIVERY's checks (R144). -/
def State.bindDelivery (s : State) (tag : U8) (n : U32) : State :=
  if !(s.inService || s.req.mode == .setupPending) then s.refuse 0x7D tag .notInService
  else if n = 0 then s.refuse 0x7D tag .outOfRange
  else
    match s.order? n.toNat with
    | none => s.refuse 0x7D tag .notFound
    | some o => s.bindReady tag o

/-- BIND DELIVERY (R144). -/
def execBindDelivery (tag : U8) (n : U32) (s : State) : Host.Outcome State Fault Refusal :=
  request (.bindDelivery tag n) (fun s => s.bindDelivery tag n) s

/-! ### QUERY ORDER (R147) -/

/-- The fields of QUERY ORDER with order number 0 (R147). -/
def OrderTable.listFields (t : OrderTable) : List U8 :=
  u32 (if t.exhausted then 0 else t.next) ++ u8 t.live.length ++ u8 t.preparedCount ++
  t.live.flatMap fun o => u32 o.number ++ u8 o.state.toNat

/-- The fields of one order (R147). -/
def State.orderFields (s : State) (o : Order) : List U8 :=
  let mask := o.maskSet.getD []
  u8 o.state.toNat ++ u8 o.outcome.toNat ++ u16 o.account ++ u8 o.useClass ++ u8 o.sizeClass ++ u8 o.copies ++
  flagByte o.restore ++ flagByte o.bearer ++ keyField o.key ++ u8 o.page ++ u8 o.version ++
  u8 (o.resolved.getD 0) ++ u32Opt o.photo ++ u32 o.volume.toNat ++ u8Or 255 o.recallSlot ++ u16 (o.job.getD 0) ++
  u8 o.masked ++ u32 o.charged ++ u8 mask.length ++ mask.flatMap u8 ++
  u8 (s.pool.heldBy (.order o.number)) ++ u8 o.attempts ++ u32 o.readyTicks ++
  u8Or 255 (o.lastPrep.map Code.toNat) ++ u32 ((o.prepared.map Prod.fst).getD 0) ++
  u32Opt (o.prepared.map Prod.snd)

/-- QUERY ORDER's search and reply: the live orders, then the finished list (R147). -/
def State.queryOrder (s : State) (tag : U8) (n : U32) : State :=
  if n = 0 then s.answer 0x7B tag .ok s.ord.listFields
  else
    match (s.order? n.toNat).orElse fun _ => s.ord.finished.find? fun o => o.number == n.toNat with
    | some o => s.answer 0x7B tag .ok (s.orderFields o)
    | none => s.refuse 0x7B tag .notFound

/-- QUERY ORDER (R147). -/
def execQueryOrder (tag : U8) (n : U32) (s : State) : Host.Outcome State Fault Refusal :=
  query (.queryOrder tag n) (fun s => s.queryOrder tag n) s

end Sys2Proof.Machine
end

