-- ==== Sys2Proof/Machine/Store.lean ====
section
/-! DEFINITION. The staging pool's and the store link's own commands: answers, timeouts, probes, and their queries (04). -/

namespace Sys2Proof.Machine

/-! ### The staging pool (R66, R69) -/

/-- CLAIM GRANT: the head claim fits and is granted; every release does so too (R66; log 7). -/
def execClaimGrant (s : State) : Host.Outcome State Fault Refusal :=
  event (fun s => s.pool.claims.head?.any s.pool.fits) (fun s => s.push .regrant) s

/-- Segments held by a class of holders (R69). -/
def Pool.heldClass (p : Pool) (isIn : Holder → Bool) : Nat := p.segments.countP fun x => x.any isIn

/-- An intake holder (R62). -/
def Holder.isIntake : Holder → Bool
  | .record _ => true
  | .job _ | .order _ => false

/-- A restoration holder (R62). -/
def Holder.isJob : Holder → Bool
  | .job _ => true
  | .record _ | .order _ => false

/-- A delivery holder (R62). -/
def Holder.isOrder : Holder → Bool
  | .order _ => true
  | .record _ | .job _ => false

/-- A claim in a reply: class, need, and the order number of a delivery claim (R69). -/
def claimField (c : Claim) : List U8 :=
  match c.owner with
  | .order n => u8 2 ++ u8 c.need ++ u32 n
  | .job _ | .record _ => u8 1 ++ u8 c.need ++ u32 0

/-- The fields of QUERY STAGING (R69). -/
def State.stagingFields (s : State) : List U8 :=
  u8 s.pool.free ++ u8 (s.pool.heldClass Holder.isIntake) ++ u8 (s.pool.heldClass Holder.isJob) ++
  u8 (s.pool.heldClass Holder.isOrder) ++ u8 Config.intakeReserve ++ flagByte s.stagingIsLow ++
  u8 s.pool.claims.length ++ s.pool.claims.flatMap claimField

/-- QUERY STAGING (R69). -/
def execQueryStaging (tag : U8) (s : State) : Host.Outcome State Fault Refusal :=
  query (.queryStaging tag) (fun s => s.answer 0x50 tag .ok s.stagingFields) s

/-! ### Store answers (R74) -/

/-- The operation that an answer is for: its slot is occupied, with the answer's issue number, by an operation of the row's
kind; any other answer is late or for no such operation, and is discarded (R74; log 9). -/
def StoreLink.answered? (l : StoreLink) (at_ : SlotTag) (fits : Op → Bool) : Option Op :=
  (l.slots[at_.slot.toNat]?).bind fun sl =>
    (sl.occupant.map Running.op).filter fun op => sl.issue == at_.issue.toNat && fits op

/-- The outcome of a NOT_FOUND answer for an operation (R74). -/
def Op.notFound : Op → Completion
  | .readForJob _ v _ => .failed (if v = 0 then .storeFault else .notInVolume)
  | .readForOrder _ v _ => .failed (if v = 0 then .storeFault else .notInVolume)
  | .readEntry _ _ _ | .amend _ _ _ _ _ _ => .failed .notInVolume
  | .freeBody _ _ => .ok .nothing
  | .writeIntake _ _ _ | .writeRestoration _ _ _ | .sealVolume _ _ | .closeMark _ _ => .failed .storeFault
  | .indexRead | .probe => .failed .storeFault

/-- The completion that an answer maps to, and whether it raises the failure counter (R74). -/
def Op.completion {α : Type} (op : Op) (returns : α → Returns) : Answer α → Completion × Bool
  | .done a => (.ok (returns a), false)
  | .notFound => (op.notFound, false)
  | .full => (.failed .storeFault, false)
  | .mediaError => (.failed .storeFault, true)

/-- A store answer is taken: its operation completes (R73, R74, R76, R77). -/
def State.takeAnswer {α : Type} (s : State) (at_ : SlotTag) (fits : Op → Bool) (returns : α → Returns)
    (ans : Answer α) : State :=
  match s.link.answered? at_ fits with
  | none => s
  | some op => s.completeSlot at_.slot.toNat op (op.completion returns ans).1 (op.completion returns ans).2

/-- A store answer as a command. -/
def storeAnswer {α : Type} (at_ : SlotTag) (fits : Op → Bool) (returns : α → Returns) (ans : Answer α) (s : State) :
    Host.Outcome State Fault Refusal :=
  event (fun s => (s.link.answered? at_ fits).isSome) (fun s => s.takeAnswer at_ fits returns ans) s

/-- WRITE BODY for intake. -/
def Op.isIntakeWrite : Op → Bool
  | .writeIntake _ _ _ => true
  | _ => false

/-- CLOSE MARK. -/
def Op.isCloseMark : Op → Bool
  | .closeMark _ _ => true
  | _ => false

/-- SEAL VOLUME. -/
def Op.isSeal : Op → Bool
  | .sealVolume _ _ => true
  | _ => false

/-- READ VOLUME ENTRY. -/
def Op.isFetch : Op → Bool
  | .readEntry _ _ _ => true
  | _ => false

/-- READ BODY of a survey. -/
def Op.isSurvey : Op → Bool
  | .readForJob _ _ _ => true
  | _ => false

/-- READ BODY of a preparation. -/
def Op.isDelivery : Op → Bool
  | .readForOrder _ _ _ => true
  | _ => false

/-- The write-back of a restoration: WRITE BODY or AMEND VOLUME ENTRY (R111). -/
def Op.isWriteBack : Op → Bool
  | .writeRestoration _ _ _ => true
  | .amend _ _ _ _ _ _ => true
  | _ => false

/-- INTAKE WRITE COMPLETION (R52 to R54). -/
def execIntakeWriteCompletion (at_ : SlotTag) (ans : Answer Written) (s : State) :
    Host.Outcome State Fault Refusal :=
  storeAnswer at_ Op.isIntakeWrite .written ans s

/-- CLOSE MARK COMPLETION (R58, R87). -/
def execCloseMarkCompletion (at_ : SlotTag) (ans : Answer Unit) (s : State) : Host.Outcome State Fault Refusal :=
  storeAnswer at_ Op.isCloseMark (fun _ => .nothing) ans s

/-- FREE BODY COMPLETION (R72, R113). -/
def execFreeBodyCompletion (at_ : SlotTag) (ans : Answer Unit) (s : State) : Host.Outcome State Fault Refusal :=
  storeAnswer at_ Op.isDiscard (fun _ => .nothing) ans s

/-- SEAL VOLUME COMPLETION (R89, R90). -/
def execSealVolumeCompletion (at_ : SlotTag) (ans : Answer U32) (s : State) : Host.Outcome State Fault Refusal :=
  storeAnswer at_ Op.isSeal .volume ans s

/-- READ VOLUME ENTRY COMPLETION (R94 to R96). -/
def execReadVolumeEntryCompletion (at_ : SlotTag) (ans : Answer EntryCopy) (s : State) :
    Host.Outcome State Fault Refusal :=
  storeAnswer at_ Op.isFetch .entry ans s

/-- SURVEY READ COMPLETION (R108). -/
def execSurveyReadCompletion (at_ : SlotTag) (ans : Answer (List U8)) (s : State) :
    Host.Outcome State Fault Refusal :=
  storeAnswer at_ Op.isSurvey .body ans s

/-- RESTORATION WRITE COMPLETION (R112, R114). -/
def execRestorationWriteCompletion (at_ : SlotTag) (ans : Answer Written) (s : State) :
    Host.Outcome State Fault Refusal :=
  storeAnswer at_ Op.isWriteBack .written ans s

/-- DELIVERY READ COMPLETION (R142). -/
def execDeliveryReadCompletion (at_ : SlotTag) (ans : Answer (List U8)) (s : State) :
    Host.Outcome State Fault Refusal :=
  storeAnswer at_ Op.isDelivery .body ans s

/-- INDEX READ COMPLETION (R23, R24). -/
def execIndexReadCompletion (at_ : SlotTag) (ans : Answer StoreIndex) (s : State) :
    Host.Outcome State Fault Refusal :=
  storeAnswer at_ (fun op => op == .indexRead) .index ans s

/-- LATE STORE ANSWER: discarded without any effect (R74). -/
def execLateStoreAnswer (_ : SlotTag) (_ : Answer Unit) (s : State) : Host.Outcome State Fault Refusal := .next s

/-! ### The operation timeout (R75) -/

/-- The operation in a slot whose timeout has run out; a PROBE has none (R75, R78). -/
def StoreLink.timedOut? (l : StoreLink) (i : Nat) : Option Op :=
  ((l.running? i).filter fun r => r.op.isOwned && r.ticks == 0).map Running.op

/-- The operation completes STORE_TIMEOUT and the failure counter rises (R75). -/
def State.timeOut (s : State) (i : Nat) : State :=
  match s.link.timedOut? i with
  | some op => s.completeSlot i op (.failed .storeTimeout) true
  | none => s

/-- STORE OPERATION TIMEOUT (R75). -/
def execStoreOperationTimeout (slot : BitVec 3) (s : State) : Host.Outcome State Fault Refusal :=
  event (fun s => (s.link.timedOut? slot.toNat).isSome) (fun s => s.timeOut slot.toNat) s

/-! ### Probes (R78 to R80) -/

/-- The probe interval has run out (R78). -/
def StoreLink.probeDue (l : StoreLink) : Bool := l.state == .offline && l.probeTicks == some 0

/-- An unanswered probe is failed, a new one goes out in slot 0, and the next interval starts (R78). -/
def StoreLink.probe (l : StoreLink) : StoreLink :=
  let l1 := if (l.running? 0).isSome then { l with goodProbes := 0 } else l
  StoreLink.occupy { l1 with probeTicks := some Config.probeTicks } 0 .probe

/-- PROBE INTERVAL EXPIRY (R78). -/
def execProbeIntervalExpiry (s : State) : Host.Outcome State Fault Refusal :=
  event (fun s => s.link.probeDue) (fun s => { s with link := s.link.probe }) s

/-- The link is ONLINE again (R79, R80). -/
def StoreLink.online (l : StoreLink) : StoreLink := { l with state := .online, failures := 0, goodProbes := 0 }

/-- The good-probe count has reached 16: RECOVERED, and with auto-resume ONLINE in the same change (R79). -/
def State.recover (s : State) : State :=
  let l : StoreLink := { s.link with state := .recovered, probeTicks := none }
  State.latch { s with link := if s.req.options.autoResume then l.online else l } .storeRecovered

/-- A probe is judged by its answer (R78). -/
def State.judgeProbe (s : State) (ans : Answer Unit) : State :=
  let l := s.link.vacate 0
  match ans with
  | .done _ =>
    let s1 : State := { s with link := { l with goodProbes := l.goodProbes + 1 } }
    if Config.goodProbeLimit ≤ l.goodProbes + 1 then s1.recover else s1
  | .notFound | .full | .mediaError => { s with link := { l with goodProbes := 0 } }

/-- PROBE ANSWER (R78, R79). -/
def execProbeAnswer (at_ : SlotTag) (ans : Answer Unit) (s : State) : Host.Outcome State Fault Refusal :=
  event (fun s => (s.link.answered? at_ fun op => op == .probe).isSome) (fun s => s.judgeProbe ans) s

/-- RESUME STORE (R80). -/
def execResumeStore (tag : U8) (s : State) : Host.Outcome State Fault Refusal :=
  request (.resumeStore tag)
    (fun s => match s.link.state with
      | .recovered => State.answer { s with link := s.link.online } 0x52 tag .ok []
      | .online | .offline => s.refuse 0x52 tag .badState) s

/-! ### The store query (R81) -/

/-- A slot in the store query: operation code and ticks left; a PROBE shows those of the interval (R81). -/
def StoreLink.slotField (l : StoreLink) (sl : OpSlot) : List U8 :=
  match sl.occupant with
  | none => u8 0 ++ u16 0
  | some r => u8 r.op.code ++ u16 (if r.op.isOwned then r.ticks else l.probeTicks.getD 0)

/-- The fields of QUERY STORE (R81). -/
def StoreLink.fields (l : StoreLink) : List U8 :=
  u8 l.state.toNat ++ u8 l.failures ++ u8 l.goodProbes ++ u8 (l.slots.countP fun sl => sl.occupant.isSome) ++
  u8 (l.waiting.countP Op.isFiling) ++ u8 (l.waiting.countP fun op => !op.isFiling) ++
  u8 l.discards ++ u16 l.dropped ++ l.slots.flatMap l.slotField

/-- QUERY STORE (R81). -/
def execQueryStore (tag : U8) (s : State) : Host.Outcome State Fault Refusal :=
  query (.queryStore tag) (fun s => s.answer 0x51 tag .ok s.link.fields) s

end Sys2Proof.Machine
end

