-- ==== Sys2Proof/Machine/Clock.lean ====
section
/-! DEFINITION. BASE_TICK: the calendar's counters, the events they raise, and every timeout (02, R26, R27, R33). -/

namespace Sys2Proof.Machine

/-! ### The counters (R27) -/

/-- The counters after one fraction of a RUNNING calendar, all carries in the same change (R27). -/
def Calendar.count (c : Calendar) : Calendar :=
  if c.fraction < 255 then { c with fraction := c.fraction + 1 }
  else if c.second < 59 then { c with fraction := 0, second := c.second + 1 }
  else if c.minute < 59 then { c with fraction := 0, second := 0, minute := c.minute + 1 }
  else if c.hour < 23 then { c with fraction := 0, second := 0, minute := 0, hour := c.hour + 1 }
  else { c with fraction := 0, second := 0, minute := 0, hour := 0, day := min 65535 (c.day + 1) }

/-- A base tick in the calendar: only a RUNNING one counts (R27). -/
def Calendar.tick (c : Calendar) : Calendar := if c.state == .running then c.count else c

/-- The events that a transition of the counters raises (R33). -/
def raisedEvents (old new : Calendar) (boundary : Nat) : DueEvents :=
  { minute := if old.minute ≠ new.minute then some new.now else none
    rollover := if old.hour = 23 ∧ new.hour = 0 then some new.day else none
    boundary := if old.hour ≠ new.hour ∧ new.hour = boundary then some new.day else none }

/-! ### The timeouts (R26) -/

/-- A tick in the operation slots. -/
def OpSlot.tick (sl : OpSlot) : OpSlot := { sl with occupant := sl.occupant.map fun r => { r with ticks := r.ticks - 1 } }

/-- A tick in the store link: operation timeouts and the probe interval. -/
def StoreLink.tick (l : StoreLink) : StoreLink :=
  { l with slots := l.slots.map OpSlot.tick, probeTicks := l.probeTicks.map (· - 1) }

/-- A tick in the bind expiry. -/
def Binding.tick (b : Binding) : Binding :=
  match b.state with
  | .bound n => { b with state := .bound (n - 1) }
  | .active => b

/-- A tick in an order's ready expiry. -/
def Order.tick (o : Order) : Order := if o.state == .ready then { o with readyTicks := o.readyTicks - 1 } else o

/-- A tick in the WAIT's timeout. -/
def WaitSlot.tick (w : WaitSlot) : WaitSlot := { w with ticks := w.ticks.map (· - 1) }

/-- One base tick: the calendar counts and raises its events, and every timeout that runs loses a tick (R26, R27, R33). -/
def State.tick (s : State) : State :=
  { s with
    cal := s.cal.tick
    events := raisedEvents s.cal s.cal.tick s.req.options.boundary
    link := s.link.tick
    lane := { s.lane with slot := s.lane.slot.map Binding.tick }
    ord := { s.ord with live := s.ord.live.map Order.tick }
    req := { s.req with wait := s.req.wait.map WaitSlot.tick } }

/-! ### What the last tick left due (log 8) -/

/-- The operation timeouts that are due, slot by slot. -/
def State.dueTimeouts (s : State) : State :=
  (List.range Config.storeSlots).foldl (fun t i =>
    State.due (fun u => (u.link.timedOut? i).isSome) (fun u => u.timeOut i) t) s

/-- The ready expiries that are due, in ascending order of order number. -/
def State.dueExpiries (s : State) : State :=
  (s.ord.live.map Order.number).foldl (fun t n =>
    State.due (fun u => u.readyExpired n) (fun u => u.expireReady n) t) s

/-- A staged record's write, and every expiry and calendar event that an earlier tick made due and no command took, are taken
now, in the table's order (log 8, 10). -/
def State.takeDue (s : State) : State :=
  let s1 := State.due (fun t => t.req.expiredWait?.isSome) State.expireWait s.handedOff
  let s2 := State.due (fun t => t.lane.expired?.isSome) State.expireBinding s1
  let s3 := State.due (fun t => (t.raised? DueEvents.minute).isSome) State.takeMinute s2
  let s4 := State.due (fun t => (t.raised? DueEvents.rollover).isSome) State.takeRollover s3
  let s5 := State.due (fun t => (t.raised? DueEvents.boundary).isSome) State.takeBoundary s4
  let s6 := State.due (fun t => t.link.probeDue) (fun t => { t with link := t.link.probe }) s5.dueTimeouts
  s6.dueExpiries

/-- BASE_TICK (R26, R27); without main power only the calendar counts (R25). -/
def execBaseTick (s : State) : Host.Outcome State Fault Refusal :=
  .next (if s.powered then s.takeDue.tick else { s with cal := s.cal.tick })

end Sys2Proof.Machine
end

