-- ==== Sys2Proof/Machine/Fees.lean ====
section
/-! DEFINITION. The fee unit's requests: the schedule and the accounts (09). -/

namespace Sys2Proof.Machine

/-! ### The schedule (R148 to R150) -/

/-- Every value of a schedule is in its range (R148, R149). -/
def scheduleInRange (f : ScheduleFields) : Bool :=
  (f.base.all fun x => decide (x.toNat ≤ 1000000)) && (f.age.all fun x => decide (x.toNat ≤ 999)) &&
  (f.tier.all fun x => decide (x.toNat ≤ 90)) && (f.royalty.all fun x => decide (x.toNat ≤ 100000)) &&
  decide (f.surcharge.toNat ≤ 500000) && decide (f.minimum.toNat ≤ 1000000) &&
  (f.caps.all fun x => decide (x.toNat ≤ 100000000))

/-- The schedule that the fields give (R149). -/
def givenSchedule (f : ScheduleFields) : Schedule :=
  { base := f.base.map BitVec.toNat, age := f.age.map BitVec.toNat, tier := f.tier.map BitVec.toNat
    royalty := f.royalty.map BitVec.toNat, surcharge := f.surcharge.toNat, minimum := f.minimum.toNat
    caps := f.caps.map BitVec.toNat }

/-- SET SCHEDULE's check and effect (R149). -/
def State.setSchedule (s : State) (tag : U8) (f : ScheduleFields) : State :=
  if scheduleInRange f then
    State.answer { s with fee := { s.fee with schedule := givenSchedule f } } 0x64 tag .ok []
  else s.refuse 0x64 tag .outOfRange

/-- SET SCHEDULE (R149). -/
def execSetSchedule (tag : U8) (f : ScheduleFields) (s : State) : Host.Outcome State Fault Refusal :=
  request (.setSchedule tag f) (fun s => s.setSchedule tag f) s

/-- The schedule in a reply, 156 bytes (R150). -/
def Schedule.fields (f : Schedule) : List U8 :=
  f.base.flatMap u32 ++ f.age.flatMap u16 ++ f.tier.flatMap u8 ++ f.royalty.flatMap u32 ++ u32 f.surcharge ++
  u32 f.minimum ++ f.caps.flatMap u32

/-- READ SCHEDULE (R150). -/
def execReadSchedule (tag : U8) (s : State) : Host.Outcome State Fault Refusal :=
  query (.readSchedule tag) (fun s => s.answer 0x65 tag .ok s.fee.schedule.fields) s

/-! ### Accounts (R158 to R163) -/

/-- A balance keeps an account's bounds (R158). -/
def balanceFits (balance : Int) (limit : Nat) : Bool :=
  decide (-(limit : Int) ≤ balance ∧ balance ≤ Config.balanceLimit)

/-- An account is created, or replaces the one with its number (R159). -/
def FeeUnit.load (f : FeeUnit) (a : Account) : FeeUnit :=
  if (f.account? a.number).isSome then
    { f with accounts := f.accounts.map fun x => if x.number == a.number then a else x }
  else { f with accounts := f.accounts ++ [a] }

/-- LOAD ACCOUNT's checks and effect (R159). -/
def State.loadAccount (s : State) (tag : U8) (account : U16) (tier : U8) (balance limit : U32) : State :=
  let old := s.fee.account? account.toNat
  if s.req.mode != .setup then s.refuse 0x66 tag .badState
  else if account = 0 ∨ 7 < tier.toNat ∨ 10000000 < limit.toNat then s.refuse 0x66 tag .outOfRange
  else if !balanceFits balance.toInt limit.toNat then s.refuse 0x66 tag .limitViolation
  else if old.any fun a => a.live != 0 then s.refuse 0x66 tag .busy
  else if old.isNone && decide (Config.accounts ≤ s.fee.accounts.length) then s.refuse 0x66 tag .tableFull
  else
    let a : Account := ⟨account.toNat, tier.toNat, balance.toInt, limit.toNat, 0, []⟩
    State.answer { s with fee := s.fee.load a } 0x66 tag .ok (flagByte old.isSome)

/-- LOAD ACCOUNT (R159). -/
def execLoadAccount (tag : U8) (account : U16) (tier : U8) (balance limit : U32) (s : State) :
    Host.Outcome State Fault Refusal :=
  request (.loadAccount tag account tier balance limit) (fun s => s.loadAccount tag account tier balance limit) s

/-- An account's balance, 0 when there is none. -/
def FeeUnit.balanceOf (f : FeeUnit) (account : Nat) : Int := ((f.account? account).map Account.balance).getD 0

/-- CREDIT ACCOUNT's checks and effect: the balance rises and the queue is retried (R160). -/
def State.creditAccount (s : State) (tag : U8) (account : U16) (amount : U32) : State :=
  if account = 0 ∨ amount = 0 ∨ 100000000 < amount.toNat then s.refuse 0x67 tag .outOfRange
  else
    match s.fee.account? account.toNat with
    | none => s.refuse 0x67 tag .notFound
    | some a =>
      if Config.balanceLimit < a.balance + amount.toNat then s.refuse 0x67 tag .limitViolation
      else
        let r := (s.withAccount a.number fun a => { a with balance := a.balance + amount.toNat }).retryAccount a.number
        r.1.answer 0x67 tag .ok
          (s32 (r.1.fee.balanceOf a.number) ++ u8 r.2 ++ u8 (r.1.fee.queueLength a.number))

/-- CREDIT ACCOUNT (R160). -/
def execCreditAccount (tag : U8) (account : U16) (amount : U32) (s : State) : Host.Outcome State Fault Refusal :=
  request (.creditAccount tag account amount) (fun s => s.creditAccount tag account amount) s

/-- The limit is replaced; a higher one retries the queue (R161). -/
def State.replaceLimit (s : State) (a : Account) (limit : Nat) : State × Nat :=
  let t := s.withAccount a.number fun a => { a with limit := limit }
  if a.limit < limit then t.retryAccount a.number else (t, 0)

/-- SET LIMIT's checks and effect (R161). -/
def State.setLimit (s : State) (tag : U8) (account : U16) (limit : U32) : State :=
  if account = 0 ∨ 10000000 < limit.toNat then s.refuse 0x68 tag .outOfRange
  else
    match s.fee.account? account.toNat with
    | none => s.refuse 0x68 tag .notFound
    | some a =>
      if a.balance < -(limit.toNat : Int) then s.refuse 0x68 tag .limitViolation
      else
        let r := s.replaceLimit a limit.toNat
        r.1.answer 0x68 tag .ok (u8 r.2 ++ u8 (r.1.fee.queueLength a.number))

/-- SET LIMIT (R161). -/
def execSetLimit (tag : U8) (account : U16) (limit : U32) (s : State) : Host.Outcome State Fault Refusal :=
  request (.setLimit tag account limit) (fun s => s.setLimit tag account limit) s

/-- An account in the list of QUERY ACCOUNT, 13 bytes (R163). -/
def Account.listField (a : Account) : List U8 :=
  u16 a.number ++ u8 a.tier ++ s32 a.balance ++ u32 a.limit ++ u8 a.live ++ u8 a.queue.length

/-- The fields of one account (R163). -/
def Account.fields (a : Account) : List U8 :=
  u8 a.tier ++ s32 a.balance ++ u32 a.limit ++ s32 (a.balance + a.limit) ++ u8 a.live ++ u8 a.queue.length ++
  a.queue.flatMap u32

/-- The fields of QUERY ACCOUNT with account number 0: the accounts in ascending order of number (R163). -/
def FeeUnit.listFields (f : FeeUnit) : List U8 :=
  u8 f.accounts.length ++
  (sortBy (fun a b : Account => decide (a.number ≤ b.number)) f.accounts).flatMap Account.listField

/-- QUERY ACCOUNT's reply (R163). -/
def State.queryAccount (s : State) (tag : U8) (account : U16) : State :=
  if account = 0 then s.answer 0x69 tag .ok s.fee.listFields
  else
    match s.fee.account? account.toNat with
    | none => s.refuse 0x69 tag .notFound
    | some a => s.answer 0x69 tag .ok a.fields

/-- QUERY ACCOUNT (R163). -/
def execQueryAccount (tag : U8) (account : U16) (s : State) : Host.Outcome State Fault Refusal :=
  query (.queryAccount tag account) (fun s => s.queryAccount tag account) s

end Sys2Proof.Machine
end

