-- ==== Sys2Proof/Machine/Filing.lean ====
section
/-! DEFINITION. The filing requests and the end of a close (03). -/

namespace Sys2Proof.Machine

/-! ### Opening and replanning (R42 to R44) -/

/-- The planned pages are in range (R42). -/
def planInRange (planned : U8) : Bool := decide (1 ≤ planned.toNat ∧ planned.toNat ≤ 128)

/-- A new edition entry (R4, R43). -/
def newEdition (key : EditionKey) (planned : U8) (d : Option Deadline) : Edition :=
  { key := key, state := .opened, planned := planned.toNat, deadline := d, warned := false, forced := false
    interrupted := false, due := false, pins := 0, closedOn := none, gaps := none, failedPages := 0 }

/-- An edition opens in a slot, and joins the deadline list when it has a deadline (R43). -/
def State.open (s : State) (slot : Nat) (key : EditionKey) (planned : U8) (d : Option Deadline) : State :=
  let s1 := s.withCat fun c => c.putEdition slot (some (newEdition key planned d))
  if d.isSome then s1.placeDeadline slot else s1

/-- OPEN EDITION's checks and effect (R42, R43, R48). -/
def State.openEdition (s : State) (tag : U8) (key : EditionKey) (planned : U8) (d : DeadlineFields) : State :=
  if !s.inService then s.refuse 0x21 tag .notInService
  else if s.cal.state == .invalid then s.refuse 0x21 tag .calendarUnset
  else if !planInRange planned || decide (15 < key.code.toNat) || !deadlineInRange d then
    s.refuse 0x21 tag .outOfRange
  else if (s.cat.slotOf key).isSome then s.refuse 0x21 tag .duplicate
  else
    match s.cat.editions.findIdx? Option.isNone with
    | none => s.pressureSeal.refuse 0x21 tag .tableFull
    | some slot =>
      let t := s.open slot key planned (givenDeadline d)
      t.answer 0x21 tag .ok (u8 slot ++ u8 (deadlinePosition t.deadlines slot))

/-- OPEN EDITION (R42). -/
def execOpenEdition (tag : U8) (key : EditionKey) (planned : U8) (d : DeadlineFields) (s : State) :
    Host.Outcome State Fault Refusal :=
  request (.openEdition tag key planned d) (fun s => s.openEdition tag key planned d) s

/-- The highest page number with a record of the edition, in any state (R44). -/
def Catalogue.highestPage (c : Catalogue) (slot : Nat) : Nat := ((c.pagesOf slot).map Page.number).foldl max 0

/-- REPLAN EDITION's checks and effect (R44). -/
def State.replan (s : State) (tag : U8) (key : EditionKey) (planned : U8) : State :=
  if !s.inService then s.refuse 0x22 tag .notInService
  else if decide (15 < key.code.toNat) || !planInRange planned then s.refuse 0x22 tag .outOfRange
  else
    match s.cat.slotOf key with
    | none => s.refuse 0x22 tag .notFound
    | some slot =>
      if (s.cat.edition? slot).any fun e => e.state != .opened then s.refuse 0x22 tag .badState
      else if planned.toNat < s.cat.highestPage slot then s.refuse 0x22 tag .outOfRange
      else
        (s.withCat fun c => c.withEdition slot fun e => { e with planned := planned.toNat }).answer 0x22 tag .ok
          (u8 planned.toNat)

/-- REPLAN EDITION (R44). -/
def execReplanEdition (tag : U8) (key : EditionKey) (planned : U8) (s : State) :
    Host.Outcome State Fault Refusal :=
  request (.replanEdition tag key planned) (fun s => s.replan tag key planned) s

/-! ### Filing a page (R9, R45, R46) -/

/-- A grid is in the range of a page or of a photograph (00, "Bodies and checks"). -/
def gridIn (cols rows : U8) (maxCols maxRows : Nat) : Bool :=
  decide (1 ≤ cols.toNat ∧ cols.toNat ≤ maxCols ∧ 1 ≤ rows.toNat ∧ rows.toNat ≤ maxRows)

/-- A rectangle lies inside a grid and is 1 to 4 by 1 to 4; its photo number is not 0 (R9, R45). -/
def placementFits (g : Grid) (p : Placement) : Bool :=
  decide (p.photo ≠ 0 ∧ 1 ≤ p.cols.toNat ∧ p.cols.toNat ≤ 4 ∧ 1 ≤ p.rows.toNat ∧ p.rows.toNat ≤ 4 ∧
    1 ≤ p.firstCol.toNat ∧ p.firstCol.toNat + p.cols.toNat ≤ g.cols + 1 ∧
    1 ≤ p.firstRow.toNat ∧ p.firstRow.toNat + p.rows.toNat ≤ g.rows + 1)

/-- Two rectangles share a tile (R9). -/
def overlap (p q : Placement) : Bool :=
  decide (p.firstCol.toNat < q.firstCol.toNat + q.cols.toNat ∧ q.firstCol.toNat < p.firstCol.toNat + p.cols.toNat ∧
    p.firstRow.toNat < q.firstRow.toNat + q.rows.toNat ∧ q.firstRow.toNat < p.firstRow.toNat + p.rows.toNat)

/-- No two placements share a tile or a photo number (R9). -/
def placementsApart : List Placement → Bool
  | [] => true
  | p :: ps => (ps.all fun q => !overlap p q && q.photo != p.photo) && placementsApart ps

/-- The layout check of FILE PAGE (R45, check 5). -/
def layoutFits (f : FilePageFields) : Bool :=
  gridIn f.cols f.rows 8 12 && decide (f.count.toNat ≤ 12) &&
  f.placements.length == f.count.toNat &&
  (f.placements.all fun p => placementFits ⟨f.cols.toNat, f.rows.toNat⟩ p) && placementsApart f.placements

/-- Every placed photograph is FILED (R45, check 6). -/
def Catalogue.allFiled (c : Catalogue) (ps : List Placement) : Bool :=
  ps.all fun pl => (c.photo? pl.photo).any fun p => p.state == .filed

/-- The next version of a page number: one more than the highest held by any record of it (R7, R45). -/
def Catalogue.nextVersion (c : Catalogue) (slot page : Nat) : Nat :=
  (((c.pagesOf slot).filter fun p => p.number == page).map Page.version).foldl max 0 + 1

/-- The new page record (R46). -/
def newPage (f : FilePageFields) (slot version : Nat) : Page :=
  { slot := slot, number := f.page.toNat, version := version, sectionCode := f.sectionCode.toNat, state := .receiving
    superseded := false, grid := ⟨f.cols.toNat, f.rows.toNat⟩, declared := f.declared, raw := none, current := none
    stored := none, level := 0, points := none, placements := f.placements, outcome := .pending }

/-- A page is accepted: record, references, segments and lane, in one change (R46). -/
def State.acceptPage (s : State) (p : Page) : State :=
  let r := Holder.record (.page p.slot p.number p.version)
  ((s.withCat fun c => Catalogue.raiseRefs { c with pages := c.pages ++ [p] } p.placements).give r
    (gridSegments p.grid)).bindLane r false (gridBytes p.grid)

/-- FILE PAGE's checks from the page number on, against an OPEN edition (R45, checks 4 to 10). -/
def State.filePageIn (s : State) (tag : U8) (f : FilePageFields) (slot planned : Nat) : State :=
  let v := s.cat.nextVersion slot f.page.toNat
  let p := newPage f slot v
  if f.page.toNat < 1 ∨ planned < f.page.toNat then s.refuse 0x23 tag .pageOutOfPlan
  else if !layoutFits f then s.refuse 0x23 tag .placementInvalid
  else if !s.cat.allFiled f.placements then s.refuse 0x23 tag .photoNotFiled
  else if 7 < v then s.refuse 0x23 tag .versionLimit
  else if Config.pageRecords ≤ s.cat.pages.length then s.pressureSeal.refuse 0x23 tag .tableFull
  else if s.lane.slot.isSome then s.refuse 0x23 tag .laneBusy
  else if s.pool.free < gridSegments p.grid then s.refuse 0x23 tag .stagingFull
  else (s.acceptPage p).answer 0x23 tag .ok (u8 v ++ u32 (gridBytes p.grid))

/-- FILE PAGE's checks and effect (R45, R46). -/
def State.filePage (s : State) (tag : U8) (f : FilePageFields) : State :=
  if !s.inService then s.refuse 0x23 tag .notInService
  else if 15 < f.key.code.toNat ∨ 25 < f.sectionCode.toNat then s.refuse 0x23 tag .outOfRange
  else
    match (s.cat.slotOf f.key).bind fun slot => (s.cat.edition? slot).map fun e => (slot, e) with
    | none => s.refuse 0x23 tag .notFound
    | some (slot, e) =>
      match e.state with
      | .closing | .closed => s.refuse 0x23 tag .editionClosed
      | .sealing => s.refuse 0x23 tag .badState
      | .opened => s.filePageIn tag f slot e.planned

/-- FILE PAGE (R45). -/
def execFilePage (tag : U8) (f : FilePageFields) (s : State) : Host.Outcome State Fault Refusal :=
  request (.filePage tag f) (fun s => s.filePage tag f) s

/-! ### Filing a photograph (R13, R47) -/

/-- FILE PHOTO's fields are in range (R47, check 2). -/
def photoInRange (f : FilePhotoFields) : Bool :=
  decide (f.photo ≠ 0 ∧ f.cls.toNat ≤ 3 ∧ f.group.toNat ≤ 7) && gridIn f.cols f.rows 4 4

/-- The new photo record (R13, R47). -/
def newPhoto (f : FilePhotoFields) : Photo :=
  { number := f.photo, state := .receiving
    rights := ⟨rightsOfCode f.cls.toNat, if flagSet f.untilFlag then some f.untilDay.toNat else none, f.group.toNat⟩
    grid := ⟨f.cols.toNat, f.rows.toNat⟩, declared := f.declared, raw := none, current := none, stored := none
    level := 0, points := none, refs := 0, pins := 0, filedOn := none, outcome := .pending }

/-- A photo record takes a FAILED one's place, or a free record (R13). -/
def Catalogue.putPhoto (c : Catalogue) (p : Photo) : Catalogue :=
  if (c.photo? p.number).isSome then c.withPhoto p.number fun _ => p else { c with photos := c.photos ++ [p] }

/-- A photograph is accepted: record, one segment and lane, in one change (R47). -/
def State.acceptPhoto (s : State) (p : Photo) : State :=
  let r := Holder.record (.photo p.number)
  ((s.withCat fun c => c.putPhoto p).give r 1).bindLane r false (gridBytes p.grid)

/-- FILE PHOTO's checks and effect (R47). -/
def State.filePhoto (s : State) (tag : U8) (f : FilePhotoFields) : State :=
  if !s.inService then s.refuse 0x24 tag .notInService
  else if !photoInRange f then s.refuse 0x24 tag .outOfRange
  else if (s.cat.photo? f.photo).any fun p => p.state != .failed then s.refuse 0x24 tag .duplicate
  else if (s.cat.photo? f.photo).isNone && decide (Config.photoRecords ≤ s.cat.photos.length) then
    s.refuse 0x24 tag .tableFull
  else if s.lane.slot.isSome then s.refuse 0x24 tag .laneBusy
  else if s.pool.free < 1 then s.refuse 0x24 tag .stagingFull
  else (s.acceptPhoto (newPhoto f)).answer 0x24 tag .ok (u32 (gridBytes (newPhoto f).grid))

/-- FILE PHOTO (R47). -/
def execFilePhoto (tag : U8) (f : FilePhotoFields) (s : State) : Host.Outcome State Fault Refusal :=
  request (.filePhoto tag f) (fun s => s.filePhoto tag f) s

/-! ### Closing (R55, R57) -/

/-- CLOSE EDITION's checks and effect; the close may end in the same change (R55, R57). -/
def State.closeEdition (s : State) (tag : U8) (key : EditionKey) : State :=
  if !s.inService then s.refuse 0x25 tag .notInService
  else if 15 < key.code.toNat then s.refuse 0x25 tag .outOfRange
  else
    match s.cat.slotOf key with
    | none => s.refuse 0x25 tag .notFound
    | some slot =>
      if (s.cat.edition? slot).any fun e => e.state != .opened then s.refuse 0x25 tag .badState
      else (s.beginClose slot false).answer 0x25 tag .ok (u16 (s.cat.inFlight slot))

/-- CLOSE EDITION (R55). -/
def execCloseEdition (tag : U8) (key : EditionKey) (s : State) : Host.Outcome State Fault Refusal :=
  request (.closeEdition tag key) (fun s => s.closeEdition tag key) s

/-- A CLOSING edition has no page in flight (R57). -/
def State.closeReady (s : State) (slot : Nat) : Bool :=
  ((s.cat.edition? slot).any fun e => e.state == .closing) && s.cat.inFlight slot == 0

/-- CLOSE END: the close of an edition with no page in flight ends; the changes that bring it about end it too (R57;
log 7). -/
def execCloseEnd (slot : BitVec 6) (s : State) : Host.Outcome State Fault Refusal :=
  event (fun s => s.closeReady slot.toNat) (fun s => s.closeTest slot.toNat) s

end Sys2Proof.Machine
end

