-- ==== Sys2Proof/Machine/Holds.lean ====
section
/-! DEFINITION. The hold list's requests (07, R118 to R122, R128). -/

namespace Sys2Proof.Machine

/-- The key that PLACE HOLD's fields give, by the scope; none out of range (R120, check 1). -/
def holdKey? (f : HoldFields) : Option HoldKey :=
  let edition : EditionKey := ⟨f.day, f.code⟩
  if 15 < f.reason.toNat then none
  else if f.scope = 1 then some (.day f.day.toNat)
  else if f.scope = 2 then if f.code.toNat ≤ 15 then some (.edition edition) else none
  else if f.scope = 3 then
    if f.code.toNat ≤ 15 ∧ 1 ≤ f.page.toNat ∧ f.page.toNat ≤ 128 then some (.page edition f.page.toNat) else none
  else if f.scope = 4 then if f.photo ≠ 0 then some (.photo f.photo) else none
  else none

/-- The until-day of PLACE HOLD (R120). -/
def holdUntil (f : HoldFields) : Option Nat := if flagSet f.untilFlag then some f.untilDay.toNat else none

/-- The until-day after a merge: the later of two, and absent when either is (R121). -/
def mergedUntil : Option Nat → Option Nat → Option Nat
  | some a, some b => some (max a b)
  | _, _ => none

/-- The lowest hold number that no entry holds (R118, R120). The first argument bounds the search: 65 are enough. -/
def lowestNumber (entries : List Hold) : Nat → Nat → Nat
  | 0, n => n
  | k + 1, n => if entries.any fun h => h.number == n then lowestNumber entries k (n + 1) else n

/-- An entry is put in its place in ascending order of number. -/
def insertHold (h : Hold) (l : List Hold) : List Hold := insertBy (fun a b => decide (a.number ≤ b.number)) h l

/-- PLACE HOLD's checks and effect (R120, R121). -/
def State.placeHold (s : State) (tag : U8) (f : HoldFields) : State :=
  match holdKey? f with
  | none => s.refuse 0x14 tag .outOfRange
  | some key =>
    match s.hold.entries.find? fun h => h.key == key with
    | some old =>
      State.answer { s with hold := { s.hold with entries := s.hold.entries.map fun h =>
        if h.key == key then { h with reason := f.reason.toNat, untilDay := mergedUntil h.untilDay (holdUntil f) }
        else h } } 0x14 tag .ok (u8 old.number ++ flagByte true)
    | none =>
      if Config.holds ≤ s.hold.entries.length then s.refuse 0x14 tag .tableFull
      else
        let n := lowestNumber s.hold.entries 65 1
        State.answer { s with hold := { s.hold with
          entries := insertHold ⟨n, key, f.reason.toNat, holdUntil f⟩ s.hold.entries } } 0x14 tag .ok
          (u8 n ++ flagByte false)

/-- PLACE HOLD (R120). -/
def execPlaceHold (tag : U8) (f : HoldFields) (s : State) : Host.Outcome State Fault Refusal :=
  request (.placeHold tag f) (fun s => s.placeHold tag f) s

/-- LIFT HOLD's checks and effect: the entry goes, and the rights-held list is re-evaluated (R122, R124). -/
def State.liftHold (s : State) (tag number : U8) : State :=
  if number = 0 then s.refuse 0x15 tag .outOfRange
  else if s.hold.entries.any fun h => h.number == number.toNat then
    let s1 := { s with hold := { s.hold with
      entries := s.hold.entries.filter fun h => h.number != number.toNat } }
    let r := State.reevaluate s1.hold.held s1
    r.1.answer 0x15 tag .ok (u8 r.2)
  else s.refuse 0x15 tag .notFound

/-- LIFT HOLD (R122). -/
def execLiftHold (tag number : U8) (s : State) : Host.Outcome State Fault Refusal :=
  request (.liftHold tag number) (fun s => s.liftHold tag number) s

/-- Scope code of a hold's key (R118). -/
def scopeCode : HoldKey → Nat
  | .day _ => 1
  | .edition _ => 2
  | .page _ _ => 3
  | .photo _ => 4

/-- Day, edition code, page number and photo number of a hold's key; unused fields are 0 (R128). -/
def holdKeyFields : HoldKey → List U8
  | .day d => u16 d ++ u8 0 ++ u8 0 ++ u32 0
  | .edition k => keyField k ++ u8 0 ++ u32 0
  | .page k n => keyField k ++ u8 n ++ u32 0
  | .photo n => u16 0 ++ u8 0 ++ u8 0 ++ u32 n.toNat

/-- An entry of LIST HOLDS, 14 bytes (R128). -/
def holdField (h : Hold) : List U8 :=
  u8 h.number ++ u8 (scopeCode h.key) ++ u8 h.reason ++ flaggedDay h.untilDay ++ holdKeyFields h.key

/-- LIST HOLDS (R128). -/
def execListHolds (tag : U8) (s : State) : Host.Outcome State Fault Refusal :=
  query (.listHolds tag)
    (fun s => s.answer 0x16 tag .ok
      (u8 s.hold.entries.length ++ u8 s.hold.held.length ++ s.hold.entries.flatMap holdField)) s

end Sys2Proof.Machine
end

