-- ==== Sys2Proof/Machine/Power.lean ====
section
/-! DEFINITION. Main power: POWER_ON and MAIN_POWER_LOSS (02, R25). -/

namespace Sys2Proof.Machine

/-- POWER_ON: every block takes its power-on contents; the calendar is kept when the backup domain kept supply (R25). -/
def execPowerOn (p : PowerUp) (s : State) : Host.Outcome State Fault Refusal :=
  .next (State.atPowerOn (if p.backupKept then s.cal else Calendar.unset) p.rate p.station s.pending)

/-- MAIN_POWER_LOSS: only the backup domain runs on (R25). -/
def execMainPowerLoss (s : State) : Host.Outcome State Fault Refusal := .next { s with powered := false }

end Sys2Proof.Machine
end

