-- ==== Sys2Proof/Machine/SealRequests.lean ====
section
/-! DEFINITION. The volume unit's own commands: SEAL EDITION, the start of a seal, serving the recall wait queue, and the two
queries (05). -/

namespace Sys2Proof.Machine

/-- SEAL EDITION's checks and effect (R85). -/
def State.sealEdition (s : State) (tag : U8) (key : EditionKey) : State :=
  if s.req.mode == .setupPending || s.req.mode == .standbyPending then s.refuse 0x60 tag .notInService
  else if 15 < key.code.toNat then s.refuse 0x60 tag .outOfRange
  else
    match (s.cat.slotOf key).bind fun slot => (s.cat.edition? slot).map fun e => (slot, e) with
    | none => s.refuse 0x60 tag .notFound
    | some (slot, e) =>
      if e.state != .closed then s.refuse 0x60 tag .badState
      else if 0 < e.pins then s.refuse 0x60 tag .busy
      else
        let t := s.enqueueSeal slot
        t.answer 0x60 tag .ok (u8 ((t.vol.sealQueue.findIdx? fun x => x == slot).getD 0))

/-- SEAL EDITION (R85). -/
def execSealEdition (tag : U8) (key : EditionKey) (s : State) : Host.Outcome State Fault Refusal :=
  request (.sealEdition tag key) (fun s => s.sealEdition tag key) s

/-- The head of the seal queue may be started, or found pinned (R87). -/
def State.headTestable (s : State) : Bool :=
  s.req.mode.seals && s.vol.sealQueue.head?.any fun slot =>
    !s.link.marking slot && (s.cat.edition? slot).any fun e => e.state != .sealing

/-- SEAL START: the head is tested; the changes that R87 names test it too (R87; log 7). -/
def execSealStart (s : State) : Host.Outcome State Fault Refusal :=
  event State.headTestable (fun s => s.push .sealTest) s

/-- A queued edition in a reply: slot, key, and 0 waiting, 1 head held for its close mark, 2 sealing (R91). -/
def State.sealField (s : State) (slot : Nat) : List U8 :=
  match s.cat.edition? slot with
  | none => []
  | some e =>
    let status := if e.state == .sealing then 2
      else if s.req.mode.seals && s.vol.sealQueue.head? == some slot && s.link.marking slot then 1 else 0
    u8 slot ++ keyField e.key ++ u8 status

/-- The last seal result in a reply, zero while absent (R91). -/
def lastSealField : Option SealResult → List U8
  | none => flagByte false ++ keyField noKey ++ u8 0 ++ u32 0
  | some r => flagByte true ++ keyField r.key ++ u8 r.outcome.toNat ++ u32 r.volume.toNat

/-- The fields of QUERY SEALING (R91). -/
def State.sealingFields (s : State) : List U8 :=
  u8 s.vol.sealQueue.length ++ s.vol.sealQueue.flatMap s.sealField ++
  u8 s.vol.waiters.length ++ s.vol.waiters.flatMap u32 ++ lastSealField s.vol.lastSeal

/-- QUERY SEALING (R91). -/
def execQuerySealing (tag : U8) (s : State) : Host.Outcome State Fault Refusal :=
  query (.querySealing tag) (fun s => s.answer 0x61 tag .ok s.sealingFields) s

/-- The head of the recall wait queue can be given a slot by steps 1, 3 and 4 of R93 (R97). That this serves a head whose key a
pinned slot came to hold as its version-0 fetch resolved, with no slot freed or unpinned, is the model's choice (log 41). -/
def State.recallServable (s : State) : Bool := s.vol.recallWait.head?.any fun w => (s.tryServe w).isSome

/-- RECALL WAIT SERVE: the recall wait queue is served; the changes that free a slot serve it too (R97; log 7, 41). -/
def execRecallWaitServe (s : State) : Host.Outcome State Fault Refusal :=
  event State.recallServable (fun s => s.push .serveRecall) s

/-! ### QUERY RECALL (R99) -/

/-- The kind of a key: 1 page, 2 photo (R99). -/
def keyKind : EntryKey → List U8
  | .page _ _ _ => u8 1
  | .photo _ => u8 2

/-- Edition key, page number, version and photo number of a key, zero where they do not apply (R99, R117). -/
def entryField : EntryKey → List U8
  | .page k n v => keyField k ++ u8 n ++ u8 v ++ u32 0
  | .photo n => keyField noKey ++ u8 0 ++ u8 0 ++ u32 n.toNat

/-- Level and grid of a copy. -/
def copyGrid (c : EntryCopy) : List U8 := u8 (copyView c).level ++ gridField (copyView c).grid

/-- Slot state code: FREE 0, FETCHING 1, RESIDENT 2 (R92). -/
def slotState : Option RecallSlot → Nat
  | none => 0
  | some r => if r.copy.isSome then 2 else 1

/-- A slot in the list of QUERY RECALL; every field of a FREE slot is zero (R99; log 31). -/
def VolumeUnit.slotField (v : VolumeUnit) (i : Nat) : List U8 :=
  match v.slot? i with
  | none => u8 0 ++ u8 0 ++ u8 0 ++ u8 0 ++ u32 0 ++ entryField (.photo 0) ++ u8 0 ++ u8 0 ++ u8 0
  | some r => u8 (slotState (some r)) ++ u8 r.pinners.length ++
      u8 ((v.lru.findIdx? fun j => j == i).getD 255) ++ keyKind r.key ++ u32 r.volume.toNat ++
      entryField r.key ++ (r.copy.map copyGrid).getD (u8 0 ++ u8 0 ++ u8 0)

/-- A placement of a page copy, 24 bytes (R99). -/
def placedField (p : PlacedCopy) : List U8 :=
  placementField p.place ++ rightsField p.rights ++ gridField p.grid ++ u32 p.current.toNat ++ u32 p.stored.toNat ++
  u8 p.level

/-- A record copy in a reply (R99). -/
def copyField : EntryCopy → List U8
  | .page c => u8 c.sectionCode ++ gridField c.grid ++ u32 c.current.toNat ++ u32 c.stored.toNat ++ u8 c.level ++
      pointsField c.points ++ u8 c.placed.length ++ c.placed.flatMap placedField
  | .photo c => rightsField c.rights ++ gridField c.grid ++ u32 c.current.toNat ++ u32 c.stored.toNat ++ u8 c.level ++
      pointsField c.points ++ u16 c.filedOn

/-- The detail of one slot (R99). -/
def VolumeUnit.detail (v : VolumeUnit) (i : Nat) : List U8 :=
  match v.slot? i with
  | none => u8 0 ++ u8 0 ++ u8 0 ++ u32 0 ++ entryField (.photo 0)
  | some r => u8 (slotState (some r)) ++ u8 r.pinners.length ++ keyKind r.key ++ u32 r.volume.toNat ++
      entryField r.key ++ (r.copy.map copyField).getD []

/-- The fields of QUERY RECALL with detail slot 0 (R99). -/
def VolumeUnit.listFields (v : VolumeUnit) : List U8 :=
  u8 (v.table.countP Option.isNone) ++ u8 v.lru.length ++ u8 v.recallWait.length ++
  (List.range 16).flatMap v.slotField

/-- QUERY RECALL (R99). -/
def execQueryRecall (tag detail : U8) (s : State) : Host.Outcome State Fault Refusal :=
  query (.queryRecall tag detail)
    (fun s => if 16 < detail.toNat then s.refuse 0x62 tag .outOfRange
      else if detail = 0 then s.answer 0x62 tag .ok s.vol.listFields
      else s.answer 0x62 tag .ok (s.vol.detail (detail.toNat - 1))) s

end Sys2Proof.Machine
end

