-- ==== Sys2Proof/Machine/Restoration.lean ====
section
/-! DEFINITION. The restoration engine's commands (06). -/

namespace Sys2Proof.Machine

/-! ### Targets (R102, R103, R116) -/

/-- The target fields are in range (R102, check 2). -/
def targetInRange (t : TargetFields) : Bool :=
  (t.kind == 1 && pageKeyInRange t.key) || (t.kind == 2 && t.photo != 0)

/-- A resident page target; busy says the outcome for an edition in a state that turns the request away (R103, R116). -/
def Catalogue.pageTarget (c : Catalogue) (k : PageKey) (turnedAway : EdState → Option Code) : Except Code Target :=
  match (c.slotOf k.edition).bind fun slot => (c.edition? slot).map fun e => (slot, e) with
  | none => .error .notFound
  | some (slot, e) =>
    match turnedAway e.state with
    | some code => .error code
    | none => (c.resolve slot k.page.toNat k.version.toNat).map fun p => .page slot p.number p.version

/-- A resident photo target (R103). -/
def Catalogue.photoTarget (c : Catalogue) (n : U32) : Except Code Target :=
  match c.photo? n with
  | none => .error .notFound
  | some p => if p.state == .filed then .ok (.photo n) else .error .notFiled

/-- The resident target that the fields name (R103). -/
def Catalogue.targetOf (c : Catalogue) (t : TargetFields) (turnedAway : EdState → Option Code) : Except Code Target :=
  if t.kind = 1 then c.pageTarget t.key turnedAway else c.photoTarget t.photo

/-- The key of a sealed target, as given (R103). -/
def sealedKey (t : TargetFields) : EntryKey :=
  if t.kind = 1 then .page t.key.edition t.key.page.toNat t.key.version.toNat else .photo t.photo

/-- RESTORE is refused for an OPEN, CLOSING or SEALING edition (R103). -/
def restoreRefuses : EdState → Option Code
  | .opened | .closing => some .editionOpen
  | .sealing => some .badState
  | .closed => none

/-- REVERT is refused for a SEALING edition (R116). -/
def revertRefuses : EdState → Option Code
  | .sealing => some .badState
  | .opened | .closing | .closed => none

/-! ### RESTORE (R102 to R104) -/

/-- A parameter clamped; absent, that is 0, gives the lower bound (R102). -/
def clampTo (low high n : Nat) : Nat := max low (min high n)

/-- The level that RESTORE checks: the record's, or that of a copy in a RESIDENT slot that holds the key (R103). -/
def State.targetLevel (s : State) : Target → Nat
  | .page slot number version => ((s.cat.page? slot number version).map Page.level).getD 0
  | .photo n => ((s.cat.photo? n).map Photo.level).getD 0
  | .sealed v k => (((s.vol.holding v k).bind s.vol.copy?).map fun c => (copyView c).level).getD 0

/-- RESTORE's target: resident ones are checked, a sealed one is taken as given (R103). -/
def State.restoreTarget (s : State) (t : TargetFields) : Except Code Target :=
  if t.volume = 0 then s.cat.targetOf t restoreRefuses else .ok (.sealed t.volume (sealedKey t))

/-- RESTORE's last checks and its effect (R102, R104). -/
def State.restoreOn (s : State) (tag : U8) (t : Target) (l h sp : Nat) : State :=
  if (s.jobOn? t).isSome then s.refuse 0x70 tag .duplicate
  else if s.targetLevel t = 3 then s.refuse 0x70 tag .levelLimit
  else if Config.jobs ≤ s.eng.jobs.length then s.refuse 0x70 tag .tableFull
  else
    (s.createJob t l h sp none).answer 0x70 tag .ok
      (u16 s.eng.nextJob ++ u16 l ++ u16 h ++ u8 sp ++ u8 s.eng.jobs.length)

/-- RESTORE's checks and effect (R102). -/
def State.restore (s : State) (tag : U8) (t : TargetFields) (l h : U16) (sp : U8) : State :=
  if !s.inService then s.refuse 0x70 tag .notInService
  else if !targetInRange t then s.refuse 0x70 tag .outOfRange
  else
    match s.restoreTarget t with
    | .error c => s.refuse 0x70 tag c
    | .ok x => s.restoreOn tag x (clampTo 0 100 l.toNat) (clampTo 900 1000 h.toNat) (clampTo 8 128 sp.toNat)

/-- RESTORE (R102). -/
def execRestore (tag : U8) (t : TargetFields) (l h : U16) (sp : U8) (s : State) :
    Host.Outcome State Fault Refusal :=
  request (.restore tag t l h sp) (fun s => s.restore tag t l h sp) s

/-! ### Running (R106, R110, R113) -/

/-- The engine is idle and a QUEUED job is ready (R106). -/
def State.jobStartable (s : State) : Bool :=
  !(s.eng.jobs.any fun j => j.state.isActive) && s.eng.jobs.any fun j => j.state == .queued && j.isReady

/-- JOB START: the oldest ready job starts; the changes that R106 names start it too (R106; log 7). -/
def execJobStart (s : State) : Host.Outcome State Fault Refusal :=
  event State.jobStartable (fun s => s.push .startJob) s

/-- The job in MAPPING. -/
def Engine.mapping? (e : Engine) : Option Job := e.jobs.find? fun j => j.state == .mapping

/-- The end of MAPPING, where there is a job in it (R110). -/
def State.mapped (s : State) : State :=
  match s.eng.mapping? with
  | some j => s.endMapping j
  | none => s

/-- MAPPING END: the engine's own completion (R110, R111). -/
def execMappingEnd (s : State) : Host.Outcome State Fault Refusal :=
  event (fun s => s.eng.mapping?.isSome) State.mapped s

/-- A held locator that no READ BODY names any more (R113). -/
def State.discardReleasable (s : State) : Bool :=
  s.eng.heldDiscards.any fun d => !s.link.held.any (Op.reads d.locator)

/-- HELD DISCARD RELEASE: such locators are freed; each completion of a READ BODY frees them too (R113; log 7). -/
def execHeldDiscardRelease (s : State) : Host.Outcome State Fault Refusal :=
  event State.discardReleasable (fun s => s.push .heldDiscards) s

/-! ### REVERT (R116) -/

/-- The record as REVERT leaves it: raw body, declared check, level 0, no points (R14, R116). -/
def Catalogue.revertRecord (c : Catalogue) : RecId → Catalogue
  | .page slot number version => c.withPage slot number version fun p =>
      { p with current := p.raw, stored := some p.declared, level := 0, points := none }
  | .photo n => c.withPhoto n fun p =>
      { p with current := p.raw, stored := some p.declared, level := 0, points := none }

/-- The record of a resident target. -/
def Target.record : Target → Option RecId
  | .page slot number version => some (.page slot number version)
  | .photo n => some (.photo n)
  | .sealed _ _ => none

/-- The current locator of a record. -/
def Catalogue.currentOf (c : Catalogue) : RecId → Option U32
  | .page slot number version => (c.page? slot number version).bind Page.current
  | .photo n => (c.photo? n).bind Photo.current

/-- REVERT's effect on a target without a live job (R116). -/
def State.revertRecord (s : State) (tag : U8) (t : Target) (r : RecId) : State :=
  let level := s.targetLevel t
  if level = 0 then s.answer 0x71 tag .ok (u8 0 ++ u32 0)
  else
    let locator := (s.cat.currentOf r).getD 0
    ((s.withCat fun c => c.revertRecord r).discard ⟨locator, some r⟩).answer 0x71 tag .ok
      (u8 level ++ u32 locator.toNat)

/-- REVERT's checks and effect (R116). -/
def State.revert (s : State) (tag : U8) (t : TargetFields) : State :=
  if !s.inService then s.refuse 0x71 tag .notInService
  else if !targetInRange t then s.refuse 0x71 tag .outOfRange
  else if t.volume != 0 then s.refuse 0x71 tag .sealed
  else
    match s.cat.targetOf t revertRefuses with
    | .error c => s.refuse 0x71 tag c
    | .ok x =>
      if (s.jobOn? x).isSome then s.refuse 0x71 tag .busy
      else
        match x.record with
        | some r => s.revertRecord tag x r
        | none => s.refuse 0x71 tag .sealed

/-- REVERT (R116). -/
def execRevert (tag : U8) (t : TargetFields) (s : State) : Host.Outcome State Fault Refusal :=
  request (.revert tag t) (fun s => s.revert tag t) s

/-! ### QUERY RESTORE (R117) -/

/-- Target kind, volume number, edition key, page number, version and photo number (R117). -/
def targetField (edition : EditionKey) : Target → List U8
  | .page _ number version => u8 1 ++ u32 0 ++ entryField (.page edition number version)
  | .photo n => u8 2 ++ u32 0 ++ entryField (.photo n)
  | .sealed v k => keyKind k ++ u32 v.toNat ++ entryField k

/-- A live job in the list (R117). -/
def Job.line (j : Job) : List U8 :=
  u16 j.number ++ u8 j.state.toNat ++ targetField j.edition j.target ++ flagByte j.isReady

/-- The fields of QUERY RESTORE with job number 0 (R117). -/
def State.jobList (s : State) : List U8 :=
  u16 (((s.eng.jobs.find? fun j => j.state.isActive).map Job.number).getD 0) ++ u8 s.eng.jobs.length ++
  u8 s.eng.heldDiscards.length ++ u16 s.eng.nextJob ++ s.eng.jobs.flatMap Job.line

/-- The fields of one job, live or finished (R117). -/
def State.jobFields (s : State) (j : Job) (live : Bool) : List U8 :=
  u8 j.state.toNat ++ targetField j.edition (if live then s.resolvedTarget j else j.target) ++ u8Or 255 j.recallSlot ++
  u16 j.low ++ u16 j.high ++ u8 j.span ++ u32 (j.creator.getD 0) ++ u8 j.joiners.length ++ u8 j.need ++
  u8 (if live then s.pool.heldBy (.job j.number) else 0) ++ u8 j.startLevel ++ pointsField j.points ++
  u8 j.outcome.toNat

/-- QUERY RESTORE's search and reply (R117). -/
def State.queryRestore (s : State) (tag : U8) (job : U16) : State :=
  if job = 0 then s.answer 0x72 tag .ok s.jobList
  else
    match s.job? job.toNat, s.eng.finished.find? fun j => j.number == job.toNat with
    | some j, _ => s.answer 0x72 tag .ok (s.jobFields j true)
    | none, some j => s.answer 0x72 tag .ok (s.jobFields j false)
    | none, none => s.refuse 0x72 tag .notFound

/-- QUERY RESTORE (R117). -/
def execQueryRestore (tag : U8) (job : U16) (s : State) : Host.Outcome State Fault Refusal :=
  query (.queryRestore tag job) (fun s => s.queryRestore tag job) s

end Sys2Proof.Machine
end

