-- ==== Sys2Proof/Machine/Statements.lean ====
section
/-! DEFINITION. The statement buffer's requests (10). -/

namespace Sys2Proof.Machine

/-- CLOSE STATEMENT's check and effect (R169). -/
def State.closeStatement (s : State) (tag : U8) : State :=
  if s.stmt.closed.length < Config.closedStatements then
    (s.closeOpenStatement 2).answer 0x6C tag .ok (u32 s.stmt.current.number)
  else s.refuse 0x6C tag .busy

/-- CLOSE STATEMENT (R169). -/
def execCloseStatement (tag : U8) (s : State) : Host.Outcome State Fault Refusal :=
  request (.closeStatement tag) (fun s => s.closeStatement tag) s

/-- The catch-up after a release: an open statement that missed a boundary closes with cause 3 (R170). -/
def State.catchUp (s : State) : State := if 0 < s.stmt.current.missed then s.closeOpenStatement 3 else s

/-- RELEASE STATEMENT's checks and effect (R170). -/
def State.releaseStatement (s : State) (tag : U8) (n : U32) : State :=
  match s.stmt.closed with
  | [] => s.refuse 0x6B tag .badState
  | oldest :: rest =>
    if n ≠ 0 ∧ n.toNat ≠ oldest.number then s.refuse 0x6B tag .notFound
    else
      let caught := decide (0 < s.stmt.current.missed)
      (State.catchUp { s with stmt := { s.stmt with closed := rest } }).answer 0x6B tag .ok
        (u32 oldest.number ++ flagByte caught ++ u32 (if caught then s.stmt.current.number else 0))

/-- RELEASE STATEMENT (R170). -/
def execReleaseStatement (tag : U8) (n : U32) (s : State) : Host.Outcome State Fault Refusal :=
  request (.releaseStatement tag n) (fun s => s.releaseStatement tag n) s

/-- A statement entry, 30 bytes (R164, and the layouts of 12). -/
def Entry.fields (e : Entry) : List U8 :=
  u32 e.order ++ u16 e.account ++ u16 e.day ++ u8 e.hour ++ u8 e.minute ++ u8 e.useClass ++ u8 e.sizeClass ++
  u8 e.copies ++ u8 e.masked ++ u32 e.core ++ u32 e.royalties ++ u32 e.surcharge ++ u32 e.total

/-- An entry count of 0 or above 32 is taken as 32 (R171). -/
def entriesAsked (count : Nat) : Nat := if count = 0 ∨ 32 < count then 32 else count

/-- The statement that an index names: a closed one, or the open one as the reply shows it (R171). -/
def StatementBuffer.at? (b : StatementBuffer) (index : Nat) : Option ClosedStatement :=
  if index = 2 then some { b.current.closedAs 0 0 with spanned := b.current.missed } else b.closed[index]?

/-- The fields of READ STATEMENT (R171). -/
def statementFields (x : ClosedStatement) (held first count : Nat) : List U8 :=
  let shown := (x.entries.drop first).take (entriesAsked count)
  u32 x.number ++ u8 x.cause ++ u16 x.firstDay ++ u16 x.lastDay ++ u16 x.spanned ++ u16 x.entries.length ++
  u8 held ++ u8 shown.length ++ shown.flatMap Entry.fields

/-- READ STATEMENT's checks and reply (R171). -/
def State.readStatement (s : State) (tag index : U8) (first : U16) (count : U8) : State :=
  if 2 < index.toNat then s.refuse 0x6A tag .outOfRange
  else
    match s.stmt.at? index.toNat with
    | none => s.refuse 0x6A tag .notFound
    | some x => s.answer 0x6A tag .ok (statementFields x s.stmt.held.length first.toNat count.toNat)

/-- READ STATEMENT (R171). -/
def execReadStatement (tag index : U8) (first : U16) (count : U8) (s : State) :
    Host.Outcome State Fault Refusal :=
  query (.readStatement tag index first count) (fun s => s.readStatement tag index first count) s

end Sys2Proof.Machine
end

