-- ==== Sys2Proof/Machine/Dispatch.lean ====
section
/-! DEFINITION. The meaning of every command: one direct call for each constructor. -/

namespace Sys2Proof.Machine

/-- What a command does to everything but the queue (R1 to R193, each by its own definition). -/
def exec (i : Instr) (s : State) : Host.Outcome State Fault Refusal :=
  match i with
  | .powerOn p => Sys2Proof.Machine.execPowerOn p s
  | .linkReset => Sys2Proof.Machine.execLinkReset s
  | .frameReceived chars => Sys2Proof.Machine.execFrameReceived chars s
  | .frameSendStart idle => Sys2Proof.Machine.execFrameSendStart idle s
  | .arbitrationLost => Sys2Proof.Machine.execArbitrationLost s
  | .frameSent => Sys2Proof.Machine.execFrameSent s
  | .unknownRequest tag kind => Sys2Proof.Machine.execUnknownRequest tag kind s
  | .identify tag => Sys2Proof.Machine.execIdentify tag s
  | .startService tag => Sys2Proof.Machine.execStartService tag s
  | .enterSetup tag => Sys2Proof.Machine.execEnterSetup tag s
  | .setupEntryComplete => Sys2Proof.Machine.execSetupEntryComplete s
  | .enterStandby tag => Sys2Proof.Machine.execEnterStandby tag s
  | .standbyEntryComplete => Sys2Proof.Machine.execStandbyEntryComplete s
  | .setOption tag number value => Sys2Proof.Machine.execSetOption tag number value s
  | .readOptions tag => Sys2Proof.Machine.execReadOptions tag s
  | .readNotices tag => Sys2Proof.Machine.execReadNotices tag s
  | .setNoticeMask tag mask => Sys2Proof.Machine.execSetNoticeMask tag mask s
  | .wait tag mask seconds => Sys2Proof.Machine.execWait tag mask seconds s
  | .waitMet => Sys2Proof.Machine.execWaitMet s
  | .waitTimeout => Sys2Proof.Machine.execWaitTimeout s
  | .cancelTransfer tag => Sys2Proof.Machine.execCancelTransfer tag s
  | .linkStatus tag clear => Sys2Proof.Machine.execLinkStatus tag clear s
  | .selectAsserted => Sys2Proof.Machine.execSelectAsserted s
  | .transferComplete data => Sys2Proof.Machine.execTransferComplete data s
  | .selectReleased => Sys2Proof.Machine.execSelectReleased s
  | .laneBindExpiry => Sys2Proof.Machine.execLaneBindExpiry s
  | .baseTick => Sys2Proof.Machine.execBaseTick s
  | .minuteEvent => Sys2Proof.Machine.execMinuteEvent s
  | .dayRollover => Sys2Proof.Machine.execDayRollover s
  | .tradeDayBoundary => Sys2Proof.Machine.execTradeDayBoundary s
  | .setTime tag second minute hour day => Sys2Proof.Machine.execSetTime tag second minute hour day s
  | .runCalendar tag => Sys2Proof.Machine.execRunCalendar tag s
  | .stopCalendar tag => Sys2Proof.Machine.execStopCalendar tag s
  | .readTime tag => Sys2Proof.Machine.execReadTime tag s
  | .setDeadline tag key d => Sys2Proof.Machine.execSetDeadline tag key d s
  | .listDeadlines tag => Sys2Proof.Machine.execListDeadlines tag s
  | .queryEdition tag key => Sys2Proof.Machine.execQueryEdition tag key s
  | .listEditions tag start => Sys2Proof.Machine.execListEditions tag start s
  | .queryPage tag key => Sys2Proof.Machine.execQueryPage tag key s
  | .queryPhoto tag photo => Sys2Proof.Machine.execQueryPhoto tag photo s
  | .dropPhoto tag photo => Sys2Proof.Machine.execDropPhoto tag photo s
  | .reloadCatalogue tag => Sys2Proof.Machine.execReloadCatalogue tag s
  | .indexReadCompletion at_ ans => Sys2Proof.Machine.execIndexReadCompletion at_ ans s
  | .openEdition tag key planned d => Sys2Proof.Machine.execOpenEdition tag key planned d s
  | .replanEdition tag key planned => Sys2Proof.Machine.execReplanEdition tag key planned s
  | .filePage tag f => Sys2Proof.Machine.execFilePage tag f s
  | .filePhoto tag f => Sys2Proof.Machine.execFilePhoto tag f s
  | .intakeWriteCompletion at_ ans => Sys2Proof.Machine.execIntakeWriteCompletion at_ ans s
  | .closeEdition tag key => Sys2Proof.Machine.execCloseEdition tag key s
  | .closeEnd slot => Sys2Proof.Machine.execCloseEnd slot s
  | .closeMarkCompletion at_ ans => Sys2Proof.Machine.execCloseMarkCompletion at_ ans s
  | .queryStaging tag => Sys2Proof.Machine.execQueryStaging tag s
  | .claimGrant => Sys2Proof.Machine.execClaimGrant s
  | .lateStoreAnswer at_ ans => Sys2Proof.Machine.execLateStoreAnswer at_ ans s
  | .storeOperationTimeout slot => Sys2Proof.Machine.execStoreOperationTimeout slot s
  | .probeIntervalExpiry => Sys2Proof.Machine.execProbeIntervalExpiry s
  | .probeAnswer at_ ans => Sys2Proof.Machine.execProbeAnswer at_ ans s
  | .resumeStore tag => Sys2Proof.Machine.execResumeStore tag s
  | .queryStore tag => Sys2Proof.Machine.execQueryStore tag s
  | .freeBodyCompletion at_ ans => Sys2Proof.Machine.execFreeBodyCompletion at_ ans s
  | .sealEdition tag key => Sys2Proof.Machine.execSealEdition tag key s
  | .sealStart => Sys2Proof.Machine.execSealStart s
  | .sealVolumeCompletion at_ ans => Sys2Proof.Machine.execSealVolumeCompletion at_ ans s
  | .querySealing tag => Sys2Proof.Machine.execQuerySealing tag s
  | .readVolumeEntryCompletion at_ ans => Sys2Proof.Machine.execReadVolumeEntryCompletion at_ ans s
  | .recallWaitServe => Sys2Proof.Machine.execRecallWaitServe s
  | .queryRecall tag detail => Sys2Proof.Machine.execQueryRecall tag detail s
  | .restore tag t l h sp => Sys2Proof.Machine.execRestore tag t l h sp s
  | .jobStart => Sys2Proof.Machine.execJobStart s
  | .surveyReadCompletion at_ ans => Sys2Proof.Machine.execSurveyReadCompletion at_ ans s
  | .mappingEnd => Sys2Proof.Machine.execMappingEnd s
  | .restorationWriteCompletion at_ ans => Sys2Proof.Machine.execRestorationWriteCompletion at_ ans s
  | .heldDiscardRelease => Sys2Proof.Machine.execHeldDiscardRelease s
  | .revert tag t => Sys2Proof.Machine.execRevert tag t s
  | .queryRestore tag job => Sys2Proof.Machine.execQueryRestore tag job s
  | .placeHold tag f => Sys2Proof.Machine.execPlaceHold tag f s
  | .liftHold tag number => Sys2Proof.Machine.execLiftHold tag number s
  | .listHolds tag => Sys2Proof.Machine.execListHolds tag s
  | .placeOrder tag f => Sys2Proof.Machine.execPlaceOrder tag f s
  | .cancelOrder tag order => Sys2Proof.Machine.execCancelOrder tag order s
  | .retireOrder tag order => Sys2Proof.Machine.execRetireOrder tag order s
  | .queryOrder tag order => Sys2Proof.Machine.execQueryOrder tag order s
  | .prepareDelivery tag order => Sys2Proof.Machine.execPrepareDelivery tag order s
  | .deliveryReadCompletion at_ ans => Sys2Proof.Machine.execDeliveryReadCompletion at_ ans s
  | .preparationEnd order => Sys2Proof.Machine.execPreparationEnd order s
  | .readyExpiry order => Sys2Proof.Machine.execReadyExpiry order s
  | .bindDelivery tag order => Sys2Proof.Machine.execBindDelivery tag order s
  | .setSchedule tag f => Sys2Proof.Machine.execSetSchedule tag f s
  | .readSchedule tag => Sys2Proof.Machine.execReadSchedule tag s
  | .loadAccount tag account tier balance limit => Sys2Proof.Machine.execLoadAccount tag account tier balance limit s
  | .creditAccount tag account amount => Sys2Proof.Machine.execCreditAccount tag account amount s
  | .setLimit tag account limit => Sys2Proof.Machine.execSetLimit tag account limit s
  | .queryAccount tag account => Sys2Proof.Machine.execQueryAccount tag account s
  | .closeStatement tag => Sys2Proof.Machine.execCloseStatement tag s
  | .releaseStatement tag number => Sys2Proof.Machine.execReleaseStatement tag number s
  | .readStatement tag index first count => Sys2Proof.Machine.execReadStatement tag index first count s
  | .mainPowerLoss => Sys2Proof.Machine.execMainPowerLoss s
  | .byteMoved data => Sys2Proof.Machine.execByteMoved data s
  | .breakEnd => Sys2Proof.Machine.execBreakEnd s

end Sys2Proof.Machine
end

