-- ==== Sys2Proof/WellFormed.lean ====
section
/-! DEFINITION. Which commands the outside can send: the checks on operands that the operand's type alone does not make. A
request read from a frame is always well formed; a store answer is when it keeps to the ranges the spec gives its returns. -/

namespace Sys2Proof

/-- A grid in the range of a page or of a photograph (00, "Bodies and checks"). -/
def Grid.within (g : Grid) (cols rows : Nat) : Bool :=
  decide (1 ≤ g.cols ∧ g.cols ≤ cols ∧ 1 ≤ g.rows ∧ g.rows ≤ rows)

/-- Level and points belong together: points at a level above 0 and none at 0, and 0 ≤ b < w ≤ 255, w − b ≥ 8 (R14). -/
def levelFits (level : Nat) (points : Option Points) : Bool :=
  match points with
  | none => level == 0
  | some p => decide (1 ≤ level ∧ level ≤ 3 ∧ p.b + 8 ≤ p.w ∧ p.w ≤ 255)

/-- A record's level, points and locators belong together: at level 0 its current body is its raw body (R14). -/
def restoredFits (level : Nat) (points : Option Points) (raw current : Option U32) : Bool :=
  levelFits level points && (level != 0 || current == raw)

/-- A locator or check is there, and a locator is from 1 upwards (R6). -/
def locatorGiven (l : Option U32) : Bool := l.isSome && l != some 0

/-- A page record as the store may return it in the index; a photograph stands on it at most once (R6, R9, R23). -/
def IdxPage.wellFormed (p : IdxPage) : Bool :=
  decide (p.key.code.toNat < 16 ∧ 1 ≤ p.number ∧ p.number ≤ 128 ∧ 1 ≤ p.planned ∧ p.planned ≤ 128 ∧
    1 ≤ p.version ∧ p.version ≤ 7 ∧ p.sectionCode ≤ 25 ∧ p.placements.length ≤ 12 ∧
    (p.placements.map Placement.photo).Nodup) &&
  p.grid.within 8 12 && locatorGiven p.raw && locatorGiven p.current && p.stored.isSome &&
  restoredFits p.level p.points p.raw p.current

/-- A photo record as the store may return it in the index (R13, R23). -/
def IdxPhoto.wellFormed (p : IdxPhoto) : Bool :=
  decide (p.number ≠ 0 ∧ p.rights.group ≤ 7 ∧ p.filedOn ≤ 65535) &&
  p.grid.within 4 4 && locatorGiven p.raw && locatorGiven p.current && p.stored.isSome &&
  restoredFits p.level p.points p.raw p.current

/-- A close mark as the store may return it (R15, R58). -/
def CloseMark.wellFormed (m : CloseMark) : Bool :=
  decide (m.key.code.toNat < 16 ∧ 1 ≤ m.planned ∧ m.planned ≤ 128 ∧ m.closedOn ≤ 65535 ∧
    m.failedPages ≤ 65535 ∧ ∀ g ∈ m.gaps, 1 ≤ g ∧ g ≤ m.planned)

/-- A returned index (R23). -/
def StoreIndex.wellFormed (x : StoreIndex) : Bool :=
  x.marks.all CloseMark.wellFormed && x.pages.all IdxPage.wellFormed && x.photos.all IdxPhoto.wellFormed

/-- A record copy that READ VOLUME ENTRY may return (R92, R94). -/
def EntryCopy.wellFormed : EntryCopy → Bool
  | .page c => decide (1 ≤ c.version ∧ c.version ≤ 7 ∧ c.placed.length ≤ 12 ∧ c.current ≠ 0) &&
      c.grid.within 8 12 && levelFits c.level c.points
  | .photo c => decide (c.current ≠ 0) && c.grid.within 4 4 && levelFits c.level c.points

/-- A DONE answer's returns meet a check. -/
def Answer.wellFormed {α : Type} (check : α → Bool) : Answer α → Bool
  | .done a => check a
  | .notFound | .full | .mediaError => true

/-- A body that a READ BODY lands: whole tiles, at most 96 (00, "Bodies and checks"). -/
def bodyFits (b : List U8) : Bool :=
  decide (0 < b.length ∧ b.length % 4096 = 0 ∧ b.length ≤ 393216)

/-- The commands the outside can send. -/
def Instr.wellFormed : Instr → Bool
  | .frameReceived chars => !chars.isEmpty
  | .unknownRequest _ kind => !requestKinds.contains kind.toNat
  | .filePage _ f => f.placements.length == min f.count.toNat 12
  | .setSchedule _ f => f.base.length == 20 && f.age.length == 4 && f.tier.length == 8 &&
      f.royalty.length == 8 && f.caps.length == 5
  | .indexReadCompletion _ a => a.wellFormed StoreIndex.wellFormed
  | .intakeWriteCompletion _ a => a.wellFormed fun w => w.locator != 0
  | .restorationWriteCompletion _ a => a.wellFormed fun w => w.locator != 0
  | .sealVolumeCompletion _ a => a.wellFormed fun v => v != 0
  | .readVolumeEntryCompletion _ a => a.wellFormed EntryCopy.wellFormed
  | .surveyReadCompletion _ a => a.wellFormed bodyFits
  | .deliveryReadCompletion _ a => a.wellFormed bodyFits
  | .powerOn _ | .linkReset | .frameSendStart _ | .arbitrationLost | .frameSent => true
  | .identify _ | .startService _ | .enterSetup _ | .setupEntryComplete | .enterStandby _ => true
  | .standbyEntryComplete | .setOption _ _ _ | .readOptions _ | .readNotices _ | .setNoticeMask _ _ => true
  | .wait _ _ _ | .waitMet | .waitTimeout | .cancelTransfer _ | .linkStatus _ _ | .selectAsserted => true
  | .transferComplete _ | .selectReleased | .laneBindExpiry | .baseTick | .minuteEvent | .dayRollover => true
  | .tradeDayBoundary | .setTime _ _ _ _ _ | .runCalendar _ | .stopCalendar _ | .readTime _ => true
  | .setDeadline _ _ _ | .listDeadlines _ | .queryEdition _ _ | .listEditions _ _ | .queryPage _ _ => true
  | .queryPhoto _ _ | .dropPhoto _ _ | .reloadCatalogue _ | .openEdition _ _ _ _ | .replanEdition _ _ _ => true
  | .filePhoto _ _ | .closeEdition _ _ | .closeEnd _ | .closeMarkCompletion _ _ | .queryStaging _ => true
  | .claimGrant | .lateStoreAnswer _ _ | .storeOperationTimeout _ | .probeIntervalExpiry => true
  | .probeAnswer _ _ | .resumeStore _ | .queryStore _ | .freeBodyCompletion _ _ | .sealEdition _ _ => true
  | .sealStart | .querySealing _ | .recallWaitServe | .queryRecall _ _ | .restore _ _ _ _ _ | .jobStart => true
  | .mappingEnd | .heldDiscardRelease | .revert _ _ | .queryRestore _ _ | .placeHold _ _ => true
  | .liftHold _ _ | .listHolds _ | .placeOrder _ _ | .cancelOrder _ _ | .retireOrder _ _ => true
  | .queryOrder _ _ | .prepareDelivery _ _ | .preparationEnd _ | .readyExpiry _ | .bindDelivery _ _ => true
  | .readSchedule _ | .loadAccount _ _ _ _ _ | .creditAccount _ _ _ | .setLimit _ _ _ => true
  | .queryAccount _ _ | .closeStatement _ | .releaseStatement _ _ | .readStatement _ _ _ _ => true
  | .mainPowerLoss | .byteMoved _ | .breakEnd => true

end Sys2Proof
end

