-- ==== Sys2Proof/Safety.lean ====
section
/-! DEFINITION. What every reachable state satisfies: a state between two changes, the bounds that the rules give the
calendar, the options, the pool, the schedule, the accounts, the statements, the hold list, the message port, the order
table and the job queue, and what they state of the catalogue, the store link, the seal queue and the recall table. With it
the words in which the statements speak of a command's reply and of the events it latches. -/

namespace Sys2Proof.Machine

/-- A state between two changes: no consequence is open and no reply is unsent (R183), the notice state and the WAIT have
been tested (R191, R193), the finished list has its length (R131), and no mode entry that could complete is pending (R187,
R188). -/
abbrev State.Calm (s : State) : Prop :=
  s.agenda = [] ∧ s.formed = Formed.none ∧ s.noticeDue = false ∧ s.waitMet? = none ∧
    s.ord.finished.length ≤ 16 ∧ s.entryDue = false

/-- The part is not in STANDBY, so taking a request does not wake it (R186). -/
abbrev State.Awake (s : State) : Prop := s.req.mode ≠ .standby

/-- No record is STAGED, so no WRITE BODY is still to be handed off (R49). -/
abbrev State.Unstaged (s : State) : Prop := s.cat.staged? = none

/-- The part can answer a request at once: between two changes, awake, and the request can be taken (R176, R183). -/
abbrev State.Asked (s : State) (c : Instr) : Prop := s.Calm ∧ s.Awake ∧ s.takes c = true

/-- The request can be taken, and still can once the hand-off that is due has been made, which a request that only reads does not
bring about (R49, R176). -/
abbrev State.Taken (s : State) (c : Instr) : Prop :=
  s.takes c = true ∧ (c.reads = true ∨ s.handedOff.takes c = true)

/-- The part can act on a request at once: as for Asked, with no hand-off to be made first (R49). -/
abbrev State.Ready (s : State) (c : Instr) : Prop := s.Asked c ∧ s.Unstaged

/-- The part has power, stands between two changes, and has no hand-off to make. -/
abbrev State.Up (s : State) : Prop := s.powered = true ∧ s.Calm ∧ s.Unstaged

/-- The part has power and is in SERVICE, no consequence is open, and there is no hand-off to make. -/
abbrev State.Working (s : State) : Prop := s.powered = true ∧ s.agenda = [] ∧ s.req.mode = .service ∧ s.Unstaged

/-- Nothing waits for a release: no claim, no requester of a recall slot, no edition due for the seal queue. -/
abbrev State.Still (s : State) : Prop :=
  s.pool.claims = [] ∧ s.vol.recallWait = [] ∧ ∀ e ∈ s.cat.editions, e.all (fun x => !x.due) = true

/-- The counters keep their ranges, and all are 0 while the calendar is INVALID (R27, R32). -/
abbrev Calendar.Sound (c : Calendar) : Prop :=
  c.fraction ≤ 255 ∧ c.second ≤ 59 ∧ c.minute ≤ 59 ∧ c.hour ≤ 23 ∧ c.day ≤ 65535 ∧ (c.state = .invalid → c = .unset)

/-- The options keep their ranges (R189). -/
abbrev Options.Sound (o : Options) : Prop := 1 ≤ o.retention ∧ o.retention ≤ 30 ∧ o.lead ≤ 60 ∧ o.boundary ≤ 23

/-- The values of the fee schedule keep their ranges (R148, R149). -/
abbrev Schedule.Sound (f : Schedule) : Prop :=
  (∀ x ∈ f.base, x ≤ 1000000) ∧ (∀ x ∈ f.age, x ≤ 999) ∧ (∀ x ∈ f.tier, x ≤ 90) ∧ (∀ x ∈ f.royalty, x ≤ 100000) ∧
    f.surcharge ≤ 500000 ∧ f.minimum ≤ 1000000 ∧ ∀ x ∈ f.caps, x ≤ 100000000

/-- The segments that restoration jobs and orders hold (R62). -/
def Pool.claimed (p : Pool) : Nat := p.segments.countP fun x => x.any fun h => h.isJob || h.isOrder

/-- The pool has 128 segments, of which restoration and delivery hold at most 96 (R62, R65). -/
abbrev Pool.Sound (p : Pool) : Prop := p.segments.length = 128 ∧ p.claimed ≤ 96

/-- An account's balance lies between the negative of its limit and 2,000,000,000 (R158). -/
abbrev Account.Sound (a : Account) : Prop := -(a.limit : Int) ≤ a.balance ∧ a.balance ≤ 2000000000

/-- At most 32 accounts, no two of one number, each within its bounds (R158). -/
abbrev FeeUnit.Sound (f : FeeUnit) : Prop :=
  f.accounts.length ≤ 32 ∧ (f.accounts.map Account.number).Nodup ∧ ∀ a ∈ f.accounts, a.Sound

/-- At most 2 closed statements, and at most 512 entries in the open one (R165). -/
abbrev StatementBuffer.Sound (b : StatementBuffer) : Prop := b.closed.length ≤ 2 ∧ b.current.entries.length ≤ 512

/-- At most 64 holds, no two of one number or of one key (R118). -/
abbrev HoldList.Sound (l : HoldList) : Prop :=
  l.entries.length ≤ 64 ∧ (l.entries.map Hold.number).Nodup ∧ (l.entries.map Hold.key).Nodup

/-- At most 2 frames inbound and 8 outbound, and frames wait only while the outbound queue is full (R175, R176). -/
abbrev MessagePort.Sound (p : MessagePort) : Prop :=
  p.inbound.length ≤ 2 ∧ p.outbound.length ≤ 8 ∧ (p.waiting ≠ [] → p.outbound.length = 8)

/-- At most 32 live orders, in ascending order of number, each with a number already given; the next number is at most one
above the last there is (R129, R131). -/
abbrev OrderTable.Sound (t : OrderTable) : Prop :=
  t.live.length ≤ 32 ∧ (t.live.map Order.number).Pairwise (· < ·) ∧ (∀ o ∈ t.live, o.number < t.next) ∧
    1 ≤ t.next ∧ t.next ≤ 4294967296

/-- The bounds of the rules, together; at most 8 jobs are live (R100). -/
abbrev State.Sound (s : State) : Prop :=
  s.cal.Sound ∧ s.req.options.Sound ∧ s.pool.Sound ∧ s.fee.schedule.Sound ∧ s.fee.Sound ∧ s.stmt.Sound ∧ s.hold.Sound ∧
    s.port.Sound ∧ s.ord.Sound ∧ s.eng.jobs.length ≤ 8

/-! ### The tables -/

/-- A page record's key within the part. -/
def Page.key (p : Page) : Nat × Nat × Nat := (p.slot, p.number, p.version)

/-- The placements of a photograph in the placement lists of the page records (R10). -/
def Catalogue.placed (c : Catalogue) (n : U32) : Nat := (c.pages.map fun p => p.placements.countP fun pl => pl.photo == n).sum

/-- A later FILED version of the same page number stands in the catalogue (R8). -/
abbrev Catalogue.Overtaken (c : Catalogue) (p : Page) : Prop :=
  ∃ q ∈ c.pages, q.slot = p.slot ∧ q.number = p.number ∧ q.state = .filed ∧ p.version < q.version

/-- An edition with a deadline is OPEN; one that is due is CLOSED and pinned (R4, R11). -/
abbrev Edition.Sound (e : Edition) : Prop :=
  (e.deadline ≠ none → e.state = .opened) ∧ (e.due = true → e.state = .closed ∧ 0 < e.pins)

/-- A page record stands in an occupied slot, has a version from 1 to 7, places a photograph at most once and only FILED
ones, keeps level, points and locators together, and is superseded exactly when it is FILED and a later version of its page
number is too (R7 to R10, R14). -/
abbrev Catalogue.PageSound (c : Catalogue) (p : Page) : Prop :=
  (c.edition? p.slot).isSome = true ∧ 1 ≤ p.version ∧ p.version ≤ 7 ∧ (p.placements.map Placement.photo).Nodup ∧
    (∀ pl ∈ p.placements, ∃ q ∈ c.photos, q.number = pl.photo ∧ q.state = .filed) ∧
    restoredFits p.level p.points p.raw p.current = true ∧ (p.superseded = true ↔ p.state = .filed ∧ c.Overtaken p)

/-- A photo record counts the placements that name it, and keeps level, points and locators together (R10, R14). -/
abbrev Catalogue.PhotoSound (c : Catalogue) (p : Photo) : Prop :=
  p.refs = c.placed p.number ∧ restoredFits p.level p.points p.raw p.current = true

/-- The catalogue: 64 entries, no two records of one key, and each record as the rules state it (R3, R4, R7 to R11, R13,
R14). -/
abbrev Catalogue.Sound (c : Catalogue) : Prop :=
  c.editions.length = 64 ∧ (c.editions.filterMap (Option.map Edition.key)).Nodup ∧
    (∀ e ∈ c.editions, ∀ x ∈ e, x.Sound) ∧ (c.pages.map Page.key).Nodup ∧ (c.photos.map Photo.number).Nodup ∧
    (∀ p ∈ c.pages, c.PageSound p) ∧ ∀ p ∈ c.photos, c.PhotoSound p

/-- The store link: 8 slots; while ONLINE, no slot is empty while an operation waits, and no PROBE runs; otherwise nothing
waits and no slot but the first holds anything, while OFFLINE a PROBE; while RECOVERED no slot does (R70, R72, R73, R78). -/
abbrev StoreLink.Sound (l : StoreLink) : Prop :=
  l.slots.length = 8 ∧
    (l.state = .online → (l.waiting ≠ [] → ∀ sl ∈ l.slots, sl.occupant ≠ none) ∧ ∀ op ∈ l.held, op ≠ .probe) ∧
    (l.state ≠ .online → l.waiting = [] ∧ (∀ sl ∈ l.slots.tail, sl.occupant = none) ∧
      ∀ op ∈ l.held, l.state = .offline ∧ op = .probe)

/-- The seal queue holds no edition twice; each one in it is CLOSED, but for the head while its seal is in flight, which is
SEALING, and no edition outside it is SEALING (R83). -/
abbrev State.SealQueueSound (s : State) : Prop :=
  s.vol.sealQueue.Nodup ∧
    (∀ slot ∈ s.vol.sealQueue, (s.cat.edition? slot).any (fun e => e.state == .closed || e.state == .sealing) = true) ∧
    ∀ x ∈ s.cat.occupied, x.2.state = .sealing → s.vol.sealQueue.head? = some x.1

/-- The key of an occupied recall slot (R92). -/
def RecallSlot.name (r : RecallSlot) : U32 × EntryKey := (r.volume, r.key)

/-- The recall table: 16 slots, no two of one volume and key (R92, R93). -/
abbrev VolumeUnit.TableSound (v : VolumeUnit) : Prop :=
  v.table.length = 16 ∧ (v.table.filterMap (Option.map RecallSlot.name)).Nodup

/-- A job's parameters keep their ranges, and a WRITING one has the points its write carries (R102, R109, R111). -/
abbrev Job.Sound (j : Job) : Prop :=
  8 ≤ j.span ∧ j.span ≤ 128 ∧ j.high ≤ 1000 ∧
    (j.state = .writing → j.points ≠ none ∧ levelFits 1 j.points = true)

/-- The next job number is in 1 to 65,535, at most 8 jobs are on the finished list, and no two of the next number, the live jobs'
and the finished jobs' are the same (R101). -/
abbrev Engine.Numbered (e : Engine) : Prop :=
  1 ≤ e.nextJob ∧ e.nextJob ≤ 65535 ∧ e.finished.length ≤ 8 ∧
    (e.nextJob :: (e.jobs.map Job.number ++ e.finished.map Job.number)).Nodup

/-- The restoration engine: its jobs and their numbers, and a histogram of at most 256 counts (R101, R109). -/
abbrev Engine.Sound (e : Engine) : Prop := e.histogram.length ≤ 256 ∧ (∀ j ∈ e.jobs, j.Sound) ∧ e.Numbered

/-- The number that stands i places after n in the circle from 1 to 65,535 (R101). -/
def jobNumberAfter (n i : Nat) : Nat := (n + i - 1) % 65535 + 1

/-- What the next job number becomes when n is given: the nearest number after n that neither a live job nor the finished list
holds (R101). -/
abbrev Engine.Advances (e : Engine) (n next : Nat) : Prop :=
  next ≠ n ∧ e.holdsNumber next = false ∧ ∃ k, next = jobNumberAfter n k ∧
    ∀ i, 0 < i → i < k → e.holdsNumber (jobNumberAfter n i) = true

/-- What the rules state of the tables, together; while a reload is in flight, the part is in SETUP and they are empty (R22).
No consequence is open. -/
abbrev State.Tables (s : State) : Prop :=
  s.agenda = [] ∧ s.cat.Sound ∧ s.link.Sound ∧ s.SealQueueSound ∧ s.vol.TableSound ∧ s.eng.Sound ∧
    (s.cat.reloading = true → s.req.mode = .setup ∧ s.cat.isEmpty = true)

/-! ### Pricing -/

/-- The orders of the rights-held list that no hold matches any more, oldest first (R124). -/
def State.unmatched (s : State) : List Nat := s.hold.held.filter fun m => !(s.order? m).any s.orderMatches

/-- The price of an order as things stand (R153, R154). -/
def State.priceOf (s : State) (o : Order) (v : View) (a : Account) : Price :=
  s.fee.schedule.price s.cal.day a.tier o (soldRights o v (s.maskOf v))

/-- An order is charged: the balance falls, the statement has its entry, the order is CHARGED, and the 512th entry latches
STATEMENT_FULL (R157, R168). -/
def State.sold (s : State) (o : Order) (v : View) (a : Account) : State :=
  let masked := (s.maskOf v).length
  let price := s.priceOf o v a
  let entry : Entry := ⟨o.number, o.account, s.cal.day, s.cal.hour, s.cal.minute, o.useClass, o.sizeClass, o.copies, masked,
    price.core, price.royalties, price.surcharge, price.total⟩
  let paid := (s.withAccount o.account fun a => { a with balance := a.balance - price.total }).withOrder o.number fun o =>
    { o with state := .charged, masked := masked, charged := price.total }
  let noted : State := { paid with stmt := { paid.stmt with current :=
    { paid.stmt.current with entries := paid.stmt.current.entries ++ [entry] } } }
  if s.stmt.current.entries.length = 511 then noted.latch .statementFull else noted

/-- What pricing makes of an order that its hold check lets pass: held for statement room, held for funds, or charged (R152,
R155 to R157). -/
def State.priced (s : State) (o : Order) (v : View) (a : Account) : State :=
  if 512 ≤ s.stmt.current.entries.length then
    (State.withOrder { s with stmt := { s.stmt with held := s.stmt.held ++ [o.number] } } o.number fun o =>
      { o with state := .heldStatement }).latch .orderHeld
  else if a.queue ≠ [] ∨ a.balance + a.limit < (s.priceOf o v a).total then
    ((s.withAccount a.number fun a => { a with queue := a.queue ++ [o.number] }).withOrder o.number fun o =>
      { o with state := .heldFunds }).latch .orderHeld
  else s.sold o v a

/-- No block names the order number, which is still to be given (R131). -/
abbrev State.Fresh (s : State) (n : Nat) : Prop :=
  s.pool.heldBy (.order n) = 0 ∧ (∀ c ∈ s.pool.claims, c.owner ≠ .order n) ∧
    (∀ w ∈ s.vol.recallWait, w.requester ≠ .order n) ∧
    (∀ i r, s.vol.slot? i = some r → .order n ∉ r.pinners) ∧ (∀ j ∈ s.eng.jobs, n ∉ j.joiners) ∧
    ∀ o ∈ s.ord.finished, o.number ≠ n

/-! ### Replies and events -/

/-- The frame of the request being taken leaves the inbound buffer (R175). -/
def State.popped (s : State) : State := { s with port := { s.port with inbound := s.port.inbound.tail } }

/-- A request has been answered at once: its frame has left the inbound buffer and its reply has joined the outbound queue
(R175, R176, R183). -/
def State.replied (s : State) (kind tag : U8) (code : Code) (fields : List U8) : State :=
  { s with port := { s.port with
    inbound := s.port.inbound.tail
    outbound := s.port.outbound ++ [s.replyFrame kind tag code fields] } }

/-- A request that only reads has been answered, and a STAGED record's WRITE BODY has been handed off at once behind it, unless
another query waits (R49, R183; the model's choice, log 10). -/
def State.reported (s : State) (kind tag : U8) (code : Code) (fields : List U8) : State :=
  (s.replied kind tag code fields).handAtOnce

/-- A request is answered at the end of its change: its frame has left the inbound buffer, its reply is formed, and the
tests of the notice state, of the WAIT and of a pending mode entry are made (R183, R187, R188, R191, R193). -/
def State.answered (s : State) (kind tag : U8) (code : Code) (fields : List U8) : State :=
  State.endChange (s.popped.answer kind tag code fields)

/-- The frame is the first that the change put in the outbound queue (R176). -/
abbrev FirstSent (s t : State) (f : Frame) : Prop := t.port.outbound[s.port.outbound.length]? = some f

/-- The frame waits to be sent, in the outbound queue or in the pending list (R176). -/
abbrev Sent (t : State) (f : Frame) : Prop := f ∈ t.port.outbound ++ t.port.waiting

/-- The event has been latched: it is still latched, or a WAIT whose mask names it has ended with it (R191, R193). -/
abbrev Raised (s t : State) (e : Event) : Prop :=
  t.req.latched.getLsbD e.bit = true ∨
    t.req.wait = none ∧ s.req.wait.any (fun w => w.mask.getLsbD e.bit) = true

/-- A photo record on its way has become FAILED; FILED and FAILED are final (R7, R50). -/
def Catalogue.photoFailed (c : Catalogue) (n : U32) (code : Code) : Catalogue := c.withPhoto n fun p =>
  if p.state = .filed ∨ p.state = .failed then p else { p with state := .failed, outcome := code }

/-- The operation stands in the slot (R70). -/
abbrev StoreLink.Runs (l : StoreLink) (slot : Nat) (op : Op) : Prop := (l.running? slot).map Running.op = some op

/-- The link is ONLINE and i is its lowest-numbered empty slot (R72). -/
abbrev StoreLink.Takes (l : StoreLink) (i : Nat) : Prop :=
  l.state = .online ∧ l.slots.findIdx? (fun sl => sl.occupant.isNone) = some i

/-- A page record on its way, of the edition e, has failed at the lane: FAILED with the outcome, its placements emptied, the
references lowered, the segments returned, FILE_FAILED latched; an edition that is CLOSING with no other page on its way ends its
close in the same change (R10, R50, R57, R58). -/
def PageFails (s t : State) (p : Page) (e : Edition) (code : Code) : Prop :=
  t.cat.page? p.slot p.number p.version = some { p with state := .failed, outcome := code, placements := [] } ∧
    t.cat.photos = s.cat.photos.map (fun q =>
      if ∃ pl ∈ p.placements, pl.photo = q.number then { q with refs := q.refs - 1 } else q) ∧
    t.pool.heldBy (.record (.page p.slot p.number p.version)) = 0 ∧ Raised s t .fileFailed ∧
    (e.state ≠ .closing ∨ 1 < s.cat.inFlight p.slot → t.cat.edition? p.slot = some e ∧ t.link = s.link) ∧
    ∀ i, e.state = .closing → s.cat.inFlight p.slot = 1 → s.link.Takes i →
      let gaps := s.cat.gapsOf p.slot e.planned
      t.cat.edition? p.slot = some { e with state := .closed, closedOn := some s.cal.day, gaps := some gaps } ∧
        t.link = s.link.occupy i (.closeMark p.slot ⟨e.key, e.planned, s.cal.day, gaps, e.forced, e.failedPages⟩) ∧
        Raised s t (if e.forced then .deadlineClosed else .editionClosed)

/-- The only live job has failed with the outcome, its segments and holds given back, its orders ended with it; no page record, no
photo record but for pins, and no copy in a recall slot has changed, and no body is to be discarded (R114). -/
def JobFails (s t : State) (j : Job) (code : Code) : Prop :=
  t.eng.jobs = [] ∧ t.eng.heldDiscards = s.eng.heldDiscards ∧ t.pool.heldBy (.job j.number) = 0 ∧
    t.eng.finished.getLast?.map (fun k => (k.number, k.state, k.outcome)) = some (j.number, .failed, code) ∧
    Raised s t .restoreFailed ∧ t.cat.pages = s.cat.pages ∧
    (∀ n p, s.cat.photo? n = some p → ∃ pins, t.cat.photo? n = some { p with pins := pins }) ∧
    (∀ i r, s.vol.slot? i = some r → ∃ pinners, t.vol.slot? i = some { r with pinners := pinners }) ∧
    (∀ m, j.creator = some m ∨ m ∈ j.joiners → t.order? m = none) ∧
    ∀ m x, j.creator = some m → j.joiners = [] → s.order? m = some x →
      t.ord.finished.getLast?.map (fun y => (y.number, y.state, y.outcome)) = some (m, .ended, code) ∧ Raised s t .orderEnded

/-- A request retries the held-funds queue of the account a from the state w, and its reply carries the new balance, the orders
charged and those left. With an order that its hold check lets pass at the head, and room in the statement: the order does not fit
and stays there; or it is charged, and the next is looked at (R160 to R162). -/
def QueueRetried (s w : State) (a : Account) (run : Host.Outcome State Fault Refusal) (kind tag : U8)
    (fields : Int → U8 → U8 → List U8) : Prop :=
  ∀ n o v, w.fee.Sound → w.ord.Sound → (w.req.mode = .setupPending → w.vol.waiters = []) →
    w.stmt.current.entries.length < 511 → w.order? n = some o → o.state = .heldFunds → o.account = a.number →
    w.orderView o = some v → w.holdCheck o v = .passed (w.maskOf v) →
    let charged (o : Order) (v : View) : Order := { o with
      state := .charged, masked := (w.maskOf v).length, charged := (w.priceOf o v a).total }
    let total : Int := (w.priceOf o v a).total
    (a.queue = [n] →
      (a.balance + a.limit < total → run = .next (w.replied kind tag .ok (fields a.balance 0 1))) ∧
      (total ≤ a.balance + a.limit → ∃ t, run = .next t ∧
        FirstSent s t (s.replyFrame kind tag .ok (fields (a.balance - total) 1 0)) ∧
        t.fee.account? a.number = some { a with balance := a.balance - total, queue := [] } ∧
        t.order? n = some (charged o v) ∧
        t.stmt.current.entries.map Entry.order = w.stmt.current.entries.map Entry.order ++ [n])) ∧
    ∀ n2 o2 v2, a.queue = [n, n2] → n2 ≠ n → w.order? n2 = some o2 → o2.state = .heldFunds → o2.account = a.number →
      w.orderView o2 = some v2 → w.holdCheck o2 v2 = .passed (w.maskOf v2) →
      let both : Int := total + (w.priceOf o2 v2 a).total
      (a.balance + a.limit < total → run = .next (w.replied kind tag .ok (fields a.balance 0 2))) ∧
      (total ≤ a.balance + a.limit → a.balance + a.limit < both → ∃ t, run = .next t ∧
        FirstSent s t (s.replyFrame kind tag .ok (fields (a.balance - total) 1 1)) ∧
        t.fee.account? a.number = some { a with balance := a.balance - total, queue := [n2] } ∧
        t.order? n = some (charged o v) ∧ t.order? n2 = some o2 ∧
        t.stmt.current.entries.map Entry.order = w.stmt.current.entries.map Entry.order ++ [n]) ∧
      (both ≤ a.balance + a.limit → ∃ t, run = .next t ∧
        FirstSent s t (s.replyFrame kind tag .ok (fields (a.balance - both) 2 0)) ∧
        t.fee.account? a.number = some { a with balance := a.balance - both, queue := [] } ∧
        t.order? n = some (charged o v) ∧ t.order? n2 = some (charged o2 v2) ∧
        t.stmt.current.entries.map Entry.order = w.stmt.current.entries.map Entry.order ++ [n, n2])

/-- A filing request is refused TABLE_FULL, with its pressure request. While the seal queue holds an edition, or no CLOSED edition is
unpinned, the request has no effect. Otherwise the CLOSED unpinned edition that was closed earliest, of equal days the one with the
lowest key, joins the queue, and its seal begins in the same change unless its CLOSE MARK is in flight (R48, R86, R87). -/
def PressureRefused (s : State) (kind tag : U8) (run : Host.Outcome State Fault Refusal) : Prop :=
  let sealable (slot : Nat) (e : Edition) : Prop := s.cat.edition? slot = some e ∧ e.state = .closed ∧ e.pins = 0
  (s.vol.sealQueue ≠ [] ∨ (∀ slot e, ¬sealable slot e) → run = .next (s.replied kind tag .tableFull [])) ∧
  ∀ slot e, s.vol.sealQueue = [] → sealable slot e →
    (∀ x y, sealable x y → x ≠ slot → e.closedOn.getD 0 < y.closedOn.getD 0 ∨ e.closedOn.getD 0 = y.closedOn.getD 0 ∧
      (e.key.day.toNat < y.key.day.toNat ∨ e.key.day = y.key.day ∧ e.key.code.toNat < y.key.code.toNat)) →
    ((∃ m, .closeMark slot m ∈ s.link.held) →
      run = .next (State.replied { s with vol := { s.vol with sealQueue := [slot] } } kind tag .tableFull [])) ∧
    ∀ i, (∀ m, .closeMark slot m ∉ s.link.held) → s.link.Takes i → run = .next (State.replied { s with
      cat := s.cat.withEdition slot fun e => { e with state := .sealing }
      vol := { s.vol with sealQueue := [slot] }
      link := s.link.occupy i (.sealVolume slot (s.cat.sealContent slot e)) } kind tag .tableFull [])

/-- A holder's segments and their bytes given back (R62). -/
def Pool.without (p : Pool) (h : Holder) : Pool :=
  { p with segments := emptyOut h p.segments, contents := p.contents.filter fun c => c.1 != h }

/-- A holder given the segments it needs (R62). -/
def Pool.given (p : Pool) (h : Holder) (n : Nat) : Pool := { p with segments := fillFree h n p.segments }

/-- The link after an operation in slot i has completed without a failure: the slot passes on, the failure counter is 0, and
a FREE BODY is counted off (R72, R73, R76). -/
def StoreLink.served (l : StoreLink) (i : Nat) (op : Op) : StoreLink :=
  StoreLink.passOn { l.vacate i with
    failures := 0, discards := if op.isDiscard then l.discards - 1 else l.discards } i

/-- The link that has taken a FREE BODY in slot i (R72). -/
def StoreLink.freeing (l : StoreLink) (i : Nat) (locator : U32) (x : FreeKind) : StoreLink :=
  { l.occupy i (.freeBody locator x) with discards := l.discards + 1 }

/-! ### The engine's starts -/

/-- Segments that a body of a view needs (R63). -/
def View.need (v : View) : Nat := (v.grid.cols * v.grid.rows + 15) / 16

/-- A job that has been started on a target of the view, in a state of its way (R106). -/
def Job.started (j : Job) (v : View) (st : JobState) : Job := { j with state := st, startLevel := v.level, need := v.need }

/-- No job is active and none is ready, so that the engine starts the next one that is (R106). -/
abbrev Engine.Idle (e : Engine) : Prop :=
  ∀ k ∈ e.jobs, k.state.isActive = false ∧ (k.state = .queued → k.isReady = false)

/-- The job j, ready on a target of the view, joins the tail of the queue in a change that leaves u beside it, and the number after
its own is given next. While another job is active it waits. On an idle engine it starts in the same change: with an empty claim queue
and room it has its segments and reads its body, else its claim joins the queue. ends and granted say where the change ends, without a
grant and with one (R65, R101, R104, R106, R107). -/
def JobCreated (u : State) (j : Job) (v : View) (ends granted : State → Prop) : Prop :=
  ∃ next, u.eng.Advances j.number next ∧
    let queued (u : State) (j : Job) : State := { u with eng := { u.eng with jobs := u.eng.jobs ++ [j], nextJob := next } }
    ((∃ k ∈ u.eng.jobs, k.state.isActive = true) → ends (queued u j)) ∧
    (u.eng.Idle →
      (∀ i, u.pool.claims = [] → v.need + 32 ≤ u.pool.free → u.link.Takes i → granted (queued { u with
        pool := u.pool.given (.job j.number) v.need
        link := u.link.occupy i (.readForJob j.number j.target.volume v.current) } (j.started v .survey))) ∧
      (u.pool.claims ≠ [] ∨ u.pool.free < v.need + 32 → ends (queued { u with
        pool := { u.pool with claims := u.pool.claims ++ [⟨.job j.number, v.need⟩] } } (j.started v .claiming))))

/-- The job numbered gone has ended, and the one behind it, ready on a target of the view, has started in the same change, over the link
that the end leaves: with room it has its segments and reads its body, else its claim waits (R65, R106, R107). -/
def NextStarts (s t : State) (gone : Nat) (k : Job) (v : View) (link : StoreLink) : Prop :=
  let free := (s.pool.without (.job gone)).free
  (∀ i, v.need + 32 ≤ free → link.Takes i → t.eng.jobs = [k.started v .survey] ∧ t.pool.claims = [] ∧
    t.pool.heldBy (.job k.number) = s.pool.heldBy (.job k.number) + v.need ∧
    t.link = link.occupy i (.readForJob k.number k.target.volume v.current)) ∧
  (free < v.need + 32 → t.eng.jobs = [k.started v .claiming] ∧ t.pool.claims = [⟨.job k.number, v.need⟩] ∧ t.link = link)

/-- The catalogue after the write-back of a resident job's body: its record has the body that the store took, one level more and the
points, and the job's pin is released; replaced is the locator that the record had (R14, R112). -/
def State.Restores (s : State) (j : Job) (w : Written) (cat : Catalogue) (replaced : Option U32) : Prop :=
  let level := min 3 (j.startLevel + 1)
  (∃ n p, j.target = .photo n ∧ s.cat.photo? n = some p ∧ replaced = p.current ∧ cat = s.cat.withPhoto n fun p => { p with
      current := some w.locator, stored := some w.stored, level := level, points := j.points, pins := p.pins - 1 }) ∨
    ∃ slot number version p, j.target = .page slot number version ∧ s.cat.page? slot number version = some p ∧
      replaced = p.current ∧ cat = Catalogue.withEdition (s.cat.withPage slot number version fun p => { p with
        current := some w.locator, stored := some w.stored, level := level, points := j.points }) slot fun e =>
          { e with pins := e.pins - 1 }

end Sys2Proof.Machine
end

