-- ==== Sys2Proof/Certificates/Slice0/Obligations.lean ====
section
/-! DEFINITION. The statements about the part: what a step does, what each command completes with, what it leaves, and the
bounds that every step keeps. A command's result is stated as the state it answers with; where the end of the change may
also send a NOTICE, end a WAIT or complete a mode entry, as State.close or State.endChange of the state the rules give. -/

open Sys2Proof Sys2Proof.Machine

/-! ### The step, and every command -/

/-- A step takes the front of the queue and runs it on the state with the queue's rest. On an empty queue the block idles:
that is the model's choice (log 3). -/
def Obligations.StepRunsTheFrontCommand : Prop :=
  (∀ (c : Instr) (rest : List Instr) (s : State),
    step { s with pending := c :: rest } = exec c { s with pending := rest }) ∧
  ∀ s : State, s.pending = [] → step s = .next s

/-- No command ends in a fault or a refusal, and none touches the queue; and the frame: which commands but POWER_ON can
change the straps as sampled, main power, the calendar and its events, the deadline list, the holds, the schedule, the
accounts' numbers, tiers and limits, the closed statements, the next order number, the options, the mask, the lane and the
inbound buffer. -/
def Obligations.EveryCommandHasANextStateAndItsFrame : Prop :=
  ∀ (c : Instr) (s : State), ∃ t, exec c s = .next t ∧ t.pending = s.pending ∧ ((∀ p, c ≠ .powerOn p) →
    t.port.rate = s.port.rate ∧ t.port.station = s.port.station ∧
    (t.powered = s.powered ∨ c = .mainPowerLoss) ∧
    (t.cal = s.cal ∨ c = .baseTick ∨ (∃ tag sec min hour day, c = .setTime tag sec min hour day) ∨
      ∃ tag, c = .runCalendar tag ∨ c = .stopCalendar tag) ∧
    (t.events = s.events ∨ c = .baseTick ∨ c = .minuteEvent ∨ c = .dayRollover ∨ c = .tradeDayBoundary ∨
      ∃ tag, c = .stopCalendar tag) ∧
    (t.deadlines = s.deadlines ∨ c = .baseTick ∨ c = .minuteEvent ∨ (∃ tag key planned d, c = .openEdition tag key planned d) ∨
      (∃ tag key d, c = .setDeadline tag key d) ∨ (∃ tag key, c = .closeEdition tag key) ∨ ∃ tag, c = .stopCalendar tag) ∧
    (t.hold.entries = s.hold.entries ∨ c = .baseTick ∨ c = .dayRollover ∨ (∃ tag f, c = .placeHold tag f) ∨
      (∃ tag n, c = .liftHold tag n) ∨ ∃ tag, c = .stopCalendar tag) ∧
    (t.fee.schedule = s.fee.schedule ∨ ∃ tag f, c = .setSchedule tag f) ∧
    (t.fee.accounts.map (fun a => (a.number, a.tier)) = s.fee.accounts.map (fun a => (a.number, a.tier)) ∨
      ∃ tag a tier b l, c = .loadAccount tag a tier b l) ∧
    (t.fee.accounts.map Account.limit = s.fee.accounts.map Account.limit ∨
      (∃ tag a tier b l, c = .loadAccount tag a tier b l) ∨ ∃ tag a l, c = .setLimit tag a l) ∧
    (t.stmt.closed = s.stmt.closed ∨ c = .baseTick ∨ c = .tradeDayBoundary ∨ (∃ tag, c = .closeStatement tag) ∨
      (∃ tag n, c = .releaseStatement tag n) ∨ ∃ tag, c = .stopCalendar tag) ∧
    (t.ord.next = s.ord.next ∨ ∃ tag f, c = .placeOrder tag f) ∧
    (t.req.options = s.req.options ∨ ∃ tag n v, c = .setOption tag n v) ∧
    (t.req.mask = s.req.mask ∨ ∃ tag m, c = .setNoticeMask tag m) ∧
    (t.lane = s.lane ∨ c = .linkReset ∨ c = .selectAsserted ∨ c = .selectReleased ∨ c = .laneBindExpiry ∨ c = .baseTick ∨
      (∃ x, c = .byteMoved x ∨ c = .transferComplete x) ∨ (∃ tag, c = .cancelTransfer tag) ∨ (∃ tag f, c = .filePage tag f) ∨
      (∃ tag f, c = .filePhoto tag f) ∨ ∃ tag n, c = .bindDelivery tag n) ∧
    (t.port.inbound = s.port.inbound ∨ c = .linkReset ∨ (∃ x, c = .frameReceived x) ∨ (encodeRequest c).isSome))

/-- A request is taken only while the part has power, the outbound queue has a place, the pending list is empty, no other frame
stands before it and, with an empty buffer, frames are assembled; one that cannot be taken changes nothing; one that is taken
leaves the inbound buffer, and the frames that waited to be sent keep their places. That a request may stand for a frame that
arrived and was taken at once (log 4), and that a hand-off which is due comes before one that does not only read (log 10), are the
model's choices. -/
def Obligations.RequestWaitsForAFreePlaceOrIsTaken : Prop :=
  (∀ (c : Instr) (s : State), s.takes c = true →
    s.powered = true ∧ s.port.outbound.length < 8 ∧ s.port.waiting = [] ∧
    (s.port.inbound = [] → s.port.inBreak = false) ∧ ∀ f ∈ s.port.inbound.head?, decodeRequest f.kind f.tag f.body = c) ∧
  (∀ (c : Instr) (s : State), (encodeRequest c).isSome →
    (s.takes c = false → exec c s = .next s) ∧
    (s.takes c = true → ¬s.Taken c → exec c s = .next s.handedOff) ∧
    (s.Taken c → ∃ t, exec c s = .next t ∧ t.port.inbound = s.port.inbound.tail ∧
      s.port.outbound <+: t.port.outbound))

/-- A request that a part in STANDBY takes wakes it: the mode is SERVICE and WOKEN is latched. ENTER SETUP and ENTER STANDBY
go on to another mode from there, READ NOTICES clears the events it reports, and a WAIT may take the event at once. -/
def Obligations.StandbyIsWokenByARequest : Prop :=
  ∀ (c : Instr) (s : State), (encodeRequest c).isSome → s.Taken c → s.req.mode = .standby →
    (∀ tag, c ≠ .enterSetup tag) → (∀ tag, c ≠ .enterStandby tag) → (∀ tag, c ≠ .readNotices tag) →
    (∀ tag mask seconds, c ≠ .wait tag mask seconds) →
    ∃ t, exec c s = .next t ∧ t.req.mode = .service ∧ Raised s t .woken

/-- The end of a change only sends frames, tests the notice state and the WAIT, and keeps the last 16 finished orders: every
block else is left as the change made it, and the frames join behind those that waited. -/
def Obligations.EndOfAChangeKeepsTheBlocks : Prop :=
  ∀ s : State, ∃ port req, s.close = { s with port := port, req := req, ord := s.ord.trim, agenda := [], formed := Formed.none } ∧
    port.inbound = s.port.inbound ∧ s.port.outbound ++ s.port.waiting <+: port.outbound ++ port.waiting ∧
    port.outbound.length ≤ max 8 s.port.outbound.length ∧
    req.mode = s.req.mode ∧ req.options = s.req.options ∧ req.mask = s.req.mask ∧
    (∀ i, req.latched.getLsbD i = true → s.req.latched.getLsbD i = true) ∧
    (req.armed = true ↔ s.req.armed = true ∧ (s.req.latched ||| s.levels) &&& s.req.mask = 0)

/-! ### Main power -/

/-- The contents at power-on, and the state after reset, which is power-on with the backup domain lost. That the straps of
the state after reset are 0 (log 1), and that the lane's select reads released, its data lines are undriven, the shorter guard
time is owed and no break is in progress at power-on (log 2), are the model's choices. -/
def Obligations.PowerOnContents : Prop :=
  (∀ (p : PowerUp) (s : State), ∃ t, exec (.powerOn p) s = .next t ∧ t.powered = true ∧ t.pending = s.pending ∧
    t.cal = (if p.backupKept then s.cal else ⟨.invalid, 0, 0, 0, 0, 0⟩) ∧ t.events = ⟨none, none, none⟩ ∧
    t.deadlines = [] ∧ t.cat = ⟨List.replicate 64 none, [], [], false⟩ ∧ t.pool = ⟨List.replicate 128 none, [], []⟩ ∧
    t.link = ⟨.online, List.replicate 8 ⟨0, none⟩, [], 0, 0, 0, 0, none⟩ ∧
    t.vol = ⟨[], [], none, List.replicate 16 none, [], []⟩ ∧ t.eng = ⟨[], [], 1, [], []⟩ ∧ t.hold = ⟨[], []⟩ ∧
    t.ord = ⟨[], 1, []⟩ ∧ t.fee.accounts = [] ∧
    t.fee.schedule = ⟨List.replicate 20 0, List.replicate 4 0, List.replicate 8 0, List.replicate 8 0, 0, 0,
      List.replicate 5 0⟩ ∧
    t.stmt = ⟨⟨1, t.cal.day, 0, []⟩, [], []⟩ ∧
    t.port = ⟨p.rate, p.station, [], [], [], none, false, false, 0, 0, 0⟩ ∧ t.lane = ⟨none, false, none, false⟩ ∧
    t.req = ⟨.setup, ⟨2, 15, 6, true⟩, 0, 0, true, none, none, none⟩) ∧
  ∀ s : State, exec (.powerOn ⟨false, 0, 0⟩) { s with pending := [] } = .next State.reset

/-- Main power that goes leaves everything in place until power-on replaces it; while it is absent the base tick counts the
calendar on and no other command has an effect. That the contents outside the backup domain stay in place while power is absent
is the model's deduction (log 15). -/
def Obligations.WithoutMainPowerOnlyTheCalendarRuns : Prop :=
  (∀ s : State, exec .mainPowerLoss s = .next { s with powered := false }) ∧
  ∀ (c : Instr) (s : State), s.powered = false → (∀ p, c ≠ .powerOn p) →
    exec c s = .next (if c = .baseTick then { s with cal := s.cal.tick } else s)

/-! ### The message line -/

/-- The bytes that a frame has on the line, received without damage by the station they name, are judged to be that frame; and
the tests of a frame that has ended, each given that the ones before it did not apply. -/
def Obligations.FramesAreJudgedByTheTests : Prop :=
  (∀ (station : BitVec 3) (f : Frame), f.station = station.setWidth 8 → f.body.length ≤ 1024 →
    judge station (f.bytes.map fun b => ⟨b, false⟩) = .good f) ∧
  (∀ (station : BitVec 3) (first : LineChar) (rest : List LineChar),
    (first.damaged = false → first.byte ≠ station.setWidth 8 → judge station (first :: rest) = .ignored) ∧
    (first.damaged = true ∨ first.byte = station.setWidth 8 →
      (rest.length < 6 → judge station (first :: rest) = .discarded) ∧
      ((∃ c ∈ first :: rest, c.damaged = true) → judge station (first :: rest) = .discarded) ∧
      (1024 < lengthField (first :: rest) → judge station (first :: rest) = .discarded) ∧
      (rest.length ≠ 6 + lengthField (first :: rest) → judge station (first :: rest) = .discarded) ∧
      (checkMatches (first :: rest) = false → judge station (first :: rest) = .discarded)))

/-- FRAME_RECEIVED by the judgement of the frame: ignored, counted and latched, buffered, or lost to a full buffer. Sending: the
head frame goes on the line after the guard time, 7 character times when the last whole frame on the line was the part's own
and 3 otherwise, a contest lost or a fault keeps it at the head, and a frame sent leaves the queue and lets one pending frame
join it. After a break, frames are assembled again once the line has been high. That FRAME_SEND_START carries what the return line
did since the last own frame is the model's choice (log 14). -/
def Obligations.MessageLineReceivesAndSends : Prop :=
  (∀ (s : State) (chars : List LineChar), s.Up → s.port.inBreak = false → chars ≠ [] →
    (judge s.port.station chars = .ignored → exec (.frameReceived chars) s = .next s) ∧
    (judge s.port.station chars = .discarded → ∃ t, exec (.frameReceived chars) s = .next t ∧
      t.port.linkErrors = min 255 (s.port.linkErrors + 1) ∧ t.port.overruns = s.port.overruns ∧
      t.port.inbound = s.port.inbound ∧ Raised s t .lineError) ∧
    ∀ f, judge s.port.station chars = .good f →
      (s.port.inbound.length < 2 → exec (.frameReceived chars) s =
        .next { s with port := { s.port with inbound := s.port.inbound ++ [f] } }) ∧
      (2 ≤ s.port.inbound.length → ∃ t, exec (.frameReceived chars) s = .next t ∧
        t.port.overruns = min 255 (s.port.overruns + 1) ∧ t.port.linkErrors = s.port.linkErrors ∧
        t.port.inbound = s.port.inbound ∧ Raised s t .frameOverrun)) ∧
  (∀ (s : State), s.powered = true →
    (∀ (f : Frame) (line : ReturnIdle), s.port.outbound.head? = some f → s.port.sending = none →
      (if s.port.ownFrame = true ∧ line.afterOther = false then 7 else 3) ≤ line.idle → exec (.frameSendStart line) s =
        .next { s with port := { s.port with
          sending := some f.bytes, ownFrame := s.port.ownFrame && !line.afterOther } }) ∧
    (∀ line : ReturnIdle, line.idle < (if s.port.ownFrame = true ∧ line.afterOther = false then 7 else 3) →
      exec (.frameSendStart line) s = .next s) ∧
    (s.port.sending ≠ none → exec .arbitrationLost s = .next { s with port := { s.port with sending := none } }) ∧
    (s.port.sending ≠ none → s.port.waiting = [] → exec .frameSent s =
      .next { s with port := { s.port with outbound := s.port.outbound.tail, sending := none, ownFrame := true } }) ∧
    (∀ f rest, s.port.sending ≠ none → s.port.waiting = f :: rest → exec .frameSent s =
      .next { s with port := { s.port with outbound := s.port.outbound.tail ++ [f], waiting := rest, sending := none
                                           ownFrame := true } }) ∧
    (s.port.inBreak = true → exec .breakEnd s = .next { s with port := { s.port with inBreak := false } }))

/-- A link reset empties the port, drops the WAIT and the suspended replies, frees the lane, arms the notice state and is
counted; it keeps the calendar, the options, the mask, the counters of the port and the lists of the other blocks named
here. With a FREE lane and no mode entry pending, the only frame afterwards is the NOTICE of a masked event or level. A bound
record fails ABORTED, and a bound order is READY again with a fresh expiry. Until the break's end no frame is received and no
request is taken. That a frame cut off leaves the guard time owed as it was is the model's choice (log 40). -/
def Obligations.LinkResetEmptiesThePort : Prop :=
  (∀ s : State, s.Up →
    (∃ t, exec .linkReset s = .next t ∧ t.port.inbound = [] ∧ t.port.sending = none ∧ t.port.inBreak = true ∧
      t.port.linkResets = min 255 (s.port.linkResets + 1) ∧ t.port.linkErrors = s.port.linkErrors ∧
      t.port.overruns = s.port.overruns ∧ t.req.wait = none ∧ t.req.entryTag = none ∧ t.lane.slot = none ∧
      t.req.mask = s.req.mask ∧ t.req.options = s.req.options ∧ t.cal = s.cal ∧ t.deadlines = s.deadlines ∧
      t.hold.entries = s.hold.entries ∧ t.fee.schedule = s.fee.schedule ∧ t.stmt.closed = s.stmt.closed ∧
      t.ord.next = s.ord.next ∧ t.port.ownFrame = s.port.ownFrame ∧ (∀ c, t.takes c = false) ∧
      ∀ chars, exec (.frameReceived chars) t = .next t) ∧
    (s.lane.slot = none → s.req.mode ≠ .setupPending → s.req.mode ≠ .standbyPending →
      exec .linkReset s = .next { s with
        port := { s.port with
          inbound := [], outbound := if s.conditions &&& s.req.mask = 0 then [] else [s.noticeFrame], waiting := []
          sending := none, inBreak := true
          linkResets := min 255 (s.port.linkResets + 1) }
        req := { s.req with
          armed := decide (s.conditions &&& s.req.mask = 0), wait := none, entryTag := none, reloadTag := none }
        ord := { s.ord with live := s.ord.live.map fun o => { o with prepTag := none } } })) ∧
  ∀ (s : State) (b : Binding), s.Working → s.Still → s.lane.slot = some b → ∃ t, exec .linkReset s = .next t ∧
    t.lane.slot = none ∧
    (∀ n p, b.owner = .record (.photo n) → s.cat.photo? n = some p → p.state.inFlight = true →
      t.cat = s.cat.photoFailed n .aborted ∧ t.pool.heldBy b.owner = 0 ∧ Raised s t .fileFailed) ∧
    (∀ p e, b.owner = .record (.page p.slot p.number p.version) → s.cat.Sound → p ∈ s.cat.pages →
      p.state.inFlight = true → s.cat.edition? p.slot = some e → PageFails s t p e .aborted) ∧
    ∀ n, b.owner = .order n → t.ord.live = s.ord.live.map (fun o =>
      if o.number = n then { o with prepTag := none, state := .ready, readyTicks := 153600 } else { o with prepTag := none })

/-- LINK STATUS reports the port and the lane as they stand when it is taken, and clears the counters when asked to. That its own
frame has left the inbound buffer when the frames in it are counted is the model's choice (log 37). -/
def Obligations.LinkStatusReportsThenClears : Prop :=
  ∀ (s : State) (tag clear : U8), s.Ready (.linkStatus tag clear) →
    exec (.linkStatus tag clear) s = .next (State.replied
      { s with port := if clear = 0 then s.port else { s.port with linkErrors := 0, overruns := 0, linkResets := 0 } }
      0x1B tag .ok
      (u8 s.port.rate.toNat ++ u8 s.port.station.toNat ++ u8 s.port.linkErrors ++ u8 s.port.overruns ++
        u8 s.port.linkResets ++ u8 (s.port.inbound.length - 1) ++ u8 s.port.outbound.length ++ u8 0 ++
        laneFields s.lane.slot)) ∧
    laneFields none = List.replicate 17 0 ∧
    ∀ (n count moved ticks : Nat) (crc : U32), laneFields (some ⟨.order n, true, count, moved, crc, .bound ticks⟩) =
      [1, 2, 3] ++ u32 n ++ u32 count ++ u32 moved ++ u16 ticks

/-! ### The body lane -/

/-- Select and the clock: the first assertion makes a BOUND slot ACTIVE, each edge moves one byte and adds to the check, and
clocks on a slot that is not ACTIVE move nothing. -/
def Obligations.LaneMovesBytesWhileSelected : Prop :=
  ∀ (s : State) (b : Binding) (data : U8), s.powered = true → s.lane.slot = some b →
    (∀ n, s.lane.select = false → b.state = .bound n → exec .selectAsserted s =
      .next { s with lane := { s.lane with
        select := true, slot := some { b with state := .active }
        out := if b.outbound then (s.pool.content b.owner)[b.moved]? else none } }) ∧
    (∀ n, b.state = .bound n → s.lane.trailing = false → exec (.byteMoved data) s = .next s) ∧
    (s.lane.select = true → b.state = .active → b.moved + 1 < b.count → b.outbound = false →
      exec (.byteMoved data) s = .next { s with
        pool := s.pool.putContent b.owner (s.pool.content b.owner ++ [data])
        lane := { s.lane with
          slot := some { b with moved := b.moved + 1, crc := crc32Byte b.crc data }, out := none } }) ∧
    (∀ x, s.lane.select = true → b.state = .active → b.moved + 1 < b.count → b.outbound = true →
      (s.pool.content b.owner)[b.moved]? = some x → exec (.byteMoved data) s = .next { s with
        lane := { s.lane with
          slot := some { b with moved := b.moved + 1, crc := crc32Byte b.crc x }
          out := (s.pool.content b.owner)[b.moved + 1]? } })

/-- The byte that reaches the count completes the transfer: an inbound body with its declared check makes the record STAGED, one
with another check makes it FAILED with BODY_CHECK, and an outbound body makes its order DONE and the lane drive FF hex. A STAGED
record becomes WRITING as its WRITE BODY is handed off, or fails STORE_OFFLINE while the link is not ONLINE: that is a change of its
own, which follows at once in the same step, unless a query waits that is taken between the two; after such queries, or before any
other command that acts, it is made. Which queries come between (log 10), the finished list's copy of an order (log 16) and the
lane's FF hex from the transfer's end on (log 24) are the model's choices. -/
def Obligations.LastByteEndsTheTransfer : Prop :=
  (∀ (s : State) (b : Binding) (data : U8), s.Working → s.lane.slot = some b → s.lane.select = true → b.state = .active →
    b.moved + 1 = b.count →
    let check := crc32End (crc32Byte b.crc data)
    let taken (cat : Catalogue) : State := { s with
      lane := { s.lane with slot := none, out := none }
      pool := s.pool.putContent b.owner (s.pool.content b.owner ++ [data]), cat := cat }
    (∀ (n : U32) (p : Photo), b.outbound = false → b.owner = .record (.photo n) → s.cat.photo? n = some p →
      p.declared = check → exec (.transferComplete data) s = .next (State.close (taken (s.cat.withPhoto n fun p =>
        if p.state = .receiving then { p with state := .staged } else p))).handAtOnce) ∧
    (∀ p, b.outbound = false → b.owner = .record (.page p.slot p.number p.version) →
      s.cat.page? p.slot p.number p.version = some p → p.state = .receiving → p.declared = check →
      exec (.transferComplete data) s = .next (State.close (taken (s.cat.withPage p.slot p.number p.version fun p =>
        if p.state = .receiving then { p with state := .staged } else p))).handAtOnce) ∧
    (∀ (n : U32) (p : Photo), b.outbound = false → b.owner = .record (.photo n) → s.cat.photo? n = some p →
      p.declared ≠ check → s.Still → 0 < s.pool.heldBy b.owner →
      exec (.transferComplete data) s = .next (State.close { (s.latch .fileFailed) with
        lane := { s.lane with slot := none, out := none }
        pool := s.pool.without b.owner
        cat := s.cat.photoFailed n .bodyCheck })) ∧
    (∀ p e, b.outbound = false → b.owner = .record (.page p.slot p.number p.version) → s.cat.Sound → p ∈ s.cat.pages →
      p.state.inFlight = true → s.cat.edition? p.slot = some e → p.declared ≠ check → s.Still →
      ∃ t, exec (.transferComplete data) s = .next t ∧ t.lane.slot = none ∧ PageFails s t p e .bodyCheck) ∧
    (∀ (n : Nat) (o : Order), b.outbound = true → b.owner = .order n → s.order? n = some o → s.Still →
      ∃ t, exec (.transferComplete data) s = .next t ∧
        t.lane = { s.lane with slot := none, out := some 0xFF, trailing := true } ∧
        t.ord.live = s.ord.live.filter (fun x => x.number != n) ∧
        t.ord.finished = (s.ord.finished ++ [o.finishedCopy .done .ok]).drop (s.ord.finished.length + 1 - 16) ∧
        t.pool.heldBy (.order n) = 0)) ∧
  (∀ (s : State) (i : Nat), s.link.Takes i →
    (∀ p, s.cat.staged? = some (.photo p.number) → s.cat.photo? p.number = some p → s.handStaged = { s with
      cat := s.cat.withPhoto p.number fun p => { p with state := .writing, filedOn := some s.cal.day }
      link := s.link.occupy i (.writeIntake (.photo p.number) (p.grid.cols * p.grid.rows * 4096)
        (.photo { indexPhoto p with filedOn := s.cal.day })) }) ∧
    ∀ p, s.cat.staged? = some (.page p.slot p.number p.version) → s.cat.page? p.slot p.number p.version = some p →
      s.handStaged = { s with
        cat := s.cat.withPage p.slot p.number p.version fun p => { p with state := .writing }
        link := s.link.occupy i (.writeIntake (.page p.slot p.number p.version) (p.grid.cols * p.grid.rows * 4096)
          (.page (s.cat.indexPage p))) }) ∧
  (∀ (s : State) (r : RecId), s.powered = true → s.cat.staged? = some r → s.handStaged.endChange.Unstaged →
    (∀ c, s.takes c = true → (encodeRequest c).isSome → c.reads = false → exec c s = exec c s.handStaged.endChange) ∧
    exec .linkReset s = exec .linkReset s.handStaged.endChange ∧
    exec .baseTick s = exec .baseTick s.handStaged.endChange ∧
    ∀ at_ ans, exec (.intakeWriteCompletion at_ ans) s.handStaged.endChange ≠ .next s.handStaged.endChange →
      exec (.intakeWriteCompletion at_ ans) s = exec (.intakeWriteCompletion at_ ans) s.handStaged.endChange) ∧
  (∀ s : State,
    (s.queryWaits = true ↔ ∃ f rest, s.port.inbound = f :: rest ∧ (decodeRequest f.kind f.tag f.body).reads = true ∧
      s.takes (decodeRequest f.kind f.tag f.body) = true) ∧
    (s.queryWaits = true ∨ s.Unstaged → s.handAtOnce = s) ∧
    ∀ r, s.queryWaits = false → s.cat.staged? = some r → s.handAtOnce = s.handStaged.endChange) ∧
  ∀ (s : State) (p : Photo), s.agenda = [] → s.req.mode = .service → s.pool.claims = [] → s.link.state ≠ .online →
    s.cat.staged? = some (.photo p.number) → s.cat.photo? p.number = some p →
    0 < s.pool.heldBy (.record (.photo p.number)) → s.handStaged.endChange = State.close { (s.latch .fileFailed) with
      cat := s.cat.withPhoto p.number fun p => { p with
        state := .failed, outcome := .storeOffline, filedOn := some s.cal.day }
      pool := s.pool.without (.record (.photo p.number)) }

/-- A transfer that ends short, expired or cancelled makes its record FAILED with the ending's outcome, a page's references
lowered and the close of its edition ended where it was the last, or its order READY with a fresh ready expiry; the slot is FREE,
and a cancel reports direction, count and bytes moved. That an expiry or a cancel stops the lane's data, and keeps FF hex for the
next clock edge, where select is still asserted after an earlier complete outbound transfer, is the model's choice (log 38). -/
def Obligations.TransferThatEndsEarly : Prop :=
  (∀ (s : State) (b : Binding) (n : U32), s.Working → s.Still → s.lane.slot = some b → b.owner = .record (.photo n) →
    0 < s.pool.heldBy b.owner →
    let failed (code : Code) (l : Lane) : State := { (s.latch .fileFailed) with
      lane := l, pool := s.pool.without b.owner
      cat := s.cat.photoFailed n code }
    (b.state = .active → s.lane.select = true → exec .selectReleased s =
      .next (failed .bodyShort { slot := none, select := false, out := none, trailing := false }).close) ∧
    (b.state = .bound 0 → exec .laneBindExpiry s =
      .next (failed .expired { s.lane with slot := none, out := none }).close) ∧
    (∀ tag, s.takes (.cancelTransfer tag) = true → exec (.cancelTransfer tag) s =
      .next (State.close ((failed .aborted { s.lane with slot := none, out := none }).popped.answer 0x1A tag .ok
        (u8 (if b.outbound then 2 else 1) ++ u32 b.count ++ u32 b.moved))))) ∧
  (∀ (s : State) (b : Binding) (p : Page) (e : Edition) (c : Instr) (code : Code), s.Working → s.Still →
    s.lane.slot = some b → b.owner = .record (.page p.slot p.number p.version) → s.cat.Sound → p ∈ s.cat.pages →
    p.state.inFlight = true → s.cat.edition? p.slot = some e →
    (c = .selectReleased ∧ b.state = .active ∧ s.lane.select = true ∧ code = .bodyShort ∨
      c = .laneBindExpiry ∧ b.state = .bound 0 ∧ code = .expired ∨
      (∃ tag, c = .cancelTransfer tag ∧ s.takes c = true) ∧ code = .aborted) →
    ∃ t, exec c s = .next t ∧ t.lane.slot = none ∧ PageFails s t p e code) ∧
  (∀ (s : State) (b : Binding) (n : Nat), s.Working → s.lane.slot = some b → b.owner = .order n →
    let ready (l : Lane) : State := State.withOrder { s with lane := l } n fun o =>
      { o with state := .ready, readyTicks := 153600 }
    (b.state = .active → s.lane.select = true → exec .selectReleased s =
      .next (ready { slot := none, select := false, out := none, trailing := false }).close) ∧
    (b.state = .bound 0 → exec .laneBindExpiry s = .next (ready { s.lane with slot := none, out := none }).close) ∧
    (∀ tag, s.takes (.cancelTransfer tag) = true → exec (.cancelTransfer tag) s =
      .next (State.close ((ready { s.lane with slot := none, out := none }).popped.answer 0x1A tag .ok
        (u8 (if b.outbound then 2 else 1) ++ u32 b.count ++ u32 b.moved))))) ∧
  (∀ (s : State) (tag : U8), s.Ready (.cancelTransfer tag) → s.lane.slot = none →
    exec (.cancelTransfer tag) s = .next (s.replied 0x1A tag .badState [])) ∧
  (∀ (s : State), s.Up → s.lane.slot = none → s.lane.select = true → exec .selectReleased s =
    .next { s with lane := { slot := none, select := false, out := none, trailing := false } })

/-! ### Requests of no job -/

/-- IDENTIFY, taken in every mode: in STANDBY it has woken the part, so it reports SERVICE. That a STAGED record's write is
handed off behind its reply is the model's choice (log 10). -/
def Obligations.IdentifyReportsThePart : Prop :=
  ∀ (s : State) (tag : U8), s.takes (.identify tag) = true → ∃ t, exec (.identify tag) s = .next t ∧
    FirstSent s t (s.replyFrame 0x01 tag .ok
      ([0x07, 0x40] ++ [1] ++ u8 s.port.station.toNat ++
        u8 (if s.req.mode = .standby then 2 else s.req.mode.toNat) ++
        u8 64 ++ u16 2048 ++ u16 4096 ++ u8 128 ++ u8 32 ++ u8 8 ++ u8 16 ++ u8 8 ++ u8 32 ++ u8 4 ++ u8 64 ++ u8 32 ++
        u16 512 ++ u8 2)) ∧
    (s.Calm → s.Awake → t = s.reported 0x01 tag .ok
      ([0x07, 0x40] ++ [1] ++ u8 s.port.station.toNat ++ u8 s.req.mode.toNat ++
        u8 64 ++ u16 2048 ++ u16 4096 ++ u8 128 ++ u8 32 ++ u8 8 ++ u8 16 ++ u8 8 ++ u8 32 ++ u8 4 ++ u8 64 ++ u8 32 ++
        u16 512 ++ u8 2))

/-- A reply names the station plus 80 hex, the request's kind plus 80 hex and its tag, and its body begins with the outcome;
a kind that names no request is refused UNKNOWN_REQUEST. The outcome codes, and the fields of one, two and four bytes, most
significant byte first. -/
def Obligations.ReplyFormAndUnknownKinds : Prop :=
  (∀ (s : State) (kind tag : U8) (code : Code) (fields : List U8), s.replyFrame kind tag code fields =
    { station := 0x80 + s.port.station.setWidth 8, kind := kind + 0x80, tag := tag
      body := BitVec.ofNat 8 code.toNat :: fields }) ∧
  (∀ (s : State) (tag kind : U8), kind.toNat ∉ requestKinds → s.Ready (.unknownRequest tag kind) →
    exec (.unknownRequest tag kind) s = .next (s.replied kind tag .unknownRequest [])) ∧
  (0x7F ∉ requestKinds ∧ ∀ kind : U8, 0x80 ≤ kind.toNat → kind.toNat ∉ requestKinds) ∧
  ([Code.ok, .pending, .unknownRequest, .notInService, .badState, .busy, .notFound, .duplicate, .outOfRange, .tableFull,
      .stagingFull, .laneBusy, .storeOffline, .storeFault, .storeTimeout, .bodyShort, .bodyCheck, .aborted, .expired,
      .calendarUnset, .calendarRunning, .editionClosed, .editionOpen, .pageOutOfPlan, .versionLimit, .photoNotFiled,
      .placementInvalid, .notFiled, .notInVolume, .notResident, .sealed, .levelLimit, .held, .rightsExpired, .limitViolation,
      .alreadyCharged, .orderNumbersExhausted].map Code.toNat = List.range 37 ∧
    ∀ a b c d : U8, u8 a.toNat = [a] ∧ u16 (a.toNat * 256 + b.toNat) = [a, b] ∧
      u32 (((a.toNat * 256 + b.toNat) * 256 + c.toNat) * 256 + d.toNat) = [a, b, c, d])

/-- START SERVICE by the mode. -/
def Obligations.StartServiceByTheMode : Prop :=
  ∀ (s : State) (tag : U8), s.Ready (.startService tag) →
    (s.req.mode = .setup → s.cat.reloading = true →
      exec (.startService tag) s = .next (s.replied 0x02 tag .busy [])) ∧
    (s.req.mode = .setup → s.cat.reloading = false → ∃ t, exec (.startService tag) s = .next t ∧
      t.req.mode = .service ∧ Raised s t .modeChanged ∧ FirstSent s t (s.replyFrame 0x02 tag .ok [])) ∧
    (∀ kind : U8, (s.req.mode = .setupPending ∧ kind = 0x03 ∨ s.req.mode = .standbyPending ∧ kind = 0x04) →
      ∃ t, exec (.startService tag) s = .next t ∧ t.req.mode = .service ∧ Raised s t .modeChanged ∧
        FirstSent s t (s.replyFrame 0x02 tag .ok []) ∧ t.req.entryTag = none ∧
        ∀ g, s.req.entryTag = some g → Sent t (s.replyFrame kind g .aborted [])) ∧
    (s.req.mode = .service → exec (.startService tag) s = .next (s.replied 0x02 tag .ok []))

/-- ENTER SETUP and ENTER STANDBY: refused by the mode or by what is open, else the entry is pending, and it completes, in the
same change or at a later one, when what it waits for holds; its suspended reply is formed unless a link reset lost it. An entry to
STANDBY that waits for the lane alone completes in the change of the last byte, which makes the photograph STAGED; its WRITE BODY
is handed off at once behind it (log 10). -/
def Obligations.ModeEntriesPendAndComplete : Prop :=
  ((∀ (s : State) (tag : U8), s.Ready (.enterSetup tag) →
    (s.req.mode = .setup → exec (.enterSetup tag) s = .next (s.replied 0x03 tag .ok [])) ∧
    (s.req.mode = .setupPending → exec (.enterSetup tag) s = .next (s.replied 0x03 tag .busy [])) ∧
    (s.req.mode = .standbyPending → exec (.enterSetup tag) s = .next (s.replied 0x03 tag .badState [])) ∧
    (s.req.mode = .service →
      if (∃ e ∈ s.cat.editions, e.any (fun x => x.state == .opened) = true) ∨ ∃ o ∈ s.ord.live, o.state.isHeld = true then
        exec (.enterSetup tag) s = .next (s.replied 0x03 tag .badState [])
      else ∃ t, exec (.enterSetup tag) s = .next t ∧
        if s.setupReady then t.req.mode = .setup ∧ Raised s t .modeChanged ∧ Sent t (s.replyFrame 0x03 tag .ok [])
        else t = { s.popped with req := { s.req with mode := .setupPending, entryTag := some tag } })) ∧
  ∀ (s : State) (tag : U8), s.Ready (.enterStandby tag) →
    (s.req.mode = .setup ∨ s.req.mode = .setupPending →
      exec (.enterStandby tag) s = .next (s.replied 0x04 tag .badState [])) ∧
    (s.req.mode = .standbyPending → exec (.enterStandby tag) s = .next (s.replied 0x04 tag .busy [])) ∧
    (s.req.mode = .service →
      if ∃ e ∈ s.cat.editions, e.any (fun x => x.state == .opened || x.state == .closing) = true then
        exec (.enterStandby tag) s = .next (s.replied 0x04 tag .badState [])
      else ∃ t, exec (.enterStandby tag) s = .next t ∧
        if s.standbyReady then t.req.mode = .standby ∧ Raised s t .modeChanged ∧ Sent t (s.replyFrame 0x04 tag .ok [])
        else t = { s.popped with req := { s.req with mode := .standbyPending, entryTag := some tag } })) ∧
  (∀ s : State, s.powered = true → s.agenda = [] →
    (s.req.mode = .setupPending → (∀ e ∈ s.cat.editions, e.all (fun x => x.state != .closing && x.state != .sealing) = true) →
      s.eng.jobs = [] → (∀ o ∈ s.ord.live, o.state = .charged) → (∀ p ∈ s.cat.pages, p.state = .filed ∨ p.state = .failed) →
      (∀ p ∈ s.cat.photos, p.state = .filed ∨ p.state = .failed) → (∀ op ∈ s.link.held, op = .probe) →
      ∃ t, exec .setupEntryComplete s = .next t ∧ t.req.mode = .setup ∧ Raised s t .modeChanged ∧
        ∀ g, s.req.entryTag = some g → Sent t (s.replyFrame 0x03 g .ok [])) ∧
    (s.req.mode = .standbyPending → s.Unstaged → (∀ op ∈ s.link.held, op = .probe) → s.eng.jobs = [] →
      (∀ o ∈ s.ord.live, o.state ≠ .preparing) → s.lane.slot = none →
      ∃ t, exec .standbyEntryComplete s = .next t ∧ t.req.mode = .standby ∧ Raised s t .modeChanged ∧
        ∀ g, s.req.entryTag = some g → Sent t (s.replyFrame 0x04 g .ok []))) ∧
  (∀ s : State,
    (s.setupReady = true ↔ (∀ e ∈ s.cat.editions, ∀ x ∈ e, x.state ≠ .closing ∧ x.state ≠ .sealing) ∧ s.eng.jobs = [] ∧
      (∀ o ∈ s.ord.live, o.state = .charged) ∧ (∀ p ∈ s.cat.pages, p.state = .filed ∨ p.state = .failed) ∧
      (∀ p ∈ s.cat.photos, p.state = .filed ∨ p.state = .failed) ∧ ∀ op ∈ s.link.held, op = .probe) ∧
    (s.standbyReady = true ↔ (∀ op ∈ s.link.held, op = .probe) ∧ s.eng.jobs = [] ∧
      (∀ o ∈ s.ord.live, o.state ≠ .preparing) ∧ s.lane.slot = none)) ∧
  ∀ (s : State) (b : Binding) (data : U8) (n : U32) (p : Photo), s.powered = true → s.agenda = [] → s.Unstaged →
    s.req.mode = .standbyPending → s.lane.slot = some b → s.lane.select = true → b.state = .active → b.moved + 1 = b.count →
    b.outbound = false → b.owner = .record (.photo n) → s.cat.photo? n = some p → p.state = .receiving →
    p.declared = crc32End (crc32Byte b.crc data) → (∀ op ∈ s.link.held, op = .probe) → s.eng.jobs = [] →
    (∀ o ∈ s.ord.live, o.state ≠ .preparing) → ∃ t, exec (.transferComplete data) s = .next t ∧ t.req.mode = .standby ∧
      (s.port.inbound = [] → s.link.state = .online → (t.cat.photo? n).map Photo.state = some .writing) ∧
      Raised s t .modeChanged ∧
      ∀ g, s.req.entryTag = some g → Sent t (s.replyFrame 0x04 g .ok [])

/-- SET OPTION takes an option's value, clamped or refused as the table says, and READ OPTIONS reports the four. That a
reply gives the value in force of the fourth option as 0 or 1 is the model's choice (log 30).
That a STAGED record's write is handed off behind a reading request's reply is the model's choice (log 10). -/
def Obligations.OptionsAreSetAndRead : Prop :=
  (∀ (s : State) (tag number : U8) (v : U16), s.Ready (.setOption tag number v) →
    let set (o : Options) (n : Nat) : Host.Outcome State Fault Refusal :=
      .next (State.replied { s with req := { s.req with options := o } } 0x05 tag .ok (number :: u16 n))
    (number = 1 → exec (.setOption tag number v) s =
      set { s.req.options with retention := max 1 (min 30 v.toNat) } (max 1 (min 30 v.toNat))) ∧
    (number = 2 → exec (.setOption tag number v) s =
      set { s.req.options with lead := min 60 v.toNat } (min 60 v.toNat)) ∧
    (number = 3 → v.toNat ≤ 23 → exec (.setOption tag number v) s =
      set { s.req.options with boundary := v.toNat } v.toNat) ∧
    (number = 4 → exec (.setOption tag number v) s =
      set { s.req.options with autoResume := decide (v ≠ 0) } (if v = 0 then 0 else 1)) ∧
    (number = 0 ∨ 4 < number.toNat ∨ number = 3 ∧ 23 < v.toNat → exec (.setOption tag number v) s =
      .next (s.replied 0x05 tag .outOfRange []))) ∧
  ∀ (s : State) (tag : U8), s.Asked (.readOptions tag) → exec (.readOptions tag) s =
    .next (s.reported 0x06 tag .ok
      (u8 s.req.options.retention ++ u8 s.req.options.lead ++ u8 s.req.options.boundary ++
        [if s.req.options.autoResume then 1 else 0]))

/-- READ NOTICES reports and clears the latched events and arms the flag; SET NOTICE MASK replaces the mask. A masked event
or level then brings a NOTICE at once. Each event has its bit, and a level's bit is set while its condition is true. That the mask
as stored, not as sent, arms the flag is the model's choice (log 39). -/
def Obligations.NoticesAreReadAndMasked : Prop :=
  (∀ (s : State) (tag : U8), s.Ready (.readNotices tag) → ∃ t, exec (.readNotices tag) s = .next t ∧
    FirstSent s t (s.replyFrame 0x08 tag .ok (u32 s.req.latched.toNat ++ u32 s.levels.toNat ++ u32 s.req.mask.toNat)) ∧
    t.req = { s.req with latched := 0, armed := decide (s.levels &&& s.req.mask = 0) } ∧
    (s.levels &&& s.req.mask ≠ 0 → Sent t (s.frame 0x7F 0 (u32 0 ++ u32 s.levels.toNat)))) ∧
  (∀ (s : State) (tag : U8) (mask : U32), s.Ready (.setNoticeMask tag mask) →
    let m := mask &&& 0x0F07FFFF#32
    ∃ t, exec (.setNoticeMask tag mask) s = .next t ∧ FirstSent s t (s.replyFrame 0x09 tag .ok (u32 m.toNat)) ∧
      t.req = { s.req with mask := m, armed := (s.req.armed || m != 0) && decide (s.conditions &&& m = 0) } ∧
      (s.conditions &&& m ≠ 0 → Sent t s.noticeFrame)) ∧
  ([Event.editionClosed, .deadlineClosed, .deadlineNear, .fileFailed, .sealDone, .sealFailed, .restoreDone, .restoreFailed,
      .orderHeld, .orderEnded, .readyExpired, .statementClosed, .statementFull, .storeOffline, .storeRecovered, .lineError,
      .frameOverrun, .modeChanged, .woken].map Event.bit = List.range 19) ∧
  ∀ (s : State) (i : Nat),
    (∀ e : Event, (s.latch e).req.latched.getLsbD i = true ↔ s.req.latched.getLsbD i = true ∨ i = e.bit) ∧
    (s.levels.getLsbD i = true ↔
      i = 24 ∧ (s.link.state = .offline ∨ s.link.state = .recovered) ∨
      i = 25 ∧ s.pool.segments.countP Option.isNone ≤ 40 ∨
      i = 26 ∧ 0 < s.stmt.current.missed ∨
      i = 27 ∧ ∃ o ∈ s.ord.live, o.state = .heldRights ∨ o.state = .heldStatement ∨ o.state = .heldFunds)

/-- WAIT: refused, suspended, or ended at once; it ends when its condition is met, and at its timeout. That a WAIT out of range is
refused OUT_OF_RANGE while another is suspended, and not BUSY, is the model's choice (log 43). -/
def Obligations.WaitEndsByConditionOrTimeout : Prop :=
  (∀ (s : State) (tag : U8) (mask : U32) (seconds : U16), s.Ready (.wait tag mask seconds) →
    (3600 < seconds.toNat ∨ mask = 0 ∧ seconds = 0 →
      exec (.wait tag mask seconds) s = .next (s.replied 0x0A tag .outOfRange [])) ∧
    (seconds.toNat ≤ 3600 → (mask ≠ 0 ∨ seconds ≠ 0) →
      (s.req.wait ≠ none → exec (.wait tag mask seconds) s = .next (s.replied 0x0A tag .busy [])) ∧
      (s.req.wait = none → s.conditions &&& mask = 0 →
        let w : WaitSlot := ⟨tag, mask, if seconds = 0 then none else some (seconds.toNat * 256)⟩
        exec (.wait tag mask seconds) s = .next { s.popped with req := { s.req with wait := some w } }) ∧
      (s.req.wait = none → s.conditions &&& mask ≠ 0 → exec (.wait tag mask seconds) s =
        .next (State.replied { s with req := { s.req with latched := s.req.latched &&& ~~~mask } } 0x0A tag .ok
          (u32 (s.req.latched &&& mask).toNat ++ u32 s.levels.toNat))))) ∧
  (∀ (s : State) (w : WaitSlot), s.powered = true → s.agenda = [] → s.Unstaged → s.entryDue = false → s.req.wait = some w →
    s.conditions &&& w.mask ≠ 0 → ∃ t, exec .waitMet s = .next t ∧ t.req.wait = none ∧
      t.req.latched = s.req.latched &&& ~~~w.mask ∧
      Sent t (s.replyFrame 0x0A w.tag .ok (u32 (s.req.latched &&& w.mask).toNat ++ u32 s.levels.toNat))) ∧
  ∀ (s : State) (w : WaitSlot), s.Up → s.req.wait = some w → w.ticks = some 0 → exec .waitTimeout s =
    .next { s with req := { s.req with wait := none }, port := s.port.put (s.replyFrame 0x0A w.tag .expired []) }

/-! ### Calendar, deadlines and the trade day -/

/-- A RUNNING calendar counts fractions through all five counters, and at the top of the day range the day holds while the
hour wraps; any other calendar is left by a tick. -/
def Obligations.CalendarCountsFractions : Prop :=
  let value (c : Calendar) : Nat := (((c.day * 24 + c.hour) * 60 + c.minute) * 60 + c.second) * 256 + c.fraction
  ∀ c : Calendar, c.Sound →
    (c.state ≠ .running → c.tick = c) ∧
    (c.state = .running → c.tick.state = .running ∧ c.tick.Sound ∧
      (c.day < 65535 ∨ value c + 1 < 65536 * 24 * 60 * 60 * 256 → value c.tick = value c + 1)) ∧
    (⟨.running, 255, 59, 59, 23, 65535⟩ : Calendar).tick = ⟨.running, 0, 0, 0, 0, 65535⟩

/-- BASE_TICK counts the calendar and raises the events of its transition; every timeout that runs loses a tick. What an
earlier tick left due and no command took is taken first: that order is the model's choice (log 8). -/
def Obligations.BaseTickCountsEverything : Prop :=
  ∀ s : State, s.powered = true →
    let raised : DueEvents :=
      { minute := if s.cal.minute ≠ s.cal.tick.minute then some s.cal.tick.now else none
        rollover := if s.cal.hour = 23 ∧ s.cal.tick.hour = 0 then some s.cal.tick.day else none
        boundary := if s.cal.hour ≠ s.cal.tick.hour ∧ s.cal.tick.hour = s.req.options.boundary then some s.cal.tick.day
          else none }
    (∃ t, exec .baseTick s = .next t ∧ t.cal = s.cal.tick ∧ t.events = raised) ∧
    (s.Unstaged → s.req.expiredWait? = none → s.lane.expired? = none → s.events = ⟨none, none, none⟩ →
      (∀ i, s.link.timedOut? i = none) → s.link.probeDue = false →
      (∀ o ∈ s.ord.live, o.state = .ready → o.readyTicks ≠ 0) →
      exec .baseTick s = .next { s with
        cal := s.cal.tick, events := raised
        link := { s.link with
          slots := s.link.slots.map fun sl =>
            { sl with occupant := sl.occupant.map fun r => { r with ticks := r.ticks - 1 } }
          probeTicks := s.link.probeTicks.map (· - 1) }
        lane := { s.lane with slot := s.lane.slot.map fun b =>
          match b.state with
          | .bound n => { b with state := .bound (n - 1) }
          | .active => b }
        ord := { s.ord with live := s.ord.live.map fun o =>
          if o.state = .ready then { o with readyTicks := o.readyTicks - 1 } else o }
        req := { s.req with wait := s.req.wait.map fun w => { w with ticks := w.ticks.map (· - 1) } } })

/-- SET TIME, RUN CALENDAR and STOP CALENDAR, with their refusals in order; a calendar that is not RUNNING has no event. READ
TIME, taken in every mode and calendar state, reports the state and the counters as they stand between two ticks; while
INVALID all are 0. That the events of the last tick which no command has taken are taken before a RUNNING calendar stops is
the model's choice (log 8).
That a STAGED record's write is handed off behind a reading request's reply is the model's choice (log 10). -/
def Obligations.CalendarIsSetRunStoppedAndRead : Prop :=
  ((∀ (s : State) (tag sec min hour : U8) (day : U16), s.Ready (.setTime tag sec min hour day) →
    exec (.setTime tag sec min hour day) s = .next
      (if s.cal.state = .running then s.replied 0x30 tag .calendarRunning []
      else if 59 < sec.toNat ∨ 59 < min.toNat ∨ 23 < hour.toNat then s.replied 0x30 tag .outOfRange []
      else State.replied { s with cal := ⟨.stopped, 0, sec.toNat, min.toNat, hour.toNat, day.toNat⟩ } 0x30 tag .ok [])) ∧
  (∀ (s : State) (tag : U8), s.Ready (.runCalendar tag) → exec (.runCalendar tag) s = .next
    (if s.cal.state = .invalid then s.replied 0x31 tag .calendarUnset []
    else State.replied { s with cal := { s.cal with state := .running } } 0x31 tag .ok [])) ∧
  (∀ (s : State) (tag : U8), s.Ready (.stopCalendar tag) →
    (s.cal.state = .invalid → exec (.stopCalendar tag) s = .next (s.replied 0x32 tag .calendarUnset [])) ∧
    (s.cal.state ≠ .invalid → (s.cal.state = .stopped ∨ s.events = ⟨none, none, none⟩) → exec (.stopCalendar tag) s =
      .next (State.replied { s with cal := { s.cal with state := .stopped } } 0x32 tag .ok [])) ∧
    (s.cal.state = .running → ∃ t, exec (.stopCalendar tag) s = .next t ∧ t.cal = { s.cal with state := .stopped } ∧
      t.events = ⟨none, none, none⟩ ∧ FirstSent s t (s.replyFrame 0x32 tag .ok []) ∧
      (∀ now, s.events.minute = some now → s.deadlines.Nodup → t.deadlines = s.deadlines.dropWhile fun slot =>
        (s.cat.deadlineOf slot).any fun d => decide (d ≤ now)) ∧
      (∀ day, s.events.rollover = some day → t.hold.entries = s.hold.entries.filter fun h =>
        h.untilDay.all fun d => decide (day ≤ d)) ∧
      ∀ day, s.events.boundary = some day → Raised s t .statementClosed ∨ 2 ≤ s.stmt.closed.length)) ∧
  ∀ s : State, s.cal.state ≠ .running → exec .minuteEvent s = .next s ∧ exec .dayRollover s = .next s ∧
    exec .tradeDayBoundary s = .next s) ∧
  (∀ (s : State) (tag : U8), s.takes (.readTime tag) = true →
    let fields := u8 (match s.cal.state with | .invalid => 0 | .stopped => 1 | .running => 2) ++ u16 s.cal.day ++
      u8 s.cal.hour ++ u8 s.cal.minute ++ u8 s.cal.second ++ u8 s.cal.fraction
    (∃ t, exec (.readTime tag) s = .next t ∧ t.cal = s.cal ∧ FirstSent s t (s.replyFrame 0x33 tag .ok fields) ∧
      (s.Calm → s.Awake → t = s.reported 0x33 tag .ok fields)) ∧
    (s.cal.Sound → s.cal.state = .invalid → fields = [0, 0, 0, 0, 0, 0, 0]))

/-- SET DEADLINE: its refusals in order, and its effect on an OPEN edition and on the list. -/
def Obligations.SetDeadlineReplacesTheDeadline : Prop :=
  ∀ (s : State) (tag : U8) (key : EditionKey) (d : DeadlineFields), s.Ready (.setDeadline tag key d) →
    let outOfRange := 15 < key.code.toNat ∨ d.flag ≠ 0 ∧ (23 < d.hour.toNat ∨ 59 < d.minute.toNat)
    (outOfRange → exec (.setDeadline tag key d) s = .next (s.replied 0x34 tag .outOfRange [])) ∧
    (¬outOfRange → s.cat.slotOf key = none → exec (.setDeadline tag key d) s = .next (s.replied 0x34 tag .notFound [])) ∧
    ∀ (slot : Nat) (e : Edition), ¬outOfRange → s.cat.slotOf key = some slot → s.cat.edition? slot = some e →
      (e.state ≠ .opened → exec (.setDeadline tag key d) s = .next (s.replied 0x34 tag .badState [])) ∧
      (e.state = .opened → d.flag ≠ 0 → s.cal.state = .invalid →
        exec (.setDeadline tag key d) s = .next (s.replied 0x34 tag .calendarUnset [])) ∧
      (e.state = .opened → d.flag = 0 → exec (.setDeadline tag key d) s = .next (State.replied { s with
        deadlines := s.deadlines.filter fun x => x != slot
        cat := s.cat.withEdition slot fun e => { e with deadline := none, warned := false } } 0x34 tag .ok [255])) ∧
      (e.state = .opened → d.flag ≠ 0 → s.cal.state ≠ .invalid →
        let new : Deadline := ⟨d.day.toNat, d.hour.toNat, d.minute.toNat⟩
        let cat := s.cat.withEdition slot fun e => { e with
          deadline := some new, warned := e.warned && decide (new.number ≤ s.cal.now + s.req.options.lead) }
        let list := insertDeadline (fun x => (cat.deadlineOf x).getD 0) slot (s.deadlines.filter fun x => x != slot)
        exec (.setDeadline tag key d) s = .next (State.replied { s with cat := cat, deadlines := list } 0x34 tag .ok
          (u8 (deadlinePosition list slot))))

/-- A deadline is inserted after every earlier or equal one and before every later one. LIST DEADLINES reports the list. That
its warned flag is spelled 1 when set is the model's choice (log 30).
That a STAGED record's write is handed off behind a reading request's reply is the model's choice (log 10). -/
def Obligations.DeadlineListKeepsItsOrder : Prop :=
  (∀ (num : Nat → Nat) (slot : Nat) (l : List Nat), l.Pairwise (fun a b => num a ≤ num b) →
    ∃ a b, insertDeadline num slot l = a ++ slot :: b ∧ l = a ++ b ∧ (∀ y ∈ a, num y ≤ num slot) ∧
      (∀ y ∈ b, num slot < num y) ∧ (insertDeadline num slot l).Pairwise (fun a b => num a ≤ num b)) ∧
  ∀ (s : State) (tag : U8), s.Asked (.listDeadlines tag) → exec (.listDeadlines tag) s =
    .next (s.reported 0x35 tag .ok
      (u8 s.req.options.lead ++ u8 s.deadlines.length ++ s.deadlines.flatMap s.cat.deadlineFields)) ∧
    ∀ (slot : Nat) (e : Edition) (x : Deadline), s.cat.edition? slot = some e → e.deadline = some x →
      s.cat.deadlineFields slot = u8 slot ++ u16 e.key.day.toNat ++ u8 e.key.code.toNat ++ u16 x.day ++ u8 x.hour ++
        u8 x.minute ++ [if e.warned then 1 else 0]

/-- A minute event fires the due heads of the list into a forced close, then warns the listed editions within the lead. The close of
an edition with no page on its way ends in the same change: CLOSED with its gap list and day, its CLOSE MARK handed off,
DEADLINE_CLOSED latched; with the link not ONLINE, every listed edition has a page on its way here. That the event waits as a mark,
with its minute, for its command is the model's choice (log 8). -/
def Obligations.MinuteEventFiresAndWarns : Prop :=
  ∀ (s : State) (now : Nat), s.Working → s.cal.state = .running → s.events.minute = some now → s.deadlines.Nodup →
    s.deadlines.length ≤ 64 → (s.link.state = .online ∨ ∀ slot ∈ s.deadlines, 0 < s.cat.inFlight slot) →
    let due (slot : Nat) : Bool := (s.cat.deadlineOf slot).any fun d => decide (d ≤ now)
    let fired := s.deadlines.takeWhile due
    let left := s.deadlines.dropWhile due
    let warned := left.filter fun slot => decide (s.req.options.lead ≠ 0) &&
      (s.cat.edition? slot).any (fun e => !e.warned) &&
      (s.cat.deadlineOf slot).any fun d => decide (d ≤ now + s.req.options.lead)
    ∃ t, exec .minuteEvent s = .next t ∧ t.events = { s.events with minute := none } ∧ t.deadlines = left ∧
      (∀ slot, t.cat.edition? slot = (s.cat.edition? slot).map fun e =>
        if slot ∈ fired ∧ s.cat.inFlight slot = 0 then { e with
          state := .closed, forced := true, deadline := none, closedOn := some s.cal.day
          gaps := some (s.cat.gapsOf slot e.planned) }
        else if slot ∈ fired then { e with state := .closing, forced := true, deadline := none }
        else if slot ∈ warned then { e with warned := true } else e) ∧
      t.cat.pages = s.cat.pages ∧ t.cat.photos = s.cat.photos ∧ (warned ≠ [] → Raised s t .deadlineNear) ∧
      ∀ slot e, slot ∈ fired → s.cat.inFlight slot = 0 → s.cat.edition? slot = some e → Raised s t .deadlineClosed ∧
        .closeMark slot ⟨e.key, e.planned, s.cal.day, s.cat.gapsOf slot e.planned, true, e.failedPages⟩ ∈ t.link.held

/-- A day rollover removes the holds that have run out and the orphan photographs, and re-evaluates the rights-held list when
a hold went: an order no longer matched is priced. A trade-day boundary wakes a part in STANDBY,
closes the open statement or counts the boundary as missed, and puts the due editions in the seal queue or, when pinned, marks
them due. That an event waits as a mark, with its day, for its command is the model's choice (log 8). -/
def Obligations.RolloverAndBoundaryDoTheirWork : Prop :=
  ((∀ (s : State) (day : Nat), s.Up → s.cal.state = .running → s.events.rollover = some day → ∃ t, exec .dayRollover s = .next t ∧
    t.events = { s.events with rollover := none } ∧
    t.hold.entries = s.hold.entries.filter fun h => h.untilDay.all fun d => decide (day ≤ d)) ∧
  (∀ (s : State) (day : Nat), s.Up → s.cal.state = .running → s.events.rollover = some day →
    let standing (h : Hold) : Bool := h.untilDay.all fun d => decide (day ≤ d)
    let swept (u : State) : Host.Outcome State Fault Refusal := .next (State.endChange { u with
      events := { s.events with rollover := none }
      hold := { u.hold with entries := s.hold.entries.filter standing }
      cat := { s.cat with photos := s.cat.photos.filter fun p =>
        !(p.state == .filed && p.refs == 0 && p.pins == 0 &&
          p.filedOn.any fun d => decide (d + s.req.options.retention < day)) } })
    let left : State := { s with hold := { s.hold with entries := s.hold.entries.filter standing } }
    (s.hold.held = [] ∨ (∀ h ∈ s.hold.entries, standing h = true) → exec .dayRollover s = swept s) ∧
    ∀ n o v a masked, (∃ h ∈ s.hold.entries, standing h = false) → left.unmatched = [n] → s.order? n = some o →
      s.orderView o = some v → s.fee.account? o.account = some a → left.holdCheck o v = .passed masked →
      exec .dayRollover s = swept (State.priced { left with
        hold := { left.hold with held := s.hold.held.filter fun m => m != n } } o v a))) ∧
  (∀ (s : State) (day : Nat), s.Up → s.cal.state = .running → s.events.boundary = some day →
    (s.req.mode = .standby → ∃ t, exec .tradeDayBoundary s = .next t ∧ t.req.mode = .service ∧ Raised s t .woken) ∧
    (s.Awake → s.stmt.closed.length < 2 → ∃ t, exec .tradeDayBoundary s = .next t ∧
      t.events = { s.events with boundary := none } ∧ Raised s t .statementClosed ∧
      t.stmt.closed = s.stmt.closed ++ [⟨s.stmt.current.number, s.stmt.current.firstDay, s.cal.day, s.stmt.current.missed,
        1, s.stmt.current.entries⟩] ∧
      t.stmt.current.number = nextStatement s.stmt.current.number ∧ t.stmt.current.firstDay = s.cal.day ∧
      t.stmt.current.missed = 0) ∧
    (s.Awake → 2 ≤ s.stmt.closed.length → ∃ t, exec .tradeDayBoundary s = .next t ∧
      t.events = { s.events with boundary := none } ∧ t.stmt.closed = s.stmt.closed ∧
      t.stmt.current.number = s.stmt.current.number ∧
      t.stmt.current.missed = min 65535 (s.stmt.current.missed + 1)) ∧
    (∀ head x, s.req.mode = .service → s.stmt.held = [] → s.vol.sealQueue.head? = some head →
      s.cat.edition? head = some x → x.state = .sealing → ∃ t, exec .tradeDayBoundary s = .next t ∧
        s.vol.sealQueue <+: t.vol.sealQueue ∧
        ∀ (slot d : Nat) (e : Edition), s.cat.edition? slot = some e → e.state = .closed → slot ∉ s.vol.sealQueue →
          e.closedOn = some d →
          (d + s.req.options.retention ≤ day → e.pins = 0 → slot ∈ t.vol.sealQueue) ∧
          (d + s.req.options.retention ≤ day → 0 < e.pins →
            slot ∉ t.vol.sealQueue ∧ (t.cat.edition? slot).map Edition.due = some true) ∧
          (day < d + s.req.options.retention → slot ∉ t.vol.sealQueue ∧ t.cat.edition? slot = some e)))

/-! ### The catalogue -/

/-- The queries of the catalogue, the store link, the seal queue, the recall table, the jobs and the orders: refused in the rules'
order, or answered with the fields of their rules, in order and width. They report what stands, also between a record's becoming
STAGED and the hand-off of its write, which then follows at once (log 10). That a flag byte is 1 when set (log 30), that a sealed target is reported under the
key of the slot that serves it (log 29) and that every field of a FREE recall slot is 0, its position too (log 31), are the
model's choices. -/
def Obligations.QueriesReportWhatStands : Prop :=
  let flag (b : Bool) : List U8 := if b then [1] else [0]
  let opt (x : Option U32) : List U8 := u32 (x.elim 0 BitVec.toNat)
  let flagged (d : Option Nat) : List U8 := d.elim [0, 0, 0] fun n => [1] ++ u16 n
  let points (p : Option Points) : List U8 := p.elim [0, 0, 0] fun x => [1] ++ u8 x.b ++ u8 x.w
  let edition (k : EditionKey) : List U8 := u16 k.day.toNat ++ u8 k.code.toNat
  let grid (g : Grid) : List U8 := u8 g.cols ++ u8 g.rows
  let place (p : Placement) : List U8 :=
    u32 p.photo.toNat ++ u8 p.firstCol.toNat ++ u8 p.firstRow.toNat ++ u8 p.cols.toNat ++ u8 p.rows.toNat
  let rights (r : Rights) : List U8 :=
    (match r.cls with | .staff => [0] | .agency => [1] | .freelance => [2] | .pub => [3]) ++ flagged r.untilDay ++ u8 r.group
  let kind (k : EntryKey) : List U8 := match k with | .page _ _ _ => [1] | .photo _ => [2]
  let named (k : EntryKey) : List U8 := match k with
    | .page e n v => edition e ++ u8 n ++ u8 v ++ u32 0
    | .photo n => List.replicate 5 0 ++ u32 n.toNat
  ((∀ (s : State) (tag : U8) (key : EditionKey), s.Asked (.queryEdition tag key) →
    (15 < key.code.toNat → exec (.queryEdition tag key) s = .next (s.reported 0x40 tag .outOfRange [])) ∧
    (key.code.toNat ≤ 15 → s.cat.slotOf key = none →
      exec (.queryEdition tag key) s = .next (s.reported 0x40 tag .notFound [])) ∧
    ∀ slot e, key.code.toNat ≤ 15 → s.cat.slotOf key = some slot → s.cat.edition? slot = some e →
      exec (.queryEdition tag key) s = .next (s.reported 0x40 tag .ok (u8 slot ++ u8 e.state.toNat ++ u8 e.planned ++
        (match e.deadline with
          | some x => [1] ++ u16 x.day ++ u8 x.hour ++ u8 x.minute
          | none => [0, 0, 0, 0, 0]) ++
        flag e.warned ++ flag e.forced ++ flag e.interrupted ++ flag e.due ++ u8 e.pins ++
        flagged e.closedOn ++ u16 e.failedPages ++ u16 (s.cat.pages.countP fun p => p.slot == slot) ++
        u8 (e.gaps.getD []).length ++ (e.gaps.getD []).flatMap u8))) ∧
  (∀ (s : State) (tag start : U8), s.Asked (.listEditions tag start) →
    (63 < start.toNat → exec (.listEditions tag start) s = .next (s.reported 0x41 tag .outOfRange [])) ∧
    (start.toNat ≤ 63 → s.cat.editions.length = 64 →
      let found := (List.range 64).filterMap fun i =>
        if start.toNat ≤ i then (s.cat.edition? i).map fun e => (i, e) else none
      let shown := found.take 32
      exec (.listEditions tag start) s = .next (s.reported 0x41 tag .ok (u8 shown.length ++
        u8 (if found.length ≤ 32 then 64 else shown.getLast?.elim 64 fun x => x.1 + 1) ++
        shown.flatMap fun x => u8 x.1 ++ edition x.2.key ++ u8 x.2.state.toNat ++ u8 x.2.pins)))) ∧
  (∀ (s : State) (tag : U8) (k : PageKey), s.Asked (.queryPage tag k) →
    let inRange := k.edition.code.toNat ≤ 15 ∧ 1 ≤ k.page.toNat ∧ k.page.toNat ≤ 128 ∧ k.version.toNat ≤ 7
    let fields (p : Page) : List U8 :=
      u8 p.slot ++ u8 p.number ++ u8 p.version ++ u8 p.sectionCode ++ u8 p.state.toNat ++ flag p.superseded ++ grid p.grid ++
        u32 p.declared.toNat ++ opt p.raw ++ opt p.current ++ opt p.stored ++ u8 p.level ++ points p.points ++
        u8 p.outcome.toNat ++ u8 (s.pool.heldBy (.record (.page p.slot p.number p.version))) ++ u8 p.placements.length ++
        p.placements.flatMap place
    (¬inRange → exec (.queryPage tag k) s = .next (s.reported 0x42 tag .outOfRange [])) ∧
    (inRange → s.cat.slotOf k.edition = none → exec (.queryPage tag k) s = .next (s.reported 0x42 tag .notFound [])) ∧
    ∀ slot, inRange → s.cat.slotOf k.edition = some slot →
      (k.version = 0 → exec (.queryPage tag k) s = .next
        (match s.cat.current? slot k.page.toNat with
          | none => s.reported 0x42 tag .notFiled []
          | some p => s.reported 0x42 tag .ok (fields p))) ∧
      (k.version ≠ 0 → exec (.queryPage tag k) s = .next
        (match s.cat.page? slot k.page.toNat k.version.toNat with
          | none => s.reported 0x42 tag .notFound []
          | some p => s.reported 0x42 tag .ok (fields p)))) ∧
  ∀ (s : State) (tag : U8) (n : U32), s.Asked (.queryPhoto tag n) →
    (n = 0 → exec (.queryPhoto tag n) s = .next (s.reported 0x43 tag .outOfRange [])) ∧
    (n ≠ 0 → exec (.queryPhoto tag n) s = .next
      (match s.cat.photo? n with
        | none => s.reported 0x43 tag .notFound []
        | some p => s.reported 0x43 tag .ok (u8 p.state.toNat ++ rights p.rights ++ grid p.grid ++ u32 p.declared.toNat ++
            opt p.raw ++ opt p.current ++ opt p.stored ++ u8 p.level ++ points p.points ++ u16 p.refs ++ u8 p.pins ++
            (if p.state = .filed then flagged p.filedOn else [0, 0, 0]) ++ u8 p.outcome.toNat ++
            u8 (s.pool.heldBy (.record (.photo p.number))))))) ∧
  ((∀ (s : State) (tag : U8), s.Asked (.queryStore tag) →
    exec (.queryStore tag) s = .next (s.reported 0x51 tag .ok
      (u8 s.link.state.toNat ++ u8 s.link.failures ++ u8 s.link.goodProbes ++
        u8 (s.link.slots.countP fun sl => sl.occupant.isSome) ++ u8 (s.link.waiting.countP Op.isFiling) ++
        u8 (s.link.waiting.countP fun op => !op.isFiling) ++ u8 s.link.discards ++ u16 s.link.dropped ++
        s.link.slots.flatMap fun sl => match sl.occupant with
          | none => [0, 0, 0]
          | some r => u8 r.op.code ++ u16 (if r.op = .probe then s.link.probeTicks.getD 0 else r.ticks)))) ∧
  (∀ (s : State) (tag : U8), s.Asked (.querySealing tag) →
    let status (slot : Nat) (e : Edition) : Nat :=
      if e.state = .sealing then 2
      else if (s.req.mode = .service ∨ s.req.mode = .setup) ∧ s.vol.sealQueue.head? = some slot ∧
          s.link.held.any (fun op => match op with | .closeMark x _ => x == slot | _ => false) = true then 1
      else 0
    exec (.querySealing tag) s = .next (s.reported 0x61 tag .ok
      (u8 s.vol.sealQueue.length ++ (s.vol.sealQueue.flatMap fun slot => match s.cat.edition? slot with
          | none => []
          | some e => u8 slot ++ edition e.key ++ u8 (status slot e)) ++
        u8 s.vol.waiters.length ++ s.vol.waiters.flatMap u32 ++
        match s.vol.lastSeal with
          | none => List.replicate 9 0
          | some r => [1] ++ edition r.key ++ u8 r.outcome.toNat ++ u32 r.volume.toNat))) ∧
  (∀ (s : State) (tag detail : U8), s.Asked (.queryRecall tag detail) →
    let held (r : RecallSlot) : List U8 := u8 (if r.copy.isSome then 2 else 1) ++ u8 r.pinners.length
    let line (i : Nat) : List U8 := match s.vol.slot? i with
      | none => List.replicate 20 0
      | some r => held r ++ u8 ((s.vol.lru.findIdx? fun j => j == i).getD 255) ++ kind r.key ++ u32 r.volume.toNat ++
          named r.key ++ match r.copy with
            | none => [0, 0, 0]
            | some (.page c) => u8 c.level ++ grid c.grid
            | some (.photo c) => u8 c.level ++ grid c.grid
    let copied (c : EntryCopy) : List U8 := match c with
      | .page c => u8 c.sectionCode ++ grid c.grid ++ u32 c.current.toNat ++ u32 c.stored.toNat ++ u8 c.level ++
          points c.points ++ u8 c.placed.length ++ c.placed.flatMap fun x => place x.place ++ rights x.rights ++
            grid x.grid ++ u32 x.current.toNat ++ u32 x.stored.toNat ++ u8 x.level
      | .photo c => rights c.rights ++ grid c.grid ++ u32 c.current.toNat ++ u32 c.stored.toNat ++ u8 c.level ++
          points c.points ++ u16 c.filedOn
    let one (i : Nat) : List U8 := match s.vol.slot? i with
      | none => List.replicate 16 0
      | some r => held r ++ kind r.key ++ u32 r.volume.toNat ++ named r.key ++ r.copy.elim [] copied
    exec (.queryRecall tag detail) s = .next
      (if 16 < detail.toNat then s.reported 0x62 tag .outOfRange []
      else if detail = 0 then s.reported 0x62 tag .ok
        (u8 (s.vol.table.countP Option.isNone) ++ u8 s.vol.lru.length ++ u8 s.vol.recallWait.length ++
          (List.range 16).flatMap line)
      else s.reported 0x62 tag .ok (one (detail.toNat - 1)))) ∧
  (∀ (s : State) (tag : U8) (job : U16), s.Asked (.queryRestore tag job) →
    let target (j : Job) (x : Target) : List U8 := match x with
      | .page _ n v => [1] ++ u32 0 ++ named (.page j.edition n v)
      | .photo n => [2] ++ u32 0 ++ named (.photo n)
      | .sealed v k => kind k ++ u32 v.toNat ++ named k
    let resolved (j : Job) : Target := match j.target, j.recallSlot.bind s.vol.slot? with
      | .sealed v _, some r => .sealed v r.key
      | x, _ => x
    let ready (j : Job) : Bool := match j.target with
      | .sealed _ _ => j.recallSlot.isSome
      | .page _ _ _ | .photo _ => true
    let active (j : Job) : Bool :=
      j.state == .claiming || j.state == .survey || j.state == .mapping || j.state == .writing
    let fields (j : Job) (x : Target) (segments : Nat) : List U8 :=
      u8 j.state.toNat ++ target j x ++ u8 (j.recallSlot.getD 255) ++ u16 j.low ++ u16 j.high ++ u8 j.span ++
        u32 (j.creator.getD 0) ++ u8 j.joiners.length ++ u8 j.need ++ u8 segments ++ u8 j.startLevel ++ points j.points ++
        u8 j.outcome.toNat
    (job = 0 → exec (.queryRestore tag job) s = .next (s.reported 0x72 tag .ok
      (u16 ((s.eng.jobs.find? active).elim 0 Job.number) ++ u8 s.eng.jobs.length ++ u8 s.eng.heldDiscards.length ++
        u16 s.eng.nextJob ++ s.eng.jobs.flatMap fun j =>
          u16 j.number ++ u8 j.state.toNat ++ target j j.target ++ flag (ready j)))) ∧
    (∀ j, job ≠ 0 → s.job? job.toNat = some j → exec (.queryRestore tag job) s =
      .next (s.reported 0x72 tag .ok (fields j (resolved j) (s.pool.heldBy (.job j.number))))) ∧
    (∀ j, job ≠ 0 → s.job? job.toNat = none → s.eng.finished.find? (fun j => j.number == job.toNat) = some j →
      exec (.queryRestore tag job) s = .next (s.reported 0x72 tag .ok (fields j j.target 0))) ∧
    (job ≠ 0 → (∀ j ∈ s.eng.jobs ++ s.eng.finished, j.number ≠ job.toNat) →
      exec (.queryRestore tag job) s = .next (s.reported 0x72 tag .notFound []))) ∧
  ∀ (s : State) (tag : U8) (n : U32), s.Asked (.queryOrder tag n) →
    let fields (o : Order) : List U8 :=
      u8 o.state.toNat ++ u8 o.outcome.toNat ++ u16 o.account ++ u8 o.useClass ++ u8 o.sizeClass ++ u8 o.copies ++
        flag o.restore ++ flag o.bearer ++ edition o.key ++ u8 o.page ++ u8 o.version ++ u8 (o.resolved.getD 0) ++
        opt o.photo ++ u32 o.volume.toNat ++ u8 (o.recallSlot.getD 255) ++ u16 (o.job.getD 0) ++ u8 o.masked ++
        u32 o.charged ++ u8 (o.maskSet.getD []).length ++ (o.maskSet.getD []).flatMap u8 ++
        u8 (s.pool.heldBy (.order o.number)) ++ u8 o.attempts ++ u32 o.readyTicks ++ u8 (o.lastPrep.elim 255 Code.toNat) ++
        u32 (o.prepared.elim 0 Prod.fst) ++ u32 (o.prepared.elim 0 fun x => x.2.toNat)
    (n = 0 → exec (.queryOrder tag n) s = .next (s.reported 0x7B tag .ok
      (u32 (if 4294967295 < s.ord.next then 0 else s.ord.next) ++ u8 s.ord.live.length ++
        u8 (s.ord.live.countP fun o => o.state == .preparing || o.state == .ready || o.state == .delivering) ++
        s.ord.live.flatMap fun o => u32 o.number ++ u8 o.state.toNat))) ∧
    (∀ o, n ≠ 0 → s.order? n.toNat = some o →
      exec (.queryOrder tag n) s = .next (s.reported 0x7B tag .ok (fields o))) ∧
    (∀ o, n ≠ 0 → s.order? n.toNat = none → s.ord.finished.find? (fun o => o.number == n.toNat) = some o →
      exec (.queryOrder tag n) s = .next (s.reported 0x7B tag .ok (fields o))) ∧
    (n ≠ 0 → (∀ o ∈ s.ord.live ++ s.ord.finished, o.number ≠ n.toNat) →
      exec (.queryOrder tag n) s = .next (s.reported 0x7B tag .notFound []))) ∧
  ([EdState.opened, .closing, .closed, .sealing].map EdState.toNat = [1, 2, 3, 4] ∧
    [RecState.receiving, .staged, .writing, .filed, .failed].map RecState.toNat = [0, 1, 2, 3, 4] ∧
    [LinkState.online, .offline, .recovered].map LinkState.toNat = [0, 1, 2] ∧
    [JobState.queued, .claiming, .survey, .mapping, .writing, .done, .failed].map JobState.toNat = [0, 1, 2, 3, 4, 5, 6] ∧
    [OrdState.accepted, .waitSeal, .recalling, .restoreWait, .pricing, .heldRights, .heldStatement, .heldFunds, .charged,
      .preparing, .ready, .delivering, .done, .cancelled, .retired, .ended].map OrdState.toNat = List.range 16 ∧
    ∀ op : Op, op.code = match op with
      | .writeIntake _ _ _ | .writeRestoration _ _ _ => 1
      | .readForJob _ _ _ | .readForOrder _ _ _ => 2
      | .freeBody _ _ => 3
      | .sealVolume _ _ => 4
      | .readEntry _ _ _ => 5
      | .amend _ _ _ _ _ _ => 6
      | .closeMark _ _ => 7
      | .indexRead => 8
      | .probe => 9)

/-- DROP PHOTO frees a FAILED record, or a FILED one that nothing places or pins, and refuses any other. RELOAD CATALOGUE hands
off an INDEX READ in SETUP with empty tables. The index that it returns is refused TABLE_FULL or STORE_FAULT, in that order,
which is the model's choice (log 32), or the tables are rebuilt from it: editions in ascending order of key, CLOSED by their
close mark or OPEN and interrupted, and every record FILED. The suspended reply is formed. -/
def Obligations.CatalogueIsDroppedFromAndReloaded : Prop :=
  (∀ (s : State) (tag : U8) (n : U32), s.Ready (.dropPhoto tag n) →
    (n = 0 → exec (.dropPhoto tag n) s = .next (s.replied 0x44 tag .outOfRange [])) ∧
    (n ≠ 0 → s.cat.photo? n = none → exec (.dropPhoto tag n) s = .next (s.replied 0x44 tag .notFound [])) ∧
    ∀ p, n ≠ 0 → s.cat.photo? n = some p →
      (p.state = .failed ∨ p.state = .filed ∧ p.refs = 0 ∧ p.pins = 0 → exec (.dropPhoto tag n) s =
        .next (State.replied { s with cat := { s.cat with photos := s.cat.photos.filter fun q => q.number != n } }
          0x44 tag .ok [])) ∧
      (p.state = .receiving ∨ p.state = .staged ∨ p.state = .writing ∨ p.state = .filed ∧ (p.refs ≠ 0 ∨ p.pins ≠ 0) →
        exec (.dropPhoto tag n) s = .next (s.replied 0x44 tag .badState []))) ∧
  ((∀ (s : State) (tag : U8), s.Ready (.reloadCatalogue tag) →
    (s.req.mode ≠ .setup ∨ s.cat.isEmpty = false →
      exec (.reloadCatalogue tag) s = .next (s.replied 0x45 tag .badState [])) ∧
    (s.req.mode = .setup → s.cat.isEmpty = true → s.cat.reloading = true →
      exec (.reloadCatalogue tag) s = .next (s.replied 0x45 tag .busy [])) ∧
    ∀ i, s.req.mode = .setup → s.cat.isEmpty = true → s.cat.reloading = false → s.link.Takes i →
      exec (.reloadCatalogue tag) s = .next { s.popped with
        cat := { s.cat with reloading := true }, link := s.link.occupy i .indexRead
        req := { s.req with reloadTag := some tag } }) ∧
  ∀ (s : State) (at_ : SlotTag), s.Up → s.req.mode = .setup → s.cat.reloading = true →
    s.link.answered? at_ (fun op => op == .indexRead) = some .indexRead →
    (∀ x : StoreIndex, ∃ (keys : List EditionKey) (t : State), exec (.indexReadCompletion at_ (.done x)) s = .next t ∧
      keys.Pairwise (fun a b => a.day.toNat < b.day.toNat ∨ a.day = b.day ∧ a.code.toNat < b.code.toNat) ∧
      (∀ k, k ∈ keys ↔ (∃ m ∈ x.marks, m.key = k) ∨ ∃ p ∈ x.pages, p.key = k) ∧
      t.link = s.link.served at_.slot.toNat .indexRead ∧ t.req.reloadTag = none ∧
      let exceeds := 64 < keys.length ∨ 2048 < x.pages.length ∨ 4096 < x.photos.length
      let broken := (∃ p ∈ x.pages, ∃ pl ∈ p.placements, ∀ q ∈ x.photos, q.number ≠ pl.photo) ∨
        ¬(x.marks.map CloseMark.key).Nodup ∨ ¬(x.pages.map fun p : IdxPage => (p.key, p.number, p.version)).Nodup ∨
        ¬(x.photos.map IdxPhoto.number).Nodup
      let refused (code : Code) := t.cat = { s.cat with reloading := false } ∧
        ∀ g, s.req.reloadTag = some g → Sent t (s.replyFrame 0x45 g code [])
      (exceeds → refused .tableFull) ∧ (¬exceeds → broken → refused .storeFault) ∧
      (¬exceeds → ¬broken →
        (∀ g, s.req.reloadTag = some g → Sent t (s.replyFrame 0x45 g .ok
          (u8 keys.length ++ u16 x.pages.length ++ u16 x.photos.length))) ∧
        t.cat.reloading = false ∧ t.cat.editions.length = 64 ∧ (∀ i, keys[i]? = none → t.cat.edition? i = none) ∧
        (∀ i k m, keys[i]? = some k → x.marks.find? (fun m => m.key == k) = some m → t.cat.edition? i =
          some ⟨k, .closed, m.planned, none, false, m.forced, false, false, 0, some m.closedOn, some m.gaps,
            m.failedPages⟩) ∧
        (∀ i k, keys[i]? = some k → (∀ m ∈ x.marks, m.key ≠ k) → ∃ planned, t.cat.edition? i =
          some ⟨k, .opened, planned, none, false, false, true, false, 0, none, none, 0⟩ ∧
          (∀ p ∈ x.pages, p.key = k → p.planned ≤ planned) ∧ ∃ p ∈ x.pages, p.key = k ∧ p.planned = planned) ∧
        t.cat.pages.length = x.pages.length ∧
        (∀ (i : Nat) (p : IdxPage), x.pages[i]? = some p → ∃ slot, keys[slot]? = some p.key ∧ t.cat.pages[i]? =
          some ⟨slot, p.number, p.version, p.sectionCode, .filed,
            decide (∃ q ∈ x.pages, q.key = p.key ∧ q.number = p.number ∧ p.version < q.version), p.grid, p.declared, p.raw,
            p.current, p.stored, p.level, p.points, p.placements, .ok⟩) ∧
        t.cat.photos.length = x.photos.length ∧
        ∀ (i : Nat) (p : IdxPhoto), x.photos[i]? = some p → t.cat.photos[i]? =
          some ⟨p.number, .filed, p.rights, p.grid, p.declared, p.raw, p.current, p.stored, p.level, p.points,
            (x.pages.map fun q => q.placements.countP fun pl => pl.photo == p.number).sum, 0, some p.filedOn, .ok⟩)) ∧
    (s.link.failures < 7 → ∃ t, exec (.indexReadCompletion at_ .mediaError) s = .next t ∧
      t.cat = { s.cat with reloading := false } ∧ t.link.failures = s.link.failures + 1 ∧ t.req.reloadTag = none ∧
      ∀ g, s.req.reloadTag = some g → Sent t (s.replyFrame 0x45 g .storeFault [])))

/-! ### Filing -/

/-- OPEN EDITION: its refusals in order, and the entry it opens in the lowest FREE slot; TABLE_FULL seals the oldest unpinned CLOSED
edition when the seal queue is empty. REPLAN EDITION: its refusals in order, and the plan it replaces. -/
def Obligations.EditionsAreOpenedAndReplanned : Prop :=
  (∀ (s : State) (tag : U8) (key : EditionKey) (planned : U8) (d : DeadlineFields),
    s.Ready (.openEdition tag key planned d) →
    let run := exec (.openEdition tag key planned d) s
    let inRange := 1 ≤ planned.toNat ∧ planned.toNat ≤ 128 ∧ key.code.toNat ≤ 15 ∧
      (d.flag = 0 ∨ d.hour.toNat ≤ 23 ∧ d.minute.toNat ≤ 59)
    (s.req.mode ≠ .service → run = .next (s.replied 0x21 tag .notInService [])) ∧
    (s.req.mode = .service → s.cal.state = .invalid → run = .next (s.replied 0x21 tag .calendarUnset [])) ∧
    (s.req.mode = .service → s.cal.state ≠ .invalid →
      (¬inRange → run = .next (s.replied 0x21 tag .outOfRange [])) ∧
      (inRange → s.cat.slotOf key ≠ none → run = .next (s.replied 0x21 tag .duplicate [])) ∧
      (inRange → s.cat.slotOf key = none → (∀ e ∈ s.cat.editions, e ≠ none) → PressureRefused s 0x21 tag run ∧
        ∃ t, run = .next t ∧ FirstSent s t (s.replyFrame 0x21 tag .tableFull [])) ∧
      ∀ slot, inRange → s.cat.slotOf key = none → s.cat.editions.findIdx? Option.isNone = some slot →
        let new (x : Option Deadline) : Edition := ⟨key, .opened, planned.toNat, x, false, false, false, false, 0, none,
          none, 0⟩
        (d.flag = 0 → slot ∉ s.deadlines → run = .next (State.replied
          { s with cat := s.cat.putEdition slot (some (new none)) } 0x21 tag .ok (u8 slot ++ [255]))) ∧
        (d.flag ≠ 0 →
          let cat := s.cat.putEdition slot (some (new (some ⟨d.day.toNat, d.hour.toNat, d.minute.toNat⟩)))
          let list := insertDeadline (fun x => (cat.deadlineOf x).getD 0) slot (s.deadlines.filter fun x => x != slot)
          run = .next (State.replied { s with cat := cat, deadlines := list } 0x21 tag .ok
            (u8 slot ++ u8 (deadlinePosition list slot)))))) ∧
  (∀ (s : State) (tag : U8) (key : EditionKey) (planned : U8), s.Ready (.replanEdition tag key planned) →
    let run := exec (.replanEdition tag key planned) s
    let inRange := key.code.toNat ≤ 15 ∧ 1 ≤ planned.toNat ∧ planned.toNat ≤ 128
    (s.req.mode ≠ .service → run = .next (s.replied 0x22 tag .notInService [])) ∧
    (s.req.mode = .service → ¬inRange → run = .next (s.replied 0x22 tag .outOfRange [])) ∧
    (s.req.mode = .service → inRange → s.cat.slotOf key = none → run = .next (s.replied 0x22 tag .notFound [])) ∧
    ∀ slot e, s.req.mode = .service → inRange → s.cat.slotOf key = some slot → s.cat.edition? slot = some e →
      (e.state ≠ .opened → run = .next (s.replied 0x22 tag .badState [])) ∧
      (e.state = .opened → (∃ p ∈ s.cat.pages, p.slot = slot ∧ planned.toNat < p.number) →
        run = .next (s.replied 0x22 tag .outOfRange [])) ∧
      (e.state = .opened → (∀ p ∈ s.cat.pages, p.slot = slot → p.number ≤ planned.toNat) →
        run = .next (State.replied { s with
          cat := s.cat.withEdition slot fun e => { e with planned := planned.toNat } } 0x22 tag .ok [planned])))

/-- FILE PAGE and FILE PHOTO: the checks in order, and the acceptance in one change: record, references, segments and lane; a
FAILED photo record of the number is taken in place. FILE PAGE's TABLE_FULL seals the oldest unpinned CLOSED edition when the seal
queue is empty. The layout check: grid, count, and placements inside the grid that share no
tile and no photograph. The next version is one more than the highest that any record of the page number holds, or 1. -/
def Obligations.FilingIsAcceptedOrRefused : Prop :=
  (∀ (s : State) (tag : U8) (f : FilePageFields), s.Ready (.filePage tag f) →
    let run := exec (.filePage tag f) s
    (s.req.mode ≠ .service → run = .next (s.replied 0x23 tag .notInService [])) ∧
    (s.req.mode = .service →
      (15 < f.key.code.toNat ∨ 25 < f.sectionCode.toNat → run = .next (s.replied 0x23 tag .outOfRange [])) ∧
      (f.key.code.toNat ≤ 15 → f.sectionCode.toNat ≤ 25 →
        (s.cat.slotOf f.key = none → run = .next (s.replied 0x23 tag .notFound [])) ∧
        ∀ slot e, s.cat.slotOf f.key = some slot → s.cat.edition? slot = some e →
          (e.state = .closing ∨ e.state = .closed → run = .next (s.replied 0x23 tag .editionClosed [])) ∧
          (e.state = .sealing → run = .next (s.replied 0x23 tag .badState [])) ∧
          (e.state = .opened →
            let v := s.cat.nextVersion slot f.page.toNat
            let segments := (f.cols.toNat * f.rows.toNat + 15) / 16
            let refusal : Option Code :=
              if f.page.toNat < 1 ∨ e.planned < f.page.toNat then some .pageOutOfPlan
              else if layoutFits f = false then some .placementInvalid
              else if s.cat.allFiled f.placements = false then some .photoNotFiled
              else if 7 < v then some .versionLimit
              else if 2048 ≤ s.cat.pages.length then some .tableFull
              else if s.lane.slot ≠ none then some .laneBusy
              else if s.pool.free < segments then some .stagingFull
              else none
            (∀ code, refusal = some code → code ≠ .tableFull → run = .next (s.replied 0x23 tag code [])) ∧
            (refusal = some .tableFull → PressureRefused s 0x23 tag run ∧
              ∃ t, run = .next t ∧ FirstSent s t (s.replyFrame 0x23 tag .tableFull [])) ∧
            (refusal = none → run = .next (State.answered { s with
              cat := Catalogue.raiseRefs { s.cat with pages := s.cat.pages ++
                [⟨slot, f.page.toNat, v, f.sectionCode.toNat, .receiving, false, ⟨f.cols.toNat, f.rows.toNat⟩, f.declared,
                  none, none, none, 0, none, f.placements, .pending⟩] } f.placements
              pool := s.pool.given (.record (.page slot f.page.toNat v)) segments
              lane := { s.lane with slot := some ⟨.record (.page slot f.page.toNat v), false,
                f.cols.toNat * f.rows.toNat * 4096, 0, 0xFFFFFFFF#32, .bound 15360⟩ } } 0x23 tag .ok
              (u8 v ++ u32 (f.cols.toNat * f.rows.toNat * 4096)))))))) ∧
  (∀ (s : State) (tag : U8) (f : FilePhotoFields), s.Ready (.filePhoto tag f) →
    let run := exec (.filePhoto tag f) s
    let refusal : Option Code :=
      if s.req.mode ≠ .service then some .notInService
      else if f.photo = 0 ∨ 3 < f.cls.toNat ∨ 7 < f.group.toNat ∨ f.cols = 0 ∨ 4 < f.cols.toNat ∨ f.rows = 0 ∨
          4 < f.rows.toNat then some .outOfRange
      else if ((s.cat.photo? f.photo).any fun p => p.state != .failed) = true then some .duplicate
      else if s.cat.photo? f.photo = none ∧ 4096 ≤ s.cat.photos.length then some .tableFull
      else if s.lane.slot ≠ none then some .laneBusy
      else if s.pool.free < 1 then some .stagingFull
      else none
    (∀ code, refusal = some code → run = .next (s.replied 0x24 tag code [])) ∧
    (refusal = none →
      let new : Photo := ⟨f.photo, .receiving,
        ⟨rightsOfCode f.cls.toNat, if f.untilFlag = 0 then none else some f.untilDay.toNat, f.group.toNat⟩,
        ⟨f.cols.toNat, f.rows.toNat⟩, f.declared, none, none, none, 0, none, 0, 0, none, .pending⟩
      run = .next (State.answered { s with
        cat := if s.cat.photo? f.photo = none then { s.cat with photos := s.cat.photos ++ [new] }
          else s.cat.withPhoto f.photo fun _ => new
        pool := s.pool.given (.record (.photo f.photo)) 1
        lane := { s.lane with slot := some ⟨.record (.photo f.photo), false, f.cols.toNat * f.rows.toNat * 4096, 0,
          0xFFFFFFFF#32, .bound 15360⟩ } } 0x24 tag .ok (u32 (f.cols.toNat * f.rows.toNat * 4096))))) ∧
  (∀ f : FilePageFields,
    let inside (p : Placement) (col row : Nat) : Prop := p.firstCol.toNat ≤ col ∧ col < p.firstCol.toNat + p.cols.toNat ∧
      p.firstRow.toNat ≤ row ∧ row < p.firstRow.toNat + p.rows.toNat
    layoutFits f = true ↔
      (1 ≤ f.cols.toNat ∧ f.cols.toNat ≤ 8 ∧ 1 ≤ f.rows.toNat ∧ f.rows.toNat ≤ 12) ∧ f.count.toNat ≤ 12 ∧
      f.placements.length = f.count.toNat ∧
      (∀ p ∈ f.placements, p.photo ≠ 0 ∧ 1 ≤ p.cols.toNat ∧ p.cols.toNat ≤ 4 ∧ 1 ≤ p.rows.toNat ∧ p.rows.toNat ≤ 4 ∧
        ∀ col row, inside p col row → 1 ≤ col ∧ col ≤ f.cols.toNat ∧ 1 ≤ row ∧ row ≤ f.rows.toNat) ∧
      f.placements.Pairwise fun p q => p.photo ≠ q.photo ∧ ∀ col row, ¬(inside p col row ∧ inside q col row)) ∧
  ∀ c : Catalogue,
    (∀ ps : List Placement, c.allFiled ps = true ↔ ∀ pl ∈ ps, ∃ p, c.photo? pl.photo = some p ∧ p.state = .filed) ∧
    ∀ slot number,
      (∀ p ∈ c.pages, p.slot = slot → p.number = number → p.version < c.nextVersion slot number) ∧
      (c.nextVersion slot number = 1 ∨
        ∃ p ∈ c.pages, p.slot = slot ∧ p.number = number ∧ c.nextVersion slot number = p.version + 1)

/-- The completion of an intake write: FILED with the locator when the store's check is the declared one, FAILED with
BODY_CHECK and a FREE BODY when it is not, FAILED with STORE_FAULT on any other answer; the last page on its way of a CLOSING
edition ends the close in the same change. That the failed-page count stays at
65,535 once it is there is the model's deduction (log 23). -/
def Obligations.IntakeWriteCompletes : Prop :=
  (∀ (s : State) (at_ : SlotTag) (n : U32) (len : Nat) (x : IndexRecord) (p : Photo), s.Working → s.Still →
    s.link.answered? at_ Op.isIntakeWrite = some (.writeIntake (.photo n) len x) → s.cat.photo? n = some p →
    0 < s.pool.heldBy (.record (.photo n)) →
    (∀ w : Written, w.stored = p.declared → exec (.intakeWriteCompletion at_ (.done w)) s = .next (State.close { s with
      cat := s.cat.withPhoto n fun p => if p.state = .writing then { p with
        state := .filed, outcome := .ok, raw := some w.locator, current := some w.locator, stored := some w.stored } else p
      pool := s.pool.without (.record (.photo n))
      link := s.link.served at_.slot.toNat (.writeIntake (.photo n) len x) })) ∧
    (s.link.failures < 7 → ∃ t, exec (.intakeWriteCompletion at_ .mediaError) s = .next t ∧
      t.cat = s.cat.photoFailed n .storeFault ∧
      t.pool = s.pool.without (.record (.photo n)) ∧ t.link.failures = s.link.failures + 1 ∧ Raised s t .fileFailed) ∧
    (∀ w : Written, w.stored ≠ p.declared → s.link.state = .online → s.link.discards < 32 →
      ∃ t, exec (.intakeWriteCompletion at_ (.done w)) s = .next t ∧ t.cat = s.cat.photoFailed n .bodyCheck ∧
        t.pool = s.pool.without (.record (.photo n)) ∧ .freeBody w.locator .refusedWrite ∈ t.link.held ∧
        Raised s t .fileFailed) ∧
    ∀ ans, (ans = .notFound ∨ ans = .full) → exec (.intakeWriteCompletion at_ ans) s = .next (State.close
      { (s.latch .fileFailed) with
        cat := s.cat.photoFailed n .storeFault, pool := s.pool.without (.record (.photo n))
        link := s.link.served at_.slot.toNat (.writeIntake (.photo n) len x) })) ∧
  (∀ (s : State) (at_ : SlotTag) (slot number version len : Nat) (x : IndexRecord) (p : Page) (e : Edition), s.Working →
    s.Still → s.link.answered? at_ Op.isIntakeWrite = some (.writeIntake (.page slot number version) len x) →
    s.cat.page? slot number version = some p → p.state = .writing → s.cat.edition? slot = some e →
    (e.state = .opened ∨ e.state = .closing ∧ 1 < s.cat.inFlight slot ∧ s.cat.Sound) →
    0 < s.pool.heldBy (.record (.page slot number version)) →
    (∀ w : Written, w.stored = p.declared → ∃ t, exec (.intakeWriteCompletion at_ (.done w)) s = .next t ∧
      t.cat.page? slot number version = some { p with
        state := .filed, outcome := .ok, raw := some w.locator, current := some w.locator, stored := some w.stored
        superseded := match s.cat.current? slot number with
          | some c => if c.version < version then p.superseded else true
          | none => p.superseded } ∧
      (∀ c, s.cat.current? slot number = some c → c.version < version → s.cat.page? slot number c.version = some c →
        t.cat.page? slot number c.version = some { c with superseded := true }) ∧
      t.pool = s.pool.without (.record (.page slot number version)) ∧
      t.link = s.link.served at_.slot.toNat (.writeIntake (.page slot number version) len x)) ∧
    (∀ w : Written, w.stored ≠ p.declared → s.link.state = .online → s.link.discards < 32 →
      ∃ t, exec (.intakeWriteCompletion at_ (.done w)) s = .next t ∧
        t.cat.page? slot number version = some { p with state := .failed, outcome := .bodyCheck, placements := [] } ∧
        (t.cat.edition? slot).map Edition.failedPages = some (min 65535 (e.failedPages + 1)) ∧
        t.pool = s.pool.without (.record (.page slot number version)) ∧
        .freeBody w.locator .refusedWrite ∈ t.link.held ∧ Raised s t .fileFailed) ∧
    (s.link.failures < 7 → ∃ t, exec (.intakeWriteCompletion at_ .mediaError) s = .next t ∧
      t.cat.page? slot number version = some { p with state := .failed, outcome := .storeFault, placements := [] } ∧
      (t.cat.edition? slot).map Edition.failedPages = some (min 65535 (e.failedPages + 1)) ∧
      t.pool = s.pool.without (.record (.page slot number version)) ∧ t.link.failures = s.link.failures + 1 ∧
      Raised s t .fileFailed)) ∧
  ∀ (s : State) (at_ : SlotTag) (slot number version len i : Nat) (x : IndexRecord) (p : Page) (e : Edition), s.Working →
    s.Still → s.link.answered? at_ Op.isIntakeWrite = some (.writeIntake (.page slot number version) len x) → s.cat.Sound →
    s.cat.page? slot number version = some p → p.state = .writing → s.cat.edition? slot = some e → e.state = .closing →
    s.cat.inFlight slot = 1 →
    let served := s.link.served at_.slot.toNat (.writeIntake (.page slot number version) len x)
    let closed (t : State) (gaps : List Nat) (failed : Nat) : Prop :=
      t.cat.edition? slot = some { e with
        state := .closed, closedOn := some s.cal.day, gaps := some gaps, failedPages := failed } ∧
      t.link = served.occupy i (.closeMark slot ⟨e.key, e.planned, s.cal.day, gaps, e.forced, failed⟩) ∧
      Raised s t (if e.forced then .deadlineClosed else .editionClosed)
    served.Takes i →
    (∀ w : Written, w.stored = p.declared → ∃ t, exec (.intakeWriteCompletion at_ (.done w)) s = .next t ∧
      closed t ((s.cat.gapsOf slot e.planned).filter fun n => n != number) e.failedPages) ∧
    ∃ t, exec (.intakeWriteCompletion at_ .full) s = .next t ∧ Raised s t .fileFailed ∧
      closed t (s.cat.gapsOf slot e.planned) (min 65535 (e.failedPages + 1))

/-- CLOSE EDITION makes the edition CLOSING and waits for its pages in flight; with none the close ends: gap list, closed-on
day, CLOSE MARK, CLOSED and the event by the forced flag. The mark's completion changes no edition. -/
def Obligations.CloseWaitsForPagesThenEnds : Prop :=
  (∀ (s : State) (tag : U8) (key : EditionKey), s.Ready (.closeEdition tag key) →
    let run := exec (.closeEdition tag key) s
    (s.req.mode ≠ .service → run = .next (s.replied 0x25 tag .notInService [])) ∧
    (s.req.mode = .service → 15 < key.code.toNat → run = .next (s.replied 0x25 tag .outOfRange [])) ∧
    (s.req.mode = .service → key.code.toNat ≤ 15 → s.cat.slotOf key = none →
      run = .next (s.replied 0x25 tag .notFound [])) ∧
    ∀ slot e, s.req.mode = .service → key.code.toNat ≤ 15 → s.cat.slotOf key = some slot → s.cat.edition? slot = some e →
      (e.state ≠ .opened → run = .next (s.replied 0x25 tag .badState [])) ∧
      (e.state = .opened → 0 < s.cat.inFlight slot → run = .next (State.replied { s with
        deadlines := s.deadlines.filter fun x => x != slot
        cat := s.cat.withEdition slot fun e => { e with state := .closing, forced := false, deadline := none } }
        0x25 tag .ok (u16 (s.cat.inFlight slot)))) ∧
      ∀ i, e.state = .opened → s.cat.inFlight slot = 0 → s.link.Takes i →
        let gaps := s.cat.gapsOf slot e.planned
        run = .next (State.close (State.answer (State.popped (State.latch { s with
          deadlines := s.deadlines.filter fun x => x != slot
          cat := s.cat.withEdition slot fun e => { e with
            state := .closed, forced := false, deadline := none, closedOn := some s.cal.day, gaps := some gaps }
          link := s.link.occupy i (.closeMark slot ⟨e.key, e.planned, s.cal.day, gaps, false, e.failedPages⟩) }
          .editionClosed)) 0x25 tag .ok (u16 0)))) ∧
  (∀ (s : State) (slot : BitVec 6) (e : Edition) (i : Nat), s.Working → s.cat.edition? slot.toNat = some e →
    e.state = .closing → s.cat.inFlight slot.toNat = 0 → s.link.Takes i →
    let gaps := s.cat.gapsOf slot.toNat e.planned
    exec (.closeEnd slot) s = .next (State.close (State.latch { s with
      cat := s.cat.withEdition slot.toNat fun e => { e with
        state := .closed, closedOn := some s.cal.day, gaps := some gaps }
      link := s.link.occupy i
        (.closeMark slot.toNat ⟨e.key, e.planned, s.cal.day, gaps, e.forced, e.failedPages⟩) }
      (if e.forced then .deadlineClosed else .editionClosed)))) ∧
  (∀ (c : Catalogue) (slot planned n : Nat), n ∈ c.gapsOf slot planned ↔ 1 ≤ n ∧ n ≤ planned ∧
    ∀ p ∈ c.pages, p.slot = slot → p.number = n → p.state ≠ .filed) ∧
  ∀ (s : State) (at_ : SlotTag) (slot : Nat) (m : CloseMark), s.Working → s.vol.sealQueue = [] →
    s.link.answered? at_ Op.isCloseMark = some (.closeMark slot m) →
    exec (.closeMarkCompletion at_ (.done ())) s = .next (State.close { s with
      link := s.link.served at_.slot.toNat (.closeMark slot m) }) ∧
    (s.link.failures < 7 → ∃ t, exec (.closeMarkCompletion at_ .mediaError) s = .next t ∧ t.cat = s.cat ∧
      t.link.failures = s.link.failures + 1)

/-! ### The staging pool and the store link -/

/-- QUERY STAGING, taken in every mode, reports the pool as it stands when the request is taken; the four counts of a pool
of 128 segments add up to 128. That the STAGING_LOW flag byte is 1 when set is the model's choice (log 30).
That a STAGED record's write is handed off behind a reading request's reply is the model's choice (log 10). -/
def Obligations.QueryStagingReportsThePool : Prop :=
  (∀ (s : State) (tag : U8), s.takes (.queryStaging tag) = true →
    let p := s.take.pool
    let held (q : Holder → Bool) : Nat := p.segments.countP fun x => x.any q
    let fields := u8 (p.segments.countP Option.isNone) ++ u8 (held Holder.isIntake) ++ u8 (held Holder.isJob) ++
      u8 (held Holder.isOrder) ++ u8 32 ++ [if p.segments.countP Option.isNone ≤ 40 then 1 else 0] ++
      u8 p.claims.length ++ p.claims.flatMap fun c => match c.owner with
        | .order n => u8 2 ++ u8 c.need ++ u32 n
        | .job _ | .record _ => u8 1 ++ u8 c.need ++ u32 0
    (s.Awake → s.take.pool = s.pool) ∧
    ∃ t, exec (.queryStaging tag) s = .next t ∧ FirstSent s t (s.replyFrame 0x50 tag .ok fields) ∧
      (s.Calm → s.Awake → t = s.reported 0x50 tag .ok fields)) ∧
  ∀ p : Pool, p.segments.length = 128 → p.free + p.heldClass Holder.isIntake + p.heldClass Holder.isJob +
    p.heldClass Holder.isOrder = 128

/-- The head claim that fits is granted: a job reads its body and becomes SURVEY, a preparation records the locator and check of
the body it reads. A claim joins the tail behind a waiting one though it would fit, and a head that does not fit keeps the
queue as it is. -/
def Obligations.ClaimsAreGrantedInOrder : Prop :=
  (∀ (s : State) (n need i : Nat) (v : View), s.Working → need + 32 ≤ s.pool.free → s.link.Takes i →
    (∀ j, s.pool.claims = [⟨.job n, need⟩] → s.job? n = some j → s.jobView j = some v →
      exec .claimGrant s = .next (State.close (State.withJob { s with
        pool := { s.pool.given (.job n) need with claims := [] }
        link := s.link.occupy i (.readForJob n j.target.volume v.current) } n fun j => { j with state := .survey }))) ∧
    (∀ o, s.pool.claims = [⟨.order n, need⟩] → s.order? n = some o → s.orderView o = some v →
      exec .claimGrant s = .next (State.close (State.withOrder { s with
        pool := { s.pool.given (.order n) need with claims := [] }
        link := s.link.occupy i (.readForOrder n o.volume v.current) } n fun o =>
          { o with readOf := some (v.current, v.stored) })))) ∧
  ((∀ (s : State) (c : Claim), s.pool.claims ≠ [] →
    s.placeClaim c = { s with pool := { s.pool with claims := s.pool.claims ++ [c] } }) ∧
  ∀ (s : State) (c : Claim) (rest : List Claim), s.pool.free < c.need + 32 → State.regrant (c :: rest) s = s)

/-- An answer that the link does not take has no effect; the completion of a FREE BODY changes no record, whatever answers
it; the slot passes on to the oldest waiting filing operation, which is a WRITE BODY for intake or a CLOSE MARK, or else to the
oldest operation. That LATE_STORE_ANSWER has no effect whatever its tag is the model's choice (log 9). -/
def Obligations.StoreAnswersFreeTheirSlot : Prop :=
  (∀ (s : State) (at_ : SlotTag) (ans : Answer Unit), exec (.lateStoreAnswer at_ ans) s = .next s ∧
    (s.Unstaged → (∀ r, s.link.running? at_.slot.toNat = some r → (s.link.slots[at_.slot.toNat]?).map OpSlot.issue ≠ some at_.issue.toNat) →
      exec (.closeMarkCompletion at_ ans) s = .next s ∧ exec (.freeBodyCompletion at_ ans) s = .next s ∧
      exec (.probeAnswer at_ ans) s = .next s)) ∧
  (∀ (s : State) (at_ : SlotTag) (locator : U32) (kind : FreeKind), s.Working →
    s.link.answered? at_ Op.isDiscard = some (.freeBody locator kind) →
    (∀ ans, ans = .done () ∨ ans = .notFound ∨ ans = .full → exec (.freeBodyCompletion at_ ans) s = .next (State.close
      { s with link := s.link.served at_.slot.toNat (.freeBody locator kind) })) ∧
    (s.link.failures < 7 → exec (.freeBodyCompletion at_ .mediaError) s = .next (State.close { s with
      link := { s.link.served at_.slot.toNat (.freeBody locator kind) with failures := s.link.failures + 1 } }))) ∧
  (∀ w x rest, nextWaiting w = some (x, rest) →
    (x.isFiling = true → ∃ a b, w = a ++ x :: b ∧ rest = a ++ b ∧ ∀ y ∈ a, y.isFiling = false) ∧
    (x.isFiling = false → w = x :: rest ∧ ∀ y ∈ w, y.isFiling = false)) ∧
  (∀ w, nextWaiting w = none → w = []) ∧
  ∀ op : Op, op.isFiling = true ↔ (∃ r length x, op = .writeIntake r length x) ∨ ∃ slot m, op = .closeMark slot m

/-- A timeout completes its operation STORE_TIMEOUT and raises the failure counter; the eighth failure in a row takes the
link OFFLINE, empties it and starts the probe interval. -/
def Obligations.FailuresTakeTheLinkOffline : Prop :=
  (∀ (s : State) (slot : BitVec 3) (n : U32) (len issue : Nat) (x : IndexRecord), s.Working → s.Still →
    s.link.slots[slot.toNat]? = some ⟨issue, some ⟨.writeIntake (.photo n) len x, 0⟩⟩ → s.link.failures < 7 →
    0 < s.pool.heldBy (.record (.photo n)) → ∃ t, exec (.storeOperationTimeout slot) s = .next t ∧
      t.cat = s.cat.photoFailed n .storeTimeout ∧
      t.link.failures = s.link.failures + 1 ∧ t.pool = s.pool.without (.record (.photo n)) ∧ Raised s t .fileFailed) ∧
  ∀ (s : State) (op : Op) (t : State), s.powered = true → s.agenda = [] → s.link.failures = 7 → s.link.state = .online →
    ((∃ (slot : BitVec 3), s.link.running? slot.toNat = some ⟨op, 0⟩ ∧ op ≠ .probe ∧
        exec (.storeOperationTimeout slot) s = .next t) ∨
      (∃ at_, s.link.answered? at_ Op.isIntakeWrite = some op ∧ exec (.intakeWriteCompletion at_ .mediaError) s = .next t) ∨
      (∃ at_, s.link.answered? at_ Op.isSurvey = some op ∧ exec (.surveyReadCompletion at_ .mediaError) s = .next t)) →
    t.link.state = .offline ∧ t.link.failures = 8 ∧ t.link.waiting = [] ∧ t.link.probeTicks = some 256 ∧
      (∀ sl ∈ t.link.slots, sl.occupant = none) ∧ Raised s t .storeOffline

/-- Probing: each expiry fails an unanswered probe and sends a new one in slot 0; a DONE answer counts, any other sets the count
to 0, and the sixteenth in a row makes the link RECOVERED, or ONLINE with auto-resume. RESUME STORE makes a RECOVERED link
ONLINE and is refused otherwise; with every slot empty the next operation takes slot 0. -/
def Obligations.ProbesAndResumeBringTheLinkBack : Prop :=
  ((∀ (s : State) (sl : OpSlot) (rest : List OpSlot), s.Working → s.link.state = .offline → s.link.probeTicks = some 0 →
    s.link.slots = sl :: rest → exec .probeIntervalExpiry s = .next (State.close { s with link := { s.link with
      goodProbes := if sl.occupant = none then s.link.goodProbes else 0
      probeTicks := some 256
      slots := ⟨(sl.issue + 1) % 65536, some ⟨.probe, 1024⟩⟩ :: rest } })) ∧
  ∀ (s : State) (at_ : SlotTag), s.Working → s.link.answered? at_ (fun op => op == .probe) = some .probe →
    let freed := s.link.vacate 0
    (s.link.goodProbes < 15 → exec (.probeAnswer at_ (.done ())) s = .next (State.close { s with
      link := { freed with goodProbes := s.link.goodProbes + 1 } })) ∧
    (s.link.goodProbes = 15 → exec (.probeAnswer at_ (.done ())) s = .next (State.close (State.latch { s with
      link := if s.req.options.autoResume
        then { freed with state := .online, failures := 0, goodProbes := 0, probeTicks := none }
        else { freed with state := .recovered, goodProbes := 16, probeTicks := none } } .storeRecovered))) ∧
    (∀ ans, ans ≠ .done () → exec (.probeAnswer at_ ans) s = .next (State.close { s with
      link := { freed with goodProbes := 0 } }))) ∧
  ((∀ (s : State) (tag : U8), s.takes (.resumeStore tag) = true → s.Unstaged → ∃ t, exec (.resumeStore tag) s = .next t ∧
    (s.take.link.state = .recovered → FirstSent s t (s.replyFrame 0x52 tag .ok []) ∧
      (s.Awake → exec (.resumeStore tag) s = .next (State.answered { s with link := { s.link with
        state := .online, failures := 0, goodProbes := 0 } } 0x52 tag .ok []))) ∧
    (s.take.link.state ≠ .recovered → FirstSent s t (s.replyFrame 0x52 tag .badState []) ∧
      (s.Calm → s.Awake → t = s.replied 0x52 tag .badState []))) ∧
  ∀ (s : State) (op : Op) (sl : OpSlot) (rest : List OpSlot), s.link.state = .online → s.link.slots = sl :: rest →
    sl.occupant = none → op.isDiscard = false →
    (s.handOff op).link.slots = ⟨(sl.issue + 1) % 65536, some ⟨op, 1024⟩⟩ :: rest)

/-! ### Sealing and recall -/

/-- SEAL EDITION: its refusals in order; an edition that passes keeps its place in the queue or joins the tail, and with an
empty queue its seal begins at once. SEAL START begins the head's seal. -/
def Obligations.SealEditionQueuesAndStarts : Prop :=
  (∀ (s : State) (tag : U8) (key : EditionKey), s.Ready (.sealEdition tag key) →
    let run := exec (.sealEdition tag key) s
    (s.req.mode = .setupPending ∨ s.req.mode = .standbyPending → run = .next (s.replied 0x60 tag .notInService [])) ∧
    (s.req.mode = .service ∨ s.req.mode = .setup →
      (15 < key.code.toNat → run = .next (s.replied 0x60 tag .outOfRange [])) ∧
      (key.code.toNat ≤ 15 → s.cat.slotOf key = none → run = .next (s.replied 0x60 tag .notFound [])) ∧
      ∀ slot e, key.code.toNat ≤ 15 → s.cat.slotOf key = some slot → s.cat.edition? slot = some e →
        (e.state ≠ .closed → run = .next (s.replied 0x60 tag .badState [])) ∧
        (e.state = .closed → 0 < e.pins → run = .next (s.replied 0x60 tag .busy [])) ∧
        (e.state = .closed → e.pins = 0 → slot ∈ s.vol.sealQueue → run =
          .next (s.replied 0x60 tag .ok (u8 (s.vol.sealQueue.findIdx fun x => x == slot)))) ∧
        (∀ head x, e.state = .closed → e.pins = 0 → slot ∉ s.vol.sealQueue → s.vol.sealQueue.head? = some head →
          s.cat.edition? head = some x → x.state = .sealing → run = .next (State.replied
            { s with vol := { s.vol with sealQueue := s.vol.sealQueue ++ [slot] } } 0x60 tag .ok
            (u8 s.vol.sealQueue.length))) ∧
        ∀ i, e.state = .closed → e.pins = 0 → s.vol.sealQueue = [] → s.link.marking slot = false → s.link.Takes i →
          run = .next (State.answered { s with
            vol := { s.vol with sealQueue := [slot] }
            cat := s.cat.withEdition slot fun e => { e with state := .sealing }
            link := s.link.occupy i (.sealVolume slot (s.cat.sealContent slot e)) } 0x60 tag .ok [0]))) ∧
  ∀ (s : State) (slot i : Nat) (rest : List Nat) (e : Edition), s.Working → s.vol.sealQueue = slot :: rest →
    s.cat.edition? slot = some e → e.state ≠ .sealing → e.pins = 0 → s.link.marking slot = false → s.link.Takes i →
    exec .sealStart s = .next (State.close { s with
      cat := s.cat.withEdition slot fun e => { e with state := .sealing }
      link := s.link.occupy i (.sealVolume slot (s.cat.sealContent slot e)) })

/-- The end of a seal: with a volume number the edition and its pages leave the catalogue, each placed photograph's references
fall by the pages that placed it, and a waiter asks for its recall under the new volume; with a failure the edition is CLOSED
again, and a waiter pins it and is priced. The result is recorded and the event latched, and the next head is tested: it starts its
seal, waits for its close mark, or, when pinned, leaves with its due flag. -/
def Obligations.SealEndsWithAVolumeOrAFailure : Prop :=
  ∀ (s : State) (at_ : SlotTag) (slot : Nat) (content : SealContent) (e : Edition) (rest : List Nat), s.Working →
    s.link.state = .online → s.link.answered? at_ Op.isSeal = some (.sealVolume slot content) →
    s.cat.edition? slot = some e → e.state = .sealing → s.vol.sealQueue = slot :: rest → slot ∉ rest →
    let served := s.link.served at_.slot.toNat (.sealVolume slot content)
    let failed := exec (.sealVolumeCompletion at_ .full) s
    let headTested (t : State) : Prop := (rest = [] → t.vol.sealQueue = []) ∧
      ∀ next more f, rest = next :: more → s.cat.edition? next = some f → f.state = .closed →
        (s.link.marking next = true → t.vol.sealQueue = rest ∧ t.cat.edition? next = some f) ∧
        (s.link.marking next = false → f.pins = 0 → t.vol.sealQueue = rest ∧
          t.cat.edition? next = some { f with state := .sealing } ∧ ∃ x, .sealVolume next x ∈ t.link.held) ∧
        (s.link.marking next = false → 0 < f.pins → more = [] → t.vol.sealQueue = [] ∧
          t.cat.edition? next = some { f with due := true })
    (s.vol.waiters = [] →
      (∀ v, ∃ t, exec (.sealVolumeCompletion at_ (.done v)) s = .next t ∧ t.cat.edition? slot = none ∧
        t.cat.pages = s.cat.pages.filter (fun p => p.slot != slot) ∧
        t.cat.photos = s.cat.photos.map (fun q => { q with refs := q.refs - s.cat.pages.countP (fun p =>
          p.slot == slot && p.placements.any fun pl => pl.photo == q.number) }) ∧
        (∀ other, other ≠ slot → other ∉ rest → t.cat.edition? other = s.cat.edition? other) ∧
        t.vol.lastSeal = some ⟨e.key, .ok, v⟩ ∧ Raised s t .sealDone ∧ headTested t) ∧
      (∃ t, failed = .next t ∧ t.cat.edition? slot = some { e with state := .closed } ∧ t.cat.pages = s.cat.pages ∧
        t.cat.photos = s.cat.photos ∧ t.vol.lastSeal = some ⟨e.key, .storeFault, 0⟩ ∧ Raised s t .sealFailed ∧
        headTested t) ∧
      (rest = [] → failed = .next (State.close (State.latch { s with
        cat := s.cat.withEdition slot fun e => { e with state := .closed }
        vol := { s.vol with sealQueue := [], lastSeal := some ⟨e.key, .storeFault, 0⟩ }, link := served } .sealFailed)))) ∧
    ∀ n o, s.vol.waiters = [n] → rest = [] → s.order? n = some o →
      (∀ v i key, s.vol.recallWait = [] → s.vol.holding v key = none → s.vol.table.findIdx? Option.isNone = some i →
        (o.photo = none → ∃ r, o.resolved = some r ∧ key = .page o.key o.page r) →
        (∀ p, o.photo = some p → key = .photo p) → ∃ t, exec (.sealVolumeCompletion at_ (.done v)) s = .next t ∧
          t.vol.waiters = [] ∧ t.order? n = some { o with volume := v, state := .recalling } ∧
          t.vol.slot? i = some ⟨v, key, [.order n], none⟩ ∧ .readEntry i v key ∈ t.link.held) ∧
      ∀ v a masked,
        let located : Order := { o with pinEdition := some slot, pinPhoto := o.photo }
        let back := State.withOrder (State.latch { s with
          cat := s.cat.withEdition slot fun e => { e with state := .closed, pins := e.pins + 1 }
          vol := { s.vol with sealQueue := [], lastSeal := some ⟨e.key, .storeFault, 0⟩, waiters := [] }
          link := served } .sealFailed) n fun o => { o with pinEdition := some slot, pinPhoto := o.photo }
        o.photo = none → o.restore = false → back.orderView located = some v → s.fee.account? o.account = some a →
        back.holdCheck located v = .passed masked → failed = .next (State.close (back.priced located v a))

/-- A fetch that completes makes its slot RESIDENT under the version that the store resolved and hands it to its requesters in
the order in which they pinned it, or, when another slot holds the resolved key, frees the slot and moves them there; one that
fails frees the slot and hands them the outcome. A slot that becomes FREE so, or RESIDENT with no requester left, serves the head of
the recall wait queue in the same change. An order that is handed its slot goes on to pricing, a job becomes ready, fails
LEVEL_LIMIT or, of two that one slot serves, the later accepted fails DUPLICATE. The head of the recall wait queue takes the
lowest FREE slot and its fetch is handed off. That a copy which does not fit its key leaves the key as it is, is the model's
choice (log 33); the later job fails whatever its state (log 28). -/
def Obligations.RecallSlotsAreFetchedAndServed : Prop :=
  (∀ (s : State) (at_ : SlotTag) (i : Nat) (volume : U32) (key : EntryKey) (asking : List Requester), s.Working →
    s.link.state = .online → s.link.answered? at_ Op.isFetch = some (.readEntry i volume key) → i < s.vol.table.length →
    s.vol.slot? i = some ⟨volume, key, asking, none⟩ → s.vol.recallWait = [] →
    let served := s.link.served at_.slot.toNat (.readEntry i volume key)
    let version (k : EntryKey) : Option Nat := match k with | .page _ _ v => some v | .photo _ => none
    let fails := exec (.readVolumeEntryCompletion at_ .notFound) s
    (∀ c : EntryCopy, resolvedKey key c = key ∨ s.vol.holding volume (resolvedKey key c) = none →
      let run := exec (.readVolumeEntryCompletion at_ (.done c)) s
      let resident : State := { s with
        vol := { s.vol with table := s.vol.table.set i (some ⟨volume, resolvedKey key c, asking, some c⟩) }, link := served }
      (asking = [] → run = .next (State.close { resident with vol := { resident.vol with lru := s.vol.lru ++ [i] } })) ∧
      (∀ ns, asking = ns.map Requester.order → ns ≠ [] → ns.Nodup → ns.length ≤ 32 →
        (∀ n ∈ ns, ∃ o, s.order? n = some o ∧ o.state = .recalling ∧ o.volume ≠ 0 ∧ o.photo = none ∧ o.restore = false ∧
          (s.fee.account? o.account).isSome = true) →
        ∃ t, run = .next t ∧ t.vol = resident.vol ∧
          (∀ n ∈ ns, ∀ o, s.order? n = some o → ∃ o', t.order? n = some o' ∧
            o' = { o with recallSlot := some i, resolved := version (resolvedKey key c), state := o'.state
                          masked := o'.masked, charged := o'.charged } ∧
            (o'.state = .heldRights ∨ o'.state = .heldStatement ∨ o'.state = .heldFunds ∨ o'.state = .charged)) ∧
          ((∀ n ∈ ns, (t.order? n).map Order.state = some .charged) →
            t.stmt.current.entries.map Entry.order = s.stmt.current.entries.map Entry.order ++ ns)) ∧
      (∀ n o v a masked, asking = [.order n] → s.order? n = some o → o.state = .recalling → o.volume ≠ 0 →
        o.restore = false →
        let hand (o : Order) : Order := { o with
          recallSlot := some i, resolved := if o.photo.isSome then o.resolved else version (resolvedKey key c) }
        let given := resident.withOrder n hand
        given.orderView (hand o) = some v → s.fee.account? o.account = some a →
        given.holdCheck (hand o) v = .passed masked → run = .next (State.close (given.priced (hand o) v a))) ∧
      ∀ n j level, asking = [.job n] → s.job? n = some j → j.state = .queued → (match c with
          | .page c => c.level
          | .photo c => c.level) = level →
        (level ≠ 3 → (∀ k ∈ s.eng.jobs, k.recallSlot ≠ some i) → (∃ k ∈ s.eng.jobs, k.state.isActive = true) →
          run = .next (State.close (resident.withJob n fun j => { j with recallSlot := some i }))) ∧
        (level = 3 → s.Still → j.creator = none → j.joiners = [] → s.eng.jobs = [j] →
          (∃ k, j.target = .sealed volume k) → ∃ t, run = .next t ∧ t.eng.jobs = [] ∧
            t.eng.finished.getLast?.map (fun k => (k.number, k.state, k.outcome)) = some (n, .failed, .levelLimit) ∧
            Raised s t .restoreFailed)) ∧
    (asking = [] → fails = .next (State.close { s with
      vol := { s.vol with table := s.vol.table.set i none }, link := served })) ∧
    (∀ ns, asking = ns.map Requester.order → ns.Nodup → ns.length ≤ 16 → s.Still →
      (∀ n ∈ ns, ∃ o, s.order? n = some o ∧ o.number = n) → ∃ t, fails = .next t ∧ t.vol.slot? i = none ∧
        (∀ n ∈ ns, t.order? n = none ∧
          ∃ f ∈ t.ord.finished, f.number = n ∧ f.state = .ended ∧ f.outcome = .notInVolume) ∧
        (ns ≠ [] → Raised s t .orderEnded)) ∧
    (∀ n j, asking = [.job n] → s.job? n = some j → s.Still → j.creator = none → j.joiners = [] → s.eng.jobs = [j] →
      ∃ t, fails = .next t ∧ t.vol.slot? i = none ∧ t.eng.jobs = [] ∧
        t.eng.finished.getLast?.map (fun k => (k.number, k.state, k.outcome)) = some (n, .failed, .notInVolume) ∧
        Raised s t .restoreFailed) ∧
    ∀ c i2 there r, resolvedKey key c ≠ key → s.vol.holding volume (resolvedKey key c) = some i2 → i2 ≠ i →
      s.vol.slot? i2 = some there → asking = [r] →
      let run := exec (.readVolumeEntryCompletion at_ (.done c)) s
      let merged : State := { s with
        vol := { s.vol with
          table := (s.vol.table.set i none).set i2 (some { there with pinners := there.pinners ++ [r] })
          lru := s.vol.lru.filter fun k => k != i2 }
        link := served }
      (there.copy = none → run = .next (State.close merged)) ∧
      (∀ n o v a masked, there.copy ≠ none → r = .order n → s.order? n = some o → o.state = .recalling → o.volume ≠ 0 →
        o.restore = false →
        let hand (o : Order) : Order := { o with
          recallSlot := some i2, resolved := if o.photo.isSome then o.resolved else version there.key }
        let given := merged.withOrder n hand
        given.orderView (hand o) = some v → s.fee.account? o.account = some a →
        given.holdCheck (hand o) v = .passed masked → run = .next (State.close (given.priced (hand o) v a))) ∧
      ∀ n j k c2, there.copy = some c2 → (match c2 with | .page c => c.level | .photo c => c.level) ≠ 3 → r = .job n →
        s.Still → s.eng.jobs.length = 2 → s.job? n = some j → j.state = .queued → j.creator = none → j.joiners = [] →
        s.job? k.number = some k → k.recallSlot = some i2 → k.number ≠ n → k.creator = none → k.joiners = [] →
        ∃ t, run = .next t ∧ Raised s t .restoreFailed ∧
          (s.eng.jobs = [k, j] → t.job? n = none ∧ (t.job? k.number).isSome ∧
            t.eng.finished.getLast?.map (fun x => (x.number, x.state, x.outcome)) = some (n, .failed, .duplicate)) ∧
          (s.eng.jobs = [j, k] → t.job? k.number = none ∧ (t.job? n).isSome ∧
            t.eng.finished.getLast?.map (fun x => (x.number, x.state, x.outcome)) =
              some (k.number, .failed, .duplicate))) ∧
  (∀ k n v c, resolvedKey (.page k n 0) (.page c) = .page k n c.version ∧
    (v ≠ 0 → resolvedKey (.page k n v) (.page c) = .page k n v)) ∧
  (∀ (s : State) (at_ : SlotTag) (i k x : Nat) (volume : U32) (key : EntryKey) (w : RecallWaiter), s.Working →
    s.link.answered? at_ Op.isFetch = some (.readEntry i volume key) → s.vol.slot? i = some ⟨volume, key, [], none⟩ →
    s.vol.recallWait = [w] → s.vol.holding w.volume w.key = none →
    let link := s.link.served at_.slot.toNat (.readEntry i volume key)
    let fetch (t : List (Option RecallSlot)) (lru : List Nat) : State := { s with
      vol := { s.vol with table := t.set x (some ⟨w.volume, w.key, [w.requester], none⟩), lru := lru, recallWait := [] }
      link := link.occupy k (.readEntry x w.volume w.key) }
    link.Takes k →
    ((s.vol.table.set i none).findIdx? Option.isNone = some x →
      exec (.readVolumeEntryCompletion at_ .notFound) s = .next (State.close (fetch (s.vol.table.set i none) s.vol.lru))) ∧
    ∀ c rest, resolvedKey key c = key → s.vol.table.findIdx? Option.isNone = none → s.vol.lru ++ [i] = x :: rest →
      exec (.readVolumeEntryCompletion at_ (.done c)) s =
        .next (State.close (fetch (s.vol.table.set i (some ⟨volume, key, [], some c⟩)) rest))) ∧
  ∀ (s : State) (r : Requester) (volume : U32) (key : EntryKey) (i k : Nat), s.Working →
    s.vol.recallWait = [⟨r, volume, key⟩] → s.vol.holding volume key = none →
    s.vol.table.findIdx? Option.isNone = some i → s.link.Takes k →
    exec .recallWaitServe s = .next (State.close { s with
      vol := { s.vol with table := s.vol.table.set i (some ⟨volume, key, [r], none⟩), recallWait := [] }
      link := s.link.occupy k (.readEntry i volume key) })

/-! ### Restoration -/

/-- RESTORE clamps its parameters and creates a job on a resident photograph or on a page of a CLOSED edition, which it pins, or
on an entry of a sealed volume, which it is handed at once on a RESIDENT slot and else recalls: it joins the requesters of a FETCHING
slot, fetches into the lowest FREE slot or into the evicted one, or waits in the recall wait queue. While another job runs the new one waits;
on an idle engine a ready one starts in the same change. The next job number becomes the nearest after it that is not held. JOB START
takes the oldest ready job and, with room, gives it its segments and reads its body. That the next number skips held ones as it
advances is the model's choice (log 34). -/
def Obligations.RestoreQueuesAndTheEngineStarts : Prop :=
  (∀ (s : State) (tag : U8) (t : TargetFields) (l h : U16) (sp : U8), s.Ready (.restore tag t l h sp) →
    let run := exec (.restore tag t l h sp) s
    let inRange := t.kind = 1 ∧ t.key.edition.code.toNat ≤ 15 ∧ 1 ≤ t.key.page.toNat ∧ t.key.page.toNat ≤ 128 ∧
        t.key.version.toNat ≤ 7 ∨ t.kind = 2 ∧ t.photo ≠ 0
    (s.req.mode ≠ .service → run = .next (s.replied 0x70 tag .notInService [])) ∧
    (s.req.mode = .service → ¬inRange → run = .next (s.replied 0x70 tag .outOfRange [])) ∧
    (s.req.mode = .service → t.kind = 2 → t.photo ≠ 0 → t.volume = 0 → s.cat.photo? t.photo = none →
      run = .next (s.replied 0x70 tag .notFound [])) ∧
    ∀ p, s.req.mode = .service → t.kind = 2 → t.photo ≠ 0 → t.volume = 0 → s.cat.photo? t.photo = some p →
      (p.state ≠ .filed → run = .next (s.replied 0x70 tag .notFiled [])) ∧
      (p.state = .filed → (s.jobOn? (.photo t.photo)).isSome → run = .next (s.replied 0x70 tag .duplicate [])) ∧
      (p.state = .filed → s.jobOn? (.photo t.photo) = none →
        (p.level = 3 → run = .next (s.replied 0x70 tag .levelLimit [])) ∧
        (p.level ≠ 3 → 8 ≤ s.eng.jobs.length → run = .next (s.replied 0x70 tag .tableFull [])) ∧
        (p.level ≠ 3 → s.eng.jobs.length < 8 → s.eng.Sound →
          let low := min 100 l.toNat
          let high := max 900 (min 1000 h.toNat)
          let span := max 8 (min 128 sp.toNat)
          JobCreated { s with cat := s.cat.withPhoto t.photo fun p => { p with pins := p.pins + 1 } }
            ⟨s.eng.nextJob, .queued, .photo t.photo, none, low, high, span, none, [], 0, 0, none, .pending, noKey⟩
            (photoView p) (fun u => run = .next (u.replied 0x70 tag .ok
              (u16 s.eng.nextJob ++ u16 low ++ u16 high ++ u8 span ++ u8 s.eng.jobs.length)))
            fun u => run = .next (u.answered 0x70 tag .ok
              (u16 s.eng.nextJob ++ u16 low ++ u16 high ++ u8 span ++ u8 s.eng.jobs.length))))) ∧
  (∀ (s : State) (tag : U8) (t : TargetFields) (l h : U16) (sp : U8), s.Ready (.restore tag t l h sp) →
    s.req.mode = .service → t.kind = 1 → t.key.edition.code.toNat ≤ 15 → 1 ≤ t.key.page.toNat → t.key.page.toNat ≤ 128 →
    t.key.version.toNat ≤ 7 → t.volume = 0 →
    let refused (code : Code) : Prop := exec (.restore tag t l h sp) s = .next (s.replied 0x70 tag code [])
    (s.cat.slotOf t.key.edition = none → refused .notFound) ∧
    ∀ slot e, s.cat.slotOf t.key.edition = some slot → s.cat.edition? slot = some e →
      (e.state = .opened ∨ e.state = .closing → refused .editionOpen) ∧ (e.state = .sealing → refused .badState) ∧
      (e.state = .closed → t.key.version = 0 → s.cat.current? slot t.key.page.toNat = none → refused .notFiled) ∧
      (e.state = .closed → t.key.version ≠ 0 →
        (s.cat.page? slot t.key.page.toNat t.key.version.toNat = none → refused .notFound) ∧
        ∀ p, s.cat.page? slot t.key.page.toNat t.key.version.toNat = some p → p.state ≠ .filed → refused .notFiled) ∧
      ∀ p, e.state = .closed → s.cat.page? slot p.number p.version = some p →
        (t.key.version = 0 ∧ s.cat.current? slot t.key.page.toNat = some p ∨ t.key.version ≠ 0 ∧ p.state = .filed ∧
          s.cat.page? slot t.key.page.toNat t.key.version.toNat = some p) →
        ((s.jobOn? (.page slot p.number p.version)).isSome → refused .duplicate) ∧
        (s.jobOn? (.page slot p.number p.version) = none →
          (p.level = 3 → refused .levelLimit) ∧ (p.level ≠ 3 → 8 ≤ s.eng.jobs.length → refused .tableFull) ∧
          (p.level ≠ 3 → s.eng.jobs.length < 8 → s.eng.Sound →
            let low := min 100 l.toNat
            let high := max 900 (min 1000 h.toNat)
            let span := max 8 (min 128 sp.toNat)
            JobCreated { s with cat := s.cat.withEdition slot fun e => { e with pins := e.pins + 1 } }
              ⟨s.eng.nextJob, .queued, .page slot p.number p.version, none, low, high, span, none, [], 0, 0, none, .pending,
                e.key⟩
              (s.cat.pageView p) (fun u => exec (.restore tag t l h sp) s = .next (u.replied 0x70 tag .ok
                (u16 s.eng.nextJob ++ u16 low ++ u16 high ++ u8 span ++ u8 s.eng.jobs.length)))
              fun u => exec (.restore tag t l h sp) s = .next (u.answered 0x70 tag .ok
                (u16 s.eng.nextJob ++ u16 low ++ u16 high ++ u8 span ++ u8 s.eng.jobs.length))))) ∧
  (∀ (s : State) (tag : U8) (t : TargetFields) (l h : U16) (sp : U8) (key : EntryKey), s.Ready (.restore tag t l h sp) →
    s.req.mode = .service → t.volume ≠ 0 →
    (t.kind = 1 ∧ t.key.edition.code.toNat ≤ 15 ∧ 1 ≤ t.key.page.toNat ∧ t.key.page.toNat ≤ 128 ∧ t.key.version.toNat ≤ 7 ∧
        key = .page t.key.edition t.key.page.toNat t.key.version.toNat ∨
      t.kind = 2 ∧ t.photo ≠ 0 ∧ key = .photo t.photo) →
    let refused (code : Code) : Prop := exec (.restore tag t l h sp) s = .next (s.replied 0x70 tag code [])
    let low := min 100 l.toNat
    let high := max 900 (min 1000 h.toNat)
    let span := max 8 (min 128 sp.toNat)
    let new (slot : Option Nat) : Job :=
      ⟨s.eng.nextJob, .queued, .sealed t.volume key, slot, low, high, span, none, [], 0, 0, none, .pending, ⟨0, 0⟩⟩
    let fields := u16 s.eng.nextJob ++ u16 low ++ u16 high ++ u8 span ++ u8 s.eng.jobs.length
    let accepted (u : State) : Prop := exec (.restore tag t l h sp) s = .next (u.replied 0x70 tag .ok fields)
    let started (u : State) : Prop := exec (.restore tag t l h sp) s = .next (u.answered 0x70 tag .ok fields)
    ((s.jobOn? (.sealed t.volume key)).isSome → refused .duplicate) ∧
    (s.jobOn? (.sealed t.volume key) = none →
      (∀ i c, s.vol.holding t.volume key = some i → s.vol.copy? i = some c → (copyView c).level = 3 →
        refused .levelLimit) ∧
      (∀ i r c, s.vol.holding t.volume key = some i → s.vol.slot? i = some r → r.copy = some c → (copyView c).level ≠ 3 →
        s.eng.jobs.length < 8 → s.eng.Sound →
        JobCreated { s with vol := { s.vol with
            table := s.vol.table.set i (some { r with pinners := r.pinners ++ [.job s.eng.nextJob] })
            lru := s.vol.lru.filter fun x => x != i } } (new (some i)) (copyView c) accepted started) ∧
      ((∀ i c, s.vol.holding t.volume key = some i → s.vol.copy? i = some c → (copyView c).level ≠ 3) →
        8 ≤ s.eng.jobs.length → refused .tableFull) ∧
      (s.eng.jobs.length < 8 → s.eng.Sound → (∃ j ∈ s.eng.jobs, j.state.isActive = true) ∨ s.eng.Idle →
        let waits (v : VolumeUnit) (l : StoreLink) : Prop := ∃ next, s.eng.Advances s.eng.nextJob next ∧ accepted { s with
          eng := { s.eng with jobs := s.eng.jobs ++ [new none], nextJob := next }, vol := v, link := l }
        let r : Requester := .job s.eng.nextJob
        let fetched (i : Nat) : List (Option RecallSlot) := s.vol.table.set i (some ⟨t.volume, key, [r], none⟩)
        (∀ i x, s.vol.holding t.volume key = some i → s.vol.slot? i = some x → x.copy = none →
          waits { s.vol with
            table := s.vol.table.set i (some { x with pinners := x.pinners ++ [r] })
            lru := s.vol.lru.filter fun y => y != i } s.link) ∧
        (s.vol.holding t.volume key = none → s.vol.recallWait = [] →
          (∀ i k, s.vol.table.findIdx? Option.isNone = some i → s.link.Takes k →
            waits { s.vol with table := fetched i } (s.link.occupy k (.readEntry i t.volume key))) ∧
          ∀ i rest k, s.vol.table.findIdx? Option.isNone = none → s.vol.lru = i :: rest → s.link.Takes k →
            waits { s.vol with table := fetched i, lru := rest } (s.link.occupy k (.readEntry i t.volume key))) ∧
        (s.vol.holding t.volume key = none →
          s.vol.recallWait ≠ [] ∨ s.vol.table.findIdx? Option.isNone = none ∧ s.vol.lru = [] →
          waits { s.vol with recallWait := s.vol.recallWait ++ [⟨r, t.volume, key⟩] } s.link)))) ∧
  ∀ (s : State) (j : Job) (v : View), s.Working → (∀ k ∈ s.eng.jobs, k.state.isActive = false) →
    s.eng.jobs.find? (fun k => k.state == .queued && k.isReady) = some j → s.job? j.number = some j →
    s.jobView j = some v → s.pool.claims = [] →
    let need := (v.grid.cols * v.grid.rows + 15) / 16
    (∀ i, need + 32 ≤ s.pool.free → s.link.Takes i → exec .jobStart s = .next (State.close (State.withJob { s with
      pool := s.pool.given (.job j.number) need
      link := s.link.occupy i (.readForJob j.number j.target.volume v.current) } j.number fun k =>
        { k with state := .survey, startLevel := v.level, need := need }))) ∧
    (s.pool.free < need + 32 → exec .jobStart s = .next (State.close (State.withJob { s with
      pool := { s.pool with claims := [⟨.job j.number, need⟩] } } j.number fun k =>
        { k with state := .claiming, startLevel := v.level, need := need })))

/-- The survey's body lands: with the recorded check the job is MAPPING, otherwise it fails BODY_CHECK and the orders that it
carried end; a read that fails, or times out, fails the job with its outcome, and the job behind it starts in the same change. The completion of the
read frees the held locators that no read names any more. The end of MAPPING records the points, maps every
sample and hands off the write: of a page or photograph with its index record, of a sealed entry under the key of its slot; with the
link not ONLINE the job fails at once. That the histogram is the body's at the entry of MAPPING (log 17) and
that the index record leaves out the locator and the check which the store is about to give (log 25) are the model's choices. -/
def Obligations.SurveyThenMapping : Prop :=
  (∀ (s : State) (at_ : SlotTag) (n : Nat) (volume locator : U32) (body : List U8) (j : Job) (v : View), s.Working →
    s.link.answered? at_ Op.isSurvey = some (.readForJob n volume locator) → s.job? n = some j → s.jobView j = some v →
    s.eng.heldDiscards = [] →
    (v.stored = crc32 body → exec (.surveyReadCompletion at_ (.done body)) s = .next (State.close (State.withJob { s with
      pool := s.pool.putContent (.job n) body, eng := { s.eng with histogram := histogramOf body }
      link := s.link.served at_.slot.toNat (.readForJob n volume locator) } n fun j => { j with state := .mapping }))) ∧
    (v.stored ≠ crc32 body → s.Still → s.eng.jobs = [j] →
      ∃ t, exec (.surveyReadCompletion at_ (.done body)) s = .next t ∧ t.eng.jobs = [] ∧ t.pool.heldBy (.job n) = 0 ∧
        t.eng.finished.getLast?.map (fun k => (k.number, k.state, k.outcome)) = some (n, .failed, .bodyCheck) ∧
        (∀ m, j.creator = some m ∨ m ∈ j.joiners → t.order? m = none) ∧
        (∀ m o, j.creator = some m → j.joiners = [] → s.order? m = some o →
          t.ord.finished.getLast?.map (fun x => (x.number, x.state, x.outcome)) = some (m, .ended, .bodyCheck) ∧
          Raised s t .orderEnded) ∧
        Raised s t .restoreFailed)) ∧
  (∀ (s : State) (j : Job) (volume locator : U32) (run : Host.Outcome State Fault Refusal) (code : Code), s.Working → s.Still →
    s.eng.jobs = [j] → s.eng.heldDiscards = [] →
    ((∃ at_, s.link.answered? at_ Op.isSurvey = some (.readForJob j.number volume locator) ∧
        (run = exec (.surveyReadCompletion at_ .full) s ∧ code = .storeFault ∨
          run = exec (.surveyReadCompletion at_ .mediaError) s ∧ s.link.failures < 7 ∧ code = .storeFault ∨
          run = exec (.surveyReadCompletion at_ .notFound) s ∧ volume = 0 ∧ code = .storeFault ∨
          run = exec (.surveyReadCompletion at_ .notFound) s ∧ volume ≠ 0 ∧ code = .notInVolume)) ∨
      ∃ slot : BitVec 3, s.link.timedOut? slot.toNat = some (.readForJob j.number volume locator) ∧ s.link.failures < 7 ∧
        run = exec (.storeOperationTimeout slot) s ∧ code = .storeTimeout) →
    ∃ t, run = .next t ∧ JobFails s t j code) ∧
  (∀ (s : State) (at_ : SlotTag) (volume locator : U32) (j k : Job) (v : View), s.Working → s.Still →
    s.link.state = .online → s.eng.jobs = [j, k] → s.eng.heldDiscards = [] → j.creator = none → j.joiners = [] → k.number ≠ j.number →
    k.state = .queued → k.isReady = true →
    s.link.answered? at_ Op.isSurvey = some (.readForJob j.number volume locator) → s.jobView k = some v →
    ∃ t, exec (.surveyReadCompletion at_ .full) s = .next t ∧
      t.eng.finished.getLast?.map (fun k => (k.number, k.state, k.outcome)) = some (j.number, .failed, .storeFault) ∧
      NextStarts s t j.number k v (s.link.served at_.slot.toNat (.readForJob j.number volume locator))) ∧
  (∀ (s : State) (at_ : SlotTag) (n i : Nat) (volume locator : U32) (body : List U8) (j : Job) (v : View) (d : HeldDiscard),
    s.Working → s.link.answered? at_ Op.isSurvey = some (.readForJob n volume locator) → s.job? n = some j →
    s.jobView j = some v → v.stored = crc32 body → s.eng.heldDiscards = [d] →
    let link := s.link.served at_.slot.toNat (.readForJob n volume locator)
    let ends (l : StoreLink) (held : List HeldDiscard) : Prop := exec (.surveyReadCompletion at_ (.done body)) s =
      .next (State.close (State.withJob { s with
        pool := s.pool.putContent (.job n) body
        eng := { s.eng with histogram := histogramOf body, heldDiscards := held }
        link := l } n fun j => { j with state := .mapping }))
    ((∃ op ∈ link.held, op.reads d.locator = true) → ends link [d]) ∧
    ((∀ op ∈ link.held, op.reads d.locator = false) → link.Takes i → link.discards < 32 →
      ends (link.freeing i d.locator (match d.revertOf with | some r => .withIndex (s.cat.indexOf r) | none => .plain)) [])) ∧
  (∀ (s : State) (j : Job), s.Working → s.Still → s.eng.jobs = [j] → j.state = .mapping → (s.jobView j).isSome = true →
    s.link.state ≠ .online → ∃ t, exec .mappingEnd s = .next t ∧ JobFails s t j .storeOffline) ∧
  ∀ (s : State) (j : Job) (i : Nat) (write : Nat → Points → Op), s.Working → s.eng.mapping? = some j → s.link.Takes i →
    let level := min 3 (j.startLevel + 1)
    ((∃ n p, j.target = .photo n ∧ s.cat.photo? n = some p ∧ write = fun length points =>
        .writeRestoration j.number length (.photo { indexPhoto p with
          current := none, stored := none, level := level, points := some points })) ∨
      (∃ slot number version p, j.target = .page slot number version ∧ s.cat.page? slot number version = some p ∧
        write = fun length points => .writeRestoration j.number length (.page { s.cat.indexPage p with
          current := none, stored := none, level := level, points := some points })) ∨
      (∃ volume key k r, j.target = .sealed volume key ∧ j.recallSlot = some k ∧ s.vol.slot? k = some r ∧
        write = fun length points => .amend j.number r.volume r.key length points level)) →
    let points := pointsOf s.eng.histogram j.low j.high j.span
    let body := (s.pool.content (.job j.number)).map (stretch points)
    exec .mappingEnd s = .next (State.close (State.withJob { s with
      pool := s.pool.putContent (.job j.number) body, eng := { s.eng with histogram := [] }
      link := s.link.occupy i (write body.length points) } j.number fun k =>
        { k with state := .writing, points := some points }))

/-- The points of a body: before widening, the black point is the smallest value whose cumulative count times 1,000 is above
the samples times L, the white point the smallest whose is at least the samples times H. They lie in 0 to 255 with at least
the widening between them, and a sample maps by the three forms of the rule. -/
def Obligations.PointsAndToneStretch : Prop :=
  ∀ (body : List U8) (low high span : Nat), body ≠ [] → low ≤ 100 → 900 ≤ high → high ≤ 1000 → 8 ≤ span → span ≤ 128 →
    let cum (v : Nat) : Nat := body.countP fun x => decide (x.toNat ≤ v)
    let p := pointsOf (histogramOf body) low high span
    (∃ b w, b ≤ w ∧ w ≤ 255 ∧
      body.length * low < cum b * 1000 ∧ (∀ v, v < b → cum v * 1000 ≤ body.length * low) ∧
      body.length * high ≤ cum w * 1000 ∧ (∀ v, v < w → cum v * 1000 < body.length * high) ∧
      p = (if span ≤ w - b then ⟨b, w⟩ else if b + span ≤ 255 then ⟨b, b + span⟩ else ⟨255 - span, 255⟩)) ∧
    p.b + span ≤ p.w ∧ p.w ≤ 255 ∧
    ∀ x : U8, (x.toNat ≤ p.b → stretch p x = 0) ∧ (p.w ≤ x.toNat → stretch p x = 255) ∧
      (p.b < x.toNat → x.toNat < p.w →
        (stretch p x).toNat = ((x.toNat - p.b) * 510 + (p.w - p.b)) / (2 * (p.w - p.b)))

/-- A write-back that completes gives its target the restored body, one level more and the points, and ends its job DONE, its
segments and pin given back: a photograph, a page, or the copy in the slot that serves a sealed target, with the placement copies of
a sealed photograph in the other slots of the volume. The orders that waited on the job are priced on the restored body. The body
that it replaced is freed, or held while a READ BODY names it. A write-back that fails, or times out, fails the job with its outcome
and changes no record and no copy. REVERT: its refusals in order, and its return to the raw body, whose
FREE BODY carries the record's index record; held locators that no read names are freed. The job behind one that is DONE starts in
the same change. -/
def Obligations.RestoredBodiesAndReverts : Prop :=
  (∀ (s : State) (at_ : SlotTag) (j : Job) (op : Op) (w : Written), s.Working → s.Still → s.link.state = .online →
    s.link.answered? at_ Op.isWriteBack = some op → s.eng.jobs = [j] → j.state = .writing →
    let run := exec (.restorationWriteCompletion at_ (.done w)) s
    let link := s.link.served at_.slot.toNat op
    let level := min 3 (j.startLevel + 1)
    let ended (t : State) : Prop := t.eng.jobs = [] ∧ t.pool.heldBy (.job j.number) = 0 ∧
      t.eng.finished.getLast?.map (fun k => (k.number, k.state, k.outcome)) = some (j.number, .done, .ok) ∧
      Raised s t .restoreDone
    (∀ len x cat replaced, op = .writeRestoration j.number len x → s.Restores j w cat replaced →
      (j.creator = none → j.joiners = [] → ∃ t, run = .next t ∧ ended t ∧ t.cat = cat ∧
        (j.startLevel = 0 → t.link = link ∧ t.eng.heldDiscards = s.eng.heldDiscards) ∧
        ∀ l, 0 < j.startLevel → replaced = some l →
          ((∃ r ∈ s.link.held, r.reads l = true) → t.link = link ∧ t.eng.heldDiscards = s.eng.heldDiscards ++ [⟨l, none⟩]) ∧
          ((∀ r ∈ s.link.held, r.reads l = false) → s.link.discards < 32 →
            .freeBody l .plain ∈ t.link.held ∧ t.link.discards = s.link.discards + 1 ∧
              t.eng.heldDiscards = s.eng.heldDiscards)) ∧
      (∀ n o v a masked, j.creator.toList ++ j.joiners = [n] → s.order? n = some o →
        let free (o : Order) : Order := { o with job := none }
        let freed := State.withOrder { s with cat := cat } n free
        freed.orderView (free o) = some v → s.fee.account? o.account = some a → freed.holdCheck (free o) v = .passed masked →
        ∃ t, run = .next t ∧ ended t ∧ t.cat = cat ∧ t.ord.live = (freed.priced (free o) v a).ord.live ∧
          t.fee = (freed.priced (free o) v a).fee ∧ t.stmt = (freed.priced (free o) v a).stmt) ∧
      ∀ ns, j.creator.toList ++ j.joiners = ns → ns.Nodup →
        (∀ n ∈ ns, ∃ o, s.order? n = some o ∧ o.state = .restoreWait ∧ (s.orderView o).isSome = true ∧
          (s.fee.account? o.account).isSome = true) →
        ∃ t, run = .next t ∧ ended t ∧
          (∀ n ∈ ns, ∀ o, t.order? n = some o → o.job = none ∧
            (o.state = .heldRights ∨ o.state = .heldStatement ∨ o.state = .heldFunds ∨ o.state = .charged)) ∧
          ((∀ n ∈ ns, (t.order? n).map Order.state = some .charged) →
            t.stmt.current.entries.map Entry.order = s.stmt.current.entries.map Entry.order ++ ns)) ∧
    ∀ v k len pts lvl given i r, op = .amend j.number v k len pts lvl → j.target = .sealed r.volume given →
      j.recallSlot = some i → s.vol.TableSound → s.vol.slot? i = some r → .job j.number ∈ r.pinners → r.copy ≠ none →
      (∀ x y, s.vol.slot? x = some y → .job j.number ∈ y.pinners → x = i) → j.creator = none → j.joiners = [] →
      let left := r.pinners.filter fun q => q != .job j.number
      ∃ t, run = .next t ∧ ended t ∧ t.cat = s.cat ∧ t.link = link ∧
        t.vol.slot? i = some { r with pinners := left, copy := r.copy.map fun c => match c with
          | .page c => .page { c with current := w.locator, stored := w.stored, level := level, points := j.points }
          | .photo c => .photo { c with current := w.locator, stored := w.stored, level := level, points := j.points } } ∧
        (∀ x y, x ≠ i → s.vol.slot? x = some y → t.vol.slot? x = some (match r.key, y.copy with
          | .photo n, some (.page c) =>
            if y.volume = r.volume then { y with copy := some (.page { c with placed := c.placed.map fun q =>
              if q.place.photo = n then { q with current := w.locator, stored := w.stored, level := level } else q }) }
            else y
          | _, _ => y)) ∧
        t.vol.lru = (if left = [] then s.vol.lru ++ [i] else s.vol.lru)) ∧
  (∀ (s : State) (at_ : SlotTag) (j k : Job) (w : Written) (v : View) len x cat replaced, s.Working → s.Still →
    s.link.state = .online → s.link.answered? at_ Op.isWriteBack = some (.writeRestoration j.number len x) →
    s.eng.jobs = [j, k] → j.state = .writing → j.startLevel = 0 → j.creator = none → j.joiners = [] → s.Restores j w cat replaced →
    k.number ≠ j.number → k.state = .queued → k.isReady = true → State.jobView { s with cat := cat } k = some v →
    ∃ t, exec (.restorationWriteCompletion at_ (.done w)) s = .next t ∧ t.cat = cat ∧
      t.eng.finished.getLast?.map (fun k => (k.number, k.state, k.outcome)) = some (j.number, .done, .ok) ∧
      NextStarts s t j.number k v (s.link.served at_.slot.toNat (.writeRestoration j.number len x))) ∧
  (∀ (s : State) (j : Job) (op : Op) (run : Host.Outcome State Fault Refusal) (code : Code), s.Working → s.Still →
    s.eng.jobs = [j] →
    ((∃ len x, op = .writeRestoration j.number len x) ∨ ∃ v k len pts lvl, op = .amend j.number v k len pts lvl) →
    ((∃ at_, s.link.answered? at_ Op.isWriteBack = some op ∧
        (run = exec (.restorationWriteCompletion at_ .full) s ∧ code = .storeFault ∨
          run = exec (.restorationWriteCompletion at_ .mediaError) s ∧ s.link.failures < 7 ∧ code = .storeFault ∨
          run = exec (.restorationWriteCompletion at_ .notFound) s ∧
            code = match op with | .amend _ _ _ _ _ _ => .notInVolume | _ => .storeFault)) ∨
      ∃ slot : BitVec 3, s.link.timedOut? slot.toNat = some op ∧ s.link.failures < 7 ∧
        run = exec (.storeOperationTimeout slot) s ∧ code = .storeTimeout) →
    ∃ t, run = .next t ∧ JobFails s t j code) ∧
  (∀ (s : State) (tag : U8) (t : TargetFields), s.Ready (.revert tag t) →
    let run := exec (.revert tag t) s
    let refused (code : Code) : Prop := run = .next (s.replied 0x71 tag code [])
    let inRange := t.kind = 1 ∧ t.key.edition.code.toNat ≤ 15 ∧ 1 ≤ t.key.page.toNat ∧ t.key.page.toNat ≤ 128 ∧
        t.key.version.toNat ≤ 7 ∨ t.kind = 2 ∧ t.photo ≠ 0
    let reverts (target : Target) (record : RecId) (level : Nat) (current : Option U32) (cat : Catalogue)
        (index : IndexRecord) : Prop :=
      ((s.jobOn? target).isSome → refused .busy) ∧
      (s.jobOn? target = none →
        (level = 0 → run = .next (s.replied 0x71 tag .ok (u8 0 ++ u32 0))) ∧
        ∀ l, level ≠ 0 → current = some l →
          ((∃ r ∈ s.link.held, r.reads l = true) → run = .next (State.answered { s with
            cat := cat, eng := { s.eng with heldDiscards := s.eng.heldDiscards ++ [⟨l, some record⟩] } } 0x71 tag .ok
            (u8 level ++ u32 l.toNat))) ∧
          ∀ i, (∀ op ∈ s.link.held, op.reads l = false) → s.link.Takes i → s.link.discards < 32 →
            run = .next (State.answered { s with
              cat := cat
              link := { s.link.occupy i (.freeBody l (.withIndex (some index))) with
                discards := s.link.discards + 1 } } 0x71 tag .ok (u8 level ++ u32 l.toNat)))
    (s.req.mode ≠ .service → refused .notInService) ∧
    (s.req.mode = .service → ¬inRange → refused .outOfRange) ∧
    (s.req.mode = .service → inRange → t.volume ≠ 0 → refused .sealed) ∧
    (s.req.mode = .service → inRange → t.volume = 0 → t.kind = 2 →
      (s.cat.photo? t.photo = none → refused .notFound) ∧
      ∀ p, s.cat.photo? t.photo = some p →
        (p.state ≠ .filed → refused .notFiled) ∧
        (p.state = .filed → reverts (.photo t.photo) (.photo t.photo) p.level p.current
          (s.cat.withPhoto t.photo fun p => { p with
            current := p.raw, stored := some p.declared, level := 0, points := none })
          (.photo { indexPhoto p with current := p.raw, stored := some p.declared, level := 0, points := none }))) ∧
    (s.req.mode = .service → inRange → t.volume = 0 → t.kind = 1 →
      (s.cat.slotOf t.key.edition = none → refused .notFound) ∧
      ∀ slot e, s.cat.slotOf t.key.edition = some slot → s.cat.edition? slot = some e →
        (e.state = .sealing → refused .badState) ∧
        (e.state ≠ .sealing → t.key.version = 0 → s.cat.current? slot t.key.page.toNat = none → refused .notFiled) ∧
        (e.state ≠ .sealing → t.key.version ≠ 0 →
          (s.cat.page? slot t.key.page.toNat t.key.version.toNat = none → refused .notFound) ∧
          ∀ p, s.cat.page? slot t.key.page.toNat t.key.version.toNat = some p → p.state ≠ .filed → refused .notFiled) ∧
        ∀ p, e.state ≠ .sealing → s.cat.page? slot p.number p.version = some p →
          (t.key.version = 0 ∧ s.cat.current? slot t.key.page.toNat = some p ∨ t.key.version ≠ 0 ∧ p.state = .filed ∧
            s.cat.page? slot t.key.page.toNat t.key.version.toNat = some p) →
          reverts (.page slot p.number p.version) (.page slot p.number p.version) p.level p.current
            (s.cat.withPage slot p.number p.version fun p => { p with
              current := p.raw, stored := some p.declared, level := 0, points := none })
            (.page { s.cat.indexPage p with
              current := p.raw, stored := some p.declared, level := 0, points := none }))) ∧
  ∀ (s : State) (locator : U32) (i : Nat), s.Working → s.eng.heldDiscards = [⟨locator, none⟩] →
    (∀ op ∈ s.link.held, op.reads locator = false) → s.link.Takes i → s.link.discards < 32 →
    exec .heldDiscardRelease s = .next (State.close { s with
      eng := { s.eng with heldDiscards := [] }
      link := { s.link.occupy i (.freeBody locator .plain) with discards := s.link.discards + 1 } })

/-! ### Holds -/

/-- PLACE HOLD on an entry with the same scope and key changes that entry in place: the later until-day, absent when either
is absent, the request's reason, the number unchanged, and no order is re-evaluated. -/
def Obligations.PlaceHoldMergesInPlace : Prop :=
  ∀ (s : State) (tag : U8) (f : HoldFields) (key : HoldKey) (old : Hold), s.Ready (.placeHold tag f) →
    s.hold.Sound → holdKey? f = some key → old ∈ s.hold.entries → old.key = key →
    let asked : Option Nat := if f.untilFlag = 0 then none else some f.untilDay.toNat
    let merged : Option Nat := match old.untilDay, asked with
      | some d1, some d2 => some (max d1 d2)
      | some _, none => none
      | none, _ => none
    exec (.placeHold tag f) s = .next (State.replied { s with hold := { s.hold with
      entries := s.hold.entries.map fun h =>
        if h = old then { old with reason := f.reason.toNat, untilDay := merged } else h } } 0x14 tag .ok
      (u8 old.number ++ [1]))

/-- PLACE HOLD of a new key takes the lowest free number and is refused with 64 entries; LIFT HOLD removes its entry and
re-evaluates the rights-held list: every order no longer matched leaves it, is counted in the reply, and is priced before the next
is looked at; LIST HOLDS reports the entries, 14 bytes each. A page matches by its day, its edition or itself, a photograph by
itself, and a placement is masked when its photograph matches or has lapsed. That a reply's flag byte is 1 when set (log 30), and
what the finished list's copy of an order that ends keeps (log 16), are the model's choices.
That a STAGED record's write is handed off behind a reading request's reply is the model's choice (log 10). -/
def Obligations.HoldsArePlacedLiftedAndListed : Prop :=
  (∀ (s : State) (tag : U8) (f : HoldFields), s.Ready (.placeHold tag f) →
    (holdKey? f = none → exec (.placeHold tag f) s = .next (s.replied 0x14 tag .outOfRange [])) ∧
    ∀ key, holdKey? f = some key → (∀ h ∈ s.hold.entries, h.key ≠ key) →
      (64 ≤ s.hold.entries.length → exec (.placeHold tag f) s = .next (s.replied 0x14 tag .tableFull [])) ∧
      (s.hold.entries.length < 64 → ∃ n, 1 ≤ n ∧ n ≤ 64 ∧ (∀ h ∈ s.hold.entries, h.number ≠ n) ∧
        (∀ m, 1 ≤ m → m < n → ∃ h ∈ s.hold.entries, h.number = m) ∧
        exec (.placeHold tag f) s = .next (State.replied { s with hold := { s.hold with
          entries := insertHold ⟨n, key, f.reason.toNat, if f.untilFlag = 0 then none else some f.untilDay.toNat⟩
            s.hold.entries } } 0x14 tag .ok (u8 n ++ [0])))) ∧
  (∀ f : HoldFields, f.reason.toNat ≤ 15 →
    (f.scope = 1 → holdKey? f = some (.day f.day.toNat)) ∧
    (f.scope = 2 → f.code.toNat ≤ 15 → holdKey? f = some (.edition ⟨f.day, f.code⟩)) ∧
    (f.scope = 3 → f.code.toNat ≤ 15 → 1 ≤ f.page.toNat → f.page.toNat ≤ 128 →
      holdKey? f = some (.page ⟨f.day, f.code⟩ f.page.toNat)) ∧
    (f.scope = 4 → f.photo ≠ 0 → holdKey? f = some (.photo f.photo)) ∧
    (f.scope = 0 ∨ 4 < f.scope.toNat → holdKey? f = none) ∧
    (f.scope = 2 ∨ f.scope = 3 → 15 < f.code.toNat → holdKey? f = none) ∧
    (f.scope = 3 → f.page = 0 ∨ 128 < f.page.toNat → holdKey? f = none) ∧
    (f.scope = 4 → f.photo = 0 → holdKey? f = none)) ∧
  (∀ f : HoldFields, 15 < f.reason.toNat → holdKey? f = none) ∧
  (∀ (s : State) (tag n : U8), s.Ready (.liftHold tag n) →
    (n = 0 → exec (.liftHold tag n) s = .next (s.replied 0x15 tag .outOfRange [])) ∧
    (n ≠ 0 → (∀ h ∈ s.hold.entries, h.number ≠ n.toNat) →
      exec (.liftHold tag n) s = .next (s.replied 0x15 tag .notFound [])) ∧
    (n ≠ 0 → (∃ h ∈ s.hold.entries, h.number = n.toNat) →
      (∃ t, exec (.liftHold tag n) s = .next t ∧
        t.hold.entries = s.hold.entries.filter fun h => h.number != n.toNat) ∧
      let left : State := { s with hold := { s.hold with entries := s.hold.entries.filter fun h => h.number != n.toNat } }
      let without (u : State) (m : Nat) : State := { u with hold := { u.hold with held := u.hold.held.filter fun k => k != m } }
      (left.unmatched = [] → exec (.liftHold tag n) s = .next (left.replied 0x15 tag .ok [0])) ∧
      (s.hold.held.Nodup → s.ord.Sound → ∃ t, exec (.liftHold tag n) s = .next t ∧
        FirstSent s t (s.replyFrame 0x15 tag .ok (u8 left.unmatched.length))) ∧
      (∀ m o v a masked, left.unmatched = [m] → s.order? m = some o → s.orderView o = some v →
        s.fee.account? o.account = some a → left.holdCheck o v = .passed masked →
        exec (.liftHold tag n) s = .next (State.answered ((without left m).priced o v a) 0x15 tag .ok [1])) ∧
      (∀ m o v, s.req.mode = .service → s.Still → left.unmatched = [m] → s.order? m = some o → s.orderView o = some v →
        (s.fee.account? o.account).isSome → left.holdCheck o v = .expired → ∃ t, exec (.liftHold tag n) s = .next t ∧
          t.order? m = none ∧ t.ord.finished.getLast? = some (o.finishedCopy .ended .rightsExpired) ∧
          t.hold.held = s.hold.held.filter (fun k => k != m) ∧ Raised s t .orderEnded) ∧
      ∀ m1 m2 o1 o2 v1 v2 a1 a2 x1 x2, left.unmatched = [m1, m2] → m1 ≠ m2 → s.order? m1 = some o1 →
        s.order? m2 = some o2 → s.orderView o1 = some v1 → s.orderView o2 = some v2 → s.fee.account? o1.account = some a1 →
        left.holdCheck o1 v1 = .passed x1 → left.holdCheck o2 v2 = .passed x2 →
        let first := (without left m1).priced o1 v1 a1
        first.fee.account? o2.account = some a2 →
        exec (.liftHold tag n) s = .next (State.answered ((without first m2).priced o2 v2 a2) 0x15 tag .ok [2]))) ∧
  ((∀ (l : HoldList) (k : EditionKey) (page : Nat), l.pageMatches k page = true ↔
    ∃ h ∈ l.entries, h.key = .day k.day.toNat ∨ h.key = .edition k ∨ h.key = .page k page) ∧
    (∀ (l : HoldList) (n : U32), l.photoMatches n = true ↔ ∃ h ∈ l.entries, h.key = .photo n) ∧
    (∀ (s : State) (v : View), (s.maskOf v).Pairwise (· < ·) ∧ ∀ n, n ∈ s.maskOf v ↔ ∃ p, 1 ≤ n ∧
      v.placed[n - 1]? = some p ∧ ((∃ h ∈ s.hold.entries, h.key = .photo p.place.photo) ∨
        ∃ d, p.rights.untilDay = some d ∧ d < s.cal.day)) ∧
    (∀ (c : Catalogue) (p : Page) (i : Nat) (pl : Placement) (q : Photo), p.placements[i]? = some pl →
      c.photo? pl.photo = some q → (c.pageView p).placed[i]? = some ⟨pl, q.rights⟩) ∧
    ∀ (x : PageCopy) (i : Nat) (y : PlacedCopy), x.placed[i]? = some y →
      (copyView (.page x)).placed[i]? = some ⟨y.place, y.rights⟩) ∧
  ∀ (s : State) (tag : U8), s.Asked (.listHolds tag) → exec (.listHolds tag) s = .next (s.reported 0x16 tag .ok
    (u8 s.hold.entries.length ++ u8 s.hold.held.length ++ s.hold.entries.flatMap fun h =>
      let scope : List U8 := match h.key with | .day _ => [1] | .edition _ => [2] | .page _ _ => [3] | .photo _ => [4]
      u8 h.number ++ scope ++ u8 h.reason ++ h.untilDay.elim [0, 0, 0] (fun d => [1] ++ u16 d) ++ match h.key with
        | .day d => u16 d ++ [0, 0] ++ u32 0
        | .edition k => u16 k.day.toNat ++ u8 k.code.toNat ++ [0] ++ u32 0
        | .page k p => u16 k.day.toNat ++ u8 k.code.toNat ++ u8 p ++ u32 0
        | .photo p => [0, 0, 0, 0] ++ u32 p.toNat))


/-! ### Orders -/

/-- PLACE ORDER: refused by its checks in order, using no number; else the order has the next number. Its edition not resident,
or not closed, or its page without the version it names, it ends at once. An order of a SEALING edition joins the seal waiters. A
page order of a CLOSED edition pins it and, with the restore flag clear or a restored page, is priced: held by its page's hold, for
statement room or for funds, or charged with its statement entry; with the restore flag set and a body of level 0, an order joins the
job on its page or photograph, creates one, which starts in the same change on an idle engine, or ends TABLE_FULL. A photo-only order
pins its photograph too and is priced on it. An order of a volume asks for its recall, and is priced at once on a RESIDENT slot.
That the next job number, where the order creates a job, skips held ones as it advances is the model's choice (log 34). -/
def Obligations.OrdersArePlacedAndPriced : Prop :=
  ∀ (s : State) (tag : U8) (f : OrderFields), s.Ready (.placeOrder tag f) → s.ord.Sound →
    let run := exec (.placeOrder tag f) s
    let n := s.ord.next
    let key := f.key.edition
    let page := f.key.page.toNat
    let account := f.account.toNat
    let counted := s.withAccount account fun a => { a with live := a.live + 1 }
    let refusal : Option Code :=
      if s.req.mode ≠ .service then some .notInService
      else if s.cal.state = .invalid then some .calendarUnset
      else if 15 < key.code.toNat ∨ page < 1 ∨ 128 < page ∨ 7 < f.key.version.toNat ∨ 4 < f.useClass.toNat ∨
          3 < f.sizeClass.toNat ∨ f.copies.toNat < 1 ∨ 50 < f.copies.toNat ∨ f.sizeClass = 3 ∧ f.photo = 0 then
        some .outOfRange
      else if s.fee.account? account = none then some .notFound
      else if 32 ≤ s.ord.live.length then some .tableFull
      else if 4294967295 < n then some .orderNumbersExhausted
      else none
    (∀ code, refusal = some code → run = .next (s.replied 0x78 tag code [])) ∧
    (refusal = none →
      (∃ t, run = .next t ∧ t.ord.next = n + 1 ∧
        ∃ code st, FirstSent s t (s.replyFrame 0x78 tag code (u32 n ++ [st]))) ∧
      (∀ code, f.volume = 0 → s.Fresh n →
        (code = .notResident ∧ s.cat.slotOf key = none ∨ code = .editionOpen ∧ ∃ slot e, s.cat.slotOf key = some slot ∧
          s.cat.edition? slot = some e ∧ (e.state = .opened ∨ e.state = .closing)) →
        ∃ t, run = .next t ∧ FirstSent s t (s.replyFrame 0x78 tag code (u32 n ++ [15])) ∧ t.ord.live = s.ord.live ∧
          t.ord.finished.getLast?.map (fun o => (o.number, o.state, o.outcome)) = some (n, .ended, code) ∧
          Raised s t .orderEnded) ∧
      (∀ slot e code, f.volume = 0 → s.Fresh n → s.cat.slotOf key = some slot → s.cat.edition? slot = some e →
        (e.state = .closed ∨ e.state = .sealing) →
        (code = .notFiled ∧ f.key.version = 0 ∧ s.cat.current? slot page = none ∨
          code = .notFound ∧ f.key.version ≠ 0 ∧ s.cat.page? slot page f.key.version.toNat = none ∨
          (∃ p, code = .notFiled ∧ f.key.version ≠ 0 ∧ s.cat.page? slot page f.key.version.toNat = some p ∧
            p.state ≠ .filed) ∨
          ∃ p, code = .notFound ∧ f.sizeClass = 3 ∧ s.cat.resolve slot page f.key.version.toNat = .ok p ∧
            ∀ pl ∈ p.placements, pl.photo ≠ f.photo) →
        ∃ t, run = .next t ∧ FirstSent s t (s.replyFrame 0x78 tag code (u32 n ++ [15])) ∧ t.ord.live = s.ord.live ∧
          t.ord.finished.getLast?.map (fun o => (o.number, o.state, o.outcome)) = some (n, .ended, code) ∧
          Raised s t .orderEnded) ∧
      (∀ slot e p, f.volume = 0 → s.cat.slotOf key = some slot → s.cat.edition? slot = some e → e.state = .sealing →
        s.cat.resolve slot page f.key.version.toNat = .ok p → (f.sizeClass = 3 → ∃ pl ∈ p.placements, pl.photo = f.photo) →
        run = .next (State.answered { counted with
          vol := { s.vol with waiters := s.vol.waiters ++ [n] }
          ord := { s.ord with
            live := s.ord.live ++ [{ newOrder f n with resolved := some p.version, state := .waitSeal }], next := n + 1 } }
          0x78 tag .ok (u32 n ++ [1]))) ∧
      (∀ slot e p photo a, f.volume = 0 → f.sizeClass = 3 → f.restore = 0 → s.cat.slotOf key = some slot →
        s.cat.edition? slot = some e → e.state = .closed → s.cat.resolve slot page f.key.version.toNat = .ok p →
        (∃ pl ∈ p.placements, pl.photo = f.photo) → s.cat.photo? f.photo = some photo →
        s.fee.account? account = some a →
        let placed : Order := { newOrder f n with
          resolved := some p.version, pinEdition := some slot, pinPhoto := some f.photo }
        let waiting : State := { counted with
          cat := (s.cat.withEdition slot fun e => { e with pins := e.pins + 1 }).withPhoto f.photo fun q =>
            { q with pins := q.pins + 1 }
          ord := { s.ord with live := s.ord.live ++ [placed], next := n + 1 } }
        let held := s.hold.pageMatches key page = true ∨ s.hold.photoMatches f.photo = true
        let hasLapsed := ∃ d, photo.rights.untilDay = some d ∧ d < s.cal.day
        (held → run = .next (State.answered (State.latch (State.withOrder { waiting with
          hold := { s.hold with held := s.hold.held ++ [n] } } n fun o => { o with state := .heldRights }) .orderHeld)
          0x78 tag .ok (u32 n ++ [5]))) ∧
        (¬held → hasLapsed → s.Fresh n → (e.due = true → 0 < e.pins) → ∃ t, run = .next t ∧
          FirstSent s t (s.replyFrame 0x78 tag .rightsExpired (u32 n ++ [15])) ∧ t.ord.live = s.ord.live ∧
          t.ord.finished.getLast?.map (fun o => (o.number, o.state, o.outcome)) = some (n, .ended, .rightsExpired) ∧
          t.cat = s.cat) ∧
        (¬held → ¬hasLapsed →
          let done := waiting.priced placed (photoView photo) { a with live := a.live + 1 }
          ∃ o, done.order? n = some o ∧
            run = .next (State.answered done 0x78 tag .ok (u32 n ++ u8 o.state.toNat)))) ∧
      (∀ sought, f.volume ≠ 0 →
        sought = (if f.sizeClass = 3 then EntryKey.photo f.photo else .page key page f.key.version.toNat) →
        let asking : Order := { newOrder f n with state := .recalling }
        let waiting (o : Order) (v : VolumeUnit) : State := { counted with
          vol := v, ord := { s.ord with live := s.ord.live ++ [o], next := n + 1 } }
        (∀ i k, s.vol.holding f.volume sought = none → s.vol.recallWait = [] →
          s.vol.table.findIdx? Option.isNone = some i → s.link.Takes k →
          run = .next (State.answered { (waiting asking
              { s.vol with table := s.vol.table.set i (some ⟨f.volume, sought, [.order n], none⟩) }) with
            link := s.link.occupy k (.readEntry i f.volume sought) } 0x78 tag .ok (u32 n ++ [2]))) ∧
        (∀ i rest k, s.vol.holding f.volume sought = none → s.vol.recallWait = [] →
          s.vol.table.findIdx? Option.isNone = none → s.vol.lru = i :: rest → s.link.Takes k →
          run = .next (State.answered { (waiting asking { s.vol with
              table := s.vol.table.set i (some ⟨f.volume, sought, [.order n], none⟩), lru := rest }) with
            link := s.link.occupy k (.readEntry i f.volume sought) } 0x78 tag .ok (u32 n ++ [2]))) ∧
        (s.vol.holding f.volume sought = none → s.vol.recallWait ≠ [] →
          run = .next (State.answered (waiting asking
            { s.vol with recallWait := s.vol.recallWait ++ [⟨.order n, f.volume, sought⟩] }) 0x78 tag .ok (u32 n ++ [2]))) ∧
        ∀ i r, s.vol.holding f.volume sought = some i → s.vol.slot? i = some r →
          let pinned : VolumeUnit := { s.vol with
            table := s.vol.table.set i (some { r with pinners := r.pinners ++ [.order n] })
            lru := s.vol.lru.filter fun k => k != i }
          (r.copy = none → run = .next (State.answered (waiting asking pinned) 0x78 tag .ok (u32 n ++ [2]))) ∧
          ∀ c v a masked, r.copy = some c → f.restore = 0 → s.fee.account? account = some a →
            let given : Order := { asking with
              recallSlot := some i
              resolved := if f.sizeClass = 3 then none else match r.key with | .page _ _ v => some v | .photo _ => none }
            let u := waiting given pinned
            u.orderView given = some v → u.holdCheck given v = .passed masked →
            let done := u.priced given v { a with live := a.live + 1 }
            ∃ o, done.order? n = some o ∧
              run = .next (State.answered done 0x78 tag .ok (u32 n ++ u8 o.state.toNat))) ∧
      (∀ slot e p v target, f.volume = 0 → f.restore ≠ 0 → s.cat.slotOf key = some slot →
        s.cat.edition? slot = some e → e.state = .closed → s.cat.resolve slot page f.key.version.toNat = .ok p →
        (f.sizeClass ≠ 3 ∧ s.cat.page? slot page p.version = some p ∧ target = .page slot page p.version ∧
            v = s.cat.pageView p ∨
          f.sizeClass = 3 ∧ (∃ pl ∈ p.placements, pl.photo = f.photo) ∧ target = .photo f.photo ∧
            ∃ q, s.cat.photo? f.photo = some q ∧ v = photoView q) →
        v.level = 0 →
        let pinned (k : Nat) : Catalogue := if f.sizeClass = 3 then
            (s.cat.withEdition slot fun e => { e with pins := e.pins + 1 }).withPhoto f.photo fun q =>
              { q with pins := q.pins + k }
          else s.cat.withEdition slot fun e => { e with pins := e.pins + k }
        let placed : Order := { newOrder f n with
          resolved := some p.version, pinEdition := some slot, state := .restoreWait
          pinPhoto := if f.sizeClass = 3 then some f.photo else none }
        (∀ j, s.jobOn? target = some j → s.job? j.number = some j → run = .next (State.answered { counted with
          cat := pinned 1
          eng := { s.eng with jobs := s.eng.jobs.map fun k =>
            if k.number = j.number then { k with joiners := k.joiners ++ [n] } else k }
          ord := { s.ord with live := s.ord.live ++ [{ placed with job := some j.number }], next := n + 1 } }
          0x78 tag .ok (u32 n ++ [3]))) ∧
        (s.jobOn? target = none → s.eng.jobs.length < 8 → s.eng.Sound → JobCreated { counted with
            cat := pinned 2
            ord := { s.ord with
              live := s.ord.live ++ [{ placed with job := some s.eng.nextJob, bearer := true }], next := n + 1 } }
          ⟨s.eng.nextJob, .queued, target, none, 5, 995, 16, some n, [], 0, 0, none, .pending,
            if f.sizeClass = 3 then noKey else e.key⟩ v
          (fun u => run = .next (u.answered 0x78 tag .ok (u32 n ++ [3])))
          fun u => run = .next (u.answered 0x78 tag .ok (u32 n ++ [3]))) ∧
        (s.jobOn? target = none → 8 ≤ s.eng.jobs.length → s.Fresh n → (e.due = true → 0 < e.pins) →
          ∃ t, run = .next t ∧ FirstSent s t (s.replyFrame 0x78 tag .tableFull (u32 n ++ [15])) ∧ t.ord.live = s.ord.live ∧
          t.ord.finished.getLast?.map (fun o => (o.number, o.state, o.outcome)) = some (n, .ended, .tableFull) ∧
          t.eng.jobs = s.eng.jobs ∧ t.cat = s.cat)) ∧
      ∀ slot e p a, f.volume = 0 → f.sizeClass ≠ 3 → (f.restore = 0 ∨ p.level ≠ 0) → s.cat.slotOf key = some slot →
        s.cat.edition? slot = some e → e.state = .closed → s.cat.resolve slot page f.key.version.toNat = .ok p →
        s.cat.page? slot page p.version = some p → s.fee.account? account = some a →
        let view := s.cat.pageView p
        let masked := s.maskOf view
        let placed : Order := { newOrder f n with resolved := some p.version, pinEdition := some slot }
        let price := s.fee.schedule.price s.cal.day a.tier placed (soldRights placed view masked)
        let room : Int := a.balance + a.limit
        let entered (u : State) (o : Order) : Host.Outcome State Fault Refusal := .next (State.answered { u with
          cat := s.cat.withEdition slot fun e => { e with pins := e.pins + 1 }
          ord := { s.ord with live := s.ord.live ++ [o], next := n + 1 } } 0x78 tag .ok (u32 n ++ u8 o.state.toNat))
        (s.hold.pageMatches key page = true → run = entered { (counted.latch .orderHeld) with
          hold := { s.hold with held := s.hold.held ++ [n] } } { placed with state := .heldRights }) ∧
        (s.hold.pageMatches key page = false →
          (512 ≤ s.stmt.current.entries.length → run = entered { (counted.latch .orderHeld) with
            stmt := { s.stmt with held := s.stmt.held ++ [n] } } { placed with state := .heldStatement }) ∧
          (s.stmt.current.entries.length < 512 →
            (a.queue ≠ [] ∨ room < price.total → run = entered
              ((counted.withAccount account fun a => { a with queue := a.queue ++ [n] }).latch .orderHeld)
              { placed with state := .heldFunds }) ∧
            (a.queue = [] → (price.total : Int) ≤ room →
              let paid := counted.withAccount account fun a => { a with balance := a.balance - price.total }
              run = entered { (if s.stmt.current.entries.length = 511 then paid.latch .statementFull else paid) with
                stmt := { s.stmt with current := { s.stmt.current with
                  entries := s.stmt.current.entries ++ [⟨n, account, s.cal.day, s.cal.hour, s.cal.minute,
                    f.useClass.toNat, f.sizeClass.toNat, f.copies.toNat, masked.length, price.core, price.royalties,
                    price.surcharge, price.total⟩] } } }
                { placed with state := .charged, masked := masked.length, charged := price.total }))))

/-- CANCEL ORDER refuses a charged order and takes any earlier one out of the table and of every list; the cancel of the head of an
account's held-funds queue retries the queue, which charges the order behind it or leaves that order the new head. A creating order
that leaves takes its QUEUED job with it when no other order joined it, and else is cleared from the job, which goes on. RETIRE ORDER
takes a CHARGED one out, its statement entry and its account's balance as they were. Either order releases what it holds: its place
in the recall wait queue, whose new head is then served; its recall slot's pin, after which a RESIDENT slot that none pins joins the
least-recently-unpinned list and serves that queue; its photograph's pin; and its edition's, the last of which puts a due edition in
the seal queue, its due flag cleared. What the finished list's copy of an order keeps (log 16), and that a waiting head which stays
the head is not served although a pinned slot holds its key (log 41), are the model's choices. -/
def Obligations.OrdersAreCancelledAndRetired : Prop :=
  (∀ (s : State) (tag : U8) (n : U32), s.Ready (.cancelOrder tag n) →
    let run := exec (.cancelOrder tag n) s
    (n = 0 → run = .next (s.replied 0x79 tag .outOfRange [])) ∧
    (n ≠ 0 → s.order? n.toNat = none → run = .next (s.replied 0x79 tag .notFound [])) ∧
    ∀ o, n ≠ 0 → s.order? n.toNat = some o →
      let late := o.state = .charged ∨ o.state = .preparing ∨ o.state = .ready ∨ o.state = .delivering
      (late → run = .next (s.replied 0x79 tag .alreadyCharged [])) ∧
      (¬late → ∃ t, run = .next t ∧ FirstSent s t (s.replyFrame 0x79 tag .ok (u8 o.state.toNat)) ∧
        t.order? n.toNat = none ∧
        (s.Still → (s.req.mode = .setupPending → s.vol.waiters = []) →
          (∀ a, s.fee.account? o.account = some a → a.queue.head? ≠ some n.toNat) →
          t.ord.live = s.ord.live.filter (fun x => x.number != n.toNat) ∧
          t.ord.finished.getLast? = some (o.finishedCopy .cancelled .aborted) ∧
          t.hold.held = s.hold.held.filter (fun m => m != n.toNat) ∧
          t.stmt.held = s.stmt.held.filter (fun m => m != n.toNat) ∧
          t.vol.waiters = s.vol.waiters.filter (fun m => m != n.toNat) ∧
          t.fee.accounts = s.fee.accounts.map (fun a =>
            if a.number = o.account then { a with live := a.live - 1, queue := a.queue.filter fun m => m != n.toNat }
            else a) ∧
          t.pool.heldBy (.order n.toNat) = 0 ∧
          (∀ slot e, s.req.mode ≠ .setupPending → o.pinEdition = some slot → s.cat.edition? slot = some e → o.job = none →
            t.cat.edition? slot = some { e with pins := e.pins - 1 }) ∧
          ∀ j, o.job = some j.number → s.job? j.number = some j →
            (j.creator = some n.toNat → j.state = .queued → j.joiners = [] → t.job? j.number = none ∧
              t.eng.finished.getLast?.map (fun k => (k.number, k.state, k.outcome)) = some (j.number, .failed, .aborted) ∧
              (s.req.mode ≠ .setupPending →
                (∀ slot page version e, j.target = .page slot page version → o.pinEdition = some slot →
                  s.cat.edition? slot = some e → t.cat.edition? slot = some { e with pins := e.pins - 2 }) ∧
                ∀ p q, j.target = .photo p → o.pinPhoto = some p → s.cat.photo? p = some q →
                  t.cat.photo? p = some { q with pins := q.pins - 2 })) ∧
            (j.creator = some n.toNat → j.state ≠ .queued ∨ j.joiners ≠ [] → t.job? j.number =
              some { j with creator := none, joiners := j.joiners.filter fun m => m != n.toNat }) ∧
            (j.creator ≠ some n.toNat →
              t.job? j.number = some { j with joiners := j.joiners.filter fun m => m != n.toNat })))) ∧
  (∀ (s : State) (tag : U8) (n : U32) (m : Nat) (o o2 : Order) (a : Account) (v2 : View), s.Ready (.cancelOrder tag n) →
    s.req.mode = .service → s.Still → s.fee.Sound → s.ord.Sound → n ≠ 0 → s.order? n.toNat = some o → o.state = .heldFunds →
    s.fee.account? o.account = some a → a.queue = [n.toNat, m] → m ≠ n.toNat → s.order? m = some o2 →
    o2.state = .heldFunds → o2.account = o.account → s.orderView o2 = some v2 →
    s.holdCheck o2 v2 = .passed (s.maskOf v2) → s.stmt.current.entries.length < 512 →
    let total : Int := (s.priceOf o2 v2 a).total
    ∃ t, exec (.cancelOrder tag n) s = .next t ∧ FirstSent s t (s.replyFrame 0x79 tag .ok [7]) ∧ t.order? n.toNat = none ∧
      (total ≤ a.balance + a.limit →
        t.fee.account? a.number = some { a with balance := a.balance - total, live := a.live - 1, queue := [] } ∧
        t.order? m = some { o2 with
          state := .charged, masked := (s.maskOf v2).length, charged := (s.priceOf o2 v2 a).total } ∧
        t.stmt.current.entries.map Entry.order = s.stmt.current.entries.map Entry.order ++ [m]) ∧
      (a.balance + a.limit < total →
        t.fee.account? a.number = some { a with live := a.live - 1, queue := [m] } ∧ t.order? m = some o2 ∧
        t.stmt.current = s.stmt.current)) ∧
  (∀ (s : State) (c : Instr) (tag : U8) (n : U32) (o : Order), s.Ready c → s.req.mode = .service → s.pool.claims = [] →
    n ≠ 0 → s.order? n.toNat = some o →
    (c = .retireOrder tag n ∧ o.state = .charged ∨
      c = .cancelOrder tag n ∧ (o.state ≠ .charged ∧ o.state ≠ .preparing ∧ o.state ≠ .ready ∧ o.state ≠ .delivering) ∧
        (∀ a, s.fee.account? o.account = some a → a.queue.head? ≠ some n.toNat) ∧
        ∀ j, o.job = some j.number → s.job? j.number = some j →
          j.creator ≠ some n.toNat ∨ j.state ≠ .queued ∨ j.joiners ≠ []) →
    let r : Requester := .order n.toNat
    let undue : Prop := ∀ e ∈ s.cat.editions, e.all (fun x => !x.due) = true
    ∃ t, exec c s = .next t ∧ t.order? n.toNat = none ∧
      (s.Still → ∀ p q, o.pinPhoto = some p → s.cat.photo? p = some q →
        t.cat.photo? p = some { q with pins := q.pins - 1 }) ∧
      (∀ slot e, s.vol.recallWait = [] → o.pinEdition = some slot → s.cat.edition? slot = some e → e.due = true →
        (1 < e.pins → t.cat.edition? slot = some { e with pins := e.pins - 1 } ∧ t.vol.sealQueue = s.vol.sealQueue) ∧
        (e.pins ≤ 1 →
          (∀ first x, s.vol.sealQueue.head? = some first → s.cat.edition? first = some x → x.state = .sealing →
            slot ∉ s.vol.sealQueue →
            t.cat.edition? slot = some { e with pins := 0, due := false } ∧ t.vol.sealQueue = s.vol.sealQueue ++ [slot]) ∧
          ∀ i, s.vol.sealQueue = [] → e.state = .closed → (∀ m, .closeMark slot m ∉ s.link.held) → s.link.Takes i →
            t.cat.edition? slot = some { e with pins := 0, due := false, state := .sealing } ∧ t.vol.sealQueue = [slot] ∧
            t.link = s.link.occupy i (.sealVolume slot (t.cat.sealContent slot e)))) ∧
      (undue → (∀ i x, s.vol.slot? i = some x → r ∉ x.pinners) →
        let left := s.vol.recallWait.filter fun w => w.requester != r
        ((∀ w ∈ left.head?, s.vol.recallWait.head? = some w ∨ s.vol.holding w.volume w.key = none ∧
            s.vol.table.findIdx? Option.isNone = none ∧ s.vol.lru = []) →
          t.vol.recallWait = left ∧ t.vol.table = s.vol.table ∧ t.vol.lru = s.vol.lru) ∧
        ∀ m j k x c v, left = [⟨.job m, v, x.key⟩] → s.vol.recallWait.head?.map RecallWaiter.requester = some r →
          s.vol.holding v x.key = some k → s.vol.slot? k = some x → x.copy = some c → (copyView c).level ≠ 3 →
          s.job? m = some j → j.state = .queued → (∀ z ∈ s.eng.jobs, z.recallSlot ≠ some k) →
          (∃ z ∈ s.eng.jobs, z.state.isActive = true) →
          t.vol.recallWait = [] ∧ t.vol.lru = s.vol.lru.filter (fun y => y != k) ∧
          t.vol.table = s.vol.table.set k (some { x with pinners := x.pinners ++ [.job m] }) ∧
          (t.job? m).map Job.recallSlot = some (some k)) ∧
      ∀ i x, undue → s.vol.slot? i = some x → r ∈ x.pinners → (∀ k y, s.vol.slot? k = some y → r ∈ y.pinners → k = i) →
        (∀ w ∈ s.vol.recallWait, w.requester ≠ r) →
        let left := x.pinners.filter fun q => q != r
        let table := s.vol.table.set i (some { x with pinners := left })
        (left ≠ [] ∨ x.copy = none → t.vol.table = table ∧ t.vol.lru = s.vol.lru ∧ t.vol.recallWait = s.vol.recallWait ∧
          t.link = s.link) ∧
        (left = [] → x.copy ≠ none →
          (s.vol.recallWait = [] → t.vol.table = table ∧ t.vol.lru = s.vol.lru ++ [i] ∧ t.link = s.link) ∧
          ∀ w k rest b, s.vol.recallWait = [w] → s.vol.holding w.volume w.key = none →
            s.vol.table.findIdx? Option.isNone = none → s.vol.lru ++ [i] = k :: rest → s.link.Takes b →
            t.vol.table = table.set k (some ⟨w.volume, w.key, [w.requester], none⟩) ∧ t.vol.lru = rest ∧
            t.vol.recallWait = [] ∧ t.link = s.link.occupy b (.readEntry k w.volume w.key))) ∧
  ∀ (s : State) (tag : U8) (n : U32), s.Ready (.retireOrder tag n) →
    let run := exec (.retireOrder tag n) s
    (n = 0 → run = .next (s.replied 0x7A tag .outOfRange [])) ∧
    (n ≠ 0 → s.order? n.toNat = none → run = .next (s.replied 0x7A tag .notFound [])) ∧
    ∀ o, n ≠ 0 → s.order? n.toNat = some o →
      (o.state ≠ .charged → run = .next (s.replied 0x7A tag .badState [])) ∧
      (o.state = .charged → ∃ t, run = .next t ∧ FirstSent s t (s.replyFrame 0x7A tag .ok (u32 o.charged)) ∧
        t.order? n.toNat = none ∧
        (s.Still → t.ord.live = s.ord.live.filter (fun x => x.number != n.toNat) ∧
          t.ord.finished.getLast? = some (o.finishedCopy .retired .ok) ∧ t.stmt.current = s.stmt.current ∧
          t.fee.accounts = s.fee.accounts.map (fun a =>
            if a.number = o.account then { a with live := a.live - 1, queue := a.queue.filter fun m => m != n.toNat }
            else a) ∧
          ∀ slot e, o.pinEdition = some slot → s.cat.edition? slot = some e →
            t.cat.edition? slot = some { e with pins := e.pins - 1 }))

/-- PREPARE DELIVERY: its checks in order, and the preparation it begins, whose reply is suspended; a landed body with the
recorded check goes on to the finishing work, any other end makes the order CHARGED again and forms the reply. The completion of the
read frees the held locators that no read names any more. -/
def Obligations.DeliveriesArePrepared : Prop :=
  (∀ (s : State) (tag : U8) (n : U32), s.Ready (.prepareDelivery tag n) →
    let run := exec (.prepareDelivery tag n) s
    (s.req.mode ≠ .service → run = .next (s.replied 0x7C tag .notInService [])) ∧
    (s.req.mode = .service → n = 0 → run = .next (s.replied 0x7C tag .outOfRange [])) ∧
    (s.req.mode = .service → n ≠ 0 → s.order? n.toNat = none → run = .next (s.replied 0x7C tag .notFound [])) ∧
    ∀ o, s.req.mode = .service → n ≠ 0 → s.order? n.toNat = some o →
      (o.state ≠ .charged → run = .next (s.replied 0x7C tag .badState [])) ∧
      ∀ v, o.state = .charged → s.orderView o = some v →
        let matched := s.hold.pageMatches o.key o.page = true ∨ ∃ p, o.photo = some p ∧ s.hold.photoMatches p = true
        let hasLapsed := ∃ p r d, o.photo = some p ∧ v.own = some r ∧ r.untilDay = some d ∧ d < s.cal.day
        let prepared := s.ord.live.countP fun x => x.state == .preparing || x.state == .ready || x.state == .delivering
        let need := (v.grid.cols * v.grid.rows + 15) / 16
        (matched → run = .next (s.replied 0x7C tag .held [])) ∧
        (¬matched → hasLapsed → run = .next (s.replied 0x7C tag .rightsExpired [])) ∧
        (¬matched → ¬hasLapsed → 4 ≤ prepared → run = .next (s.replied 0x7C tag .busy [])) ∧
        (¬matched → ¬hasLapsed → prepared < 4 →
          let begun (u : State) (readOf : Option (U32 × U32)) : State := State.withOrder u n.toNat fun o => { o with
            attempts := min 255 (o.attempts + 1), maskSet := some (if o.photo.isSome then [] else s.maskOf v)
            state := .preparing, prepTag := some tag, landed := false, readOf := readOf }
          (∀ i, s.pool.claims = [] → need + 32 ≤ s.pool.free → s.link.Takes i → run = .next (State.close (begun
            { s.popped with
              pool := s.pool.given (.order n.toNat) need
              link := s.link.occupy i (.readForOrder n.toNat o.volume v.current) } (some (v.current, v.stored))))) ∧
          (s.pool.claims ≠ [] ∨ s.pool.free < need + 32 → run = .next (State.close (begun
            { s.popped with pool := { s.pool with claims := s.pool.claims ++ [⟨.order n.toNat, need⟩] } } none))))) ∧
  (∀ (s : State) (at_ : SlotTag) (n i : Nat) (volume locator : U32) (o : Order) (body : List U8) (d : HeldDiscard), s.Working →
    s.link.answered? at_ Op.isDelivery = some (.readForOrder n volume locator) → s.order? n = some o →
    o.readOf.map Prod.snd = some (crc32 body) → s.eng.heldDiscards = [d] →
    let link := s.link.served at_.slot.toNat (.readForOrder n volume locator)
    let ends (l : StoreLink) (held : List HeldDiscard) : Prop := exec (.deliveryReadCompletion at_ (.done body)) s =
      .next (State.close (State.withOrder { s with
        pool := s.pool.putContent (.order n) body, eng := { s.eng with heldDiscards := held }, link := l } n fun o =>
          { o with landed := true }))
    ((∃ op ∈ link.held, op.reads d.locator = true) → ends link [d]) ∧
    ((∀ op ∈ link.held, op.reads d.locator = false) → link.Takes i → link.discards < 32 →
      ends (link.freeing i d.locator (match d.revertOf with | some r => .withIndex (s.cat.indexOf r) | none => .plain)) [])) ∧
  ∀ (s : State) (at_ : SlotTag) (n : Nat) (volume locator : U32) (o : Order), s.Working →
    s.link.answered? at_ Op.isDelivery = some (.readForOrder n volume locator) → s.order? n = some o →
    s.eng.heldDiscards = [] →
    (∀ body, o.readOf.map Prod.snd = some (crc32 body) → exec (.deliveryReadCompletion at_ (.done body)) s =
      .next (State.close (State.withOrder { s with
        pool := s.pool.putContent (.order n) body
        link := s.link.served at_.slot.toNat (.readForOrder n volume locator) } n fun o => { o with landed := true }))) ∧
    ∀ ans code, s.Still →
      ((∃ body, ans = .done body ∧ o.readOf.map Prod.snd ≠ some (crc32 body) ∧ code = .bodyCheck) ∨
        ans = .mediaError ∧ s.link.failures < 7 ∧ code = .storeFault ∨
        ans = .notFound ∧ volume ≠ 0 ∧ code = .notInVolume ∨ ans = .notFound ∧ volume = 0 ∧ code = .storeFault) →
      ∃ t, exec (.deliveryReadCompletion at_ ans) s = .next t ∧
        t.order? n = some { o with state := .charged, lastPrep := some code, maskSet := none, prepared := none
                                   readOf := none, landed := false, prepTag := none, readyTicks := 0 } ∧
        t.pool.heldBy (.order n) = 0 ∧ ∀ g, o.prepTag = some g → Sent t (s.replyFrame 0x7C g code (u32 o.number))

/-- The end of a preparation fills the masked rectangles, records length and check, makes the order READY and sends the
suspended reply. A ready expiry makes it CHARGED again, and the segments that it returns grant the head of the claim queue in the same
change when it fits then. BIND DELIVERY, after its checks in order, binds the lane outbound. -/
def Obligations.ReadyOrdersExpireOrAreBound : Prop :=
  (∀ (s : State) (n : U32) (o : Order) (v : View), s.Working → s.order? n.toNat = some o → o.state = .preparing →
    o.landed = true → s.orderView o = some v →
    let before := s.pool.content (.order n.toNat)
    let white (tile : Nat) : Prop := ∃ m ∈ o.maskSet.getD [], ∃ x, 1 ≤ m ∧ v.placed[m - 1]? = some x ∧
      x.place.firstCol.toNat ≤ tile % v.grid.cols + 1 ∧ tile % v.grid.cols + 1 < x.place.firstCol.toNat + x.place.cols.toNat ∧
      x.place.firstRow.toNat ≤ tile / v.grid.cols + 1 ∧ tile / v.grid.cols + 1 < x.place.firstRow.toNat + x.place.rows.toNat
    ∃ t body, exec (.preparationEnd n) s = .next t ∧ body.length = before.length ∧
      (∀ i x, before[i]? = some x → (white (i / 4096) → body[i]? = some 255) ∧ (¬white (i / 4096) → body[i]? = some x)) ∧
      t.pool.content (.order n.toNat) = body ∧
      t.order? n.toNat = some { o with state := .ready, prepared := some (body.length, crc32 body), lastPrep := some .ok
                                       readOf := none, landed := false, prepTag := none, readyTicks := 153600 } ∧
      ∀ g, o.prepTag = some g → Sent t (s.replyFrame 0x7C g .ok
        (u32 o.number ++ u32 body.length ++ u32 (crc32 body).toNat ++ u8 o.attempts))) ∧
  (∀ (s : State) (n : U32) (o : Order), s.Working → s.order? n.toNat = some o → o.state = .ready →
    o.readyTicks = 0 → 0 < s.pool.heldBy (.order n.toNat) →
    let pool := s.pool.without (.order n.toNat)
    let expired : State := State.latch (State.withOrder { s with pool := pool } n.toNat fun o => { o with
      state := .charged, maskSet := none, prepared := none, readOf := none, landed := false, prepTag := none
      readyTicks := 0 }) .readyExpired
    let ends (u : State) : Prop := exec (.readyExpiry n) s = .next u.close
    ((∀ c ∈ s.pool.claims.head?, pool.free < c.need + 32) → ends expired) ∧
    ∀ m need rest i v, need + 32 ≤ pool.free → s.link.Takes i →
      (∀ c ∈ rest.head?, pool.free < need + c.need + 32) →
      (∀ j, s.pool.claims = ⟨.job m, need⟩ :: rest → s.job? m = some j → s.jobView j = some v →
        ends (State.withJob { expired with
          pool := { pool.given (.job m) need with claims := rest }
          link := s.link.occupy i (.readForJob m j.target.volume v.current) } m fun j => { j with state := .survey })) ∧
      ∀ p, s.pool.claims = ⟨.order m, need⟩ :: rest → m ≠ n.toNat → s.order? m = some p → s.orderView p = some v →
        ends (State.withOrder { expired with
          pool := { pool.given (.order m) need with claims := rest }
          link := s.link.occupy i (.readForOrder m p.volume v.current) } m fun p =>
            { p with readOf := some (v.current, v.stored) })) ∧
  ∀ (s : State) (tag : U8) (n : U32), s.Ready (.bindDelivery tag n) →
    let run := exec (.bindDelivery tag n) s
    let open_ := s.req.mode = .service ∨ s.req.mode = .setupPending
    (¬open_ → run = .next (s.replied 0x7D tag .notInService [])) ∧
    (open_ → n = 0 → run = .next (s.replied 0x7D tag .outOfRange [])) ∧
    (open_ → n ≠ 0 → s.order? n.toNat = none → run = .next (s.replied 0x7D tag .notFound [])) ∧
    ∀ o, open_ → n ≠ 0 → s.order? n.toNat = some o →
      (o.state ≠ .ready → run = .next (s.replied 0x7D tag .badState [])) ∧
      ∀ v length check, o.state = .ready → o.prepared = some (length, check) → s.orderView o = some v →
        let matched := s.hold.pageMatches o.key o.page = true ∨ ∃ p, o.photo = some p ∧ s.hold.photoMatches p = true
        let hasLapsed := ∃ p r d, o.photo = some p ∧ v.own = some r ∧ r.untilDay = some d ∧ d < s.cal.day
        (matched → run = .next (s.replied 0x7D tag .held [])) ∧
        (¬matched → hasLapsed → run = .next (s.replied 0x7D tag .rightsExpired [])) ∧
        (¬matched → ¬hasLapsed → s.lane.slot ≠ none → run = .next (s.replied 0x7D tag .laneBusy [])) ∧
        (¬matched → ¬hasLapsed → s.lane.slot = none → run = .next (State.answered (State.withOrder { s with
          lane := { s.lane with
            slot := some ⟨.order n.toNat, true, length, 0, 0xFFFFFFFF#32, .bound 15360⟩ } } n.toNat fun o =>
              { o with state := .delivering, readyTicks := 0 }) 0x7D tag .ok
          (u32 n.toNat ++ u32 length ++ u32 check.toNat)))

/-! ### Fees and accounts -/

/-- The price of an order by the schedule, the current day, the account's tier and the photographs that it pays for, and the
bounds of each of its parts. -/
def Obligations.PriceFollowsTheSchedule : Prop :=
  ∀ (f : Schedule) (today tier : Nat) (o : Order) (v : View) (masked : List Nat),
    let price := f.price today tier o (soldRights o v masked)
    let n := o.copies
    let age := today - o.key.day.toNat
    let band := if age ≤ 6 then 0 else if age ≤ 364 then 1 else if age ≤ 9124 then 2 else 3
    let q := f.base.getD (o.useClass * 4 + o.sizeClass) 0 * f.age.getD band 0 * (100 - f.tier.getD tier 0)
    let rounded := (n * q + 5000) / 10000
    let cap := f.caps.getD o.useClass 0
    let r (x : Rights) : Nat := if x.cls = .agency ∨ x.cls = .freelance then f.royalty.getD x.group 0 else 0
    price.core = (if cap ≠ 0 ∧ cap < rounded then cap else rounded) ∧
    (o.photo = none → price.royalties =
      n * ((v.placed.zipIdx 1).map fun x => if x.2 ∈ masked then 0 else r x.1.rights).sum) ∧
    (∀ x, o.photo ≠ none → v.own = some x → price.royalties = n * r x) ∧
    price.surcharge = (if o.bearer = true then f.surcharge else 0) ∧
    price.total = max f.minimum (price.core + price.royalties + price.surcharge) ∧
    (f.Sound → n ≤ 50 → v.placed.length ≤ 12 →
      q ≤ 99900000000 ∧ n * q ≤ 4995000000000 ∧ price.core ≤ 499500000 ∧ price.royalties ≤ 60000000 ∧
        price.total ≤ 560000000)

/-- READ SCHEDULE, taken in every mode, reports the schedule in the field order and widths of SET SCHEDULE; SET SCHEDULE
replaces the whole schedule, or leaves it as it was.
That a STAGED record's write is handed off behind a reading request's reply is the model's choice (log 10). -/
def Obligations.ScheduleIsSetAndRead : Prop :=
  (∀ (s : State) (tag : U8), s.takes (.readSchedule tag) = true →
    let f := s.fee.schedule
    let fields := f.base.flatMap u32 ++ f.age.flatMap u16 ++ f.tier.flatMap u8 ++ f.royalty.flatMap u32 ++
      u32 f.surcharge ++ u32 f.minimum ++ f.caps.flatMap u32
    (∃ t, exec (.readSchedule tag) s = .next t ∧ FirstSent s t (s.replyFrame 0x65 tag .ok fields) ∧
      t.fee.schedule = f ∧ (s.Calm → s.Awake → t = s.reported 0x65 tag .ok fields)) ∧
    (f.base.length = 20 → f.age.length = 4 → f.tier.length = 8 → f.royalty.length = 8 → f.caps.length = 5 →
      fields.length = 156)) ∧
  (∀ (s : State) (tag : U8) (f : ScheduleFields), s.Ready (.setSchedule tag f) →
    let inRange := (∀ x ∈ f.base, x.toNat ≤ 1000000) ∧ (∀ x ∈ f.age, x.toNat ≤ 999) ∧ (∀ x ∈ f.tier, x.toNat ≤ 90) ∧
      (∀ x ∈ f.royalty, x.toNat ≤ 100000) ∧ f.surcharge.toNat ≤ 500000 ∧ f.minimum.toNat ≤ 1000000 ∧
      ∀ x ∈ f.caps, x.toNat ≤ 100000000
    (¬inRange → exec (.setSchedule tag f) s = .next (s.replied 0x64 tag .outOfRange [])) ∧
    (inRange → exec (.setSchedule tag f) s = .next (State.replied { s with fee := { s.fee with
      schedule := ⟨f.base.map BitVec.toNat, f.age.map BitVec.toNat, f.tier.map BitVec.toNat, f.royalty.map BitVec.toNat,
        f.surcharge.toNat, f.minimum.toNat, f.caps.map BitVec.toNat⟩ } } 0x64 tag .ok []))) ∧
  ∀ f : ScheduleFields, (givenSchedule f).fields = scheduleBytes f

/-- LOAD ACCOUNT creates or replaces an account in SETUP; CREDIT ACCOUNT raises the balance and retries the account's queue
from its head; SET LIMIT replaces the limit, and retries in the same way when it is raised; QUERY ACCOUNT reports the accounts. A
retry charges each order in turn, up to the first that does not fit.
That a STAGED record's write is handed off behind a reading request's reply is the model's choice (log 10). -/
def Obligations.AccountsAreLoadedCreditedAndQueried : Prop :=
  ((∀ (s : State) (tag : U8) (account : U16) (tier : U8) (balance limit : U32),
    s.Ready (.loadAccount tag account tier balance limit) →
    let run := exec (.loadAccount tag account tier balance limit) s
    let new : Account := ⟨account.toNat, tier.toNat, balance.toInt, limit.toNat, 0, []⟩
    let refusal : Option Code :=
      if s.req.mode ≠ .setup then some .badState
      else if account = 0 ∨ 7 < tier.toNat ∨ 10000000 < limit.toNat then some .outOfRange
      else if balance.toInt < -(limit.toNat : Int) ∨ 2000000000 < balance.toInt then some .limitViolation
      else if ((s.fee.account? account.toNat).any fun a => a.live != 0) = true then some .busy
      else if s.fee.account? account.toNat = none ∧ 32 ≤ s.fee.accounts.length then some .tableFull
      else none
    (∀ code, refusal = some code → run = .next (s.replied 0x66 tag code [])) ∧
    (refusal = none → s.fee.account? account.toNat = none → run = .next (State.replied { s with
      fee := { s.fee with accounts := s.fee.accounts ++ [new] } } 0x66 tag .ok [0])) ∧
    (refusal = none → s.fee.account? account.toNat ≠ none → run = .next (State.replied { s with
      fee := { s.fee with accounts := s.fee.accounts.map fun a => if a.number = account.toNat then new else a } }
      0x66 tag .ok [1]))) ∧
  ∀ (s : State) (tag : U8) (account : U16), s.Asked (.queryAccount tag account) →
    let field (a : Account) : List U8 := u16 a.number ++ u8 a.tier ++ s32 a.balance ++ u32 a.limit ++ u8 a.live ++
      u8 a.queue.length
    (account = 0 → ∃ l : List Account, l.Perm s.fee.accounts ∧ l.Pairwise (fun a b => a.number ≤ b.number) ∧
      exec (.queryAccount tag account) s = .next (s.reported 0x69 tag .ok (u8 s.fee.accounts.length ++ l.flatMap field))) ∧
    (account ≠ 0 → s.fee.account? account.toNat = none →
      exec (.queryAccount tag account) s = .next (s.reported 0x69 tag .notFound [])) ∧
    ∀ a, account ≠ 0 → s.fee.account? account.toNat = some a →
      exec (.queryAccount tag account) s = .next (s.reported 0x69 tag .ok (u8 a.tier ++ s32 a.balance ++ u32 a.limit ++
        s32 (a.balance + a.limit) ++ u8 a.live ++ u8 a.queue.length ++ a.queue.flatMap u32))) ∧
  (∀ (s : State) (tag : U8) (account : U16) (amount : U32), s.Ready (.creditAccount tag account amount) →
    let run := exec (.creditAccount tag account amount) s
    (account = 0 ∨ amount = 0 ∨ 100000000 < amount.toNat → run = .next (s.replied 0x67 tag .outOfRange [])) ∧
    (account ≠ 0 → amount ≠ 0 → amount.toNat ≤ 100000000 →
      (s.fee.account? account.toNat = none → run = .next (s.replied 0x67 tag .notFound [])) ∧
      ∀ a, s.fee.account? account.toNat = some a →
        let balance : Int := a.balance + amount.toNat
        let credited := s.withAccount account.toNat fun a => { a with balance := a.balance + amount.toNat }
        (2000000000 < balance → run = .next (s.replied 0x67 tag .limitViolation [])) ∧
        (balance ≤ 2000000000 →
          (a.queue = [] → run = .next (credited.replied 0x67 tag .ok (s32 balance ++ [0, 0]))) ∧
          QueueRetried s credited { a with balance := balance } run 0x67 tag fun balance charged left =>
            s32 balance ++ [charged, left]))) ∧
  ∀ (s : State) (tag : U8) (account : U16) (limit : U32), s.Ready (.setLimit tag account limit) →
    let run := exec (.setLimit tag account limit) s
    (account = 0 ∨ 10000000 < limit.toNat → run = .next (s.replied 0x68 tag .outOfRange [])) ∧
    (account ≠ 0 → limit.toNat ≤ 10000000 →
      (s.fee.account? account.toNat = none → run = .next (s.replied 0x68 tag .notFound [])) ∧
      ∀ a, s.fee.account? account.toNat = some a →
        (a.balance < -(limit.toNat : Int) → run = .next (s.replied 0x68 tag .limitViolation [])) ∧
        (-(limit.toNat : Int) ≤ a.balance → (limit.toNat ≤ a.limit ∨ a.queue = []) →
          run = .next (State.replied (s.withAccount account.toNat fun a => { a with limit := limit.toNat }) 0x68 tag .ok
            (u8 0 ++ u8 a.queue.length))) ∧
        (a.limit < limit.toNat → -(limit.toNat : Int) ≤ a.balance →
          QueueRetried s (s.withAccount account.toNat fun a => { a with limit := limit.toNat })
            { a with limit := limit.toNat } run 0x68 tag fun _ charged left => [charged, left]))

/-! ### Statements -/

/-- CLOSE STATEMENT closes the open statement with cause 2 while fewer than 2 closed ones are held, and retries the orders
held for room; RELEASE STATEMENT discards the oldest, with a catch-up close after a missed boundary; READ STATEMENT shows
entries of 30 bytes. That the catch-up flag byte is 1 when set is the model's choice (log 30).
That a STAGED record's write is handed off behind a reading request's reply is the model's choice (log 10). -/
def Obligations.StatementsAreClosedReleasedAndRead : Prop :=
  (∀ (s : State) (tag : U8), s.Ready (.closeStatement tag) →
    let run := exec (.closeStatement tag) s
    let b := s.stmt
    let closed : List ClosedStatement :=
      b.closed ++ [⟨b.current.number, b.current.firstDay, s.cal.day, b.current.missed, 2, b.current.entries⟩]
    let next := if b.current.number = 4294967295 then 1 else b.current.number + 1
    (2 ≤ b.closed.length → run = .next (s.replied 0x6C tag .busy [])) ∧
    (b.closed.length < 2 →
      (∃ t, run = .next t ∧ t.stmt.closed = closed ∧ t.stmt.current.number = next ∧ t.stmt.current.firstDay = s.cal.day ∧
        t.stmt.current.missed = 0 ∧ FirstSent s t (s.replyFrame 0x6C tag .ok (u32 b.current.number)) ∧
        Raised s t .statementClosed) ∧
      (b.held = [] → run = .next (State.answered { (s.latch .statementClosed) with
        stmt := ⟨⟨next, s.cal.day, 0, []⟩, closed, []⟩ } 0x6C tag .ok (u32 b.current.number))) ∧
      ∀ n o v a, (s.req.mode = .setupPending → s.vol.waiters = []) → b.held = [n] → s.order? n = some o →
        s.orderView o = some v → s.fee.account? o.account = some a → s.holdCheck o v = .passed (s.maskOf v) → a.queue = [] →
        (s.fee.schedule.price s.cal.day a.tier o (soldRights o v (s.maskOf v))).total ≤ a.balance + a.limit →
        ∃ t, run = .next t ∧ t.stmt.held = [] ∧ t.stmt.current.entries.map Entry.order = [n] ∧
          (t.order? n).map Order.state = some .charged)) ∧
  (∀ (s : State) (tag : U8) (n : U32), s.Ready (.releaseStatement tag n) →
    let run := exec (.releaseStatement tag n) s
    let b := s.stmt
    (b.closed = [] → run = .next (s.replied 0x6B tag .badState [])) ∧
    ∀ oldest rest, b.closed = oldest :: rest →
      (n ≠ 0 → n.toNat ≠ oldest.number → run = .next (s.replied 0x6B tag .notFound [])) ∧
      (n = 0 ∨ n.toNat = oldest.number →
        (b.current.missed = 0 → run = .next (State.replied { s with stmt := { b with closed := rest } } 0x6B tag .ok
          (u32 oldest.number ++ [0] ++ u32 0))) ∧
        (0 < b.current.missed → ∃ t, run = .next t ∧
          FirstSent s t (s.replyFrame 0x6B tag .ok (u32 oldest.number ++ [1] ++ u32 b.current.number)) ∧
          t.stmt.closed = rest ++
            [⟨b.current.number, b.current.firstDay, s.cal.day, b.current.missed, 3, b.current.entries⟩] ∧
          t.stmt.current.missed = 0 ∧ Raised s t .statementClosed))) ∧
  ∀ (s : State) (tag index : U8) (first : U16) (count : U8), s.Asked (.readStatement tag index first count) →
    let run := exec (.readStatement tag index first count) s
    let shown (l : List Entry) : List Entry :=
      (l.drop first.toNat).take (if count = 0 ∨ 32 < count.toNat then 32 else count.toNat)
    let entry (e : Entry) : List U8 := u32 e.order ++ u16 e.account ++ u16 e.day ++ u8 e.hour ++ u8 e.minute ++
      u8 e.useClass ++ u8 e.sizeClass ++ u8 e.copies ++ u8 e.masked ++ u32 e.core ++ u32 e.royalties ++ u32 e.surcharge ++
      u32 e.total
    let reply (number cause firstDay lastDay spanned : Nat) (l : List Entry) : Host.Outcome State Fault Refusal :=
      .next (s.reported 0x6A tag .ok (u32 number ++ u8 cause ++ u16 firstDay ++ u16 lastDay ++ u16 spanned ++ u16 l.length ++
        u8 s.stmt.held.length ++ u8 (shown l).length ++ (shown l).flatMap entry))
    (2 < index.toNat → run = .next (s.reported 0x6A tag .outOfRange [])) ∧
    (index.toNat < 2 → s.stmt.closed[index.toNat]? = none → run = .next (s.reported 0x6A tag .notFound [])) ∧
    (∀ x, index.toNat < 2 → s.stmt.closed[index.toNat]? = some x →
      run = reply x.number x.cause x.firstDay x.lastDay x.spanned x.entries) ∧
    (index = 2 → run = reply s.stmt.current.number 0 s.stmt.current.firstDay 0 s.stmt.current.missed
      s.stmt.current.entries) ∧
    ∀ e, (entry e).length = 30

/-! ### What every step keeps -/

/-- Every step from a state between two changes ends between two changes: no consequence open, no reply unsent, no notice
and no WAIT due, at most 16 finished orders, and no mode entry that could complete still pending. -/
def Obligations.EveryStepEndsBetweenTwoChanges : Prop :=
  ∀ s t : State, s.Calm → step s = .next t → t.Calm

/-- Every step keeps the bounds of the rules: the calendar's and the options' ranges, the pool's 96 segments for restoration
and delivery, the schedule's ranges, every balance between its limit and 2,000,000,000, the statements, the holds, the
message port, the order table and the job queue; and what the rules state of the tables: the reference counts and the versions of
the catalogue, level and points, the slots of the store link, the seal queue and the recall table. The store's answers keep to the
ranges of their returns. -/
def Obligations.EveryStepKeepsTheBounds : Prop :=
  (∀ s t : State, s.Sound → step s = .next t → t.Sound) ∧
  ∀ s t : State, s.Tables → (∀ c ∈ s.pending.head?, c.wellFormed = true) → step s = .next t → t.Tables

/-- A request's frame spells its command, whatever bytes follow its fields; missing trailing fields read as zero. That the missing
bytes of a value of which only some came read as zero too is the model's choice (log 42). -/
def Obligations.RequestFramesSpellTheirCommands : Prop :=
  (∀ (c : Instr) (kind tag : U8) (body excess : List U8), c.wellFormed = true → encodeRequest c = some (kind, tag, body) →
    decodeRequest kind tag (body ++ excess) = c) ∧
  ∀ (kind tag : U8) (body : List U8) (n : Nat), decodeRequest kind tag (body ++ List.replicate n 0) =
    decodeRequest kind tag body

/-- The state after reset stands between two changes and within the bounds, and its tables are as the rules state them. Which
power-on that state is (log 1), and the lane's lines, the guard time and the break in it (log 2), are the model's choices. -/
def Obligations.ResetIsCalmAndSound : Prop := State.reset.Calm ∧ State.reset.Sound ∧ State.reset.Tables
end

