-- ==== Sys2Proof/Laws/Catalogue.lean ====
section
/-! SUPPORT. What each operation of the catalogue does to what the rules state of it: editions, page and photo records, reference
counts, supersession, and the tables that a reload rebuilds (R3, R4, R7 to R14, R23, R24). -/

namespace Sys2Proof.Machine

set_option Elab.async false

/-! ### Editions -/

namespace Catalogue

theorem edition?_eq (c : Catalogue) (slot : Nat) : c.edition? slot = c.editions[slot]?.join := rfl

theorem edition?_mem {c : Catalogue} {slot : Nat} {e : Edition} (h : c.edition? slot = some e) : some e ∈ c.editions := by
  simp only [edition?, Option.join_eq_some_iff] at h
  exact List.mem_of_getElem? h

theorem edition?_withEdition (c : Catalogue) (slot i : Nat) (f : Edition → Edition) :
    (c.withEdition slot f).edition? i = if slot = i then (c.edition? i).map f else c.edition? i := by
  simp only [edition?, withEdition, List.getElem?_modify]
  split
  · cases c.editions[i]? <;> simp
  · simp

theorem edition?_putEdition {c : Catalogue} {slot : Nat} (h : slot < c.editions.length) (i : Nat) (e : Option Edition) :
    (c.putEdition slot e).edition? i = if slot = i then e else c.edition? i := by
  simp only [edition?, putEdition, List.getElem?_set]
  split
  · subst_vars; simp
  · rfl

theorem mem_occupied {c : Catalogue} {x : Nat × Edition} : x ∈ c.occupied ↔ c.edition? x.1 = some x.2 := by
  obtain ⟨i, e⟩ := x
  simp only [occupied, List.mem_filterMap, edition?, Option.join_eq_some_iff]
  constructor
  · rintro ⟨⟨a, k⟩, hm, hx⟩
    simp only [Option.map_eq_some_iff] at hx
    obtain ⟨e', he, hp⟩ := hx
    cases hp
    have := List.mem_zipIdx_iff_getElem?.1 hm
    simp only at this he
    rw [this, he]
  · intro h
    exact ⟨(some e, i), List.mem_zipIdx_iff_getElem?.2 (by simpa using h), by simp⟩

end Catalogue

/-- The state of an edition slot. -/
def Catalogue.stateOf (c : Catalogue) (slot : Nat) : Option EdState := (c.edition? slot).map Edition.state

/-- What R83 states of a seal queue over a catalogue. -/
def Catalogue.Queued (c : Catalogue) (q : List Nat) : Prop :=
  q.Nodup ∧ (∀ slot ∈ q, c.stateOf slot = some .closed ∨ c.stateOf slot = some .sealing) ∧
    ∀ slot, c.stateOf slot = some .sealing → q.head? = some slot

theorem State.sealQueueSound_iff (s : State) : s.SealQueueSound ↔ s.cat.Queued s.vol.sealQueue := by
  simp only [State.SealQueueSound, Catalogue.Queued, Catalogue.stateOf]
  refine and_congr Iff.rfl (and_congr ?_ ?_)
  · refine forall_congr' fun slot => forall_congr' fun _ => ?_
    cases s.cat.edition? slot <;> simp
  · constructor
    · intro h slot hs
      simp only [Option.map_eq_some_iff] at hs
      obtain ⟨e, he, hst⟩ := hs
      exact h (slot, e) (Catalogue.mem_occupied.2 he) hst
    · intro h x hx hst
      exact h x.1 (by rw [Catalogue.mem_occupied.1 hx]; simp [hst])

/-- What the rules state of the page records, given the slots that are occupied and the photo records. -/
theorem Catalogue.PageSound.congr {c d : Catalogue} {p : Page} (h : c.PageSound p)
    (he : (c.edition? p.slot).isSome = true → (d.edition? p.slot).isSome = true)
    (hq : ∀ n, (∃ q ∈ c.photos, q.number = n ∧ q.state = .filed) → ∃ q ∈ d.photos, q.number = n ∧ q.state = .filed)
    (ho : c.Overtaken p ↔ d.Overtaken p) : d.PageSound p := by
  obtain ⟨h1, h2, h3, h4, h5, h6, h7⟩ := h
  exact ⟨he h1, h2, h3, h4, fun pl hpl => hq _ (h5 pl hpl), h6, h7.trans (and_congr Iff.rfl ho)⟩

theorem Catalogue.Sound.withEdition {c : Catalogue} (h : c.Sound) {slot : Nat} {f : Edition → Edition}
    (hk : ∀ e, (f e).key = e.key) (hs : ∀ e, c.edition? slot = some e → (f e).Sound) : (c.withEdition slot f).Sound := by
  obtain ⟨h1, h2, h3, h4, h5, h6, h7⟩ := h
  refine ⟨by simpa [Catalogue.withEdition] using h1, ?_, ?_, h4, h5, ?_, h7⟩
  · have : (c.withEdition slot f).editions.filterMap (Option.map Edition.key) =
        c.editions.filterMap (Option.map Edition.key) := by
      have : ∀ (l : List (Option Edition)) (n : Nat), (l.modify n (Option.map f)).map (Option.map Edition.key) =
          l.map (Option.map Edition.key) := by
        intro l n
        apply List.ext_getElem?
        intro i
        simp only [List.getElem?_map, List.getElem?_modify]
        split
        · cases l[i]? with
          | none => rfl
          | some x => cases x <;> simp [hk]
        · simp
      have h0 := congrArg (List.filterMap id) (this c.editions slot)
      simpa [List.filterMap_map, Function.comp_def, Catalogue.withEdition] using h0
    rw [this]; exact h2
  · intro e he x hx
    obtain ⟨i, hi⟩ := List.mem_iff_getElem?.1 he
    have : (c.withEdition slot f).edition? i = some x := by
      simp only [Catalogue.edition?, hi]
      simpa using hx
    rw [Catalogue.edition?_withEdition] at this
    split at this
    · subst_vars
      simp only [Option.map_eq_some_iff] at this
      obtain ⟨y, hy, rfl⟩ := this
      exact hs y hy
    · exact h3 (some x) (Catalogue.edition?_mem this) x rfl
  · intro p hp
    refine (h6 p hp).congr ?_ (fun n hn => hn) Iff.rfl
    rw [Catalogue.edition?_withEdition]
    split <;> simp

theorem Catalogue.Sound.editionSound {c : Catalogue} (h : c.Sound) {slot : Nat} {e : Edition}
    (he : c.edition? slot = some e) : e.Sound := h.2.2.1 (some e) (Catalogue.edition?_mem he) e rfl

theorem Catalogue.stateOf_withEdition (c : Catalogue) (slot i : Nat) (f : Edition → Edition) :
    (c.withEdition slot f).stateOf i = if slot = i then (c.edition? i).map (fun e => (f e).state) else c.stateOf i := by
  simp only [Catalogue.stateOf, Catalogue.edition?_withEdition]
  split
  · cases c.edition? i <;> rfl
  · rfl

/-- A change of an edition that keeps its state keeps the seal queue's rules. -/
theorem Catalogue.Queued.withEdition {c : Catalogue} {q : List Nat} (h : c.Queued q) {slot : Nat} {f : Edition → Edition}
    (hf : ∀ e, c.edition? slot = some e → (f e).state = e.state) : (c.withEdition slot f).Queued q := by
  have : ∀ i, (c.withEdition slot f).stateOf i = c.stateOf i := by
    intro i
    rw [Catalogue.stateOf_withEdition]
    split
    · next hi =>
      subst hi
      simp only [Catalogue.stateOf]
      cases he : c.edition? slot with
      | none => rfl
      | some e => simp [hf e he]
    · rfl
  simpa only [Catalogue.Queued, this] using h

theorem Catalogue.Queued.congr {c d : Catalogue} {q : List Nat} (h : c.Queued q) (he : d.editions = c.editions) :
    d.Queued q := by
  have : ∀ i, d.stateOf i = c.stateOf i := by intro i; simp [Catalogue.stateOf, Catalogue.edition?, he]
  simpa only [Catalogue.Queued, this] using h

/-! ### Photo records -/

theorem Catalogue.placed_congr {c d : Catalogue} (h : d.pages = c.pages) (n : U32) : d.placed n = c.placed n := by
  simp [Catalogue.placed, h]

/-- A change of a photo record that keeps its number, its references and its being FILED. -/
theorem Catalogue.Sound.withPhoto {c : Catalogue} (h : c.Sound) {n : U32} {f : Photo → Photo}
    (hf : ∀ p ∈ c.photos, p.number = n → c.PhotoSound p → (f p).number = p.number ∧ (f p).refs = p.refs ∧
      (p.state = .filed → (f p).state = .filed) ∧ restoredFits (f p).level (f p).points (f p).raw (f p).current = true) :
    (c.withPhoto n f).Sound := by
  obtain ⟨h1, h2, h3, h4, h5, h6, h7⟩ := h
  refine ⟨h1, h2, h3, h4, ?_, ?_, ?_⟩
  · have : (c.withPhoto n f).photos.map Photo.number = c.photos.map Photo.number := by
      simp only [Catalogue.withPhoto, List.map_map]
      refine List.map_congr_left fun p hp => ?_
      simp only [Function.comp]
      split
      · next hn => exact (hf p hp (by simpa using hn) (h7 p hp)).1
      · rfl
    rw [this]; exact h5
  · intro p hp
    refine (h6 p hp).congr id ?_ Iff.rfl
    rintro m ⟨q, hq, hm, hs⟩
    by_cases hn : q.number = n
    · exact ⟨f q, by simpa [Catalogue.withPhoto] using ⟨q, hq, by simp [hn]⟩, by
        obtain ⟨a, _, b, _⟩ := hf q hq hn (h7 q hq); exact ⟨a.trans hm, b hs⟩⟩
    · exact ⟨q, by simpa [Catalogue.withPhoto] using ⟨q, hq, by simp [hn]⟩, hm, hs⟩
  · intro p hp
    simp only [Catalogue.withPhoto, List.mem_map] at hp
    obtain ⟨q, hq, rfl⟩ := hp
    obtain ⟨hr, hl⟩ := h7 q hq
    split
    · next hn =>
      obtain ⟨a, b, _, d⟩ := hf q hq (by simpa using hn) (h7 q hq)
      exact ⟨by rw [b, a]; exact hr, d⟩
    · exact ⟨hr, hl⟩

theorem Catalogue.placed_zero {c : Catalogue} {n : U32} : c.placed n = 0 ↔
    ∀ p ∈ c.pages, ∀ pl ∈ p.placements, pl.photo ≠ n := by
  simp [Catalogue.placed, List.sum_eq_zero_iff, List.countP_eq_zero]

/-- Photographs that no page places leave the catalogue. -/
theorem Catalogue.Sound.filterPhotos {c : Catalogue} (h : c.Sound) {keep : Photo → Bool}
    (hf : ∀ p ∈ c.photos, keep p = false → p.refs = 0 ∨ p.state ≠ .filed) :
    Catalogue.Sound { c with photos := c.photos.filter keep } := by
  obtain ⟨h1, h2, h3, h4, h5, h6, h7⟩ := h
  refine ⟨h1, h2, h3, h4, ?_, ?_, ?_⟩
  · exact h5.sublist ((List.filter_sublist).map _)
  · intro p hp
    obtain ⟨a1, a2, a3, a4, a5, a6, a7⟩ := h6 p hp
    refine ⟨a1, a2, a3, a4, ?_, a6, a7⟩
    intro pl hpl
    obtain ⟨q, hq, hn, hs⟩ := a5 pl hpl
    refine ⟨q, ?_, hn, hs⟩
    simp only [List.mem_filter, hq, true_and]
    by_contra hk
    rcases hf q hq (by simpa using hk) with h | h
    · have := (h7 q hq).1
      rw [h] at this
      exact Catalogue.placed_zero.1 this.symm p hp pl hpl hn.symm
    · exact h hs
  · intro p hp
    exact h7 p (List.mem_of_mem_filter hp)

/-- A new photo record. -/
theorem Catalogue.Sound.addPhoto {c : Catalogue} (h : c.Sound) {p : Photo} (hn : c.photo? p.number = none)
    (hr : p.refs = 0) (hl : restoredFits p.level p.points p.raw p.current = true) :
    Catalogue.Sound { c with photos := c.photos ++ [p] } := by
  obtain ⟨h1, h2, h3, h4, h5, h6, h7⟩ := h
  have hn' : ∀ q ∈ c.photos, q.number ≠ p.number := by
    simpa [Catalogue.photo?, List.find?_eq_none] using hn
  refine ⟨h1, h2, h3, h4, ?_, ?_, ?_⟩
  · simp only [List.map_append, List.map_cons, List.map_nil]
    refine List.nodup_append.2 ⟨h5, by simp, ?_⟩
    intro a ha b hb
    simp only [List.mem_map, List.mem_singleton] at ha hb
    obtain ⟨q, hq, rfl⟩ := ha
    subst hb
    exact hn' q hq
  · intro q hq
    refine (h6 q hq).congr id ?_ Iff.rfl
    rintro m ⟨x, hx, hm⟩
    exact ⟨x, by simp [hx], hm⟩
  · intro q hq
    simp only [List.mem_append, List.mem_singleton] at hq
    rcases hq with hq | rfl
    · exact h7 q hq
    · refine ⟨?_, hl⟩
      show q.refs = c.placed q.number
      rw [hr]
      refine (Catalogue.placed_zero.2 ?_).symm
      intro x hx pl hpl hpn
      obtain ⟨y, hy, hyn, _⟩ := (h6 x hx).2.2.2.2.1 pl hpl
      exact hn' y hy (hyn.trans hpn)

/-! ### Page records -/

theorem Page.isAt_iff {p : Page} {slot number version : Nat} :
    p.isAt slot number version = true ↔ p.key = (slot, number, version) := by
  simp [Page.isAt, Page.key, and_assoc]

/-- A page record is found by its key. -/
theorem Catalogue.page?_eq {c : Catalogue} (h : c.Sound) {p : Page} (hp : p ∈ c.pages) :
    c.page? p.slot p.number p.version = some p := by
  have hn := h.2.2.2.1
  cases hf : c.page? p.slot p.number p.version with
  | none =>
    have := List.find?_eq_none.1 hf p hp
    simp [Page.isAt] at this
  | some q =>
    have hq := List.mem_of_find?_eq_some hf
    have hk := Page.isAt_iff.1 (List.find?_some (p := fun x : Page => x.isAt p.slot p.number p.version) hf)
    exact congrArg some (List.inj_on_of_nodup_map hn hq hp hk)

theorem Catalogue.page?_mem {c : Catalogue} {slot number version : Nat} {p : Page}
    (h : c.page? slot number version = some p) : p ∈ c.pages ∧ p.key = (slot, number, version) :=
  ⟨List.mem_of_find?_eq_some h, Page.isAt_iff.1 (List.find?_some (p := fun x : Page => x.isAt slot number version) h)⟩

/-- Pages changed one by one: the keys stay. -/
theorem map_key_map {l : List Page} {g : Page → Page} (hg : ∀ p ∈ l, (g p).key = p.key) :
    (l.map g).map Page.key = l.map Page.key := by
  rw [List.map_map]; exact List.map_congr_left hg

/-- Pages changed one by one, keeping key and placements, with the superseded flag as the new states give it. -/
theorem Catalogue.Sound.mapPages {c : Catalogue} (h : c.Sound) {g : Page → Page}
    (hg : ∀ p ∈ c.pages, (g p).key = p.key ∧ (g p).placements = p.placements ∧
      restoredFits (g p).level (g p).points (g p).raw (g p).current = true)
    (hs : ∀ p ∈ c.pages, ((g p).superseded = true ↔ (g p).state = .filed ∧
      ∃ q ∈ c.pages, q.slot = p.slot ∧ q.number = p.number ∧ (g q).state = .filed ∧ p.version < q.version)) :
    Catalogue.Sound { c with pages := c.pages.map g } := by
  obtain ⟨h1, h2, h3, h4, h5, h6, h7⟩ := h
  have hkey : ∀ p ∈ c.pages, (g p).slot = p.slot ∧ (g p).number = p.number ∧ (g p).version = p.version := by
    intro p hp
    have := (hg p hp).1
    simpa [Page.key] using this
  refine ⟨h1, h2, h3, ?_, h5, ?_, ?_⟩
  · rw [map_key_map fun p hp => (hg p hp).1]; exact h4
  · intro p hp
    simp only [List.mem_map] at hp
    obtain ⟨q, hq, rfl⟩ := hp
    obtain ⟨a1, a2, a3, a4, a5, a6, a7⟩ := h6 q hq
    obtain ⟨_, b2, b5⟩ := hg q hq
    obtain ⟨k1, k2, k3⟩ := hkey q hq
    refine ⟨?_, ?_, ?_, ?_, ?_, b5, (hs q hq).trans (and_congr Iff.rfl ?_)⟩
    · rw [k1]; exact a1
    · omega
    · omega
    · rw [b2]; exact a4
    · rw [b2]; exact a5
    · simp only [Catalogue.Overtaken, List.mem_map, k1, k2, k3]
      constructor
      · rintro ⟨x, hx, e1, e2, e3, e4⟩
        obtain ⟨j1, j2, j3⟩ := hkey x hx
        exact ⟨g x, ⟨x, hx, rfl⟩, by omega, by omega, e3, by omega⟩
      · rintro ⟨_, ⟨x, hx, rfl⟩, e1, e2, e3, e4⟩
        obtain ⟨j1, j2, j3⟩ := hkey x hx
        exact ⟨x, hx, by omega, by omega, e3, by omega⟩
  · intro p hp
    obtain ⟨hr, hl⟩ := h7 p hp
    refine ⟨?_, hl⟩
    rw [hr]
    simp only [Catalogue.placed, List.map_map]
    refine congrArg List.sum (List.map_congr_left fun q hq => ?_)
    simp [(hg q hq).2.1]

/-- A change of one page record that keeps what the other records see of it. -/
theorem Catalogue.Sound.withPage {c : Catalogue} (h : c.Sound) {slot number version : Nat} {f : Page → Page}
    (hf : ∀ p ∈ c.pages, p.key = (slot, number, version) → c.PageSound p → (f p).key = p.key ∧
      (f p).placements = p.placements ∧ ((f p).state = .filed ↔ p.state = .filed) ∧ (f p).superseded = p.superseded ∧
      restoredFits (f p).level (f p).points (f p).raw (f p).current = true) :
    (c.withPage slot number version f).Sound := by
  have hg : ∀ p ∈ c.pages, let q := if p.isAt slot number version then f p else p
      q.key = p.key ∧ q.placements = p.placements ∧ (q.state = .filed ↔ p.state = .filed) ∧ q.superseded = p.superseded ∧
        restoredFits q.level q.points q.raw q.current = true := by
    intro p hp
    dsimp only
    split
    · next hk => exact hf p hp (Page.isAt_iff.1 hk) (h.2.2.2.2.2.1 p hp)
    · exact ⟨rfl, rfl, Iff.rfl, rfl, (h.2.2.2.2.2.1 p hp).2.2.2.2.2.1⟩
  refine h.mapPages (fun p hp => ⟨(hg p hp).1, (hg p hp).2.1, (hg p hp).2.2.2.2⟩) fun p hp => ?_
  obtain ⟨_, _, b1, b2, _⟩ := hg p hp
  rw [b1, b2, (h.2.2.2.2.2.1 p hp).2.2.2.2.2.2]
  refine and_congr Iff.rfl (exists_congr fun q => and_congr_right fun hq => ?_)
  rw [(hg q hq).2.2.1]

/-! ### References -/

/-- Whether a placement list places a photograph, as a count: with distinct photographs, 0 or 1. -/
theorem countP_photo {ps : List Placement} (h : (ps.map Placement.photo).Nodup) (n : U32) :
    ps.countP (fun pl => pl.photo == n) = if ps.any (fun pl => pl.photo == n) then 1 else 0 := by
  induction ps with
  | nil => simp
  | cons x xs ih =>
    simp only [List.map_cons, List.nodup_cons, List.mem_map, not_exists, not_and] at h
    rw [List.countP_cons, ih h.2, List.any_cons]
    by_cases hx : x.photo = n
    · have : xs.any (fun pl => pl.photo == n) = false := by
        simp only [List.any_eq_false, beq_iff_eq]
        intro y hy hyn
        exact h.1 y hy (hyn.trans hx.symm)
      simp [hx, this]
    · simp [hx]

theorem placed_append (c : Catalogue) (p : Page) (n : U32) :
    Catalogue.placed { c with pages := c.pages ++ [p] } n = c.placed n + p.placements.countP fun pl => pl.photo == n := by
  simp [Catalogue.placed]

/-- A new page record, with the references that it raises. -/
theorem Catalogue.Sound.addPage {c : Catalogue} (h : c.Sound) {p : Page} (ho : (c.edition? p.slot).isSome = true)
    (hk : ∀ q ∈ c.pages, q.key ≠ p.key) (hv : 1 ≤ p.version ∧ p.version ≤ 7) (hn : (p.placements.map Placement.photo).Nodup)
    (hf : ∀ pl ∈ p.placements, ∃ q ∈ c.photos, q.number = pl.photo ∧ q.state = .filed)
    (hl : restoredFits p.level p.points p.raw p.current = true) (hs : p.state ≠ .filed) (hu : p.superseded = false) :
    (Catalogue.raiseRefs { c with pages := c.pages ++ [p] } p.placements).Sound := by
  obtain ⟨h1, h2, h3, h4, h5, h6, h7⟩ := h
  let up (q : Photo) : Photo := if p.placements.any (fun pl => pl.photo == q.number) then { q with refs := q.refs + 1 } else q
  have hup : ∀ q, (up q).number = q.number ∧ (up q).state = q.state ∧
      (up q).refs = q.refs + p.placements.countP (fun pl => pl.photo == q.number) ∧ (up q).level = q.level ∧
      (up q).points = q.points ∧ (up q).raw = q.raw ∧ (up q).current = q.current := by
    intro q
    simp only [up, countP_photo hn]
    split <;> simp
  have hphotos : (Catalogue.raiseRefs { c with pages := c.pages ++ [p] } p.placements).photos = c.photos.map up := rfl
  have hfiled : ∀ n, (∃ q ∈ c.photos, q.number = n ∧ q.state = .filed) → ∃ q ∈ c.photos.map up, q.number = n ∧
      q.state = .filed := by
    rintro n ⟨q, hq, hn, hst⟩
    exact ⟨up q, List.mem_map_of_mem hq, (hup q).1.trans hn, (hup q).2.1.trans hst⟩
  have hover : ∀ q, Catalogue.Overtaken (Catalogue.raiseRefs { c with pages := c.pages ++ [p] } p.placements) q ↔
      c.Overtaken q := by
    intro q
    simp only [Catalogue.Overtaken, Catalogue.raiseRefs, List.mem_append, List.mem_singleton]
    constructor
    · rintro ⟨x, hx | rfl, e⟩
      · exact ⟨x, hx, e⟩
      · exact absurd e.2.2.1 hs
    · rintro ⟨x, hx, e⟩
      exact ⟨x, .inl hx, e⟩
  refine ⟨h1, h2, h3, ?_, ?_, ?_, ?_⟩
  · simp only [Catalogue.raiseRefs, List.map_append, List.map_cons, List.map_nil]
    refine List.nodup_append.2 ⟨h4, by simp, ?_⟩
    intro a ha b hb
    simp only [List.mem_map, List.mem_singleton] at ha hb
    obtain ⟨q, hq, rfl⟩ := ha
    subst hb
    exact hk q hq
  · rw [hphotos, List.map_map]
    rwa [List.map_congr_left (f := Photo.number ∘ up) (g := Photo.number) fun q _ => (hup q).1]
  · intro q hq
    simp only [Catalogue.raiseRefs, List.mem_append, List.mem_singleton] at hq
    rcases hq with hq | rfl
    · exact (h6 q hq).congr id (fun n hn => hfiled n hn) (hover q).symm
    · refine ⟨ho, hv.1, hv.2, hn, fun pl hpl => hfiled _ (hf pl hpl), hl, ?_⟩
      simp [hu, hs]
  · intro q hq
    rw [hphotos] at hq
    simp only [List.mem_map] at hq
    obtain ⟨x, hx, rfl⟩ := hq
    obtain ⟨a, b, e, k1, k2, k3, k4⟩ := hup x
    refine ⟨?_, by rw [k1, k2, k3, k4]; exact (h7 x hx).2⟩
    rw [e, a, (h7 x hx).1]
    exact (placed_append c p x.number).symm

/-- The references of a catalogue in which one page's placements are emptied, after they have fallen. -/
theorem sum_map_except {l : List Page} (hn : (l.map Page.key).Nodup) {p : Page} (hp : p ∈ l) (v : Page → Nat) :
    (l.map fun q => if q.key = p.key then 0 else v q).sum + v p = (l.map v).sum := by
  induction l with
  | nil => cases hp
  | cons x xs ih =>
    simp only [List.map_cons, List.nodup_cons, List.mem_map, not_exists, not_and] at hn
    simp only [List.map_cons, List.sum_cons]
    rcases List.mem_cons.1 hp with rfl | hp'
    · have : xs.map (fun q => if q.key = p.key then 0 else v q) = xs.map v :=
        List.map_congr_left fun q hq => by simp [hn.1 q hq]
      simp [this]; omega
    · have := ih hn.2 hp'
      have hx : x.key ≠ p.key := fun e => hn.1 p hp' e.symm
      simp only [hx, if_false]; omega

/-- A page on its way becomes FAILED, its placements undone (R10, R50). -/
theorem Catalogue.Sound.failRecord {c : Catalogue} (h : c.Sound) (r : RecId) (code : Code) : (c.failRecord r code).Sound := by
  unfold Catalogue.failRecord
  split
  · next slot number version =>
    split
    · exact h
    · next p hp =>
      simp only [Option.filter_eq_some_iff] at hp
      obtain ⟨hp, hfl⟩ := hp
      obtain ⟨hm, hk⟩ := Catalogue.page?_mem hp
      obtain ⟨h1, h2, h3, h4, h5, h6, h7⟩ := h
      have hp6 := h6 p hm
      have hnf : p.state ≠ .filed := by intro e; simp [RecState.inFlight, e] at hfl
      let down (q : Photo) : Photo := if p.placements.any (fun pl => pl.photo == q.number) then { q with refs := q.refs - 1 } else q
      let fail (q : Page) : Page := if q.isAt slot number version
          then { q with state := .failed, outcome := code, placements := [] } else q
      have hpk : ∀ q ∈ c.pages, q.isAt slot number version = true → q = p := fun q hq e =>
        List.inj_on_of_nodup_map h4 hq hm ((Page.isAt_iff.1 e).trans hk.symm)
      have hfail : ∀ q, (fail q).key = q.key ∧ (fail q).slot = q.slot ∧ (fail q).number = q.number ∧
          (fail q).version = q.version ∧ (fail q).superseded = q.superseded ∧ (fail q).level = q.level ∧
          (fail q).points = q.points ∧ (fail q).raw = q.raw ∧ (fail q).current = q.current := by
        intro q; simp only [fail]; split <;> simp [Page.key]
      have hst : ∀ q ∈ c.pages, ((fail q).state = .filed ↔ q.state = .filed) := by
        intro q hq
        simp only [fail]
        split
        · next e => simp [hpk q hq e, hnf]
        · exact Iff.rfl
      have hdown : ∀ q, (down q).number = q.number ∧ (down q).state = q.state ∧
          (down q).refs = q.refs - p.placements.countP (fun pl => pl.photo == q.number) ∧ (down q).level = q.level ∧
          (down q).points = q.points ∧ (down q).raw = q.raw ∧ (down q).current = q.current := by
        intro q; simp only [down, countP_photo hp6.2.2.2.1]; split <;> simp
      have hcat : (c.dropRefs p.placements).withPage slot number version (fun p =>
          { p with state := .failed, outcome := code, placements := [] }) =
          { c with pages := c.pages.map fail, photos := c.photos.map down } := rfl
      rw [hcat]
      have hov : ∀ q, Catalogue.Overtaken { c with pages := c.pages.map fail, photos := c.photos.map down } (fail q) ↔
          c.Overtaken q := by
        intro q
        obtain ⟨_, k1, k2, k3, _⟩ := hfail q
        simp only [Catalogue.Overtaken, List.mem_map, k1, k2, k3]
        constructor
        · rintro ⟨_, ⟨x, hx, rfl⟩, e1, e2, e3, e4⟩
          obtain ⟨_, j1, j2, j3, _⟩ := hfail x
          exact ⟨x, hx, by omega, by omega, (hst x hx).1 e3, by omega⟩
        · rintro ⟨x, hx, e1, e2, e3, e4⟩
          obtain ⟨_, j1, j2, j3, _⟩ := hfail x
          exact ⟨fail x, ⟨x, hx, rfl⟩, by omega, by omega, (hst x hx).2 e3, by omega⟩
      refine ⟨h1, h2, h3, ?_, ?_, ?_, ?_⟩
      · show ((c.pages.map fail).map Page.key).Nodup
        rw [map_key_map fun q _ => (hfail q).1]; exact h4
      · show ((c.photos.map down).map Photo.number).Nodup
        rwa [List.map_map, List.map_congr_left (f := Photo.number ∘ down) (g := Photo.number) fun q _ => (hdown q).1]
      · intro q hq
        simp only [List.mem_map] at hq
        obtain ⟨x, hx, rfl⟩ := hq
        obtain ⟨a1, a2, a3, a4, a5, a6, a7⟩ := h6 x hx
        obtain ⟨_, k1, k2, k3, k4, k5, k6, k7, k8⟩ := hfail x
        have hpl : (fail x).placements = [] ∨ (fail x).placements = x.placements := by
          simp only [fail]; split <;> simp
        refine ⟨by rw [k1]; exact a1, by omega, by omega, ?_, ?_, by rw [k5, k6, k7, k8]; exact a6, ?_⟩
        · rcases hpl with e | e <;> rw [e]
          · simp
          · exact a4
        · rcases hpl with e | e <;> rw [e]
          · simp
          · intro pl hpl
            obtain ⟨y, hy, hn, hs⟩ := a5 pl hpl
            exact ⟨down y, List.mem_map_of_mem hy, (hdown y).1.trans hn, (hdown y).2.1.trans hs⟩
        · rw [k4, hst x hx, hov x]; exact a7
      · intro q hq
        simp only [List.mem_map] at hq
        obtain ⟨x, hx, rfl⟩ := hq
        obtain ⟨k1, k2, k3, k4, k5, k6, k7⟩ := hdown x
        refine ⟨?_, by rw [k4, k5, k6, k7]; exact (h7 x hx).2⟩
        rw [k3, k1, (h7 x hx).1]
        have e1 : Catalogue.placed { c with pages := c.pages.map fail, photos := c.photos.map down } x.number =
            (c.pages.map fun q => if q.key = p.key then 0 else q.placements.countP fun pl => pl.photo == x.number).sum := by
          simp only [Catalogue.placed, List.map_map]
          refine congrArg List.sum (List.map_congr_left fun q hq => ?_)
          simp only [Function.comp, fail]
          by_cases e : q.isAt slot number version = true
          · have : q.key = p.key := (Page.isAt_iff.1 e).trans hk.symm
            simp [e, this]
          · have : q.key ≠ p.key := fun e' => e (Page.isAt_iff.2 (e'.trans hk))
            simp [e, this]
        have e2 := sum_map_except h4 hm fun q => q.placements.countP fun pl => pl.photo == x.number
        rw [e1]
        simp only [Catalogue.placed]
        omega
  · next n =>
    refine h.withPhoto fun p _ _ hs => ?_
    split
    · next hfl =>
      refine ⟨rfl, rfl, ?_, hs.2⟩
      intro e; simp [RecState.inFlight, e] at hfl
    · exact ⟨rfl, rfl, id, hs.2⟩

/-! ### Supersession (R8) -/

/-- The current version of a page number is the highest FILED one (R8). -/
theorem Catalogue.Sound.current {c : Catalogue} (h : c.Sound) {slot number : Nat} :
    (c.current? slot number = none → ∀ p ∈ c.pages, p.slot = slot → p.number = number → p.state ≠ .filed) ∧
    ∀ cur, c.current? slot number = some cur → cur ∈ c.pages ∧ cur.slot = slot ∧ cur.number = number ∧ cur.state = .filed ∧
      ∀ p ∈ c.pages, p.slot = slot → p.number = number → p.state = .filed → p.version ≤ cur.version := by
  constructor
  · intro hn
    have hn : ∀ p ∈ c.pages, p.slot = slot → p.number = number → p.state = .filed → p.superseded = true := by
      simpa [Catalogue.current?] using hn
    -- the highest FILED version is not superseded
    by_contra hc
    simp only [not_forall, exists_prop] at hc
    obtain ⟨p, hp, e1, e2, e3⟩ := hc
    have e3 : p.state = .filed := by simpa using e3
    have key : ∀ k, ∀ p ∈ c.pages, p.slot = slot → p.number = number → p.state = .filed → 7 - p.version ≤ k → False := by
      intro k
      induction k with
      | zero =>
        intro p hp e1 e2 e3 hv
        obtain ⟨q, hq, a, b, d, f⟩ := ((h.2.2.2.2.2.1 p hp).2.2.2.2.2.2.1 (hn p hp e1 e2 e3)).2
        have := (h.2.2.2.2.2.1 q hq).2.2.1
        have := (h.2.2.2.2.2.1 p hp).2.2.1
        omega
      | succ k ih =>
        intro p hp e1 e2 e3 hv
        obtain ⟨q, hq, a, b, d, f⟩ := ((h.2.2.2.2.2.1 p hp).2.2.2.2.2.2.1 (hn p hp e1 e2 e3)).2
        have := (h.2.2.2.2.2.1 q hq).2.2.1
        exact ih q hq (a.trans e1) (b.trans e2) d (by omega)
    exact key _ p hp e1 e2 e3 le_rfl
  · intro cur hc
    have hm := List.mem_of_find?_eq_some hc
    have hs := List.find?_some hc
    simp only [Bool.and_eq_true, beq_iff_eq, Bool.not_eq_true', and_assoc] at hs
    obtain ⟨a, b, d, e⟩ := hs
    refine ⟨hm, a, b, d, ?_⟩
    intro p hp p1 p2 p3
    by_contra hlt
    have : cur.superseded = true := (h.2.2.2.2.2.1 cur hm).2.2.2.2.2.2.2 ⟨d, p, hp, by omega, by omega, p3, by omega⟩
    simp [this] at e

/-- A WRITING record becomes FILED, with the supersession that it brings (R8, R52). -/
theorem Catalogue.Sound.fileRecord {c : Catalogue} (h : c.Sound) (r : RecId) (w : Written) : (c.fileRecord r w).Sound := by
  unfold Catalogue.fileRecord
  split
  · next slot number version =>
    split
    · next hw =>
      simp only [Option.any_eq_true, beq_iff_eq] at hw
      obtain ⟨p, hp, hw⟩ := hw
      obtain ⟨hm, hk⟩ := Catalogue.page?_mem hp
      have hk' : p.slot = slot ∧ p.number = number ∧ p.version = version := by simpa [Page.key] using hk
      obtain ⟨s1, s2, s3⟩ := hk'
      have huniq : ∀ q ∈ c.pages, q.isAt slot number version = true → q = p := fun q hq e =>
        List.inj_on_of_nodup_map h.2.2.2.1 hq hm ((Page.isAt_iff.1 e).trans hk.symm)
      have hpat : p.isAt slot number version = true := Page.isAt_iff.2 hk
      let file (q : Page) : Page := { q with
        state := .filed, outcome := .ok, raw := some w.locator, current := some w.locator, stored := some w.stored }
      have hps := h.2.2.2.2.2.1
      have hfits : ∀ q ∈ c.pages, restoredFits q.level q.points (some w.locator) (some w.locator) = true := by
        intro q hq
        have := (hps q hq).2.2.2.2.2.1
        simp only [restoredFits, Bool.and_eq_true] at this ⊢
        exact ⟨this.1, by simp⟩
      have hpsup : p.superseded = false := by
        cases hsup : p.superseded with
        | false => rfl
        | true => have := ((hps p hm).2.2.2.2.2.2.1 hsup).1; simp [hw] at this
      let g (sup : Page → Bool) (q : Page) : Page :=
        if q.isAt slot number version then file { q with superseded := sup q } else { q with superseded := sup q }
      -- whatever else the change sets, FILED are the records that were, and this one
      have main : ∀ sup : Page → Bool,
          (sup p = true ↔ ∃ x ∈ c.pages, x.slot = slot ∧ x.number = number ∧ x.state = .filed ∧ version < x.version) →
          (∀ q ∈ c.pages, q ≠ p → (sup q = true ↔ q.superseded = true ∨
            q.state = .filed ∧ q.slot = slot ∧ q.number = number ∧ q.version < version)) →
          Catalogue.Sound { c with pages := c.pages.map (g sup) } := by
        intro sup hp1 hq1
        have hfl : ∀ x ∈ c.pages, ((g sup x).state = .filed ↔ x.state = .filed ∨ x = p) := by
          intro x hx
          dsimp only [g]
          split
          · next e => simp [file, huniq x hx e]
          · next e =>
            have : x ≠ p := fun e' => e (e' ▸ hpat)
            simp [this]
        refine h.mapPages (fun q hq => ?_) fun q hq => ?_
        · dsimp only [g]
          split
          · exact ⟨rfl, rfl, hfits q hq⟩
          · exact ⟨rfl, rfl, (hps q hq).2.2.2.2.2.1⟩
        · rw [hfl q hq]
          have hsup : (g sup q).superseded = sup q := by dsimp only [g]; split <;> rfl
          rw [hsup]
          by_cases hqp : q = p
          · subst hqp
            rw [hp1]
            simp only [or_true, true_and]
            refine exists_congr fun x => and_congr_right fun hx => ?_
            rw [hfl x hx, s1, s2, s3]
            constructor
            · rintro ⟨e1, e2, e3, e4⟩
              exact ⟨e1, e2, .inl e3, e4⟩
            · rintro ⟨e1, e2, e3 | e3, e4⟩
              · exact ⟨e1, e2, e3, e4⟩
              · subst e3; omega
          · rw [hq1 q hq hqp, (hps q hq).2.2.2.2.2.2]
            simp only [hqp, or_false, ← and_or_left]
            refine and_congr_right fun hqf => ?_
            constructor
            · rintro (⟨x, hx, e1, e2, e3, e4⟩ | ⟨e1, e2, e3⟩)
              · exact ⟨x, hx, e1, e2, (hfl x hx).2 (.inl e3), e4⟩
              · exact ⟨p, hm, by omega, by omega, (hfl p hm).2 (.inr rfl), by omega⟩
            · rintro ⟨x, hx, e1, e2, e3, e4⟩
              rcases (hfl x hx).1 e3 with e3 | rfl
              · exact .inl ⟨x, hx, e1, e2, e3, e4⟩
              · exact .inr ⟨by omega, by omega, by omega⟩
      unfold Catalogue.supersede
      cases hcur : c.current? slot number with
      | none =>
        have hnone := (h.current (slot := slot) (number := number)).1 hcur
        have := main Page.superseded (by
          rw [hpsup]
          simp only [Bool.false_eq_true, false_iff, not_exists, not_and]
          intro x hx e1 e2 e3
          exact absurd e3 (hnone x hx e1 e2)) (by
          intro q hq _
          simp only [iff_self_or, and_imp]
          intro e1 e2 e3
          exact absurd e1 (hnone q hq e2 e3))
        exact this
      | some cur =>
        obtain ⟨c1, c2, c3, c4, c5⟩ := (h.current (slot := slot) (number := number)).2 cur hcur
        have hcp : cur ≠ p := fun e => by simp [e, hw] at c4
        have hcv : cur.version ≠ version := by
          intro e
          exact hcp (huniq cur c1 (Page.isAt_iff.2 (by simp [Page.key, c2, c3, e])))
        have hcuniq : ∀ q ∈ c.pages, q.isAt slot number cur.version = true ↔ q = cur := by
          intro q hq
          rw [Page.isAt_iff]
          constructor
          · intro e
            exact List.inj_on_of_nodup_map h.2.2.2.1 hq c1 (e.trans (by simp [Page.key, c2, c3]))
          · rintro rfl; simp [Page.key, c2, c3]
        -- a FILED version below the current one is superseded already
        have hlow : ∀ q ∈ c.pages, q.state = .filed → q.slot = slot → q.number = number → q ≠ cur → q.superseded = true := by
          intro q hq e1 e2 e3 e4
          refine (hps q hq).2.2.2.2.2.2.2 ⟨e1, cur, c1, by omega, by omega, c4, ?_⟩
          have := c5 q hq e2 e3 e1
          rcases Nat.lt_or_eq_of_le this with hlt | heq
          · exact hlt
          · exact absurd ((hcuniq q hq).1 (Page.isAt_iff.2 (by simp [Page.key, e2, e3, heq]))) e4
        dsimp only
        split
        · next hlt =>
          have := main (fun q => q.superseded || q.isAt slot number cur.version) (by
            have : p.isAt slot number cur.version = false := by
              rw [Bool.eq_false_iff]; exact fun e => hcp ((hcuniq p hm).1 e).symm
            simp only [hpsup, this, Bool.or_self, Bool.false_eq_true, false_iff, not_exists, not_and]
            intro x hx e1 e2 e3
            have := c5 x hx e1 e2 e3
            omega) (by
            intro q hq hqp
            simp only [Bool.or_eq_true, hcuniq q hq]
            refine or_congr_right' fun hn => ?_
            constructor
            · rintro rfl; exact ⟨c4, c2, c3, hlt⟩
            · rintro ⟨e1, e2, e3, e4⟩
              by_contra hne
              exact hn (hlow q hq e1 e2 e3 hne))
          refine (congrArg Catalogue.Sound ?_).mpr this
          simp only [Catalogue.withPage, List.map_map]
          refine congrArg (fun l => { c with pages := l }) (List.map_congr_left fun q hq => ?_)
          have k : ∀ (q : Page) (b : Bool) (v : Nat), Page.isAt { q with superseded := b } slot number v = q.isAt slot number v :=
            fun _ _ _ => rfl
          simp only [Function.comp, g, file]
          cases q.isAt slot number cur.version <;> cases e2 : q.isAt slot number version <;> simp [e2, k]
        · next hge =>
          have := main (fun q => q.superseded || q.isAt slot number version) (by
            simp only [hpsup, hpat, Bool.or_true, true_iff]
            exact ⟨cur, c1, c2, c3, c4, by omega⟩) (by
            intro q hq hqp
            have : q.isAt slot number version = false := by
              rw [Bool.eq_false_iff]; exact fun e => hqp (huniq q hq e)
            simp only [this, Bool.or_false, iff_self_or, and_imp]
            intro e1 e2 e3 e4
            refine hlow q hq e1 e2 e3 ?_
            rintro rfl; omega)
          refine (congrArg Catalogue.Sound ?_).mpr this
          simp only [Catalogue.withPage, List.map_map]
          refine congrArg (fun l => { c with pages := l }) (List.map_congr_left fun q hq => ?_)
          have k : ∀ (q : Page) (b : Bool) (v : Nat), Page.isAt { q with superseded := b } slot number v = q.isAt slot number v :=
            fun _ _ _ => rfl
          simp only [Function.comp, g, file]
          cases e2 : q.isAt slot number version <;> simp [e2, k]
    · exact h
  · next n =>
    refine h.withPhoto fun p _ _ hs => ?_
    split
    · next hw =>
      refine ⟨rfl, rfl, fun _ => rfl, ?_⟩
      have := hs.2
      simp only [restoredFits, Bool.and_eq_true] at this ⊢
      exact ⟨this.1, by simp⟩
    · exact ⟨rfl, rfl, id, hs.2⟩

/-! ### Whole editions -/

theorem dropRefs_photos (c : Catalogue) (ps : List Placement) : (c.dropRefs ps).photos = c.photos.map fun q =>
    { q with refs := if ps.any (fun pl => pl.photo == q.number) then q.refs - 1 else q.refs } := by
  simp only [Catalogue.dropRefs]
  refine List.map_congr_left fun q _ => ?_
  split <;> rfl

theorem foldl_dropRefs (ps : List Page) (c : Catalogue) :
    (ps.foldl (fun x p => x.dropRefs p.placements) c) = { c with photos := c.photos.map fun q =>
      { q with refs := q.refs - (ps.map fun p => if p.placements.any (fun pl => pl.photo == q.number) then 1 else 0).sum } } := by
  induction ps generalizing c with
  | nil => simp
  | cons p ps ih =>
    rw [List.foldl_cons, ih]
    have : ∀ d : Catalogue, d.dropRefs p.placements = { d with photos := d.photos.map fun q =>
        { q with refs := if p.placements.any (fun pl => pl.photo == q.number) then q.refs - 1 else q.refs } } := by
      intro d
      have := dropRefs_photos d p.placements
      simp only [Catalogue.dropRefs] at this ⊢
      rw [this]
    rw [this]
    simp only [List.map_map, List.map_cons, List.sum_cons]
    refine congrArg (fun l => { c with photos := l }) (List.map_congr_left fun q _ => ?_)
    simp only [Function.comp]
    split <;> simp [Nat.sub_sub]

theorem keys_set_none {l : List (Option Edition)} {i : Nat} :
    ((l.set i none).filterMap (Option.map Edition.key)).Sublist (l.filterMap (Option.map Edition.key)) := by
  induction l generalizing i with
  | nil => simp
  | cons x xs ih =>
    cases i with
    | zero => cases x <;> simp
    | succ i => cases x <;> simp [ih]

theorem mem_keys {c : Catalogue} {k : EditionKey} :
    k ∈ c.editions.filterMap (Option.map Edition.key) ↔ ∃ i e, c.edition? i = some e ∧ e.key = k := by
  simp only [List.mem_filterMap, Option.map_eq_some_iff]
  constructor
  · rintro ⟨x, hx, e, rfl, hk⟩
    obtain ⟨i, hi⟩ := List.mem_iff_getElem?.1 hx
    exact ⟨i, e, by simp [Catalogue.edition?, hi], hk⟩
  · rintro ⟨i, e, he, hk⟩
    exact ⟨some e, Catalogue.edition?_mem he, e, rfl, hk⟩

/-- An edition leaves with its pages; the references of its placements fall (R10, R89). -/
theorem Catalogue.Sound.freeEdition {c : Catalogue} (h : c.Sound) (slot : Nat) : (c.freeEdition slot).Sound := by
  let count (n : U32) : Nat := ((c.pagesOf slot).map fun p => if p.placements.any (fun pl => pl.photo == n) then 1 else 0).sum
  let down (q : Photo) : Photo := { q with refs := q.refs - count q.number }
  have hcat : c.freeEdition slot = { c with
      editions := c.editions.set slot none, pages := c.pages.filter (fun p => p.slot != slot), photos := c.photos.map down } := by
    simp only [Catalogue.freeEdition, foldl_dropRefs, Catalogue.putEdition]
    rfl
  obtain ⟨h1, h2, h3, h4, h5, h6, h7⟩ := h
  rw [hcat]
  have hfl : ∀ n, (∃ q ∈ c.photos, q.number = n ∧ q.state = .filed) → ∃ q ∈ c.photos.map down, q.number = n ∧ q.state = .filed := by
    rintro n ⟨q, hq, hn, hs⟩
    exact ⟨down q, List.mem_map_of_mem hq, hn, hs⟩
  refine ⟨by simpa using h1, h2.sublist keys_set_none, ?_, ?_, ?_, ?_, ?_⟩
  · intro e he x hx
    rcases List.mem_or_eq_of_mem_set he with hm | rfl
    · exact h3 e hm x hx
    · cases hx
  · exact h4.sublist ((List.filter_sublist).map _)
  · simpa [List.map_map, Function.comp_def, down] using h5
  · intro p hp
    simp only [List.mem_filter, bne_iff_ne, ne_eq] at hp
    refine (h6 p hp.1).congr ?_ hfl ?_
    · simp only [Catalogue.edition?, List.getElem?_set]
      rw [if_neg (Ne.symm hp.2)]
      exact id
    · simp only [Catalogue.Overtaken, List.mem_filter, bne_iff_ne, ne_eq]
      constructor
      · rintro ⟨q, hq, e1, e2⟩
        exact ⟨q, ⟨hq, by rw [e1]; exact hp.2⟩, e1, e2⟩
      · rintro ⟨q, ⟨hq, _⟩, e⟩
        exact ⟨q, hq, e⟩
  · intro q hq
    simp only [List.mem_map] at hq
    obtain ⟨x, hx, rfl⟩ := hq
    refine ⟨?_, (h7 x hx).2⟩
    have hsplit : ∀ (l : List Page) (v : Page → Nat), (l.map v).sum =
        ((l.filter fun p => p.slot == slot).map v).sum + ((l.filter fun p => p.slot != slot).map v).sum := by
      intro l v
      induction l with
      | nil => simp
      | cons a l ih =>
        simp only [List.map_cons, List.sum_cons, List.filter_cons, ih]
        by_cases ha : a.slot = slot <;> simp [ha] <;> omega
    have hc : count x.number = ((c.pages.filter fun p => p.slot == slot).map fun p =>
        p.placements.countP fun pl => pl.photo == x.number).sum := by
      simp only [count, Catalogue.pagesOf]
      refine congrArg List.sum (List.map_congr_left fun p hp => ?_)
      rw [countP_photo (h6 p (List.mem_of_mem_filter hp)).2.2.2.1]
    have := (h7 x hx).1
    show x.refs - count x.number = ((c.pages.filter fun p => p.slot != slot).map fun p =>
        p.placements.countP fun pl => pl.photo == x.number).sum
    rw [this, hc, Catalogue.placed, hsplit c.pages]
    omega

theorem keys_set_some {l : List (Option Edition)} {i : Nat} {e : Edition} (hn : (l.filterMap (Option.map Edition.key)).Nodup)
    (hk : e.key ∉ l.filterMap (Option.map Edition.key)) : ((l.set i (some e)).filterMap (Option.map Edition.key)).Nodup := by
  induction l generalizing i with
  | nil => simp
  | cons x xs ih =>
    cases x with
    | none =>
      cases i with
      | zero => simp only [List.set_cons_zero, List.filterMap_cons_some (f := Option.map Edition.key)
          (by rfl : Option.map Edition.key (some e) = some e.key)]
                exact List.nodup_cons.2 ⟨by simpa using hk, by simpa using hn⟩
      | succ i => simpa using ih (by simpa using hn) (by simpa using hk)
    | some y =>
      simp only [List.filterMap_cons, Option.map_some, List.nodup_cons, List.mem_cons, not_or] at hn hk
      cases i with
      | zero =>
        simp only [List.set_cons_zero, List.filterMap_cons, Option.map_some]
        exact List.nodup_cons.2 ⟨hk.2, hn.2⟩
      | succ i =>
        simp only [List.set_cons_succ, List.filterMap_cons, Option.map_some]
        refine List.nodup_cons.2 ⟨?_, ih hn.2 hk.2⟩
        intro hm
        simp only [List.mem_filterMap, Option.map_eq_some_iff] at hm
        obtain ⟨z, hz, w, rfl, hw⟩ := hm
        rcases List.mem_or_eq_of_mem_set hz with hz | hz
        · exact hn.1 (List.mem_filterMap.2 ⟨some w, hz, by simp [hw]⟩)
        · cases hz
          exact hk.1 hw

/-- A new edition in a FREE slot (R43). -/
theorem Catalogue.Sound.putEdition {c : Catalogue} (h : c.Sound) {slot : Nat} {e : Edition} (hf : c.edition? slot = none)
    (hk : ∀ i x, c.edition? i = some x → x.key ≠ e.key) (hs : e.Sound) : (c.putEdition slot (some e)).Sound := by
  obtain ⟨h1, h2, h3, h4, h5, h6, h7⟩ := h
  refine ⟨by simpa [Catalogue.putEdition] using h1, ?_, ?_, h4, h5, ?_, h7⟩
  · refine keys_set_some h2 ?_
    rw [mem_keys]
    rintro ⟨i, x, hx, hxk⟩
    exact hk i x hx hxk
  · intro x hx y hy
    rcases List.mem_or_eq_of_mem_set hx with hx | rfl
    · exact h3 x hx y hy
    · cases hy; exact hs
  · intro p hp
    refine (h6 p hp).congr ?_ (fun n hn => hn) Iff.rfl
    intro ho
    have hne : slot ≠ p.slot := by
      rintro rfl
      rw [hf] at ho
      cases ho
    simp only [Catalogue.edition?, Catalogue.putEdition, List.getElem?_set]
    rw [if_neg hne]
    exact ho

/-! ### The rebuilt catalogue (R23, R24) -/

theorem distinct_iff {α : Type} [DecidableEq α] (l : List α) : distinct l = true ↔ l.Nodup := by
  induction l with
  | nil => simp [distinct]
  | cons x xs ih => simp [distinct, ih]

theorem insertBy_perm {α : Type} (le : α → α → Bool) (x : α) (l : List α) : (insertBy le x l).Perm (x :: l) := by
  induction l with
  | nil => simp [insertBy]
  | cons y ys ih =>
    simp only [insertBy]
    split
    · exact .refl _
    · exact (List.Perm.cons y ih).trans (List.Perm.swap x y ys)

theorem sortBy_perm {α : Type} (le : α → α → Bool) (l : List α) : (sortBy le l).Perm l := by
  induction l with
  | nil => exact .refl _
  | cons x xs ih => exact (insertBy_perm le x _).trans (ih.cons x)

theorem nodup_eraseDups {α : Type} [DecidableEq α] : ∀ (n : Nat) (l : List α), l.length ≤ n → l.eraseDups.Nodup
  | _, [], _ => by simp
  | n + 1, x :: xs, h => by
    rw [List.eraseDups_cons]
    refine List.nodup_cons.2 ⟨by simp, nodup_eraseDups n _ ?_⟩
    have := List.length_filter_le (fun b => !b == x) xs
    simp only [List.length_cons] at h
    omega

theorem indexKeys_nodup (x : StoreIndex) : (indexKeys x).Nodup :=
  (sortBy_perm _ _).nodup_iff.2 (nodup_eraseDups _ _ le_rfl)

theorem mem_indexKeys (x : StoreIndex) (k : EditionKey) :
    k ∈ indexKeys x ↔ k ∈ x.marks.map CloseMark.key ∨ k ∈ x.pages.map IdxPage.key := by
  rw [indexKeys, (sortBy_perm _ _).mem_iff, List.mem_eraseDups, List.mem_append]

theorem returnedEdition_key (x : StoreIndex) (k : EditionKey) : (returnedEdition x k).key = k := by
  unfold returnedEdition; split <;> rfl

theorem rebuilt_edition? (x : StoreIndex) {i : Nat} :
    (rebuiltCatalogue x).edition? i = (indexKeys x)[i]?.map (returnedEdition x) := by
  simp only [Catalogue.edition?, rebuiltCatalogue, List.getElem?_append, List.length_map]
  split
  · next h => simp [h]
  · next h =>
    rw [List.getElem?_eq_none (by omega : (indexKeys x).length ≤ i)]
    simp only [List.getElem?_replicate]
    split <;> rfl

theorem findIdx_key {l : List EditionKey} {k : EditionKey} (h : k ∈ l) : l[l.findIdx fun y => y == k]? = some k := by
  have hlt : l.findIdx (fun y => y == k) < l.length := List.findIdx_lt_length_of_exists ⟨k, h, by simp⟩
  rw [List.getElem?_eq_getElem hlt]
  have := List.findIdx_getElem (w := hlt)
  simpa using this

/-- An index that passes the check rebuilds tables that are as the rules state them (R23, R24). -/
theorem rebuiltCatalogue_sound {x : StoreIndex} (hc : indexCheck x = .ok) (hw : x.wellFormed = true) :
    (rebuiltCatalogue x).Sound := by
  simp only [indexCheck] at hc
  split at hc
  · cases hc
  next hsize =>
  split at hc
  swap
  · cases hc
  next hgood =>
  simp only [Bool.and_eq_true, distinct_iff, List.all_eq_true, List.any_eq_true, beq_iff_eq, and_assoc] at hgood
  obtain ⟨g1, g2, g3, g4⟩ := hgood
  simp only [Config.editionEntries, not_or, not_lt] at hsize
  simp only [StoreIndex.wellFormed, Bool.and_eq_true, List.all_eq_true, and_assoc] at hw
  obtain ⟨_, w2, w3⟩ := hw
  have hmem : ∀ p ∈ x.pages, p.key ∈ indexKeys x := fun p hp => (mem_indexKeys x _).2 (.inr (List.mem_map_of_mem hp))
  have hslot : ∀ p ∈ x.pages, ∀ q ∈ x.pages, (returnedPage x p).slot = (returnedPage x q).slot → p.key = q.key := by
    intro p hp q hq e
    have h1 := findIdx_key (hmem p hp)
    have h2 := findIdx_key (hmem q hq)
    simp only [returnedPage] at e
    rw [e, h2] at h1
    exact (Option.some.inj h1).symm
  have hslot' : ∀ p q : IdxPage, p.key = q.key → (returnedPage x p).slot = (returnedPage x q).slot := by
    intro p q e; simp [returnedPage, e]
  refine ⟨?_, ?_, ?_, ?_, ?_, ?_, ?_⟩
  · simp only [rebuiltCatalogue, List.length_append, List.length_map, List.length_replicate]; omega
  · have : (rebuiltCatalogue x).editions.filterMap (Option.map Edition.key) = indexKeys x := by
      have : ∀ l : List EditionKey, (l.map fun k => some (returnedEdition x k)).filterMap (Option.map Edition.key) = l := by
        intro l
        induction l with
        | nil => rfl
        | cons a l ih => simp [returnedEdition_key, ih]
      simp only [rebuiltCatalogue, List.filterMap_append, this]
      simp
    rw [this]
    exact indexKeys_nodup x
  · intro e he y hy
    simp only [rebuiltCatalogue, List.mem_append, List.mem_map, List.mem_replicate] at he
    rcases he with ⟨k, _, rfl⟩ | ⟨_, rfl⟩
    · cases hy
      unfold returnedEdition
      split <;> simp [Edition.Sound]
    · cases hy
  · show ((x.pages.map (returnedPage x)).map Page.key).Nodup
    rw [List.map_map]
    have hp : (x.pages.map fun p : IdxPage => (p.key, p.number, p.version)).Nodup := g3
    have hnd := List.Nodup.of_map _ hp
    rw [List.nodup_map_iff_inj_on hnd] at hp ⊢
    intro p hpm q hqm e
    simp only [Function.comp, Page.key, Prod.mk.injEq] at e
    refine hp p hpm q hqm ?_
    simp only [Prod.mk.injEq]
    exact ⟨hslot p hpm q hqm e.1, e.2.1, e.2.2⟩
  · show ((x.photos.map (returnedPhoto x)).map Photo.number).Nodup
    rw [List.map_map]; exact g4
  · intro p hp
    simp only [rebuiltCatalogue, List.mem_map] at hp
    obtain ⟨q, hq, rfl⟩ := hp
    have hwf := w2 q hq
    simp only [IdxPage.wellFormed, Bool.and_eq_true, decide_eq_true_eq] at hwf
    obtain ⟨⟨⟨⟨⟨⟨_, _, _, _, _, v1, v2, _, _, hnd⟩, _⟩, _⟩, _⟩, _⟩, hfit⟩ := hwf
    refine ⟨?_, v1, v2, hnd, ?_, hfit, ?_⟩
    · rw [rebuilt_edition?]
      simp only [returnedPage, findIdx_key (hmem q hq)]
      rfl
    · intro pl hpl
      obtain ⟨y, hy, hyn⟩ := g1 q hq pl hpl
      exact ⟨returnedPhoto x y, List.mem_map_of_mem hy, hyn, rfl⟩
    · simp only [Catalogue.Overtaken, rebuiltCatalogue, List.mem_map]
      have : (returnedPage x q).superseded = true ↔ ∃ z ∈ x.pages, z.key = q.key ∧ z.number = q.number ∧ q.version < z.version := by
        simp [returnedPage, and_assoc]
      rw [this]
      constructor
      · rintro ⟨z, hz, e1, e2, e3⟩
        exact ⟨rfl, returnedPage x z, ⟨z, hz, rfl⟩, hslot' z q e1, e2, rfl, e3⟩
      · rintro ⟨_, _, ⟨z, hz, rfl⟩, e1, e2, _, e3⟩
        exact ⟨z, hz, hslot z hz q hq e1, e2, e3⟩
  · intro p hp
    simp only [rebuiltCatalogue, List.mem_map] at hp
    obtain ⟨q, hq, rfl⟩ := hp
    refine ⟨?_, ?_⟩
    · simp only [Catalogue.placed, rebuiltCatalogue, List.map_map]
      rfl
    · have hwf := w3 q hq
      simp only [IdxPhoto.wellFormed, Bool.and_eq_true] at hwf
      exact hwf.2

end Sys2Proof.Machine
end

