-- ==== Sys2Proof/Laws/State.lean ====
section
/-! SUPPORT. What each named update of the state leaves and sets, field by field. -/

namespace Sys2Proof.Machine.State

/-! ### push -/

@[simp] theorem push_powered (s : State) (x : Task) : (s.push x).powered = s.powered := rfl
@[simp] theorem push_cal (s : State) (x : Task) : (s.push x).cal = s.cal := rfl
@[simp] theorem push_events (s : State) (x : Task) : (s.push x).events = s.events := rfl
@[simp] theorem push_deadlines (s : State) (x : Task) : (s.push x).deadlines = s.deadlines := rfl
@[simp] theorem push_cat (s : State) (x : Task) : (s.push x).cat = s.cat := rfl
@[simp] theorem push_pool (s : State) (x : Task) : (s.push x).pool = s.pool := rfl
@[simp] theorem push_link (s : State) (x : Task) : (s.push x).link = s.link := rfl
@[simp] theorem push_vol (s : State) (x : Task) : (s.push x).vol = s.vol := rfl
@[simp] theorem push_eng (s : State) (x : Task) : (s.push x).eng = s.eng := rfl
@[simp] theorem push_hold (s : State) (x : Task) : (s.push x).hold = s.hold := rfl
@[simp] theorem push_ord (s : State) (x : Task) : (s.push x).ord = s.ord := rfl
@[simp] theorem push_fee (s : State) (x : Task) : (s.push x).fee = s.fee := rfl
@[simp] theorem push_stmt (s : State) (x : Task) : (s.push x).stmt = s.stmt := rfl
@[simp] theorem push_port (s : State) (x : Task) : (s.push x).port = s.port := rfl
@[simp] theorem push_lane (s : State) (x : Task) : (s.push x).lane = s.lane := rfl
@[simp] theorem push_req (s : State) (x : Task) : (s.push x).req = s.req := rfl
@[simp] theorem push_agenda (s : State) (x : Task) : (s.push x).agenda = s.agenda ++ [x] := rfl
@[simp] theorem push_formed (s : State) (x : Task) : (s.push x).formed = s.formed := rfl
@[simp] theorem push_pending (s : State) (x : Task) : (s.push x).pending = s.pending := rfl

/-! ### latch -/

@[simp] theorem latch_powered (s : State) (e : Event) : (s.latch e).powered = s.powered := rfl
@[simp] theorem latch_cal (s : State) (e : Event) : (s.latch e).cal = s.cal := rfl
@[simp] theorem latch_events (s : State) (e : Event) : (s.latch e).events = s.events := rfl
@[simp] theorem latch_deadlines (s : State) (e : Event) : (s.latch e).deadlines = s.deadlines := rfl
@[simp] theorem latch_cat (s : State) (e : Event) : (s.latch e).cat = s.cat := rfl
@[simp] theorem latch_pool (s : State) (e : Event) : (s.latch e).pool = s.pool := rfl
@[simp] theorem latch_link (s : State) (e : Event) : (s.latch e).link = s.link := rfl
@[simp] theorem latch_vol (s : State) (e : Event) : (s.latch e).vol = s.vol := rfl
@[simp] theorem latch_eng (s : State) (e : Event) : (s.latch e).eng = s.eng := rfl
@[simp] theorem latch_hold (s : State) (e : Event) : (s.latch e).hold = s.hold := rfl
@[simp] theorem latch_ord (s : State) (e : Event) : (s.latch e).ord = s.ord := rfl
@[simp] theorem latch_fee (s : State) (e : Event) : (s.latch e).fee = s.fee := rfl
@[simp] theorem latch_stmt (s : State) (e : Event) : (s.latch e).stmt = s.stmt := rfl
@[simp] theorem latch_port (s : State) (e : Event) : (s.latch e).port = s.port := rfl
@[simp] theorem latch_lane (s : State) (e : Event) : (s.latch e).lane = s.lane := rfl
@[simp] theorem latch_agenda (s : State) (e : Event) : (s.latch e).agenda = s.agenda := rfl
@[simp] theorem latch_formed (s : State) (e : Event) : (s.latch e).formed = s.formed := rfl
@[simp] theorem latch_pending (s : State) (e : Event) : (s.latch e).pending = s.pending := rfl

/-! ### withCat -/

@[simp] theorem withCat_powered (s : State) (f : Catalogue → Catalogue) : (s.withCat f).powered = s.powered := rfl
@[simp] theorem withCat_cal (s : State) (f : Catalogue → Catalogue) : (s.withCat f).cal = s.cal := rfl
@[simp] theorem withCat_events (s : State) (f : Catalogue → Catalogue) : (s.withCat f).events = s.events := rfl
@[simp] theorem withCat_deadlines (s : State) (f : Catalogue → Catalogue) : (s.withCat f).deadlines = s.deadlines := rfl
@[simp] theorem withCat_cat (s : State) (f : Catalogue → Catalogue) : (s.withCat f).cat = f s.cat := rfl
@[simp] theorem withCat_pool (s : State) (f : Catalogue → Catalogue) : (s.withCat f).pool = s.pool := rfl
@[simp] theorem withCat_link (s : State) (f : Catalogue → Catalogue) : (s.withCat f).link = s.link := rfl
@[simp] theorem withCat_vol (s : State) (f : Catalogue → Catalogue) : (s.withCat f).vol = s.vol := rfl
@[simp] theorem withCat_eng (s : State) (f : Catalogue → Catalogue) : (s.withCat f).eng = s.eng := rfl
@[simp] theorem withCat_hold (s : State) (f : Catalogue → Catalogue) : (s.withCat f).hold = s.hold := rfl
@[simp] theorem withCat_ord (s : State) (f : Catalogue → Catalogue) : (s.withCat f).ord = s.ord := rfl
@[simp] theorem withCat_fee (s : State) (f : Catalogue → Catalogue) : (s.withCat f).fee = s.fee := rfl
@[simp] theorem withCat_stmt (s : State) (f : Catalogue → Catalogue) : (s.withCat f).stmt = s.stmt := rfl
@[simp] theorem withCat_port (s : State) (f : Catalogue → Catalogue) : (s.withCat f).port = s.port := rfl
@[simp] theorem withCat_lane (s : State) (f : Catalogue → Catalogue) : (s.withCat f).lane = s.lane := rfl
@[simp] theorem withCat_req (s : State) (f : Catalogue → Catalogue) : (s.withCat f).req = s.req := rfl
@[simp] theorem withCat_agenda (s : State) (f : Catalogue → Catalogue) : (s.withCat f).agenda = s.agenda := rfl
@[simp] theorem withCat_formed (s : State) (f : Catalogue → Catalogue) : (s.withCat f).formed = s.formed := rfl
@[simp] theorem withCat_pending (s : State) (f : Catalogue → Catalogue) : (s.withCat f).pending = s.pending := rfl

/-! ### withOrder -/

@[simp] theorem withOrder_powered (s : State) (n : Nat) (f : Order → Order) : (s.withOrder n f).powered = s.powered := rfl
@[simp] theorem withOrder_cal (s : State) (n : Nat) (f : Order → Order) : (s.withOrder n f).cal = s.cal := rfl
@[simp] theorem withOrder_events (s : State) (n : Nat) (f : Order → Order) : (s.withOrder n f).events = s.events := rfl
@[simp] theorem withOrder_deadlines (s : State) (n : Nat) (f : Order → Order) : (s.withOrder n f).deadlines = s.deadlines := rfl
@[simp] theorem withOrder_cat (s : State) (n : Nat) (f : Order → Order) : (s.withOrder n f).cat = s.cat := rfl
@[simp] theorem withOrder_pool (s : State) (n : Nat) (f : Order → Order) : (s.withOrder n f).pool = s.pool := rfl
@[simp] theorem withOrder_link (s : State) (n : Nat) (f : Order → Order) : (s.withOrder n f).link = s.link := rfl
@[simp] theorem withOrder_vol (s : State) (n : Nat) (f : Order → Order) : (s.withOrder n f).vol = s.vol := rfl
@[simp] theorem withOrder_eng (s : State) (n : Nat) (f : Order → Order) : (s.withOrder n f).eng = s.eng := rfl
@[simp] theorem withOrder_hold (s : State) (n : Nat) (f : Order → Order) : (s.withOrder n f).hold = s.hold := rfl
@[simp] theorem withOrder_fee (s : State) (n : Nat) (f : Order → Order) : (s.withOrder n f).fee = s.fee := rfl
@[simp] theorem withOrder_stmt (s : State) (n : Nat) (f : Order → Order) : (s.withOrder n f).stmt = s.stmt := rfl
@[simp] theorem withOrder_port (s : State) (n : Nat) (f : Order → Order) : (s.withOrder n f).port = s.port := rfl
@[simp] theorem withOrder_lane (s : State) (n : Nat) (f : Order → Order) : (s.withOrder n f).lane = s.lane := rfl
@[simp] theorem withOrder_req (s : State) (n : Nat) (f : Order → Order) : (s.withOrder n f).req = s.req := rfl
@[simp] theorem withOrder_agenda (s : State) (n : Nat) (f : Order → Order) : (s.withOrder n f).agenda = s.agenda := rfl
@[simp] theorem withOrder_formed (s : State) (n : Nat) (f : Order → Order) : (s.withOrder n f).formed = s.formed := rfl
@[simp] theorem withOrder_pending (s : State) (n : Nat) (f : Order → Order) : (s.withOrder n f).pending = s.pending := rfl

/-! ### withJob -/

@[simp] theorem withJob_powered (s : State) (n : Nat) (f : Job → Job) : (s.withJob n f).powered = s.powered := rfl
@[simp] theorem withJob_cal (s : State) (n : Nat) (f : Job → Job) : (s.withJob n f).cal = s.cal := rfl
@[simp] theorem withJob_events (s : State) (n : Nat) (f : Job → Job) : (s.withJob n f).events = s.events := rfl
@[simp] theorem withJob_deadlines (s : State) (n : Nat) (f : Job → Job) : (s.withJob n f).deadlines = s.deadlines := rfl
@[simp] theorem withJob_cat (s : State) (n : Nat) (f : Job → Job) : (s.withJob n f).cat = s.cat := rfl
@[simp] theorem withJob_pool (s : State) (n : Nat) (f : Job → Job) : (s.withJob n f).pool = s.pool := rfl
@[simp] theorem withJob_link (s : State) (n : Nat) (f : Job → Job) : (s.withJob n f).link = s.link := rfl
@[simp] theorem withJob_vol (s : State) (n : Nat) (f : Job → Job) : (s.withJob n f).vol = s.vol := rfl
@[simp] theorem withJob_hold (s : State) (n : Nat) (f : Job → Job) : (s.withJob n f).hold = s.hold := rfl
@[simp] theorem withJob_ord (s : State) (n : Nat) (f : Job → Job) : (s.withJob n f).ord = s.ord := rfl
@[simp] theorem withJob_fee (s : State) (n : Nat) (f : Job → Job) : (s.withJob n f).fee = s.fee := rfl
@[simp] theorem withJob_stmt (s : State) (n : Nat) (f : Job → Job) : (s.withJob n f).stmt = s.stmt := rfl
@[simp] theorem withJob_port (s : State) (n : Nat) (f : Job → Job) : (s.withJob n f).port = s.port := rfl
@[simp] theorem withJob_lane (s : State) (n : Nat) (f : Job → Job) : (s.withJob n f).lane = s.lane := rfl
@[simp] theorem withJob_req (s : State) (n : Nat) (f : Job → Job) : (s.withJob n f).req = s.req := rfl
@[simp] theorem withJob_agenda (s : State) (n : Nat) (f : Job → Job) : (s.withJob n f).agenda = s.agenda := rfl
@[simp] theorem withJob_formed (s : State) (n : Nat) (f : Job → Job) : (s.withJob n f).formed = s.formed := rfl
@[simp] theorem withJob_pending (s : State) (n : Nat) (f : Job → Job) : (s.withJob n f).pending = s.pending := rfl

/-! ### withAccount -/

@[simp] theorem withAccount_powered (s : State) (n : Nat) (f : Account → Account) : (s.withAccount n f).powered = s.powered := rfl
@[simp] theorem withAccount_cal (s : State) (n : Nat) (f : Account → Account) : (s.withAccount n f).cal = s.cal := rfl
@[simp] theorem withAccount_events (s : State) (n : Nat) (f : Account → Account) : (s.withAccount n f).events = s.events := rfl
@[simp] theorem withAccount_deadlines (s : State) (n : Nat) (f : Account → Account) : (s.withAccount n f).deadlines = s.deadlines := rfl
@[simp] theorem withAccount_cat (s : State) (n : Nat) (f : Account → Account) : (s.withAccount n f).cat = s.cat := rfl
@[simp] theorem withAccount_pool (s : State) (n : Nat) (f : Account → Account) : (s.withAccount n f).pool = s.pool := rfl
@[simp] theorem withAccount_link (s : State) (n : Nat) (f : Account → Account) : (s.withAccount n f).link = s.link := rfl
@[simp] theorem withAccount_vol (s : State) (n : Nat) (f : Account → Account) : (s.withAccount n f).vol = s.vol := rfl
@[simp] theorem withAccount_eng (s : State) (n : Nat) (f : Account → Account) : (s.withAccount n f).eng = s.eng := rfl
@[simp] theorem withAccount_hold (s : State) (n : Nat) (f : Account → Account) : (s.withAccount n f).hold = s.hold := rfl
@[simp] theorem withAccount_ord (s : State) (n : Nat) (f : Account → Account) : (s.withAccount n f).ord = s.ord := rfl
@[simp] theorem withAccount_stmt (s : State) (n : Nat) (f : Account → Account) : (s.withAccount n f).stmt = s.stmt := rfl
@[simp] theorem withAccount_port (s : State) (n : Nat) (f : Account → Account) : (s.withAccount n f).port = s.port := rfl
@[simp] theorem withAccount_lane (s : State) (n : Nat) (f : Account → Account) : (s.withAccount n f).lane = s.lane := rfl
@[simp] theorem withAccount_req (s : State) (n : Nat) (f : Account → Account) : (s.withAccount n f).req = s.req := rfl
@[simp] theorem withAccount_agenda (s : State) (n : Nat) (f : Account → Account) : (s.withAccount n f).agenda = s.agenda := rfl
@[simp] theorem withAccount_formed (s : State) (n : Nat) (f : Account → Account) : (s.withAccount n f).formed = s.formed := rfl
@[simp] theorem withAccount_pending (s : State) (n : Nat) (f : Account → Account) : (s.withAccount n f).pending = s.pending := rfl

/-! ### withRecall -/

@[simp] theorem withRecall_powered (s : State) (i : Nat) (f : RecallSlot → RecallSlot) : (s.withRecall i f).powered = s.powered := rfl
@[simp] theorem withRecall_cal (s : State) (i : Nat) (f : RecallSlot → RecallSlot) : (s.withRecall i f).cal = s.cal := rfl
@[simp] theorem withRecall_events (s : State) (i : Nat) (f : RecallSlot → RecallSlot) : (s.withRecall i f).events = s.events := rfl
@[simp] theorem withRecall_deadlines (s : State) (i : Nat) (f : RecallSlot → RecallSlot) : (s.withRecall i f).deadlines = s.deadlines := rfl
@[simp] theorem withRecall_cat (s : State) (i : Nat) (f : RecallSlot → RecallSlot) : (s.withRecall i f).cat = s.cat := rfl
@[simp] theorem withRecall_pool (s : State) (i : Nat) (f : RecallSlot → RecallSlot) : (s.withRecall i f).pool = s.pool := rfl
@[simp] theorem withRecall_link (s : State) (i : Nat) (f : RecallSlot → RecallSlot) : (s.withRecall i f).link = s.link := rfl
@[simp] theorem withRecall_eng (s : State) (i : Nat) (f : RecallSlot → RecallSlot) : (s.withRecall i f).eng = s.eng := rfl
@[simp] theorem withRecall_hold (s : State) (i : Nat) (f : RecallSlot → RecallSlot) : (s.withRecall i f).hold = s.hold := rfl
@[simp] theorem withRecall_ord (s : State) (i : Nat) (f : RecallSlot → RecallSlot) : (s.withRecall i f).ord = s.ord := rfl
@[simp] theorem withRecall_fee (s : State) (i : Nat) (f : RecallSlot → RecallSlot) : (s.withRecall i f).fee = s.fee := rfl
@[simp] theorem withRecall_stmt (s : State) (i : Nat) (f : RecallSlot → RecallSlot) : (s.withRecall i f).stmt = s.stmt := rfl
@[simp] theorem withRecall_port (s : State) (i : Nat) (f : RecallSlot → RecallSlot) : (s.withRecall i f).port = s.port := rfl
@[simp] theorem withRecall_lane (s : State) (i : Nat) (f : RecallSlot → RecallSlot) : (s.withRecall i f).lane = s.lane := rfl
@[simp] theorem withRecall_req (s : State) (i : Nat) (f : RecallSlot → RecallSlot) : (s.withRecall i f).req = s.req := rfl
@[simp] theorem withRecall_agenda (s : State) (i : Nat) (f : RecallSlot → RecallSlot) : (s.withRecall i f).agenda = s.agenda := rfl
@[simp] theorem withRecall_formed (s : State) (i : Nat) (f : RecallSlot → RecallSlot) : (s.withRecall i f).formed = s.formed := rfl
@[simp] theorem withRecall_pending (s : State) (i : Nat) (f : RecallSlot → RecallSlot) : (s.withRecall i f).pending = s.pending := rfl

/-! ### give -/

@[simp] theorem give_powered (s : State) (h : Holder) (n : Nat) : (s.give h n).powered = s.powered := rfl
@[simp] theorem give_cal (s : State) (h : Holder) (n : Nat) : (s.give h n).cal = s.cal := rfl
@[simp] theorem give_events (s : State) (h : Holder) (n : Nat) : (s.give h n).events = s.events := rfl
@[simp] theorem give_deadlines (s : State) (h : Holder) (n : Nat) : (s.give h n).deadlines = s.deadlines := rfl
@[simp] theorem give_cat (s : State) (h : Holder) (n : Nat) : (s.give h n).cat = s.cat := rfl
@[simp] theorem give_link (s : State) (h : Holder) (n : Nat) : (s.give h n).link = s.link := rfl
@[simp] theorem give_vol (s : State) (h : Holder) (n : Nat) : (s.give h n).vol = s.vol := rfl
@[simp] theorem give_eng (s : State) (h : Holder) (n : Nat) : (s.give h n).eng = s.eng := rfl
@[simp] theorem give_hold (s : State) (h : Holder) (n : Nat) : (s.give h n).hold = s.hold := rfl
@[simp] theorem give_ord (s : State) (h : Holder) (n : Nat) : (s.give h n).ord = s.ord := rfl
@[simp] theorem give_fee (s : State) (h : Holder) (n : Nat) : (s.give h n).fee = s.fee := rfl
@[simp] theorem give_stmt (s : State) (h : Holder) (n : Nat) : (s.give h n).stmt = s.stmt := rfl
@[simp] theorem give_port (s : State) (h : Holder) (n : Nat) : (s.give h n).port = s.port := rfl
@[simp] theorem give_lane (s : State) (h : Holder) (n : Nat) : (s.give h n).lane = s.lane := rfl
@[simp] theorem give_req (s : State) (h : Holder) (n : Nat) : (s.give h n).req = s.req := rfl
@[simp] theorem give_agenda (s : State) (h : Holder) (n : Nat) : (s.give h n).agenda = s.agenda := rfl
@[simp] theorem give_formed (s : State) (h : Holder) (n : Nat) : (s.give h n).formed = s.formed := rfl
@[simp] theorem give_pending (s : State) (h : Holder) (n : Nat) : (s.give h n).pending = s.pending := rfl

/-! ### answer -/

@[simp] theorem answer_powered (s : State) (kind tag : U8) (c : Code) (l : List U8) : (s.answer kind tag c l).powered = s.powered := rfl
@[simp] theorem answer_cal (s : State) (kind tag : U8) (c : Code) (l : List U8) : (s.answer kind tag c l).cal = s.cal := rfl
@[simp] theorem answer_events (s : State) (kind tag : U8) (c : Code) (l : List U8) : (s.answer kind tag c l).events = s.events := rfl
@[simp] theorem answer_deadlines (s : State) (kind tag : U8) (c : Code) (l : List U8) : (s.answer kind tag c l).deadlines = s.deadlines := rfl
@[simp] theorem answer_cat (s : State) (kind tag : U8) (c : Code) (l : List U8) : (s.answer kind tag c l).cat = s.cat := rfl
@[simp] theorem answer_pool (s : State) (kind tag : U8) (c : Code) (l : List U8) : (s.answer kind tag c l).pool = s.pool := rfl
@[simp] theorem answer_link (s : State) (kind tag : U8) (c : Code) (l : List U8) : (s.answer kind tag c l).link = s.link := rfl
@[simp] theorem answer_vol (s : State) (kind tag : U8) (c : Code) (l : List U8) : (s.answer kind tag c l).vol = s.vol := rfl
@[simp] theorem answer_eng (s : State) (kind tag : U8) (c : Code) (l : List U8) : (s.answer kind tag c l).eng = s.eng := rfl
@[simp] theorem answer_hold (s : State) (kind tag : U8) (c : Code) (l : List U8) : (s.answer kind tag c l).hold = s.hold := rfl
@[simp] theorem answer_ord (s : State) (kind tag : U8) (c : Code) (l : List U8) : (s.answer kind tag c l).ord = s.ord := rfl
@[simp] theorem answer_fee (s : State) (kind tag : U8) (c : Code) (l : List U8) : (s.answer kind tag c l).fee = s.fee := rfl
@[simp] theorem answer_stmt (s : State) (kind tag : U8) (c : Code) (l : List U8) : (s.answer kind tag c l).stmt = s.stmt := rfl
@[simp] theorem answer_port (s : State) (kind tag : U8) (c : Code) (l : List U8) : (s.answer kind tag c l).port = s.port := rfl
@[simp] theorem answer_lane (s : State) (kind tag : U8) (c : Code) (l : List U8) : (s.answer kind tag c l).lane = s.lane := rfl
@[simp] theorem answer_req (s : State) (kind tag : U8) (c : Code) (l : List U8) : (s.answer kind tag c l).req = s.req := rfl
@[simp] theorem answer_agenda (s : State) (kind tag : U8) (c : Code) (l : List U8) : (s.answer kind tag c l).agenda = s.agenda := rfl
@[simp] theorem answer_pending (s : State) (kind tag : U8) (c : Code) (l : List U8) : (s.answer kind tag c l).pending = s.pending := rfl

/-! ### bindLane -/

@[simp] theorem bindLane_powered (s : State) (h : Holder) (o : Bool) (n : Nat) : (s.bindLane h o n).powered = s.powered := rfl
@[simp] theorem bindLane_cal (s : State) (h : Holder) (o : Bool) (n : Nat) : (s.bindLane h o n).cal = s.cal := rfl
@[simp] theorem bindLane_events (s : State) (h : Holder) (o : Bool) (n : Nat) : (s.bindLane h o n).events = s.events := rfl
@[simp] theorem bindLane_deadlines (s : State) (h : Holder) (o : Bool) (n : Nat) : (s.bindLane h o n).deadlines = s.deadlines := rfl
@[simp] theorem bindLane_cat (s : State) (h : Holder) (o : Bool) (n : Nat) : (s.bindLane h o n).cat = s.cat := rfl
@[simp] theorem bindLane_pool (s : State) (h : Holder) (o : Bool) (n : Nat) : (s.bindLane h o n).pool = s.pool := rfl
@[simp] theorem bindLane_link (s : State) (h : Holder) (o : Bool) (n : Nat) : (s.bindLane h o n).link = s.link := rfl
@[simp] theorem bindLane_vol (s : State) (h : Holder) (o : Bool) (n : Nat) : (s.bindLane h o n).vol = s.vol := rfl
@[simp] theorem bindLane_eng (s : State) (h : Holder) (o : Bool) (n : Nat) : (s.bindLane h o n).eng = s.eng := rfl
@[simp] theorem bindLane_hold (s : State) (h : Holder) (o : Bool) (n : Nat) : (s.bindLane h o n).hold = s.hold := rfl
@[simp] theorem bindLane_ord (s : State) (h : Holder) (o : Bool) (n : Nat) : (s.bindLane h o n).ord = s.ord := rfl
@[simp] theorem bindLane_fee (s : State) (h : Holder) (o : Bool) (n : Nat) : (s.bindLane h o n).fee = s.fee := rfl
@[simp] theorem bindLane_stmt (s : State) (h : Holder) (o : Bool) (n : Nat) : (s.bindLane h o n).stmt = s.stmt := rfl
@[simp] theorem bindLane_port (s : State) (h : Holder) (o : Bool) (n : Nat) : (s.bindLane h o n).port = s.port := rfl
@[simp] theorem bindLane_req (s : State) (h : Holder) (o : Bool) (n : Nat) : (s.bindLane h o n).req = s.req := rfl
@[simp] theorem bindLane_agenda (s : State) (h : Holder) (o : Bool) (n : Nat) : (s.bindLane h o n).agenda = s.agenda := rfl
@[simp] theorem bindLane_formed (s : State) (h : Holder) (o : Bool) (n : Nat) : (s.bindLane h o n).formed = s.formed := rfl
@[simp] theorem bindLane_pending (s : State) (h : Holder) (o : Bool) (n : Nat) : (s.bindLane h o n).pending = s.pending := rfl

/-! ### freeLane -/

@[simp] theorem freeLane_powered (s : State) : (s.freeLane).powered = s.powered := rfl
@[simp] theorem freeLane_cal (s : State) : (s.freeLane).cal = s.cal := rfl
@[simp] theorem freeLane_events (s : State) : (s.freeLane).events = s.events := rfl
@[simp] theorem freeLane_deadlines (s : State) : (s.freeLane).deadlines = s.deadlines := rfl
@[simp] theorem freeLane_cat (s : State) : (s.freeLane).cat = s.cat := rfl
@[simp] theorem freeLane_pool (s : State) : (s.freeLane).pool = s.pool := rfl
@[simp] theorem freeLane_link (s : State) : (s.freeLane).link = s.link := rfl
@[simp] theorem freeLane_vol (s : State) : (s.freeLane).vol = s.vol := rfl
@[simp] theorem freeLane_eng (s : State) : (s.freeLane).eng = s.eng := rfl
@[simp] theorem freeLane_hold (s : State) : (s.freeLane).hold = s.hold := rfl
@[simp] theorem freeLane_ord (s : State) : (s.freeLane).ord = s.ord := rfl
@[simp] theorem freeLane_fee (s : State) : (s.freeLane).fee = s.fee := rfl
@[simp] theorem freeLane_stmt (s : State) : (s.freeLane).stmt = s.stmt := rfl
@[simp] theorem freeLane_port (s : State) : (s.freeLane).port = s.port := rfl
@[simp] theorem freeLane_req (s : State) : (s.freeLane).req = s.req := rfl
@[simp] theorem freeLane_agenda (s : State) : (s.freeLane).agenda = s.agenda := rfl
@[simp] theorem freeLane_formed (s : State) : (s.freeLane).formed = s.formed := rfl
@[simp] theorem freeLane_pending (s : State) : (s.freeLane).pending = s.pending := rfl

/-! ### Inside the touched blocks -/

@[simp] theorem latch_latched (s : State) (e : Event) : (s.latch e).req.latched = s.req.latched ||| bitWord e.bit := rfl
@[simp] theorem latch_mode (s : State) (e : Event) : (s.latch e).req.mode = s.req.mode := rfl
@[simp] theorem latch_options (s : State) (e : Event) : (s.latch e).req.options = s.req.options := rfl
@[simp] theorem latch_mask (s : State) (e : Event) : (s.latch e).req.mask = s.req.mask := rfl
@[simp] theorem latch_armed (s : State) (e : Event) : (s.latch e).req.armed = s.req.armed := rfl
@[simp] theorem latch_wait (s : State) (e : Event) : (s.latch e).req.wait = s.req.wait := rfl
@[simp] theorem latch_entryTag (s : State) (e : Event) : (s.latch e).req.entryTag = s.req.entryTag := rfl
@[simp] theorem latch_reloadTag (s : State) (e : Event) : (s.latch e).req.reloadTag = s.req.reloadTag := rfl
@[simp] theorem withOrder_live (s : State) (n : Nat) (f : Order → Order) :
    (s.withOrder n f).ord.live = s.ord.live.map fun o => if o.number == n then f o else o := rfl
@[simp] theorem withOrder_next (s : State) (n : Nat) (f : Order → Order) : (s.withOrder n f).ord.next = s.ord.next := rfl
@[simp] theorem withOrder_finished (s : State) (n : Nat) (f : Order → Order) :
    (s.withOrder n f).ord.finished = s.ord.finished := rfl
@[simp] theorem withJob_jobs (s : State) (n : Nat) (f : Job → Job) :
    (s.withJob n f).eng.jobs = s.eng.jobs.map fun j => if j.number == n then f j else j := rfl
@[simp] theorem withJob_finished (s : State) (n : Nat) (f : Job → Job) :
    (s.withJob n f).eng.finished = s.eng.finished := rfl
@[simp] theorem withAccount_accounts (s : State) (n : Nat) (f : Account → Account) :
    (s.withAccount n f).fee.accounts = s.fee.accounts.map fun a => if a.number == n then f a else a := rfl
@[simp] theorem withAccount_schedule (s : State) (n : Nat) (f : Account → Account) :
    (s.withAccount n f).fee.schedule = s.fee.schedule := rfl
@[simp] theorem give_segments (s : State) (h : Holder) (n : Nat) :
    (s.give h n).pool.segments = fillFree h n s.pool.segments := rfl
@[simp] theorem give_claims (s : State) (h : Holder) (n : Nat) : (s.give h n).pool.claims = s.pool.claims := rfl
@[simp] theorem answer_immediate (s : State) (kind tag : U8) (c : Code) (l : List U8) :
    (s.answer kind tag c l).formed.immediate = some (s.replyFrame kind tag c l) := rfl
@[simp] theorem answer_prepare (s : State) (kind tag : U8) (c : Code) (l : List U8) :
    (s.answer kind tag c l).formed.prepare = s.formed.prepare := rfl
@[simp] theorem answer_reload (s : State) (kind tag : U8) (c : Code) (l : List U8) :
    (s.answer kind tag c l).formed.reload = s.formed.reload := rfl
@[simp] theorem answer_entry (s : State) (kind tag : U8) (c : Code) (l : List U8) :
    (s.answer kind tag c l).formed.entry = s.formed.entry := rfl

end Sys2Proof.Machine.State
end

