-- ==== Sys2Proof/Laws/Moves.lean ====
section
/-! SUPPORT. What the consequences of a change can do to the blocks whose contents the rules bound: every consequence is a
chain of moves, and a move either leaves those contents alone, charges an order that fits, returns a holder's segments, or
grants a claim that fits. -/

namespace Sys2Proof.Machine

/-- The part of an account that only money requests and charges change. -/
def Account.money (a : Account) : Nat × Nat × Int × Nat := (a.number, a.tier, a.balance, a.limit)

/-- t differs from s only in what no bound of the rules speaks of. -/
structure Plain (s t : State) : Prop where
  powered : t.powered = s.powered
  cal : t.cal = s.cal
  events : t.events = s.events
  deadlines : t.deadlines = s.deadlines
  port : t.port = s.port
  lane : t.lane = s.lane
  pending : t.pending = s.pending
  entries : t.hold.entries = s.hold.entries
  schedule : t.fee.schedule = s.fee.schedule
  mode : t.req.mode = s.req.mode
  options : t.req.options = s.req.options
  mask : t.req.mask = s.req.mask
  armed : t.req.armed = s.req.armed
  wait : t.req.wait = s.req.wait
  entryTag : t.req.entryTag = s.req.entryTag
  immediate : t.formed.immediate = s.formed.immediate
  entry : t.formed.entry = s.formed.entry
  segments : t.pool.segments = s.pool.segments
  current : t.stmt.current = s.stmt.current
  closed : t.stmt.closed = s.stmt.closed
  money : t.fee.accounts.map Account.money = s.fee.accounts.map Account.money
  next : t.ord.next = s.ord.next
  live : (t.ord.live.map Order.number).Sublist (s.ord.live.map Order.number)
  jobs : t.eng.jobs.length ≤ max 8 s.eng.jobs.length
  latched : ∀ i, s.req.latched.getLsbD i = true → t.req.latched.getLsbD i = true

/-- The money part of a charge: the balance falls by a total that fits, and an entry joins a statement with room. -/
def State.charged (s : State) (n : Nat) (total : Nat) (e : Entry) : State :=
  { s with
    fee := { s.fee with accounts := s.fee.accounts.map fun a =>
      if a.number == n then { a with balance := a.balance - total } else a }
    stmt := s.stmt.append e }

/-- A holder's segments freed. -/
def State.freed (s : State) (h : Holder) : State :=
  { s with pool := { s.pool with segments := emptyOut h s.pool.segments } }

/-- One move. -/
inductive Move (s : State) : State → Prop
  | plain {t : State} (h : Plain s t) : Move s t
  | charge (n total : Nat) (e : Entry) (a : Account) (h : s.fee.account? n = some a) (fits : a.fits total = true)
      (room : s.stmt.hasRoom = true) : Move s (s.charged n total e)
  | free (h : Holder) : Move s (s.freed h)
  | grant (c : Claim) (h : s.pool.fits c = true) : Move s (s.give c.owner c.need)

/-- A chain of moves. -/
abbrev Moves : State → State → Prop := Relation.ReflTransGen Move

namespace Plain

theorem refl (s : State) : Plain s s := by constructor <;> simp

theorem agenda (s : State) (a : List Task) : Plain s { s with agenda := a } := by constructor <;> simp

theorem push (s : State) (x : Task) : Plain s (s.push x) := agenda s _

theorem latch (s : State) (e : Event) : Plain s (s.latch e) := by
  constructor <;> first
    | rfl
    | exact le_refl _
    | exact le_max_right _ _
    | (intro i h; simp [State.latch, BitVec.getLsbD_or, h])

theorem prepare (s : State) (p : List (Nat × Frame)) :
    Plain s { s with formed := { s.formed with prepare := p } } := by constructor <;> simp

theorem reload (s : State) (f : Option Frame) (g : Option U8) :
    Plain s { s with formed := { s.formed with reload := f }, req := { s.req with reloadTag := g } } := by
  constructor <;> simp

theorem cat (s : State) (c : Catalogue) : Plain s { s with cat := c } := by constructor <;> simp

theorem withCat (s : State) (f : Catalogue → Catalogue) : Plain s (s.withCat f) := cat s _

theorem link (s : State) (l : StoreLink) : Plain s { s with link := l } := by constructor <;> simp

theorem vol (s : State) (v : VolumeUnit) : Plain s { s with vol := v } := by constructor <;> simp

theorem eng (s : State) (e : Engine) (h : e.jobs.length ≤ max 8 s.eng.jobs.length) : Plain s { s with eng := e } := by
  constructor <;> first
    | rfl
    | exact le_refl _
    | exact h
    | exact fun _ h => h

theorem withJob (s : State) (n : Nat) (f : Job → Job) : Plain s (s.withJob n f) := eng s _ (by simp)

theorem ord (s : State) (o : OrderTable) (h : (o.live.map Order.number).Sublist (s.ord.live.map Order.number))
    (hn : o.next = s.ord.next) :
    Plain s { s with ord := o } := by
  constructor <;> first
    | rfl
    | exact h
    | exact hn
    | exact le_max_right _ _
    | exact fun _ h => h

theorem withOrder (s : State) (n : Nat) (f : Order → Order) (h : ∀ o, (f o).number = o.number := by intro _; rfl) :
    Plain s (s.withOrder n f) := by
  refine ord s _ ?_ rfl
  have : (s.ord.live.map fun o => if o.number == n then f o else o).map Order.number = s.ord.live.map Order.number := by
    rw [List.map_map]
    exact List.map_congr_left fun o _ => by simp only [Function.comp]; split <;> simp [h]
  simp only [this, List.Sublist.refl]

theorem held (s : State) (l : List Nat) : Plain s { s with hold := { s.hold with held := l } } := by
  constructor <;> simp

theorem room (s : State) (l : List Nat) : Plain s { s with stmt := { s.stmt with held := l } } := by
  constructor <;> simp

theorem contents (s : State) (c : List (Holder × List U8)) :
    Plain s { s with pool := { s.pool with contents := c } } := by constructor <;> simp

theorem claims (s : State) (c : List Claim) : Plain s { s with pool := { s.pool with claims := c } } := by
  constructor <;> simp

theorem accounts (s : State) (l : List Account) (h : l.map Account.money = s.fee.accounts.map Account.money) :
    Plain s { s with fee := { s.fee with accounts := l } } := by
  constructor <;> first
    | rfl
    | exact h
    | exact le_refl _
    | exact le_max_right _ _
    | exact fun _ h => h

theorem withAccount (s : State) (n : Nat) (f : Account → Account) (h : ∀ a, (f a).money = a.money) :
    Plain s (s.withAccount n f) := by
  refine accounts s _ ?_
  simp only [List.map_map]
  refine List.map_congr_left fun a _ => ?_
  simp only [Function.comp]
  split <;> simp [h]

end Plain

namespace Moves

theorem refl (s : State) : Moves s s := Relation.ReflTransGen.refl

theorem of {s t : State} (h : Plain s t) : Moves s t := .single (.plain h)

theorem foldl {α : Type} (f : State → α → State) (h : ∀ s x, Moves s (f s x)) :
    ∀ (l : List α) (s : State), Moves s (l.foldl f s)
  | [], s => refl s
  | x :: xs, s => (h s x).trans (foldl f h xs (f s x))

end Moves

namespace State

/-! ### Store link, pool, pins and recalls (Ops) -/

theorem moves_handOff (s : State) (op : Op) : Moves s (s.handOff op) := by
  unfold handOff
  split
  · split <;> exact Moves.of (.link _ _)
  all_goals exact Moves.of (.push _ _)

theorem moves_release (s : State) (h : Holder) : Moves s (s.release h) := by
  unfold release
  split
  · exact .refl _
  · have h1 : Moves s (s.freed h) := .single (.free h)
    exact (h1.trans (Moves.of (.contents _ _))).trans (Moves.of (.push _ _))

theorem moves_removeClaim (s : State) (h : Holder) : Moves s (s.removeClaim h) := by
  unfold removeClaim
  have h1 := Plain.claims s (s.pool.claims.filter fun c => c.owner != h)
  split
  · simp only
    split
    · exact (Moves.of h1).trans (Moves.of (.push _ _))
    · exact Moves.of h1
  · exact Moves.of h1

theorem moves_enqueueSeal (s : State) (slot : Nat) : Moves s (s.enqueueSeal slot) := by
  unfold enqueueSeal
  split
  · exact .refl _
  · exact (Moves.of (.vol _ _)).trans (Moves.of (.push _ _))

theorem moves_unpinEdition (s : State) (slot : Nat) : Moves s (s.unpinEdition slot) := by
  unfold unpinEdition
  split
  · exact .refl _
  · split
    · exact (Moves.of (.withCat _ _)).trans (moves_enqueueSeal _ _)
    · exact Moves.of (.withCat _ _)

theorem moves_pinSlot (s : State) (r : Requester) (i : Nat) : Moves s (s.pinSlot r i) := by
  unfold pinSlot
  have h1 : Moves s (s.withRecall i fun x => { x with pinners := x.pinners ++ [r] }) := Moves.of (.vol _ _)
  have h2 := h1.trans (Moves.of (.vol _ { (s.withRecall i fun x => { x with pinners := x.pinners ++ [r] }).vol with
    lru := (s.withRecall i fun x => { x with pinners := x.pinners ++ [r] }).vol.lru.filter fun j => j != i }))
  simp only
  split
  · exact h2.trans (Moves.of (.push _ _))
  · exact h2

theorem moves_fetch (s : State) (i : Nat) (w : RecallWaiter) : Moves s (s.fetch i w) :=
  (Moves.of (.vol _ _)).trans (moves_handOff _ _)

theorem moves_tryServe (s t : State) (w : RecallWaiter) (h : s.tryServe w = some t) : Moves s t := by
  unfold tryServe at h
  split at h
  · cases h; exact moves_pinSlot _ _ _
  · split at h
    · cases h; exact moves_fetch _ _ _
    · split at h
      · cases h; exact (Moves.of (.vol _ _)).trans (moves_fetch _ _ _)
      · cases h

theorem moves_requestRecall (s : State) (w : RecallWaiter) : Moves s (s.requestRecall w) := by
  unfold requestRecall
  split
  · exact Moves.of (.vol _ _)
  · split
    · next h => exact moves_tryServe _ _ _ h
    · exact Moves.of (.vol _ _)

theorem moves_joinSameKey (s : State) (v : U32) (k : EntryKey) : Moves s (s.joinSameKey v k) := by
  unfold joinSameKey
  split
  · exact .refl _
  · exact (Moves.of (.vol _ _)).trans (Moves.foldl _ (fun t w => moves_pinSlot t _ _) _ _)

theorem moves_serveRecall : ∀ (n : Nat) (s : State), Moves s (serveRecall n s)
  | 0, s => .refl s
  | n + 1, s => by
    unfold serveRecall
    split
    · exact .refl _
    · split
      · exact .refl _
      · next h =>
        exact (((Moves.of (.vol _ _)).trans (moves_tryServe _ _ _ h)).trans (moves_joinSameKey _ _ _)).trans
          (moves_serveRecall n _)

theorem moves_unpinned (s : State) (i : Nat) : Moves s (s.unpinned i) :=
  (Moves.of (.vol _ _)).trans (Moves.of (.push _ _))

theorem moves_releaseSlot (s : State) (r : Requester) : Moves s (s.releaseSlot r) := by
  unfold releaseSlot
  split
  · exact .refl _
  · next i _ =>
    have h1 : Moves s (s.withRecall i fun x => { x with pinners := x.pinners.filter fun q => q != r }) :=
      Moves.of (.vol _ _)
    simp only
    split
    · split
      · exact h1.trans (moves_unpinned _ _)
      · exact h1
    · exact h1

theorem moves_leaveRecallWait (s : State) (r : Requester) : Moves s (s.leaveRecallWait r) := by
  unfold leaveRecallWait
  have h1 := Plain.vol s { s.vol with recallWait := s.vol.recallWait.filter fun w => w.requester != r }
  split
  · simp only
    split
    · exact (Moves.of h1).trans (Moves.of (.push _ _))
    · exact Moves.of h1
  · exact Moves.of h1

theorem moves_releaseRecall (s : State) (r : Requester) : Moves s (s.releaseRecall r) :=
  (moves_leaveRecallWait _ _).trans (moves_releaseSlot _ _)

theorem moves_grant (s : State) (c : Claim) (h : s.pool.fits c = true) : Moves s (s.grant c) := by
  have h1 : Moves s (s.give c.owner c.need) := .single (.grant c h)
  unfold grant
  simp only
  split
  · exact h1
  · split
    · exact h1
    · split
      · exact h1
      · exact (h1.trans (Moves.of (.withJob _ _ _))).trans (moves_handOff _ _)
  · split
    · exact h1
    · split
      · exact h1
      · exact (h1.trans (Moves.of (.withOrder _ _ _))).trans (moves_handOff _ _)

theorem moves_placeClaim (s : State) (c : Claim) : Moves s (s.placeClaim c) := by
  unfold placeClaim
  split
  · next h => exact moves_grant _ _ (by simp at h; exact h.2)
  · exact Moves.of (.claims _ _)

theorem moves_regrant : ∀ (l : List Claim) (s : State), Moves s (regrant l s)
  | [], s => .refl s
  | c :: rest, s => by
    unfold regrant
    split
    · next h =>
      exact ((Moves.of (Plain.claims s rest)).trans (moves_grant _ _ h)).trans (moves_regrant rest _)
    · exact .refl _

/-! ### Pricing and leaving the table (Pricing) -/

theorem moves_forgetOrder (s : State) (o : Order) : Moves s (s.forgetOrder o) := by
  have h1 := Moves.of (Plain.held s (s.hold.held.filter fun n => n != o.number))
  have h2 := h1.trans (Moves.of (.room _ (s.stmt.held.filter fun n => n != o.number)))
  have h3 := h2.trans (Moves.of (.vol _ { s.vol with waiters := s.vol.waiters.filter fun n => n != o.number }))
  have h4 := h3.trans (Moves.of (.eng _ { s.eng with jobs := s.eng.jobs.map fun j =>
      { j with joiners := j.joiners.filter fun n => n != o.number } } (by simp)))
  exact h4.trans (Moves.of (.withAccount _ o.account
    (fun a => { a with live := a.live - 1, queue := a.queue.filter fun n => n != o.number }) (fun _ => rfl)))

theorem moves_releasePins (s : State) (o : Order) : Moves s (s.releasePins o) := by
  unfold releasePins
  have h1 : Moves s (match o.pinEdition with | some slot => s.unpinEdition slot | none => s) := by
    split
    · exact moves_unpinEdition _ _
    · exact .refl _
  simp only
  split
  · exact h1.trans (Moves.of (.withCat _ _))
  · exact h1

theorem moves_leaveTable (s : State) (n : Nat) (final : OrdState) (code : Code) :
    Moves s (s.leaveTable n final code) := by
  unfold leaveTable
  split
  · exact .refl _
  · next o _ =>
    have h := ((((moves_releasePins s o).trans (moves_releaseRecall _ (.order n))).trans
      (moves_removeClaim _ (.order n))).trans (moves_release _ (.order n))).trans (moves_forgetOrder _ o)
    exact h.trans (Moves.of (.ord _ _ (List.filter_sublist.map _) rfl))

theorem moves_endOrder (s : State) (n : Nat) (code : Code) : Moves s (s.endOrder n code) := by
  unfold endOrder
  split
  · exact (moves_leaveTable _ _ _ _).trans (Moves.of (.latch _ _))
  · exact .refl _

theorem moves_putOnHold (s : State) (n : Nat) (st : OrdState) : Moves s (s.putOnHold n st) :=
  (Moves.of (.withOrder _ _ _)).trans (Moves.of (.latch _ _))

theorem moves_holdForRights (s : State) (n : Nat) : Moves s (s.holdForRights n) :=
  (Moves.of (.held _ _)).trans (moves_putOnHold _ _ _)

theorem moves_holdForRoom (s : State) (n : Nat) : Moves s (s.holdForRoom n) :=
  (Moves.of (.room _ _)).trans (moves_putOnHold _ _ _)

theorem moves_holdForFunds (s : State) (n a : Nat) : Moves s (s.holdForFunds n a) :=
  (Moves.of (Plain.withAccount s a (fun x => { x with queue := x.queue ++ [n] }) fun _ => rfl)).trans
    (moves_putOnHold _ _ _)

theorem moves_keepAtHead (s : State) (n a : Nat) : Moves s (s.keepAtHead n a) :=
  (Moves.of (Plain.withAccount s a (fun x => { x with queue := n :: x.queue }) fun _ => rfl)).trans
    (Moves.of (.withOrder _ _ _))

theorem moves_charge (s : State) (o : Order) (masked : Nat) (p : Price) (a : Account)
    (h : s.fee.account? o.account = some a) (fits : a.fits p.total = true) (room : s.stmt.hasRoom = true) :
    Moves s (s.charge o masked p) := by
  have h1 : Moves s (s.charged o.account p.total (chargeEntry s.cal o masked p)) :=
    .single (.charge _ _ _ a h fits room)
  have h2 := h1.trans (Moves.of (.withOrder _ o.number fun o =>
    { o with state := .charged, masked := masked, charged := p.total }))
  unfold charge
  simp only
  split
  · exact h2
  · exact h2.trans (Moves.of (.latch _ _))

theorem moves_fundsStep (s : State) (o : Order) (a : Account) (masked : Nat) (p : Price) (retried : Bool)
    (h : s.fee.account? o.account = some a) : Moves s (s.fundsStep o a masked p retried) := by
  unfold fundsStep
  split
  · exact moves_holdForRoom _ _
  · next hr =>
    split
    · exact moves_holdForFunds _ _ _
    · split
      · next hf => exact moves_charge _ _ _ _ a h hf (by simpa using hr)
      · split
        · exact moves_keepAtHead _ _ _
        · exact moves_holdForFunds _ _ _

theorem moves_priceOrder (s : State) (n : Nat) (retried : Bool) : Moves s (s.priceOrder n retried) := by
  unfold priceOrder
  split
  · exact .refl _
  · split
    · next ha =>
      split
      · exact moves_holdForRights _ _
      · exact moves_endOrder _ _ _
      · exact moves_fundsStep _ _ _ _ _ _ ha
    · exact .refl _

theorem moves_reevaluate : ∀ (l : List Nat) (s : State), Moves s (reevaluate l s).1
  | [], s => .refl s
  | n :: rest, s => by
    unfold reevaluate
    split
    · exact moves_reevaluate rest s
    · exact ((Moves.of (.held _ _)).trans (moves_priceOrder _ _ _)).trans (moves_reevaluate rest _)

theorem moves_retryFunds (account : Nat) : ∀ (k : Nat) (s : State), Moves s (retryFunds account k s).1
  | 0, s => .refl s
  | k + 1, s => by
    unfold retryFunds
    split
    · next n rest _ =>
      have h1 := (Moves.of (Plain.withAccount s account (fun a => { a with queue := rest }) fun _ => rfl)).trans
        (moves_priceOrder _ n true)
      simp only
      split
      · exact h1
      · exact h1.trans (moves_retryFunds account k _)
    all_goals exact .refl _

theorem moves_retryAccount (s : State) (account : Nat) : Moves s (s.retryAccount account).1 := moves_retryFunds _ _ _

theorem moves_retryRoom : ∀ (l : List Nat) (s : State), Moves s (retryRoom l s)
  | [], s => .refl s
  | _ :: rest, _ => ((Moves.of (.room _ _)).trans (moves_priceOrder _ _ _)).trans (moves_retryRoom rest _)

/-! ### Jobs and the orders that wait on them (Jobs) -/

theorem moves_issueDiscard (s : State) (d : HeldDiscard) : Moves s (s.issueDiscard d) := moves_handOff _ _

theorem moves_discard (s : State) (d : HeldDiscard) : Moves s (s.discard d) := by
  unfold discard
  split
  · exact Moves.of (.eng _ _ (le_max_right _ _))
  · exact moves_issueDiscard _ _

theorem moves_releaseDiscards : ∀ (l : List HeldDiscard) (s : State), Moves s (releaseDiscards l s)
  | [], s => .refl s
  | d :: rest, s => by
    unfold releaseDiscards
    split
    · exact moves_releaseDiscards rest s
    · exact ((Moves.of (.eng s { s.eng with heldDiscards := s.eng.heldDiscards.erase d } (le_max_right _ _))).trans
        (moves_issueDiscard _ d)).trans (moves_releaseDiscards rest _)

theorem moves_holdTarget (s : State) (n : Nat) (t : Target) : Moves s (s.holdTarget n t) := by
  unfold holdTarget
  split
  · exact Moves.of (.withCat _ _)
  · exact Moves.of (.withCat _ _)
  · exact moves_requestRecall _ _

theorem moves_createJob (s : State) (t : Target) (l h sp : Nat) (c : Option Nat) (room : s.eng.jobs.length < 8) :
    Moves s (s.createJob t l h sp c) := by
  unfold createJob
  refine Relation.ReflTransGen.trans ?_ (Moves.of (.push _ _))
  refine Relation.ReflTransGen.trans (Moves.of (.eng _ _ ?_)) (moves_holdTarget _ _ _)
  simp
  omega

theorem moves_startJob (s : State) : Moves s s.startJob := by
  unfold startJob
  split
  · exact .refl _
  · split
    · exact .refl _
    · split
      · exact .refl _
      · exact (Moves.of (.withJob _ _ _)).trans (moves_placeClaim _ _)

theorem moves_releaseJob (s : State) (j : Job) : Moves s (s.releaseJob j) := by
  have h1 := (moves_removeClaim s (.job j.number)).trans (moves_release _ (.job j.number))
  unfold releaseJob
  simp only
  split
  · exact h1.trans (moves_unpinEdition _ _)
  · exact h1.trans (Moves.of (.withCat _ _))
  · exact h1.trans (moves_releaseRecall _ _)

theorem moves_retireJob (s : State) (j : Job) (st : JobState) (c : Code) : Moves s (s.retireJob j st c) :=
  Moves.of (.eng _ _ ((List.length_filter_le _ _).trans (le_max_right _ _)))

theorem moves_failJob (s : State) (n : Nat) (c : Code) : Moves s (s.failJob n c) := by
  unfold failJob
  split
  · exact .refl _
  · next j _ =>
    have h := (((moves_retireJob s j .failed c).trans (moves_releaseJob _ j)).trans (Moves.of (.latch _ .restoreFailed)))
    exact (h.trans (Moves.foldl (fun (t : State) o => t.endOrder o c) (fun t o => moves_endOrder t o c) j.orders _)).trans
      (Moves.of (.push _ _))

theorem moves_applyRestored (s : State) (j : Job) (w : Written) : Moves s (s.applyRestored j w) := by
  unfold applyRestored
  split
  · exact Moves.of (.withCat _ _)
  · exact Moves.of (.withCat _ _)
  · split
    · exact .refl _
    · exact Moves.of (.vol _ _)

theorem moves_priceAfterJob (s : State) (n : Nat) : Moves s (s.priceAfterJob n) :=
  (Moves.of (.withOrder _ _ _)).trans (moves_priceOrder _ _ _)

theorem moves_finishJob (s : State) (n : Nat) (w : Written) : Moves s (s.finishJob n w) := by
  unfold finishJob
  split
  · exact .refl _
  · next j _ =>
    have h := (((moves_applyRestored s j w).trans (moves_retireJob _ j .done .ok)).trans (moves_releaseJob _ j)).trans
      (Moves.of (.latch _ .restoreDone))
    have h2 := h.trans (Moves.foldl priceAfterJob moves_priceAfterJob j.orders _)
    refine Relation.ReflTransGen.trans ?_ (Moves.of (.push _ _))
    split
    · exact h2.trans (moves_discard _ _)
    · exact h2

theorem moves_endMapping (s : State) (j : Job) : Moves s (s.endMapping j) := by
  unfold endMapping
  have h1 := (Moves.of (Plain.contents s (s.pool.putContent (.job j.number) ((s.pool.content (.job j.number)).map
    (stretch (pointsOf s.eng.histogram j.low j.high j.span)))).contents)).trans
    (Moves.of (.eng _ { s.eng with histogram := [] } (le_max_right _ _)))
  have h2 := h1.trans (Moves.of (.withJob _ j.number fun j' =>
    { j' with state := .writing, points := some (pointsOf s.eng.histogram j.low j.high j.span) }))
  simp only
  split
  · exact h2.trans (moves_handOff _ _)
  · exact h2

theorem moves_joinJob (s : State) (n : Nat) (j : Job) : Moves s (s.joinJob n j) :=
  (Moves.of (.withJob _ _ _)).trans (Moves.of (.withOrder _ _ _))

theorem moves_createOrderJob (s : State) (n : Nat) (t : Target) : Moves s (s.createOrderJob n t) := by
  unfold createOrderJob
  split
  · exact moves_endOrder _ _ _
  · next h =>
    exact (Moves.of (.withOrder _ _ _)).trans (moves_createJob _ _ _ _ _ _ (by simp at h; simpa using h))

theorem moves_restoreStep (s : State) (n : Nat) : Moves s (s.restoreStep n) := by
  unfold restoreStep
  split
  · exact .refl _
  · split
    · split
      · exact moves_priceOrder _ _ _
      · split
        · exact moves_joinJob _ _ _
        · exact moves_createOrderJob _ _ _
    · exact .refl _

theorem moves_askRecall (s : State) (n : Nat) : Moves s (s.askRecall n) := by
  unfold askRecall
  split
  · exact .refl _
  · exact (Moves.of (.withOrder _ _ _)).trans (moves_requestRecall _ _)

theorem moves_settleResident (s : State) (n slot : Nat) : Moves s (s.settleResident n slot) := by
  unfold settleResident
  split
  · exact .refl _
  · next o _ =>
    have h1 := (Moves.of (Plain.withCat s fun c => c.withEdition slot fun e => { e with pins := e.pins + 1 })).trans
      (Moves.of (.withOrder _ n fun o' => { o' with pinEdition := some slot, pinPhoto := o'.photo }))
    refine Relation.ReflTransGen.trans ?_ (moves_restoreStep _ _)
    split
    · exact h1.trans (Moves.of (.withCat _ _))
    · exact h1

theorem moves_locateResident (s : State) (o : Order) : Moves s (s.locateResident o) := by
  unfold locateResident
  split
  · exact moves_endOrder _ _ _
  · split
    case h_3 => exact moves_endOrder _ _ _
    case h_4 => exact moves_endOrder _ _ _
    case h_5 => exact moves_endOrder _ _ _
    all_goals
      split
      · exact moves_endOrder _ _ _
      · split
        · exact moves_endOrder _ _ _
        · next p _ _ =>
          have h1 := Moves.of (Plain.withOrder s o.number fun o => { o with resolved := some p.version })
          simp only
          split
          · exact (h1.trans (Moves.of (.vol _ _))).trans (Moves.of (.withOrder _ _ _))
          · exact h1.trans (moves_settleResident _ _ _)

theorem moves_locate (s : State) (o : Order) : Moves s (s.locate o) := by
  unfold locate
  split
  · exact moves_locateResident _ _
  · exact moves_askRecall _ _

theorem moves_orderRecalled (s : State) (n i : Nat) : Moves s (s.orderRecalled n i) := by
  unfold orderRecalled
  split
  · exact (Moves.of (.withOrder _ _ _)).trans (moves_restoreStep _ _)
  · exact .refl _

theorem moves_jobRecalled (s : State) (n i : Nat) : Moves s (s.jobRecalled n i) := by
  unfold jobRecalled
  split
  · exact .refl _
  · split
    · exact .refl _
    · have h1 := Moves.of (Plain.withJob s n fun j => { j with recallSlot := some i })
      simp only
      split
      · exact h1.trans (moves_failJob _ _ _)
      · split
        · exact h1.trans (Moves.of (.push _ _))
        · split
          · exact (h1.trans (moves_failJob _ _ _)).trans (Moves.of (.push _ _))
          · exact h1.trans (moves_failJob _ _ _)

theorem moves_recallGiven (s : State) (r : Requester) (i : Nat) : Moves s (s.recallGiven r i) := by
  unfold recallGiven
  split
  · exact moves_orderRecalled _ _ _
  · exact moves_jobRecalled _ _ _

theorem moves_recallFailed (s : State) (r : Requester) (c : Code) : Moves s (s.recallFailed r c) := by
  unfold recallFailed
  split
  · exact moves_endOrder _ _ _
  · exact moves_failJob _ _ _

/-! ### Seals and fetches (Seals) -/

theorem moves_retentionSweep (s : State) (today : Nat) : Moves s (s.retentionSweep today) :=
  (Moves.foldl (fun (t : State) (x : Nat × Edition) => t.withCat fun c => c.withEdition x.1 fun e =>
    { e with due := true }) (fun t _ => Moves.of (.withCat t _)) _ _).trans
    (Moves.foldl (fun (t : State) (x : Nat × Edition) => t.enqueueSeal x.1) (fun t _ => moves_enqueueSeal t _) _ _)

theorem moves_pressureSeal (s : State) : Moves s s.pressureSeal := by
  unfold pressureSeal
  split
  · split
    · exact moves_enqueueSeal _ _
    · exact .refl _
  · exact .refl _

theorem moves_sealTest : ∀ (l : List Nat) (s : State), Moves s (sealTest l s)
  | [], s => .refl s
  | slot :: rest, s => by
    unfold sealTest
    split
    · exact .refl _
    · split
      · exact .refl _
      · split
        · exact ((Moves.of (Plain.vol s { s.vol with sealQueue := rest })).trans (Moves.of (.withCat _ _))).trans
            (moves_sealTest rest _)
        · exact (Moves.of (.withCat _ _)).trans (moves_handOff _ _)

theorem moves_recordSeal (s : State) (slot : Nat) (r : SealResult) : Moves s (s.recordSeal slot r) :=
  Moves.of (.vol _ _)

theorem moves_waiterSealed (v : U32) (s : State) (n : Nat) : Moves s (waiterSealed v s n) :=
  (Moves.of (.withOrder _ _ _)).trans (moves_askRecall _ _)

theorem moves_sealDone (s : State) (slot : Nat) (v : U32) : Moves s (s.sealDone slot v) := by
  unfold sealDone
  split
  · exact .refl _
  · next e _ =>
    have h := ((Moves.of (Plain.withCat s fun c => c.freeEdition slot)).trans
      (moves_recordSeal _ slot ⟨e.key, .ok, v⟩)).trans (Moves.of (.latch _ .sealDone))
    exact (h.trans (Moves.foldl _ (moves_waiterSealed v) _ _)).trans (Moves.of (.push _ _))

theorem moves_sealFailed (s : State) (slot : Nat) (c : Code) : Moves s (s.sealFailed slot c) := by
  unfold sealFailed
  split
  · exact .refl _
  · next e _ =>
    have h := ((Moves.of (Plain.withCat s fun c => c.withEdition slot fun e => { e with state := .closed })).trans
      (moves_recordSeal _ slot ⟨e.key, c, 0⟩)).trans (Moves.of (.latch _ .sealFailed))
    exact (h.trans (Moves.foldl (fun (t : State) n => t.settleResident n slot)
      (fun t n => moves_settleResident t n slot) _ _)).trans (Moves.of (.push _ _))

theorem moves_mergeSlot (s : State) (i j : Nat) (x : RecallSlot) : Moves s (s.mergeSlot i j x) :=
  ((Moves.of (.vol _ _)).trans (Moves.foldl (fun (t : State) r => t.pinSlot r j)
    (fun t r => moves_pinSlot t r j) _ _)).trans (Moves.of (.push _ _))

theorem moves_fillSlot (s : State) (i : Nat) (x : RecallSlot) (key : EntryKey) (c : EntryCopy) :
    Moves s (s.fillSlot i x key c) := by
  unfold fillSlot
  have h1 := Moves.of (Plain.vol s { s.vol with table := s.vol.table.set i (some { x with key := key, copy := some c }) })
  simp only
  split
  · exact h1.trans (moves_unpinned _ _)
  · exact h1.trans (Moves.foldl (fun (t : State) r => t.push (.recallGiven r i))
      (fun t r => Moves.of (.push t _)) _ _)

theorem moves_fetchDone (s : State) (i : Nat) (c : EntryCopy) : Moves s (s.fetchDone i c) := by
  unfold fetchDone
  split
  · exact .refl _
  · simp only
    split
    · exact moves_fillSlot _ _ _ _ _
    · split
      · exact moves_mergeSlot _ _ _ _
      · exact moves_fillSlot _ _ _ _ _

theorem moves_fetchFailed (s : State) (i : Nat) (c : Code) : Moves s (s.fetchFailed i c) := by
  unfold fetchFailed
  split
  · exact .refl _
  · exact ((Moves.of (.vol _ _)).trans (Moves.foldl (fun (t : State) r => t.push (.recallFailed r c))
      (fun t r => Moves.of (.push t _)) _ _)).trans (Moves.of (.push _ _))

/-! ### Records and closes (Intake) -/

theorem moves_pushCloseTest (s : State) (r : RecId) : Moves s (s.pushCloseTest r) := by
  unfold pushCloseTest
  split
  · exact Moves.of (.push _ _)
  · exact .refl _

theorem moves_failFiling (s : State) (r : RecId) (code : Code) (w : Bool) : Moves s (s.failFiling r code w) :=
  (((Moves.of (.withCat _ _)).trans (moves_release _ _)).trans (Moves.of (.latch _ _))).trans (moves_pushCloseTest _ _)

theorem moves_writeDone (s : State) (r : RecId) (w : Written) : Moves s (s.writeDone r w) := by
  unfold writeDone
  split
  · exact ((Moves.of (.withCat _ _)).trans (moves_release _ _)).trans (moves_pushCloseTest _ _)
  · exact (moves_failFiling _ _ _ _).trans (moves_handOff _ _)

theorem moves_stage (s : State) (r : RecId) : Moves s (s.stage r) :=
  (Moves.of (.withCat _ _)).trans (moves_pushCloseTest _ _)

theorem moves_handOver (s : State) (r : RecId) : Moves s (s.handOver r) := by
  unfold handOver
  simp only
  split
  · exact (Moves.of (.withCat _ _)).trans (moves_handOff _ _)
  · exact Moves.of (.withCat _ _)

/-- The hand-off of a STAGED record's write is a chain of moves. -/
theorem moves_handStaged (s : State) : Moves s s.handStaged := by
  unfold handStaged
  split
  · exact moves_handOver _ _
  · exact .refl _

theorem moves_closeTest (s : State) (slot : Nat) : Moves s (s.closeTest slot) := by
  unfold closeTest
  split
  · exact .refl _
  · split
    · exact ((Moves.of (.withCat _ _)).trans (moves_handOff _ _)).trans (Moves.of (.latch _ _))
    · exact .refl _

/-! ### Completions and the working through of a change (Completions) -/

theorem moves_answerPrepare (s : State) (o : Order) (code : Code) (l : List U8) : Moves s (s.answerPrepare o code l) := by
  unfold answerPrepare
  split
  · exact .refl _
  · exact Moves.of (.prepare _ _)

theorem moves_answerReload (s : State) (code : Code) (l : List U8) : Moves s (s.answerReload code l) := by
  unfold answerReload
  split
  · exact .refl _
  · exact Moves.of (.reload _ _ _)

theorem moves_unprepare (s : State) (n : Nat) : Moves s (s.unprepare n) :=
  (Moves.of (.withOrder _ _ _)).trans (moves_release _ _)

theorem moves_failPreparation (s : State) (n : Nat) (c : Code) : Moves s (s.failPreparation n c) := by
  unfold failPreparation
  split
  · exact .refl _
  · exact ((Moves.of (.withOrder _ _ _)).trans (moves_unprepare _ _)).trans (moves_answerPrepare _ _ _ _)

theorem moves_deliveryRead (s : State) (n : Nat) (b : List U8) : Moves s (s.deliveryRead n b) := by
  unfold deliveryRead
  split
  · exact .refl _
  · split
    · exact (Moves.of (Plain.contents s (s.pool.putContent (.order n) b).contents)).trans (Moves.of (.withOrder _ _ _))
    · exact moves_failPreparation _ _ _

theorem moves_finishPreparation (s : State) (o : Order) : Moves s (s.finishPreparation o) := by
  unfold finishPreparation
  split
  · exact .refl _
  · next v _ =>
    exact ((Moves.of (Plain.contents s (s.pool.putContent (.order o.number)
      (maskBody v.grid (maskedPlaces v (o.maskSet.getD [])) (s.pool.content (.order o.number)))).contents)).trans
      (Moves.of (.withOrder _ _ _))).trans (moves_answerPrepare _ _ _ _)

theorem moves_surveyRead (s : State) (n : Nat) (b : List U8) : Moves s (s.surveyRead n b) := by
  unfold surveyRead
  split
  · exact .refl _
  · split
    · exact ((Moves.of (Plain.contents s (s.pool.putContent (.job n) b).contents)).trans
        (Moves.of (.eng _ { s.eng with histogram := histogramOf b } (le_max_right _ _)))).trans
        (Moves.of (.withJob _ _ _))
    · exact moves_failJob _ _ _

theorem moves_reloadFailed (s : State) (c : Code) : Moves s (s.reloadFailed c) :=
  (Moves.of (.withCat _ _)).trans (moves_answerReload _ _ _)

theorem moves_reloadDone (s : State) (x : StoreIndex) : Moves s (s.reloadDone x) := by
  unfold reloadDone
  split
  · exact .refl _
  · exact (Moves.of (.cat _ _)).trans (moves_answerReload _ _ _)
  · exact moves_reloadFailed _ _

/-- Every completion is a chain of moves. -/
theorem moves_completed (s : State) (op : Op) (c : Completion) : Moves s (s.completed op c) := by
  unfold completed
  split
  · exact moves_writeDone _ _ _
  · exact moves_failFiling _ _ _ _
  · exact moves_finishJob _ _ _
  · exact moves_failJob _ _ _
  · exact moves_finishJob _ _ _
  · exact moves_failJob _ _ _
  · exact (moves_surveyRead _ _ _).trans (Moves.of (.push _ _))
  · exact (moves_failJob _ _ _).trans (Moves.of (.push _ _))
  · exact (moves_deliveryRead _ _ _).trans (Moves.of (.push _ _))
  · exact (moves_failPreparation _ _ _).trans (Moves.of (.push _ _))
  · exact moves_sealDone _ _ _
  · exact moves_sealFailed _ _ _
  · exact moves_fetchDone _ _ _
  · exact moves_fetchFailed _ _ _
  · exact moves_reloadDone _ _
  · exact moves_reloadFailed _ _
  · exact Moves.of (.push _ _)
  all_goals exact .refl _

/-- Every consequence is a chain of moves. -/
theorem moves_runTask (s : State) (t : Task) : Moves s (s.runTask t) := by
  unfold runTask
  split
  · exact moves_completed _ _ _
  · exact moves_regrant _ _
  · exact moves_closeTest _ _
  · exact moves_sealTest _ _
  · exact moves_serveRecall _ _
  · exact moves_startJob _
  · exact moves_recallGiven _ _ _
  · exact moves_recallFailed _ _ _
  · exact moves_releaseDiscards _ _

theorem moves_settle : ∀ (n : Nat) (s : State), Moves s (settle n s)
  | 0, s => .refl s
  | n + 1, s => by
    unfold settle
    split
    · exact .refl _
    · exact ((Moves.of (.agenda _ _)).trans (moves_runTask _ _)).trans (moves_settle n _)

/-- All that the consequences of a change do is a chain of moves. -/
theorem moves_settled (s : State) : Moves s s.settled := moves_settle _ _

end State

end Sys2Proof.Machine
end

