-- ==== Sys2Proof/Laws/Kept.lean ====
section
/-! SUPPORT. What a chain of moves keeps: the blocks that no consequence touches, and the bounds of the pool, the accounts,
the open statement and the tables. -/

namespace Sys2Proof.Machine

/-- What no consequence of a change touches. -/
structure Kept (s t : State) : Prop where
  powered : t.powered = s.powered
  cal : t.cal = s.cal
  events : t.events = s.events
  deadlines : t.deadlines = s.deadlines
  port : t.port = s.port
  lane : t.lane = s.lane
  pending : t.pending = s.pending
  entries : t.hold.entries = s.hold.entries
  schedule : t.fee.schedule = s.fee.schedule
  mode : t.req.mode = s.req.mode
  options : t.req.options = s.req.options
  mask : t.req.mask = s.req.mask
  armed : t.req.armed = s.req.armed
  wait : t.req.wait = s.req.wait
  entryTag : t.req.entryTag = s.req.entryTag
  immediate : t.formed.immediate = s.formed.immediate
  entry : t.formed.entry = s.formed.entry
  closed : t.stmt.closed = s.stmt.closed
  next : t.ord.next = s.ord.next
  live : (t.ord.live.map Order.number).Sublist (s.ord.live.map Order.number)
  jobs : t.eng.jobs.length ≤ max 8 s.eng.jobs.length
  latched : ∀ i, s.req.latched.getLsbD i = true → t.req.latched.getLsbD i = true

theorem Plain.kept {s t : State} (h : Plain s t) : Kept s t :=
  ⟨h.powered, h.cal, h.events, h.deadlines, h.port, h.lane, h.pending, h.entries, h.schedule, h.mode, h.options, h.mask,
    h.armed, h.wait, h.entryTag, h.immediate, h.entry, h.closed, h.next, h.live, h.jobs, h.latched⟩

theorem Move.kept {s t : State} (h : Move s t) : Kept s t := by
  cases h with
  | plain h => exact h.kept
  | charge => constructor <;> simp [State.charged, StatementBuffer.append]
  | free => constructor <;> simp [State.freed]
  | grant => constructor <;> simp

theorem Kept.trans {s t u : State} (h : Kept s t) (k : Kept t u) : Kept s u where
  powered := k.powered.trans h.powered
  cal := k.cal.trans h.cal
  events := k.events.trans h.events
  deadlines := k.deadlines.trans h.deadlines
  port := k.port.trans h.port
  lane := k.lane.trans h.lane
  pending := k.pending.trans h.pending
  entries := k.entries.trans h.entries
  schedule := k.schedule.trans h.schedule
  mode := k.mode.trans h.mode
  options := k.options.trans h.options
  mask := k.mask.trans h.mask
  armed := k.armed.trans h.armed
  wait := k.wait.trans h.wait
  entryTag := k.entryTag.trans h.entryTag
  immediate := k.immediate.trans h.immediate
  entry := k.entry.trans h.entry
  closed := k.closed.trans h.closed
  next := k.next.trans h.next
  live := k.live.trans h.live
  jobs := by have := h.jobs; have := k.jobs; omega
  latched := fun i hi => k.latched i (h.latched i hi)

theorem Kept.refl (s : State) : Kept s s := (Plain.refl s).kept

/-- A chain of moves keeps what no consequence touches. -/
theorem Moves.kept {s t : State} (h : Moves s t) : Kept s t := by
  induction h with
  | refl => exact .refl _
  | tail _ m ih => exact ih.trans m.kept

/-- The consequences of a change keep what no consequence touches. -/
theorem State.kept_settled (s : State) : Kept s s.settled := s.moves_settled.kept

/-! ### The pool -/

theorem fillFree_length (h : Holder) : ∀ (n : Nat) (l : List (Option Holder)), (fillFree h n l).length = l.length
  | 0, l => by simp [fillFree]
  | _ + 1, [] => rfl
  | n + 1, none :: l => by simp [fillFree, fillFree_length h n l]
  | n + 1, some x :: l => by simp [fillFree, fillFree_length h (n + 1) l]

/-- Filling takes as many free segments as are asked for, where there are that many. -/
theorem countP_fillFree_none (h : Holder) : ∀ (n : Nat) (l : List (Option Holder)), n ≤ l.countP Option.isNone →
    (fillFree h n l).countP Option.isNone + n = l.countP Option.isNone
  | 0, l, _ => by simp [fillFree]
  | n + 1, [], hn => by simp at hn
  | n + 1, none :: l, hn => by
    simp [fillFree] at hn ⊢
    have := countP_fillFree_none h n l hn
    omega
  | n + 1, some x :: l, hn => by
    simp [fillFree] at hn ⊢
    exact countP_fillFree_none h (n + 1) l hn

theorem emptyOut_length (h : Holder) (l : List (Option Holder)) : (emptyOut h l).length = l.length := by
  simp [emptyOut]

theorem Pool.claimed_add_free_le (p : Pool) : p.claimed + p.free ≤ p.segments.length := by
  unfold Pool.claimed Pool.free
  induction p.segments with
  | nil => simp
  | cons x l ih =>
    cases x with
    | none => simp; omega
    | some y => simp [List.countP_cons]; split <;> omega

theorem countP_emptyOut_le (h : Holder) (q : Holder → Bool) (l : List (Option Holder)) :
    (emptyOut h l).countP (fun x => x.any q) ≤ l.countP fun x => x.any q := by
  unfold emptyOut
  induction l with
  | nil => simp
  | cons x l ih =>
    rw [List.map_cons, List.countP_cons, List.countP_cons]
    refine Nat.add_le_add ih ?_
    by_cases hx : x == some h
    · simp [hx]
    · simp only [hx]
      exact le_refl _

/-- A chain of moves keeps the pool's bounds (R62, R65). -/
theorem Moves.pool_sound {s t : State} (h : Moves s t) (hs : s.pool.Sound) : t.pool.Sound := by
  induction h with
  | refl => exact hs
  | tail _ m ih =>
    obtain ⟨hl, hc⟩ := ih
    cases m with
    | plain h => simp only [Pool.Sound, Pool.claimed, h.segments]; exact ⟨hl, hc⟩
    | charge => exact ⟨hl, hc⟩
    | free h =>
      refine ⟨by simp [State.freed, emptyOut_length, hl], ?_⟩
      exact (countP_emptyOut_le h _ _).trans hc
    | grant c h =>
      rename_i u _
      refine ⟨by simp [fillFree_length, hl], ?_⟩
      have h1 := Pool.claimed_add_free_le (u.give c.owner c.need).pool
      simp only [State.give_segments, fillFree_length, hl] at h1
      have h : c.need + 32 ≤ u.pool.segments.countP Option.isNone :=
        of_decide_eq_true h
      have h2 := countP_fillFree_none c.owner c.need u.pool.segments (by omega)
      simp only [Pool.free, State.give_segments] at h1
      have h1 : (u.give c.owner c.need).pool.claimed + (fillFree c.owner c.need u.pool.segments).countP Option.isNone
        ≤ 128 := h1
      show (u.give c.owner c.need).pool.claimed ≤ 96
      omega

/-! ### The accounts -/

theorem map_number_money (l : List Account) : l.map Account.number = (l.map Account.money).map Prod.fst := by
  simp [Account.money]

theorem sound_iff_money (l : List Account) : (∀ a ∈ l, a.Sound) ↔
    ∀ m ∈ l.map Account.money, -(m.2.2.2 : Int) ≤ m.2.2.1 ∧ m.2.2.1 ≤ 2000000000 := by
  simp [Account.money]

/-- A chain of moves keeps the accounts' bounds (R158). -/
theorem Moves.fee_sound {s t : State} (h : Moves s t) (hs : s.fee.Sound) : t.fee.Sound := by
  induction h with
  | refl => exact hs
  | tail _ m ih =>
    obtain ⟨hl, hn, ha⟩ := ih
    cases m with
    | plain h =>
      refine ⟨?_, ?_, ?_⟩
      · have := congrArg List.length h.money
        simp only [List.length_map] at this
        omega
      · rw [map_number_money, h.money, ← map_number_money]; exact hn
      · rw [sound_iff_money, h.money, ← sound_iff_money]; exact ha
    | charge n total e a h fits room =>
      rename_i u _
      refine ⟨by simpa [State.charged] using hl, ?_, ?_⟩
      · have h1 : (u.charged n total e).fee.accounts.map Account.number = u.fee.accounts.map Account.number := by
          simp only [State.charged, List.map_map]
          exact List.map_congr_left fun x _ => by simp only [Function.comp]; split <;> rfl
        rw [h1]; exact hn
      · intro x hx
        simp only [State.charged, List.mem_map] at hx
        obtain ⟨y, hy, rfl⟩ := hx
        have hy' := ha y hy
        by_cases hyn : y.number == n
        · have hmem : a ∈ u.fee.accounts := List.mem_of_find?_eq_some h
          have han : a.number = n := by simpa using List.find?_some h
          have : y = a := List.inj_on_of_nodup_map hn hy hmem (by simp at hyn; omega)
          subst this
          simp only [hyn, if_true]
          simp only [Account.fits, decide_eq_true_eq] at fits
          simp only [Account.Sound] at hy' ⊢
          omega
        · simp only [hyn]; exact hy'
    | free h => exact ⟨hl, hn, ha⟩
    | grant c h => exact ⟨hl, hn, ha⟩

/-! ### The statements and the tables -/

/-- A chain of moves keeps the statements' bounds (R165). -/
theorem Moves.stmt_sound {s t : State} (h : Moves s t) (hs : s.stmt.Sound) : t.stmt.Sound := by
  induction h with
  | refl => exact hs
  | tail _ m ih =>
    obtain ⟨hc, he⟩ := ih
    cases m with
    | plain h => simp only [StatementBuffer.Sound, h.current, h.closed]; exact ⟨hc, he⟩
    | charge n total e a h fits room =>
      refine ⟨hc, ?_⟩
      have room := of_decide_eq_true room
      simp only [State.charged, StatementBuffer.append, List.length_append, List.length_singleton]
      exact room
    | free h => exact ⟨hc, he⟩
    | grant c h => exact ⟨hc, he⟩

theorem numbers_below (l : List Order) (n : Nat) : (∀ o ∈ l, o.number < n) ↔ ∀ m ∈ l.map Order.number, m < n := by simp

/-- A chain of moves keeps the bounds of the order table (R129, R131). -/
theorem Kept.ord_sound {s t : State} (h : Kept s t) (hs : s.ord.Sound) : t.ord.Sound := by
  obtain ⟨hl, hp, hb, h1, h2⟩ := hs
  refine ⟨?_, hp.sublist h.live, ?_, by rw [h.next]; exact h1, by rw [h.next]; exact h2⟩
  · have := h.live.length_le
    simp only [List.length_map] at this
    omega
  · rw [numbers_below] at hb ⊢
    rw [h.next]
    exact fun m hm => hb m (h.live.subset hm)

end Sys2Proof.Machine
end

