-- ==== Sys2Proof/Laws/Change.lean ====
section
/-! SUPPORT. What the frame of a change does: taking a request, its end where nothing is left to do, and the state between
two changes that every end of a change leaves. -/

namespace Sys2Proof.Machine

namespace State

/-! ### Nothing left to do -/

theorem settle_of_nil (n : Nat) (s : State) (h : s.agenda = []) : settle n s = s := by
  cases n with
  | zero => simp [settle]
  | succ n => simp [settle, h]

/-- With no consequence open there is nothing to work through. -/
theorem settled_of_nil {s : State} (h : s.agenda = []) : s.settled = s := settle_of_nil _ s h

/-- One consequence is worked, with the bound left. -/
theorem settle_of_cons {s : State} {x : Task} {rest : List Task} (n : Nat) (h : s.agenda = x :: rest) :
    settle (n + 1) s = settle n (runTask { s with agenda := rest } x) := by simp [settle, h]

/-- The first consequence of a change. -/
theorem settled_of_cons {s : State} {x : Task} {rest : List Task} (h : s.agenda = x :: rest) :
    s.settled = settle 65535 (runTask { s with agenda := rest } x) := settle_of_cons 65535 h

/-- The end of a change with no consequence open and no mode entry due. -/
theorem endChange_of_nil {s : State} (h : s.agenda = []) (he : s.entryDue = false) : s.endChange = s.close := by
  simp [endChange, settled_of_nil h, he]

/-- A finished list that has its length is left alone. -/
theorem trim_of_le {t : OrderTable} (h : t.finished.length ≤ 16) : t.trim = t := by
  have : t.finished.length - 16 = 0 := by omega
  simp [OrderTable.trim, this]

/-- The end of a change that has formed no notice and met no WAIT: its frames are sent. -/
theorem close_of_quiet {s : State} (hn : s.noticeDue = false) (hw : s.waitMet? = none)
    (hf : s.ord.finished.length ≤ 16) :
    s.close = { s with port := s.frames.foldl MessagePort.put s.port, agenda := [], formed := Formed.none } := by
  have h1 : s.disarm = s := by simp [disarm, hn]
  have h2 : s.endWait = s := by simp [endWait, hw]
  simp [close, h1, h2, send, trim_of_le hf]

/-- A frame that finds room joins the outbound queue. -/
theorem put_of_room {p : MessagePort} (f : Frame) (hw : p.waiting = []) (ho : p.outbound.length < 8) :
    p.put f = { p with outbound := p.outbound ++ [f] } := by
  simp [MessagePort.put, hw, ho]

/-- A change that only forms an immediate reply sends it. -/
theorem endChange_answer {s : State} (kind tag : U8) (code : Code) (fields : List U8) (h : s.Calm)
    (hw : s.port.waiting = []) (ho : s.port.outbound.length < 8) :
    (s.answer kind tag code fields).endChange =
      { s with port := { s.port with outbound := s.port.outbound ++ [s.replyFrame kind tag code fields] } } := by
  obtain ⟨ha, hf, hn, hm, hl, he⟩ := h
  have h1 : (s.answer kind tag code fields).noticeDue = false := hn
  have h2 : (s.answer kind tag code fields).waitMet? = none := hm
  have h3 : (s.answer kind tag code fields).entryDue = false := he
  have h5 : (s.answer kind tag code fields).agenda = [] := ha
  rw [endChange_of_nil h5 h3, close_of_quiet h1 h2 hl]
  have h4 : (s.answer kind tag code fields).frames = [s.replyFrame kind tag code fields] := by
    simp only [frames, h2, h1, answer_immediate, answer_prepare, answer_reload, answer_entry, hf]
    simp [Formed.none, sortBy]
  rw [h4]
  show { (s.answer kind tag code fields) with
    port := s.port.put (s.replyFrame kind tag code fields), agenda := [], formed := Formed.none } = _
  rw [put_of_room _ hw ho, ← hf, ← ha]
  rfl

/-- A change that forms no reply and leaves nothing to do is over. -/
theorem endChange_of_calm {s : State} (h : s.Calm) : s.endChange = s := by
  obtain ⟨ha, hf, hn, hm, hl, he⟩ := h
  rw [endChange_of_nil ha he, close_of_quiet hn hm hl]
  have h4 : s.frames = [] := by
    simp only [frames, hm, hn, hf]
    simp [Formed.none, sortBy]
  rw [h4, ← hf, ← ha]
  rfl

/-! ### Taking a request -/

/-- An awake part takes a request by removing its frame. -/
theorem take_of_awake {s : State} (h : s.Awake) : s.take = s.popped := by
  have h : (s.req.mode == Mode.standby) = false := by simpa using h
  simp [take, wake, popped, h]

/-- What taking a request asks of the port. -/
theorem takes_port {s : State} {c : Instr} (h : s.takes c = true) :
    s.powered = true ∧ s.port.outbound.length < 8 ∧ s.port.waiting = [] := by
  simp only [takes, Bool.and_eq_true] at h
  obtain ⟨⟨⟨hp, ho⟩, hw⟩, _⟩ := h
  refine ⟨hp, by simpa using ho, ?_⟩
  simpa using hw

theorem popped_calm {s : State} (h : s.Calm) : s.popped.Calm := h

/-! ### The hand-off of a STAGED record's write (R49) -/

/-- Without a STAGED record there is nothing to hand off. -/
theorem handStaged_of_unstaged {s : State} (h : s.Unstaged) : s.handStaged = s := by
  have h : s.cat.staged? = none := h
  simp [handStaged, h]

/-- What is not due changes nothing. -/
theorem due_absent {happens : State → Bool} {body : State → State} {s : State} (h : happens s = false) :
    due happens body s = s := by simp [due, h]

/-- What is due is one change. -/
theorem due_happens {happens : State → Bool} {body : State → State} {s : State} (h : happens s = true) :
    due happens body s = (body s).endChange := by simp [due, h]

/-- Without a STAGED record no hand-off is made. -/
theorem handedOff_of_unstaged {s : State} (h : s.Unstaged) : s.handedOff = s := by
  have h : s.cat.staged? = none := h
  exact due_absent (by simp [h])

/-- A STAGED record is handed off in one change. -/
theorem handedOff_of_staged {s : State} {r : RecId} (h : s.cat.staged? = some r) :
    s.handedOff = s.handStaged.endChange := due_happens (by simp [h])

/-- Without a STAGED record nothing follows at once. -/
theorem handAtOnce_of_unstaged {s : State} (h : s.Unstaged) : s.handAtOnce = s := by
  simp [handAtOnce, handedOff_of_unstaged h]

/-- A query that waits comes before the hand-off. -/
theorem handAtOnce_of_query {s : State} (h : s.queryWaits = true) : s.handAtOnce = s := by simp [handAtOnce, h]

/-- With no query waiting, the hand-off follows at once. -/
theorem handAtOnce_of_staged {s : State} {r : RecId} (hq : s.queryWaits = false) (h : s.cat.staged? = some r) :
    s.handAtOnce = s.handStaged.endChange := by simp [handAtOnce, hq, handedOff_of_staged h]

/-- A request that is taken is one change. -/
theorem serve_taken {c : Instr} {body : State → State} {s : State} (h : s.takes c = true) :
    s.serve c body = (body s.take).endChange := by simp [serve, h]

/-- A request that the part answers at once, without other consequences, is answered. -/
theorem serve_answers {c : Instr} {body : State → State} {s u : State} {kind tag : U8} {code : Code}
    {fields : List U8} (h : s.Asked c) (hb : body s.popped = u.answer kind tag code fields) (hu : u.Calm)
    (hw : u.port.waiting = s.port.waiting) (ho : u.port.outbound = s.port.outbound) :
    s.serve c body =
      { u with port := { u.port with outbound := u.port.outbound ++ [u.replyFrame kind tag code fields] } } := by
  obtain ⟨_, ha, ht⟩ := h
  obtain ⟨_, h8, hn⟩ := takes_port ht
  rw [serve_taken ht, take_of_awake ha, hb, endChange_answer _ _ _ _ hu (by rw [hw, hn]) (by rw [ho]; exact h8)]

end State

/-- A request that is not taken changes nothing. -/
theorem query_untaken {c : Instr} {body : State → State} {s : State} (h : s.takes c = false) :
    query c body s = .next s := by simp [query, h]

/-- A request that only reads and is taken is one change, and a hand-off that is due follows at once. -/
theorem query_taken {c : Instr} {body : State → State} {s : State} (h : s.takes c = true) :
    query c body s = .next (body s.take).endChange.handAtOnce := by simp [query, h, State.serve_taken h]

/-- A request that is not taken changes nothing. -/
theorem request_untaken {c : Instr} {body : State → State} {s : State} (h : s.takes c = false) :
    request c body s = .next s := by simp [request, h]

/-- A request that can be taken comes after the hand-off that is due. -/
theorem request_handsOff {c : Instr} {body : State → State} {s : State} (h : s.takes c = true) :
    request c body s = .next (s.handedOff.serve c body) := by simp [request, h]

/-- A request that is taken with no hand-off due is one change. -/
theorem request_taken {c : Instr} {body : State → State} {s : State} (h : s.takes c = true) (hs : s.Unstaged) :
    request c body s = .next (body s.take).endChange := by
  rw [request_handsOff h, State.handedOff_of_unstaged hs, State.serve_taken h]

/-- A request that only reads reports what stands, and a hand-off that is due follows at once. -/
theorem query_replies {c : Instr} {body : State → State} {s : State} {kind tag : U8} {code : Code}
    {fields : List U8} (h : s.Asked c) (hb : body s.popped = s.popped.answer kind tag code fields) :
    query c body s = .next (s.reported kind tag code fields) := by
  have := State.serve_answers h hb (State.popped_calm h.1) rfl rfl
  simp [query, h.2.2, this, State.reported, State.replied, State.popped, State.replyFrame, State.frame]

/-- With no hand-off due, a request that only reads changes nothing but the port. -/
theorem State.reported_of_unstaged {s : State} (h : s.Unstaged) (kind tag : U8) (code : Code) (fields : List U8) :
    s.reported kind tag code fields = s.replied kind tag code fields := State.handAtOnce_of_unstaged (s := s.replied ..) h

/-- A request that a ready part answers at once, without other consequences, is answered. -/
theorem request_answers {c : Instr} {body : State → State} {s u : State} {kind tag : U8} {code : Code}
    {fields : List U8} (h : s.Ready c) (hb : body s.popped = u.answer kind tag code fields) (hu : u.Calm)
    (hw : u.port.waiting = s.port.waiting) (ho : u.port.outbound = s.port.outbound) :
    request c body s =
      .next { u with port := { u.port with outbound := u.port.outbound ++ [u.replyFrame kind tag code fields] } } := by
  rw [request_handsOff h.1.2.2, State.handedOff_of_unstaged h.2, State.serve_answers h.1 hb hu hw ho]

/-- A request that a ready part refuses, or answers from its state alone, is answered and changes nothing else. -/
theorem request_replies {c : Instr} {body : State → State} {s : State} {kind tag : U8} {code : Code}
    {fields : List U8} (h : s.Ready c) (hb : body s.popped = s.popped.answer kind tag code fields) :
    request c body s = .next (s.replied kind tag code fields) :=
  request_answers h hb (State.popped_calm h.1.1) rfl rfl

/-- An event whose cause is not there, the hand-off that is due having been made, changes nothing. -/
theorem event_absent {follows : State → State} {happens : State → Bool} {body : State → State} {s : State}
    (h : (s.powered && happens s.handedOff) = false) : eventWith follows happens body s = .next s := by simp [eventWith, h]

/-- An event that happens comes after the hand-off that is due. -/
theorem event_handsOff {follows : State → State} {happens : State → Bool} {body : State → State} {s : State}
    (hp : s.powered = true) (h : happens s.handedOff = true) :
    eventWith follows happens body s = .next (follows (body s.handedOff).endChange) := by simp [eventWith, hp, h]

/-- An event that happens with no hand-off due is one change. -/
theorem event_unstaged {happens : State → Bool} {body : State → State} {s : State} (hp : s.powered = true)
    (h : happens s = true) (hs : s.Unstaged) : event happens body s = .next (body s).endChange := by
  rw [event, event_handsOff hp (by rw [State.handedOff_of_unstaged hs]; exact h), State.handedOff_of_unstaged hs, id]

/-- A signal that happens. -/
theorem signal_happens {happens : State → Bool} {body : State → State} {s : State} (hp : s.powered = true)
    (h : happens s = true) : signal happens body s = .next (body s) := by simp [signal, hp, h]

/-- A signal that does not happen changes nothing. -/
theorem signal_absent {happens : State → Bool} {body : State → State} {s : State}
    (h : (s.powered && happens s) = false) : signal happens body s = .next s := by simp [signal, h]

/-! ### What every end of a change leaves -/

namespace State

theorem levels_disarm (s : State) : s.disarm.levels = s.levels := rfl

theorem noticeDue_disarm (s : State) : s.disarm.noticeDue = false := by
  by_cases h : s.noticeDue = true
  · simp [noticeDue, disarm] at h ⊢
    simp [h]
  · simp only [Bool.not_eq_true] at h
    have : s.disarm = s := by simp [disarm, h]
    rw [this, h]

theorem and_mono_zero {a b m : U32} (h : (a ||| b) &&& m = 0) (c : U32) : (a &&& c ||| b) &&& m = 0 := by
  ext i hi
  have := congrArg (fun x => x.getLsbD i) h
  simp at this ⊢
  grind

/-- A WAIT that ends makes no notice due. -/
theorem noticeDue_endWait {s : State} (h : s.noticeDue = false) : s.endWait.noticeDue = false := by
  unfold endWait
  split
  · exact h
  · simp only [noticeDue, conditions, Bool.and_eq_false_iff, bne_eq_false_iff_eq] at h ⊢
    rcases h with h | h
    · exact .inl h
    · exact .inr (and_mono_zero h _)

theorem waitMet_endWait (s : State) : s.endWait.waitMet? = none := by
  unfold endWait
  split
  · assumption
  · rfl

theorem entryDue_congr {s t : State} (hm : t.req.mode = s.req.mode) (hs : t.setupReady = s.setupReady)
    (hb : t.standbyReady = s.standbyReady) : t.entryDue = s.entryDue := by simp [entryDue, hm, hs, hb]

theorem entryDue_endWait (s : State) : s.endWait.entryDue = s.entryDue := by
  unfold endWait
  split <;> rfl

theorem close_calm {s : State} (h : s.entryDue = false) : s.close.Calm := by
  have h1 : s.disarm.endWait.noticeDue = false := noticeDue_endWait (noticeDue_disarm s)
  refine ⟨rfl, rfl, h1, waitMet_endWait s.disarm, ?_, ?_⟩
  · simp only [close, send, OrderTable.trim, List.length_drop, Config.finishedOrders]
    omega
  · have : s.close.entryDue = s.disarm.endWait.entryDue := rfl
    rw [this, entryDue_endWait]
    exact h

theorem mode_completeEntry {s : State} (h : s.entryDue = true) :
    s.completeEntry.req.mode = .setup ∨ s.completeEntry.req.mode = .standby := by
  unfold entryDue at h
  unfold completeEntry
  split at h
  · left
    simp only [changeMode, answerEntry]
    split <;> rfl
  · right
    simp only [changeMode, answerEntry]
    split <;> rfl
  all_goals cases h

/-- Every end of a change leaves a state between two changes. -/
theorem endChange_calm (s : State) : s.endChange.Calm := by
  unfold endChange
  split
  · next h =>
    refine close_calm ?_
    rcases mode_completeEntry h with h1 | h1 <;>
      simp [entryDue, (kept_settled s.settled.completeEntry).mode, h1]
  · next h => exact close_calm (by simpa using h)

end State

end Sys2Proof.Machine
end

