-- ==== Sys2Proof/Laws/JobNumbers.lean ====
section
/-! SUPPORT. The job numbers: what the next number becomes, and that a created and a retired job leave them as the rules state
them. -/

namespace Sys2Proof.Machine

set_option Elab.async false

theorem Engine.holdsNumber_iff {e : Engine} {n : Nat} :
    e.holdsNumber n = true ↔ n ∈ e.jobs.map Job.number ++ e.finished.map Job.number := by
  simp [Engine.holdsNumber]

theorem nextNumber_after {n : Nat} (h1 : 1 ≤ n) (h2 : n ≤ 65535) : nextNumber n = jobNumberAfter n 1 := by
  unfold nextNumber jobNumberAfter
  split <;> omega

theorem jobNumberAfter_range (n i : Nat) : 1 ≤ jobNumberAfter n i ∧ jobNumberAfter n i ≤ 65535 := by
  unfold jobNumberAfter
  omega

theorem jobNumberAfter_add {n : Nat} (h1 : 1 ≤ n) (i j : Nat) :
    jobNumberAfter (jobNumberAfter n i) j = jobNumberAfter n (i + j) := by
  unfold jobNumberAfter
  omega

theorem jobNumberAfter_zero {n : Nat} (h1 : 1 ≤ n) (h2 : n ≤ 65535) : jobNumberAfter n 0 = n := by
  unfold jobNumberAfter
  omega

/-- What freeNumber can answer: the nearest number that is not held, or, where the bound is used up, one behind held ones only. -/
theorem Engine.freeNumber_spec (e : Engine) : ∀ (b n : Nat), 1 ≤ n → n ≤ 65535 →
    ∃ k, k ≤ b ∧ e.freeNumber b n = jobNumberAfter n k ∧ (∀ i, i < k → e.holdsNumber (jobNumberAfter n i) = true) ∧
      (k < b → e.holdsNumber (jobNumberAfter n k) = false)
  | 0, n, h1, h2 => ⟨0, Nat.le_refl 0, (jobNumberAfter_zero h1 h2).symm, nofun, nofun⟩
  | b + 1, n, h1, h2 => by
    unfold Engine.freeNumber
    split
    · next hn =>
      rw [nextNumber_after h1 h2]
      obtain ⟨k, hk, he, hi, hf⟩ := Engine.freeNumber_spec e b (jobNumberAfter n 1) (jobNumberAfter_range n 1).1
        (jobNumberAfter_range n 1).2
      rw [jobNumberAfter_add h1] at he
      refine ⟨k + 1, by omega, by rw [he, Nat.add_comm], fun i hik => ?_, fun hb => ?_⟩
      · cases i with
        | zero => rwa [jobNumberAfter_zero h1 h2]
        | succ i => have := hi i (by omega); rwa [jobNumberAfter_add h1, Nat.add_comm] at this
      · have := hf (by omega); rwa [jobNumberAfter_add h1, Nat.add_comm] at this
    · next hn => exact ⟨0, by omega, (jobNumberAfter_zero h1 h2).symm, nofun, fun _ => by rw [jobNumberAfter_zero h1 h2]; simpa using hn⟩

/-- The next number after one that is given is the nearest that is not held (R101). -/
theorem Engine.Numbered.advances {e : Engine} (h : e.Numbered) (j : Job) (hj : j.number = e.nextJob) (room : e.jobs.length < 8) :
    let next := Engine.freeNumber { e with jobs := e.jobs ++ [j] } 17 (nextNumber e.nextJob)
    e.Advances e.nextJob next ∧ 1 ≤ next ∧ next ≤ 65535 := by
  obtain ⟨h1, h2, h3, h4⟩ := h
  have hr := jobNumberAfter_range e.nextJob 1
  obtain ⟨k, hk, he, hi, hf⟩ := Engine.freeNumber_spec { e with jobs := e.jobs ++ [j] } 17 _ hr.1 hr.2
  have hlt : k < 17 := by
    rcases Nat.lt_or_ge k 17 with hlt | hge
    · exact hlt
    · exfalso
      have hsub : (List.range 17).map (fun i => jobNumberAfter (jobNumberAfter e.nextJob 1) i) ⊆
          (e.jobs ++ [j]).map Job.number ++ e.finished.map Job.number := by
        intro x hx
        simp only [List.mem_map, List.mem_range] at hx
        obtain ⟨i, hi17, rfl⟩ := hx
        exact Engine.holdsNumber_iff.1 (hi i (by omega))
      have hnd : ((List.range 17).map (fun i => jobNumberAfter (jobNumberAfter e.nextJob 1) i)).Nodup := by
        refine List.Nodup.map_on ?_ List.nodup_range
        intro x hx y hy hxy
        simp only [List.mem_range] at hx hy
        unfold jobNumberAfter at hxy
        omega
      have := (List.subperm_of_subset hnd hsub).length_le
      simp at this
      omega
  have hfree := hf hlt
  have hnew (x : Nat) : Engine.holdsNumber { e with jobs := e.jobs ++ [j] } x = true ↔ e.holdsNumber x = true ∨ x = e.nextJob := by
    simp only [Engine.holdsNumber, List.any_append, List.any_cons, List.any_nil, Bool.or_false, Bool.or_eq_true, beq_iff_eq, hj]
    constructor
    · rintro ((h | h) | h)
      · exact Or.inl (Or.inl h)
      · exact Or.inr h.symm
      · exact Or.inl (Or.inr h)
    · rintro ((h | h) | h)
      · exact Or.inl (Or.inl h)
      · exact Or.inr h
      · exact Or.inl (Or.inr h.symm)
  rw [jobNumberAfter_add h1] at he hfree
  dsimp only
  rw [nextNumber_after h1 h2, he]
  refine ⟨⟨fun hn => ?_, ?_, 1 + k, rfl, fun i h0 hik => ?_⟩, jobNumberAfter_range _ _⟩
  · have : Engine.holdsNumber { e with jobs := e.jobs ++ [j] } (jobNumberAfter e.nextJob (1 + k)) = true := (hnew _).2 (Or.inr hn)
    rw [this] at hfree
    cases hfree
  · cases hx : e.holdsNumber (jobNumberAfter e.nextJob (1 + k)) with
    | false => rfl
    | true => rw [(hnew _).2 (Or.inl hx)] at hfree; cases hfree
  · have := hi (i - 1) (by omega)
    rw [jobNumberAfter_add h1, show 1 + (i - 1) = i by omega] at this
    rcases (hnew _).1 this with h | h
    · exact h
    · exfalso
      unfold jobNumberAfter at h
      omega

/-- A job is created under the next number, which then advances. -/
theorem Engine.Numbered.create {e : Engine} (h : e.Numbered) (j : Job) (hj : j.number = e.nextJob) (room : e.jobs.length < 8) :
    Engine.Numbered { e with
      jobs := e.jobs ++ [j]
      nextJob := Engine.freeNumber { e with jobs := e.jobs ++ [j] } 17 (nextNumber e.nextJob) } := by
  obtain ⟨⟨hn, hf, -⟩, h1, h2⟩ := h.advances j hj room
  refine ⟨h1, h2, h.2.2.1, ?_⟩
  have hd := h.2.2.2
  have hf' : ¬ e.holdsNumber (Engine.freeNumber { e with jobs := e.jobs ++ [j] } 17 (nextNumber e.nextJob)) = true := by simp [hf]
  rw [Engine.holdsNumber_iff, List.mem_append, not_or] at hf'
  rw [List.nodup_cons] at hd ⊢
  have hp : ((e.jobs ++ [j]).map Job.number ++ e.finished.map Job.number).Perm
      (e.nextJob :: (e.jobs.map Job.number ++ e.finished.map Job.number)) := by
    simp only [List.map_append, List.map_cons, List.map_nil, hj, List.append_assoc, List.singleton_append]
    exact List.perm_middle
  refine ⟨fun hm => ?_, hp.nodup_iff.2 (List.nodup_cons.2 hd)⟩
  rcases List.mem_cons.1 (hp.mem_iff.1 hm) with h | h
  · exact hn h
  · rcases List.mem_append.1 h with h | h
    · exact hf'.1 h
    · exact hf'.2 h

/-- Jobs change, each under its number. -/
theorem Engine.Numbered.map {e : Engine} (h : e.Numbered) {f : Job → Job} (hf : ∀ j, (f j).number = j.number) :
    Engine.Numbered { e with jobs := e.jobs.map f } := by
  have : (e.jobs.map f).map Job.number = e.jobs.map Job.number := by
    rw [List.map_map]
    exact List.map_congr_left fun j _ => hf j
  exact ⟨h.1, h.2.1, h.2.2.1, by rw [this]; exact h.2.2.2⟩

/-- A live job leaves for the finished list, which keeps the last 8. -/
theorem Engine.Numbered.retire {e : Engine} (h : e.Numbered) {j : Job} (hj : j.number ∈ e.jobs.map Job.number) (copy : Job)
    (hc : copy.number = j.number) {hist : List Nat} :
    Engine.Numbered { e with
      jobs := e.jobs.filter fun x => x.number != j.number
      histogram := hist
      finished := (e.finished ++ [copy]).drop ((e.finished ++ [copy]).length - Config.finishedJobs) } := by
  obtain ⟨h1, h2, h3, h4⟩ := h
  refine ⟨h1, h2, by simp; omega, ?_⟩
  have hall : (e.nextJob :: ((e.jobs.filter fun x => x.number != j.number).map Job.number ++
      (e.finished ++ [copy]).map Job.number)).Nodup := by
    have hp : (e.nextJob :: ((e.jobs.filter fun x => x.number != j.number).map Job.number ++
        (e.finished ++ [copy]).map Job.number)).Perm
        (j.number :: (e.nextJob :: ((e.jobs.filter fun x => x.number != j.number).map Job.number ++
          e.finished.map Job.number))) := by
      simp only [List.map_append, List.map_cons, List.map_nil, hc]
      rw [← List.append_assoc]
      exact ((List.perm_append_singleton _ _).cons _).trans (List.Perm.swap _ _ _)
    rw [hp.nodup_iff, List.nodup_cons]
    have hs : (e.nextJob :: ((e.jobs.filter fun x => x.number != j.number).map Job.number ++
        e.finished.map Job.number)).Sublist (e.nextJob :: (e.jobs.map Job.number ++ e.finished.map Job.number)) :=
      ((List.filter_sublist.map _).append (List.Sublist.refl _)).cons_cons _
    refine ⟨fun hm => ?_, h4.sublist hs⟩
    rw [List.nodup_cons, List.nodup_append] at h4
    rcases List.mem_cons.1 hm with hm | hm
    · exact h4.1 (hm ▸ List.mem_append_left _ hj)
    · rcases List.mem_append.1 hm with hm | hm
      · simp only [List.mem_map, List.mem_filter, bne_iff_ne, ne_eq] at hm
        obtain ⟨x, ⟨_, hx⟩, hn⟩ := hm
        exact hx hn
      · exact h4.2.2.2 _ hj _ hm rfl
  refine hall.sublist (List.Sublist.cons_cons _ ((List.Sublist.refl _).append ?_))
  exact (List.drop_sublist _ _).map _

theorem job?_mem {s : State} {n : Nat} {j : Job} (h : s.job? n = some j) : j.number ∈ s.eng.jobs.map Job.number :=
  List.mem_map_of_mem (List.mem_of_find?_eq_some h)

theorem State.eng_applyRestored (s : State) (j : Job) (w : Written) : (s.applyRestored j w).eng = s.eng := by
  unfold State.applyRestored
  dsimp only
  repeat' split
  all_goals rfl

end Sys2Proof.Machine
end

