-- ==== Sys2Proof/Laws/Releases.lean ====
section
/-! SUPPORT. One lemma for each operation of a release: what a hand-off, a grant, the re-examination of the claim queue, the serving of
the recall wait queue and the return of a recall slot leave; and how the consequences of a change are worked through one by one. -/

namespace Sys2Proof.Machine

/-! ### Segments (R62, R65) -/

theorem emptyOut_of_none {p : Pool} {h : Holder} (hz : p.heldBy h = 0) : emptyOut h p.segments = p.segments := by
  unfold emptyOut
  conv_rhs => rw [← List.map_id p.segments]
  refine List.map_congr_left fun x hx => ?_
  have : x ≠ some h := by
    simp only [Pool.heldBy, List.countP_eq_zero] at hz
    simpa using hz x hx
  simp [this]

/-- A release leaves what the other holders hold. -/
theorem Pool.heldBy_without {p : Pool} {h k : Holder} (hk : k ≠ h) : (p.without h).heldBy k = p.heldBy k := by
  simp only [Pool.heldBy, Pool.without, emptyOut, List.countP_map]
  refine List.countP_congr fun x _ => ?_
  by_cases hx : x = some h
  · subst hx; simp [Function.comp]; exact fun h => hk h.symm
  · simp [Function.comp, hx]

theorem Pool.free_given {p : Pool} {h : Holder} {n : Nat} (hn : n ≤ p.free) : (p.given h n).free = p.free - n := by
  have := countP_fillFree_none h n p.segments hn
  simp only [Pool.free, Pool.given] at *
  omega

theorem countP_fillFree_self {h : Holder} : ∀ (n : Nat) (l : List (Option Holder)), n ≤ l.countP Option.isNone →
    (fillFree h n l).countP (fun x => x == some h) = l.countP (fun x => x == some h) + n
  | 0, l, _ => by simp [fillFree]
  | n + 1, [], hn => by simp at hn
  | n + 1, none :: l, hn => by
    have := countP_fillFree_self (h := h) n l (by simp at hn; omega)
    simp [fillFree, this]; omega
  | n + 1, some x :: l, hn => by
    have := countP_fillFree_self (h := h) (n + 1) l (by simpa using hn)
    simp only [fillFree, List.countP_cons, this]; omega

/-- A holder that is given segments holds as many more. -/
theorem Pool.heldBy_given {p : Pool} {h : Holder} {n : Nat} (hn : n ≤ p.free) : (p.given h n).heldBy h = p.heldBy h + n :=
  countP_fillFree_self n p.segments hn

/-! ### Orders and jobs by number -/

theorem State.order?_number {s : State} {n : Nat} {o : Order} (h : s.order? n = some o) : o.number = n := by
  simpa using List.find?_some h

theorem State.job?_number {s : State} {n : Nat} {j : Job} (h : s.job? n = some j) : j.number = n := by
  simpa using List.find?_some h

theorem State.order?_withOrder {s : State} {n m : Nat} {f : Order → Order} (hf : ∀ o, (f o).number = o.number) :
    (s.withOrder n f).order? m = (s.order? m).map fun o => if o.number == n then f o else o := by
  simp only [State.order?, State.withOrder, List.find?_map]
  congr 2
  funext o
  simp only [Function.comp]
  split <;> simp [hf]

theorem State.job?_withJob {s : State} {n m : Nat} {f : Job → Job} (hf : ∀ j, (f j).number = j.number) :
    (s.withJob n f).job? m = (s.job? m).map fun j => if j.number == n then f j else j := by
  simp only [State.job?, State.withJob, List.find?_map]
  congr 2
  funext j
  simp only [Function.comp]
  split <;> simp [hf]

/-! ### Working through a change -/

namespace State

theorem entryDue_service {s : State} (h : s.req.mode = .service) : s.entryDue = false := by simp [entryDue, h]

theorem endChange_of_settled {s t : State} (h : s.settled = t) (hm : t.req.mode = .service) : s.endChange = t.close := by
  simp [endChange, h, entryDue_service hm]

theorem agenda_of_nil {s : State} (h : s.agenda = []) : { s with agenda := [] } = s := by
  cases s; simp at h; subst h; rfl

/-- One consequence on an empty list. -/
theorem settled_push {u : State} {x : Task} (h : u.agenda = []) : (u.push x).settled = settle 65535 (u.runTask x) := by
  rw [settled_of_cons (x := x) (rest := []) (by simp [h])]
  congr 2
  rw [← agenda_of_nil h]; simp [push]

/-- Consequences that leave the state as it is are passed over. -/
theorem settle_inert {u : State} (rest : List Task) :
    ∀ (l : List Task) (n : Nat), (∀ x ∈ l, ∀ a, runTask { u with agenda := a } x = { u with agenda := a }) →
      settle (l.length + n) { u with agenda := l ++ rest } = settle n { u with agenda := rest }
  | [], n, _ => by simp
  | x :: l, n, h => by
    have hx := h x (by simp) (l ++ rest)
    rw [show (x :: l).length + n = (l.length + n) + 1 by simp; omega, settle_of_cons (x := x) (rest := l ++ rest) _ rfl]
    exact (congrArg (settle (l.length + n)) hx).trans (settle_inert rest l n fun y hy => h y (by simp [hy]))

@[simp] theorem close_cat (s : State) : s.close.cat = s.cat := by unfold close send endWait; split <;> rfl
@[simp] theorem close_pool (s : State) : s.close.pool = s.pool := by unfold close send endWait; split <;> rfl
@[simp] theorem close_link (s : State) : s.close.link = s.link := by unfold close send endWait; split <;> rfl
@[simp] theorem close_vol (s : State) : s.close.vol = s.vol := by unfold close send endWait; split <;> rfl
@[simp] theorem close_eng (s : State) : s.close.eng = s.eng := by unfold close send endWait; split <;> rfl
@[simp] theorem close_live (s : State) : s.close.ord.live = s.ord.live := by unfold close send endWait; split <;> rfl

/-- A request whose change is worked through to x. -/
theorem request_settles {c : Instr} {body : State → State} {s x : State} (h : s.Ready c) (hx : (body s.popped).settled = x)
    (hm : x.req.mode = .service) : request c body s = .next x.close := by
  rw [request_taken h.1.2.2 h.2, take_of_awake h.1.2.1, endChange_of_settled hx hm]

/-- An event whose change is worked through to x. -/
theorem event_settles {happens : State → Bool} {body : State → State} {s x : State} (h : s.Working) (hh : happens s = true)
    (hx : (body s).settled = x) (hm : x.req.mode = .service) : event happens body s = .next x.close := by
  rw [event_unstaged h.1 hh h.2.2.2, endChange_of_settled hx hm]

/-! ### Hand-offs, grants and claims (R65, R66, R72, R107, R142) -/

/-- An ONLINE link with an empty slot takes an operation into it. -/
theorem handOff_takes {s : State} {i : Nat} {op : Op} (h : s.link.Takes i) (hd : op.isDiscard = false) :
    s.handOff op = { s with link := s.link.occupy i op } := by
  simp [handOff, h.1, hd, StoreLink.accept, h.2]

theorem handOff_free {s : State} {i : Nat} {l : U32} {x : FreeKind} (h : s.link.Takes i) (hd : s.link.discards < 32) :
    s.handOff (.freeBody l x) = { s with link := s.link.freeing i l x } := by
  have : s.link.discards ≠ 32 := by omega
  simp [handOff, h.1, Op.isDiscard, this, StoreLink.accept, h.2, StoreLink.freeing, StoreLink.occupy]

theorem grant_job {u : State} {m need i : Nat} {j : Job} {v : View} (hj : u.job? m = some j) (hv : u.jobView j = some v)
    (hl : u.link.Takes i) : u.grant ⟨.job m, need⟩ = withJob { u with
      pool := u.pool.given (.job m) need
      link := u.link.occupy i (.readForJob m j.target.volume v.current) } m fun j => { j with state := .survey } := by
  have e1 : (u.give (.job m) need).job? m = some j := hj
  have e2 : (u.give (.job m) need).jobView j = some v := hv
  simp only [grant, e1, e2]
  exact (handOff_takes (i := i) (by exact hl) rfl).trans rfl

theorem grant_order {u : State} {m need i : Nat} {p : Order} {v : View} (hp : u.order? m = some p)
    (hv : u.orderView p = some v) (hl : u.link.Takes i) : u.grant ⟨.order m, need⟩ = withOrder { u with
      pool := u.pool.given (.order m) need
      link := u.link.occupy i (.readForOrder m p.volume v.current) } m fun p =>
        { p with readOf := some (v.current, v.stored) } := by
  have e1 : (u.give (.order m) need).order? m = some p := hp
  have e2 : (u.give (.order m) need).orderView p = some v := hv
  simp only [grant, e1, e2]
  exact (handOff_takes (i := i) (by exact hl) rfl).trans rfl

/-- The claim queue stops at a head that does not fit. -/
theorem regrant_stop {u : State} (l : List Claim) (h : ∀ c ∈ l.head?, u.pool.free < c.need + 32) : regrant l u = u := by
  cases l with
  | nil => rfl
  | cons c rest =>
    have := h c (by simp)
    rw [regrant, if_neg]
    simp [Pool.fits]; omega

/-! ### Recall slots (R93, R97, R98) -/

end State

theorem VolumeUnit.slot?_eq {v : VolumeUnit} {i : Nat} {r : RecallSlot} (h : v.slot? i = some r) :
    v.table[i]? = some (some r) := by
  unfold VolumeUnit.slot? at h
  cases hx : v.table[i]? with
  | none => simp [hx] at h
  | some y => simp [hx] at h; rw [h]

theorem VolumeUnit.slot?_lt {v : VolumeUnit} {i : Nat} {r : RecallSlot} (h : v.slot? i = some r) : i < v.table.length :=
  (List.getElem?_eq_some_iff.1 (slot?_eq h)).1

theorem VolumeUnit.slot?_set {v : VolumeUnit} {i : Nat} {r x : RecallSlot} (h : v.slot? i = some r) :
    VolumeUnit.slot? { v with table := v.table.set i (some x) } i = some x := by
  simp [VolumeUnit.slot?, slot?_lt h]

namespace State

theorem withRecall_set {s : State} {i : Nat} {r : RecallSlot} {f : RecallSlot → RecallSlot} (h : s.vol.slot? i = some r) :
    s.withRecall i f = { s with vol := { s.vol with table := s.vol.table.set i (some (f r)) } } := by
  simp only [withRecall]
  congr 2
  apply List.ext_getElem?
  intro k
  rw [List.getElem?_modify, List.getElem?_set]
  by_cases hk : i = k
  · subst hk
    simp only [VolumeUnit.slot?_lt h, if_true, VolumeUnit.slot?_eq h]
    rfl
  · simp [hk]

/-- One requester in the recall wait queue is served: it takes the lowest FREE slot or, with none, the least recently unpinned
one. -/
theorem serveRecall_one {u : State} {w : RecallWaiter} {x k : Nat} (hr : u.vol.recallWait = [w])
    (hh : u.vol.holding w.volume w.key = none) (hl : u.link.Takes k)
    (hx : u.vol.table.findIdx? Option.isNone = some x ∨
      u.vol.table.findIdx? Option.isNone = none ∧ ∃ rest, u.vol.lru = x :: rest) :
    serveRecall u.vol.recallWait.length u = { u with
      vol := { u.vol with
        table := u.vol.table.set x (some ⟨w.volume, w.key, [w.requester], none⟩), recallWait := []
        lru := if u.vol.table.findIdx? Option.isNone = none then u.vol.lru.tail else u.vol.lru }
      link := u.link.occupy k (.readEntry x w.volume w.key) } := by
  have hh2 : VolumeUnit.holding { u.vol with recallWait := [] } w.volume w.key = none := hh
  have join : ∀ t : State, t.vol.recallWait = [] → t.joinSameKey w.volume w.key = t := by
    intro t ht
    unfold joinSameKey
    split
    · rfl
    · simp only [ht, List.filter_nil, List.foldl_nil]
      rw [show ({ t.vol with recallWait := [] } : VolumeUnit) = t.vol by rw [← ht]]
  rw [hr]
  simp only [List.length_cons, List.length_nil, serveRecall, hr]
  unfold tryServe
  rw [hh2]
  dsimp only
  rcases hx with hx | ⟨hx, rest, hl2⟩
  · rw [hx]
    dsimp only
    have : fetch { u with vol := { u.vol with recallWait := [] } } x w = { u with
      vol := { u.vol with table := u.vol.table.set x (some ⟨w.volume, w.key, [w.requester], none⟩), recallWait := [] }
      link := u.link.occupy k (.readEntry x w.volume w.key) } := (handOff_takes (i := k) (by exact hl) rfl).trans rfl
    rw [this, join _ rfl, if_neg (by simp)]
  · rw [hx, hl2]
    dsimp only
    have : fetch { u with vol := { u.vol with recallWait := [], lru := rest } } x w = { u with
      vol := { u.vol with
        table := u.vol.table.set x (some ⟨w.volume, w.key, [w.requester], none⟩), recallWait := [], lru := rest }
      link := u.link.occupy k (.readEntry x w.volume w.key) } := (handOff_takes (i := k) (by exact hl) rfl).trans rfl
    rw [this, join _ rfl, if_pos rfl, List.tail_cons]

/-- A requester leaves the recall wait queue, which is served again only when it was the head. -/
theorem leaveRecallWait_form (s : State) (r : Requester) : ∃ tasks, s.leaveRecallWait r = { s with
      vol := { s.vol with recallWait := s.vol.recallWait.filter fun w => w.requester != r }, agenda := s.agenda ++ tasks } ∧
    (tasks = [] ∨ tasks = [.serveRecall] ∧ s.vol.recallWait.head?.map RecallWaiter.requester = some r) := by
  unfold leaveRecallWait
  split
  · rename_i w rest hw
    dsimp only
    split
    · rename_i h
      exact ⟨[.serveRecall], by rw [hw]; rfl, Or.inr ⟨rfl, by rw [hw]; simpa using h⟩⟩
    · exact ⟨[], by rw [hw, List.append_nil], Or.inl rfl⟩
  · rename_i hw
    exact ⟨[], by rw [hw, List.append_nil], Or.inl rfl⟩

/-- A requester that pins no slot gives up none. -/
theorem releaseSlot_none {s : State} {r : Requester} (h : ∀ i x, s.vol.slot? i = some x → r ∉ x.pinners) :
    s.releaseSlot r = s := by
  unfold releaseSlot
  split
  · rfl
  · rename_i i hi
    obtain ⟨h1, h2, -⟩ := List.findIdx?_eq_some_iff_getElem.1 hi
    cases hx : s.vol.table[i] with
    | none => rw [hx] at h2; simp at h2
    | some x =>
      rw [hx] at h2
      exact absurd (by simpa using h2) (h i x (by rw [VolumeUnit.slot?, List.getElem?_eq_getElem h1, hx]; rfl))

/-- A requester gives up the one slot it pins; a RESIDENT slot that none pins any more joins the least-recently-unpinned list, and the
recall wait queue is served. -/
theorem releaseSlot_one {s : State} {r : Requester} {i : Nat} {x : RecallSlot} (hs : s.vol.slot? i = some x)
    (hr : r ∈ x.pinners) (hu : ∀ k y, s.vol.slot? k = some y → r ∈ y.pinners → k = i) :
    let left := x.pinners.filter fun q => q != r
    let v : VolumeUnit := { s.vol with table := s.vol.table.set i (some { x with pinners := left }) }
    s.releaseSlot r =
      if left.isEmpty && x.copy.isSome then push { s with vol := { v with lru := s.vol.lru ++ [i] } } .serveRecall
      else { s with vol := v } := by
  intro left v
  have hf : s.vol.table.findIdx? (fun x => x.any fun y => y.pinners.contains r) = some i := by
    rw [List.findIdx?_eq_some_iff_getElem]
    have h1 := VolumeUnit.slot?_eq hs
    have h2 := VolumeUnit.slot?_lt hs
    rw [List.getElem?_eq_getElem h2, Option.some.injEq] at h1
    refine ⟨h2, by rw [h1]; simpa using hr, fun j hj hc => ?_⟩
    cases hx : s.vol.table[j] with
    | none => rw [hx] at hc; simp at hc
    | some y =>
      rw [hx] at hc
      have := hu j y (by rw [VolumeUnit.slot?, List.getElem?_eq_getElem (Nat.lt_trans hj h2), hx]; rfl) (by simpa using hc)
      omega
  unfold releaseSlot
  rw [hf]
  dsimp only
  rw [withRecall_set (f := fun x => { x with pinners := x.pinners.filter fun q => q != r }) hs]
  dsimp only
  rw [VolumeUnit.slot?_set (v := s.vol) hs]
  rfl

end State

end Sys2Proof.Machine
end

