-- ==== Sys2Proof/Laws/Starts.lean ====
section
/-! SUPPORT. The engine's start (R106): one lemma for each way in which a job that was just queued on an idle engine, or behind
another job, is taken up; and how a request ends whose change leaves all but the engine's own blocks as they were. -/

namespace Sys2Proof.Machine

set_option Elab.async false

/-- A job at the tail of the job table, the next number given. -/
abbrev State.queuedAs (u : State) (j : Job) (next : Nat) : State :=
  { u with eng := { u.eng with jobs := u.eng.jobs ++ [j], nextJob := next } }

theorem State.withJob_queuedAs {u : State} {j : Job} {next : Nat} {f : Job → Job}
    (hn : ∀ k ∈ u.eng.jobs, k.number ≠ j.number) :
    (u.queuedAs j next).withJob j.number f = u.queuedAs (f j) next := by
  have : u.eng.jobs.map (fun k => if k.number == j.number then f k else k) = u.eng.jobs := by
    conv_rhs => rw [← List.map_id u.eng.jobs]
    exact List.map_congr_left fun k hk => by simp [hn k hk]
  simp only [State.withJob, List.map_append, this, List.map_cons, List.map_nil, beq_self_eq_true, if_true]

theorem State.job?_queuedAs {u : State} {j : Job} {next : Nat} (hn : ∀ k ∈ u.eng.jobs, k.number ≠ j.number) :
    (u.queuedAs j next).job? j.number = some j := by
  simp only [State.job?, List.find?_append]
  rw [List.find?_eq_none.2 (by intro k hk; simpa using hn k hk)]
  simp

/-- A job's view rests on its target and slot, the catalogue and the recall table alone. -/
theorem State.jobView_congr {u t : State} {j k : Job} (hc : u.cat = t.cat) (hv : u.vol = t.vol) (ht : j.target = k.target)
    (hr : j.recallSlot = k.recallSlot) : u.jobView j = t.jobView k := by
  simp only [State.jobView, hc, hv, ht, hr]

/-- No start while a job is active. -/
theorem State.startJob_busy {s : State} (h : ∃ k ∈ s.eng.jobs, k.state.isActive = true) : s.startJob = s := by
  unfold State.startJob
  rw [if_pos (by simpa [List.any_eq_true] using h)]

/-- On an idle engine the job just queued is the oldest ready one. -/
theorem State.startJob_claims {u : State} {j : Job} {next : Nat} {v : View} (hi : u.eng.Idle) (hq : j.state = .queued)
    (hr : j.isReady = true) (hn : ∀ k ∈ u.eng.jobs, k.number ≠ j.number) (hv : (u.queuedAs j next).jobView j = some v) :
    (u.queuedAs j next).startJob = (u.queuedAs (j.started v .claiming) next).placeClaim ⟨.job j.number, v.need⟩ := by
  unfold State.startJob
  rw [if_neg]
  · have : (u.queuedAs j next).eng.jobs.find? (fun j => j.state == .queued && j.isReady) = some j := by
      simp only [List.find?_append]
      rw [List.find?_eq_none.2]
      · simp [hq, hr]
      · intro k hk
        simp
        intro h; simpa using (hi k hk).2 h
    rw [this]; dsimp only
    rw [hv]; dsimp only
    rw [State.withJob_queuedAs hn]; rfl
  · simp only [List.any_append, List.any_cons, List.any_nil, Bool.or_false, Bool.or_eq_true, not_or]
    refine ⟨?_, by simp [hq, JobState.isActive]⟩
    simp only [List.any_eq_true, not_exists, not_and]
    intro k hk; simp [(hi k hk).1]

/-- With room and a free store slot it is given its segments and its body is read. -/
theorem State.startJob_fits {u : State} {j : Job} {next i : Nat} {v : View} (hi : u.eng.Idle) (hq : j.state = .queued)
    (hr : j.isReady = true) (hn : ∀ k ∈ u.eng.jobs, k.number ≠ j.number) (hv : (u.queuedAs j next).jobView j = some v)
    (hc : u.pool.claims = []) (hf : v.need + 32 ≤ u.pool.free) (hl : u.link.Takes i) :
    (u.queuedAs j next).startJob = State.queuedAs { u with
        pool := u.pool.given (.job j.number) v.need
        link := u.link.occupy i (.readForJob j.number j.target.volume v.current) } (j.started v .survey) next := by
  rw [State.startJob_claims hi hq hr hn hv, State.placeClaim, if_pos]
  · have hj := State.job?_queuedAs (u := u) (j := j.started v .claiming) (next := next) hn
    refine Eq.trans (State.grant_job (i := i) (v := v) hj (by rw [← hv]; exact State.jobView_congr rfl rfl rfl rfl) hl) ?_
    exact State.withJob_queuedAs (u := { u with
      pool := u.pool.given (.job j.number) v.need
      link := u.link.occupy i (.readForJob j.number j.target.volume v.current) }) (j := j.started v .claiming)
      (f := fun j => { j with state := .survey }) hn
  · rw [show (u.queuedAs (j.started v .claiming) next).pool = u.pool from rfl, hc]
    simp [Pool.fits]; exact hf

/-- Without room, or behind another claim, it waits in the claim queue. -/
theorem State.startJob_waits {u : State} {j : Job} {next : Nat} {v : View} (hi : u.eng.Idle) (hq : j.state = .queued)
    (hr : j.isReady = true) (hn : ∀ k ∈ u.eng.jobs, k.number ≠ j.number) (hv : (u.queuedAs j next).jobView j = some v)
    (hc : u.pool.claims ≠ [] ∨ u.pool.free < v.need + 32) :
    (u.queuedAs j next).startJob = State.queuedAs { u with
      pool := { u.pool with claims := u.pool.claims ++ [⟨.job j.number, v.need⟩] } } (j.started v .claiming) next := by
  rw [State.startJob_claims hi hq hr hn hv, State.placeClaim, if_neg]
  · rw [show (u.queuedAs (j.started v .claiming) next).pool = u.pool from rfl]
    simp [Pool.fits]
    intro h
    rcases hc with hc | hc
    · exact absurd h hc
    · omega

/-! ### Requests whose change leaves the port and the levels -/

/-- What a start leaves as it was. -/
structure SameFrame (u x : State) : Prop where
  agenda : x.agenda = u.agenda
  formed : x.formed = u.formed
  port : x.port = u.port
  req : x.req = u.req
  ord : x.ord = u.ord
  stmt : x.stmt = u.stmt
  link : x.link.state = u.link.state

/-- With as many free segments as before, the state stays calm. -/
theorem SameFrame.calm {u x : State} (hr : SameFrame u x) (h : u.Calm) (hm : u.req.mode = .service)
    (hp : x.pool.free = u.pool.free) : x.Calm := by
  obtain ⟨h1, h2, h3, h4, h5, h6⟩ := h
  have hl : x.levels = u.levels := by
    simp only [State.levels, hr.link, State.stagingIsLow, hp, hr.stmt, hr.ord]
  refine ⟨hr.agenda.trans h1, hr.formed.trans h2, ?_, ?_, by rw [hr.ord]; exact h5,
    State.entryDue_service (by rw [hr.req]; exact hm)⟩
  · simpa only [State.noticeDue, State.conditions, hl, hr.req] using h3
  · simpa only [State.waitMet?, State.conditions, hl, hr.req] using h4

/-- A request whose change leaves x and may have given segments. -/
theorem SameFrame.request_answered {s u x : State} {c : Instr} {body : State → State} {kind tag : U8} {code : Code}
    {fields : List U8} (h : s.Ready c) (hm : s.req.mode = .service) (hr : SameFrame u x)
    (hu : u.formed = s.formed ∧ u.port = s.port ∧ u.req = s.req ∧ u.agenda = s.agenda)
    (hx : (body s.popped).settled = x.popped.answer kind tag code fields) :
    request c body s = .next (x.answered kind tag code fields) := by
  have hxm : x.req.mode = .service := by rw [hr.req, hu.2.2.1, hm]
  rw [State.request_settles h hx hxm, State.answered, State.endChange_of_nil]
  · show x.agenda = []
    rw [hr.agenda, hu.2.2.2]; exact h.1.1.1
  · exact State.entryDue_service hxm

/-- A request whose change leaves x, with as many free segments, raises no condition: its reply stands alone in the change. -/
theorem SameFrame.request_replied {s u x : State} {c : Instr} {body : State → State} {kind tag : U8} {code : Code}
    {fields : List U8} (h : s.Ready c) (hm : s.req.mode = .service) (hr : SameFrame u x)
    (hu : u.formed = s.formed ∧ u.port = s.port ∧ u.req = s.req ∧ u.agenda = s.agenda) (hc : u.Calm)
    (hp : x.pool.free = u.pool.free) (hx : (body s.popped).settled = x.popped.answer kind tag code fields) :
    request c body s = .next (x.replied kind tag code fields) := by
  obtain ⟨_, h8, hn⟩ := State.takes_port h.1.2.2
  have hxm : x.req.mode = .service := by rw [hr.req, hu.2.2.1, hm]
  have hxc : x.popped.Calm := hr.calm hc (by rw [hu.2.2.1]; exact hm) hp
  have hport : x.port = s.port := hr.port.trans hu.2.1
  rw [hr.request_answered h hm hu hx, State.answered]
  refine congrArg Host.Outcome.next ?_
  exact State.endChange_answer kind tag code fields hxc (by show x.port.waiting = []; rw [hport]; exact hn)
    (by show x.port.outbound.length < 8; rw [hport]; exact h8)

end Sys2Proof.Machine
end

