-- ==== Sys2Proof/Laws/StoreLink.lean ====
section
/-! SUPPORT. What each operation of the store link, the recall table and the tone stretch does to what the rules state of it (R70 to
R80, R92, R109). -/

namespace Sys2Proof.Machine

set_option Elab.async false

/-! ### The store link -/

namespace StoreLink

theorem mem_held {l : StoreLink} {op : Op} :
    op ∈ l.held ↔ (∃ sl ∈ l.slots, sl.occupant.map Running.op = some op) ∨ op ∈ l.waiting := by
  simp [held, List.mem_append, List.mem_filterMap]

theorem mem_modify {α : Type} {l : List α} {i : Nat} {f : α → α} {x : α} (h : x ∈ l.modify i f) :
    x ∈ l ∨ ∃ y ∈ l, x = f y := by
  obtain ⟨k, hk⟩ := List.mem_iff_getElem?.1 h
  rw [List.getElem?_modify] at hk
  cases hy : l[k]? with
  | none => simp [hy] at hk
  | some y =>
    simp only [hy, Option.map_eq_map, Option.map_some, Option.some.injEq] at hk
    split at hk
    · exact .inr ⟨y, List.mem_of_getElem? hy, hk.symm⟩
    · exact .inl (hk ▸ List.mem_of_getElem? hy)

theorem occupy_slot {l : StoreLink} {i : Nat} {op : Op} {sl : OpSlot} (h : sl ∈ (l.occupy i op).slots) :
    sl ∈ l.slots ∨ sl.occupant = some ⟨op, Config.storeTicks⟩ := by
  rcases mem_modify h with h | ⟨y, _, rfl⟩
  · exact .inl h
  · exact .inr rfl

theorem vacate_slot {l : StoreLink} {i : Nat} {sl : OpSlot} (h : sl ∈ (l.vacate i).slots) :
    sl ∈ l.slots ∨ sl.occupant = none := by
  rcases mem_modify h with h | ⟨y, _, rfl⟩
  · exact .inl h
  · exact .inr rfl

theorem held_occupy {l : StoreLink} {i : Nat} {op x : Op} (h : x ∈ (l.occupy i op).held) : x ∈ l.held ∨ x = op := by
  rw [mem_held] at h ⊢
  rcases h with ⟨sl, hsl, e⟩ | h
  · rcases occupy_slot hsl with h | h
    · exact .inl (.inl ⟨sl, h, e⟩)
    · rw [h] at e; cases e; exact .inr rfl
  · exact .inl (.inr h)

theorem held_vacate {l : StoreLink} {i : Nat} {x : Op} (h : x ∈ (l.vacate i).held) : x ∈ l.held := by
  rw [mem_held] at h ⊢
  rcases h with ⟨sl, hsl, e⟩ | h
  · rcases vacate_slot hsl with h | h
    · exact .inl ⟨sl, h, e⟩
    · rw [h] at e; cases e
  · exact .inr h

/-- An operation that a slot takes from the list stood in it, and the rest did too. -/
theorem takeFirst_mem {p : Op → Bool} : ∀ {w : List Op} {op : Op} {rest : List Op}, takeFirst p w = some (op, rest) →
    op ∈ w ∧ ∀ x ∈ rest, x ∈ w
  | x :: xs, op, rest, h => by
    simp only [takeFirst] at h
    split at h
    · cases h; exact ⟨by simp, fun y hy => by simp [hy]⟩
    · simp only [Option.map_eq_some_iff, Prod.mk.injEq] at h
      obtain ⟨⟨a, b⟩, hr, rfl, rfl⟩ := h
      obtain ⟨h1, h2⟩ := takeFirst_mem hr
      refine ⟨by simp [h1], fun y hy => ?_⟩
      rcases List.mem_cons.1 hy with rfl | hy
      · simp
      · simp [h2 y hy]

theorem nextWaiting_mem {w : List Op} {op : Op} {rest : List Op} (h : nextWaiting w = some (op, rest)) :
    op ∈ w ∧ ∀ x ∈ rest, x ∈ w := by
  unfold nextWaiting at h
  split at h
  · next r hr => cases h; exact takeFirst_mem hr
  · exact takeFirst_mem h

theorem nextWaiting_none {w : List Op} (h : nextWaiting w = none) : w = [] := by
  unfold nextWaiting at h
  split at h
  · cases h
  · cases w with
    | nil => rfl
    | cons x xs => simp [takeFirst] at h

/-- An operation is taken in ONLINE. -/
theorem Sound.accept {l : StoreLink} (h : l.Sound) (ho : l.state = .online) {op : Op} (hop : op ≠ .probe) :
    (l.accept op).Sound := by
  obtain ⟨h1, h2, _⟩ := h
  obtain ⟨h2, h3⟩ := h2 ho
  have key : ∀ l1 : StoreLink, l1.slots = l.slots → l1.waiting = l.waiting → l1.state = l.state →
      (match l1.slots.findIdx? (fun sl : OpSlot => sl.occupant.isNone) with
        | some i => l1.occupy i op
        | none => ({ l1 with waiting := l1.waiting ++ [op] } : StoreLink)).Sound := by
    intro l1 e1 e2 e3
    have hheld : ∀ x, x ∈ l1.held ↔ x ∈ l.held := by intro x; simp [mem_held, e1, e2]
    split
    · next i hi =>
      rw [e1] at hi
      have hw : l.waiting = [] := by
        by_contra hne
        obtain ⟨hlt, hno, _⟩ := List.findIdx?_eq_some_iff_getElem.1 hi
        exact h2 hne _ (List.getElem_mem hlt) (by simpa using hno)
      refine ⟨by simp [occupy, e1, h1], fun _ => ⟨fun hne => ?_, fun x hx => ?_⟩, fun hne => ?_⟩
      · exact absurd (e2.trans hw) hne
      · rcases held_occupy hx with hx | rfl
        · exact h3 x ((hheld x).1 hx)
        · exact hop
      · exact absurd (e3.trans ho) hne
    · next hi =>
      rw [e1] at hi
      refine ⟨by simp [e1, h1], fun _ => ⟨fun _ => ?_, fun x hx => ?_⟩, fun hne => ?_⟩
      · intro sl hsl
        have := List.findIdx?_eq_none_iff.1 hi sl (e1 ▸ hsl)
        intro e; simp [e] at this
      · rw [mem_held] at hx
        rcases hx with hx | hx
        · exact h3 x ((hheld x).1 (mem_held.2 (.inl hx)))
        · simp only [List.mem_append, List.mem_singleton] at hx
          rcases hx with hx | rfl
          · exact h3 x ((hheld x).1 (mem_held.2 (.inr hx)))
          · exact hop
      · exact absurd (e3.trans ho) hne
  cases hd : op.isDiscard
  · have := key l rfl rfl rfl
    cases hi : l.slots.findIdx? (fun sl : OpSlot => sl.occupant.isNone) <;>
      simpa only [StoreLink.accept, hd, hi, Bool.false_eq_true, if_false] using this
  · have := key { l with discards := l.discards + 1 } rfl rfl rfl
    cases hi : l.slots.findIdx? (fun sl : OpSlot => sl.occupant.isNone) <;>
      simpa only [StoreLink.accept, hd, hi, if_true] using this

/-- A slot is emptied and passes on in ONLINE. -/
theorem Sound.passed {l : StoreLink} (h : l.Sound) (ho : l.state = .online) (i f d : Nat) :
    (StoreLink.passOn { l.vacate i with failures := f, discards := d } i).Sound := by
  obtain ⟨h1, h2, _⟩ := h
  obtain ⟨h2, h3⟩ := h2 ho
  have hheld : ∀ x ∈ (StoreLink.held { l.vacate i with failures := f, discards := d }), x ∈ l.held := fun x hx =>
    held_vacate (i := i) (by simpa [held] using hx)
  unfold passOn
  split
  · next op rest hn =>
    have hn : nextWaiting l.waiting = some (op, rest) := hn
    obtain ⟨m1, m2⟩ := nextWaiting_mem hn
    have hne : l.waiting ≠ [] := by intro e; simp [e] at m1
    have hall := h2 hne
    refine ⟨by simp [occupy, vacate, h1], fun _ => ⟨fun _ => ?_, fun x hx => ?_⟩, fun hne => absurd ho hne⟩
    · intro sl hsl
      obtain ⟨k, hk⟩ := List.mem_iff_getElem?.1 hsl
      simp only [occupy, vacate, List.getElem?_modify] at hk
      cases hy : l.slots[k]? with
      | none => simp [hy] at hk
      | some y =>
        simp only [hy] at hk
        split at hk
        · simp at hk; rw [← hk]; simp
        · simp at hk; rw [← hk]; exact hall y (List.mem_of_getElem? hy)
    · rcases held_occupy hx with hx | rfl
      · refine h3 x ?_
        rw [mem_held] at hx
        rcases hx with ⟨sl, hsl, e⟩ | hx
        · exact held_vacate (i := i) (mem_held.2 (.inl ⟨sl, hsl, e⟩))
        · exact mem_held.2 (.inr (m2 x hx))
      · exact h3 x (mem_held.2 (.inr m1))
  · next hn =>
    have hw : l.waiting = [] := nextWaiting_none hn
    exact ⟨by simp [vacate, h1], fun _ => ⟨fun hne => absurd hw hne, fun x hx => h3 x (hheld x hx)⟩,
      fun hne => absurd ho hne⟩

/-- The link has gone OFFLINE. -/
theorem Sound.down {l : StoreLink} (h : l.Sound) (f : Nat) (g d r : Nat) (p : Option Nat) :
    StoreLink.Sound { state := .offline, slots := l.slots.map fun sl => ⟨sl.issue, none⟩, waiting := []
                      failures := f, goodProbes := g, discards := d, dropped := r, probeTicks := p } := by
  refine ⟨by simp [h.1], nofun, fun _ => ⟨rfl, ?_, ?_⟩⟩
  · intro sl hsl
    have := List.mem_of_mem_tail hsl
    simp only [List.mem_map] at this
    obtain ⟨_, _, rfl⟩ := this
    rfl
  · intro op hop
    rw [mem_held] at hop
    rcases hop with ⟨sl, hsl, e⟩ | hop
    · simp only [List.mem_map] at hsl
      obtain ⟨_, _, rfl⟩ := hsl
      cases e
    · cases hop

/-- A tick. -/
theorem Sound.tick {l : StoreLink} (h : l.Sound) : l.tick.Sound := by
  obtain ⟨h1, h2, h3⟩ := h
  have hocc : ∀ sl : OpSlot, (sl.tick.occupant = none ↔ sl.occupant = none) ∧
      sl.tick.occupant.map Running.op = sl.occupant.map Running.op := by
    intro sl; cases h : sl.occupant <;> simp [OpSlot.tick, h]
  have hheld : ∀ x, x ∈ l.tick.held ↔ x ∈ l.held := by
    intro x
    simp only [mem_held, StoreLink.tick, List.mem_map, exists_exists_and_eq_and, (hocc _).2]
  refine ⟨by simp [StoreLink.tick, h1], fun ho => ?_, fun ho => ?_⟩
  · obtain ⟨a, b⟩ := h2 ho
    refine ⟨fun hw sl hsl => ?_, fun op hop => b op ((hheld op).1 hop)⟩
    simp only [StoreLink.tick, List.mem_map] at hsl
    obtain ⟨y, hy, rfl⟩ := hsl
    exact fun e => a hw y hy ((hocc y).1.1 e)
  · obtain ⟨a, b, c⟩ := h3 ho
    refine ⟨a, fun sl hsl => ?_, fun op hop => c op ((hheld op).1 hop)⟩
    simp only [StoreLink.tick, ← List.map_tail, List.mem_map] at hsl
    obtain ⟨y, hy, rfl⟩ := hsl
    exact (hocc y).1.2 (b y hy)

/-- What a link that is not ONLINE and holds a PROBE or nothing, only in its first slot, keeps to. -/
theorem Sound.first {l m : StoreLink} (h : l.Sound) (ho : l.state ≠ .online) (hs : m.slots = l.slots.modify 0 f)
    (hw : m.waiting = []) (hm : m.state ≠ .online)
    (hf : ∀ sl : OpSlot, (f sl).occupant = none ∨ m.state = .offline ∧
        (f sl).occupant.map Running.op = some .probe)  : m.Sound := by
  obtain ⟨h1, _, h3⟩ := h
  obtain ⟨a, b, c⟩ := h3 ho
  cases hl : l.slots with
  | nil => simp [hl] at h1
  | cons x xs =>
    rw [hl] at hs b h1
    simp only [List.modify_zero_cons, List.tail_cons] at hs b
    refine ⟨by simpa [hs] using h1, fun e => absurd e hm, fun _ => ⟨hw, by simpa [hs] using b, ?_⟩⟩
    intro op hop
    rw [mem_held, hs, hw] at hop
    simp only [List.mem_cons, exists_eq_or_imp, List.not_mem_nil, or_false] at hop
    rcases hop with hop | ⟨sl, hsl, hop⟩
    · rcases hf x with e | ⟨e1, e2⟩
      · rw [e] at hop; cases hop
      · rw [e2] at hop; cases hop; exact ⟨e1, rfl⟩
    · rw [b sl hsl] at hop; cases hop

/-- A PROBE goes out in slot 0 (R78). -/
theorem Sound.probe {l : StoreLink} (h : l.Sound) (ho : l.state = .offline) : l.probe.Sound := by
  have hw := (h.2.2 (by simp [ho])).1
  unfold StoreLink.probe
  dsimp only
  split <;> exact h.first (by simp [ho]) rfl hw (by simp [occupy, ho]) fun sl => .inr ⟨ho, rfl⟩

/-- An answered PROBE leaves its slot (R78). -/
theorem Sound.answered {l : StoreLink} (h : l.Sound) (ho : l.state = .offline) (n : Nat) :
    StoreLink.Sound { l.vacate 0 with goodProbes := n } := by
  exact h.first (f := fun sl => { sl with occupant := none }) (by simp [ho]) rfl (h.2.2 (by simp [ho])).1 (by simp [vacate, ho])
    fun sl => .inl rfl

/-- With every slot empty the link may be RECOVERED or ONLINE (R79, R80). -/
theorem Sound.up {l m : StoreLink} (h : l.Sound) (ho : l.state ≠ .online) (he : ∀ sl ∈ l.slots, sl.occupant = none)
    (hs : m.slots = l.slots) (hw : m.waiting = l.waiting) : m.Sound := by
  have hw' := (h.2.2 ho).1
  have hh : ∀ op, op ∉ m.held := by
    intro op hop
    rw [mem_held, hs, hw, hw'] at hop
    rcases hop with ⟨sl, hsl, e⟩ | hop
    · rw [he sl hsl] at e; cases e
    · cases hop
  refine ⟨by rw [hs]; exact h.1, fun _ => ⟨fun hne => absurd (hw.trans hw') hne, fun op hop => absurd hop (hh op)⟩, fun _ =>
    ⟨hw.trans hw', fun sl hsl => he sl (hs ▸ List.mem_of_mem_tail hsl), fun op hop => absurd hop (hh op)⟩⟩

theorem Sound.empty {l : StoreLink} (h : l.Sound) (ho : l.state = .recovered) : ∀ sl ∈ l.slots, sl.occupant = none := by
  intro sl hsl
  obtain ⟨_, _, h3⟩ := h.2.2 (by simp [ho])
  cases e : sl.occupant with
  | none => rfl
  | some r =>
    have := (h3 r.op (mem_held.2 (.inl ⟨sl, hsl, by simp [e]⟩))).1
    rw [ho] at this; cases this

/-- An owner's operation runs only while the link is ONLINE. -/
theorem Sound.online_of {l : StoreLink} (h : l.Sound) {op : Op} (hop : op ∈ l.held) (hp : op ≠ .probe) : l.state = .online := by
  by_contra hne
  exact hp ((h.2.2 hne).2.2 op hop).2

theorem answered_held {l : StoreLink} {at_ : SlotTag} {fits : Op → Bool} {op : Op} (h : l.answered? at_ fits = some op) :
    op ∈ l.held ∧ fits op = true := by
  simp only [StoreLink.answered?, Option.bind_eq_some_iff] at h
  obtain ⟨sl, hsl, h⟩ := h
  simp only [Option.filter_eq_some_iff, Bool.and_eq_true] at h
  exact ⟨mem_held.2 (.inl ⟨sl, List.mem_of_getElem? hsl, h.1⟩), h.2.2⟩

end StoreLink

/-! ### The recall table -/

theorem table_set_none {v : VolumeUnit} (h : v.TableSound) (i : Nat) :
    (v.table.set i none).length = 16 ∧ ((v.table.set i none).filterMap (Option.map RecallSlot.name)).Nodup := by
  refine ⟨by simpa using h.1, h.2.sublist ?_⟩
  have : ∀ (l : List (Option RecallSlot)) (i : Nat),
      ((l.set i none).filterMap (Option.map RecallSlot.name)).Sublist (l.filterMap (Option.map RecallSlot.name)) := by
    intro l
    induction l with
    | nil => intro i; simp
    | cons x xs ih =>
      intro i
      cases i with
      | zero => cases x <;> simp
      | succ i => cases x <;> simp [ih]
  exact this _ _

/-- A slot takes a key that no slot holds, or keeps its own. -/
theorem table_set_some {v : VolumeUnit} (h : v.TableSound) (i : Nat) (r : RecallSlot)
    (hk : (v.slot? i).map RecallSlot.name = some r.name ∨ v.holding r.volume r.key = none) :
    (v.table.set i (some r)).length = 16 ∧ ((v.table.set i (some r)).filterMap (Option.map RecallSlot.name)).Nodup := by
  refine ⟨by simpa using h.1, ?_⟩
  have hset : ∀ (l : List (Option RecallSlot)) (i : Nat), (l.filterMap (Option.map RecallSlot.name)).Nodup →
      (l[i]?.join.map RecallSlot.name = some r.name ∨ r.name ∉ l.filterMap (Option.map RecallSlot.name)) →
      ((l.set i (some r)).filterMap (Option.map RecallSlot.name)).Nodup := by
    intro l
    induction l with
    | nil => intro i hn _; simp
    | cons x xs ih =>
      intro i hn hk
      cases i with
      | zero =>
        cases x with
        | none =>
          simp only [List.set_cons_zero, List.filterMap_cons, Option.map_none, Option.map_some] at hn hk ⊢
          refine List.nodup_cons.2 ⟨?_, hn⟩
          rcases hk with hk | hk
          · simp at hk
          · exact hk
        | some y =>
          simp only [List.set_cons_zero, List.filterMap_cons, Option.map_some, List.nodup_cons] at hn hk ⊢
          rcases hk with hk | hk
          · simp at hk; rw [← hk]; exact hn
          · exact ⟨fun hm => hk (List.mem_cons_of_mem _ hm), hn.2⟩
      | succ i =>
        cases x with
        | none => simpa using ih i (by simpa using hn) (by simpa using hk)
        | some y =>
          simp only [List.set_cons_succ, List.filterMap_cons, Option.map_some, List.nodup_cons, List.getElem?_cons_succ,
            List.mem_cons, not_or] at hn hk ⊢
          refine ⟨?_, ih i hn.2 (hk.imp id And.right)⟩
          intro hm
          simp only [List.mem_filterMap, Option.map_eq_some_iff] at hm
          obtain ⟨z, hz, w, rfl, hw⟩ := hm
          rcases List.mem_or_eq_of_mem_set hz with hz | hz
          · exact hn.1 (List.mem_filterMap.2 ⟨some w, hz, by simp [hw]⟩)
          · cases hz
            rcases hk with hk | hk
            · cases hj : xs[i]? with
              | none => simp [hj] at hk
              | some z =>
                cases z with
                | none => simp [hj] at hk
                | some u =>
                  simp [hj] at hk
                  exact hn.1 (List.mem_filterMap.2 ⟨some u, List.mem_of_getElem? hj, by simp [hk, hw]⟩)
            · exact hk.1 hw
  refine hset _ _ h.2 (hk.imp id fun hk => ?_)
  intro hm
  simp only [List.mem_filterMap, Option.map_eq_some_iff] at hm
  obtain ⟨z, hz, w, rfl, hw⟩ := hm
  simp only [VolumeUnit.holding, List.findIdx?_eq_none_iff] at hk
  have := hk _ hz
  simp only [RecallSlot.name, Prod.mk.injEq] at hw
  simp [hw.1, hw.2] at this

/-- Slots changed one by one, keeping their keys. -/
theorem table_map {v w : VolumeUnit} (h : v.TableSound)
    (hn : w.table.map (Option.map RecallSlot.name) = v.table.map (Option.map RecallSlot.name)) : w.TableSound := by
  refine ⟨?_, ?_⟩
  · have := congrArg List.length hn
    simp only [List.length_map] at this
    rw [this]; exact h.1
  · have := congrArg (List.filterMap id) hn
    simp only [List.filterMap_map, Function.id_comp] at this
    rw [this]; exact h.2

theorem names_modify {l : List (Option RecallSlot)} {i : Nat} {f : RecallSlot → RecallSlot} (hf : ∀ r, (f r).name = r.name) :
    (l.modify i (Option.map f)).map (Option.map RecallSlot.name) = l.map (Option.map RecallSlot.name) := by
  apply List.ext_getElem?
  intro k
  simp only [List.getElem?_map, List.getElem?_modify]
  split
  · cases l[k]? with
    | none => rfl
    | some x => cases x <;> simp [hf]
  · simp

/-! ### The tone stretch's points -/

theorem firstValue_le (test : Nat → Bool) : ∀ (l : List Nat) (v cum : Nat), firstValue test l v cum ≤ v + l.length
  | [], v, cum => by simp [firstValue]
  | h :: l, v, cum => by
    simp only [firstValue]
    split
    · simp
    · have := firstValue_le test l (v + 1) (cum + h); simp at this ⊢; omega

/-- Where the whole count meets the test, the value found lies on the list. -/
theorem firstValue_lt (test : Nat → Bool) : ∀ (l : List Nat) (v cum : Nat), l ≠ [] → test (cum + l.sum) = true →
    firstValue test l v cum < v + l.length
  | h :: l, v, cum, _, ht => by
    simp only [firstValue]
    split
    · simp
    · next hf =>
      cases l with
      | nil => simp at ht; exact absurd ht hf
      | cons x xs =>
        have := firstValue_lt test (x :: xs) (v + 1) (cum + h) (by simp) (by simpa [Nat.add_assoc] using ht)
        simp only [List.length_cons] at this ⊢
        omega

theorem pointsOf_fits {hist : List Nat} {low high span : Nat} (hl : hist.length ≤ 256) (h8 : 8 ≤ span) (hs : span ≤ 128)
    (hh : high ≤ 1000) : levelFits 1 (some (pointsOf hist low high span)) = true := by
  have hw : firstValue (fun c => decide (hist.sum * high ≤ c * 1000)) hist 0 0 ≤ 255 := by
    by_cases he : hist = []
    · subst he; simp [firstValue]
    · have := firstValue_lt (fun c => decide (hist.sum * high ≤ c * 1000)) hist 0 0 he (by
        simp only [Nat.zero_add, decide_eq_true_eq]
        exact Nat.mul_le_mul_left _ hh)
      omega
  have key : ∀ b w : Nat, w ≤ 255 → levelFits 1 (some (if span ≤ w - b then ⟨b, w⟩ else if 255 < b + span then ⟨255 - span, 255⟩
      else ⟨b, b + span⟩)) = true := by
    intro b w hw
    split
    · simp [levelFits]; omega
    · split <;> simp [levelFits] <;> omega
  exact key _ _ hw

theorem histogramOf_length (body : List U8) : (histogramOf body).length = 256 := by
  unfold histogramOf
  have : ∀ (l : List U8) (h : List Nat), (l.foldl (fun h x => h.modify x.toNat (· + 1)) h).length = h.length := by
    intro l
    induction l with
    | nil => intro h; rfl
    | cons x xs ih => intro h; rw [List.foldl_cons, ih]; simp
  rw [this, List.length_replicate]

end Sys2Proof.Machine
end

