-- ==== Sys2Proof/Laws/Tables.lean ====
section
/-! SUPPORT. The tables within a change: every shared operation and every consequence keeps what the rules state of the catalogue,
the store link, the seal queue, the recall table and the jobs. -/

namespace Sys2Proof.Machine

set_option Elab.async false

/-- A consequence that may stand open: the index that a completion returns keeps to its ranges. -/
def Task.fits : Task → Prop
  | .complete _ (.ok (.index x)) => x.wellFormed = true
  | _ => True

/-- What the rules state of the tables, within a change. -/
structure State.TablesFit (s : State) : Prop where
  cat : s.cat.Sound
  queue : s.cat.Queued s.vol.sealQueue
  link : s.link.Sound
  table : s.vol.TableSound
  eng : s.eng.Sound
  reload : s.cat.reloading = true → s.req.mode = .setup ∧ s.cat.isEmpty = true
  agenda : ∀ t ∈ s.agenda, t.fits

theorem State.tables_iff (s : State) : s.Tables ↔ s.agenda = [] ∧ s.TablesFit := by
  rw [State.Tables, s.sealQueueSound_iff]
  constructor
  · rintro ⟨h1, h2, h3, h4, h5, h6, h7⟩
    exact ⟨h1, h2, h4, h3, h5, h6, h7, by simp [h1]⟩
  · rintro ⟨h1, h2, h3, h4, h5, h6, h7, _⟩
    exact ⟨h1, h2, h4, h3, h5, h6, h7⟩

namespace Catalogue

theorem isEmpty_iff {c : Catalogue} : c.isEmpty = true ↔ (∀ e ∈ c.editions, e = none) ∧ c.pages = [] ∧ c.photos = [] := by
  simp [isEmpty, and_assoc]

theorem isEmpty_withEdition {c : Catalogue} {slot : Nat} {f : Edition → Edition} (h : c.isEmpty = true) :
    (c.withEdition slot f).isEmpty = true := by
  rw [isEmpty_iff] at h ⊢
  refine ⟨fun e he => ?_, h.2⟩
  rcases StoreLink.mem_modify he with he | ⟨y, hy, rfl⟩
  · exact h.1 e he
  · rw [h.1 y hy]; rfl

theorem isEmpty_records {c : Catalogue} (f : Page → Page) (g : Photo → Photo) (h : c.isEmpty = true) :
    Catalogue.isEmpty { c with pages := c.pages.map f, photos := c.photos.map g } = true := by
  rw [isEmpty_iff] at h ⊢
  exact ⟨h.1, by simp [h.2.1], by simp [h.2.2]⟩

theorem isEmpty_edition {c : Catalogue} {slot : Nat} (h : c.isEmpty = true) : c.edition? slot = none := by
  cases he : c.edition? slot with
  | none => rfl
  | some e =>
    have := (isEmpty_iff.1 h).1 _ (edition?_mem he)
    cases this

end Catalogue

namespace State.TablesFit

variable {s t : State}

/-- A state whose tables are the same. -/
theorem same (h : s.TablesFit) (hc : t.cat = s.cat := by rfl) (hq : t.vol.sealQueue = s.vol.sealQueue := by rfl)
    (hl : t.link = s.link := by rfl) (ht : t.vol.table = s.vol.table := by rfl) (hj : t.eng.jobs = s.eng.jobs := by rfl)
    (hh : t.eng.histogram = s.eng.histogram := by rfl) (hm : t.req.mode = s.req.mode := by rfl)
    (ha : t.agenda = s.agenda := by rfl) (hn : t.eng.nextJob = s.eng.nextJob := by rfl)
    (hf : t.eng.finished = s.eng.finished := by rfl) : t.TablesFit := by
  obtain ⟨h1, h2, h3, h4, h5, h6, h7⟩ := h
  refine ⟨by rwa [hc], by rwa [hc, hq], by rwa [hl], ?_, ?_, by rwa [hc, hm], by rwa [ha]⟩
  · rwa [VolumeUnit.TableSound, ht]
  · rwa [Engine.Sound, Engine.Numbered, hh, hj, hn, hf]

theorem withLink (h : s.TablesFit) {l : StoreLink} (hl : l.Sound) : State.TablesFit { s with link := l } :=
  ⟨h.1, h.2, hl, h.4, h.5, h.6, h.7⟩

theorem withVol (h : s.TablesFit) {v : VolumeUnit} (hv : v.TableSound) (hq : s.cat.Queued v.sealQueue := by exact h.queue) :
    State.TablesFit { s with vol := v } := ⟨h.1, hq, h.3, hv, h.5, h.6, h.7⟩

theorem push (h : s.TablesFit) {x : Task} (hx : x.fits := by trivial) : (s.push x).TablesFit :=
  ⟨h.1, h.2, h.3, h.4, h.5, h.6, fun t ht => by
    simp only [State.push, List.mem_append, List.mem_singleton] at ht
    rcases ht with ht | rfl
    · exact h.7 t ht
    · exact hx⟩

theorem latch (h : s.TablesFit) (e : Event) : (s.latch e).TablesFit := h.same
theorem withOrder (h : s.TablesFit) (n : Nat) (f : Order → Order) : (s.withOrder n f).TablesFit := h.same
theorem withAccount (h : s.TablesFit) (n : Nat) (f : Account → Account) : (s.withAccount n f).TablesFit := h.same
theorem answer (h : s.TablesFit) (k g : U8) (c : Code) (l : List U8) : (s.answer k g c l).TablesFit := h.same
theorem refuse (h : s.TablesFit) (k g : U8) (c : Code) : (s.refuse k g c).TablesFit := h.same

theorem foldl {α : Type} {f : State → α → State} (hf : ∀ s x, s.TablesFit → (f s x).TablesFit) :
    ∀ (l : List α) {s : State}, s.TablesFit → (l.foldl f s).TablesFit
  | [], _, h => h
  | x :: l, s, h => foldl hf l (hf s x h)

/-! ### The catalogue -/

theorem withCat (h : s.TablesFit) {f : Catalogue → Catalogue} (hs : (f s.cat).Sound) (hq : (f s.cat).Queued s.vol.sealQueue)
    (hr : (f s.cat).reloading = true → s.cat.reloading = true := by exact id)
    (he : s.cat.isEmpty = true → (f s.cat).isEmpty = true) : (s.withCat f).TablesFit :=
  ⟨hs, hq, h.3, h.4, h.5, fun hl => ⟨(h.6 (hr hl)).1, he (h.6 (hr hl)).2⟩, h.7⟩

/-- An edition changed, its key and its state as they were. -/
theorem withEdition (h : s.TablesFit) (slot : Nat) {f : Edition → Edition} (hk : ∀ e, (f e).key = e.key := by exact fun _ => rfl)
    (hst : ∀ e, (f e).state = e.state := by exact fun _ => rfl)
    (hs : ∀ e, s.cat.edition? slot = some e → e.Sound → (f e).Sound) :
    (s.withCat fun c => c.withEdition slot f).TablesFit :=
  h.withCat (h.cat.withEdition hk fun e he => hs e he (h.cat.editionSound he)) (h.queue.withEdition fun e _ => hst e) id
    Catalogue.isEmpty_withEdition

theorem withPage (h : s.TablesFit) (slot number version : Nat) {f : Page → Page}
    (hf : ∀ p ∈ s.cat.pages, p.key = (slot, number, version) → s.cat.PageSound p → (f p).key = p.key ∧
      (f p).placements = p.placements ∧ ((f p).state = .filed ↔ p.state = .filed) ∧ (f p).superseded = p.superseded ∧
      restoredFits (f p).level (f p).points (f p).raw (f p).current = true) :
    (s.withCat fun c => c.withPage slot number version f).TablesFit :=
  h.withCat (h.cat.withPage hf) (h.queue.congr rfl) id fun he => by
    rw [Catalogue.isEmpty_iff] at he ⊢
    exact ⟨he.1, by simp [Catalogue.withPage, he.2.1], he.2.2⟩

theorem withPhoto (h : s.TablesFit) (n : U32) {f : Photo → Photo}
    (hf : ∀ p ∈ s.cat.photos, p.number = n → s.cat.PhotoSound p → (f p).number = p.number ∧ (f p).refs = p.refs ∧
      (p.state = .filed → (f p).state = .filed) ∧ restoredFits (f p).level (f p).points (f p).raw (f p).current = true) :
    (s.withCat fun c => c.withPhoto n f).TablesFit :=
  h.withCat (h.cat.withPhoto hf) (h.queue.congr rfl) id fun he => by
    rw [Catalogue.isEmpty_iff] at he ⊢
    exact ⟨he.1, he.2.1, by simp [Catalogue.withPhoto, he.2.2]⟩

theorem pinPhoto (h : s.TablesFit) (n : U32) : (s.pinPhoto n).TablesFit :=
  h.withPhoto n fun _ _ _ hs => ⟨rfl, rfl, id, hs.2⟩

theorem unpinPhoto (h : s.TablesFit) (n : U32) : (s.unpinPhoto n).TablesFit :=
  h.withPhoto n fun _ _ _ hs => ⟨rfl, rfl, id, hs.2⟩

theorem pinEdition (h : s.TablesFit) (slot : Nat) : (s.pinEdition slot).TablesFit :=
  h.withEdition slot (hs := fun _ _ hs => ⟨hs.1, fun hd => ⟨(hs.2 hd).1, Nat.succ_pos _⟩⟩)

/-- A CLOSED edition joins the seal queue. -/
theorem enqueueSeal (h : s.TablesFit) {slot : Nat} (hc : s.cat.stateOf slot = some .closed) : (s.enqueueSeal slot).TablesFit := by
  unfold State.enqueueSeal
  split
  · exact h
  · next hn =>
    have hn : slot ∉ s.vol.sealQueue := by simpa using hn
    refine push (x := .sealTest) (h.withVol (v := { s.vol with sealQueue := s.vol.sealQueue ++ [slot] }) h.table ?_) trivial
    obtain ⟨q1, q2, q3⟩ := h.queue
    refine ⟨List.nodup_append.2 ⟨q1, by simp, ?_⟩, ?_, ?_⟩
    · intro a ha b hb
      simp only [List.mem_singleton] at hb
      rintro rfl
      exact hn (hb ▸ ha)
    · intro x hx
      simp only [List.mem_append, List.mem_singleton] at hx
      rcases hx with hx | rfl
      · exact q2 x hx
      · exact .inl hc
    · intro x hx
      have := q3 x hx
      cases hq : s.vol.sealQueue with
      | nil => rw [hq] at this; cases this
      | cons a l => rw [hq] at this; simpa using this

theorem enqueueSeal_cat (s : State) (slot : Nat) : (s.enqueueSeal slot).cat = s.cat := by
  unfold State.enqueueSeal; split <;> rfl

theorem unpinEdition (h : s.TablesFit) (slot : Nat) : (s.unpinEdition slot).TablesFit := by
  unfold State.unpinEdition
  split
  · exact h
  · next e he =>
    split
    · next hd =>
      simp only [Bool.and_eq_true, decide_eq_true_eq] at hd
      refine enqueueSeal (h.withEdition slot (f := fun e => { e with pins := e.pins - 1, due := false }) (hs := ?_)) ?_
      · intro x hx hs
        exact ⟨hs.1, nofun⟩
      · show (s.cat.withEdition slot _).stateOf slot = _
        rw [Catalogue.stateOf_withEdition, if_pos rfl, he]
        exact congrArg some ((h.cat.editionSound he).2 hd.2).1
    · next hd =>
      simp only [Bool.and_eq_true, decide_eq_true_eq, not_and] at hd
      refine h.withEdition slot (hs := ?_)
      intro x hx hs
      rw [he] at hx; cases hx
      exact ⟨hs.1, fun hdue => ⟨(hs.2 hdue).1, by
        have : ¬ e.pins ≤ 1 := fun hp => hd hp hdue
        show 0 < e.pins - 1
        omega⟩⟩

/-! ### The store link -/

theorem handOff (h : s.TablesFit) {op : Op} (hop : op ≠ .probe := by exact nofun) : (s.handOff op).TablesFit := by
  unfold State.handOff
  split
  · next ho =>
    split
    · exact h.withLink h.link
    · exact h.withLink (h.link.accept ho hop)
  · exact h.push
  · exact h.push

theorem goOffline (h : s.TablesFit) (i : Nat) (op : Op) {c : Completion} (hc : (Task.complete op c).fits) :
    (s.goOffline i op c).TablesFit := by
  unfold State.goOffline
  refine foldl (fun s o h => h.push) _ (push (x := .complete op c) ?_ hc)
  refine latch (h.withLink ?_) _
  have := h.link.down Config.failureLimit 0 0 s.link.dropped (some Config.probeTicks)
  have e : (s.link.vacate i).slots.map (fun sl => (⟨sl.issue, none⟩ : OpSlot)) = s.link.slots.map fun sl => ⟨sl.issue, none⟩ := by
    apply List.ext_getElem?
    intro k
    simp only [StoreLink.vacate, List.getElem?_map, List.getElem?_modify]
    split
    · cases s.link.slots[k]? <;> rfl
    · simp
  rw [← e] at this
  exact this

/-- An owner's operation completes, while the link is ONLINE. -/
theorem completeSlot (h : s.TablesFit) (ho : s.link.state = .online) (i : Nat) (op : Op) {c : Completion} (f : Bool)
    (hc : (Task.complete op c).fits) : (s.completeSlot i op c f).TablesFit := by
  unfold State.completeSlot
  split
  · exact h.goOffline i op hc
  · exact push (h.withLink (h.link.passed ho i _ _)) hc

/-! ### The staging pool -/

theorem give (h : s.TablesFit) (x : Holder) (n : Nat) : (s.give x n).TablesFit := h.same

theorem release (h : s.TablesFit) (x : Holder) : (s.release x).TablesFit := by
  unfold State.release
  split
  · exact h
  · exact push h.same

theorem removeClaim (h : s.TablesFit) (x : Holder) : (s.removeClaim x).TablesFit := by
  unfold State.removeClaim
  dsimp only
  repeat' split
  · exact push h.same
  · exact h.same
  · exact h.same

/-! ### The recall table -/

/-- A slot changed, its key as it was. -/
theorem withRecall (h : s.TablesFit) (i : Nat) {f : RecallSlot → RecallSlot} (hf : ∀ r,
    (f r).name = r.name := by exact fun _ => rfl) :
    (s.withRecall i f).TablesFit :=
  h.withVol (table_map h.4 (names_modify hf))

theorem pinSlot (h : s.TablesFit) (r : Requester) (i : Nat) : (s.pinSlot r i).TablesFit := by
  have := (h.withRecall i (f := fun x => { x with pinners := x.pinners ++ [r] }))
  unfold State.pinSlot
  dsimp only
  split
  · exact push this.same
  · exact this.same

theorem fetch (h : s.TablesFit) (i : Nat) {w : RecallWaiter} (hn : s.vol.holding w.volume w.key = none) :
    (s.fetch i w).TablesFit :=
  handOff (op := .readEntry i w.volume w.key)
    (h.withVol (table_set_some h.4 i ⟨w.volume, w.key, [w.requester], none⟩ (.inr hn))) nofun

theorem tryServe (h : s.TablesFit) {w : RecallWaiter} (ht : s.tryServe w = some t) : t.TablesFit := by
  unfold State.tryServe at ht
  repeat' split at ht
  · cases ht; exact h.pinSlot _ _
  · next hn _ _ _ => cases ht; exact h.fetch _ hn
  · cases ht; exact fetch (s := { s with vol := _ }) h.same _ (by assumption)
  · cases ht

theorem joinRecallWait (h : s.TablesFit) (w : RecallWaiter) : (s.joinRecallWait w).TablesFit := h.same

theorem requestRecall (h : s.TablesFit) (w : RecallWaiter) : (s.requestRecall w).TablesFit := by
  unfold State.requestRecall
  repeat' split
  · exact h.same
  · next t ht => exact h.tryServe ht
  · exact h.same

theorem joinSameKey (h : s.TablesFit) (v : U32) (k : EntryKey) : (s.joinSameKey v k).TablesFit := by
  unfold State.joinSameKey
  split
  · exact h
  · exact foldl (fun s w h => h.pinSlot _ _) _ h.same

theorem serveRecall : ∀ (n : Nat) {s : State}, s.TablesFit → (State.serveRecall n s).TablesFit
  | 0, _, h => h
  | n + 1, s, h => by
    unfold State.serveRecall
    repeat' split
    · exact h
    · exact h
    · next t ht => exact serveRecall n ((tryServe h.same ht).joinSameKey _ _)

theorem unpinned (h : s.TablesFit) (i : Nat) : (s.unpinned i).TablesFit := push h.same

theorem releaseSlot (h : s.TablesFit) (r : Requester) : (s.releaseSlot r).TablesFit := by
  unfold State.releaseSlot
  split
  · exact h
  · next i _ =>
    have := h.withRecall i (f := fun x => { x with pinners := x.pinners.filter fun q => q != r })
    dsimp only
    repeat' split
    · exact this.unpinned _
    · exact this
    · exact this

theorem leaveRecallWait (h : s.TablesFit) (r : Requester) : (s.leaveRecallWait r).TablesFit := by
  unfold State.leaveRecallWait
  dsimp only
  repeat' split
  · exact push h.same
  · exact h.same
  · exact h.same

theorem releaseRecall (h : s.TablesFit) (r : Requester) : (s.releaseRecall r).TablesFit :=
  (h.leaveRecallWait r).releaseSlot r

/-! ### The engine -/

theorem withEng (h : s.TablesFit) {e : Engine} (he : e.Sound) : State.TablesFit { s with eng := e } :=
  ⟨h.1, h.2, h.3, h.4, he, h.6, h.7⟩

/-- A job changed, its number and its parameters as they were, and WRITING only with points that fit. -/
theorem withJob (h : s.TablesFit) (n : Nat) {f : Job → Job}
    (hf : ∀ j, j.Sound → (f j).Sound) (hk : ∀ j, (f j).number = j.number := by exact fun _ => rfl) :
    (s.withJob n f).TablesFit := by
  refine h.withEng ⟨h.eng.1, fun j hj => ?_, h.eng.2.2.map fun j => ?_⟩
  · simp only [List.mem_map] at hj
    obtain ⟨k, hk, rfl⟩ := hj
    split
    · exact hf k (h.eng.2.1 k hk)
    · exact h.eng.2.1 k hk
  · split
    · exact hk j
    · rfl

theorem grant (h : s.TablesFit) (c : Claim) : (s.grant c).TablesFit := by
  have hg := h.give c.owner c.need
  unfold State.grant
  dsimp only
  repeat' split
  · exact hg
  · exact hg
  · exact hg
  · exact handOff (hg.withJob _ (f := fun j => { j with state := .survey }) fun j hj => ⟨hj.1, hj.2.1, hj.2.2.1, nofun⟩) nofun
  · exact hg
  · exact hg
  · exact handOff (hg.withOrder _ _) nofun

theorem placeClaim (h : s.TablesFit) (c : Claim) : (s.placeClaim c).TablesFit := by
  unfold State.placeClaim
  split
  · exact h.grant c
  · exact h.same

theorem regrant : ∀ (l : List Claim) {s : State}, s.TablesFit → (State.regrant l s).TablesFit
  | [], _, h => h
  | c :: rest, s, h => by
    unfold State.regrant
    split
    · exact regrant rest (grant h.same c)
    · exact h

/-! ### Orders -/

theorem forgetOrder (h : s.TablesFit) (o : Order) : (s.forgetOrder o).TablesFit := by
  refine ⟨h.1, h.2, h.3, h.4, ⟨h.5.1, fun j hj => ?_, h.eng.2.2.map fun _ => rfl⟩, h.6, h.7⟩
  simp only [State.forgetOrder, List.mem_map] at hj
  obtain ⟨k, hk, rfl⟩ := hj
  exact h.eng.2.1 k hk

theorem releasePins (h : s.TablesFit) (o : Order) : (s.releasePins o).TablesFit := by
  unfold State.releasePins
  dsimp only
  repeat' split
  · exact (h.unpinEdition _).unpinPhoto _
  · exact h.unpinPhoto _
  · exact h.unpinEdition _
  · exact h

theorem leaveTable (h : s.TablesFit) (n : Nat) (st : OrdState) (c : Code) : (s.leaveTable n st c).TablesFit := by
  unfold State.leaveTable
  split
  · exact h
  · exact (((((h.releasePins _).releaseRecall _).removeClaim _).release _).forgetOrder _).same

theorem endOrder (h : s.TablesFit) (n : Nat) (c : Code) : (s.endOrder n c).TablesFit := by
  unfold State.endOrder
  split
  · exact (h.leaveTable _ _ _).latch _
  · exact h

theorem priceOrder (h : s.TablesFit) (n : Nat) (b : Bool) : (s.priceOrder n b).TablesFit := by
  unfold State.priceOrder State.fundsStep State.charge State.holdForRights State.holdForRoom State.holdForFunds
    State.keepAtHead State.putOnHold
  dsimp only
  repeat' split
  all_goals first | exact h | exact h.same | exact h.endOrder _ _

theorem reevaluate : ∀ (l : List Nat) {s : State}, s.TablesFit → (State.reevaluate l s).1.TablesFit
  | [], _, h => h
  | n :: rest, s, h => by
    unfold State.reevaluate
    split
    · exact reevaluate rest h
    · exact reevaluate rest (priceOrder h.same n false)

theorem retryFunds (a : Nat) : ∀ (k : Nat) {s : State}, s.TablesFit → (State.retryFunds a k s).1.TablesFit
  | 0, _, h => h
  | k + 1, s, h => by
    unfold State.retryFunds
    split
    · dsimp only
      split
      · exact (h.withAccount a _).priceOrder _ _
      · exact retryFunds a k ((h.withAccount a _).priceOrder _ _)
    · exact h
    · exact h

theorem retryAccount (h : s.TablesFit) (a : Nat) : (s.retryAccount a).1.TablesFit := retryFunds a _ h

theorem retryRoom : ∀ (l : List Nat) {s : State}, s.TablesFit → (State.retryRoom l s).TablesFit
  | [], _, h => h
  | n :: rest, s, h => by
    unfold State.retryRoom
    exact retryRoom rest (priceOrder h.same n false)

theorem closeOpenStatement (h : s.TablesFit) (c : Nat) : (s.closeOpenStatement c).TablesFit := retryRoom _ h.same

end State.TablesFit

theorem Catalogue.sealing?_eq {c : Catalogue} {slot : Nat} {e : Edition} (h : c.sealing? slot = some e) :
    c.edition? slot = some e ∧ e.state = .sealing := by
  simp only [Catalogue.sealing?, Option.filter_eq_some_iff, beq_iff_eq] at h
  exact h

namespace State.TablesFit

variable {s t : State}

/-! ### Discards and jobs -/

theorem issueDiscard (h : s.TablesFit) (d : HeldDiscard) : (s.issueDiscard d).TablesFit := h.handOff nofun

theorem discard (h : s.TablesFit) (d : HeldDiscard) : (s.discard d).TablesFit := by
  unfold State.discard
  split
  · exact h.same
  · exact h.issueDiscard d

theorem releaseDiscards : ∀ (l : List HeldDiscard) {s : State}, s.TablesFit → (State.releaseDiscards l s).TablesFit
  | [], _, h => h
  | d :: rest, s, h => by
    unfold State.releaseDiscards
    split
    · exact releaseDiscards rest h
    · exact releaseDiscards rest (issueDiscard (s := { s with eng := _ }) h.same d)

theorem holdTarget (h : s.TablesFit) (n : Nat) (x : Target) : (s.holdTarget n x).TablesFit := by
  unfold State.holdTarget
  split
  · exact h.pinEdition _
  · exact h.pinPhoto _
  · exact h.requestRecall _

theorem createJob (h : s.TablesFit) (x : Target) {l hi sp : Nat} (c : Option Nat) (h8 : 8 ≤ sp) (hs : sp ≤ 128) (hh : hi ≤ 1000)
    (room : s.eng.jobs.length < 8) : (s.createJob x l hi sp c).TablesFit := by
  unfold State.createJob
  let j : Job := ⟨s.eng.nextJob, .queued, x, none, l, hi, sp, c, [], 0, 0, none, .pending, s.cat.editionOf x⟩
  have he : Engine.Sound { s.eng with jobs := s.eng.jobs ++ [j]
                                      nextJob := Engine.freeNumber { s.eng with jobs := s.eng.jobs ++ [j] } 17
                                        (nextNumber s.eng.nextJob) } := by
    refine ⟨h.eng.1, fun k hk => ?_, h.eng.2.2.create j rfl room⟩
    simp only [List.mem_append, List.mem_singleton] at hk
    rcases hk with hk | rfl
    · exact h.eng.2.1 k hk
    · exact ⟨h8, hs, hh, nofun⟩
  exact push (x := .startJob) (holdTarget (h.withEng he) _ _) trivial

theorem startJob (h : s.TablesFit) : s.startJob.TablesFit := by
  unfold State.startJob
  repeat' split
  · exact h
  · exact h
  · exact h
  · refine placeClaim (h.withJob _ ?_) _
    exact fun j hj => ⟨hj.1, hj.2.1, hj.2.2.1, nofun⟩

theorem releaseJob (h : s.TablesFit) (j : Job) : (s.releaseJob j).TablesFit := by
  have := (h.removeClaim (.job j.number)).release (.job j.number)
  unfold State.releaseJob
  dsimp only
  split
  · exact this.unpinEdition _
  · exact this.unpinPhoto _
  · exact this.releaseRecall _

theorem retireJob (h : s.TablesFit) {j : Job} (hj : j.number ∈ s.eng.jobs.map Job.number) (st : JobState) (c : Code) :
    (s.retireJob j st c).TablesFit := by
  refine h.withEng ⟨?_, fun k hk => h.eng.2.1 k (List.mem_of_mem_filter hk), h.eng.2.2.retire hj
    { j with state := st, outcome := c, target := s.resolvedTarget j } rfl⟩
  dsimp only
  split
  · simp
  · exact h.eng.1

theorem failJob (h : s.TablesFit) (n : Nat) (c : Code) : (s.failJob n c).TablesFit := by
  unfold State.failJob
  split
  · exact h
  · next j hj =>
    exact push (x := .startJob) (foldl (fun s o h => h.endOrder o c) _
      (((h.retireJob (job?_mem hj) _ _).releaseJob _).latch _)) trivial

theorem applyRestored (h : s.TablesFit) {j : Job} (hj : levelFits 1 j.points = true) (w : Written) :
    (s.applyRestored j w).TablesFit := by
  have hfit : ∀ raw current, restoredFits (min 3 (j.startLevel + 1)) j.points raw current = true := by
    intro raw current
    unfold levelFits at hj
    split at hj
    · cases hj
    · next p hp =>
      simp only [decide_eq_true_eq] at hj
      have h1 : min 3 (j.startLevel + 1) ≠ 0 := by omega
      simp only [restoredFits, levelFits, hp, Bool.and_eq_true, decide_eq_true_eq]
      exact ⟨by omega, by simp [h1]⟩
  unfold State.applyRestored
  dsimp only
  split
  · exact h.withPage _ _ _ fun p _ _ _ => ⟨rfl, rfl, Iff.rfl, rfl, hfit _ _⟩
  · exact h.withPhoto _ fun p _ _ _ => ⟨rfl, rfl, id, hfit _ _⟩
  · split
    · exact h
    · refine h.withVol (table_map h.table ?_)
      simp only [List.map_map]
      refine List.map_congr_left fun x _ => ?_
      cases x with
      | none => rfl
      | some y =>
        simp only [Function.comp, Option.map_some]
        split <;> rfl

theorem priceAfterJob (h : s.TablesFit) (n : Nat) : (s.priceAfterJob n).TablesFit := (h.withOrder _ _).priceOrder _ _

theorem finishJob (h : s.TablesFit) (n : Nat) (w : Written) : (s.finishJob n w).TablesFit := by
  unfold State.finishJob
  split
  · exact h
  · next j hj =>
    simp only [Option.filter_eq_some_iff, beq_iff_eq] at hj
    have hs := h.eng.2.1 j (List.mem_of_find?_eq_some hj.1)
    have h1 := foldl (fun s o h => h.priceAfterJob o) j.orders
      (((((h.applyRestored (hs.2.2.2 hj.2).2 w).retireJob (j := j) (by rw [State.eng_applyRestored]; exact job?_mem hj.1) .done
        .ok).releaseJob j).latch .restoreDone))
    dsimp only
    split
    · exact push (x := .startJob) (h1.discard _) trivial
    · exact push (x := .startJob) h1 trivial

theorem endMapping (h : s.TablesFit) {j : Job} (hj : j ∈ s.eng.jobs) : (s.endMapping j).TablesFit := by
  have hs := h.eng.2.1 j hj
  have h1 : State.TablesFit { s with
      pool := s.pool.putContent (.job j.number) ((s.pool.content (.job j.number)).map
        (stretch (pointsOf s.eng.histogram j.low j.high j.span)))
      eng := { s.eng with histogram := [] } } := by
    refine ⟨h.1, h.2, h.3, h.4, ⟨?_, h.eng.2.1, h.eng.2.2⟩, h.6, h.7⟩
    simp
  have hp := pointsOf_fits (low := j.low) h.eng.1 hs.1 hs.2.1 hs.2.2.1
  have h2 := h1.withJob j.number (f := fun k => { k with
      state := .writing, points := some (pointsOf s.eng.histogram j.low j.high j.span) }) fun k hk =>
    ⟨hk.1, hk.2.1, hk.2.2.1, fun _ => ⟨nofun, hp⟩⟩
  unfold State.endMapping
  dsimp only
  split
  · next op hop =>
    refine h2.handOff ?_
    rintro rfl
    unfold State.jobWrite? at hop
    dsimp only at hop
    split at hop <;> simp only [Option.map_eq_some_iff] at hop <;> obtain ⟨_, _, hop⟩ := hop <;> cases hop
  · exact h2

theorem joinJob (h : s.TablesFit) (n : Nat) (j : Job) : (s.joinJob n j).TablesFit :=
  withOrder (h.withJob _ (f := fun j => { j with joiners := j.joiners ++ [n] }) fun _ hj => hj) _ _

theorem createOrderJob (h : s.TablesFit) (n : Nat) (x : Target) : (s.createOrderJob n x).TablesFit := by
  unfold State.createOrderJob
  split
  · exact h.endOrder _ _
  · next hr => exact createJob (h.withOrder _ _) _ _ (by decide) (by decide) (by decide) (Nat.lt_of_not_le hr)

theorem restoreStep (h : s.TablesFit) (n : Nat) : (s.restoreStep n).TablesFit := by
  unfold State.restoreStep
  repeat' split
  · exact h
  · exact h.priceOrder _ _
  · exact h.joinJob _ _
  · exact h.createOrderJob _ _
  · exact h

theorem askRecall (h : s.TablesFit) (n : Nat) : (s.askRecall n).TablesFit := by
  unfold State.askRecall
  split
  · exact h
  · exact (h.withOrder _ _).requestRecall _

theorem settleResident (h : s.TablesFit) (n slot : Nat) : (s.settleResident n slot).TablesFit := by
  unfold State.settleResident
  split
  · exact h
  · have := (h.pinEdition slot).withOrder n fun o => { o with pinEdition := some slot, pinPhoto := o.photo }
    dsimp only
    split
    · exact (this.pinPhoto _).restoreStep _
    · exact this.restoreStep _

theorem locateResident (h : s.TablesFit) (o : Order) : (s.locateResident o).TablesFit := by
  have hw : ∀ v, (s.withOrder o.number fun o => { o with resolved := some v }).TablesFit := fun v => h.withOrder _ _
  unfold State.locateResident
  repeat' split
  all_goals first
    | exact h.endOrder _ _
    | exact (hw _).settleResident _ _
    | exact h.same

theorem locate (h : s.TablesFit) (o : Order) : (s.locate o).TablesFit := by
  unfold State.locate
  split
  · exact h.locateResident o
  · exact h.askRecall _

theorem orderRecalled (h : s.TablesFit) (n i : Nat) : (s.orderRecalled n i).TablesFit := by
  unfold State.orderRecalled
  split
  · exact (h.withOrder _ _).restoreStep _
  · exact h

theorem jobRecalled (h : s.TablesFit) (n i : Nat) : (s.jobRecalled n i).TablesFit := by
  unfold State.jobRecalled
  split
  · exact h
  · have := h.withJob n (f := fun j => { j with recallSlot := some i }) fun _ hj => hj
    dsimp only
    repeat' split
    · exact h
    · exact this.failJob _ _
    · exact this.push
    · exact push (this.failJob _ _)
    · exact this.failJob _ _

theorem recallGiven (h : s.TablesFit) (r : Requester) (i : Nat) : (s.recallGiven r i).TablesFit := by
  cases r
  · exact h.orderRecalled _ _
  · exact h.jobRecalled _ _

theorem recallFailed (h : s.TablesFit) (r : Requester) (c : Code) : (s.recallFailed r c).TablesFit := by
  cases r
  · exact h.endOrder _ _
  · exact h.failJob _ _

/-! ### The seal queue -/

theorem pressureSeal (h : s.TablesFit) : s.pressureSeal.TablesFit := by
  unfold State.pressureSeal
  repeat' split
  · next x _ hx =>
    have hm : x ∈ sortBy closedBefore (s.cat.occupied.filter fun x => x.2.state == .closed && x.2.pins == 0) := by
      rw [hx]; simp
    rw [(sortBy_perm _ _).mem_iff, List.mem_filter] at hm
    refine h.enqueueSeal ?_
    simp only [Bool.and_eq_true, beq_iff_eq] at hm
    rw [Catalogue.stateOf, Catalogue.mem_occupied.1 hm.1]
    exact congrArg some hm.2.1
  · exact h
  · exact h

theorem retentionSweep (h : s.TablesFit) (today : Nat) : (s.retentionSweep today).TablesFit := by
  unfold State.retentionSweep
  have hdue : ∀ x ∈ s.cat.occupied.filter (s.isDue today), s.cat.edition? x.1 = some x.2 ∧ x.2.state = .closed := by
    intro x hx
    simp only [List.mem_filter, State.isDue, Bool.and_eq_true, beq_iff_eq] at hx
    exact ⟨Catalogue.mem_occupied.1 hx.1, hx.2.1.1⟩
  have mark : ∀ (l : List (Nat × Edition)) {u : State}, u.TablesFit →
      (∀ slot, u.cat.stateOf slot = s.cat.stateOf slot) → (∀ slot, (u.cat.edition? slot).map Edition.pins =
          (s.cat.edition? slot).map Edition.pins) →
      (∀ x ∈ l, s.cat.edition? x.1 = some x.2 ∧ x.2.state = .closed ∧ 0 < x.2.pins) →
      let v := l.foldl (fun t x => t.withCat fun c => c.withEdition x.1 fun e => { e with due := true }) u
      v.TablesFit ∧ ∀ slot, v.cat.stateOf slot = s.cat.stateOf slot := by
    intro l
    induction l with
    | nil => intro u hu h1 _ _; exact ⟨hu, h1⟩
    | cons x l ih =>
      intro u hu h1 h2 hl
      obtain ⟨e1, e2, e3⟩ := hl x (by simp)
      simp only [List.foldl_cons]
      refine ih (hu.withEdition x.1 (f := fun e => { e with due := true }) (hs := ?_)) ?_ ?_ fun y hy => hl y (by simp [hy])
      · intro e he hs
        have k1 := h1 x.1
        have k2 := h2 x.1
        simp only [Catalogue.stateOf, he, e1, Option.map_some, Option.some.injEq] at k1 k2
        exact ⟨hs.1, fun _ => ⟨k1.trans e2, by show 0 < e.pins; omega⟩⟩
      · intro slot
        rw [← h1 slot]
        show (u.cat.withEdition _ _).stateOf slot = _
        rw [Catalogue.stateOf_withEdition]
        split <;> rfl
      · intro slot
        rw [← h2 slot]
        show ((u.cat.withEdition _ _).edition? slot).map Edition.pins = _
        rw [Catalogue.edition?_withEdition]
        split
        · cases u.cat.edition? slot <;> rfl
        · rfl
  obtain ⟨h1, h2⟩ := mark ((s.cat.occupied.filter (s.isDue today)).filter fun x => decide (0 < x.2.pins)) h (fun _ => rfl)
      (fun _ => rfl)
    (by
      intro x hx
      simp only [List.mem_filter (p := fun x : Nat × Edition => decide (0 < x.2.pins)), decide_eq_true_eq] at hx
      exact ⟨(hdue x hx.1).1, (hdue x hx.1).2, hx.2⟩)
  have enq : ∀ (l : List (Nat × Edition)) {u : State}, u.TablesFit → (∀ slot, u.cat.stateOf slot = s.cat.stateOf slot) →
      (∀ x ∈ l, s.cat.edition? x.1 = some x.2 ∧ x.2.state = .closed) →
      (l.foldl (fun t x => t.enqueueSeal x.1) u).TablesFit := by
    intro l
    induction l with
    | nil => intro u hu _ _; exact hu
    | cons x l ih =>
      intro u hu h1 hl
      obtain ⟨e1, e2⟩ := hl x (by simp)
      simp only [List.foldl_cons]
      refine ih (hu.enqueueSeal ?_) ?_ fun y hy => hl y (by simp [hy])
      · rw [h1, Catalogue.stateOf, e1]; exact congrArg some e2
      · intro slot; rw [enqueueSeal_cat]; exact h1 slot
  refine enq _ h1 h2 ?_
  intro x hx
  rw [(sortBy_perm _ _).mem_iff] at hx
  exact hdue x (List.mem_of_mem_filter hx)

/-- No edition is SEALING where the head of the queue is not. -/
theorem not_sealing (h : s.TablesFit) {slot : Nat} {rest : List Nat} (hq : s.vol.sealQueue = slot :: rest) {e : Edition}
    (he : s.cat.edition? slot = some e) (hs : e.state ≠ .sealing) : e.state = .closed ∧ ∀ x, s.cat.stateOf x ≠ some .sealing := by
  obtain ⟨_, q2, q3⟩ := h.queue
  rw [hq] at q2 q3
  have hst : s.cat.stateOf slot = some e.state := by rw [Catalogue.stateOf, he]; rfl
  refine ⟨?_, ?_⟩
  · have := q2 slot (by simp)
    rw [hst] at this
    rcases this with h | h <;> simp only [Option.some.injEq] at h
    · exact h
    · exact absurd h hs
  · intro x hx
    have := q3 x hx
    simp only [List.head?_cons, Option.some.injEq] at this
    subst this
    rw [hst] at hx
    simp only [Option.some.injEq] at hx
    exact hs hx

theorem sealTest : ∀ (l : List Nat) {s : State}, s.TablesFit → s.vol.sealQueue = l → (State.sealTest l s).TablesFit
  | [], _, h, _ => h
  | slot :: rest, s, h, hq => by
    unfold State.sealTest
    split
    · exact h
    · next e he =>
      split
      · exact h
      · next hns =>
        simp only [Bool.or_eq_true, beq_iff_eq, not_or] at hns
        obtain ⟨hc, hno⟩ := h.not_sealing hq he hns.1.1
        obtain ⟨q1, q2, q3⟩ := h.queue
        rw [hq] at q1 q2 q3
        split
        · next hp =>
          refine sealTest rest (s := _) ?_ rfl
          refine withEdition (s := { s with vol := { s.vol with sealQueue := rest } }) ?_ slot (hs := ?_)
          · refine h.withVol (v := { s.vol with sealQueue := rest }) h.table ⟨(List.nodup_cons.1 q1).2, fun x hx => q2 x
              (by simp [hx]), fun x hx => absurd hx (hno x)⟩
          · intro x hx hs
            have hx : s.cat.edition? slot = some x := hx
            rw [he] at hx; cases hx
            exact ⟨hs.1, fun _ => ⟨hc, hp⟩⟩
        · next hp =>
          refine handOff (withCat h ?_ ?_ id Catalogue.isEmpty_withEdition) nofun
          · refine h.cat.withEdition (fun _ => rfl) ?_
            intro x hx
            rw [he] at hx; cases hx
            have hs := h.cat.editionSound he
            refine ⟨?_, ?_⟩
            · intro hd
              have := hs.1 hd
              rw [hc] at this; cases this
            · intro hd
              exact absurd (hs.2 hd).2 hp
          · rw [hq]
            refine ⟨q1, ?_, ?_⟩
            · intro x hx
              rw [Catalogue.stateOf_withEdition]
              split
              · next e1 => subst e1; rw [he]; exact .inr rfl
              · exact q2 x hx
            · intro x hx
              rw [Catalogue.stateOf_withEdition] at hx
              split at hx
              · next e1 => subst e1; rfl
              · exact absurd hx (hno x)

/-- The head of the queue leaves it with its seal: FREE, or CLOSED again. -/
theorem recordSeal (h : s.TablesFit) {slot : Nat} (hs : s.cat.stateOf slot = some .sealing) {c : Catalogue} (hc : c.Sound)
    (hst : ∀ x, x ≠ slot → c.stateOf x = s.cat.stateOf x) (hne : c.stateOf slot ≠ some .sealing)
    (hr : c.reloading = s.cat.reloading) (r : SealResult) :
    (State.recordSeal { s with cat := c } slot r).TablesFit := by
  obtain ⟨q1, q2, q3⟩ := h.queue
  refine ⟨hc, ⟨q1.filter _, ?_, ?_⟩, h.3, h.4, h.5, ?_, h.7⟩
  · intro x hx
    have hx : x ∈ s.vol.sealQueue.filter fun x => x != slot := hx
    simp only [List.mem_filter, bne_iff_ne, ne_eq] at hx
    show c.stateOf x = _ ∨ c.stateOf x = _
    rw [hst x hx.2]
    exact q2 x hx.1
  · intro x hx
    have hx : c.stateOf x = _ := hx
    by_cases hxs : x = slot
    · subst hxs; exact absurd hx hne
    · rw [hst x hxs] at hx
      have h1 := q3 x hx
      have h2 := q3 slot hs
      rw [h1] at h2
      exact absurd (Option.some.inj h2) hxs
  · intro hrel
    have := (h.6 (hr ▸ hrel)).2
    simp [Catalogue.stateOf, Catalogue.isEmpty_edition this] at hs

theorem sealDone (h : s.TablesFit) (slot : Nat) (v : U32) : (s.sealDone slot v).TablesFit := by
  unfold State.sealDone
  split
  · exact h
  · next e he =>
    obtain ⟨he, hst⟩ := Catalogue.sealing?_eq he
    have hlt : slot < s.cat.editions.length := by
      by_contra hge
      simp [Catalogue.edition?, List.getElem?_eq_none (not_lt.1 hge)] at he
    have hfree : ∀ x, (s.cat.freeEdition slot).edition? x = if slot = x then none else s.cat.edition? x := by
      intro x
      unfold Catalogue.freeEdition
      simp only [foldl_dropRefs]
      exact Catalogue.edition?_putEdition (c := { s.cat with pages := _, photos := _ }) hlt x none
    refine push (x := .sealTest) (foldl (fun s n h => (h.withOrder _ _).askRecall _) _ (latch (recordSeal
        (c := s.cat.freeEdition slot) h ?_ (h.cat.freeEdition slot) ?_ ?_ ?_ _) _)) trivial
    · rw [Catalogue.stateOf, he]; exact congrArg some hst
    · intro x hx
      rw [Catalogue.stateOf, hfree, if_neg (Ne.symm hx)]; rfl
    · rw [Catalogue.stateOf, hfree, if_pos rfl]; nofun
    · unfold Catalogue.freeEdition; simp only [foldl_dropRefs]; rfl

theorem sealFailed (h : s.TablesFit) (slot : Nat) (c : Code) : (s.sealFailed slot c).TablesFit := by
  unfold State.sealFailed
  split
  · exact h
  · next e he =>
    obtain ⟨he, hst⟩ := Catalogue.sealing?_eq he
    refine push (x := .sealTest) (foldl (fun s n h => h.settleResident _ _) _ (latch (recordSeal
      (c := s.cat.withEdition slot fun e => { e with state := .closed }) h ?_ (h.cat.withEdition
          (fun _ => rfl) ?_) ?_ ?_ rfl _) _)) trivial
    · rw [Catalogue.stateOf, he]; exact congrArg some hst
    · intro x hx
      rw [he] at hx; cases hx
      have hs := h.cat.editionSound he
      refine ⟨fun hd => ?_, fun hd => ⟨rfl, (hs.2 hd).2⟩⟩
      have := hs.1 hd
      rw [hst] at this; cases this
    · intro x hx
      rw [Catalogue.stateOf_withEdition, if_neg (Ne.symm hx)]
    · rw [Catalogue.stateOf_withEdition, if_pos rfl, he]; nofun

/-! ### Fetches -/

theorem mergeSlot (h : s.TablesFit) (i j : Nat) (x : RecallSlot) : (s.mergeSlot i j x).TablesFit :=
  push (x := .serveRecall) (foldl (fun s r h => h.pinSlot _ _) _ (h.withVol (table_set_none h.table i))) trivial

theorem fillSlot (h : s.TablesFit) {i : Nat} {x : RecallSlot} {key : EntryKey} (c : EntryCopy) (hx : s.vol.slot? i = some x)
    (hk : key = x.key ∨ s.vol.holding x.volume key = none) : (s.fillSlot i x key c).TablesFit := by
  have h1 := h.withVol (v := { s.vol with table := s.vol.table.set i (some { x with key := key, copy := some c }) })
    (table_set_some h.table i { x with key := key, copy := some c } (by
      rcases hk with rfl | hk
      · exact .inl (by rw [hx]; rfl)
      · exact .inr hk))
  unfold State.fillSlot
  dsimp only
  split
  · exact h1.unpinned _
  · exact foldl (fun s r h => h.push) _ h1

theorem fetchDone (h : s.TablesFit) (i : Nat) (c : EntryCopy) : (s.fetchDone i c).TablesFit := by
  unfold State.fetchDone
  split
  · exact h
  · next x hx =>
    dsimp only
    split
    · next hk => exact h.fillSlot c hx (.inl (by simpa using hk))
    · split
      · exact h.mergeSlot _ _ _
      · next hn => exact h.fillSlot c hx (.inr hn)

theorem fetchFailed (h : s.TablesFit) (i : Nat) (c : Code) : (s.fetchFailed i c).TablesFit := by
  unfold State.fetchFailed
  split
  · exact h
  · exact push (x := .serveRecall) (foldl (fun s r h => h.push) _ (h.withVol (table_set_none h.table i))) trivial

end State.TablesFit

theorem Catalogue.Sound.photo_unique {c : Catalogue} (h : c.Sound) {p q : Photo} (hp : p ∈ c.photos) (hq : q ∈ c.photos)
    (e : p.number = q.number) : p = q :=
  List.inj_on_of_nodup_map h.2.2.2.2.1 hp hq e

theorem Catalogue.Sound.page_unique {c : Catalogue} (h : c.Sound) {p q : Page} (hp : p ∈ c.pages) (hq : q ∈ c.pages)
    (e : p.key = q.key) : p = q :=
  List.inj_on_of_nodup_map h.2.2.2.1 hp hq e

theorem Catalogue.editions_failRecord (c : Catalogue) (r : RecId) (code : Code) :
    (c.failRecord r code).editions = c.editions ∧ (c.failRecord r code).reloading = c.reloading := by
  unfold failRecord
  repeat' split
  · exact ⟨rfl, rfl⟩
  · exact ⟨rfl, rfl⟩
  · exact ⟨rfl, rfl⟩

theorem Catalogue.isEmpty_failRecord {c : Catalogue} (r : RecId) (code : Code) (h : c.isEmpty = true) :
    (c.failRecord r code).isEmpty = true := by
  rw [isEmpty_iff] at h ⊢
  unfold failRecord
  repeat' split
  · exact h
  · exact ⟨h.1, by simp [withPage, dropRefs, h.2.1], by simp [withPage, dropRefs, h.2.2]⟩
  · exact ⟨h.1, h.2.1, by simp [withPhoto, h.2.2]⟩

theorem Catalogue.editions_fileRecord (c : Catalogue) (r : RecId) (w : Written) :
    (c.fileRecord r w).editions = c.editions ∧ (c.fileRecord r w).reloading = c.reloading := by
  unfold fileRecord supersede
  repeat' split
  all_goals exact ⟨rfl, rfl⟩

theorem Catalogue.isEmpty_fileRecord {c : Catalogue} (r : RecId) (w : Written) (h : c.isEmpty = true) :
    (c.fileRecord r w).isEmpty = true := by
  rw [isEmpty_iff] at h ⊢
  unfold fileRecord supersede
  repeat' split
  all_goals first
    | exact h
    | exact ⟨h.1, by simp [withPage, h.2.1], h.2.2⟩
    | exact ⟨h.1, h.2.1, by simp [withPhoto, h.2.2]⟩

namespace State.TablesFit

variable {s t : State}

theorem pushCloseTest (h : s.TablesFit) (r : RecId) : (s.pushCloseTest r).TablesFit := by
  cases r
  · exact h.push
  · exact h

theorem failFiling (h : s.TablesFit) (r : RecId) (code : Code) (w : Bool) : (s.failFiling r code w).TablesFit := by
  refine pushCloseTest (latch (release (withCat h ?_ ?_ ?_ ?_) _) _) _
  all_goals split
  · cases r with
    | page slot number version =>
      refine (h.cat.failRecord (.page slot number version) code).withEdition (fun _ => rfl) fun e he => ?_
      exact ((h.cat.failRecord (.page slot number version) code).editionSound he : e.Sound)
    | photo n => exact h.cat.failRecord (.photo n) code
  · exact h.cat.failRecord _ code
  · have := h.queue.congr (Catalogue.editions_failRecord s.cat r code).1
    cases r with
    | page slot number version => exact this.withEdition fun _ _ => rfl
    | photo n => exact this
  · exact h.queue.congr (Catalogue.editions_failRecord s.cat r code).1
  · have := (Catalogue.editions_failRecord s.cat r code).2
    cases r <;> exact fun hr => this ▸ hr
  · exact fun hr => (Catalogue.editions_failRecord s.cat r code).2 ▸ hr
  · intro he
    have := Catalogue.isEmpty_failRecord r code he
    cases r with
    | page slot number version => exact Catalogue.isEmpty_withEdition this
    | photo n => exact this
  · exact Catalogue.isEmpty_failRecord r code

theorem writeDone (h : s.TablesFit) (r : RecId) (w : Written) : (s.writeDone r w).TablesFit := by
  unfold State.writeDone
  split
  · exact pushCloseTest (release (withCat h (h.cat.fileRecord r w) (h.queue.congr (Catalogue.editions_fileRecord s.cat r w).1)
      (fun hr => (Catalogue.editions_fileRecord s.cat r w).2 ▸ hr) (Catalogue.isEmpty_fileRecord r w)) _) _
  · exact handOff (h.failFiling _ _ _) nofun

theorem stage (h : s.TablesFit) (r : RecId) : (s.stage r).TablesFit := by
  unfold State.stage
  refine pushCloseTest ?_ _
  cases r with
  | page slot number version =>
    refine h.withPage slot number version fun p _ _ hs => ?_
    split
    · next hr => simp only [beq_iff_eq] at hr; exact ⟨rfl, rfl, by simp [hr], rfl, hs.2.2.2.2.2.1⟩
    · exact ⟨rfl, rfl, Iff.rfl, rfl, hs.2.2.2.2.2.1⟩
  | photo n =>
    refine h.withPhoto n fun p _ _ hs => ?_
    split
    · next hr => simp only [beq_iff_eq] at hr; exact ⟨rfl, rfl, by simp [hr], hs.2⟩
    · exact ⟨rfl, rfl, id, hs.2⟩

theorem handOver (h : s.TablesFit) {r : RecId} (hr : s.cat.recState r = some .staged) : (s.handOver r).TablesFit := by
  unfold State.handOver
  cases r with
  | page slot number version =>
    have h1 := h.withPage slot number version (f := fun p => { p with state := .writing }) fun p hp hk hs =>
      ⟨rfl, rfl, by
        simp only [Catalogue.recState, Option.map_eq_some_iff] at hr
        obtain ⟨q, hq, hqs⟩ := hr
        have := Catalogue.page?_mem hq
        have e := h.cat.page_unique hp this.1 (hk.trans this.2.symm)
        subst e
        simp [hqs], rfl, hs.2.2.2.2.2.1⟩
    dsimp only
    split
    · exact handOff h1 nofun
    · exact h1
  | photo n =>
    have h1 := h.withPhoto n (f := fun p => { p with state := .writing, filedOn := some s.cal.day }) fun p hp hn hs =>
      ⟨rfl, rfl, by
        simp only [Catalogue.recState, Option.map_eq_some_iff] at hr
        obtain ⟨q, hq, hqs⟩ := hr
        have hm := List.mem_of_find?_eq_some hq
        have hqn : q.number = n := by simpa using List.find?_some hq
        have e := h.cat.photo_unique hp hm (hn.trans hqn.symm)
        subst e
        simp [hqs], hs.2⟩
    dsimp only
    split
    · exact handOff h1 nofun
    · exact h1

theorem handStaged (h : s.TablesFit) : s.handStaged.TablesFit := by
  unfold State.handStaged
  split
  · next r hr =>
    refine h.handOver ?_
    unfold Catalogue.staged? at hr
    split at hr
    · next p hp =>
      cases hr
      have hs := List.find?_some hp
      simp only [beq_iff_eq] at hs
      have := Catalogue.page?_eq h.cat (List.mem_of_find?_eq_some hp)
      simp [Catalogue.recState, this, hs]
    · simp only [Option.map_eq_some_iff] at hr
      obtain ⟨p, hp, rfl⟩ := hr
      have hs := List.find?_some hp
      simp only [beq_iff_eq] at hs
      simp only [Catalogue.recState]
      have hm := List.mem_of_find?_eq_some hp
      cases hq : s.cat.photo? p.number with
      | none => simpa using List.find?_eq_none.1 hq p hm
      | some q =>
        have e := h.cat.photo_unique hm (List.mem_of_find?_eq_some hq) (by simpa using
            (List.find?_some hq : _) : q.number = p.number).symm
        subst e
        simp [hs]
  · exact h

/-! ### The close of an edition -/

theorem beginClose (h : s.TablesFit) {slot : Nat} (forced : Bool) (ho : ∀ e, s.cat.edition? slot = some e → e.state = .opened) :
    (s.beginClose slot forced).TablesFit := by
  refine push (x := .closeTest slot) (withCat
      (s := { s with deadlines := _ }) h.same ?_ ?_ id Catalogue.isEmpty_withEdition) trivial
  · refine h.cat.withEdition (fun _ => rfl) fun e he => ⟨nofun, fun hd => ?_⟩
    have := ((h.cat.editionSound he).2 hd).1
    rw [ho e he] at this; cases this
  · obtain ⟨q1, q2, q3⟩ := h.queue
    refine ⟨q1, fun x hx => ?_, fun x hx => ?_⟩
    · rw [Catalogue.stateOf_withEdition]
      split
      · next e1 =>
        subst e1
        have := q2 slot hx
        cases he : s.cat.edition? slot with
        | none => simp [Catalogue.stateOf, he] at this
        | some e =>
          rw [Catalogue.stateOf, he, Option.map_some, ho e he] at this
          simp at this
      · exact q2 x hx
    · have hx : (s.cat.withEdition slot _).stateOf x = _ := hx
      rw [Catalogue.stateOf_withEdition] at hx
      split at hx
      · cases he : s.cat.edition? x <;> simp [he] at hx
      · exact q3 x hx

theorem closeTest (h : s.TablesFit) (slot : Nat) : (s.closeTest slot).TablesFit := by
  unfold State.closeTest
  split
  · exact h
  · next e he =>
    split
    · next hc =>
      simp only [Bool.and_eq_true, beq_iff_eq] at hc
      have hst : s.cat.stateOf slot = some .closing := by rw [Catalogue.stateOf, he, Option.map_some, hc.1]
      dsimp only
      refine latch (handOff (op := .closeMark slot _) (withCat h (f := fun c => c.withEdition slot fun x => { x with
        state := .closed, closedOn := some s.cal.day, gaps := some (s.cat.gapsOf slot e.planned) }) ?_ ?_ id
        Catalogue.isEmpty_withEdition) nofun) _
      · refine h.cat.withEdition (fun _ => rfl) fun x hx => ?_
        rw [he] at hx; cases hx
        have := h.cat.editionSound he
        refine ⟨fun hd => ?_, fun hd => ⟨rfl, (this.2 hd).2⟩⟩
        have := this.1 hd
        rw [hc.1] at this; cases this
      · obtain ⟨q1, q2, q3⟩ := h.queue
        refine ⟨q1, fun x hx => ?_, fun x hx => ?_⟩
        · rw [Catalogue.stateOf_withEdition]
          split
          · next e1 => subst e1; rw [he]; exact .inl rfl
          · exact q2 x hx
        · have hx : (s.cat.withEdition slot _).stateOf x = _ := hx
          rw [Catalogue.stateOf_withEdition] at hx
          split at hx
          · cases he : s.cat.edition? x <;> simp [he] at hx
          · exact q3 x hx
    · exact h

/-! ### The body lane -/

theorem freeLane (h : s.TablesFit) : s.freeLane.TablesFit := h.same
theorem bindLane (h : s.TablesFit) (x : Holder) (o : Bool) (n : Nat) : (s.bindLane x o n).TablesFit := h.same

theorem endTransfer (h : s.TablesFit) (b : Binding) (e : LaneEnding) : (s.endTransfer b e).TablesFit := by
  unfold State.endTransfer
  split
  · exact h.freeLane.failFiling _ _ _
  · exact h.freeLane.withOrder _ _
  · exact h.freeLane

theorem completeTransfer (h : s.TablesFit) (b : Binding) (c : U32) : (s.completeTransfer b c).TablesFit := by
  unfold State.completeTransfer
  repeat' split
  · exact h.freeLane.stage _
  · exact h.freeLane.failFiling _ _ _
  · exact h.freeLane.leaveTable _ _ _
  · exact h.freeLane

/-! ### Completions -/

theorem answerPrepare (h : s.TablesFit) (o : Order) (c : Code) (l : List U8) : (s.answerPrepare o c l).TablesFit := by
  unfold State.answerPrepare
  split
  · exact h
  · exact h.same

theorem answerReload (h : s.TablesFit) (c : Code) (l : List U8) : (s.answerReload c l).TablesFit := by
  unfold State.answerReload
  split
  · exact h
  · exact h.same

theorem unprepare (h : s.TablesFit) (n : Nat) : (s.unprepare n).TablesFit := release (h.withOrder _ _) _

theorem failPreparation (h : s.TablesFit) (n : Nat) (c : Code) : (s.failPreparation n c).TablesFit := by
  unfold State.failPreparation
  split
  · exact h
  · exact answerPrepare ((h.withOrder _ _).unprepare _) _ _ _

theorem deliveryRead (h : s.TablesFit) (n : Nat) (b : List U8) : (s.deliveryRead n b).TablesFit := by
  unfold State.deliveryRead
  repeat' split
  · exact h
  · exact h.same
  · exact h.failPreparation _ _

theorem finishPreparation (h : s.TablesFit) (o : Order) : (s.finishPreparation o).TablesFit := by
  unfold State.finishPreparation
  split
  · exact h
  · dsimp only
    exact answerPrepare (same h) _ _ _

theorem surveyRead (h : s.TablesFit) (n : Nat) (b : List U8) : (s.surveyRead n b).TablesFit := by
  unfold State.surveyRead
  repeat' split
  · exact h
  · refine withJob (s := { s with pool := _, eng := { s.eng with histogram := histogramOf b } }) ?_ n
      (f := fun j => { j with state := .mapping }) fun j hj => ⟨hj.1, hj.2.1, hj.2.2.1, nofun⟩
    exact ⟨h.1, h.2, h.3, h.4, ⟨by simp [histogramOf_length], h.eng.2.1, h.eng.2.2⟩, h.6, h.7⟩
  · exact h.failJob _ _

theorem reloadFailed (h : s.TablesFit) (c : Code) : (s.reloadFailed c).TablesFit :=
  answerReload (withCat h (f := fun x => { x with reloading := false }) h.cat (h.queue.congr rfl) nofun id) _ _

theorem reloadDone (h : s.TablesFit) {x : StoreIndex} (hx : x.wellFormed = true) : (s.reloadDone x).TablesFit := by
  unfold State.reloadDone
  split
  · exact h
  · next hl hc =>
    refine answerReload (s := { s with cat := rebuiltCatalogue x }) ⟨rebuiltCatalogue_sound hc hx, ?_, h.3, h.4, h.5, nofun,
        h.7⟩ _ _
    have he := (h.6 hl).2
    have hq : s.vol.sealQueue = [] := by
      cases hq : s.vol.sealQueue with
      | nil => rfl
      | cons a l =>
        have := h.queue.2.1 a (by simp [hq])
        simp [Catalogue.stateOf, Catalogue.isEmpty_edition he] at this
    show (rebuiltCatalogue x).Queued s.vol.sealQueue
    rw [hq]
    refine ⟨by simp, by simp, fun slot hs => ?_⟩
    rw [Catalogue.stateOf, rebuilt_edition?] at hs
    simp only [Option.map_eq_some_iff] at hs
    obtain ⟨e, ⟨k, _, rfl⟩, hst⟩ := hs
    unfold returnedEdition at hst
    split at hst <;> cases hst
  · exact h.reloadFailed _

theorem completed (h : s.TablesFit) {op : Op} {c : Completion} (hc : (Task.complete op c).fits) : (s.completed op c).TablesFit := by
  unfold State.completed
  split
  all_goals first
    | exact h
    | exact h.writeDone _ _
    | exact h.failFiling _ _ _
    | exact h.finishJob _ _
    | exact h.failJob _ _
    | exact push (h.surveyRead _ _)
    | exact push (h.failJob _ _)
    | exact push (h.deliveryRead _ _)
    | exact push (h.failPreparation _ _)
    | exact h.sealDone _ _
    | exact h.sealFailed _ _
    | exact h.fetchDone _ _
    | exact h.fetchFailed _ _
    | exact h.reloadDone hc
    | exact h.reloadFailed _
    | exact h.push

theorem runTask (h : s.TablesFit) {x : Task} (hx : x.fits) : (s.runTask x).TablesFit := by
  cases x with
  | complete op c => exact h.completed hx
  | regrant => exact regrant _ h
  | closeTest slot => exact h.closeTest slot
  | sealTest => exact sealTest _ h rfl
  | serveRecall => exact serveRecall _ h
  | startJob => exact h.startJob
  | recallGiven r i => exact h.recallGiven r i
  | recallFailed r c => exact h.recallFailed r c
  | heldDiscards => exact releaseDiscards _ h

theorem settle : ∀ (n : Nat) {s : State}, s.TablesFit → (State.settle n s).TablesFit
  | 0, _, h => h
  | n + 1, s, h => by
    unfold State.settle
    split
    · exact h
    · next x rest hx =>
      have h7 := h.7
      rw [hx] at h7
      exact settle n (runTask (s := { s with agenda := rest })
        ⟨h.1, h.2, h.3, h.4, h.5, h.6, fun y hy => h7 y (by simp [hy])⟩ (h7 x (by simp)))

theorem settled (h : s.TablesFit) : s.settled.TablesFit := settle _ h

end State.TablesFit

end Sys2Proof.Machine
end

