-- ==== Sys2Proof/Laws/TablesOfCommands.lean ====
section
/-! SUPPORT. The tables and the commands: the end of a change, the four forms of a command, and what each command does keep what the
rules state of the tables. -/

namespace Sys2Proof.Machine

set_option Elab.async false

theorem Catalogue.slotOf_none {c : Catalogue} {k : EditionKey} (h : c.slotOf k = none) {i : Nat} {e : Edition}
    (he : c.edition? i = some e) : e.key ≠ k := by
  have := List.findIdx?_eq_none_iff.1 h _ (Catalogue.edition?_mem he)
  simpa using this

namespace State.TablesFit

variable {s t : State}

/-- The mode changes while no reload is in flight. -/
theorem mode (h : s.TablesFit) (hr : s.cat.reloading = false) (hc : t.cat = s.cat := by rfl)
    (hq : t.vol = s.vol := by rfl) (hl : t.link = s.link := by rfl) (hj : t.eng = s.eng := by rfl)
    (ha : t.agenda = s.agenda := by rfl) : t.TablesFit :=
  ⟨by rw [hc]; exact h.cat, by rw [hc, hq]; exact h.queue, by rw [hl]; exact h.link, by rw [hq]; exact h.table,
    by rw [hj]; exact h.eng, by rw [hc, hr]; exact nofun, by rw [ha]; exact h.agenda⟩

theorem idle (h : s.TablesFit) (hm : s.req.mode ≠ .setup) : s.cat.reloading = false := by
  cases hr : s.cat.reloading with
  | false => rfl
  | true => exact absurd (h.reload hr).1 hm

theorem answerEntry (h : s.TablesFit) (k : U8) (c : Code) : (s.answerEntry k c).TablesFit := by
  unfold State.answerEntry; split <;> exact h.same

theorem answerEntry_cat (s : State) (k : U8) (c : Code) : (s.answerEntry k c).cat = s.cat ∧
    (s.answerEntry k c).req.mode = s.req.mode := by
  unfold State.answerEntry; split <;> exact ⟨rfl, rfl⟩

theorem completeEntry (h : s.TablesFit) : s.completeEntry.TablesFit := by
  unfold State.completeEntry
  split
  · next hm => exact push (answerEntry (mode h (h.idle (by simp [hm]))) _ _)
  · next hm => exact answerEntry (mode h (h.idle (by simp [hm]))) _ _
  · exact h
  · exact h
  · exact h

theorem send (h : s.TablesFit) (l : List Frame) : (s.send l).TablesFit ∧ (s.send l).agenda = [] :=
  ⟨⟨h.1, h.2, h.3, h.4, h.5, h.6, fun _ hx => absurd hx (List.not_mem_nil)⟩, rfl⟩

theorem endWait (h : s.TablesFit) : s.endWait.TablesFit := by
  unfold State.endWait
  split
  · exact h
  · exact h.same

theorem close (h : s.TablesFit) : s.close.TablesFit ∧ s.close.agenda = [] :=
  send (endWait (s := s.disarm) h.same) _

theorem endChange (h : s.TablesFit) : s.endChange.TablesFit ∧ s.endChange.agenda = [] := by
  unfold State.endChange
  split
  · exact h.settled.completeEntry.settled.close
  · exact h.settled.close

theorem wake (h : s.TablesFit) : s.wake.TablesFit := by
  unfold State.wake
  split
  · next hm =>
    refine settled (push (mode h (h.idle ?_)))
    simp only [beq_iff_eq] at hm
    simp [hm]
  · exact h

theorem take (h : s.TablesFit) : s.take.TablesFit := wake h.same

/-- A state between two changes, its tables as the rules state them. -/
def Fit (s : State) : Prop := s.TablesFit ∧ s.agenda = []

theorem due_fit {hap : State → Bool} {body : State → State} (h : Fit s)
    (hb : ∀ u : State, u.TablesFit → hap u = true → (body u).TablesFit) : Fit (State.due hap body s) := by
  unfold State.due
  split
  · next hp => exact endChange (hb _ h.1 hp)
  · exact h

theorem handedOff (h : Fit s) : Fit s.handedOff := due_fit h fun _ hu _ => hu.handStaged

theorem handAtOnce (h : Fit s) : Fit s.handAtOnce := by
  unfold State.handAtOnce
  split
  · exact h
  · exact handedOff h

theorem serve_fit {c : Instr} {body : State → State} (h : Fit s) (hb : ∀ u : State, u.TablesFit → (body u).TablesFit) :
    Fit (s.serve c body) := by
  unfold State.serve
  split
  · exact endChange (hb _ (take h.1))
  · exact h

theorem query_fit {c : Instr} {body : State → State} (h : Fit s) (hb : ∀ u : State, u.TablesFit → (body u).TablesFit)
    (e : query c body s = .next t) : Fit t := by
  cases e
  split
  · exact handAtOnce (serve_fit h hb)
  · exact h

theorem request_fit {c : Instr} {body : State → State} (h : Fit s) (hb : ∀ u : State, u.TablesFit → (body u).TablesFit)
    (e : request c body s = .next t) : Fit t := by
  cases e
  split
  · exact serve_fit (handedOff h) hb
  · exact h

theorem eventWith_fit {follows : State → State} {hap : State → Bool} {body : State → State} (h : Fit s)
    (hf : ∀ u, Fit u → Fit (follows u)) (hb : ∀ u : State, u.TablesFit → hap u = true → (body u).TablesFit)
    (e : eventWith follows hap body s = .next t) : Fit t := by
  unfold eventWith at e
  split at e
  · next hp =>
    cases e
    rw [Bool.and_eq_true] at hp
    exact hf _ (endChange (hb _ (handedOff h).1 hp.2))
  · cases e; exact h

theorem event_fit' {hap : State → Bool} {body : State → State} (h : Fit s)
    (hb : ∀ u : State, u.TablesFit → hap u = true → (body u).TablesFit) (e : event hap body s = .next t) : Fit t :=
  eventWith_fit h (fun _ hu => hu) hb e

theorem event_fit {hap : State → Bool} {body : State → State} (h : Fit s) (hb : ∀ u : State, u.TablesFit → (body u).TablesFit)
    (e : event hap body s = .next t) : Fit t := event_fit' h (fun u hu _ => hb u hu) e

theorem signal_fit {hap : State → Bool} {body : State → State} (h : Fit s)
    (hb : ∀ u : State, u.TablesFit → (body u).TablesFit ∧ (body u).agenda = u.agenda)
    (e : signal hap body s = .next t) : Fit t := by
  unfold signal at e
  split at e
  · cases e; exact ⟨(hb s h.1).1, (hb s h.1).2.trans h.2⟩
  · cases e; exact h

/-! ### The calendar -/

theorem minuteWork (h : s.TablesFit) (now : Nat) : (s.minuteWork now).TablesFit := by
  have fire : ∀ (l : List Nat) {u : State}, u.TablesFit → (State.fireDeadlines now l u).TablesFit := by
    intro l
    induction l with
    | nil => exact fun h => h
    | cons slot rest ih =>
      intro u hu
      unfold State.fireDeadlines
      split
      · next hd =>
        refine ih (hu.beginClose true fun e he => ?_)
        refine (hu.cat.editionSound he).1 fun hn => ?_
        simp [Catalogue.deadlineOf, he, hn] at hd
      · exact hu
  unfold State.minuteWork State.raiseWarnings
  split
  · exact fire _ h
  · refine latch (foldl (fun u x hu => ?_) _ (fire _ h)) _
    exact hu.withEdition x (hs := fun _ _ hs => hs)

theorem takeMinute (h : s.TablesFit) : s.takeMinute.TablesFit := by
  unfold State.takeMinute
  split
  · exact minuteWork h.same _
  · exact h

theorem expireHolds (h : s.TablesFit) (day : Nat) : (s.expireHolds day).TablesFit := by
  unfold State.expireHolds
  split
  · exact reevaluate _ h.same
  · exact h

theorem sweepOrphans (h : s.TablesFit) (day : Nat) : (s.sweepOrphans day).TablesFit := by
  refine h.withCat (h.cat.filterPhotos fun p _ hk => ?_) (h.queue.congr rfl) id fun he => ?_
  · simp only [Bool.not_eq_false', Photo.isOrphan, Bool.and_eq_true, beq_iff_eq] at hk
    exact .inl hk.1.1.2
  · rw [Catalogue.isEmpty_iff] at he ⊢
    exact ⟨he.1, he.2.1, by simp [he.2.2]⟩

theorem takeRollover (h : s.TablesFit) : s.takeRollover.TablesFit := by
  unfold State.takeRollover
  split
  · exact (expireHolds h.same _).sweepOrphans _
  · exact h

theorem takeBoundary (h : s.TablesFit) : s.takeBoundary.TablesFit := by
  unfold State.takeBoundary
  split
  · refine retentionSweep ?_ _
    unfold State.boundaryStatement
    have := wake (s := { s with events := { s.events with boundary := none } }) h.same
    split
    · exact this.closeOpenStatement _
    · exact this.same
  · exact h

theorem takeRaised (h : s.TablesFit) : s.takeRaised.TablesFit :=
  h.takeMinute.settled.takeRollover.settled.takeBoundary.settled

theorem stopCalendar (h : s.TablesFit) (tag : U8) : (s.stopCalendar tag).TablesFit := by
  unfold State.stopCalendar
  split
  · exact h.same
  · exact h.same
  · exact h.takeRaised.same

theorem changeDeadline (h : s.TablesFit) {slot : Nat} (d : Option Deadline)
    (ho : ∀ e, s.cat.edition? slot = some e → e.state = .opened) : (s.changeDeadline slot d).TablesFit := by
  unfold State.changeDeadline
  split
  · refine withEdition (s := { s with deadlines := _ }) h.same slot (hs := ?_)
    exact fun e _ hs => ⟨fun hn => absurd rfl hn, hs.2⟩
  · next x =>
    dsimp only
    refine same (h.withEdition slot (f := fun e => { e with
      deadline := some x, warned := e.warned && !decide (s.cal.now + s.req.options.lead < x.number) }) (hs := ?_))
    exact fun e he hs => ⟨fun _ => ho e he, hs.2⟩

theorem opened {c : Catalogue} {slot : Nat} (hn : ¬((c.edition? slot).any fun e => e.state != .opened) = true) {e : Edition}
    (he : c.edition? slot = some e) : e.state = .opened := by
  simpa [he] using hn

theorem setDeadline (h : s.TablesFit) (tag : U8) (key : EditionKey) (d : DeadlineFields) : (s.setDeadline tag key d).TablesFit := by
  unfold State.setDeadline
  repeat' split
  all_goals first | exact h.same | skip
  next hn _ => exact answer (h.changeDeadline _ fun e he => opened hn he) _ _ _ _

/-! ### The catalogue -/

theorem dropPhoto (h : s.TablesFit) (tag : U8) (n : U32) : (s.dropPhoto tag n).TablesFit := by
  unfold State.dropPhoto
  repeat' split
  all_goals first | exact h.same | skip
  next p hp hm =>
  refine answer (h.withCat (h.cat.filterPhotos fun q hq hk => ?_) (h.queue.congr rfl) id fun he => ?_) _ _ _ _
  · have hpm := List.mem_of_find?_eq_some hp
    have hpn : p.number = n := by simpa using List.find?_some hp
    have e := h.cat.photo_unique hq hpm ((by simpa using hk : q.number = n).trans hpn.symm)
    subst e
    simp only [Photo.mayDrop, Bool.or_eq_true, beq_iff_eq, Bool.and_eq_true] at hm
    rcases hm with hm | hm
    · exact .inr (by simp [hm])
    · exact .inl hm.1.2
  · rw [Catalogue.isEmpty_iff] at he ⊢
    exact ⟨he.1, he.2.1, by simp [he.2.2]⟩

theorem reloads (h : s.TablesFit) (tag : U8) : (s.reload tag).TablesFit := by
  unfold State.reload
  repeat' split
  · exact h.same
  · exact h.same
  · next hm _ =>
    simp only [Bool.or_eq_true, not_or, Bool.not_eq_true, bne_eq_false_iff_eq, Bool.not_eq_false'] at hm
    refine handOff (s := { s with cat := { s.cat with reloading := true }, req := { s.req with reloadTag := some tag } })
      (op := .indexRead) ⟨h.cat, h.queue.congr rfl, h.link, h.table, h.eng, fun _ => ⟨hm.1, ?_⟩, h.agenda⟩ (by exact nofun)
    exact hm.2

/-! ### Filing -/

theorem openIn (h : s.TablesFit) {slot : Nat} {key : EditionKey} (planned : U8) (d : Option Deadline)
    (hf : s.cat.edition? slot = none) (hk : s.cat.slotOf key = none) (hr : s.cat.reloading = false) :
    (s.open slot key planned d).TablesFit := by
  have h1 : (s.withCat fun c => c.putEdition slot (some (newEdition key planned d))).TablesFit := by
    refine ⟨h.cat.putEdition hf (fun i x hx => Catalogue.slotOf_none hk hx) ⟨fun _ => rfl, nofun⟩, ?_, h.link, h.table, h.eng,
      fun hl => absurd hl (by show ¬ s.cat.reloading = true; simp [hr]), h.agenda⟩
    have hst : ∀ i, (s.cat.putEdition slot (some (newEdition key planned d))).stateOf i = s.cat.stateOf i ∨
        i = slot ∧ (s.cat.putEdition slot (some (newEdition key planned d))).stateOf i = some .opened ∨ i = slot := by
      intro i
      by_cases hi : i = slot
      · exact .inr (.inr hi)
      · left
        simp only [Catalogue.stateOf, Catalogue.edition?, Catalogue.putEdition, List.getElem?_set]
        rw [if_neg (fun e => hi e.symm)]
    obtain ⟨q1, q2, q3⟩ := h.queue
    have hnot : slot ∉ s.vol.sealQueue := by
      intro hm
      have := q2 slot hm
      simp [Catalogue.stateOf, hf] at this
    refine ⟨q1, fun x hx => ?_, fun x hx => ?_⟩
    · rcases hst x with e | ⟨e, _⟩ | e
      · have : (s.cat.putEdition slot (some (newEdition key planned d))).stateOf x = _ := e
        show (s.cat.putEdition slot (some (newEdition key planned d))).stateOf x = _ ∨
          (s.cat.putEdition slot (some (newEdition key planned d))).stateOf x = _
        simp only [this]; exact q2 x hx
      · exact absurd (e ▸ hx) hnot
      · exact absurd (e ▸ hx) hnot
    · have hx : (s.cat.putEdition slot (some (newEdition key planned d))).stateOf x = some .sealing := hx
      by_cases hi : x = slot
      · subst hi
        simp only [Catalogue.stateOf, Catalogue.edition?, Catalogue.putEdition, List.getElem?_set, if_pos] at hx
        split at hx <;> simp [newEdition] at hx
      · rcases hst x with e | ⟨e, _⟩ | e
        · exact q3 x (e ▸ hx)
        · exact absurd e hi
        · exact absurd e hi
  unfold State.open
  dsimp only
  split
  · exact same h1
  · exact h1

theorem service_idle (h : s.TablesFit) (hs : ¬(!s.inService) = true) : s.cat.reloading = false := by
  refine h.idle ?_
  simp only [State.inService, Bool.not_eq_true, Bool.not_eq_false', beq_iff_eq] at hs
  simp [hs]

theorem openEdition (h : s.TablesFit) (tag : U8) (key : EditionKey) (planned : U8) (d : DeadlineFields) :
    (s.openEdition tag key planned d).TablesFit := by
  unfold State.openEdition
  repeat' split
  all_goals first | exact h.same | exact (h.pressureSeal).same | skip
  next hs _ _ hk _ slot hslot =>
  refine answer (h.openIn _ _ ?_ (by simpa using hk) (h.service_idle hs)) _ _ _ _
  have := List.findIdx?_eq_some_iff_getElem.1 hslot
  obtain ⟨hlt, hn, _⟩ := this
  simp only [Catalogue.edition?, List.getElem?_eq_getElem hlt]
  simpa using hn

theorem replan (h : s.TablesFit) (tag : U8) (key : EditionKey) (planned : U8) : (s.replan tag key planned).TablesFit := by
  unfold State.replan
  repeat' split
  all_goals first | exact h.same | skip
  exact answer (h.withEdition _ (f := fun e => { e with planned := planned.toNat }) (hs := fun _ _ hs => hs)) _ _ _ _

end State.TablesFit

theorem foldl_max {l : List Nat} : ∀ {m : Nat}, m ≤ l.foldl max m ∧ ∀ x ∈ l, x ≤ l.foldl max m := by
  induction l with
  | nil => simp
  | cons a l ih =>
    intro m
    simp only [List.foldl_cons, List.mem_cons, forall_eq_or_imp]
    have := @ih (max m a)
    exact ⟨by omega, by omega, this.2⟩

theorem nextVersion_above {c : Catalogue} {p : Page} (hp : p ∈ c.pages) : p.version < c.nextVersion p.slot p.number := by
  unfold Catalogue.nextVersion
  refine Nat.lt_succ_of_le (foldl_max.2 _ ?_)
  exact List.mem_map_of_mem (List.mem_filter.2 ⟨List.mem_filter.2 ⟨hp, by simp⟩, by simp⟩)

theorem placementsApart_nodup : ∀ {l : List Placement}, placementsApart l = true → (l.map Placement.photo).Nodup
  | [], _ => by simp
  | p :: ps, h => by
    simp only [placementsApart, Bool.and_eq_true, List.all_eq_true, bne_iff_ne] at h
    simp only [List.map_cons, List.nodup_cons, List.mem_map, not_exists, not_and]
    exact ⟨fun q hq => (h.1 q hq).2, placementsApart_nodup h.2⟩

namespace State.TablesFit

variable {s t : State}

theorem acceptPage (h : s.TablesFit) {f : FilePageFields} {slot : Nat} (ho : (s.cat.edition? slot).isSome = true)
    (hr : s.cat.reloading = false) (hl : layoutFits f = true) (hf : s.cat.allFiled f.placements = true)
    (hv : s.cat.nextVersion slot f.page.toNat ≤ 7) : (s.acceptPage (newPage f slot
        (s.cat.nextVersion slot f.page.toNat))).TablesFit := by
  refine bindLane (give (s := s.withCat _) ⟨?_, h.queue.congr rfl, h.link, h.table, h.eng, ?_, h.agenda⟩ _ _) _ _ _
  · refine h.cat.addPage (p := newPage f slot (s.cat.nextVersion slot f.page.toNat)) ho ?_ ⟨?_, hv⟩ ?_ ?_ ?_ ?_ ?_
    · intro q hq he
      simp only [Page.key, newPage, Prod.mk.injEq] at he
      have := nextVersion_above hq
      rw [he.1, he.2.1] at this
      omega
    · show 1 ≤ s.cat.nextVersion slot f.page.toNat
      unfold Catalogue.nextVersion; omega
    · simp only [layoutFits, Bool.and_eq_true] at hl
      exact placementsApart_nodup hl.2
    · intro pl hpl
      simp only [Catalogue.allFiled, List.all_eq_true] at hf
      have := hf pl hpl
      cases hq : s.cat.photo? pl.photo with
      | none => simp [hq] at this
      | some q =>
        rw [hq] at this
        exact ⟨q, List.mem_of_find?_eq_some hq, by simpa using (List.find?_some hq : _), by simpa using this⟩
    · rfl
    · simp [newPage]
    · rfl
  · intro hl
    have : s.cat.reloading = true := hl
    rw [hr] at this; cases this

theorem filePage (h : s.TablesFit) (tag : U8) (f : FilePageFields) : (s.filePage tag f).TablesFit := by
  unfold State.filePage State.filePageIn
  dsimp only
  repeat' split
  all_goals first | exact h.same | exact h.pressureSeal.same | skip
  next hs _ _ slot e hm _ _ _ hl hf hv _ _ _ =>
  refine answer (h.acceptPage ?_ (h.service_idle hs) (by simpa using hl) (by simpa using hf) (by omega)) _ _ _ _
  simp only [Option.bind_eq_some_iff, Option.map_eq_some_iff, Prod.mk.injEq] at hm
  obtain ⟨i, _, x, hx, rfl, _⟩ := hm
  simp [hx]

theorem placed_failed (h : s.TablesFit) {p : Photo} (hp : p ∈ s.cat.photos) (hs : p.state = .failed) : p.refs = 0 := by
  rw [(h.cat.2.2.2.2.2.2 p hp).1]
  refine Catalogue.placed_zero.2 fun x hx pl hpl hn => ?_
  obtain ⟨q, hq, hqn, hqs⟩ := (h.cat.2.2.2.2.2.1 x hx).2.2.2.2.1 pl hpl
  have := h.cat.photo_unique hp hq (hn.symm.trans hqn.symm)
  subst this
  rw [hs] at hqs; cases hqs

theorem acceptPhoto (h : s.TablesFit) {f : FilePhotoFields} (hr : s.cat.reloading = false)
    (hf : (s.cat.photo? f.photo).any (fun p => p.state != .failed) = false) : (s.acceptPhoto (newPhoto f)).TablesFit := by
  have hno : (s.cat.putPhoto (newPhoto f)).Sound := by
    unfold Catalogue.putPhoto
    cases hq : s.cat.photo? (newPhoto f).number with
    | none => exact h.cat.addPhoto hq rfl rfl
    | some q =>
      have hqf : q.state = .failed := by
        have : s.cat.photo? f.photo = some q := hq
        simpa [this] using hf
      have hqm := List.mem_of_find?_eq_some hq
      refine h.cat.withPhoto fun p hp hn _ => ?_
      have hqn : q.number = (newPhoto f).number := by simpa using List.find?_some hq
      have e := h.cat.photo_unique hp hqm (hn.trans hqn.symm)
      subst e
      refine ⟨hn.symm, (h.placed_failed hp hqf).symm, fun he => ?_, rfl⟩
      rw [hqf] at he; cases he
  have hed : (s.cat.putPhoto (newPhoto f)).editions = s.cat.editions ∧
      (s.cat.putPhoto (newPhoto f)).reloading = s.cat.reloading := by
    unfold Catalogue.putPhoto; split <;> exact ⟨rfl, rfl⟩
  refine bindLane (give (s := s.withCat fun c => c.putPhoto (newPhoto f)) ⟨hno, h.queue.congr hed.1, h.link, h.table, h.eng,
      ?_, h.agenda⟩ _ _) _ _ _
  intro hl
  have : (s.cat.putPhoto (newPhoto f)).reloading = true := hl
  rw [hed.2, hr] at this; cases this

theorem filePhoto (h : s.TablesFit) (tag : U8) (f : FilePhotoFields) : (s.filePhoto tag f).TablesFit := by
  unfold State.filePhoto
  repeat' split
  all_goals first | exact h.same | skip
  next hs _ hd _ _ _ => exact answer (h.acceptPhoto (h.service_idle hs) (by simpa using hd)) _ _ _ _

theorem closeEdition (h : s.TablesFit) (tag : U8) (key : EditionKey) : (s.closeEdition tag key).TablesFit := by
  unfold State.closeEdition
  repeat' split
  all_goals first | exact h.same | skip
  next hn => exact answer (h.beginClose _ fun e he => opened hn he) _ _ _ _

/-! ### Modes -/

theorem toService (h : s.TablesFit) (hr : s.cat.reloading = false) : s.toService.TablesFit := push (mode h hr)

theorem startService (h : s.TablesFit) (tag : U8) : (s.startService tag).TablesFit := by
  unfold State.startService
  repeat' split
  · exact h.same
  · next hr => exact answer (h.toService (by simpa using hr)) _ _ _ _
  · next hm =>
    exact answer (toService (h.answerEntry _ _) (by rw [(answerEntry_cat _ _ _).1]; exact h.idle (by simp [hm]))) _ _ _ _
  · next hm =>
    exact answer (toService (h.answerEntry _ _) (by rw [(answerEntry_cat _ _ _).1]; exact h.idle (by simp [hm]))) _ _ _ _
  · exact h.same
  · exact h.same

theorem enterSetup (h : s.TablesFit) (tag : U8) : (s.enterSetup tag).TablesFit := by
  unfold State.enterSetup
  repeat' split
  all_goals first | exact h.same | skip
  all_goals next hm _ => exact mode h (h.idle (by simp [hm]))

theorem enterStandby (h : s.TablesFit) (tag : U8) : (s.enterStandby tag).TablesFit := by
  unfold State.enterStandby
  repeat' split
  all_goals first | exact h.same | skip
  all_goals next hm _ => exact mode h (h.idle (by simp [hm]))

theorem setOption (h : s.TablesFit) (tag n : U8) (v : U16) : (s.setOption tag n v).TablesFit := by
  unfold State.setOption; split <;> exact h.same

theorem takeWait (h : s.TablesFit) (tag : U8) (m : U32) (n : U16) : (s.takeWait tag m n).TablesFit := by
  unfold State.takeWait; repeat' split
  all_goals exact h.same

theorem expireWait (h : s.TablesFit) : s.expireWait.TablesFit := by
  unfold State.expireWait; split <;> exact h.same

/-! ### The store link -/

theorem takeAnswer {α : Type} (h : s.TablesFit) (at_ : SlotTag) {fits : Op → Bool} {returns : α → Returns} {ans : Answer α}
    (hp : fits .probe = false) (hx : ∀ a x, ans = .done a → returns a = .index x → x.wellFormed = true) :
    (s.takeAnswer at_ fits returns ans).TablesFit := by
  unfold State.takeAnswer
  split
  · exact h
  · next op ho =>
    obtain ⟨hm, hf⟩ := StoreLink.answered_held ho
    have hop : op ≠ .probe := by rintro rfl; rw [hp] at hf; cases hf
    refine h.completeSlot (h.link.online_of hm hop) _ op _ ?_
    cases ans with
    | done a =>
      show Task.fits (.complete op (.ok (returns a)))
      cases hr : returns a with
      | index x => exact hx a x rfl hr
      | _ => trivial
    | notFound =>
      show Task.fits (.complete op op.notFound)
      unfold Op.notFound
      split <;> trivial
    | full => trivial
    | mediaError => trivial

theorem timeOut (h : s.TablesFit) (i : Nat) : (s.timeOut i).TablesFit := by
  unfold State.timeOut
  split
  · next op ho =>
    simp only [StoreLink.timedOut?, Option.map_eq_some_iff, Option.filter_eq_some_iff] at ho
    obtain ⟨r, ⟨hr, hf⟩, rfl⟩ := ho
    have hop : r.op ≠ .probe := by
      intro e
      rw [e] at hf
      cases hf
    have hm : r.op ∈ s.link.held := by
      simp only [StoreLink.running?, Option.bind_eq_some_iff] at hr
      obtain ⟨sl, hsl, hso⟩ := hr
      exact StoreLink.mem_held.2 (.inl ⟨sl, List.mem_of_getElem? hsl, by simp [hso]⟩)
    exact h.completeSlot (h.link.online_of hm hop) _ _ _ trivial
  · exact h

theorem probe (h : s.TablesFit) (hd : s.link.probeDue = true) : State.TablesFit { s with link := s.link.probe } := by
  simp only [StoreLink.probeDue, Bool.and_eq_true, beq_iff_eq] at hd
  exact h.withLink (h.link.probe hd.1)

theorem judgeProbe (h : s.TablesFit) (ho : s.link.state = .offline) (ans : Answer Unit) : (s.judgeProbe ans).TablesFit := by
  have ha := fun n => h.link.answered ho n
  have hoff : (s.link.vacate 0).state = .offline := ho
  have he : ∀ sl ∈ (s.link.vacate 0).slots, sl.occupant = none := by
    have hb := (h.link.2.2 (by simp [ho])).2.1
    have h1 := h.link.1
    intro sl hsl
    cases hl : s.link.slots with
    | nil => simp [hl] at h1
    | cons x xs =>
      simp only [StoreLink.vacate, hl, List.modify_zero_cons, List.mem_cons] at hsl
      rcases hsl with rfl | hsl
      · rfl
      · exact hb sl (by rw [hl]; exact hsl)
  unfold State.judgeProbe
  dsimp only
  split
  · split
    · unfold State.recover
      dsimp only
      refine latch (h.withLink ?_) _
      split
      · exact (ha ((s.link.vacate 0).goodProbes + 1)).up (by simp [hoff]) he rfl rfl
      · exact (ha ((s.link.vacate 0).goodProbes + 1)).up (by simp [hoff]) he rfl rfl
    · exact h.withLink (ha _)
  all_goals exact h.withLink (ha _)

/-! ### Sealing and restoration -/

theorem sealEdition (h : s.TablesFit) (tag : U8) (key : EditionKey) : (s.sealEdition tag key).TablesFit := by
  unfold State.sealEdition
  repeat' split
  all_goals first | exact h.same | skip
  next slot e hm hc _ =>
  refine answer (h.enqueueSeal ?_) _ _ _ _
  simp only [Option.bind_eq_some_iff, Option.map_eq_some_iff, Prod.mk.injEq] at hm
  obtain ⟨i, _, x, hx, rfl, rfl⟩ := hm
  rw [Catalogue.stateOf, hx]
  simpa using hc

theorem restore (h : s.TablesFit) (tag : U8) (x : TargetFields) (l hi : U16) (sp : U8) : (s.restore tag x l hi sp).TablesFit := by
  unfold State.restore State.restoreOn
  repeat' split
  all_goals first | exact h.same | skip
  next hr =>
  exact answer (h.createJob _ _ (by unfold clampTo; omega) (by unfold clampTo; omega) (by unfold clampTo; omega)
    (Nat.lt_of_not_le hr)) _ _ _ _

theorem revertRecord (h : s.TablesFit) (tag : U8) (x : Target) (r : RecId) : (s.revertRecord tag x r).TablesFit := by
  unfold State.revertRecord
  dsimp only
  split
  · exact h.same
  · refine answer (discard ?_ _) _ _ _ _
    cases r with
    | page slot number version =>
      exact h.withPage slot number version fun p _ _ hs => ⟨rfl, rfl, Iff.rfl, rfl, by simp [restoredFits, levelFits]⟩
    | photo n => exact h.withPhoto n fun p _ _ hs => ⟨rfl, rfl, id, by simp [restoredFits, levelFits]⟩

theorem revert (h : s.TablesFit) (tag : U8) (x : TargetFields) : (s.revert tag x).TablesFit := by
  unfold State.revert
  repeat' split
  all_goals first | exact h.same | exact h.revertRecord _ _ _

theorem mapped (h : s.TablesFit) : s.mapped.TablesFit := by
  unfold State.mapped
  split
  · next j hj => exact h.endMapping (List.mem_of_find?_eq_some hj)
  · exact h

/-! ### Orders -/

theorem tryOrder (h : s.TablesFit) (tag : U8) (f : OrderFields) : (s.tryOrder tag f).TablesFit := by
  unfold State.tryOrder State.placeOrder
  repeat' split
  all_goals first | exact h.same | skip
  exact answer (settled (locate (s := s.acceptOrder _) h.same _)) _ _ _ _

theorem releaseLeft (h : s.TablesFit) (o : Order) : (s.leaveJob o).TablesFit := by
  unfold State.leaveJob
  repeat' split
  · exact h
  · exact h.withJob _ (f := fun j => { j with joiners := j.joiners.filter fun n => n != o.number }) fun j hj => hj
  · next hb _ _ =>
    obtain ⟨n, -, hn⟩ := Option.bind_eq_some_iff.1 hb
    exact (h.retireJob (job?_mem hn) _ _).releaseJob _
  · exact h.withJob _ (f := fun j => { j with creator := none }) fun j hj => hj

theorem cancelOrder (h : s.TablesFit) (tag : U8) (n : U32) : (s.cancelOrder tag n).TablesFit := by
  unfold State.cancelOrder
  repeat' split
  all_goals first | exact h.same | skip
  refine answer ?_ _ _ _ _
  unfold State.cancel
  dsimp only
  split
  · exact ((h.releaseLeft _).leaveTable _ _ _).retryAccount _
  · exact (h.releaseLeft _).leaveTable _ _ _

theorem retireOrder (h : s.TablesFit) (tag : U8) (n : U32) : (s.retireOrder tag n).TablesFit := by
  unfold State.retireOrder
  repeat' split
  all_goals first | exact h.same | exact answer (h.leaveTable _ _ _) _ _ _ _

theorem prepareDelivery (h : s.TablesFit) (tag : U8) (n : U32) : (s.prepareDelivery tag n).TablesFit := by
  unfold State.prepareDelivery State.prepareOrder
  repeat' split
  all_goals first | exact h.same | skip
  exact placeClaim (h.withOrder _ _) _

theorem endPreparation (h : s.TablesFit) (n : Nat) : (s.endPreparation n).TablesFit := by
  unfold State.endPreparation
  split
  · exact h.finishPreparation _
  · exact h

theorem expireReady (h : s.TablesFit) (n : Nat) : (s.expireReady n).TablesFit := (h.unprepare n).latch _

theorem bindDelivery (h : s.TablesFit) (tag : U8) (n : U32) : (s.bindDelivery tag n).TablesFit := by
  unfold State.bindDelivery State.bindReady State.bindOrder
  repeat' split
  all_goals exact h.same

/-! ### Holds, accounts, statements -/

theorem placeHold (h : s.TablesFit) (tag : U8) (f : HoldFields) : (s.placeHold tag f).TablesFit := by
  unfold State.placeHold
  repeat' split
  all_goals exact h.same

theorem liftHold (h : s.TablesFit) (tag n : U8) : (s.liftHold tag n).TablesFit := by
  unfold State.liftHold
  repeat' split
  all_goals first | exact h.same | skip
  exact answer (reevaluate _ (same h)) _ _ _ _

theorem loadAccount (h : s.TablesFit) (tag : U8) (a : U16) (i : U8) (b l : U32) : (s.loadAccount tag a i b l).TablesFit := by
  unfold State.loadAccount
  dsimp only
  repeat' split
  all_goals exact h.same

theorem setSchedule (h : s.TablesFit) (tag : U8) (f : ScheduleFields) : (s.setSchedule tag f).TablesFit := by
  unfold State.setSchedule
  split <;> exact h.same

theorem creditAccount (h : s.TablesFit) (tag : U8) (a : U16) (x : U32) : (s.creditAccount tag a x).TablesFit := by
  unfold State.creditAccount
  repeat' split
  all_goals first | exact h.same | exact answer (retryAccount (h.withAccount _ _) _) _ _ _ _

theorem setLimit (h : s.TablesFit) (tag : U8) (a : U16) (x : U32) : (s.setLimit tag a x).TablesFit := by
  unfold State.setLimit State.replaceLimit
  dsimp only
  repeat' split
  all_goals first | exact h.same | exact answer (retryAccount (h.withAccount _ _) _) _ _ _ _

theorem closeStatement (h : s.TablesFit) (tag : U8) : (s.closeStatement tag).TablesFit := by
  unfold State.closeStatement
  split
  · exact answer (h.closeOpenStatement _) _ _ _ _
  · exact h.same

theorem releaseStatement (h : s.TablesFit) (tag : U8) (n : U32) : (s.releaseStatement tag n).TablesFit := by
  unfold State.releaseStatement State.catchUp
  dsimp only
  repeat' split
  all_goals first | exact h.same | exact answer (closeOpenStatement (same h) _) _ _ _ _

/-! ### The line and the lane -/

theorem receive (h : s.TablesFit) (l : List LineChar) : (s.receive l).TablesFit := by
  unfold State.receive State.countLineError State.buffer
  repeat' split
  all_goals exact h.same

theorem abortLane (h : s.TablesFit) : s.abortLane.TablesFit := by
  unfold State.abortLane
  split
  · exact h.endTransfer _ _
  · exact h

theorem linkReset (h : s.TablesFit) : s.linkReset.TablesFit := abortLane (same h)

theorem moveByte (h : s.TablesFit) (b : Binding) (d : U8) : (s.moveByte b d).1.TablesFit ∧
    (s.moveByte b d).1.agenda = s.agenda := by
  unfold State.moveByte
  dsimp only
  split <;> exact ⟨h.same, rfl⟩

theorem lastByte (h : s.TablesFit) (d : U8) : (s.lastByte d).TablesFit := by
  unfold State.lastByte
  dsimp only
  repeat' split
  · exact h
  · exact same ((h.moveByte _ _).1.completeTransfer _ _)
  · exact (h.moveByte _ _).1.completeTransfer _ _

theorem releaseSelect (h : s.TablesFit) : s.releaseSelect.TablesFit := by
  unfold State.releaseSelect
  dsimp only
  split
  · exact endTransfer (same h) _ _
  · exact h.same

theorem expireBinding (h : s.TablesFit) : s.expireBinding.TablesFit := by
  unfold State.expireBinding
  split
  · exact h.endTransfer _ _
  · exact h

theorem tick (h : s.TablesFit) : s.tick.TablesFit := ⟨h.1, h.2, h.link.tick, h.4, h.5, h.6, h.7⟩

theorem foldl_fit {α : Type} {f : State → α → State} (hf : ∀ s x, Fit s → Fit (f s x)) :
    ∀ (l : List α) {s : State}, Fit s → Fit (l.foldl f s)
  | [], _, h => h
  | x :: l, s, h => foldl_fit hf l (hf s x h)

theorem takeDue (h : Fit s) : Fit s.takeDue := by
  unfold State.takeDue State.dueExpiries State.dueTimeouts
  refine foldl_fit (fun s x hs => due_fit hs fun u hu _ => hu.expireReady _) _ ?_
  refine due_fit (foldl_fit (fun s x hs => due_fit hs fun u hu _ => hu.timeOut _) _ ?_) fun u hu hp => hu.probe hp
  refine due_fit (due_fit (due_fit (due_fit (due_fit (handedOff h) ?_) ?_) ?_) ?_) ?_
  · exact fun u hu _ => hu.expireWait
  · exact fun u hu _ => hu.expireBinding
  · exact fun u hu _ => hu.takeMinute
  · exact fun u hu _ => hu.takeRollover
  · exact fun u hu _ => hu.takeBoundary

end State.TablesFit

end Sys2Proof.Machine
end

