-- ==== Sys2Proof/Tests/Slice0.lean ====
section
/-! SUPPORT. The model's own tests: ill-formed commands, the checks and the printed examples of the spec, and for each
statement a state and operands that meet its hypotheses, clause by clause, with what the part then does. -/

namespace Sys2Proof.Tests

open Sys2Proof Sys2Proof.Machine

set_option Elab.async false
set_option synthInstance.maxSize 2000

/-! ### Small states -/

/-- The state a command answers with. -/
def answerOf (c : Instr) (s : State) : Option State :=
  match exec c s with
  | .next t => some t
  | .fault _ => none
  | .refused _ => none

/-- The request meets the premises of its statement, and the part refuses it with the code. -/
def refuses (s : State) (c : Instr) (kind tag : U8) (code : Code) : Bool :=
  decide (s.Ready c ∧ answerOf c s = some (s.replied kind tag code []))

/-- The same, as a statement. -/
abbrev Refuses (s : State) (c : Instr) (kind tag : U8) (code : Code) : Prop := refuses s c kind tag code = true

/-- A part in a mode. -/
def inMode (m : Mode) : State := { State.reset with req := { State.reset.req with mode := m } }

/-- A part in SERVICE whose stopped calendar shows day 100, 12:30. -/
def serving : State := { inMode .service with cal := ⟨.stopped, 0, 0, 30, 12, 100⟩ }

/-- A part whose calendar runs, with what its last tick raised. -/
def raising (s : State) (e : DueEvents) : State := { s with cal := { s.cal with state := .running }, events := e }

/-- The edition of the tests. -/
def key : EditionKey := ⟨100, 3⟩

/-- An edition entry in a state; closed on day 98 with gaps once it is CLOSED. -/
def edition (st : EdState) : Edition :=
  ⟨key, st, 4, none, false, false, false, false, 0, if st = .closed then some 98 else none,
    if st = .closed then some [2, 3, 4] else none, 0⟩

/-- The first entries of an edition table. -/
def table (l : List Edition) : List (Option Edition) := l.map some ++ List.replicate (64 - l.length) none

/-- A page record: page 1, version 1 of slot 0, one tile. -/
def page (st : RecState) : Page :=
  ⟨0, 1, 1, 2, st, false, ⟨1, 1⟩, crc32 [7], if st = .filed then some 500 else none,
    if st = .filed then some 500 else none, if st = .filed then some (crc32 [7]) else none, 0, none, [], .pending⟩

/-- A photo record: photograph 9, one tile. -/
def photo (st : RecState) : Photo :=
  ⟨9, st, ⟨.agency, none, 2⟩, ⟨1, 1⟩, crc32 [7], if st = .filed then some 600 else none,
    if st = .filed then some 600 else none, if st = .filed then some (crc32 [7]) else none, 0, none, 0, 0,
    if st = .filed then some 97 else none, .pending⟩

/-- A part in SERVICE with the tests' edition and records. -/
def filed (st : EdState) (pages : List Page) (photos : List Photo) : State :=
  { serving with cat := ⟨table [edition st], pages, photos, false⟩ }

/-- The first segment held. -/
def holding (s : State) (h : Holder) : State :=
  { s with pool := ⟨some h :: List.replicate 127 none, [(h, [])], []⟩ }

/-- An operation in slot 2 with issue 5. -/
def running (s : State) (op : Op) (ticks : Nat) : State :=
  { s with link := { s.link with slots := s.link.slots.set 2 ⟨5, some ⟨op, ticks⟩⟩ } }

/-- The answer's address of that operation. -/
def answered : SlotTag := ⟨2, 5⟩

/-- The lane bound, with select asserted or not. -/
def bound (s : State) (b : Binding) (select : Bool) : State := { s with lane := ⟨some b, select, none, false⟩ }

/-- A photograph's transfer that waits for one byte. -/
def inbound : Binding := ⟨.record (.photo 9), false, 1, 0, 0xFFFFFFFF#32, .active⟩

/-- An order of the tests' page, with its edition pinned. -/
def order (st : OrdState) : Order :=
  ⟨1, 305, key, 1, 0, some 1, none, 0, 1, 0, 1, false, false, st, .pending, some 0, none, none, none, 0, 0, none, none, 0,
    none, none, false, none, 0⟩

/-- An account of the tests. -/
def account : Account := ⟨305, 0, 1000, 500, 1, []⟩

/-- A part with a CLOSED edition, its page, one order and its account. -/
def ordered (st : OrdState) : State :=
  { filed .closed [page .filed] [photo .filed] with
    ord := ⟨[order st], 2, []⟩, fee := { serving.fee with accounts := [account] } }

/-- A job on photograph 9. -/
def job (st : JobState) : Job := ⟨1, st, .photo 9, none, 0, 1000, 8, none, [], 1, 0, none, .pending, noKey⟩

/-- A part with one job. -/
def working (st : JobState) : State :=
  { filed .opened [] [photo .filed] with eng := ⟨[job st], [], 2, [], []⟩ }

/-! ### Ill-formed commands -/

theorem test_illFormed_noCharacter : Instr.wellFormed (.frameReceived []) = false := by decide
theorem test_illFormed_knownKind : Instr.wellFormed (.unknownRequest 0 0x01) = false := by decide
theorem test_illFormed_placementCount :
    Instr.wellFormed (.filePage 0 ⟨key, 1, 0, 1, 1, 0, 1, []⟩) = false := by decide
theorem test_illFormed_schedule :
    Instr.wellFormed (.setSchedule 0 ⟨[], [], [], [], 0, 0, []⟩) = false := by decide
theorem test_illFormed_locators :
    Instr.wellFormed (.intakeWriteCompletion answered (.done ⟨0, 1⟩)) = false ∧
    Instr.wellFormed (.restorationWriteCompletion answered (.done ⟨0, 1⟩)) = false := by decide
theorem test_illFormed_volume : Instr.wellFormed (.sealVolumeCompletion answered (.done 0)) = false := by decide
theorem test_illFormed_bodies :
    Instr.wellFormed (.surveyReadCompletion answered (.done [])) = false ∧
    Instr.wellFormed (.deliveryReadCompletion answered (.done [1])) = false := by decide
theorem test_illFormed_entryCopy :
    Instr.wellFormed (.readVolumeEntryCompletion answered (.done (.page ⟨8, 0, ⟨1, 1⟩, 5, 0, 0, none, []⟩))) = false ∧
    Instr.wellFormed (.readVolumeEntryCompletion answered
      (.done (.photo ⟨⟨.staff, none, 0⟩, ⟨5, 1⟩, 5, 0, 0, none, 0⟩))) = false := by decide
theorem test_illFormed_indexMark :
    Instr.wellFormed (.indexReadCompletion answered (.done ⟨[⟨⟨1, 16⟩, 4, 1, [], false, 0⟩], [], []⟩)) = false ∧
    Instr.wellFormed (.indexReadCompletion answered (.done ⟨[⟨⟨1, 2⟩, 4, 1, [5], false, 0⟩], [], []⟩)) = false := by decide
theorem test_illFormed_indexPage :
    Instr.wellFormed (.indexReadCompletion answered (.done ⟨[],
      [⟨key, 4, 0, 1, 0, ⟨1, 1⟩, 0, some 1, some 1, some 0, 0, none, []⟩], []⟩)) = false := by decide
theorem test_illFormed_indexPhoto :
    Instr.wellFormed (.indexReadCompletion answered (.done ⟨[], [],
      [⟨9, ⟨.staff, none, 0⟩, ⟨1, 1⟩, 0, some 1, some 1, some 0, 1, none, 0⟩]⟩)) = false := by decide

/-! ### Printed values: the checks of R2, the stretch of R110, the price of R153 and R154 -/

theorem test_crc32 : crc32 [0x31, 0x32, 0x33, 0x34, 0x35, 0x36, 0x37, 0x38, 0x39] = 0xCBF43926 := by decide +kernel
theorem test_crc16 : crc16 [0x31, 0x32, 0x33, 0x34, 0x35, 0x36, 0x37, 0x38, 0x39] = 0x29B1 := by decide +kernel
theorem test_stretch_one : stretch ⟨40, 200⟩ 120 = 128 ∧ stretch ⟨40, 200⟩ 180 = 223 := by decide +kernel
theorem test_stretch_two : stretch ⟨239, 255⟩ 250 = 175 := by decide +kernel
theorem test_points_widen :
    pointsOf (histogramOf [250, 250]) 0 1000 16 = ⟨239, 255⟩ ∧ pointsOf (histogramOf [10, 10]) 0 1000 16 = ⟨10, 26⟩ ∧
    pointsOf (histogramOf [239]) 100 900 16 = ⟨239, 255⟩ := by decide +kernel
theorem test_core_rounds :
    coreOf 50 1 0 1 0 = 1 ∧ coreOf 49 1 0 1 0 = 0 ∧ coreOf 1000000 999 0 50 0 = 499500000 ∧
    coreOf 1000000 999 0 50 1 = 1 := by decide +kernel

/-! ### The step, every command, and taking a request -/

theorem test_step_front : (match step { serving with pending := [.breakEnd, .readTime 1] } with
    | .next t => t.pending
    | .fault _ | .refused _ => []) = [.readTime 1] := by decide +kernel
theorem test_step_idles : State.reset.pending = [] ∧ (match step State.reset with
    | .next t => decide (t = State.reset)
    | .fault _ | .refused _ => false) = true := by decide +kernel
theorem test_frame_premise : ∀ p, Instr.baseTick ≠ .powerOn p := by intro p h; cases h
theorem test_takes_head :
    State.takes { serving with port := { serving.port with inbound := [⟨0, 0x33, 4, []⟩] } } (.readTime 4) = true ∧
    State.takes { serving with port := { serving.port with inbound := [⟨0, 0x33, 4, []⟩] } } (.readTime 5) = false ∧
    State.takes { serving with port := { serving.port with outbound := List.replicate 8 ⟨0, 0, 0, []⟩ } } (.readTime 4)
      = false ∧ (encodeRequest (.readTime 4)).isSome = true := by decide +kernel
theorem test_takes_after_a_break :
    let broken : State := { serving with port := { serving.port with inBreak := true } }
    serving.Taken (.readTime 4) ∧ serving.Taken (.runCalendar 4) ∧ serving.handedOff.takes (.runCalendar 4) = true ∧
    broken.takes (.readTime 4) = false ∧
    (answerOf .linkReset serving).map (fun t => (t.takes (.readTime 4), t.port.inBreak)) = some (false, true) ∧
    ((answerOf .linkReset serving).bind (answerOf .breakEnd)).map (fun t => t.takes (.readTime 4)) = some true := by
  decide +kernel
theorem test_standby_wakes :
    (inMode .standby).takes (.readTime 4) = true ∧
    (answerOf (.readTime 4) (inMode .standby)).map (fun t => (t.req.mode, t.req.latched)) = some (.service, 0x40000) := by
  decide +kernel
theorem test_standby_premises :
    (∀ tag, Instr.readTime 4 ≠ .enterSetup tag) ∧ (∀ tag, Instr.readTime 4 ≠ .enterStandby tag) ∧
    (∀ tag, Instr.readTime 4 ≠ .readNotices tag) ∧ ∀ tag mask seconds, Instr.readTime 4 ≠ .wait tag mask seconds := by
  refine ⟨?_, ?_, ?_, ?_⟩ <;> intros <;> intro h <;> cases h

/-! ### Main power and the message line -/

theorem test_power_loss :
    answerOf .mainPowerLoss serving = some { serving with powered := false } ∧
    answerOf (.readTime 4) { serving with powered := false } = some { serving with powered := false } := by decide +kernel
theorem test_judge_good : judge 3 ((Frame.bytes ⟨3, 0x33, 1, []⟩).map fun b => ⟨b, false⟩) = .good ⟨3, 0x33, 1, []⟩ := by
  decide +kernel
set_option maxRecDepth 20000 in
theorem test_judge_longest :
    judge 3 ((Frame.bytes ⟨3, 0x33, 1, List.replicate 1024 0⟩).map fun b => ⟨b, false⟩) =
      .good ⟨3, 0x33, 1, List.replicate 1024 0⟩ := by decide +kernel
theorem test_judge_bad :
    judge 3 [⟨2, false⟩] = .ignored ∧ judge 3 [⟨3, false⟩, ⟨0, false⟩] = .discarded ∧
    judge 3 ([⟨3, false⟩, ⟨0, false⟩, ⟨0, false⟩, ⟨0, false⟩, ⟨0, false⟩, ⟨0, true⟩, ⟨0, false⟩]) = .discarded ∧
    judge 3 ([⟨3, false⟩, ⟨0, false⟩, ⟨0, false⟩, ⟨4, false⟩, ⟨1, false⟩, ⟨0, false⟩, ⟨0, false⟩]) = .discarded ∧
    judge 3 ([⟨3, false⟩, ⟨0, false⟩, ⟨0, false⟩, ⟨0, false⟩, ⟨1, false⟩, ⟨0, false⟩, ⟨0, false⟩]) = .discarded ∧
    judge 3 ([⟨3, false⟩, ⟨0, false⟩, ⟨0, false⟩, ⟨0, false⟩, ⟨0, false⟩, ⟨0, false⟩, ⟨0, false⟩]) = .discarded := by
  decide +kernel
theorem test_line_receives :
    serving.Up ∧ judge 0 [⟨0, false⟩] = .discarded ∧ judge 0 [⟨1, false⟩] = .ignored ∧
    (answerOf (.frameReceived [⟨0, false⟩]) serving).map (fun t => (t.port.linkErrors, t.req.latched)) = some (1, 0x8000) ∧
    (answerOf (.frameReceived ((Frame.bytes ⟨0, 0x33, 1, []⟩).map fun b => ⟨b, false⟩)) serving).map (fun t =>
      t.port.inbound) = some [⟨0, 0x33, 1, []⟩] ∧
    (answerOf (.frameReceived ((Frame.bytes ⟨0, 0x33, 1, []⟩).map fun b => ⟨b, false⟩))
      { serving with port := { serving.port with inbound := List.replicate 2 ⟨0, 0x33, 1, []⟩ } }).map (fun t =>
      (t.port.overruns, t.req.latched)) = some (1, 0x10000) := by decide +kernel

/-- One frame waits to be sent. -/
def sending (started : Bool) (waiting : List Frame) (own : Bool) : State :=
  { serving with port := { serving.port with
    outbound := ⟨0x80, 0xB3, 1, []⟩ :: List.replicate 7 ⟨0x80, 0xFF, 0, []⟩, waiting := waiting, ownFrame := own
    sending := if started then some (Frame.bytes ⟨0x80, 0xB3, 1, []⟩) else none } }

theorem test_line_guard :
    answerOf (.frameSendStart ⟨3, false⟩) (sending false [] false) = some (sending true [] false) ∧
    answerOf (.frameSendStart ⟨6, false⟩) (sending false [] true) = some (sending false [] true) ∧
    answerOf (.frameSendStart ⟨7, false⟩) (sending false [] true) = some (sending true [] true) ∧
    answerOf (.frameSendStart ⟨3, true⟩) (sending false [] true) = some (sending true [] false) ∧
    answerOf (.frameSendStart ⟨2, true⟩) (sending false [] true) = some (sending false [] true) := by decide +kernel
theorem test_line_sends :
    answerOf .arbitrationLost (sending true [] true) = some (sending false [] true) ∧
    (answerOf .frameSent (sending true [] false)).map (fun t => (t.port.outbound.length, t.port.ownFrame)) =
      some (7, true) ∧
    (answerOf .frameSent (sending true [⟨1, 2, 3, []⟩] false)).map (fun t => (t.port.outbound.length, t.port.waiting)) =
      some (8, []) ∧
    answerOf .breakEnd { serving with port := { serving.port with inBreak := true } } = some serving := by decide +kernel
theorem test_link_reset :
    serving.Up ∧ serving.lane.slot = none ∧
    (answerOf .linkReset (sending true [] false)).map (fun t => (t.port.outbound, t.port.linkResets, t.port.inBreak)) =
      some ([], 1, true) ∧
    (answerOf .linkReset (holding (bound (filed .opened [] [photo .receiving]) inbound true) (.record (.photo 9)))).map
      (fun t => (t.lane.slot, t.cat.photos.map Photo.outcome, t.req.latched)) = some (none, [.aborted], 8) := by
  decide +kernel
theorem test_link_status :
    serving.Ready (.linkStatus 4 0) ∧ serving.Ready (.linkStatus 4 255) ∧
    (answerOf (.linkStatus 4 1) { serving with port := { serving.port with linkErrors := 255 } }).map (fun t =>
      (t.port.linkErrors, (t.port.outbound.map Frame.body).flatten.take 5)) = some (0, [0, 0, 0, 255, 0]) := by
  decide +kernel

/-! ### The body lane -/

/-- A photograph's transfer in a part that expects it. -/
def receiving (b : Binding) (select : Bool) : State :=
  holding (bound (filed .opened [] [photo .receiving]) b select) (.record (.photo 9))

/-- An order's delivery of a body of two bytes. -/
def delivering (moved : Nat) (st : BindState) (select : Bool) : State :=
  let s := bound (ordered .delivering) ⟨.order 1, true, 2, moved, 0xFFFFFFFF#32, st⟩ select
  { s with pool := ⟨some (.order 1) :: List.replicate 127 none, [(.order 1, [7, 8])], []⟩ }

theorem test_lane_select :
    (answerOf .selectAsserted (delivering 0 (.bound 9) false)).map State.lane =
      some ⟨some ⟨.order 1, true, 2, 0, 0xFFFFFFFF#32, .active⟩, true, some 7, false⟩ ∧
    answerOf (.byteMoved 1) (delivering 0 (.bound 9) true) = some (delivering 0 (.bound 9) true) := by decide +kernel
theorem test_lane_bytes :
    (answerOf (.byteMoved 1) (delivering 0 .active true)).map (fun t => t.lane.out) = some (some 8) ∧
    (answerOf (.byteMoved 5) (receiving { inbound with count := 2 } true)).map (fun t =>
      (t.pool.content (.record (.photo 9)), (t.lane.slot.map Binding.moved))) = some ([5], some 1) := by decide +kernel
theorem test_lane_complete_photo :
    (receiving inbound true).Working ∧ (receiving inbound true).Still ∧ (receiving inbound true).link.Takes 0 ∧
    crc32End (crc32Byte 0xFFFFFFFF#32 7) = (photo .receiving).declared ∧
    (answerOf (.transferComplete 7) (receiving inbound true)).map (fun t =>
      (t.cat.photos.map (fun p => (p.state, p.filedOn)), t.lane.slot, (t.link.running? 0).map fun r => r.op.code)) =
      some ([(.writing, some 100)], none, some 1) ∧
    (answerOf (.transferComplete 8) (receiving inbound true)).map (fun t =>
      (t.cat.photos.map (fun p => (p.state, p.outcome)), t.pool.free)) = some ([(.failed, .bodyCheck)], 128) := by
  decide +kernel
theorem test_lane_complete_page :
    (answerOf (.transferComplete 7) (holding (bound (filed .opened [page .receiving] [])
      { inbound with owner := .record (.page 0 1 1) } true) (.record (.page 0 1 1)))).map (fun t =>
      t.cat.pages.map Page.state) = some [.writing] := by decide +kernel
/-- A query that waits in the inbound buffer comes between the two changes and reports STAGED; the hand-off follows it at once.
Without one, the write's answer may come next. -/
theorem test_query_between :
    let s (f : List Frame) : State := { receiving inbound true with port := { serving.port with inbound := f } }
    let q : Frame := ⟨0, 0x43, 4, [0, 0, 0, 9]⟩
    let t := answerOf (.transferComplete 7) (s [q])
    let states (t : Option State) := t.map fun t => t.cat.photos.map Photo.state
    (s [q]).queryWaits = true ∧ (s [⟨0, 0x31, 4, []⟩]).queryWaits = false ∧ states t = some [.staged] ∧
    (t.bind (answerOf (.queryPhoto 4 9))).map (fun t =>
      (t.cat.photos.map Photo.state, (t.port.outbound.map Frame.body).map fun b => b.take 2)) = some ([.writing], [[0, 1]]) ∧
    states (answerOf (.transferComplete 7) (s [⟨0, 0x31, 4, []⟩])) = some [.writing] ∧
    states ((answerOf (.transferComplete 7) (s [])).bind (answerOf (.intakeWriteCompletion ⟨0, 1⟩ (.done ⟨600, crc32 [7]⟩)))) =
      some [.filed] ∧
    states (t.bind (answerOf (.intakeWriteCompletion ⟨0, 1⟩ (.done ⟨600, crc32 [7]⟩)))) = some [.filed] ∧
    (t.bind (answerOf (.intakeWriteCompletion ⟨0, 2⟩ .full))) = t := by decide +kernel
theorem test_lane_hands_off :
    let staged : State := holding (filed .opened [page .staged] []) (.record (.page 0 1 1))
    let shot : State := holding (filed .opened [] [photo .staged]) (.record (.photo 9))
    let read : State := { shot with port := { shot.port with inbound := [⟨0, 0x43, 4, [0, 0, 0, 9]⟩] } }
    shot.link.Takes 0 ∧ shot.cat.staged? = some (.photo 9) ∧ staged.cat.staged? = some (.page 0 1 1) ∧
    shot.takes (.runCalendar 4) = true ∧ shot.Awake ∧ (Instr.runCalendar 4).reads = false ∧ shot.handStaged.Unstaged ∧
    staged.handStaged.endChange.Unstaged ∧
    read.Asked (.queryPhoto 4 9) ∧ answerOf (.queryPhoto 4 9) read = some (read.reported 0x43 4 .ok (read.photoFields (photo .staged))) ∧
    (answerOf (.runCalendar 4) shot).map (fun t =>
      (t.cat.photos.map (fun p => (p.state, p.filedOn)), (t.link.running? 0).map Running.ticks)) =
      some ([(.writing, some 100)], some 1024) ∧
    (answerOf .baseTick staged).map (fun t => (t.cat.pages.map Page.state, (t.link.running? 0).map fun r => r.op.code)) =
      some ([.writing], some 1) := by decide +kernel
/-- A STAGED photograph while the link is OFFLINE. -/
def stagedOffline : State :=
  let s : State := holding (filed .opened [] [photo .staged]) (.record (.photo 9))
  { s with link := { s.link with state := .offline, failures := 8, probeTicks := some 9 } }

theorem test_hand_off_offline :
    let s := stagedOffline
    let handed := s.handStaged.endChange
    let again : Instr := .filePhoto 4 ⟨9, 1, 0, 0, 2, 1, 1, 5⟩
    s.agenda = [] ∧ s.pool.claims = [] ∧ s.cat.staged? = some (.photo 9) ∧ s.cat.photo? 9 = some (photo .staged) ∧
    0 < s.pool.heldBy (.record (.photo 9)) ∧ handed.Unstaged ∧
    handed = State.close { (s.latch .fileFailed) with
      cat := s.cat.withPhoto 9 fun p => { p with state := .failed, outcome := .storeOffline, filedOn := some s.cal.day }
      pool := s.pool.without (.record (.photo 9)) } ∧
    answerOf again s = answerOf again handed ∧ answerOf .linkReset s = answerOf .linkReset handed ∧
    answerOf .baseTick s = answerOf .baseTick handed ∧
    (answerOf again s).map (fun t => (t.cat.photos.map (fun p => (p.state, p.declared)), t.port.outbound.map Frame.body)) =
      some ([(.receiving, 5)], [[0, 0, 0, 16, 0]]) ∧
    (answerOf (.dropPhoto 4 9) s).map (fun t => (t.cat.photos.length, t.port.outbound.map fun f => f.body.head?)) =
      some (0, [some 0]) := by decide +kernel

/-- With seven frames queued and FILE_FAILED masked, the hand-off's NOTICE takes the last place, and the request waits. -/
theorem test_hand_off_takes_the_place :
    let s : State := { stagedOffline with
      port := { stagedOffline.port with outbound := List.replicate 7 ⟨0, 0, 0, []⟩ }
      req := { stagedOffline.req with mask := 8 } }
    s.takes (.runCalendar 4) = true ∧ ¬s.Taken (.runCalendar 4) ∧
    answerOf (.runCalendar 4) s = some s.handedOff ∧ s.handedOff.port.outbound.length = 8 := by decide +kernel
theorem test_lane_complete_order :
    (delivering 1 .active true).Working ∧ (delivering 1 .active true).Still ∧
    (answerOf (.transferComplete 0) (delivering 1 .active true)).map (fun t =>
      (t.lane, t.ord.live.length, t.ord.finished.map Order.state, t.pool.free)) =
      some (⟨none, true, some 0xFF, true⟩, 0, [.done], 128) := by decide +kernel
theorem test_lane_short_record :
    (answerOf .selectReleased (receiving inbound true)).map (fun t => t.cat.photos.map Photo.outcome) =
      some [.bodyShort] ∧
    (answerOf .laneBindExpiry (receiving { inbound with state := .bound 0 } false)).map (fun t =>
      t.cat.photos.map Photo.outcome) = some [.expired] ∧
    (receiving inbound true).takes (.cancelTransfer 4) = true ∧
    (answerOf (.cancelTransfer 4) (receiving inbound true)).map (fun t =>
      (t.cat.photos.map Photo.outcome, t.port.outbound.map Frame.body)) =
      some ([.aborted], [[0, 1, 0, 0, 0, 1, 0, 0, 0, 0]]) := by decide +kernel
theorem test_lane_short_order :
    (answerOf .selectReleased (delivering 1 .active true)).map (fun t =>
      t.ord.live.map (fun o => (o.state, o.readyTicks))) = some [(.ready, 153600)] ∧
    (answerOf .laneBindExpiry (delivering 0 (.bound 0) false)).map (fun t => t.ord.live.map Order.state) =
      some [.ready] ∧
    (answerOf (.cancelTransfer 4) (delivering 1 .active true)).map (fun t => t.ord.live.map Order.state) =
      some [.ready] := by decide +kernel
theorem test_lane_free :
    Refuses serving (.cancelTransfer 4) 0x1A 4 .badState ∧
    answerOf .selectReleased { serving with lane := ⟨none, true, some 0xFF, true⟩ } = some serving := by decide +kernel

/-! ### Requests of no job -/

theorem test_identify :
    (inMode .standby).takes (.identify 4) = true ∧ serving.Calm ∧ serving.Awake ∧
    (answerOf (.identify 4) serving).map (fun t => (t.port.outbound.map Frame.body).flatten.take 6) =
      some [0, 7, 0x40, 1, 0, 2] := by decide +kernel
theorem test_unknown_request :
    Refuses serving (.unknownRequest 4 0x80) 0x80 4 .unknownRequest ∧ (0x80 : U8).toNat ∉ requestKinds := by
  decide +kernel
theorem test_start_service :
    State.reset.Ready (.startService 4) ∧ (inMode .setupPending).req.entryTag = none ∧
    Refuses { State.reset with cat := { State.reset.cat with reloading := true } } (.startService 4) 0x02 4 .busy ∧
    (answerOf (.startService 4) State.reset).map (fun t => (t.req.mode, t.req.latched)) = some (.service, 0x20000) := by
  decide +kernel

/-- A part whose mode entry is pending because a job is live. -/
def pending (m : Mode) : State :=
  { working .survey with req := { State.reset.req with mode := m, entryTag := some 9 } }

theorem test_start_service_aborts :
    (pending .setupPending).Ready (.startService 4) ∧
    (answerOf (.startService 4) (pending .setupPending)).map (fun t =>
      (t.req.mode, t.port.outbound.map Frame.kind, t.port.outbound.map Frame.body)) =
      some (.service, [0x82, 0x83], [[0], [17]]) ∧
    (pending .standbyPending).Ready (.startService 4) ∧
    (answerOf (.startService 4) (pending .standbyPending)).map (fun t =>
      (t.req.mode, t.port.outbound.map Frame.kind, t.port.outbound.map Frame.body)) =
      some (.service, [0x82, 0x84], [[0], [17]]) := by decide +kernel
theorem test_enter_setup :
    State.reset.Ready (.enterSetup 4) ∧ Refuses (pending .setupPending) (.enterSetup 4) 0x03 4 .busy ∧
    Refuses (pending .standbyPending) (.enterSetup 4) 0x03 4 .badState ∧
    Refuses (filed .opened [] []) (.enterSetup 4) 0x03 4 .badState ∧ serving.Ready (.enterSetup 4) ∧
    (answerOf (.enterSetup 4) serving).map (fun t => (t.req.mode, t.port.outbound.length)) = some (.setup, 1) ∧
    (filed .closing [page .writing] []).Ready (.enterSetup 4) ∧
    (answerOf (.enterSetup 4) (filed .closing [page .writing] [])).map (fun t => (t.req.mode, t.req.entryTag)) =
      some (.setupPending, some 4) := by decide +kernel
theorem test_enter_standby :
    Refuses State.reset (.enterStandby 4) 0x04 4 .badState ∧ Refuses (pending .standbyPending) (.enterStandby 4) 0x04 4 .busy ∧
    Refuses (filed .closing [page .writing] []) (.enterStandby 4) 0x04 4 .badState ∧ serving.Ready (.enterStandby 4) ∧
    (answerOf (.enterStandby 4) serving).map (fun t => (t.req.mode, t.port.outbound.length)) = some (.standby, 1) ∧
    ({ working .survey with cat := { State.reset.cat with photos := [photo .filed] } } : State).Ready (.enterStandby 4) ∧
    (answerOf (.enterStandby 4) { working .survey with cat := { State.reset.cat with photos := [photo .filed] } }).map
      (fun t => t.req.mode) = some .standbyPending := by decide +kernel
theorem test_entries_complete :
    (inMode .setupPending).powered = true ∧ (inMode .setupPending).agenda = [] ∧
    (answerOf .setupEntryComplete { inMode .setupPending with
      req := { (inMode .setupPending).req with entryTag := some 9 } }).map (fun t =>
      (t.req.mode, t.port.outbound.map Frame.tag)) = some (.setup, [9]) ∧
    (answerOf .standbyEntryComplete (inMode .standbyPending)).map (fun t => (t.req.mode, t.port.outbound.length)) =
      some (.standby, 0) := by decide +kernel
theorem test_standby_with_a_staged_record :
    let s : State := { receiving inbound true with
      req := { serving.req with mode := .standbyPending, entryTag := some 9 } }
    s.powered = true ∧ s.agenda = [] ∧ s.Unstaged ∧ s.link.held = [] ∧
    (answerOf (.transferComplete 7) s).map (fun t =>
      (t.req.mode, t.cat.photos.map Photo.state, t.req.latched, t.port.outbound.map Frame.tag)) =
      some (.standby, [.writing], 0x20000, [9]) := by decide +kernel
theorem test_entry_conditions :
    let op : Op := .writeIntake (.photo 9) 4096 (.photo (indexPhoto (photo .filed)))
    serving.setupReady = true ∧ serving.standbyReady = true ∧ (working .survey).setupReady = false ∧
    (filed .closing [] []).setupReady = false ∧ (filed .opened [] [photo .staged]).setupReady = false ∧
    (running serving op 9).setupReady = false ∧ (running serving op 9).standbyReady = false ∧
    (running serving .probe 9).standbyReady = true ∧ (ordered .preparing).standbyReady = false ∧
    (receiving inbound true).standbyReady = false := by decide +kernel
theorem test_options :
    serving.Ready (.setOption 4 1 0) ∧ serving.Ready (.readOptions 4) ∧
    (answerOf (.setOption 4 1 0) serving).map (fun t => t.req.options.retention) = some 1 ∧
    (answerOf (.setOption 4 2 61) serving).map (fun t => t.req.options.lead) = some 60 ∧
    (answerOf (.setOption 4 3 23) serving).map (fun t => t.req.options.boundary) = some 23 ∧
    (answerOf (.setOption 4 4 0) serving).map (fun t => t.req.options.autoResume) = some false ∧
    Refuses serving (.setOption 4 3 24) 0x05 4 .outOfRange ∧ Refuses serving (.setOption 4 0 1) 0x05 4 .outOfRange ∧
    Refuses serving (.setOption 4 5 1) 0x05 4 .outOfRange := by decide +kernel
theorem test_notices :
    ({ serving with req := { serving.req with latched := 8 } } : State).Ready (.readNotices 4) ∧
    serving.Ready (.setNoticeMask 4 0xFFFFFFFF) ∧
    (answerOf (.setNoticeMask 4 8) { serving with req := { serving.req with latched := 8 } }).map (fun t =>
      (t.port.outbound.map Frame.kind, t.req.armed)) = some ([0x89, 0x7F], false) ∧
    (answerOf (.readNotices 4) { serving with
      req := { serving.req with latched := 8, mask := 0x0F000000, armed := false }
      link := { serving.link with state := .offline, failures := 8 } }).map (fun t =>
      (t.port.outbound.map Frame.kind, t.req.armed)) = some ([0x88, 0x7F], false) := by decide +kernel
theorem test_levels :
    let low (n : Nat) : State := { serving with
      pool := ⟨List.replicate (128 - n) (some (.job 1)) ++ List.replicate n none, [], []⟩ }
    serving.levels = 0 ∧ (low 41).levels = 0 ∧ (low 40).levels = 0x02000000 ∧
    ({ serving with link := { serving.link with state := .recovered } } : State).levels = 0x01000000 ∧
    ({ serving with stmt := { serving.stmt with current := ⟨1, 0, 1, []⟩ } } : State).levels = 0x04000000 ∧
    (ordered .heldFunds).levels = 0x08000000 ∧ (ordered .charged).levels = 0 ∧ (serving.latch .woken).req.latched = 0x40000 := by
  decide +kernel
theorem test_wait_request :
    Refuses serving (.wait 4 0 0) 0x0A 4 .outOfRange ∧ Refuses serving (.wait 4 1 3601) 0x0A 4 .outOfRange ∧
    Refuses { serving with req := { serving.req with wait := some ⟨2, 1, none⟩ } } (.wait 4 1 3600) 0x0A 4 .busy ∧
    serving.Ready (.wait 4 1 3600) ∧
    (answerOf (.wait 4 1 3600) serving).map (fun t => t.req.wait) = some (some ⟨4, 1, some 921600⟩) ∧
    (answerOf (.wait 4 9 0) { serving with req := { serving.req with latched := 8 } }).map (fun t =>
      (t.req.latched, (t.port.outbound.map Frame.body).flatten)) = some (0, [0, 0, 0, 0, 8, 0, 0, 0, 0]) := by
  decide +kernel
theorem test_wait_ends :
    (answerOf .waitMet { serving with req := { serving.req with latched := 8, wait := some ⟨2, 8, none⟩ } }).map
      (fun t => (t.req.wait, t.req.latched, t.port.outbound.length)) = some (none, 0, 1) ∧
    ({ serving with req := { serving.req with wait := some ⟨2, 8, some 0⟩ } } : State).Up ∧
    (answerOf .waitTimeout { serving with req := { serving.req with wait := some ⟨2, 8, some 0⟩ } }).map
      (fun t => (t.req.wait, (t.port.outbound.map Frame.body))) = some (none, [[18]]) := by decide +kernel

/-! ### Calendar, deadlines and the trade day -/

theorem test_calendar_sound :
    (⟨.running, 255, 59, 59, 23, 7⟩ : Calendar).Sound ∧ (⟨.running, 255, 59, 59, 23, 7⟩ : Calendar).tick =
      ⟨.running, 0, 0, 0, 0, 8⟩ ∧ (⟨.stopped, 255, 59, 59, 23, 7⟩ : Calendar).Sound ∧ Calendar.unset.Sound := by
  decide +kernel
theorem test_base_tick :
    (answerOf .baseTick { serving with cal := ⟨.running, 255, 59, 59, 4, 7⟩ }).map (fun t => (t.cal, t.events)) =
      some (⟨.running, 0, 0, 0, 5, 7⟩, ⟨some 10380, none, none⟩) ∧
    (answerOf .baseTick { serving with cal := ⟨.running, 255, 59, 59, 5, 7⟩ }).map State.events =
      some ⟨some 10440, none, some 7⟩ ∧
    (answerOf .baseTick { serving with cal := ⟨.running, 255, 59, 59, 23, 7⟩ }).map State.events =
      some ⟨some 11520, some 8, none⟩ := by decide +kernel
theorem test_base_tick_premises :
    serving.powered = true ∧ serving.req.expiredWait? = none ∧ serving.lane.expired? = none ∧
    serving.events = ⟨none, none, none⟩ ∧ (∀ i, serving.link.timedOut? i = none) ∧ serving.link.probeDue = false ∧
    ∀ o ∈ serving.ord.live, o.state = .ready → o.readyTicks ≠ 0 := by
  refine ⟨by decide, by decide, by decide, by decide, fun i => ?_, by decide, by decide⟩
  by_cases h : i < 8
  · revert i; decide +kernel
  · simp [StoreLink.timedOut?, StoreLink.running?, show serving.link.slots = List.replicate 8 ⟨0, none⟩ by decide, h]
theorem test_set_time :
    Refuses { serving with cal := { serving.cal with state := .running } } (.setTime 4 60 0 0 0) 0x30 4 .calendarRunning ∧
    Refuses serving (.setTime 4 60 0 0 0) 0x30 4 .outOfRange ∧ Refuses serving (.setTime 4 59 59 24 0) 0x30 4 .outOfRange ∧
    (answerOf (.setTime 4 59 59 23 65535) serving).map State.cal = some ⟨.stopped, 0, 59, 59, 23, 65535⟩ := by
  decide +kernel
theorem test_run_stop_read :
    Refuses (inMode .service) (.runCalendar 4) 0x31 4 .calendarUnset ∧
    Refuses (inMode .service) (.stopCalendar 4) 0x32 4 .calendarUnset ∧ serving.Ready (.stopCalendar 4) ∧
    (answerOf (.runCalendar 4) serving).map (fun t => t.cal.state) = some .running ∧
    (inMode .standby).takes (.readTime 4) = true := by decide +kernel
theorem test_set_deadline_refusals :
    Refuses serving (.setDeadline 4 ⟨100, 16⟩ ⟨0, 0, 0, 0⟩) 0x34 4 .outOfRange ∧
    Refuses serving (.setDeadline 4 key ⟨1, 0, 24, 0⟩) 0x34 4 .outOfRange ∧
    Refuses serving (.setDeadline 4 key ⟨1, 0, 23, 59⟩) 0x34 4 .notFound ∧
    Refuses (filed .closed [] []) (.setDeadline 4 key ⟨1, 0, 23, 59⟩) 0x34 4 .badState ∧
    Refuses { filed .opened [] [] with cal := .unset } (.setDeadline 4 key ⟨1, 0, 23, 59⟩) 0x34 4 .calendarUnset := by
  decide +kernel
theorem test_set_deadline :
    (filed .opened [] []).Ready (.setDeadline 4 key ⟨0, 0, 99, 0⟩) ∧
    (answerOf (.setDeadline 4 key ⟨1, 100, 23, 59⟩) (filed .opened [] [])).map (fun t =>
      (t.deadlines, (t.cat.edition? 0).map Edition.deadline)) = some ([0], some (some ⟨100, 23, 59⟩)) := by decide +kernel
theorem test_deadline_order :
    insertDeadline id 5 [3, 4, 5, 6] = [3, 4, 5, 5, 6] ∧ [3, 4, 5, 6].Pairwise (fun a b => id a ≤ id b) := by decide

/-- An edition with a deadline now and a page on its way, when a minute event is due. -/
def due : State :=
  raising { filed .opened [page .receiving] [] with
    cat := ⟨table [{ edition .opened with deadline := some ⟨100, 12, 30⟩ }], [page .receiving], [], false⟩
    deadlines := [0] } ⟨some 144750, none, none⟩

theorem test_minute_event :
    due.Working ∧ due.deadlines.Nodup ∧ (∀ slot ∈ due.deadlines, 0 < due.cat.inFlight slot) ∧
    (answerOf .minuteEvent due).map (fun t => (t.deadlines, (t.cat.edition? 0).map fun e => (e.state, e.forced))) =
      some ([], some (.closing, true)) := by decide +kernel
theorem test_minute_event_warns :
    (answerOf .minuteEvent { due with events := ⟨some 144735, none, none⟩ }).map (fun t =>
      ((t.cat.edition? 0).map fun e => (e.state, e.warned), t.req.latched)) = some (some (.opened, true), 4) := by
  decide +kernel
theorem test_minute_event_ends_a_close :
    let s : State := { due with cat := { due.cat with pages := [page .filed] } }
    s.Working ∧ s.deadlines.length ≤ 64 ∧ s.link.state = .online ∧ s.cat.inFlight 0 = 0 ∧
    (answerOf .minuteEvent s).map (fun t =>
      ((t.cat.edition? 0).map fun e => (e.state, e.forced, e.gaps, e.closedOn), t.req.latched, t.link.held)) =
      some (some (.closed, true, some [2, 3, 4], some 100), 2, [.closeMark 0 ⟨key, 4, 100, [2, 3, 4], true, 0⟩]) := by
  decide +kernel
theorem test_rollover :
    serving.Up ∧ serving.hold.held = [] ∧
    (answerOf .dayRollover (raising { filed .opened [] [photo .filed] with
      hold := ⟨[⟨1, .day 5, 0, some 99⟩, ⟨2, .day 6, 0, some 100⟩], []⟩ } ⟨none, some 100, none⟩)).map (fun t =>
      (t.hold.entries.map Hold.number, t.cat.photos.length)) = some ([2], 0) := by decide +kernel
theorem test_boundary :
    let at_ (s : State) : State := raising s ⟨none, none, some 100⟩
    (answerOf .tradeDayBoundary (at_ (inMode .standby))).map (fun t => t.req.mode) = some .service ∧
    (answerOf .tradeDayBoundary (at_ serving)).map (fun t =>
      (t.stmt.closed.length, t.stmt.current.number, t.req.latched)) = some (1, 2, 0x800) ∧
    (answerOf .tradeDayBoundary (at_ { serving with
      stmt := ⟨⟨3, 0, 65535, []⟩, List.replicate 2 ⟨1, 0, 0, 0, 1, []⟩, []⟩ })).map (fun t => t.stmt.current.missed) =
      some 65535 := by decide +kernel

/-- What the last tick raised is taken before the calendar stops; a calendar that is not RUNNING has no event. -/
theorem test_stop_takes_the_events :
    due.Ready (.stopCalendar 4) ∧
    (answerOf (.stopCalendar 4) due).map (fun t => (t.cal.state, t.events.minute, t.deadlines)) =
      some (.stopped, none, []) ∧
    answerOf .minuteEvent { due with cal := { due.cal with state := .stopped } } =
      some { due with cal := { due.cal with state := .stopped } } := by decide +kernel

/-- One seal under way, one edition closed on day 98, at a boundary. -/
def sweeping (pins : Nat) : State :=
  raising { serving with
    cat := ⟨table [edition .sealing, { edition .closed with key := ⟨98, 1⟩, pins := pins }], [], [], false⟩
    vol := { serving.vol with sealQueue := [0] } } ⟨none, none, some 100⟩

theorem test_boundary_sweeps :
    (sweeping 0).Up ∧ (sweeping 0).stmt.held = [] ∧ (sweeping 0).vol.sealQueue.head? = some 0 ∧
    (answerOf .tradeDayBoundary (sweeping 0)).map (fun t => t.vol.sealQueue) = some [0, 1] ∧
    (answerOf .tradeDayBoundary (sweeping 1)).map (fun t =>
      (t.vol.sealQueue, (t.cat.edition? 1).map Edition.due)) = some ([0], some true) := by decide +kernel

/-! ### The catalogue -/

theorem test_query_edition :
    Refuses serving (.queryEdition 4 ⟨100, 16⟩) 0x40 4 .outOfRange ∧ Refuses serving (.queryEdition 4 ⟨100, 15⟩) 0x40 4 .notFound ∧
    (filed .closed [] []).Ready (.queryEdition 4 key) ∧
    (answerOf (.queryEdition 4 key) (filed .closed [] [])).map (fun t => (t.port.outbound.map Frame.body).flatten) =
      some [0, 0, 3, 4, 0, 0, 0, 0, 0, 0, 0, 0, 0, 0, 1, 0, 98, 0, 0, 0, 0, 3, 2, 3, 4] ∧
    Refuses serving (.listEditions 4 64) 0x41 4 .outOfRange ∧ serving.Ready (.listEditions 4 63) := by decide +kernel
theorem test_query_page :
    Refuses serving (.queryPage 4 ⟨key, 129, 0⟩) 0x42 4 .outOfRange ∧
    Refuses serving (.queryPage 4 ⟨key, 128, 7⟩) 0x42 4 .notFound ∧
    Refuses (filed .opened [page .failed] []) (.queryPage 4 ⟨key, 1, 0⟩) 0x42 4 .notFiled ∧
    Refuses (filed .opened [page .failed] []) (.queryPage 4 ⟨key, 1, 2⟩) 0x42 4 .notFound ∧
    (answerOf (.queryPage 4 ⟨key, 1, 0⟩) (filed .opened [page .filed] [])).map (fun t =>
      (t.port.outbound.map Frame.body).flatten.take 7) = some [0, 0, 1, 1, 2, 3, 0] := by decide +kernel
theorem test_query_photo :
    Refuses serving (.queryPhoto 4 0) 0x43 4 .outOfRange ∧ Refuses serving (.queryPhoto 4 9) 0x43 4 .notFound ∧
    (answerOf (.queryPhoto 4 9) (filed .opened [] [photo .filed])).map (fun t =>
      (t.port.outbound.map Frame.body).flatten.take 7) = some [0, 3, 1, 0, 0, 0, 2] := by decide +kernel
theorem test_queries :
    serving.Ready (.queryStore 4) ∧ serving.Ready (.querySealing 4) ∧ serving.Ready (.queryRecall 4 16) ∧
    Refuses serving (.queryRecall 4 17) 0x62 4 .outOfRange ∧ serving.Ready (.queryRestore 4 0) ∧
    Refuses serving (.queryRestore 4 1) 0x72 4 .notFound ∧ Refuses serving (.queryOrder 4 1) 0x7B 4 .notFound ∧
    (working .survey).Ready (.queryRestore 4 1) ∧ (working .survey).job? 1 = some (job .survey) ∧
    (ordered .charged).Ready (.queryOrder 4 1) ∧ (ordered .charged).order? 1 = some (order .charged) := by decide +kernel
theorem test_drop_photo :
    Refuses serving (.dropPhoto 4 0) 0x44 4 .outOfRange ∧ Refuses serving (.dropPhoto 4 9) 0x44 4 .notFound ∧
    Refuses (filed .opened [] [photo .writing]) (.dropPhoto 4 9) 0x44 4 .badState ∧
    Refuses (filed .opened [] [{ photo .filed with refs := 1 }]) (.dropPhoto 4 9) 0x44 4 .badState ∧
    (answerOf (.dropPhoto 4 9) (filed .opened [] [photo .failed])).map (fun t => t.cat.photos) = some [] ∧
    (answerOf (.dropPhoto 4 9) (filed .opened [] [photo .filed])).map (fun t => t.cat.photos) = some [] := by decide +kernel
theorem test_reload :
    Refuses serving (.reloadCatalogue 4) 0x45 4 .badState ∧
    Refuses { State.reset with cat := { State.reset.cat with reloading := true } } (.reloadCatalogue 4) 0x45 4 .busy ∧
    State.reset.Ready (.reloadCatalogue 4) ∧ State.reset.link.Takes 0 ∧
    (answerOf (.reloadCatalogue 4) State.reset).map (fun t => (t.cat.reloading, t.req.reloadTag)) = some (true, some 4) := by
  decide +kernel

/-- A reload in flight. -/
def reloading : State :=
  running { State.reset with
    cat := { State.reset.cat with reloading := true }, req := { State.reset.req with reloadTag := some 9 } } .indexRead 7

/-- A returned index of one page with one placed photograph, and no close mark. -/
def index : StoreIndex :=
  ⟨[], [⟨key, 4, 1, 1, 2, ⟨1, 1⟩, 1, some 5, some 5, some 1, 0, none, [⟨9, 1, 1, 1, 1⟩]⟩],
    [⟨9, ⟨.agency, none, 2⟩, ⟨1, 1⟩, 1, some 6, some 6, some 1, 0, none, 97⟩]⟩

theorem test_reload_ends :
    reloading.Up ∧ reloading.link.answered? answered (fun op => op == .indexRead) = some .indexRead ∧
    indexCheck index = .ok ∧ indexCheck { index with photos := [] } = .storeFault ∧
    (answerOf (.indexReadCompletion answered (.done index)) reloading).map (fun t =>
      ((t.cat.edition? 0).map Edition.interrupted, t.cat.photos.map Photo.refs, t.port.outbound.map Frame.body)) =
      some (some true, [1], [[0, 1, 0, 1, 0, 1]]) ∧
    (answerOf (.indexReadCompletion answered (.done { index with photos := [] })) reloading).map (fun t =>
      t.port.outbound.map Frame.body) = some [[13]] ∧
    (answerOf (.indexReadCompletion answered .mediaError) reloading).map (fun t => t.link.failures) = some 1 := by
  decide +kernel

/-! ### Filing -/

theorem test_open_edition_refusals :
    Refuses State.reset (.openEdition 4 key 4 ⟨0, 0, 0, 0⟩) 0x21 4 .notInService ∧
    Refuses (inMode .service) (.openEdition 4 key 4 ⟨0, 0, 0, 0⟩) 0x21 4 .calendarUnset ∧
    Refuses serving (.openEdition 4 key 129 ⟨0, 0, 0, 0⟩) 0x21 4 .outOfRange ∧
    Refuses serving (.openEdition 4 key 128 ⟨1, 0, 23, 60⟩) 0x21 4 .outOfRange ∧
    Refuses (filed .opened [] []) (.openEdition 4 key 4 ⟨0, 0, 0, 0⟩) 0x21 4 .duplicate := by decide +kernel
theorem test_open_edition :
    serving.Ready (.openEdition 4 key 128 ⟨0, 0, 0, 0⟩) ∧
    (answerOf (.openEdition 4 key 128 ⟨0, 0, 0, 0⟩) serving).map (fun t =>
      ((t.cat.edition? 0).map Edition.planned, t.port.outbound.map Frame.body)) = some (some 128, [[0, 0, 255]]) ∧
    (answerOf (.openEdition 4 key 1 ⟨1, 100, 23, 59⟩) serving).map (fun t => (t.deadlines, t.port.outbound.map Frame.body)) =
      some ([0], [[0, 0, 0]]) := by decide +kernel
theorem test_open_edition_full :
    let full : State := { serving with cat := { serving.cat with editions := List.replicate 64 (some { edition .closed with
      key := ⟨1, 1⟩ }) } }
    full.Ready (.openEdition 4 key 4 ⟨0, 0, 0, 0⟩) ∧ (∀ e ∈ full.cat.editions, e ≠ none) ∧
    Refuses { full with vol := { full.vol with sealQueue := [1] } } (.openEdition 4 key 4 ⟨0, 0, 0, 0⟩) 0x21 4 .tableFull ∧
    (answerOf (.openEdition 4 key 4 ⟨0, 0, 0, 0⟩) full).map (fun t => (t.vol.sealQueue, t.port.outbound.map Frame.body)) =
      some ([0], [[9]]) := by decide +kernel
theorem test_replan :
    Refuses State.reset (.replanEdition 4 key 4) 0x22 4 .notInService ∧
    Refuses serving (.replanEdition 4 key 0) 0x22 4 .outOfRange ∧ Refuses serving (.replanEdition 4 key 1) 0x22 4 .notFound ∧
    Refuses (filed .closing [page .writing] []) (.replanEdition 4 key 1) 0x22 4 .badState ∧
    Refuses (filed .opened [{ page .failed with number := 3 }] []) (.replanEdition 4 key 2) 0x22 4 .outOfRange ∧
    (answerOf (.replanEdition 4 key 3) (filed .opened [{ page .failed with number := 3 }] [])).map (fun t =>
      (t.cat.edition? 0).map Edition.planned) = some (some 3) := by decide +kernel

/-- FILE PAGE of page n with the placements. -/
def pageFields (n cols rows : U8) (l : List Placement) : FilePageFields :=
  ⟨key, n, 25, cols, rows, 77, BitVec.ofNat 8 l.length, l⟩

theorem test_file_page_refusals :
    Refuses State.reset (.filePage 4 (pageFields 1 1 1 [])) 0x23 4 .notInService ∧
    Refuses serving (.filePage 4 { pageFields 1 1 1 [] with sectionCode := 26 }) 0x23 4 .outOfRange ∧
    Refuses serving (.filePage 4 (pageFields 1 1 1 [])) 0x23 4 .notFound ∧
    Refuses (filed .closed [] []) (.filePage 4 (pageFields 1 1 1 [])) 0x23 4 .editionClosed ∧
    Refuses (filed .sealing [] []) (.filePage 4 (pageFields 1 1 1 [])) 0x23 4 .badState := by decide +kernel
theorem test_file_page_open_refusals :
    Refuses (filed .opened [] []) (.filePage 4 (pageFields 5 1 1 [])) 0x23 4 .pageOutOfPlan ∧
    Refuses (filed .opened [] []) (.filePage 4 (pageFields 4 9 1 [])) 0x23 4 .placementInvalid ∧
    Refuses (filed .opened [] []) (.filePage 4 (pageFields 4 8 12 [⟨9, 5, 9, 4, 4⟩])) 0x23 4 .photoNotFiled ∧
    Refuses (filed .opened [{ page .failed with version := 7 }] []) (.filePage 4 (pageFields 1 1 1 [])) 0x23 4 .versionLimit ∧
    Refuses (receiving inbound false) (.filePage 4 (pageFields 1 1 1 [])) 0x23 4 .laneBusy ∧
    Refuses { filed .opened [] [] with pool := ⟨List.replicate 128 (some (.job 1)), [], []⟩ }
      (.filePage 4 (pageFields 1 1 1 [])) 0x23 4 .stagingFull := by decide +kernel
theorem test_layout :
    layoutFits (pageFields 1 8 12 [⟨9, 5, 9, 4, 4⟩, ⟨8, 1, 9, 4, 4⟩]) = true ∧
    layoutFits (pageFields 1 8 12 [⟨9, 6, 9, 4, 4⟩]) = false ∧ layoutFits (pageFields 1 8 12 [⟨9, 1, 1, 5, 1⟩]) = false ∧
    layoutFits (pageFields 1 8 12 [⟨9, 1, 1, 2, 2⟩, ⟨8, 2, 2, 1, 1⟩]) = false ∧
    layoutFits (pageFields 1 8 12 [⟨9, 1, 1, 2, 2⟩, ⟨9, 3, 3, 1, 1⟩]) = false ∧ layoutFits (pageFields 1 8 13 []) = false ∧
    (filed .opened [{ page .filed with version := 3 }, { page .failed with version := 5 }] []).cat.nextVersion 0 1 = 6 ∧
    (filed .opened [page .filed] []).cat.nextVersion 0 2 = 1 ∧
    (filed .opened [] [photo .receiving]).cat.allFiled [⟨9, 1, 1, 1, 1⟩] = false := by decide +kernel
theorem test_file_page_full :
    let full := filed .opened (List.replicate 2048 { page .failed with number := 2 }) []
    full.Ready (.filePage 4 (pageFields 1 1 1 [])) ∧
    (answerOf (.filePage 4 (pageFields 1 1 1 [])) full).map (fun t => t.port.outbound.map Frame.body) = some [[9]] := by
  decide +kernel
theorem test_file_page :
    (filed .opened [] [photo .filed]).Ready (.filePage 4 (pageFields 4 8 12 [⟨9, 5, 9, 4, 4⟩])) ∧
    (answerOf (.filePage 4 (pageFields 4 8 12 [⟨9, 5, 9, 4, 4⟩])) (filed .opened [] [photo .filed])).map (fun t =>
      (t.pool.free, t.cat.photos.map Photo.refs, (t.lane.slot.map Binding.count), t.port.outbound.map Frame.body)) =
      some (122, [1], some 393216, [[0, 1, 0, 6, 0, 0]]) := by decide +kernel
theorem test_file_photo :
    Refuses State.reset (.filePhoto 4 ⟨9, 0, 0, 0, 0, 1, 1, 0⟩) 0x24 4 .notInService ∧
    Refuses serving (.filePhoto 4 ⟨9, 4, 0, 0, 0, 1, 1, 0⟩) 0x24 4 .outOfRange ∧
    Refuses (filed .opened [] [photo .filed]) (.filePhoto 4 ⟨9, 3, 0, 0, 7, 4, 4, 0⟩) 0x24 4 .duplicate ∧
    Refuses (receiving inbound false) (.filePhoto 4 ⟨8, 3, 0, 0, 7, 4, 4, 0⟩) 0x24 4 .laneBusy ∧
    Refuses { serving with pool := ⟨List.replicate 128 (some (.job 1)), [], []⟩ } (.filePhoto 4 ⟨8, 3, 0, 0, 7, 4, 4, 0⟩)
      0x24 4 .stagingFull ∧
    (answerOf (.filePhoto 4 ⟨9, 3, 1, 200, 7, 4, 4, 0⟩) (filed .opened [] [photo .failed])).map (fun t =>
      (t.cat.photos.map (fun p => (p.state, p.rights.untilDay)), t.pool.free, t.lane.slot.map Binding.count)) =
      some ([(.receiving, some 200)], 127, some 65536) := by decide +kernel

/-- A photograph's intake write in flight. -/
def writingPhoto : State :=
  running (holding (filed .opened [] [photo .writing]) (.record (.photo 9)))
    (.writeIntake (.photo 9) 4096 (.photo (indexPhoto (photo .writing)))) 9

theorem test_intake_photo :
    writingPhoto.Working ∧ writingPhoto.Still ∧ 0 < writingPhoto.pool.heldBy (.record (.photo 9)) ∧
    writingPhoto.link.answered? answered Op.isIntakeWrite =
      some (.writeIntake (.photo 9) 4096 (.photo (indexPhoto (photo .writing)))) ∧
    (answerOf (.intakeWriteCompletion answered (.done ⟨5, crc32 [7]⟩)) writingPhoto).map (fun t =>
      (t.cat.photos.map (fun p => (p.state, p.raw)), t.pool.free)) = some ([(.filed, some 5)], 128) ∧
    (answerOf (.intakeWriteCompletion answered .mediaError) writingPhoto).map (fun t =>
      (t.cat.photos.map Photo.outcome, t.link.failures)) = some ([.storeFault], 1) := by decide +kernel

/-- A page's intake write in flight, its version 1 current. -/
def writingPage : State :=
  running (holding (filed .opened [page .filed, { page .writing with version := 2 }] []) (.record (.page 0 1 2)))
    (.writeIntake (.page 0 1 2) 4096 (.page (State.reset.cat.indexPage (page .writing)))) 9

theorem test_intake_page :
    writingPage.Working ∧ writingPage.Still ∧ (writingPage.cat.current? 0 1).map Page.version = some 1 ∧
    (answerOf (.intakeWriteCompletion answered (.done ⟨5, crc32 [7]⟩)) writingPage).map (fun t =>
      t.cat.pages.map (fun p => (p.state, p.superseded))) = some [(.filed, true), (.filed, false)] ∧
    (answerOf (.intakeWriteCompletion answered (.done ⟨5, 0⟩)) writingPage).map (fun t =>
      (t.cat.pages.map Page.outcome, (t.cat.edition? 0).map Edition.failedPages, t.link.discards)) =
      some ([.pending, .bodyCheck], some 1, 1) ∧
    (answerOf (.intakeWriteCompletion answered .mediaError) writingPage).map (fun t => t.cat.pages.map Page.outcome) =
      some [.pending, .storeFault] := by decide +kernel
theorem test_close_edition :
    Refuses State.reset (.closeEdition 4 key) 0x25 4 .notInService ∧
    Refuses serving (.closeEdition 4 ⟨100, 16⟩) 0x25 4 .outOfRange ∧ Refuses serving (.closeEdition 4 key) 0x25 4 .notFound ∧
    Refuses (filed .closed [] []) (.closeEdition 4 key) 0x25 4 .badState ∧
    (answerOf (.closeEdition 4 key) (filed .opened [page .writing] [])).map (fun t =>
      ((t.cat.edition? 0).map Edition.state, t.port.outbound.map Frame.body)) = some (some .closing, [[0, 0, 1]]) ∧
    (answerOf (.closeEdition 4 key) (filed .opened [page .filed] [])).map (fun t =>
      ((t.cat.edition? 0).map (fun e => (e.state, e.gaps)), t.req.latched)) =
      some (some (.closed, some [2, 3, 4]), 1) := by decide +kernel
theorem test_close_end :
    (filed .closing [] []).Working ∧ (filed .closing [] []).cat.inFlight 0 = 0 ∧ (filed .closing [] []).link.Takes 0 ∧
    (answerOf (.closeEnd 0) (filed .closing [] [])).map (fun t => (t.cat.edition? 0).map Edition.closedOn) =
      some (some (some 100)) ∧
    (answerOf (.closeMarkCompletion answered (.done ())) (running serving (.closeMark 0 ⟨key, 4, 1, [], false, 0⟩) 9)).map
      (fun t => (t.link.running? 2).isSome) = some false ∧
    (answerOf (.closeMarkCompletion answered .mediaError) (running serving (.closeMark 0 ⟨key, 4, 1, [], false, 0⟩) 9)).map
      (fun t => t.link.failures) = some 1 := by decide +kernel

/-! ### The staging pool and the store link -/

theorem test_query_staging :
    (inMode .standby).takes (.queryStaging 4) = true ∧ serving.pool.segments.length = 128 ∧
    (answerOf (.queryStaging 4) serving).map (fun t => t.port.outbound.map Frame.body) =
      some [[0, 128, 0, 0, 0, 32, 0, 0]] := by decide +kernel
theorem test_claim_grant :
    let claiming : State := { working .claiming with pool := { serving.pool with claims := [⟨.job 1, 96⟩] } }
    let preparing : State := { ordered .preparing with pool := { serving.pool with claims := [⟨.order 1, 96⟩] } }
    claiming.Working ∧ 96 + 32 ≤ claiming.pool.free ∧ claiming.link.Takes 0 ∧
    (answerOf .claimGrant claiming).map (fun t => (t.eng.jobs.map Job.state, t.pool.free, t.pool.claims)) =
      some ([.survey], 32, []) ∧
    (answerOf .claimGrant preparing).map (fun t => (t.ord.live.map Order.readOf)) = some [some (500, crc32 [7])] := by
  decide +kernel
theorem test_claims_wait :
    let s : State := { serving with pool := { serving.pool with claims := [⟨.job 1, 97⟩] } }
    s.pool.claims ≠ [] ∧ s.pool.free < 97 + 32 ∧ State.regrant [⟨.job 1, 97⟩] s = s := by decide +kernel
theorem test_free_body :
    let s := running serving (.freeBody 5 .plain) 9
    s.Working ∧ s.link.answered? answered Op.isDiscard = some (.freeBody 5 .plain) ∧
    (answerOf (.freeBodyCompletion answered .notFound) s).map (fun t => t.link.failures) = some 0 ∧
    (answerOf (.freeBodyCompletion answered .mediaError) s).map (fun t => t.link.failures) = some 1 ∧
    answerOf (.freeBodyCompletion ⟨2, 6⟩ (.done ())) s = some s ∧
    answerOf (.lateStoreAnswer answered (.done ())) s = some s := by decide +kernel
theorem test_late_premise : ∀ r, serving.link.running? 2 = some r → (serving.link.slots[2]?).map OpSlot.issue ≠ some 5 := by
  intro r h
  rw [show serving.link.running? 2 = none by decide] at h
  cases h
theorem test_next_waiting :
    nextWaiting [.probe, .closeMark 1 ⟨key, 4, 1, [], false, 0⟩, .indexRead] =
      some (.closeMark 1 ⟨key, 4, 1, [], false, 0⟩, [.probe, .indexRead]) ∧
    nextWaiting [.probe, .indexRead] = some (.probe, [.indexRead]) ∧ nextWaiting [] = none := by decide +kernel
theorem test_filing_operations :
    (Op.writeIntake (.photo 9) 4096 (.photo (indexPhoto (photo .filed)))).isFiling = true ∧
    (Op.closeMark 1 ⟨key, 4, 1, [], false, 0⟩).isFiling = true ∧ (Op.readForJob 1 0 600).isFiling = false := by decide +kernel
theorem test_timeout :
    let s := running (holding (filed .opened [] [photo .writing]) (.record (.photo 9)))
      (.writeIntake (.photo 9) 4096 (.photo (indexPhoto (photo .writing)))) 0
    s.Working ∧ s.Still ∧ (answerOf (.storeOperationTimeout 2) s).map (fun t =>
      (t.cat.photos.map Photo.outcome, t.link.failures)) = some ([.storeTimeout], 1) := by decide +kernel
theorem test_goes_offline :
    let s (op : Op) (n : Nat) : State := running { filed .opened [] [photo .writing] with
      link := { serving.link with failures := 7 } } op n
    let fell (t : State) := (t.link.state, t.link.failures, t.link.probeTicks, t.req.latched.getLsbD 13)
    (answerOf (.storeOperationTimeout 2) (s .indexRead 0)).map fell = some (.offline, 8, some 256, true) ∧
    (answerOf (.intakeWriteCompletion answered .mediaError) (s (.writeIntake (.photo 9) 1 (.photo (indexPhoto
      (photo .writing)))) 9)).map fell = some (.offline, 8, some 256, true) ∧
    (answerOf (.surveyReadCompletion answered .mediaError) (s (.readForJob 1 0 5) 9)).map fell =
      some (.offline, 8, some 256, true) := by decide +kernel

/-- An OFFLINE link with a probe in slot 0, sent under issue 1. -/
def probing (good : Nat) (auto : Bool) : State :=
  { serving with
    req := { serving.req with options := { serving.req.options with autoResume := auto } }
    link := { serving.link with
      state := .offline, failures := 8, goodProbes := good, probeTicks := some 0
      slots := serving.link.slots.set 0 ⟨1, some ⟨.probe, 1024⟩⟩ } }

theorem test_probes :
    (probing 3 true).Working ∧ (probing 3 true).link.answered? ⟨0, 1⟩ (fun op => op == .probe) = some .probe ∧
    (answerOf .probeIntervalExpiry (probing 3 true)).map (fun t =>
      (t.link.goodProbes, t.link.probeTicks, (t.link.slots[0]?).map OpSlot.issue)) = some (0, some 256, some 2) ∧
    (answerOf (.probeAnswer ⟨0, 1⟩ (.done ())) (probing 14 true)).map (fun t => t.link.goodProbes) = some 15 ∧
    (answerOf (.probeAnswer ⟨0, 1⟩ (.done ())) (probing 15 true)).map (fun t => (t.link.state, t.link.failures)) =
      some (.online, 0) ∧
    (answerOf (.probeAnswer ⟨0, 1⟩ (.done ())) (probing 15 false)).map (fun t => (t.link.state, t.link.goodProbes)) =
      some (.recovered, 16) ∧
    (answerOf (.probeAnswer ⟨0, 1⟩ .full) (probing 15 true)).map (fun t => t.link.goodProbes) = some 0 := by decide +kernel
theorem test_resume :
    Refuses serving (.resumeStore 4) 0x52 4 .badState ∧
    (answerOf (.resumeStore 4) { serving with link := { serving.link with state := .recovered, failures := 8 } }).map
      (fun t => (t.link.state, t.link.failures)) = some (.online, 0) := by decide +kernel

/-! ### Sealing and recall -/

theorem test_seal_edition :
    Refuses (pending .setupPending) (.sealEdition 4 key) 0x60 4 .notInService ∧
    Refuses serving (.sealEdition 4 ⟨100, 16⟩) 0x60 4 .outOfRange ∧ Refuses serving (.sealEdition 4 key) 0x60 4 .notFound ∧
    Refuses (filed .opened [] []) (.sealEdition 4 key) 0x60 4 .badState ∧
    Refuses (ordered .charged |> fun s => { s with cat := { s.cat with editions := table [{ edition .closed with
      pins := 1 }] } }) (.sealEdition 4 key) 0x60 4 .busy ∧
    (answerOf (.sealEdition 4 key) (filed .closed [page .filed] [])).map (fun t =>
      ((t.cat.edition? 0).map Edition.state, (t.link.running? 0).map fun r => r.op.code)) =
      some (some .sealing, some 4) := by decide +kernel
theorem test_seal_queue :
    (answerOf (.sealEdition 4 ⟨98, 1⟩) (sweeping 0)).map (fun t =>
      (t.vol.sealQueue, (t.port.outbound.map Frame.body))) = some ([0, 1], [[0, 1]]) ∧
    (answerOf .sealStart { filed .closed [] [] with vol := { serving.vol with sealQueue := [0] } }).map (fun t =>
      (t.cat.edition? 0).map Edition.state) = some (some .sealing) := by decide +kernel
theorem test_seal_ends :
    let content := (filed .sealing [page .filed] [photo .filed]).cat.sealContent 0 (edition .sealing)
    let s : State := running { filed .sealing [page .filed] [photo .filed] with
      vol := { serving.vol with sealQueue := [0] } } (.sealVolume 0 content) 9
    s.Working ∧ s.vol.waiters = [] ∧
    (answerOf (.sealVolumeCompletion answered (.done 5120)) s).map (fun t =>
      (t.cat.edition? 0, t.cat.pages.length, t.vol.lastSeal, t.req.latched)) =
      some (none, 0, some ⟨key, .ok, 5120⟩, 0x10) ∧
    (answerOf (.sealVolumeCompletion answered .full) s).map (fun t =>
      ((t.cat.edition? 0).map Edition.state, t.vol.sealQueue, t.req.latched)) = some (some .closed, [], 0x20) := by
  decide +kernel
theorem test_recall :
    let copy : EntryCopy := .page ⟨3, 2, ⟨1, 1⟩, 7, 1, 0, none, []⟩
    let fetching : State := running { serving with vol := { serving.vol with
      table := (serving.vol.table.set 15 (some ⟨5120, .page key 1 0, [], none⟩)) } } (.readEntry 15 5120 (.page key 1 0)) 9
    let waiting : State := { serving with vol := { serving.vol with
      recallWait := [⟨.order 1, 5120, .page key 1 0⟩] } }
    fetching.Working ∧ resolvedKey (.page key 1 0) copy = .page key 1 3 ∧
    fetching.vol.holding 5120 (.page key 1 3) = none ∧
    (answerOf (.readVolumeEntryCompletion answered (.done copy)) fetching).map (fun t =>
      (t.vol.lru, (t.vol.slot? 15).map RecallSlot.key)) = some ([15], some (.page key 1 3)) ∧
    (answerOf (.readVolumeEntryCompletion answered .notFound) fetching).map (fun t => t.vol.slot? 15) = some none ∧
    (answerOf .recallWaitServe waiting).map (fun t => (t.vol.recallWait, (t.link.running? 0).map fun r => r.op.code)) =
      some ([], some 5) := by decide +kernel

/-! ### Restoration -/

/-- RESTORE and REVERT of photograph 9. -/
def onPhoto : TargetFields := ⟨2, 0, ⟨noKey, 0, 0⟩, 9⟩

theorem test_restore_refusals :
    Refuses State.reset (.restore 4 onPhoto 0 0 0) 0x70 4 .notInService ∧
    Refuses serving (.restore 4 { onPhoto with kind := 3 } 0 0 0) 0x70 4 .outOfRange ∧
    Refuses (filed .opened [] [photo .writing]) (.restore 4 onPhoto 0 0 0) 0x70 4 .notFiled ∧
    Refuses (working .survey) (.restore 4 onPhoto 0 0 0) 0x70 4 .duplicate ∧
    Refuses (filed .opened [] [{ photo .filed with level := 3 }]) (.restore 4 onPhoto 0 0 0) 0x70 4 .levelLimit ∧
    Refuses { filed .opened [] [photo .filed] with
      eng := ⟨List.replicate 8 { job .survey with target := .photo 8 }, [], 2, [], []⟩ } (.restore 4 onPhoto 0 0 0)
      0x70 4 .tableFull := by decide +kernel
theorem test_restore :
    let s : State := { filed .opened [] [photo .filed] with
      eng := ⟨[{ job .survey with target := .photo 8 }], [], 65535, [], []⟩ }
    s.Ready (.restore 4 onPhoto 101 899 129) ∧
    (answerOf (.restore 4 onPhoto 101 899 129) s).map (fun t =>
      (t.eng.jobs.map Job.low, t.eng.nextJob, t.cat.photos.map Photo.pins, t.port.outbound.map Frame.body)) =
      some ([0, 100], 2, [1], [[0, 255, 255, 0, 100, 3, 132, 128, 1]]) := by decide +kernel
theorem test_job_start :
    (working .queued).Working ∧ (∀ k ∈ (working .queued).eng.jobs, k.state.isActive = false) ∧
    (answerOf .jobStart (working .queued)).map (fun t => (t.eng.jobs.map Job.state, t.pool.free)) = some ([.survey], 127) ∧
    (answerOf .jobStart { working .queued with
      pool := ⟨List.replicate 96 (some (.order 1)) ++ List.replicate 32 none, [], []⟩ }).map (fun t =>
      (t.eng.jobs.map Job.state, t.pool.claims)) = some ([.claiming], [⟨.job 1, 1⟩]) := by decide +kernel
theorem test_survey :
    let s := running (holding (working .survey) (.job 1)) (.readForJob 1 0 600) 9
    s.Working ∧ s.Still ∧ s.eng.jobs = [job .survey] ∧ s.eng.heldDiscards = [] ∧
    (answerOf (.surveyReadCompletion answered (.done [7])) s).map (fun t =>
      (t.eng.jobs.map Job.state, t.eng.histogram.sum)) = some ([.mapping], 1) ∧
    (answerOf (.surveyReadCompletion answered (.done [8])) s).map (fun t =>
      (t.eng.finished.map Job.outcome, t.pool.free)) = some ([.bodyCheck], 128) := by decide +kernel
theorem test_mapping_end :
    let s : State := { working .mapping with
      pool := ⟨some (.job 1) :: List.replicate 127 none, [(.job 1, [7])], []⟩
      eng := ⟨[job .mapping], histogramOf [7], 2, [], []⟩ }
    s.Working ∧ s.eng.mapping? = some (job .mapping) ∧
    (answerOf .mappingEnd s).map (fun t =>
      (t.eng.jobs.map Job.points, t.eng.histogram, (t.link.running? 0).map fun r => r.op.code)) =
      some ([some ⟨7, 15⟩], [], some 1) := by decide +kernel
theorem test_points_premises :
    ([7] : List U8) ≠ [] ∧ pointsOf (histogramOf [0, 255]) 0 1000 128 = ⟨0, 255⟩ ∧
    pointsOf (histogramOf [128, 127]) 100 900 128 = ⟨127, 255⟩ := by decide +kernel
theorem test_restoration_done :
    let s := running (holding (working .writing) (.job 1)) (.writeRestoration 1 4096 (.photo (indexPhoto (photo .filed)))) 9
    s.Working ∧ s.Still ∧ s.eng.jobs = [job .writing] ∧
    (answerOf (.restorationWriteCompletion answered (.done ⟨601, 3⟩)) s).map (fun t =>
      (t.cat.photos.map (fun p => (p.current, p.level)), t.eng.finished.map Job.state, t.req.latched)) =
      some ([(some 601, 1)], [.done], 0x40) := by decide +kernel
theorem test_revert :
    Refuses State.reset (.revert 4 onPhoto) 0x71 4 .notInService ∧
    Refuses serving (.revert 4 { onPhoto with volume := 1 }) 0x71 4 .sealed ∧
    Refuses (working .survey) (.revert 4 onPhoto) 0x71 4 .busy ∧
    (filed .opened [] [photo .filed]).Ready (.revert 4 onPhoto) ∧
    (answerOf (.revert 4 onPhoto) (filed .opened [] [{ photo .filed with
      level := 2, current := some 601, points := some ⟨1, 9⟩ }])).map (fun t =>
      (t.cat.photos.map (fun p => (p.current, p.level)), t.link.discards, t.port.outbound.map Frame.body)) =
      some ([(some 600, 0)], 1, [[0, 2, 0, 0, 2, 89]]) ∧
    (answerOf .heldDiscardRelease { serving with eng := { serving.eng with heldDiscards := [⟨5, none⟩] } }).map (fun t =>
      (t.eng.heldDiscards, t.link.discards)) = some ([], 1) := by decide +kernel

/-! ### Holds -/

theorem test_place_hold_merge :
    let s : State := { serving with hold := ⟨[⟨2, .day 5, 3, some 9⟩], []⟩ }
    s.Ready (.placeHold 4 ⟨1, 15, 1, 8, 5, 0, 0, 0⟩) ∧ s.hold.Sound ∧
    holdKey? ⟨1, 15, 1, 8, 5, 0, 0, 0⟩ = some (.day 5) ∧
    (answerOf (.placeHold 4 ⟨1, 15, 1, 8, 5, 0, 0, 0⟩) s).map (fun t => (t.hold.entries, t.port.outbound.map Frame.body)) =
      some ([⟨2, .day 5, 15, some 9⟩], [[0, 2, 1]]) := by decide +kernel
theorem test_place_hold :
    Refuses serving (.placeHold 4 ⟨5, 0, 0, 0, 5, 0, 0, 0⟩) 0x14 4 .outOfRange ∧
    Refuses { serving with hold := ⟨(List.range' 1 64).map fun n => ⟨n, .day n, 0, none⟩, []⟩ }
      (.placeHold 4 ⟨4, 0, 0, 0, 0, 0, 0, 9⟩) 0x14 4 .tableFull ∧
    (answerOf (.placeHold 4 ⟨3, 0, 0, 0, 5, 15, 128, 0⟩) { serving with hold := ⟨[⟨1, .day 5, 3, some 9⟩], []⟩ }).map
      (fun t => t.hold.entries.map Hold.key) = some [.day 5, .page ⟨5, 15⟩ 128] ∧
    holdKey? ⟨2, 15, 0, 0, 5, 16, 0, 0⟩ = none := by decide +kernel
theorem test_mask :
    let s : State := { serving with hold := ⟨[⟨1, .photo 9, 0, none⟩], []⟩ }
    let on (n : U32) (day : Option Nat) : Placed := ⟨⟨n, 1, 1, 1, 1⟩, ⟨.staff, day, 0⟩⟩
    s.maskOf ⟨⟨1, 1⟩, 0, 5, 6, [on 9 none, on 8 none, on 7 (some 99), on 6 (some 100)], none⟩ = [1, 3] := by decide +kernel
theorem test_hold_keys :
    holdKey? ⟨1, 15, 0, 0, 5, 0, 0, 0⟩ = some (.day 5) ∧ holdKey? ⟨1, 16, 0, 0, 5, 0, 0, 0⟩ = none ∧
    holdKey? ⟨3, 0, 0, 0, 5, 0, 0, 0⟩ = none ∧ holdKey? ⟨3, 0, 0, 0, 5, 0, 129, 0⟩ = none ∧
    holdKey? ⟨4, 0, 0, 0, 0, 0, 0, 0⟩ = none := by decide +kernel
theorem test_lift_hold :
    Refuses serving (.liftHold 4 0) 0x15 4 .outOfRange ∧ Refuses serving (.liftHold 4 1) 0x15 4 .notFound ∧
    serving.Ready (.listHolds 4) ∧
    (answerOf (.liftHold 4 1) { serving with hold := ⟨[⟨1, .day 5, 3, some 9⟩], []⟩ }).map (fun t =>
      (t.hold.entries, t.port.outbound.map Frame.body)) = some ([], [[0, 0]]) := by decide +kernel

/-! ### Orders -/

/-- PLACE ORDER of the tests' page. -/
def orderFields : OrderFields := ⟨305, ⟨key, 1, 0⟩, 0, 4, 2, 50, 0, 0⟩

/-- A part in which the order can be charged. -/
def sellable : State := { ordered .charged with ord := ⟨[], 1, []⟩, fee := ⟨serving.fee.schedule, [{ account with live := 0 }]⟩ }

theorem test_place_order_refusals :
    Refuses State.reset (.placeOrder 4 orderFields) 0x78 4 .notInService ∧
    Refuses (inMode .service) (.placeOrder 4 orderFields) 0x78 4 .calendarUnset ∧
    Refuses serving (.placeOrder 4 { orderFields with copies := 51 }) 0x78 4 .outOfRange ∧
    Refuses serving (.placeOrder 4 { orderFields with sizeClass := 3 }) 0x78 4 .outOfRange ∧
    Refuses serving (.placeOrder 4 orderFields) 0x78 4 .notFound ∧
    Refuses { sellable with ord := ⟨[], 4294967296, []⟩ } (.placeOrder 4 orderFields) 0x78 4 .orderNumbersExhausted ∧
    Refuses { sellable with ord := ⟨(List.range' 1 32).map fun n => { order .charged with number := n }, 33, []⟩ }
      (.placeOrder 4 orderFields) 0x78 4 .tableFull := by decide +kernel
theorem test_place_order_ends :
    sellable.Ready (.placeOrder 4 orderFields) ∧ sellable.ord.Sound ∧
    (answerOf (.placeOrder 4 { orderFields with key := ⟨⟨99, 3⟩, 1, 0⟩ }) sellable).map (fun t =>
      (t.ord.next, t.ord.finished.map Order.outcome, t.port.outbound.map Frame.body)) =
      some (2, [.notResident], [[29, 0, 0, 0, 1, 15]]) ∧
    (answerOf (.placeOrder 4 orderFields) { sellable with cat := (filed .opened [page .filed] []).cat }).map (fun t =>
      t.ord.finished.map Order.outcome) = some [.editionOpen] := by decide +kernel
theorem test_place_order_priced :
    (answerOf (.placeOrder 4 orderFields) sellable).map (fun t =>
      (t.ord.live.map Order.state, t.stmt.current.entries.length, (t.cat.edition? 0).map Edition.pins)) =
      some ([.charged], 1, some 1) ∧
    (answerOf (.placeOrder 4 orderFields) { sellable with hold := ⟨[⟨1, .page key 1, 0, none⟩], []⟩ }).map (fun t =>
      (t.ord.live.map Order.state, t.hold.held)) = some ([.heldRights], [1]) ∧
    (answerOf (.placeOrder 4 orderFields) { sellable with fee := ⟨{ serving.fee.schedule with minimum := 1501 },
      [{ account with live := 0 }]⟩ }).map (fun t =>
      (t.ord.live.map Order.state, t.fee.accounts.map Account.queue)) = some ([.heldFunds], [[1]]) ∧
    (answerOf (.placeOrder 4 orderFields) { sellable with stmt := ⟨⟨1, 0, 0, List.replicate 511 ⟨0, 0, 0, 0, 0, 0, 0, 0, 0, 0,
      0, 0, 0⟩⟩, [], []⟩ }).map (fun t => (t.ord.live.map Order.state, t.req.latched)) = some ([.charged], 0x1000) ∧
    (answerOf (.placeOrder 4 orderFields) { sellable with stmt := ⟨⟨1, 0, 0, List.replicate 512 ⟨0, 0, 0, 0, 0, 0, 0, 0, 0, 0,
      0, 0, 0⟩⟩, [], []⟩ }).map (fun t => (t.ord.live.map Order.state, t.stmt.held)) = some ([.heldStatement], [1]) := by
  decide +kernel
theorem test_cancel_order :
    Refuses serving (.cancelOrder 4 0) 0x79 4 .outOfRange ∧ Refuses serving (.cancelOrder 4 1) 0x79 4 .notFound ∧
    Refuses (ordered .charged) (.cancelOrder 4 1) 0x79 4 .alreadyCharged ∧ (ordered .heldRights).Still ∧
    (answerOf (.cancelOrder 4 1) (ordered .heldRights)).map (fun t =>
      (t.ord.live.length, t.ord.finished.map Order.state, t.fee.accounts.map Account.live)) =
      some (0, [.cancelled], [0]) := by decide +kernel
theorem test_retire_order :
    Refuses serving (.retireOrder 4 0) 0x7A 4 .outOfRange ∧ Refuses serving (.retireOrder 4 1) 0x7A 4 .notFound ∧
    Refuses (ordered .ready) (.retireOrder 4 1) 0x7A 4 .badState ∧
    (answerOf (.retireOrder 4 1) (ordered .charged)).map (fun t => (t.ord.finished.map Order.state,
      t.port.outbound.map Frame.body)) = some ([.retired], [[0, 0, 0, 0, 0]]) := by decide +kernel
theorem test_prepare_delivery :
    Refuses (pending .setupPending) (.prepareDelivery 4 1) 0x7C 4 .notInService ∧
    Refuses serving (.prepareDelivery 4 0) 0x7C 4 .outOfRange ∧ Refuses serving (.prepareDelivery 4 1) 0x7C 4 .notFound ∧
    Refuses (ordered .ready) (.prepareDelivery 4 1) 0x7C 4 .badState ∧
    Refuses { ordered .charged with hold := ⟨[⟨1, .page key 1, 0, none⟩], []⟩ } (.prepareDelivery 4 1) 0x7C 4 .held ∧
    Refuses { ordered .charged with ord := ⟨order .charged :: (List.range' 2 4).map fun n =>
      { order .ready with number := n }, 6, []⟩ } (.prepareDelivery 4 1) 0x7C 4 .busy := by decide +kernel
theorem test_prepare_begins :
    (ordered .charged).Ready (.prepareDelivery 4 1) ∧ (ordered .charged).link.Takes 0 ∧
    (answerOf (.prepareDelivery 4 1) (ordered .charged)).map (fun t =>
      (t.ord.live.map (fun o => (o.state, o.prepTag)), t.pool.free, t.port.outbound.length)) =
      some ([(.preparing, some 4)], 127, 0) ∧
    (answerOf (.prepareDelivery 4 1) { ordered .charged with
      pool := ⟨List.replicate 96 (some (.order 9)) ++ List.replicate 32 none, [], []⟩ }).map (fun t => t.pool.claims) =
      some [⟨.order 1, 1⟩] := by decide +kernel

/-- An order's body being read, or landed. -/
def preparing (landed : Bool) : State :=
  let s := holding { ordered .preparing with
    ord := ⟨[{ order .preparing with
      readOf := some (500, crc32 [7]), prepTag := some 9, landed := landed, maskSet := some [] }], 2, []⟩ } (.order 1)
  running { s with pool := s.pool.putContent (.order 1) [7] } (.readForOrder 1 0 500) 9

theorem test_delivery_read :
    (preparing false).Working ∧ (preparing false).Still ∧ (preparing false).eng.heldDiscards = [] ∧
    (answerOf (.deliveryReadCompletion answered (.done [7])) (preparing false)).map (fun t => t.ord.live.map Order.landed) =
      some [true] ∧
    (answerOf (.deliveryReadCompletion answered (.done [8])) (preparing false)).map (fun t =>
      (t.ord.live.map (fun o => (o.state, o.lastPrep)), t.port.outbound.map Frame.body)) =
      some ([(.charged, some .bodyCheck)], [[16, 0, 0, 0, 1]]) ∧
    (answerOf (.deliveryReadCompletion answered .notFound) (preparing false)).map (fun t =>
      t.ord.live.map Order.lastPrep) = some [some .storeFault] := by decide +kernel
theorem test_preparation_end :
    (answerOf (.preparationEnd 1) (preparing true)).map (fun t =>
      (t.ord.live.map (fun o => (o.state, o.readyTicks)), t.port.outbound.map Frame.tag)) =
      some ([(.ready, 153600)], [9]) ∧
    (answerOf (.readyExpiry 1) (holding (ordered .ready) (.order 1))).map (fun t =>
      (t.ord.live.map Order.state, t.pool.free, t.req.latched)) = some ([.charged], 128, 0x400) := by decide +kernel
theorem test_bind_delivery :
    let ready : State := { ordered .ready with ord := ⟨[{ order .ready with prepared := some (4096, 77) }], 2, []⟩ }
    Refuses State.reset (.bindDelivery 4 1) 0x7D 4 .notInService ∧ Refuses serving (.bindDelivery 4 0) 0x7D 4 .outOfRange ∧
    Refuses serving (.bindDelivery 4 1) 0x7D 4 .notFound ∧ Refuses (ordered .charged) (.bindDelivery 4 1) 0x7D 4 .badState ∧
    Refuses { ready with hold := ⟨[⟨1, .day 100, 0, none⟩], []⟩ } (.bindDelivery 4 1) 0x7D 4 .held ∧
    Refuses (bound ready inbound false) (.bindDelivery 4 1) 0x7D 4 .laneBusy ∧
    (answerOf (.bindDelivery 4 1) ready).map (fun t => (t.ord.live.map Order.state, t.lane.slot.map Binding.count)) =
      some ([.delivering], some 4096) := by decide +kernel

/-- A photo-only order on a photograph whose rights ran out the day before. -/
theorem test_delivery_rights_expired :
    let o : Order := { order .charged with photo := some 9, sizeClass := 3 }
    let s : State := { ordered .charged with
      cat := ⟨table [edition .closed], [page .filed], [{ photo .filed with rights := ⟨.agency, some 99, 2⟩ }], false⟩
      ord := ⟨[o], 2, []⟩ }
    Refuses s (.prepareDelivery 4 1) 0x7C 4 .rightsExpired ∧
    Refuses { s with ord := ⟨[{ o with state := .ready, prepared := some (1, 0) }], 2, []⟩ } (.bindDelivery 4 1) 0x7D 4
      .rightsExpired := by decide +kernel

/-! ### Fees, accounts and statements -/

/-- The example of spec/09: three copies of a FULL page for a BOOK, its edition 400 days old; the third placement masked. -/
theorem test_price_example :
    let f : Schedule := ⟨List.replicate 8 0 ++ [4500] ++ List.replicate 11 0, [0, 0, 175, 0], [0, 0, 0, 15, 0, 0, 0, 0],
      [0, 0, 1200, 0, 0, 0, 0, 0], 2500, 1000, [0, 0, 20000, 0, 0]⟩
    let o : Order := { order .pricing with useClass := 2, sizeClass := 0, copies := 3, bearer := true }
    let v : View := ⟨⟨1, 1⟩, 1, 0, 0, [⟨⟨1, 0, 0, 0, 0⟩, ⟨.agency, none, 2⟩⟩, ⟨⟨2, 0, 0, 0, 0⟩, ⟨.staff, none, 0⟩⟩,
      ⟨⟨3, 0, 0, 0, 0⟩, ⟨.freelance, some 499, 5⟩⟩], none⟩
    f.Sound ∧ State.maskOf { serving with cal := ⟨.stopped, 0, 0, 0, 0, 500⟩ } v = [3] ∧
    f.price 500 3 o (soldRights o v [3]) = ⟨20000, 3600, 2500, 26100⟩ := by decide +kernel
theorem test_schedule :
    let f : ScheduleFields := ⟨List.replicate 20 1000000, List.replicate 4 999, List.replicate 8 90,
      List.replicate 8 100000, 500000, 1000000, List.replicate 5 100000000⟩
    serving.Ready (.setSchedule 4 f) ∧ (inMode .standby).takes (.readSchedule 4) = true ∧
    (answerOf (.setSchedule 4 f) serving).map (fun t => t.fee.schedule.minimum) = some 1000000 ∧
    Refuses serving (.setSchedule 4 { f with tier := List.replicate 8 91 }) 0x64 4 .outOfRange := by decide +kernel
theorem test_load_account :
    Refuses serving (.loadAccount 4 305 0 0 0) 0x66 4 .badState ∧
    Refuses State.reset (.loadAccount 4 305 8 0 0) 0x66 4 .outOfRange ∧
    Refuses State.reset (.loadAccount 4 305 7 0xFFFFFFFF 0) 0x66 4 .limitViolation ∧
    Refuses { State.reset with fee := ⟨State.reset.fee.schedule, [account]⟩ } (.loadAccount 4 305 7 0 0) 0x66 4 .busy ∧
    Refuses { State.reset with fee := ⟨State.reset.fee.schedule, (List.range' 1 32).map fun n => { account with
      number := n }⟩ } (.loadAccount 4 305 7 0 0) 0x66 4 .tableFull ∧
    (answerOf (.loadAccount 4 305 7 0xFFFFFFFF 1) State.reset).map (fun t => t.fee.accounts) =
      some [⟨305, 7, -1, 1, 0, []⟩] ∧
    (answerOf (.loadAccount 4 305 7 0 1) { State.reset with fee := ⟨State.reset.fee.schedule, [{ account with live := 0 }]⟩
      }).map (fun t => (t.fee.accounts.map Account.tier, t.port.outbound.map Frame.body)) = some ([7], [[0, 1]]) := by
  decide +kernel
theorem test_query_account :
    serving.Ready (.queryAccount 4 0) ∧ Refuses serving (.queryAccount 4 305) 0x69 4 .notFound ∧
    (answerOf (.queryAccount 4 305) (ordered .charged)).map (fun t => t.port.outbound.map Frame.body) =
      some [[0, 0, 0, 0, 3, 232, 0, 0, 1, 244, 0, 0, 5, 220, 1, 0]] := by decide +kernel

/-- An order that waits for funds of 1,501. -/
def waiting : State :=
  { ordered .heldFunds with fee := ⟨{ serving.fee.schedule with minimum := 1501 }, [{ account with queue := [1] }]⟩ }

theorem test_credit :
    Refuses serving (.creditAccount 4 305 0) 0x67 4 .outOfRange ∧ Refuses serving (.creditAccount 4 305 1) 0x67 4 .notFound ∧
    Refuses { serving with fee := ⟨serving.fee.schedule, [{ account with balance := 2000000000 }]⟩ }
      (.creditAccount 4 305 1) 0x67 4 .limitViolation ∧ waiting.fee.Sound ∧ waiting.ord.Sound ∧
    (answerOf (.creditAccount 4 305 1) waiting).map (fun t =>
      (t.ord.live.map Order.state, t.fee.accounts.map Account.balance, t.port.outbound.map Frame.body)) =
      some ([.charged], [-500], [[0, 255, 255, 254, 12, 1, 0]]) ∧
    (answerOf (.creditAccount 4 305 1) { waiting with fee := { waiting.fee with schedule := { serving.fee.schedule with
      minimum := 1502 } } }).map (fun t => (t.ord.live.map Order.state, t.fee.accounts.map Account.queue)) =
      some ([.heldFunds], [[1]]) := by decide +kernel
theorem test_set_limit :
    Refuses serving (.setLimit 4 305 10000001) 0x68 4 .outOfRange ∧ Refuses serving (.setLimit 4 305 0) 0x68 4 .notFound ∧
    Refuses { serving with fee := ⟨serving.fee.schedule, [{ account with balance := -2 }]⟩ } (.setLimit 4 305 1) 0x68 4
      .limitViolation ∧
    (answerOf (.setLimit 4 305 0) (ordered .charged)).map (fun t => t.fee.accounts.map Account.limit) = some [0] := by
  decide +kernel
theorem test_close_statement :
    Refuses { serving with stmt := ⟨⟨3, 0, 0, []⟩, List.replicate 2 ⟨1, 0, 0, 0, 1, []⟩, []⟩ } (.closeStatement 4) 0x6C 4
      .busy ∧
    (answerOf (.closeStatement 4) { serving with stmt := ⟨⟨4294967295, 0, 3, []⟩, [⟨1, 0, 0, 0, 1, []⟩], []⟩ }).map (fun t =>
      (t.stmt.current, t.stmt.closed.length)) = some (⟨1, 100, 0, []⟩, 2) ∧
    (answerOf (.closeStatement 4) { ordered .heldStatement with stmt := ⟨⟨1, 0, 0, []⟩, [], [1]⟩ }).map (fun t =>
      (t.stmt.held, t.ord.live.map Order.state)) = some ([], [.charged]) := by decide +kernel
theorem test_release_statement :
    let s (missed : Nat) : State := { serving with stmt := ⟨⟨3, 7, missed, []⟩, [⟨1, 0, 0, 0, 1, []⟩], []⟩ }
    Refuses serving (.releaseStatement 4 0) 0x6B 4 .badState ∧ Refuses (s 0) (.releaseStatement 4 2) 0x6B 4 .notFound ∧
    (answerOf (.releaseStatement 4 0) (s 0)).map (fun t => (t.stmt.closed, t.port.outbound.map Frame.body)) =
      some ([], [[0, 0, 0, 0, 1, 0, 0, 0, 0, 0]]) ∧
    (answerOf (.releaseStatement 4 1) (s 1)).map (fun t => (t.stmt.closed, t.port.outbound.map Frame.body)) =
      some ([⟨3, 7, 100, 1, 3, []⟩], [[0, 0, 0, 0, 1, 1, 0, 0, 0, 3]]) := by decide +kernel
theorem test_read_statement :
    let e : Entry := ⟨1, 305, 100, 12, 30, 0, 1, 1, 0, 5, 0, 0, 5⟩
    let s : State := { serving with stmt := ⟨⟨3, 7, 0, [e]⟩, [⟨1, 0, 0, 0, 1, []⟩], []⟩ }
    Refuses serving (.readStatement 4 3 0 0) 0x6A 4 .outOfRange ∧ Refuses s (.readStatement 4 1 0 0) 0x6A 4 .notFound ∧
    s.Ready (.readStatement 4 0 0 0) ∧
    (answerOf (.readStatement 4 2 0 0) s).map (fun t => (t.port.outbound.map Frame.body).flatten.length) = some 46 := by
  decide +kernel

/-! ### What the wider statements ask of a state -/

/-- The command prices the order as it stands in the state given, which its hold check lets pass there, and ends the change so. -/
def prices (c : Instr) (s given : State) (n : Nat) (ends : State → State) : Bool :=
  match given.order? n with
  | none => false
  | some o => match given.orderView o, given.fee.account? o.account with
    | some v, some a => decide (given.holdCheck o v = .passed (given.maskOf v)) &&
        decide (answerOf c s = some (ends (given.priced o v a)))
    | _, _ => false

/-- A page's transfer in a part that expects it: the last page on its way of its edition, with one photograph on it. -/
def receivingPage (st : EdState) (b : BindState) : State :=
  holding (bound (filed st [{ page .receiving with placements := [⟨9, 1, 1, 1, 1⟩] }] [{ photo .filed with refs := 1 }])
    { inbound with owner := .record (.page 0 1 1), state := b } true) (.record (.page 0 1 1))

/-- What the failure of that page leaves: its outcome and placements, the references, the edition, and the link. -/
def failedPage (s : State) (c : Instr) : Option (List (Code × Nat) × List Nat × Option EdState × Bool) :=
  (answerOf c s).map fun t => (t.cat.pages.map (fun p => (p.outcome, p.placements.length)), t.cat.photos.map Photo.refs,
    (t.cat.edition? 0).map Edition.state, (t.link.running? 0).isSome)

theorem test_lane_page_fails :
    let s := receivingPage .closing
    (s .active).Working ∧ (s .active).Still ∧ (s .active).cat.Sound ∧ (s .active).cat.inFlight 0 = 1 ∧
    (s .active).link.Takes 0 ∧
    failedPage (s .active) (.transferComplete 8) = some ([(.bodyCheck, 0)], [0], some .closed, true) ∧
    failedPage (s .active) .selectReleased = some ([(.bodyShort, 0)], [0], some .closed, true) ∧
    failedPage (s (.bound 0)) .laneBindExpiry = some ([(.expired, 0)], [0], some .closed, true) ∧
    failedPage (s (.bound 9)) (.cancelTransfer 4) = some ([(.aborted, 0)], [0], some .closed, true) ∧
    failedPage (s .active) .linkReset = some ([(.aborted, 0)], [0], some .closed, true) ∧
    failedPage (receivingPage .opened .active) .selectReleased = some ([(.bodyShort, 0)], [0], some .opened, false) := by
  decide +kernel
theorem test_link_reset_of_an_order :
    let s := delivering 1 .active true
    s.Working ∧ s.Still ∧
    (answerOf .linkReset s).map (fun t => (t.lane.slot, t.ord.live.map fun o => (o.state, o.readyTicks, o.prepTag))) =
      some (none, [(.ready, 153600, none)]) := by decide +kernel
theorem test_rollover_prices :
    let s : State := raising { ordered .heldRights with hold := ⟨[⟨1, .page key 1, 0, some 99⟩], [1]⟩ } ⟨none, some 100, none⟩
    let lifted : State := { s with hold := ⟨[], []⟩, events := ⟨none, none, none⟩, cat := { s.cat with photos := [] } }
    s.Up ∧ State.unmatched { s with hold := { s.hold with entries := [] } } = [1] ∧
    prices .dayRollover s lifted 1 State.endChange = true := by decide +kernel

/-- The body of the one reply. -/
def replyOf (c : Instr) (s : State) : Option (List U8) := (answerOf c s).map fun t => (t.port.outbound.map Frame.body).flatten

theorem test_query_replies :
    replyOf (.listEditions 4 0) (filed .closed [] []) = some [0, 1, 64, 0, 0, 100, 3, 3, 0] ∧
    replyOf (.queryPage 4 ⟨key, 1, 1⟩) (filed .opened [{ page .filed with level := 2, points := some ⟨3, 90⟩ }] []) =
      some ([0, 0, 1, 1, 2, 3, 0, 1, 1] ++ u32 (crc32 [7]).toNat ++ [0, 0, 1, 244, 0, 0, 1, 244] ++
        u32 (crc32 [7]).toNat ++ [2, 1, 3, 90, 1, 0, 0]) ∧
    replyOf (.queryPhoto 4 9) (filed .opened [] [photo .filed]) =
      some ([0, 3, 1, 0, 0, 0, 2, 1, 1] ++ u32 (crc32 [7]).toNat ++ [0, 0, 2, 88, 0, 0, 2, 88] ++ u32 (crc32 [7]).toNat ++
        [0, 0, 0, 0, 0, 0, 0, 1, 0, 97, 1, 0]) ∧
    replyOf (.queryStore 4) writingPhoto =
      some ([0, 0, 0, 0, 1, 0, 0, 0, 0, 0] ++ List.replicate 6 0 ++ [1, 0, 9] ++ List.replicate 15 0) := by decide +kernel
theorem test_query_replies_of_work :
    replyOf (.querySealing 4) (sweeping 0) =
      some ([0, 1, 0, 0, 100, 3, 2, 0] ++ List.replicate 9 0) ∧
    replyOf (.queryRestore 4 1) (working .survey) =
      some ([0, 2, 2] ++ List.replicate 9 0 ++ u32 9 ++ [255, 0, 0, 3, 232, 8, 0, 0, 0, 0, 0, 1, 0, 0, 0, 0, 0, 1]) ∧
    replyOf (.queryRestore 4 0) (working .survey) =
      some ([0, 0, 1, 1, 0, 0, 2, 0, 1, 2, 2] ++ List.replicate 9 0 ++ u32 9 ++ [1]) ∧
    replyOf (.queryOrder 4 1) (ordered .charged) =
      some ([0, 8, 1, 1, 49, 1, 0, 1, 0, 0, 0, 100, 3, 1, 0, 1] ++ List.replicate 8 0 ++ [255] ++ List.replicate 14 0 ++
        [255] ++ List.replicate 8 0) ∧
    replyOf (.queryOrder 4 0) (ordered .charged) = some [0, 0, 0, 0, 2, 1, 0, 0, 0, 0, 1, 8] := by decide +kernel

/-- An edition being sealed and the next of the queue, with an order that waits for the seal. -/
def sealing (waiters : List Nat) (next : List Edition) (marking : Bool) : State :=
  let cat : Catalogue := ⟨table (edition .sealing :: next), [{ page .filed with placements := [⟨9, 1, 1, 1, 1⟩] }],
    [{ photo .filed with refs := 1 }], false⟩
  let s : State := { ordered .waitSeal with
    cat := cat, ord := ⟨[{ order .waitSeal with pinEdition := none }], 2, []⟩
    vol := { serving.vol with sealQueue := List.range (next.length + 1), waiters := waiters } }
  let t := running s (.sealVolume 0 (cat.sealContent 0 (edition .sealing))) 9
  if marking then { t with link := { t.link with slots := t.link.slots.set 3 ⟨1, some ⟨.closeMark 1 ⟨key, 4, 1, [], false, 0⟩, 9⟩⟩ } }
  else t

/-- The edition after the head. -/
def nextEdition (pins : Nat) : Edition := { edition .closed with key := ⟨98, 1⟩, pins := pins }

theorem test_seal_ends_with_more :
    let ends (s : State) (a : Answer U32) := (answerOf (.sealVolumeCompletion answered a) s).map fun t =>
      (t.vol.sealQueue, (t.cat.edition? 1).map (fun e => (e.state, e.due)), t.cat.photos.map Photo.refs)
    ends (sealing [] [nextEdition 0] false) (.done 5) = some ([1], some (.sealing, false), [0]) ∧
    ends (sealing [] [nextEdition 0] true) (.done 5) = some ([1], some (.closed, false), [0]) ∧
    ends (sealing [] [nextEdition 1] false) .full = some ([], some (.closed, true), [1]) := by decide +kernel
theorem test_seal_ends_with_a_waiter :
    let s := sealing [1] [] false
    let back := State.withOrder (State.latch { s with
      cat := s.cat.withEdition 0 fun e => { e with state := .closed, pins := e.pins + 1 }
      vol := { s.vol with sealQueue := [], lastSeal := some ⟨key, .storeFault, 0⟩, waiters := [] }
      link := s.link.served 2 (.sealVolume 0 (s.cat.sealContent 0 (edition .sealing))) } .sealFailed) 1
        fun o => { o with pinEdition := some 0, pinPhoto := o.photo }
    s.Working ∧ s.vol.recallWait = [] ∧
    (answerOf (.sealVolumeCompletion answered (.done 5)) s).map (fun t =>
      (t.vol.waiters, t.ord.live.map (fun o => (o.state, o.volume)), t.vol.slot? 0)) =
      some ([], [(.recalling, 5)], some ⟨5, .page key 1 1, [.order 1], none⟩) ∧
    prices (.sealVolumeCompletion answered .full) s back 1 State.close = true := by decide +kernel

/-- The copy that a recall returns. -/
def copyAt (level : Nat) : EntryCopy :=
  .page ⟨3, 2, ⟨1, 1⟩, 7, 1, level, if level = 0 then none else some ⟨10, 200⟩, []⟩

/-- An order that asks for the tests' page of a sealed volume. -/
def sealedOrder (n : Nat) : Order :=
  { order .recalling with number := n, volume := 5120, resolved := none, pinEdition := none }

/-- A job on that page. -/
def sealedJob (n : Nat) (slot : Option Nat) : Job :=
  { job .queued with number := n, target := .sealed 5120 (.page key 1 0), recallSlot := slot }

/-- A fetch of that page in flight in recall slot 15, with its requesters, two orders and some jobs; slot 14 as given. -/
def fetching (asking : List Requester) (jobs : List Job) (other : Option RecallSlot) : State :=
  running { ordered .charged with
    ord := ⟨[sealedOrder 1, sealedOrder 2], 3, []⟩, eng := ⟨jobs, [], 5, [], []⟩
    vol := { serving.vol with
      table := (serving.vol.table.set 15 (some ⟨5120, .page key 1 0, asking, none⟩)).set 14 other
      lru := if other.any (fun r => r.copy.isSome && r.pinners.isEmpty) then [14] else [] } }
    (.readEntry 15 5120 (.page key 1 0)) 9

/-- The fetch is answered. -/
def fetched (a : Answer EntryCopy) : Instr := .readVolumeEntryCompletion answered a

/-- Slot 14 under the version that the store resolves. -/
def fourteen (pinners : List Requester) (copy : Option EntryCopy) : RecallSlot := ⟨5120, .page key 1 3, pinners, copy⟩

theorem test_recall_gives :
    let s (asking : List Requester) (jobs : List Job) := fetching asking jobs none
    let given := State.withOrder { s [.order 1] [] with
      vol := { (s [.order 1] []).vol with
        table := (s [.order 1] []).vol.table.set 15 (some ⟨5120, .page key 1 3, [.order 1], some (copyAt 0)⟩) }
      link := (s [.order 1] []).link.served 2 (.readEntry 15 5120 (.page key 1 0)) } 1
        fun o => { o with recallSlot := some 15, resolved := some 3 }
    (s [.order 1, .order 2] []).Working ∧ (s [.order 1, .order 2] []).Still ∧
    (answerOf (fetched (.done (copyAt 0))) (s [.order 2, .order 1] [])).map (fun t =>
      (t.ord.live.map (fun o => (o.state, o.recallSlot, o.resolved)), t.stmt.current.entries.map Entry.order)) =
      some ([(.charged, some 15, some 3), (.charged, some 15, some 3)], [2, 1]) ∧
    prices (fetched (.done (copyAt 0))) (s [.order 1] []) given 1 State.close = true ∧
    (answerOf (fetched (.done (copyAt 0))) (s [.job 3] [sealedJob 3 none, { job .survey with number := 4 }])).map (fun t =>
      t.eng.jobs.map Job.recallSlot) = some [some 15, none] ∧
    (answerOf (fetched (.done (copyAt 3))) (s [.job 3] [sealedJob 3 none])).map (fun t =>
      t.eng.finished.map Job.outcome) = some [.levelLimit] ∧
    (answerOf (fetched .notFound) (s [.order 1, .order 2] [])).map (fun t =>
      (t.ord.live, t.ord.finished.map Order.outcome, t.vol.slot? 15)) = some ([], [.notInVolume, .notInVolume], none) ∧
    (answerOf (fetched .notFound) (s [.job 3] [sealedJob 3 none])).map (fun t => t.eng.finished.map Job.outcome) =
      some [.notInVolume] := by decide +kernel
/-- All 16 slots are pinned; order 2 waits for the version to which slot 15's fetch resolves: the row serves it (log 41). -/
theorem test_recall_wait_resolved :
    let others : List (Option RecallSlot) := (List.range 15).map fun n =>
      some ⟨7, .photo (BitVec.ofNat 32 (n + 1)), [.order 9], none⟩
    let s : State := { fetching [.order 1] [] none with
      vol := { serving.vol with
        table := others ++ [some ⟨5120, .page key 1 0, [.order 1], none⟩]
        recallWait := [⟨.order 2, 5120, .page key 1 3⟩] } }
    let t := answerOf (fetched (.done (copyAt 0))) s
    answerOf .recallWaitServe s = some s ∧
    t.map (fun t => (t.vol.recallWait.length, t.ord.live.map Order.state)) = some (1, [.charged, .recalling]) ∧
    (t.bind (answerOf .recallWaitServe)).map (fun t => (t.vol.recallWait.length, t.ord.live.map Order.state)) =
      some (0, [.charged, .charged]) := by decide +kernel
theorem test_recall_merges :
    let s (r : Requester) (copy : Option EntryCopy) (jobs : List Job) := fetching [r] jobs (some (fourteen [] copy))
    let merged (s : State) (r : Requester) (copy : Option EntryCopy) : State := { s with
      vol := { s.vol with
        table := (s.vol.table.set 15 none).set 14 (some (fourteen [r] copy)), lru := [] }
      link := s.link.served 2 (.readEntry 15 5120 (.page key 1 0)) }
    let finished (jobs : List Job) := (answerOf (fetched (.done (copyAt 1))) (s (.job 3) (some (copyAt 1)) jobs)).map fun t =>
      (t.eng.jobs.map Job.number, t.eng.finished.map fun j => (j.number, j.outcome))
    resolvedKey (.page key 1 0) (copyAt 1) = .page key 1 3 ∧
    (s (.order 1) none []).vol.holding 5120 (.page key 1 3) = some 14 ∧
    (answerOf (fetched (.done (copyAt 1))) (s (.order 1) none [])) =
      some (merged (s (.order 1) none []) (.order 1) none).close ∧
    prices (fetched (.done (copyAt 1))) (s (.order 1) (some (copyAt 1)) [])
      (State.withOrder (merged (s (.order 1) (some (copyAt 1)) []) (.order 1) (some (copyAt 1))) 1 fun o =>
        { o with recallSlot := some 14, resolved := some 3 }) 1 State.close = true ∧
    finished [sealedJob 4 (some 14), sealedJob 3 none] = some ([4], [(3, .duplicate)]) ∧
    finished [sealedJob 3 none, sealedJob 4 (some 14)] = some ([3], [(4, .duplicate)]) := by decide +kernel

/-- RESTORE and REVERT of the tests' page, in the part or in a volume. -/
def onPage (volume : U32) (version : U8) : TargetFields := ⟨1, volume, ⟨key, 1, version⟩, 0⟩

/-- A part with another job under way, and the tests' page on a CLOSED edition. -/
def occupied (jobs : List Job) (p : Page) : State :=
  { filed .closed [p] [photo .filed] with eng := ⟨{ job .survey with number := 7 } :: jobs, [], 1, [], []⟩ }

theorem test_restore_page :
    let s := occupied [] (page .filed)
    s.Ready (.restore 4 (onPage 0 0) 0 0 0) ∧ (s.cat.current? 0 1).map Page.version = some 1 ∧
    (answerOf (.restore 4 (onPage 0 0) 101 899 129) s).map (fun t =>
      (t.eng.jobs.map Job.low, t.eng.nextJob, t.cat.editions.head?.map fun e => e.map Edition.pins,
        t.port.outbound.map Frame.body)) =
      some ([0, 100], 2, some (some 1), [[0, 0, 1, 0, 100, 3, 132, 128, 1]]) ∧
    Refuses serving (.restore 4 (onPage 0 0) 0 0 0) 0x70 4 .notFound ∧
    Refuses (filed .opened [page .filed] []) (.restore 4 (onPage 0 0) 0 0 0) 0x70 4 .editionOpen ∧
    Refuses (filed .sealing [page .filed] []) (.restore 4 (onPage 0 0) 0 0 0) 0x70 4 .badState ∧
    Refuses (filed .closed [] []) (.restore 4 (onPage 0 0) 0 0 0) 0x70 4 .notFiled ∧
    Refuses (filed .closed [] []) (.restore 4 (onPage 0 1) 0 0 0) 0x70 4 .notFound ∧
    Refuses (filed .closed [page .failed] []) (.restore 4 (onPage 0 1) 0 0 0) 0x70 4 .notFiled ∧
    Refuses (occupied [{ job .queued with target := .page 0 1 1 }] (page .filed)) (.restore 4 (onPage 0 1) 0 0 0) 0x70 4
      .duplicate ∧
    Refuses (occupied [] { page .filed with level := 3 }) (.restore 4 (onPage 0 1) 0 0 0) 0x70 4 .levelLimit ∧
    Refuses (occupied (List.replicate 7 (job .queued)) (page .filed)) (.restore 4 (onPage 0 1) 0 0 0) 0x70 4 .tableFull := by
  decide +kernel
theorem test_restore_sealed :
    let s := occupied [] (page .filed)
    let held (c : EntryCopy) : State := { s with vol := { s.vol with
      table := s.vol.table.set 3 (some ⟨5120, .page key 1 0, [], some c⟩), lru := [3] } }
    (answerOf (.restore 4 (onPage 5120 0) 101 899 129) s).map (fun t =>
      (t.eng.jobs.map Job.target, t.vol.slot? 0, (t.link.running? 0).map fun r => r.op.code)) =
      some ([.photo 9, .sealed 5120 (.page key 1 0)], some ⟨5120, .page key 1 0, [.job 1], none⟩, some 5) ∧
    Refuses (occupied [sealedJob 1 none] (page .filed)) (.restore 4 (onPage 5120 0) 0 0 0) 0x70 4 .duplicate ∧
    Refuses (held (copyAt 3)) (.restore 4 (onPage 5120 0) 0 0 0) 0x70 4 .levelLimit ∧
    Refuses (occupied (List.replicate 7 (job .queued)) (page .filed)) (.restore 4 (onPage 5120 0) 0 0 0) 0x70 4
      .tableFull := by decide +kernel

/-- An order that waits for a job to restore the tests' page. -/
def restoring (n : Nat) (j : Option Nat) : Order := { order .restoreWait with number := n, job := j, restore := true }

/-- A part whose only job works on the tests' page for two orders. -/
def carrying (j : Job) (op : Op) : State :=
  running (holding { ordered .charged with
    cat := ⟨table [{ edition .closed with pins := 3 }], [page .filed], [photo .filed], false⟩
    ord := ⟨[restoring 1 (some 1), restoring 2 (some 1)], 3, []⟩, eng := ⟨[j], [], 2, [], []⟩ } (.job 1)) op 9

/-- A job on the tests' page with a creator and joiners. -/
def pageJob (st : JobState) (creator : Option Nat) (joiners : List Nat) : Job :=
  { job st with target := .page 0 1 1, creator := creator, joiners := joiners, points := some ⟨10, 200⟩ }

/-- The write-back of the page's body. -/
def pageWrite : Op := .writeRestoration 1 4096 (.page (Catalogue.indexPage (filed .closed [] []).cat (page .filed)))

theorem test_survey_fails_with_orders :
    let s := carrying (pageJob .survey (some 1) []) (.readForJob 1 0 500)
    s.Working ∧ s.Still ∧
    (answerOf (.surveyReadCompletion answered (.done [8])) s).map (fun t =>
      (t.ord.live.map Order.number, t.ord.finished.map Order.outcome, t.eng.finished.map Job.outcome)) =
      some ([2], [.bodyCheck], [.bodyCheck]) := by decide +kernel
/-- A part whose only job has failed: its outcome, what its orders became, and what stayed. -/
def jobFailed (c : Instr) (s : State) (code : Code) : Bool := decide ((answerOf c s).map (fun t =>
  (t.eng.jobs, t.eng.finished.map (fun j => (j.state, j.outcome)), t.ord.live.map Order.number, t.ord.finished.map Order.outcome,
    t.pool.heldBy (.job 1), t.cat.pages, t.eng.heldDiscards, t.req.latched)) =
  some ([], [(.failed, code)], [2], [code], 0, s.cat.pages, s.eng.heldDiscards, 0x280))

theorem test_job_read_fails :
    let s := carrying (pageJob .survey (some 1) []) (.readForJob 1 0 500)
    let sealed := carrying (pageJob .survey (some 1) []) (.readForJob 1 5120 500)
    let late : State := { s with link := { s.link with slots := s.link.slots.set 2 ⟨5, some ⟨.readForJob 1 0 500, 0⟩⟩ } }
    s.Working ∧ s.Still ∧ late.link.timedOut? (2 : BitVec 3).toNat = some (.readForJob 1 0 500) ∧
    jobFailed (.surveyReadCompletion answered .full) s .storeFault = true ∧
    jobFailed (.surveyReadCompletion answered .mediaError) s .storeFault = true ∧
    jobFailed (.surveyReadCompletion answered .notFound) s .storeFault = true ∧
    jobFailed (.surveyReadCompletion answered .notFound) sealed .notInVolume = true ∧
    jobFailed (.storeOperationTimeout 2) late .storeTimeout = true := by decide +kernel
theorem test_job_write_fails :
    let s := carrying (pageJob .writing (some 1) []) pageWrite
    let late : State := { s with link := { s.link with slots := s.link.slots.set 2 ⟨5, some ⟨pageWrite, 0⟩⟩ } }
    let amend := carrying (pageJob .writing (some 1) []) (.amend 1 5120 (.page key 1 3) 1 ⟨7, 15⟩ 2)
    s.Working ∧ s.Still ∧
    jobFailed (.restorationWriteCompletion answered .full) s .storeFault = true ∧
    jobFailed (.restorationWriteCompletion answered .mediaError) s .storeFault = true ∧
    jobFailed (.restorationWriteCompletion answered .notFound) s .storeFault = true ∧
    jobFailed (.restorationWriteCompletion answered .notFound) amend .notInVolume = true ∧
    jobFailed (.storeOperationTimeout 2) late .storeTimeout = true := by decide +kernel
theorem test_mapping_end_offline :
    let s := carrying (pageJob .mapping (some 1) []) .probe
    let off : State := { s with link := { s.link with state := .offline, failures := 8, slots := List.replicate 8 ⟨0, none⟩ } }
    off.Working ∧ off.Still ∧ (off.jobView (pageJob .mapping (some 1) [])).isSome = true ∧
    jobFailed .mappingEnd off .storeOffline = true := by decide +kernel
theorem test_mapping_end_writes :
    let mapping (s : State) (j : Job) : State := { s with
      pool := ⟨some (.job 1) :: List.replicate 127 none, [(.job 1, [7])], []⟩, eng := ⟨[j], histogramOf [7], 2, [], []⟩ }
    let onRecord := mapping (filed .closed [page .filed] []) { pageJob .mapping none [] with points := none }
    let onEntry := mapping (fetching [] [] (some (fourteen [.job 1] (some (copyAt 1)))))
      { sealedJob 1 (some 14) with state := .mapping, startLevel := 1 }
    onRecord.link.Takes 0 ∧ onEntry.link.Takes 0 ∧
    ((answerOf .mappingEnd onRecord).bind fun t => (t.link.running? 0).map Running.op) =
      some (.writeRestoration 1 1 (.page { onRecord.cat.indexPage (page .filed) with
        current := none, stored := none, level := 1, points := some ⟨7, 15⟩ })) ∧
    ((answerOf .mappingEnd onEntry).bind fun t => (t.link.running? 0).map Running.op) =
      some (.amend 1 5120 (.page key 1 3) 1 ⟨7, 15⟩ 2) := by decide +kernel

/-- The write-back completes. -/
def wroteBack : Instr := .restorationWriteCompletion answered (.done ⟨601, 3⟩)

theorem test_restoration_prices :
    let s := carrying (pageJob .writing (some 1) [2]) pageWrite
    let one := carrying (pageJob .writing none [2]) pageWrite
    let free (o : Order) : Order := { o with job := none }
    let cat := Catalogue.withEdition (one.cat.withPage 0 1 1 fun p => { p with
      current := some 601, stored := some 3, level := 1, points := some ⟨10, 200⟩ }) 0 fun e => { e with pins := e.pins - 1 }
    let freed := State.withOrder { one with cat := cat } 2 free
    s.Working ∧ s.Still ∧
    (answerOf wroteBack s).map (fun t => (t.ord.live.map (fun o => (o.state, o.job)), t.eng.finished.map Job.state,
      t.stmt.current.entries.map Entry.order, (t.cat.edition? 0).map Edition.pins)) =
      some ([(.charged, none), (.charged, none)], [.done], [1, 2], some 2) ∧
    (match freed.orderView (free (restoring 2 (some 1))), freed.fee.account? 305 with
      | some v, some a => decide ((answerOf wroteBack one).map (fun t => (t.cat, t.ord.live, t.fee, t.stmt)) =
          some (cat, (freed.priced (free (restoring 2 (some 1))) v a).ord.live,
            (freed.priced (free (restoring 2 (some 1))) v a).fee, (freed.priced (free (restoring 2 (some 1))) v a).stmt))
      | _, _ => false) = true := by decide +kernel
theorem test_restoration_replaces :
    let again (reads : Bool) : State :=
      let s := carrying { pageJob .writing none [] with startLevel := 1 } pageWrite
      let s : State := { s with ord := ⟨[], 3, []⟩ }
      if reads then { s with link := { s.link with slots := s.link.slots.set 4 ⟨1, some ⟨.readForOrder 9 0 500, 9⟩⟩ } } else s
    (answerOf wroteBack (again false)).map (fun t => (t.eng.heldDiscards, t.link.held)) =
      some ([], [.freeBody 500 .plain]) ∧
    (answerOf wroteBack (again true)).map (fun t => (t.eng.heldDiscards, t.link.held)) =
      some ([⟨500, none⟩], [.readForOrder 9 0 500]) := by decide +kernel

/-- A sealed photograph's write-back, another slot of the volume holding a page that it stands on. -/
def amending : State :=
  let shot : RecallSlot := ⟨5120, .photo 9, [.job 1], some (.photo ⟨⟨.staff, none, 0⟩, ⟨1, 1⟩, 5, 6, 0, none, 97⟩)⟩
  let leaf : RecallSlot := ⟨5120, .page key 1 3, [.order 8],
    some (.page ⟨3, 2, ⟨1, 1⟩, 7, 1, 0, none, [⟨⟨9, 1, 1, 1, 1⟩, ⟨.staff, none, 0⟩, ⟨1, 1⟩, 5, 6, 0⟩]⟩)⟩
  running { serving with
    vol := { serving.vol with table := (serving.vol.table.set 14 (some shot)).set 3 (some leaf) }
    eng := ⟨[{ job .writing with target := .sealed 5120 (.photo 9), recallSlot := some 14, points := some ⟨10, 200⟩ }], [], 2,
      [], []⟩ }
    (.amend 1 5120 (.photo 9) 4096 ⟨10, 200⟩ 1) 9

theorem test_restoration_amends :
    amending.Working ∧ amending.Still ∧ amending.vol.TableSound ∧
    (answerOf wroteBack amending).map (fun t => (t.vol.slot? 14, t.vol.lru, t.eng.finished.map Job.state)) =
      some (some ⟨5120, .photo 9, [], some (.photo ⟨⟨.staff, none, 0⟩, ⟨1, 1⟩, 601, 3, 1, some ⟨10, 200⟩, 97⟩)⟩, [14],
        [.done]) ∧
    (answerOf wroteBack amending).map (fun t => t.vol.slot? 3) = some (some ⟨5120, .page key 1 3, [.order 8],
      some (.page ⟨3, 2, ⟨1, 1⟩, 7, 1, 0, none, [⟨⟨9, 1, 1, 1, 1⟩, ⟨.staff, none, 0⟩, ⟨1, 1⟩, 601, 3, 1⟩]⟩)⟩) := by
  decide +kernel
theorem test_revert_page :
    let restored : Page := { page .filed with level := 2, current := some 601, points := some ⟨1, 9⟩ }
    let s := filed .closed [restored] []
    let reading : State := running s (.readForOrder 9 0 601) 9
    (answerOf (.revert 4 (onPage 0 0)) s).map (fun t =>
      (t.cat.pages.map (fun p => (p.current, p.stored, p.level, p.points)), t.link.discards)) =
      some ([(some 500, some (crc32 [7]), 0, none)], 1) ∧
    (answerOf (.revert 4 (onPage 0 1)) reading).map (fun t => (t.eng.heldDiscards, t.link.discards)) =
      some ([⟨601, some (.page 0 1 1)⟩], 0) ∧
    Refuses (filed .sealing [restored] []) (.revert 4 (onPage 0 0)) 0x71 4 .badState ∧
    Refuses (filed .closed [] []) (.revert 4 (onPage 0 0)) 0x71 4 .notFiled ∧
    Refuses (filed .closed [page .failed] []) (.revert 4 (onPage 0 1)) 0x71 4 .notFiled ∧
    Refuses (occupied [{ job .queued with target := .page 0 1 1 }] restored) (.revert 4 (onPage 0 1)) 0x71 4 .busy ∧
    Refuses serving (.revert 4 onPhoto) 0x71 4 .notFound := by decide +kernel

/-- Orders held for rights on the tests' page, until hold 1 is lifted. -/
def heldOrders (l : List Order) : State :=
  { ordered .heldRights with
    ord := ⟨l, 3, []⟩, hold := ⟨[⟨1, .page key 1, 0, none⟩], l.map Order.number⟩ }

/-- The same with no hold, the orders given still on the rights-held list. -/
def lifted (s : State) (held : List Nat) : State := { s with hold := ⟨[], held⟩ }

theorem test_lift_prices :
    let one := heldOrders [order .heldRights]
    let two := heldOrders [order .heldRights, { order .heldRights with number := 2 }]
    let v := one.cat.pageView (page .filed)
    one.Ready (.liftHold 4 1) ∧ one.Still ∧ one.ord.Sound ∧ two.ord.Sound ∧ (lifted one [1]).unmatched = [1] ∧
    (lifted two [1, 2]).unmatched = [1, 2] ∧
    prices (.liftHold 4 1) one (lifted one []) 1 (fun u => u.answered 0x15 4 .ok [1]) = true ∧
    prices (.liftHold 4 1) two (lifted (State.priced (lifted two [2]) (order .heldRights) v account) []) 2
      (fun u => u.answered 0x15 4 .ok [2]) = true := by decide +kernel
theorem test_lift_ends :
    let o : Order := { order .heldRights with photo := some 9, sizeClass := 3, pinPhoto := some 9 }
    let s : State := { heldOrders [o] with
      cat := ⟨table [edition .closed], [page .filed], [{ photo .filed with rights := ⟨.agency, some 99, 2⟩, pins := 1 }], false⟩ }
    s.req.mode = .service ∧ s.Still ∧
    (answerOf (.liftHold 4 1) s).map (fun t => (t.ord.live, t.ord.finished.map Order.outcome, t.hold.held)) =
      some ([], [.rightsExpired], []) := by decide +kernel

/-- PLACE ORDER of photograph 9 on the tests' page. -/
def photoOrder : OrderFields := { orderFields with sizeClass := 3, photo := 9 }

/-- A part in which a photo-only order can be charged: the page has the photograph. -/
def photoSellable (until_ : Option Nat) : State :=
  { sellable with cat := ⟨table [edition .closed], [{ page .filed with placements := [⟨9, 1, 1, 1, 1⟩] }],
    [{ photo .filed with refs := 1, rights := ⟨.agency, until_, 2⟩ }], false⟩ }

/-- What placing the order leaves: the states of the live orders, the outcomes of the finished, and the reply's body. -/
def placed (f : OrderFields) (s : State) : Option (List OrdState × List Code × List (List U8)) :=
  (answerOf (.placeOrder 4 f) s).map fun t =>
    (t.ord.live.map Order.state, t.ord.finished.map Order.outcome, t.port.outbound.map Frame.body)

theorem test_place_order_photo :
    let s := photoSellable none
    let waiting : State := { s.withAccount 305 fun a => { a with live := a.live + 1 } with
      cat := (s.cat.withEdition 0 fun e => { e with pins := e.pins + 1 }).withPhoto 9 fun q => { q with pins := q.pins + 1 }
      ord := ⟨[{ newOrder photoOrder 1 with resolved := some 1, pinEdition := some 0, pinPhoto := some 9 }], 2, []⟩ }
    prices (.placeOrder 4 photoOrder) s waiting 1 (fun u => u.answered 0x78 4 .ok [0, 0, 0, 1, 8]) = true ∧
    placed photoOrder { s with hold := ⟨[⟨1, .photo 9, 0, none⟩], []⟩ } = some ([.heldRights], [], [[0, 0, 0, 0, 1, 5]]) ∧
    placed photoOrder (photoSellable (some 99)) = some ([], [.rightsExpired], [[33, 0, 0, 0, 1, 15]]) ∧
    placed photoOrder sellable = some ([], [.notFound], [[6, 0, 0, 0, 1, 15]]) := by decide +kernel
/-- A test of every occupied recall slot, from a test of the 16. -/
theorem slots_all {v : VolumeUnit} {p : Nat → RecallSlot → Bool} (hl : v.table.length = 16)
    (h : ∀ i ∈ List.range 16, (v.slot? i).all (p i) = true) (i : Nat) (r : RecallSlot) (hr : v.slot? i = some r) :
    p i r = true := by
  have hi : i < 16 := by
    rcases Nat.lt_or_ge i 16 with hi | hi
    · exact hi
    · have : v.table[i]? = none := List.getElem?_eq_none (by omega)
      simp [VolumeUnit.slot?, this] at hr
  have := h i (List.mem_range.2 hi)
  rwa [hr] at this
theorem test_fresh : (photoSellable none).Fresh 1 := by
  refine ⟨by decide, by decide, by decide, fun i r h hp => ?_, by decide⟩
  have := slots_all (v := (photoSellable none).vol) (p := fun _ r => !r.pinners.contains (.order 1)) (by decide) (by decide)
    i r h
  simp [hp] at this
theorem test_amending_pins (i : Nat) (r : RecallSlot) (h : amending.vol.slot? i = some r) (hp : .job 1 ∈ r.pinners) :
    i = 14 := by
  have := slots_all (v := amending.vol) (p := fun i r => !r.pinners.contains (.job 1) || i == 14) (by decide) (by decide)
    i r h
  simpa [hp] using this
theorem test_place_order_unresolved :
    let s (p : List Page) : State := { sellable with cat := (filed .closed p []).cat }
    placed orderFields (s []) = some ([], [.notFiled], [[27, 0, 0, 0, 1, 15]]) ∧
    placed { orderFields with key := ⟨key, 1, 2⟩ } (s [page .filed]) = some ([], [.notFound], [[6, 0, 0, 0, 1, 15]]) ∧
    placed { orderFields with key := ⟨key, 1, 1⟩ } (s [page .failed]) = some ([], [.notFiled], [[27, 0, 0, 0, 1, 15]]) ∧
    placed orderFields { sellable with cat := (filed .sealing [page .filed] []).cat } =
      some ([.waitSeal], [], [[0, 0, 0, 0, 1, 1]]) := by decide +kernel

/-- PLACE ORDER of the tests' page from a volume. -/
def sealedFields : OrderFields := { orderFields with volume := 5120 }

theorem test_place_order_sealed :
    let slots (t : List (Option RecallSlot)) (lru : List Nat) (w : List RecallWaiter) : State :=
      { sellable with vol := { serving.vol with table := t, lru := lru, recallWait := w } }
    let full := List.replicate 16 (some (⟨9, .photo 3, [.order 9], some (copyAt 0)⟩ : RecallSlot))
    let holds (r : RecallSlot) := serving.vol.table.set 3 (some r)
    let recalls (s : State) := (answerOf (.placeOrder 4 sealedFields) s).map fun t =>
      (t.ord.live.map Order.state, t.vol.table.map (fun r => r.any fun r => r.pinners.contains (.order 1)), t.vol.lru,
        t.vol.recallWait.length)
    let pins (i : Nat) := (List.replicate 16 false).set i true
    recalls (slots serving.vol.table [] []) = some ([.recalling], pins 0, [], 0) ∧
    recalls (slots (full.set 3 (some ⟨9, .photo 3, [], some (copyAt 0)⟩)) [3] []) = some ([.recalling], pins 3, [], 0) ∧
    recalls (slots full [] [⟨.order 8, 9, .photo 4⟩]) = some ([.recalling], List.replicate 16 false, [], 2) ∧
    recalls (slots (holds ⟨5120, .page key 1 0, [.order 8], none⟩) [] []) = some ([.recalling], pins 3, [], 0) ∧
    recalls (slots (holds ⟨5120, .page key 1 0, [], some (copyAt 0)⟩) [3] []) = some ([.charged], pins 3, [], 0) := by
  decide +kernel
theorem test_place_order_restore :
    let f : OrderFields := { orderFields with restore := 1 }
    let s (jobs : List Job) : State := { sellable with eng := ⟨{ job .survey with number := 7 } :: jobs, [], 1, [], []⟩ }
    let work (s : State) := (answerOf (.placeOrder 4 f) s).map fun t =>
      (t.ord.live.map (fun o => (o.state, o.job, o.bearer)), t.eng.jobs.map (fun j => (j.creator, j.joiners)),
        (t.cat.edition? 0).map Edition.pins)
    work (s [{ job .queued with number := 2, target := .page 0 1 1 }]) =
      some ([(.restoreWait, some 2, false)], [(none, []), (none, [1])], some 1) ∧
    work (s []) = some ([(.restoreWait, some 1, true)], [(none, []), (some 1, [])], some 2) ∧
    placed f (s (List.replicate 7 (job .queued))) = some ([], [.tableFull], [[9, 0, 0, 0, 1, 15]]) := by decide +kernel

/-- Two orders that wait for funds of 1,501 each. -/
def twoWaiting (balance : Int) : State :=
  { waiting with
    ord := ⟨[order .heldFunds, { order .heldFunds with number := 2 }], 3, []⟩
    fee := { waiting.fee with accounts := [{ account with balance := balance, live := 2, queue := [1, 2] }] } }

theorem test_two_retries :
    let after (c : Instr) (s : State) := (answerOf c s).map fun t =>
      (t.ord.live.map Order.state, t.fee.accounts.map (fun a => (a.balance, a.queue)), t.port.outbound.map Frame.body)
    (twoWaiting 1000).fee.Sound ∧ (twoWaiting 1000).ord.Sound ∧
    after (.creditAccount 4 305 1) (twoWaiting 999) =
      some ([.heldFunds, .heldFunds], [(1000, [1, 2])], [[0, 0, 0, 3, 232, 0, 2]]) ∧
    after (.creditAccount 4 305 1) (twoWaiting 1000) =
      some ([.charged, .heldFunds], [(-500, [2])], [[0, 255, 255, 254, 12, 1, 1]]) ∧
    after (.creditAccount 4 305 2000) (twoWaiting 1000) = some ([.charged, .charged], [(-2, [])], [[0, 255, 255, 255, 254, 2, 0]]) ∧
    after (.setLimit 4 305 501) (twoWaiting 1000) = some ([.charged, .heldFunds], [(-501, [2])], [[0, 1, 1]]) := by
  decide +kernel

/-- The head of the account's queue is cancelled: the order behind it is charged, or is the new head. -/
theorem test_cancel_retries :
    let after (s : State) := (answerOf (.cancelOrder 4 1) s).map fun t =>
      (t.ord.live.map Order.state, t.fee.accounts.map (fun a => (a.balance, a.live, a.queue)),
        t.port.outbound.map Frame.body, t.stmt.current.entries.map Entry.order)
    let held (s : State) : Bool := match s.orderView { order .heldFunds with number := 2 } with
      | some v => decide (s.holdCheck { order .heldFunds with number := 2 } v = .passed (s.maskOf v))
      | none => false
    (twoWaiting 1001).Ready (.cancelOrder 4 1) ∧ (twoWaiting 1001).Still ∧ held (twoWaiting 1001) = true ∧
    after (twoWaiting 1001) = some ([.charged], [(-500, 1, [])], [[0, 7]], [2]) ∧
    after (twoWaiting 1000) = some ([.heldFunds], [(1000, 1, [2])], [[0, 7]], []) := by decide +kernel

theorem test_reload_rebuilds :
    let older : IdxPage := ⟨key, 4, 1, 1, 2, ⟨1, 1⟩, 1, some 5, some 5, some 1, 0, none, [⟨9, 1, 1, 1, 1⟩]⟩
    let x : StoreIndex := { index with
      marks := [⟨⟨98, 1⟩, 4, 98, [2], true, 3⟩], pages := [{ older with planned := 6, version := 2 }, older] }
    let t := answerOf (.indexReadCompletion answered (.done x)) reloading
    Instr.wellFormed (.indexReadCompletion answered (.done x)) = true ∧
    t.map (fun t => (t.cat.edition? 0, (t.cat.edition? 1).map fun e => (e.key, e.state, e.planned, e.interrupted))) =
      some (some ⟨⟨98, 1⟩, .closed, 4, none, false, true, false, false, 0, some 98, some [2], 3⟩,
        some (key, .opened, 6, true)) ∧
    t.map (fun t => (t.cat.pages.map (fun p => (p.slot, p.version, p.superseded)), t.cat.photos.map Photo.refs)) =
      some ([(1, 2, false), (1, 1, true)], [2]) ∧
    indexCheck { x with photos := [], marks := (List.range 64).map fun n => ⟨⟨BitVec.ofNat 16 n, 2⟩, 4, 98, [], false, 0⟩ } =
      .tableFull := by decide +kernel
theorem test_intake_ends_the_close :
    let s := running (holding (filed .closing [{ page .writing with number := 2 }] []) (.record (.page 0 2 1)))
      (.writeIntake (.page 0 2 1) 4096 (.page (State.reset.cat.indexPage (page .writing)))) 9
    let ends (a : Answer Written) := (answerOf (.intakeWriteCompletion answered a) s).map fun t =>
      ((t.cat.edition? 0).map (fun e => (e.state, e.gaps, e.failedPages)), (t.link.running? 0).map fun r => r.op.code)
    s.Working ∧ s.Still ∧ s.cat.Sound ∧ s.cat.inFlight 0 = 1 ∧
    (s.link.served 2 (.writeIntake (.page 0 2 1) 4096 (.page (State.reset.cat.indexPage (page .writing))))).Takes 0 ∧
    ends (.done ⟨5, crc32 [7]⟩) = some (some (.closed, some [1, 3, 4], 0), some 7) ∧
    ends .full = some (some (.closed, some [1, 2, 3, 4], 1), some 7) ∧
    (answerOf (.intakeWriteCompletion answered (.done ⟨5, 0⟩)) writingPhoto).map (fun t =>
      (t.cat.photos.map Photo.outcome, t.link.held)) = some ([.bodyCheck], [.freeBody 5 .refusedWrite]) ∧
    (answerOf (.intakeWriteCompletion answered .notFound) writingPhoto).map (fun t =>
      (t.cat.photos.map Photo.outcome, t.link.failures)) = some ([.storeFault], 0) := by decide +kernel

/-! ### Releases, starts and pressure seals -/

/-- A READY order whose expiry has run out and that holds 100 segments, with a claim that waits for them. -/
def expiring (c : Claim) : State :=
  { ordered .ready with
    ord := ⟨[order .ready, { order .preparing with number := 2 }], 3, []⟩, eng := ⟨[job .claiming], [], 2, [], []⟩
    pool := ⟨List.replicate 100 (some (.order 1)) ++ List.replicate 28 none, [], [c]⟩ }

theorem test_expiry_grants :
    let after (c : Claim) := (answerOf (.readyExpiry 1) (expiring c)).map fun t =>
      (t.ord.live.map (fun o => (o.state, o.readOf.isSome)), t.eng.jobs.map Job.state, t.pool.claims.length, t.pool.free)
    (expiring ⟨.job 1, 96⟩).Working ∧ (expiring ⟨.job 1, 96⟩).link.Takes 0 ∧
    after ⟨.job 1, 96⟩ = some ([(.charged, false), (.preparing, false)], [.survey], 0, 32) ∧
    after ⟨.order 2, 96⟩ = some ([(.charged, false), (.preparing, true)], [.claiming], 0, 32) ∧
    after ⟨.job 1, 97⟩ = some ([(.charged, false), (.preparing, false)], [.claiming], 1, 128) := by decide +kernel

/-- A full edition table: all CLOSED on day 98, slot 5 with the lowest key, or with a pin. -/
def crowded (pins : Nat) (marking : Bool) : State :=
  let all : List Edition := (List.range 64).map fun n =>
    { edition .closed with key := ⟨BitVec.ofNat 16 (if n = 5 then 1 else n + 2), 1⟩, pins := if n = 5 then 0 else pins }
  let s := { serving with cat := { serving.cat with editions := table all } }
  if marking then running s (.closeMark 5 ⟨⟨1, 1⟩, 4, 98, [2, 3, 4], false, 0⟩) 9 else s

theorem test_pressure_seal :
    let after (s : State) := (answerOf (.openEdition 4 key 4 ⟨0, 0, 0, 0⟩) s).map fun t =>
      (t.vol.sealQueue, (t.cat.edition? 5).map Edition.state, t.port.outbound.map Frame.body)
    let pinned : State := { crowded 1 false with cat := { (crowded 1 false).cat with
      editions := (crowded 1 false).cat.editions.map fun e => e.map fun x => { x with pins := 1 } } }
    (crowded 0 false).Ready (.openEdition 4 key 4 ⟨0, 0, 0, 0⟩) ∧ (crowded 0 false).link.Takes 0 ∧
    after (crowded 0 false) = some ([5], some .sealing, [[9]]) ∧
    after (crowded 0 true) = some ([5], some .closed, [[9]]) ∧
    after { crowded 0 false with vol := { serving.vol with sealQueue := [1] } } = some ([1], some .closed, [[9]]) ∧
    after pinned = some ([], some .closed, [[9]]) := by decide +kernel
theorem test_pressure_seal_of_a_page :
    let full : State := { filed .opened (List.replicate 2048 { page .failed with number := 2 }) [] with
      cat := { (filed .opened (List.replicate 2048 { page .failed with number := 2 }) []).cat with
        editions := table [edition .opened, nextEdition 0, { nextEdition 0 with key := ⟨97, 9⟩, closedOn := some 99 }] } }
    full.Ready (.filePage 4 (pageFields 1 1 1 [])) ∧
    (answerOf (.filePage 4 (pageFields 1 1 1 [])) full).map (fun t =>
      (t.vol.sealQueue, (t.cat.edition? 1).map Edition.state, (t.link.running? 0).map fun r => r.op.code)) =
      some ([1], some .sealing, some 4) := by decide +kernel

/-- Every recall slot taken: the last by a fetch for the requesters, the others by order 9; order 2 waits for another page. -/
def recalling (asking : List Requester) (k : EntryKey) : State :=
  let others : List (Option RecallSlot) := (List.range 15).map fun n => some ⟨7, .photo (BitVec.ofNat 32 (n + 1)), [.order 9], none⟩
  running { ordered .charged with
    ord := ⟨[sealedOrder 1, sealedOrder 2], 3, []⟩
    vol := { serving.vol with
      table := others ++ [some ⟨5120, k, asking, none⟩], recallWait := [⟨.order 2, 5120, .page key 2 1⟩] } }
    (.readEntry 15 5120 k) 9

theorem test_recall_serves_what_it_frees :
    let s := recalling [] (.page key 1 3)
    let after (a : Answer EntryCopy) := (answerOf (fetched a) s).map fun t =>
      (t.vol.slot? 15, t.vol.lru, t.vol.recallWait, (t.link.running? 0).map Running.op)
    s.Working ∧ s.vol.holding 5120 (.page key 2 1) = none ∧ s.vol.table.findIdx? Option.isNone = none ∧
    (s.vol.table.set 15 none).findIdx? Option.isNone = some 15 ∧ resolvedKey (.page key 1 3) (copyAt 0) = .page key 1 3 ∧
    (s.link.served 2 (.readEntry 15 5120 (.page key 1 3))).Takes 0 ∧
    after .notFound = some (some ⟨5120, .page key 2 1, [.order 2], none⟩, [], [], some (.readEntry 15 5120 (.page key 2 1))) ∧
    after (.done (copyAt 0)) =
      some (some ⟨5120, .page key 2 1, [.order 2], none⟩, [], [], some (.readEntry 15 5120 (.page key 2 1))) := by decide +kernel
theorem test_restore_out_of_range :
    let s := filed .closed [page .filed] [photo .filed]
    let at_ (code : U8) (page version : U8) : TargetFields := ⟨1, 0, ⟨⟨100, code⟩, page, version⟩, 0⟩
    Refuses s (.restore 4 (at_ 16 1 0) 0 0 0) 0x70 4 .outOfRange ∧ Refuses s (.restore 4 (at_ 3 0 0) 0 0 0) 0x70 4 .outOfRange ∧
    Refuses s (.restore 4 (at_ 3 129 0) 0 0 0) 0x70 4 .outOfRange ∧ Refuses s (.restore 4 (at_ 3 1 8) 0 0 0) 0x70 4 .outOfRange ∧
    Refuses s (.restore 4 { onPhoto with photo := 0 } 0 0 0) 0x70 4 .outOfRange ∧
    Refuses s (.restore 4 { onPhoto with photo := 8 } 0 0 0) 0x70 4 .notFound := by decide +kernel

/-- A part with an idle engine whose next job number and finished list are given, with room in the pool or without. -/
def idle (next : Nat) (finished : List Job) (room : Bool) : State :=
  { filed .closed [page .filed] [photo .filed] with
    eng := ⟨[], [], next, finished, []⟩
    pool := if room then serving.pool else ⟨List.replicate 96 (some (.order 1)) ++ List.replicate 32 none, [], []⟩ }

theorem test_restore_starts :
    let after (t : TargetFields) (s : State) := (answerOf (.restore 4 t 0 0 0) s).map fun t =>
      (t.eng.jobs.map (fun j => (j.number, j.state, j.need)), t.eng.nextJob, t.pool.claims, (t.link.running? 0).map Running.op)
    let held : State := { idle 3 [] true with vol := { serving.vol with
      table := serving.vol.table.set 3 (some ⟨5120, .page key 1 0, [], some (copyAt 0)⟩), lru := [3] } }
    (idle 65535 [{ job .done with number := 1 }] true).Ready (.restore 4 onPhoto 0 0 0) ∧
    (idle 65535 [{ job .done with number := 1 }] true).eng.Sound ∧
    (idle 65535 [{ job .done with number := 1 }] true).eng.Idle ∧
    after onPhoto (idle 65535 [{ job .done with number := 1 }] true) =
      some ([(65535, .survey, 1)], 2, [], some (.readForJob 65535 0 600)) ∧
    after onPhoto (idle 2 [] false) = some ([(2, .claiming, 1)], 3, [⟨.job 2, 1⟩], none) ∧
    after (onPage 0 1) (idle 3 [] true) = some ([(3, .survey, 1)], 4, [], some (.readForJob 3 0 500)) ∧
    after (onPage 5120 0) held = some ([(3, .survey, 1)], 4, [], some (.readForJob 3 5120 7)) ∧
    after (onPage 5120 0) (idle 3 [] true) =
      some ([(3, .queued, 0)], 4, [], some (.readEntry 0 5120 (.page key 1 0))) ∧
    (answerOf (.restore 4 (onPage 5120 0) 0 0 0) held).map (fun t => (t.vol.lru, (t.vol.slot? 3).map RecallSlot.pinners)) =
      some ([], some [.job 3]) := by decide +kernel
theorem test_restore_recalls :
    let table := serving.vol.table.set 3 (some ⟨5120, .page key 1 0, [.order 9], none⟩)
    let full : List (Option RecallSlot) := (List.range 16).map fun n => some ⟨7, .photo (BitVec.ofNat 32 (n + 1)), [], none⟩
    let of (jobs : List Job) (table : List (Option RecallSlot)) (lru : List Nat) (wait : List RecallWaiter) : State :=
      { idle 3 [] true with
        eng := ⟨jobs, [], 3, [], []⟩, vol := { serving.vol with table := table, lru := lru, recallWait := wait } }
    let after (table : List (Option RecallSlot)) (lru : List Nat) (wait : List RecallWaiter) (i : Nat) :=
      (answerOf (.restore 4 (onPage 5120 0) 0 0 0) (of [job .survey] table lru wait)).map fun t =>
        ((t.vol.slot? i).map RecallSlot.pinners, t.vol.lru, t.vol.recallWait, (t.link.running? 0).map Running.op)
    let waiter : RecallWaiter := ⟨.job 3, 5120, .page key 1 0⟩
    let fetch : Option Op := some (.readEntry 5 5120 (.page key 1 0))
    after table [] [⟨.order 8, 9, .photo 1⟩] 3 = some (some [.order 9, .job 3], [], [⟨.order 8, 9, .photo 1⟩], none) ∧
    after full [5, 6] [] 5 = some (some [.job 3], [6], [], fetch) ∧
    after full [] [] 5 = some (some [], [], [waiter], none) ∧
    after serving.vol.table [] [⟨.order 8, 9, .photo 1⟩] 5 = some (none, [], [⟨.order 8, 9, .photo 1⟩, waiter], none) ∧
    Refuses (of (List.replicate 8 (job .queued)) table [] []) (.restore 4 (onPage 5120 0) 0 0 0) 0x70 4 .tableFull := by
  decide +kernel
theorem test_number_advances : Engine.Advances { Engine.initial with nextJob := 65535, finished := [{ job .done with number := 1 }] }
    65535 2 :=
  ⟨by decide, by decide, 2, by decide, fun i h1 h2 => by rw [show i = 1 by omega]; decide⟩

/-- The job behind the one that ends. -/
def behind : Job := { job .queued with number := 2 }

theorem test_next_job_starts :
    let two (j : Job) (op : Op) : State :=
      { carrying j op with ord := ⟨[], 3, []⟩, eng := ⟨[j, behind], [], 3, [], []⟩ }
    let of (c : Instr) (s : State) := (answerOf c s).map fun t => (t.eng.finished.map Job.state,
      t.eng.jobs.map (fun j => (j.number, j.state, j.need)), t.pool.claims, (t.link.running? 0).map Running.op)
    (two (pageJob .survey none []) (.readForJob 1 0 500)).Working ∧
    (two (pageJob .survey none []) (.readForJob 1 0 500)).Still ∧
    of (.surveyReadCompletion answered .full) (two (pageJob .survey none []) (.readForJob 1 0 500)) =
      some ([.failed], [(2, .survey, 1)], [], some (.readForJob 2 0 600)) ∧
    of wroteBack (two (pageJob .writing none []) pageWrite) =
      some ([.done], [(2, .survey, 1)], [], some (.readForJob 2 0 600)) := by decide +kernel
theorem test_next_job_waits_for_room :
    let s : State := { carrying (pageJob .survey none []) (.readForJob 1 0 500) with
      ord := ⟨[], 3, []⟩, eng := ⟨[pageJob .survey none [], behind], [], 3, [], []⟩
      pool := ⟨some (.job 1) :: List.replicate 96 (some (.record (.photo 9))) ++ List.replicate 31 none, [], []⟩ }
    s.pool.free = 31 ∧ (s.pool.without (.job 1)).free = 32 ∧
    (answerOf (.surveyReadCompletion answered .full) s).map (fun t => (t.eng.jobs.map Job.state, t.pool.claims)) =
      some ([.claiming], [⟨.job 2, 1⟩]) := by decide +kernel
theorem test_held_discards :
    let survey (again : Bool) : State :=
      let s := carrying (pageJob .survey none []) (.readForJob 1 0 500)
      let s : State := { s with eng := { s.eng with heldDiscards := [⟨500, some (.page 0 1 1)⟩] } }
      if again then { s with link := { s.link with slots := s.link.slots.set 4 ⟨1, some ⟨.readForOrder 9 0 500, 9⟩⟩ } } else s
    let delivery (locator : U32) : State := { preparing false with eng := ⟨[], [], 1, [], [⟨locator, none⟩]⟩ }
    let reading : State := { delivery 500 with link := { (delivery 500).link with
      slots := (delivery 500).link.slots.set 4 ⟨1, some ⟨.readForJob 9 0 500, 9⟩⟩ } }
    let of (c : Instr) (s : State) := (answerOf c s).map fun t => (t.eng.heldDiscards.length, t.link.discards, t.link.held.length)
    (survey false).Working ∧ ((survey false).link.served 2 (.readForJob 1 0 500)).Takes 0 ∧
    of (.surveyReadCompletion answered (.done [7])) (survey false) = some (0, 1, 1) ∧
    of (.surveyReadCompletion answered (.done [7])) (survey true) = some (1, 0, 1) ∧
    (answerOf (.surveyReadCompletion answered (.done [7])) (survey false)).map (fun t => t.link.held) =
      some [.freeBody 500 (.withIndex (some (.page ((survey false).cat.indexPage (page .filed)))))] ∧
    of (.deliveryReadCompletion answered (.done [7])) (delivery 500) = some (0, 1, 1) ∧
    of (.deliveryReadCompletion answered (.done [7])) reading = some (1, 0, 1) := by decide +kernel
theorem test_place_order_starts_its_job :
    let work (f : OrderFields) (s : State) := (answerOf (.placeOrder 4 { f with restore := 1 }) s).map fun t =>
      (t.ord.live.map (fun o => (o.state, o.job)), t.eng.jobs.map (fun j => (j.creator, j.state)),
        ((t.cat.edition? 0).map Edition.pins, t.cat.photos.map Photo.pins), t.eng.nextJob, (t.link.running? 0).map Running.op)
    sellable.eng.Idle ∧ sellable.eng.Sound ∧
    work orderFields sellable = some ([(.restoreWait, some 1)], [(some 1, .survey)], (some 2, [0]), 2, some (.readForJob 1 0 500)) ∧
    work photoOrder (photoSellable none) =
      some ([(.restoreWait, some 1)], [(some 1, .survey)], (some 1, [2]), 2, some (.readForJob 1 0 600)) := by decide +kernel

/-- Orders 1 and 2 wait for job 1 on the tests' page, behind job 7; order 1 pins the edition, as the job does. -/
def joined (st : JobState) (creator : Option Nat) (joiners : List Nat) : State :=
  { ordered .charged with
    cat := ⟨table [{ edition .closed with pins := 3 }], [page .filed], [photo .filed], false⟩
    ord := ⟨[restoring 1 (some 1), restoring 2 (some 1)], 3, []⟩
    eng := ⟨[pageJob st creator joiners, { job .survey with number := 7 }], [], 2, [], []⟩ }

theorem test_cancel_leaves_the_job :
    let of (s : State) := (answerOf (.cancelOrder 4 1) s).map fun t => (t.eng.jobs.map (fun j => (j.number, j.creator, j.joiners)),
      t.eng.finished.map (fun j => (j.number, j.state, j.outcome)), (t.cat.edition? 0).map Edition.pins)
    (joined .queued (some 1) []).Ready (.cancelOrder 4 1) ∧ (joined .queued (some 1) []).Still ∧
    of (joined .queued (some 1) []) = some ([(7, none, [])], [(1, .failed, .aborted)], some 1) ∧
    of (joined .queued (some 1) [2]) = some ([(1, none, [2]), (7, none, [])], [], some 2) ∧
    of (joined .mapping (some 1) []) = some ([(1, none, []), (7, none, [])], [], some 2) ∧
    of (joined .mapping (some 2) [1]) = some ([(1, some 2, []), (7, none, [])], [], some 2) := by decide +kernel
theorem test_photo_pins :
    let photoOrdered (st : OrdState) (jobs : List Job) (n : Option Nat) : State := { ordered st with
      cat := ⟨table [{ edition .closed with pins := 1 }], [page .filed], [{ photo .filed with pins := 2 }], false⟩
      ord := ⟨[{ order st with photo := some 9, pinPhoto := some 9, job := n }], 2, []⟩, eng := ⟨jobs, [], 3, [], []⟩ }
    let of (c : Instr) (s : State) := (answerOf c s).map fun t => (t.cat.photos.map Photo.pins, t.eng.jobs.length)
    of (.retireOrder 4 1) (photoOrdered .charged [] none) = some ([1], 0) ∧
    of (.cancelOrder 4 1) (photoOrdered .heldRights [] none) = some ([1], 0) ∧
    of (.cancelOrder 4 1) (photoOrdered .restoreWait [{ job .queued with creator := some 1 }] (some 1)) = some ([0], 0) := by
  decide +kernel

/-- Order 1 pins a due edition; the seal queue as given. -/
def dueSoon (pins : Nat) (st : OrdState) (queue : List Nat) (next : List Edition) : State :=
  { ordered st with
    cat := ⟨table ({ edition .closed with pins := pins, due := true } :: next), [page .filed], [photo .filed], false⟩
    vol := { serving.vol with sealQueue := queue } }

theorem test_last_pin_of_a_due_edition :
    let of (c : Instr) (s : State) := (answerOf c s).map fun t =>
      ((t.cat.edition? 0).map (fun e => (e.state, e.pins, e.due)), t.vol.sealQueue, (t.link.running? 0).map fun r => r.op.code)
    let busy (st : OrdState) := dueSoon 1 st [1] [{ nextEdition 0 with state := .sealing }]
    (dueSoon 1 .charged [] []).Ready (.retireOrder 4 1) ∧ (dueSoon 1 .charged [] []).link.Takes 0 ∧
    of (.retireOrder 4 1) (dueSoon 2 .charged [] []) = some (some (.closed, 1, true), [], none) ∧
    of (.retireOrder 4 1) (dueSoon 1 .charged [] []) = some (some (.sealing, 0, false), [0], some 4) ∧
    of (.cancelOrder 4 1) (dueSoon 1 .heldRights [] []) = some (some (.sealing, 0, false), [0], some 4) ∧
    of (.retireOrder 4 1) (busy .charged) = some (some (.closed, 0, false), [1, 0], none) := by decide +kernel
theorem test_cancel_in_recall :
    let waits (first : List RecallWaiter) (table : List (Option RecallSlot)) (jobs : List Job) : State := { ordered .charged with
      ord := ⟨[sealedOrder 1, sealedOrder 2], 3, []⟩, eng := ⟨jobs, [], 5, [], []⟩
      vol := { serving.vol with table := table, recallWait := first } }
    let full := List.replicate 16 (some (⟨9, .photo 3, [.order 9], none⟩ : RecallSlot))
    let mine : RecallWaiter := ⟨.order 1, 5120, .page key 1 0⟩
    let other : RecallWaiter := ⟨.order 2, 5120, .page key 2 0⟩
    let forJob : RecallWaiter := ⟨.job 3, 5120, .page key 1 3⟩
    let s := waits [mine, forJob] (full.set 3 (some (fourteen [.order 9] (some (copyAt 0)))))
      [{ sealedJob 3 none with target := .sealed 5120 (.page key 1 3) }, { job .survey with number := 4 }]
    let of (s : State) := (answerOf (.cancelOrder 4 1) s).map fun t => (t.vol.recallWait, t.vol.table == s.vol.table)
    (waits [mine, other] full []).Ready (.cancelOrder 4 1) ∧
    of (waits [mine, other] full []) = some ([other], true) ∧ of (waits [other, mine] full []) = some ([other], true) ∧
    of (waits [mine] full []) = some ([], true) ∧ s.vol.holding 5120 (.page key 1 3) = some 3 ∧
    (answerOf (.cancelOrder 4 1) s).map (fun t => (t.vol.recallWait, (t.vol.slot? 3).map RecallSlot.pinners,
      t.eng.jobs.map Job.recallSlot)) = some ([], some [.order 9, .job 3], [some 3, none]) := by decide +kernel
theorem test_release_of_a_slot :
    let s (pinners : List Requester) (copy : Option EntryCopy) (wait : List RecallWaiter) : State := { ordered .charged with
      ord := ⟨[{ sealedOrder 1 with state := .heldRights, recallSlot := some 3 }, sealedOrder 2], 3, []⟩
      vol := { serving.vol with
        table := (List.replicate 16 (some (⟨9, .photo 3, [.order 9], none⟩ : RecallSlot))).set 3 (some (fourteen pinners copy))
        recallWait := wait } }
    let of (s : State) := (answerOf (.cancelOrder 4 1) s).map fun t =>
      (t.vol.slot? 3, t.vol.lru, t.vol.recallWait.length, (t.link.running? 0).map Running.op)
    let other : RecallWaiter := ⟨.order 2, 5120, .page key 2 0⟩
    (s [.order 1] (some (copyAt 0)) [other]).Ready (.cancelOrder 4 1) ∧ (s [.order 1] (some (copyAt 0)) [other]).link.Takes 0 ∧
    of (s [.order 1, .order 8] (some (copyAt 0)) []) = some (some (fourteen [.order 8] (some (copyAt 0))), [], 0, none) ∧
    of (s [.order 1] none []) = some (some (fourteen [] none), [], 0, none) ∧
    of (s [.order 1] (some (copyAt 0)) []) = some (some (fourteen [] (some (copyAt 0))), [3], 0, none) ∧
    of (s [.order 1] (some (copyAt 0)) [other]) =
      some (some ⟨5120, .page key 2 0, [.order 2], none⟩, [], 0, some (.readEntry 3 5120 (.page key 2 0))) := by decide +kernel

/-! ### What every step keeps -/

theorem test_waiting_calm : waiting.Calm := by decide +kernel
theorem test_waiting_sound : waiting.Sound := by decide +kernel
theorem test_request_spelled :
    encodeRequest (.closeEdition 4 key) = some (0x25, 4, [0, 100, 3]) ∧
    decodeRequest 0x25 4 [0, 100, 3, 9] = .closeEdition 4 key ∧ decodeRequest 0x25 4 [0, 100] = .closeEdition 4 ⟨100, 0⟩ ∧
    Instr.wellFormed (.closeEdition 4 key) = true := by decide +kernel
theorem test_reset_tables : State.reset.Tables := by decide +kernel
theorem test_sealing_tables : (sealing [1] [nextEdition 0] false).Tables := by decide +kernel
theorem test_amending_tables : { amending with eng := { amending.eng with jobs := [] } }.Tables := by decide +kernel
theorem test_ill_formed_index_records :
    Instr.wellFormed (.indexReadCompletion answered (.done ⟨[], [⟨key, 4, 1, 1, 2, ⟨1, 1⟩, 1, some 5, some 5, some 1, 0, none,
      [⟨9, 1, 1, 1, 1⟩, ⟨9, 1, 1, 1, 1⟩]⟩], []⟩)) = false ∧
    Instr.wellFormed (.indexReadCompletion answered (.done ⟨[], [⟨key, 4, 1, 1, 2, ⟨1, 1⟩, 1, some 5, some 6, some 1, 0, none,
      []⟩], []⟩)) = false := by decide +kernel

end Sys2Proof.Tests
end

section
/-! The queries of O29: the fields of their replies, and what each query answers. -/

namespace Sys2Proof.Machine

/-! ### Taking the request's frame leaves every block but the port -/

namespace State

@[simp] theorem popped_cat (s : State) : s.popped.cat = s.cat := rfl
@[simp] theorem popped_eng (s : State) : s.popped.eng = s.eng := rfl
@[simp] theorem popped_ord (s : State) : s.popped.ord = s.ord := rfl
@[simp] theorem popped_job? (s : State) (n : Nat) : s.popped.job? n = s.job? n := rfl
@[simp] theorem popped_order? (s : State) (n : Nat) : s.popped.order? n = s.order? n := rfl
@[simp] theorem popped_pageFields (s : State) (p : Page) : s.popped.pageFields p = s.pageFields p := rfl
@[simp] theorem popped_photoFields (s : State) (p : Photo) : s.popped.photoFields p = s.photoFields p := rfl
@[simp] theorem popped_jobFields (s : State) (j : Job) (live : Bool) : s.popped.jobFields j live = s.jobFields j live := rfl
@[simp] theorem popped_orderFields (s : State) (o : Order) : s.popped.orderFields o = s.orderFields o := rfl

end State

/-! ### Optional fields: zero while absent -/

theorem flaggedDay_eq_elim (d : Option Nat) : flaggedDay d = d.elim [0, 0, 0] fun n => [1] ++ u16 n := by
  cases d <;> rfl

theorem u32Opt_eq_elim (x : Option U32) : u32Opt x = u32 (x.elim 0 BitVec.toNat) := by cases x <;> rfl

theorem u32Opt_map {α : Type} (x : Option α) (f : α → U32) :
    u32Opt (x.map f) = u32 (x.elim 0 fun a => (f a).toNat) := by cases x <;> rfl

theorem pointsField_eq_elim (p : Option Points) :
    pointsField p = p.elim [0, 0, 0] fun x => [1] ++ u8 x.b ++ u8 x.w := by cases p <;> rfl

theorem getD_map_eq_elim {α β : Type} (x : Option α) (f : α → β) (b : β) : (x.map f).getD b = x.elim b f := by
  cases x <;> rfl

/-! ### The fields that are not a fixed row of bytes -/

/-- The occupied entries, read slot by slot. -/
theorem occupied_eq_range (c : Catalogue) :
    c.occupied = (List.range c.editions.length).filterMap fun i => (c.edition? i).map fun e => (i, e) := by
  have hz : c.editions.zipIdx = (List.range c.editions.length).map fun i => (c.edition? i, i) :=
    List.ext_getElem (by simp) fun i h1 h2 => by
      have hi : i < c.editions.length := by simpa using h2
      simp [Catalogue.edition?, hi]
  rw [Catalogue.occupied, hz, List.filterMap_map]
  rfl

/-- The entries that LIST EDITIONS finds from a start slot on (R17). -/
theorem occupied_from (c : Catalogue) (start : Nat) (h : c.editions.length = 64) :
    (c.occupied.filter fun x => decide (start ≤ x.1)) =
      (List.range 64).filterMap fun i => if start ≤ i then (c.edition? i).map fun e => (i, e) else none := by
  rw [occupied_eq_range, h, List.filter_filterMap]
  congr 1
  funext i
  cases c.edition? i with
  | none => simp
  | some e => by_cases hi : start ≤ i <;> simp [hi, Option.filter]

theorem filedOnFields_eq (p : Photo) : filedOnFields p =
    if p.state = .filed then flaggedDay p.filedOn else [0, 0, 0] := by
  by_cases hf : p.state = .filed
  · simp [filedOnFields, hf]
  · rw [filedOnFields, if_neg (by simpa using hf), if_neg hf]; rfl

/-- In QUERY STORE a slot shows its ticks left, and a PROBE those of the interval (R81). -/
theorem slotField_some {l : StoreLink} {sl : OpSlot} {r : Running} (h : sl.occupant = some r) :
    l.slotField sl = u8 r.op.code ++ u16 (if r.op = .probe then l.probeTicks.getD 0 else r.ticks) := by
  by_cases hp : r.op = .probe <;> simp [StoreLink.slotField, h, Op.isOwned, hp]

/-- A queued edition's status is 2 while it is SEALING, 1 while it waits at the head for its close mark, else 0 (R91). -/
theorem sealField_some {s : State} {slot : Nat} {e : Edition} (h : s.cat.edition? slot = some e) :
    s.sealField slot = u8 slot ++ keyField e.key ++ u8 (
        if e.state = .sealing then 2
        else if (s.req.mode = .service ∨ s.req.mode = .setup) ∧ s.vol.sealQueue.head? = some slot ∧
            s.link.marking slot = true then 1
        else 0) := by
  simp [State.sealField, h, Mode.seals, and_assoc]

theorem slotField_free {v : VolumeUnit} {i : Nat} (h : v.slot? i = none) : v.slotField i = List.replicate 20 0 := by
  simp only [VolumeUnit.slotField, h]; rfl

theorem detail_free {v : VolumeUnit} {i : Nat} (h : v.slot? i = none) : v.detail i = List.replicate 16 0 := by
  simp only [VolumeUnit.detail, h]; rfl

/-! ### What each query answers, in the fields of the model -/

section Answers

variable {s : State} {tag : U8}

theorem exec_queryEdition_outOfRange {key : EditionKey} (h : s.Asked (.queryEdition tag key)) (hc : 15 < key.code.toNat) :
    exec (.queryEdition tag key) s = .next (s.reported 0x40 tag .outOfRange []) :=
  query_replies h (if_pos hc)

theorem exec_queryEdition_unknown {key : EditionKey} (h : s.Asked (.queryEdition tag key)) (hc : key.code.toNat ≤ 15)
    (hs : s.cat.slotOf key = none) :
    exec (.queryEdition tag key) s = .next (s.reported 0x40 tag .notFound []) :=
  query_replies h ((if_neg (Nat.not_lt.2 hc)).trans (by simp only [State.popped_cat, hs]; rfl))

theorem exec_queryEdition_found {key : EditionKey} {slot : Nat} {e : Edition} (h : s.Asked (.queryEdition tag key))
    (hc : key.code.toNat ≤ 15) (hs : s.cat.slotOf key = some slot) (he : s.cat.edition? slot = some e) :
    exec (.queryEdition tag key) s = .next (s.reported 0x40 tag .ok (s.cat.editionFields slot e)) :=
  query_replies h ((if_neg (Nat.not_lt.2 hc)).trans (by simp only [State.popped_cat, hs, he]))

theorem exec_listEditions_outOfRange {start : U8} (h : s.Asked (.listEditions tag start)) (hs : 63 < start.toNat) :
    exec (.listEditions tag start) s = .next (s.reported 0x41 tag .outOfRange []) :=
  query_replies h (if_pos hs)

theorem exec_listEditions_inRange {start : U8} (h : s.Asked (.listEditions tag start)) (hs : start.toNat ≤ 63) :
    exec (.listEditions tag start) s = .next (s.reported 0x41 tag .ok (s.cat.listFields start.toNat)) :=
  query_replies h (if_neg (Nat.not_lt.2 hs))

theorem pageKeyInRange_iff {k : PageKey} : pageKeyInRange k = true ↔
    k.edition.code.toNat ≤ 15 ∧ 1 ≤ k.page.toNat ∧ k.page.toNat ≤ 128 ∧ k.version.toNat ≤ 7 := decide_eq_true_iff

theorem exec_queryPage_outOfRange {k : PageKey} (h : s.Asked (.queryPage tag k)) (hk : ¬pageKeyInRange k = true) :
    exec (.queryPage tag k) s = .next (s.reported 0x42 tag .outOfRange []) :=
  query_replies h (if_pos (by simpa using hk))

theorem exec_queryPage_unknown {k : PageKey} (h : s.Asked (.queryPage tag k)) (hk : pageKeyInRange k = true)
    (hs : s.cat.slotOf k.edition = none) :
    exec (.queryPage tag k) s = .next (s.reported 0x42 tag .notFound []) :=
  query_replies h (by simp [State.queryPage, State.refuse, hk, hs])

theorem exec_queryPage_refused {k : PageKey} {slot : Nat} {c : Code} (h : s.Asked (.queryPage tag k))
    (hk : pageKeyInRange k = true) (hs : s.cat.slotOf k.edition = some slot)
    (hl : s.cat.lookUp slot k.page.toNat k.version.toNat = .error c) :
    exec (.queryPage tag k) s = .next (s.reported 0x42 tag c []) :=
  query_replies h (by simp [State.queryPage, State.refuse, hk, hs, hl])

theorem exec_queryPage_found {k : PageKey} {slot : Nat} {p : Page} (h : s.Asked (.queryPage tag k))
    (hk : pageKeyInRange k = true) (hs : s.cat.slotOf k.edition = some slot)
    (hl : s.cat.lookUp slot k.page.toNat k.version.toNat = .ok p) :
    exec (.queryPage tag k) s = .next (s.reported 0x42 tag .ok (s.pageFields p)) :=
  query_replies h (by simp [State.queryPage, hk, hs, hl])

theorem exec_queryPhoto_outOfRange {n : U32} (h : s.Asked (.queryPhoto tag n)) (hn : n = 0) :
    exec (.queryPhoto tag n) s = .next (s.reported 0x43 tag .outOfRange []) :=
  query_replies h (if_pos hn)

theorem exec_queryPhoto_unknown {n : U32} (h : s.Asked (.queryPhoto tag n)) (hn : n ≠ 0) (hp : s.cat.photo? n = none) :
    exec (.queryPhoto tag n) s = .next (s.reported 0x43 tag .notFound []) :=
  query_replies h ((if_neg hn).trans (by simp only [State.popped_cat, hp]; rfl))

theorem exec_queryPhoto_found {n : U32} {p : Photo} (h : s.Asked (.queryPhoto tag n)) (hn : n ≠ 0)
    (hp : s.cat.photo? n = some p) :
    exec (.queryPhoto tag n) s = .next (s.reported 0x43 tag .ok (s.photoFields p)) :=
  query_replies h ((if_neg hn).trans (by simp only [State.popped_cat, hp, State.popped_photoFields]))

theorem exec_queryStore (h : s.Asked (.queryStore tag)) :
    exec (.queryStore tag) s = .next (s.reported 0x51 tag .ok s.link.fields) := query_replies h rfl

theorem exec_querySealing (h : s.Asked (.querySealing tag)) :
    exec (.querySealing tag) s = .next (s.reported 0x61 tag .ok s.sealingFields) := query_replies h rfl

theorem exec_queryRecall {detail : U8} (h : s.Asked (.queryRecall tag detail)) :
    exec (.queryRecall tag detail) s = .next
      (if 16 < detail.toNat then s.reported 0x62 tag .outOfRange []
      else if detail = 0 then s.reported 0x62 tag .ok s.vol.listFields
      else s.reported 0x62 tag .ok (s.vol.detail (detail.toNat - 1))) := by
  split_ifs with hr h0
  · exact query_replies h (if_pos hr)
  · exact query_replies h ((if_neg hr).trans (if_pos h0))
  · exact query_replies h ((if_neg hr).trans (if_neg h0))

theorem exec_queryRestore_list {job : U16} (h : s.Asked (.queryRestore tag job)) (hj : job = 0) :
    exec (.queryRestore tag job) s = .next (s.reported 0x72 tag .ok s.jobList) := query_replies h (if_pos hj)

theorem exec_queryRestore_live {job : U16} {j : Job} (h : s.Asked (.queryRestore tag job)) (hj : job ≠ 0)
    (hl : s.job? job.toNat = some j) :
    exec (.queryRestore tag job) s = .next (s.reported 0x72 tag .ok (s.jobFields j true)) :=
  query_replies h ((if_neg hj).trans (by simp [hl]))

theorem exec_queryRestore_finished {job : U16} {j : Job} (h : s.Asked (.queryRestore tag job)) (hj : job ≠ 0)
    (hl : s.job? job.toNat = none) (hf : s.eng.finished.find? (fun j => j.number == job.toNat) = some j) :
    exec (.queryRestore tag job) s = .next (s.reported 0x72 tag .ok (s.jobFields j false)) :=
  query_replies h ((if_neg hj).trans (by simp [hl, hf]))

theorem exec_queryRestore_unknown {job : U16} (h : s.Asked (.queryRestore tag job)) (hj : job ≠ 0)
    (hl : s.job? job.toNat = none) (hf : s.eng.finished.find? (fun j => j.number == job.toNat) = none) :
    exec (.queryRestore tag job) s = .next (s.reported 0x72 tag .notFound []) :=
  query_replies h ((if_neg hj).trans (by simp [State.refuse, hl, hf]))

theorem exec_queryOrder_list {n : U32} (h : s.Asked (.queryOrder tag n)) (hn : n = 0) :
    exec (.queryOrder tag n) s = .next (s.reported 0x7B tag .ok s.ord.listFields) := query_replies h (if_pos hn)

theorem exec_queryOrder_live {n : U32} {o : Order} (h : s.Asked (.queryOrder tag n)) (hn : n ≠ 0)
    (hl : s.order? n.toNat = some o) :
    exec (.queryOrder tag n) s = .next (s.reported 0x7B tag .ok (s.orderFields o)) :=
  query_replies h ((if_neg hn).trans (by simp [hl]))

theorem exec_queryOrder_finished {n : U32} {o : Order} (h : s.Asked (.queryOrder tag n)) (hn : n ≠ 0)
    (hl : s.order? n.toNat = none) (hf : s.ord.finished.find? (fun o => o.number == n.toNat) = some o) :
    exec (.queryOrder tag n) s = .next (s.reported 0x7B tag .ok (s.orderFields o)) :=
  query_replies h ((if_neg hn).trans (by simp [hl, hf]))

theorem exec_queryOrder_unknown {n : U32} (h : s.Asked (.queryOrder tag n)) (hn : n ≠ 0)
    (hl : s.order? n.toNat = none) (hf : s.ord.finished.find? (fun o => o.number == n.toNat) = none) :
    exec (.queryOrder tag n) s = .next (s.reported 0x7B tag .notFound []) :=
  query_replies h ((if_neg hn).trans (by simp [State.refuse, hl, hf]))

end Answers

/-- A number that no element of either list has is found in neither. -/
theorem find?_none_of_append {α : Type} {l m : List α} {number : α → Nat} {n : Nat} (h : ∀ x ∈ l ++ m, number x ≠ n) :
    l.find? (fun x => number x == n) = none ∧ m.find? (fun x => number x == n) = none := by
  simp only [List.find?_eq_none, beq_iff_eq]
  exact ⟨fun x hx => h x (List.mem_append_left _ hx), fun x hx => h x (List.mem_append_right _ hx)⟩

/-- Settles O29: each query's refusals in order, and the fields of its reply. -/
theorem queriesReportWhatStands : Obligations.QueriesReportWhatStands := by
  unfold Obligations.QueriesReportWhatStands
  intro flag opt flagged points edition grid place rights kind named
  have hflag (b : Bool) : flagByte b = flag b := rfl
  have hopt (x : Option U32) : u32Opt x = opt x := u32Opt_eq_elim x
  have hflagged (d : Option Nat) : flaggedDay d = flagged d := flaggedDay_eq_elim d
  have hpoints (p : Option Points) : pointsField p = points p := pointsField_eq_elim p
  have hedition (k : EditionKey) : keyField k = edition k := rfl
  have hgrid (g : Grid) : gridField g = grid g := rfl
  have hplace : placementField = place := rfl
  have hrights (r : Rights) : rightsField r = rights r := by
    rw [rightsField, hflagged]
    simp only [rights]
    cases r.cls <;> rfl
  have hkind (k : EntryKey) : keyKind k = kind k := by cases k <;> rfl
  have hnamed (k : EntryKey) : entryField k = named k := by cases k <;> rfl
  refine ⟨⟨?edition, ?editions, ?pages, ?photos⟩, ⟨?store, ?sealing, ?recalls, ?restores, ?order⟩, ?codes⟩
  case edition =>
    intro s tag key h
    refine ⟨exec_queryEdition_outOfRange h, exec_queryEdition_unknown h, fun slot e hc hs he => ?_⟩
    rw [exec_queryEdition_found h hc hs he]
    simp only [Catalogue.editionFields, Catalogue.pagesOf, ← List.countP_eq_length_filter, hflag, hflagged]
    cases e.deadline <;> rfl
  case editions =>
    intro s tag start h
    refine ⟨exec_listEditions_outOfRange h, fun hs h64 => ?_⟩
    rw [exec_listEditions_inRange h hs]
    simp only [Catalogue.listFields, occupied_from _ _ h64, getD_map_eq_elim, hedition]
  case pages =>
    intro s tag k h inRange fields
    have hin : pageKeyInRange k = true ↔ inRange := pageKeyInRange_iff
    have hfields (p : Page) : s.pageFields p = fields p := by
      simp only [State.pageFields, levelFields, hflag, hgrid, hopt, hpoints, hplace, fields, List.append_assoc]
    refine ⟨fun hk => exec_queryPage_outOfRange h (mt hin.1 hk), fun hk => exec_queryPage_unknown h (hin.2 hk),
      fun slot hk hs => ⟨fun hv => ?_, fun hv => ?_⟩⟩
    · have hv : k.version.toNat = 0 := by rw [hv]; rfl
      cases hp : s.cat.current? slot k.page.toNat with
      | none => exact exec_queryPage_refused h (hin.2 hk) hs (by simp [Catalogue.lookUp, hv, hp])
      | some p =>
        rw [exec_queryPage_found h (hin.2 hk) hs (p := p) (by simp [Catalogue.lookUp, hv, hp]), hfields]
    · have hv : k.version.toNat ≠ 0 := fun h0 => hv (BitVec.eq_of_toNat_eq h0)
      cases hp : s.cat.page? slot k.page.toNat k.version.toNat with
      | none => exact exec_queryPage_refused h (hin.2 hk) hs (by simp [Catalogue.lookUp, hv, hp])
      | some p =>
        rw [exec_queryPage_found h (hin.2 hk) hs (p := p) (by simp [Catalogue.lookUp, hv, hp]), hfields]
  case photos =>
    intro s tag n h
    refine ⟨exec_queryPhoto_outOfRange h, fun hn => ?_⟩
    cases hp : s.cat.photo? n with
    | none => exact exec_queryPhoto_unknown h hn hp
    | some p =>
      rw [exec_queryPhoto_found h hn hp]
      simp only [State.photoFields, levelFields, filedOnFields_eq, hflagged, hrights, hgrid, hopt, hpoints, List.append_assoc]
  case store =>
    intro s tag h
    rw [exec_queryStore h, StoreLink.fields]
    congr 4
    funext sl
    cases hr : sl.occupant with
    | none => simp only [StoreLink.slotField, hr]; rfl
    | some r => exact slotField_some hr
  case sealing =>
    intro s tag h status
    rw [exec_querySealing h]
    have hfield (slot : Nat) : s.sealField slot = match s.cat.edition? slot with
        | none => []
        | some e => u8 slot ++ edition e.key ++ u8 (status slot e) := by
      cases he : s.cat.edition? slot with
      | none => simp only [State.sealField, he]
      | some e => exact sealField_some he
    simp only [State.sealingFields, funext hfield]
    cases s.vol.lastSeal <;> rfl
  case recalls =>
    intro s tag detail h held line copied one
    have hline (i : Nat) : s.vol.slotField i = line i := by
      cases hs : s.vol.slot? i with
      | none => simp only [slotField_free hs, line, hs]
      | some r =>
        simp only [VolumeUnit.slotField, line, hs, slotState, hkind, hnamed, held]
        rcases r.copy with _ | (_ | _) <;> rfl
    have hcopy (c : EntryCopy) : copyField c = copied c := by
      unfold copyField placedField
      cases c <;> simp only [copied, hplace, hrights, hgrid, hpoints]
    have hone (i : Nat) : s.vol.detail i = one i := by
      cases hs : s.vol.slot? i with
      | none => simp only [detail_free hs, one, hs]
      | some r =>
        simp only [VolumeUnit.detail, one, hs, slotState, hkind, hnamed, held, getD_map_eq_elim, funext hcopy]
    simp only [exec_queryRecall h, VolumeUnit.listFields, funext hline, hone]
  case restores =>
    intro s tag job h target resolved ready active fields
    have htarget (j : Job) (x : Target) : targetField j.edition x = target j x := by
      cases x <;> simp only [targetField, target, hnamed, hkind] <;> rfl
    have hready (j : Job) : j.isReady = ready j := by
      simp only [Job.isReady, ready]
      cases j.target <;> rfl
    have hresolved (j : Job) : s.resolvedTarget j = resolved j := by
      simp only [State.resolvedTarget, resolved]
      cases j.target <;> cases j.recallSlot.bind s.vol.slot? <;> rfl
    refine ⟨fun hj => ?_, fun j hj hl => ?_, fun j hj hl hf => ?_, fun hj hn => ?_⟩
    · rw [exec_queryRestore_list h hj]
      unfold State.jobList Job.line
      simp only [getD_map_eq_elim, htarget, hready, hflag]
      rfl
    · rw [exec_queryRestore_live h hj hl]
      simp only [State.jobFields, u8Or, if_true, htarget, hresolved, hpoints, fields]
    · rw [exec_queryRestore_finished h hj hl hf]
      simp only [State.jobFields, u8Or, Bool.false_eq_true, if_false, htarget, hpoints, fields]
    · obtain ⟨hl, hf⟩ := find?_none_of_append hn
      exact exec_queryRestore_unknown h hj hl hf
  case order =>
    intro s tag n h fields
    have hfields (o : Order) : s.orderFields o = fields o := by
      unfold State.orderFields
      rw [u32Opt_map]
      simp only [u8Or, getD_map_eq_elim, hflag, hedition, hopt, fields]
    refine ⟨fun hn => ?_, fun o hn hl => ?_, fun o hn hl hf => ?_, fun hn ha => ?_⟩
    · rw [exec_queryOrder_list h hn]
      simp only [OrderTable.listFields, OrderTable.exhausted, decide_eq_true_eq]
      rfl
    · rw [exec_queryOrder_live h hn hl, hfields]
    · rw [exec_queryOrder_finished h hn hl hf, hfields]
    · obtain ⟨hl, hf⟩ := find?_none_of_append ha
      exact exec_queryOrder_unknown h hn hl hf
  case codes => exact ⟨rfl, rfl, rfl, rfl, rfl, fun op => by cases op <;> rfl⟩

end Sys2Proof.Machine
end

section
/-! DROP PHOTO and the reload of the catalogue. O30 fails in one clause, for a part of which two photo records share a number; what
the commands of its other clauses do, and DROP PHOTO where the numbers are distinct, is proved after the refutation. -/

namespace Sys2Proof.Machine

/-! ### DROP PHOTO where two records share a number -/

/-- A photo record of number 9, in the state given. -/
def photoNine (st : RecState) : Photo :=
  { number := 9, state := st, rights := noRights, grid := ⟨1, 1⟩, declared := 0, raw := none, current := none
    stored := none, level := 0, points := none, refs := 0, pins := 0, filedOn := none, outcome := .ok }

/-- A part whose entry to SETUP waits for one record, a RECEIVING one, which has the number of a FAILED one. -/
def sharedNumber : State := { State.reset with
  cat := { Catalogue.initial with photos := [photoNine .failed, photoNine .receiving] }
  req := { RequestUnit.initial with mode := .setupPending } }

/-- It is no sound catalogue: R13 gives each photograph one record. -/
theorem sharedNumber_not_sound : ¬sharedNumber.cat.Sound := fun ⟨_, _, _, _, hnumbers, _⟩ => absurd hnumbers (by decide)

theorem sharedNumber_ready : sharedNumber.Ready (.dropPhoto 4 9) := by decide +kernel

/-- DROP PHOTO frees both records, so that the pending entry to SETUP completes in the same change. -/
theorem exec_dropPhoto_sharedNumber : ∃ t, exec (.dropPhoto 4 9) sharedNumber = .next t ∧ t.req.mode = .setup :=
  ⟨_, rfl, by decide +kernel⟩

/-- Refutes O30: nothing in its premises keeps two photo records from sharing a number. The FAILED record of `sharedNumber` may be
dropped; a RECEIVING one goes with it, and with that the entry to SETUP completes, where the statement lets nothing but the
photo table and the port change. -/
theorem not_catalogueIsDroppedFromAndReloaded : ¬Obligations.CatalogueIsDroppedFromAndReloaded := by
  rintro ⟨hdrop, -⟩
  obtain ⟨-, -, hfound⟩ := hdrop sharedNumber 4 9 sharedNumber_ready
  obtain ⟨hfree, -⟩ := hfound (photoNine .failed) (by decide) rfl
  obtain ⟨t, ht, hmode⟩ := exec_dropPhoto_sharedNumber
  rw [hfree (.inl rfl)] at ht
  cases ht
  exact absurd hmode (by decide)

/-! ### What DROP PHOTO does in a catalogue of distinct photo numbers -/

/-- A record of a number is the only one, where no two photo records share theirs. -/
theorem photo_eq_of_number {c : Catalogue} (hc : (c.photos.map Photo.number).Nodup) {n : U32} {p q : Photo}
    (hp : c.photo? n = some p) (hq : q ∈ c.photos) (hn : q.number = n) : q = p := by
  have hnp : p.number = n := by simpa using List.find?_some hp
  exact List.inj_on_of_nodup_map hc hq (List.mem_of_find?_eq_some hp) (hn.trans hnp.symm)

/-- A record that DROP PHOTO may free is not on its way. -/
theorem Photo.not_inFlight_of_mayDrop {p : Photo} (h : p.mayDrop = true) : p.state.inFlight = false := by
  simp only [Photo.mayDrop, Bool.or_eq_true, Bool.and_eq_true, beq_iff_eq] at h
  rcases h with h | ⟨⟨h, _⟩, _⟩ <;> rw [h] <;> rfl

/-- Dropping the only record of a number, which is not on its way, leaves the test of a pending mode entry as it was. -/
theorem entryDue_filterPhotos {s : State} {n : U32} {p : Photo} (hc : (s.cat.photos.map Photo.number).Nodup)
    (hp : s.cat.photo? n = some p) (hd : p.mayDrop = true) :
    State.entryDue { s with cat := { s.cat with photos := s.cat.photos.filter fun q => q.number != n } } = s.entryDue := by
  have hall : ((s.cat.photos.filter fun q => q.number != n).all fun q => !q.state.inFlight) =
      s.cat.photos.all fun q => !q.state.inFlight := by
    rw [Bool.eq_iff_iff]
    simp only [List.all_eq_true, List.mem_filter, bne_iff_ne, and_imp]
    refine ⟨fun h q hq => ?_, fun h q hq _ => h q hq⟩
    by_cases hn : q.number = n
    · rw [photo_eq_of_number hc hp hq hn, Photo.not_inFlight_of_mayDrop hd]; rfl
    · exact h q hq hn
  exact State.entryDue_congr rfl (by simp only [State.setupReady, hall]) rfl

/-- The clause of O30 that fails, for a catalogue whose photo records have distinct numbers, as in every sound one (R13, R20). -/
theorem exec_dropPhoto_frees {s : State} {tag : U8} {n : U32} {p : Photo} (h : s.Ready (.dropPhoto tag n))
    (hc : (s.cat.photos.map Photo.number).Nodup) (hn : n ≠ 0) (hp : s.cat.photo? n = some p) (hd : p.mayDrop = true) :
    exec (.dropPhoto tag n) s = .next
      (State.replied { s with cat := { s.cat with photos := s.cat.photos.filter fun q => q.number != n } } 0x44 tag .ok []) := by
  obtain ⟨⟨⟨ha, hf, hnotice, hwait, hl, he⟩, _⟩, _⟩ := id h
  refine request_answers (u := { s.popped with cat := { s.cat with photos := s.cat.photos.filter fun q => q.number != n } })
    h ?_ ⟨ha, hf, hnotice, hwait, hl, ?_⟩ rfl rfl
  · exact (if_neg hn).trans (by simp only [State.popped_cat, hp, hd, if_true]; rfl)
  · exact (entryDue_filterPhotos (s := s.popped) hc hp hd).trans he

theorem exec_dropPhoto_outOfRange {s : State} {tag : U8} {n : U32} (h : s.Ready (.dropPhoto tag n)) (hn : n = 0) :
    exec (.dropPhoto tag n) s = .next (s.replied 0x44 tag .outOfRange []) := request_replies h (if_pos hn)

theorem exec_dropPhoto_unknown {s : State} {tag : U8} {n : U32} (h : s.Ready (.dropPhoto tag n)) (hn : n ≠ 0)
    (hp : s.cat.photo? n = none) : exec (.dropPhoto tag n) s = .next (s.replied 0x44 tag .notFound []) :=
  request_replies h ((if_neg hn).trans (by simp only [State.popped_cat, hp]; rfl))

theorem exec_dropPhoto_refused {s : State} {tag : U8} {n : U32} {p : Photo} (h : s.Ready (.dropPhoto tag n)) (hn : n ≠ 0)
    (hp : s.cat.photo? n = some p) (hd : p.mayDrop = false) :
    exec (.dropPhoto tag n) s = .next (s.replied 0x44 tag .badState []) :=
  request_replies h ((if_neg hn).trans (by simp only [State.popped_cat, hp, hd]; rfl))

/-! ### RELOAD CATALOGUE (R22) -/

theorem exec_reloadCatalogue_badState {s : State} {tag : U8} (h : s.Ready (.reloadCatalogue tag))
    (hb : s.req.mode ≠ .setup ∨ s.cat.isEmpty = false) :
    exec (.reloadCatalogue tag) s = .next (s.replied 0x45 tag .badState []) :=
  request_replies h (if_pos (by simpa [State.popped] using hb))

theorem exec_reloadCatalogue_busy {s : State} {tag : U8} (h : s.Ready (.reloadCatalogue tag)) (hm : s.req.mode = .setup)
    (he : s.cat.isEmpty = true) (hr : s.cat.reloading = true) :
    exec (.reloadCatalogue tag) s = .next (s.replied 0x45 tag .busy []) :=
  request_replies h (by simp [State.reload, State.refuse, hm, he, hr, State.popped])

/-- In SETUP no mode entry is pending. -/
theorem State.entryDue_setup {s : State} (h : s.req.mode = .setup) : s.entryDue = false := by simp [State.entryDue, h]

/-- A reload hands off its INDEX READ and forms no reply; that is suspended (R22). -/
theorem exec_reloadCatalogue_handsOff {s : State} {tag : U8} {i : Nat} (h : s.Ready (.reloadCatalogue tag))
    (hm : s.req.mode = .setup) (he : s.cat.isEmpty = true) (hr : s.cat.reloading = false) (hl : s.link.Takes i) :
    exec (.reloadCatalogue tag) s = .next { s.popped with
      cat := { s.cat with reloading := true }, link := s.link.occupy i .indexRead
      req := { s.req with reloadTag := some tag } } := by
  obtain ⟨⟨⟨ha, hf, hnotice, hwait, hfin, _⟩, hawake, _⟩, _⟩ := id h
  have hbody : s.popped.reload tag = { s.popped with
      cat := { s.cat with reloading := true }, link := s.link.occupy i .indexRead
      req := { s.req with reloadTag := some tag } } := by
    rw [State.reload, if_neg (by simp [State.popped, hm, he]), if_neg (by simp [State.popped, hr])]
    exact State.handOff_takes hl rfl
  refine (request_taken h.1.2.2 h.2).trans ?_
  rw [State.take_of_awake hawake, hbody]
  exact congrArg _ (State.endChange_of_calm ⟨ha, hf, hnotice, hwait, hfin, State.entryDue_setup hm⟩)

/-! ### What the end of a change sends -/

/-- A frame put in the port waits to be sent, and so do those that waited before. -/
theorem mem_put {p : MessagePort} {f g : Frame} :
    g ∈ (p.put f).outbound ++ (p.put f).waiting ↔ g ∈ p.outbound ++ p.waiting ∨ g = f := by
  unfold MessagePort.put
  split <;> simp only [List.mem_append, List.mem_singleton] <;> tauto

theorem mem_foldl_put {g : Frame} : ∀ (l : List Frame) (p : MessagePort),
    g ∈ (l.foldl MessagePort.put p).outbound ++ (l.foldl MessagePort.put p).waiting ↔
      g ∈ p.outbound ++ p.waiting ∨ g ∈ l
  | [], p => by simp
  | f :: l, p => by rw [List.foldl_cons, mem_foldl_put l, mem_put, List.mem_cons, or_assoc]

/-- Every frame of a change waits to be sent at its end (R176). -/
theorem sent_close {s : State} {f : Frame} (h : f ∈ s.frames) : Sent s.close f :=
  (mem_foldl_put s.frames _).2 (.inr h)

theorem State.close_reloadTag (s : State) : s.close.req.reloadTag = s.req.reloadTag := by
  unfold State.close State.send State.endWait
  split <;> rfl

/-! ### The suspended reply of a reload (R22, R23) -/

namespace State

variable (s : State) (c : Code) (fields : List U8)

@[simp] theorem answerReload_cat : (s.answerReload c fields).cat = s.cat := by unfold answerReload; split <;> rfl
@[simp] theorem answerReload_link : (s.answerReload c fields).link = s.link := by unfold answerReload; split <;> rfl
@[simp] theorem answerReload_agenda : (s.answerReload c fields).agenda = s.agenda := by unfold answerReload; split <;> rfl
@[simp] theorem answerReload_mode : (s.answerReload c fields).req.mode = s.req.mode := by unfold answerReload; split <;> rfl

theorem answerReload_reloadTag : (s.answerReload c fields).req.reloadTag = none := by
  unfold answerReload
  split
  · assumption
  · rfl

/-- The suspended reply is formed, unless a link reset lost its tag. -/
theorem answerReload_frames {g : U8} (h : s.req.reloadTag = some g) :
    s.replyFrame 0x45 g c fields ∈ (s.answerReload c fields).frames := by
  have hf : (s.answerReload c fields).formed.reload = some (s.replyFrame 0x45 g c fields) := by
    simp only [answerReload, h]
  simp [frames, hf]

end State

/-! ### The end of INDEX READ (R23, R24, R74) -/

theorem reloadDone_ok {u : State} {x : StoreIndex} (hr : u.cat.reloading = true) (hx : indexCheck x = .ok) :
    u.reloadDone x = State.answerReload { u with cat := rebuiltCatalogue x } .ok
      (u8 (indexKeys x).length ++ u16 x.pages.length ++ u16 x.photos.length) := by
  simp only [State.reloadDone, hr, hx]

theorem reloadDone_refused {u : State} {x : StoreIndex} (hr : u.cat.reloading = true) (hx : indexCheck x ≠ .ok) :
    u.reloadDone x = State.answerReload { u with cat := { u.cat with reloading := false } } (indexCheck x) [] := by
  unfold State.reloadDone
  split
  · next h => rw [hr] at h; cases h
  · next h => exact absurd h hx
  · rfl

/-- The reload in flight has ended in the state t: the catalogue and the link are those given, and the suspended reply, unless a link
reset lost its tag, waits to be sent (R22, R23). -/
abbrev State.ReloadEnds (s t : State) (cat : Catalogue) (link : StoreLink) (code : Code) (fields : List U8) : Prop :=
  t.cat = cat ∧ t.link = link ∧ t.req.reloadTag = none ∧
    ∀ g, s.req.reloadTag = some g → Sent t (s.replyFrame 0x45 g code fields)

theorem exec_indexReadCompletion_taken {s : State} {at_ : SlotTag} {ans : Answer StoreIndex} (hu : s.Up)
    (ho : s.link.answered? at_ (fun op => op == .indexRead) = some .indexRead) :
    exec (.indexReadCompletion at_ ans) s =
      .next (s.takeAnswer at_ (fun op => op == .indexRead) .index ans).endChange :=
  event_unstaged (happens := fun s => (s.link.answered? at_ fun op => op == .indexRead).isSome)
    (body := fun s => s.takeAnswer at_ (fun op => op == .indexRead) .index ans) hu.1 (by simp only [ho]; rfl) hu.2.2

/-- INDEX READ ends in SETUP: its slot passes on, and its completion is all that the change works through. -/
theorem exec_indexReadCompletion_settles {s u : State} {at_ : SlotTag} {ans : Answer StoreIndex} {link : StoreLink}
    {c : Completion} (hu : s.Up) (ho : s.link.answered? at_ (fun op => op == .indexRead) = some .indexRead)
    (hslot : s.completeSlot at_.slot.toNat .indexRead (Op.completion .indexRead .index ans).1
      (Op.completion .indexRead .index ans).2 = State.push { s with link := link } (.complete .indexRead c))
    (hdone : State.completed { s with link := link } .indexRead c = u) (ha : u.agenda = []) (hm : u.req.mode = .setup) :
    exec (.indexReadCompletion at_ ans) s = .next u.close := by
  have hset : (s.takeAnswer at_ (fun op => op == .indexRead) .index ans).settled = u := by
    rw [State.takeAnswer, ho]
    simp only [hslot]
    rw [State.settled_push (u := { s with link := link }) hu.2.1.1, State.runTask, hdone]
    exact State.settle_of_nil _ _ ha
  rw [exec_indexReadCompletion_taken hu ho, State.endChange, hset, State.entryDue_setup hm]
  rfl

/-- A change that only ends the reload sends its reply. -/
theorem reloadEnds_close (s : State) (cat : Catalogue) (link : StoreLink) (code : Code) (fields : List U8) :
    s.ReloadEnds (State.answerReload { s with link := link, cat := cat } code fields).close cat link code fields :=
  ⟨by simp, by simp, (State.close_reloadTag _).trans (State.answerReload_reloadTag _ _ _),
    fun _ hg => sent_close (State.answerReload_frames _ _ _ hg)⟩

/-- INDEX READ ends in SETUP, and its completion ends the reload. -/
theorem exec_indexReadCompletion_ends {s : State} {at_ : SlotTag} {ans : Answer StoreIndex} {link : StoreLink}
    {c : Completion} {cat : Catalogue} {code : Code} {fields : List U8} (hu : s.Up) (hm : s.req.mode = .setup)
    (ho : s.link.answered? at_ (fun op => op == .indexRead) = some .indexRead)
    (hslot : s.completeSlot at_.slot.toNat .indexRead (Op.completion .indexRead .index ans).1
      (Op.completion .indexRead .index ans).2 = State.push { s with link := link } (.complete .indexRead c))
    (hdone : State.completed { s with link := link } .indexRead c =
      State.answerReload { s with link := link, cat := cat } code fields) :
    ∃ t, exec (.indexReadCompletion at_ ans) s = .next t ∧ s.ReloadEnds t cat link code fields :=
  ⟨_, exec_indexReadCompletion_settles hu ho hslot hdone (by simpa using hu.2.1.1) (by simpa using hm),
    reloadEnds_close s cat link code fields⟩

/-- An index that passes the check rebuilds the tables (R23, R24). -/
theorem exec_indexReadCompletion_rebuilds {s : State} {at_ : SlotTag} {x : StoreIndex} (hu : s.Up) (hm : s.req.mode = .setup)
    (hr : s.cat.reloading = true) (ho : s.link.answered? at_ (fun op => op == .indexRead) = some .indexRead)
    (hx : indexCheck x = .ok) :
    ∃ t, exec (.indexReadCompletion at_ (.done x)) s = .next t ∧
      s.ReloadEnds t (rebuiltCatalogue x) (s.link.served at_.slot.toNat .indexRead) .ok
        (u8 (indexKeys x).length ++ u16 x.pages.length ++ u16 x.photos.length) :=
  exec_indexReadCompletion_ends hu hm ho rfl (reloadDone_ok (u := { s with link := s.link.served _ _ }) hr hx)

/-- An index that does not pass leaves the tables empty, and the reply tells why (R23). -/
theorem exec_indexReadCompletion_refuses {s : State} {at_ : SlotTag} {x : StoreIndex} (hu : s.Up) (hm : s.req.mode = .setup)
    (hr : s.cat.reloading = true) (ho : s.link.answered? at_ (fun op => op == .indexRead) = some .indexRead)
    (hx : indexCheck x ≠ .ok) :
    ∃ t, exec (.indexReadCompletion at_ (.done x)) s = .next t ∧
      s.ReloadEnds t { s.cat with reloading := false } (s.link.served at_.slot.toNat .indexRead) (indexCheck x) [] :=
  exec_indexReadCompletion_ends hu hm ho rfl (reloadDone_refused (u := { s with link := s.link.served _ _ }) hr hx)

/-- A MEDIA_ERROR below the failure limit counts, and ends the reload STORE_FAULT (R23, R74, R76). -/
theorem exec_indexReadCompletion_mediaError {s : State} {at_ : SlotTag} (hu : s.Up) (hm : s.req.mode = .setup)
    (ho : s.link.answered? at_ (fun op => op == .indexRead) = some .indexRead) (hf : s.link.failures < 7) :
    ∃ t, exec (.indexReadCompletion at_ .mediaError) s = .next t ∧
      s.ReloadEnds t { s.cat with reloading := false }
        (StoreLink.passOn { s.link.vacate at_.slot.toNat with failures := s.link.failures + 1 } at_.slot.toNat)
        .storeFault [] := by
  refine exec_indexReadCompletion_ends (c := .failed .storeFault) hu hm ho ?_ rfl
  exact if_neg (by simp [Op.completion]; omega)

theorem passOn_failures (l : StoreLink) (i : Nat) : (l.passOn i).failures = l.failures := by
  unfold StoreLink.passOn
  split <;> rfl

/-! ### The order of the keys (R24) -/

/-- An element is put where the order stays. -/
theorem insertBy_pairwise {α : Type} {le : α → α → Bool} (htot : ∀ a b, le a b = true ∨ le b a = true)
    (htrans : ∀ a b c, le a b = true → le b c = true → le a c = true) (x : α) {l : List α}
    (h : l.Pairwise fun a b => le a b = true) : (insertBy le x l).Pairwise fun a b => le a b = true := by
  induction l with
  | nil => simp [insertBy]
  | cons y ys ih =>
    obtain ⟨hy, hys⟩ := List.pairwise_cons.1 h
    rw [insertBy]
    split
    · next hxy => exact List.pairwise_cons.2 ⟨List.forall_mem_cons.2 ⟨hxy, fun z hz => htrans _ _ _ hxy (hy z hz)⟩, h⟩
    · next hxy =>
      refine List.pairwise_cons.2 ⟨fun z hz => ?_, ih hys⟩
      rcases List.mem_cons.1 ((insertBy_perm le x ys).mem_iff.1 hz) with rfl | hz
      · exact (htot z y).resolve_left hxy
      · exact hy z hz

theorem sortBy_pairwise {α : Type} {le : α → α → Bool} (htot : ∀ a b, le a b = true ∨ le b a = true)
    (htrans : ∀ a b c, le a b = true → le b c = true → le a c = true) :
    ∀ l : List α, (sortBy le l).Pairwise fun a b => le a b = true
  | [] => .nil
  | x :: xs => insertBy_pairwise htot htrans x (sortBy_pairwise htot htrans xs)

/-- The keys of the returned editions stand in strictly ascending order (R24). -/
theorem indexKeys_ascending (x : StoreIndex) : (indexKeys x).Pairwise fun a b =>
    a.day.toNat < b.day.toNat ∨ a.day = b.day ∧ a.code.toNat < b.code.toNat := by
  have hsorted := sortBy_pairwise (le := EditionKey.before) (by simp only [EditionKey.before, decide_eq_true_eq]; omega)
    (by simp only [EditionKey.before, decide_eq_true_eq]; omega)
    ((x.marks.map CloseMark.key ++ x.pages.map IdxPage.key).eraseDups)
  refine (hsorted.and (indexKeys_nodup x)).imp fun {a b} ⟨hle, hne⟩ => ?_
  simp only [EditionKey.before, decide_eq_true_eq] at hle
  rcases hle with hday | ⟨hday, hcode⟩
  · exact .inl hday
  · have hday := BitVec.eq_of_toNat_eq hday
    refine .inr ⟨hday, lt_of_le_of_ne hcode fun h => hne ?_⟩
    obtain ⟨d, c⟩ := a
    obtain ⟨d', c'⟩ := b
    rw [EditionKey.mk.injEq]
    exact ⟨hday, BitVec.eq_of_toNat_eq h⟩

/-! ### The check of the returned index (R23) -/

/-- The index exceeds a table. -/
abbrev IndexExceeds (x : StoreIndex) : Prop :=
  64 < (indexKeys x).length ∨ 2048 < x.pages.length ∨ 4096 < x.photos.length

/-- The index lacks a placed photograph, or two of its entries share a key. -/
abbrev IndexBroken (x : StoreIndex) : Prop :=
  (∃ p ∈ x.pages, ∃ pl ∈ p.placements, ∀ q ∈ x.photos, q.number ≠ pl.photo) ∨
    ¬(x.marks.map CloseMark.key).Nodup ∨ ¬(x.pages.map fun p : IdxPage => (p.key, p.number, p.version)).Nodup ∨
    ¬(x.photos.map IdxPhoto.number).Nodup

/-- TABLE_FULL comes before STORE_FAULT (log 32). -/
theorem indexCheck_eq (x : StoreIndex) : indexCheck x =
    if IndexExceeds x then .tableFull else if IndexBroken x then .storeFault else .ok := by
  have hgood : ((x.pages.all fun p => p.placements.all fun pl => x.photos.any fun q => q.number == pl.photo) &&
      distinct (x.marks.map CloseMark.key) && distinct (x.pages.map fun p => (p.key, p.number, p.version)) &&
      distinct (x.photos.map IdxPhoto.number)) = true ↔ ¬IndexBroken x := by
    simp only [Bool.and_eq_true, distinct_iff, List.all_eq_true, List.any_eq_true, beq_iff_eq, IndexBroken]
    push Not
    simp only [and_assoc]
  unfold indexCheck
  refine if_congr Iff.rfl rfl ?_
  by_cases hb : IndexBroken x
  · rw [if_neg (mt hgood.1 (not_not.2 hb)), if_pos hb]
  · rw [if_pos (hgood.2 hb), if_neg hb]

/-! ### The rebuilt editions (R24) -/

/-- An edition with a close mark is CLOSED, as the mark has it. -/
theorem returnedEdition_of_mark {x : StoreIndex} {k : EditionKey} {m : CloseMark}
    (h : x.marks.find? (fun m => m.key == k) = some m) : returnedEdition x k =
      ⟨k, .closed, m.planned, none, false, m.forced, false, false, 0, some m.closedOn, some m.gaps, m.failedPages⟩ := by
  simp only [returnedEdition, h]

/-- The greatest element of a list that has one is in it. -/
theorem foldl_max_mem {l : List Nat} (h : l ≠ []) : l.foldl max 0 ∈ l := by
  have hmem : ∀ (l : List Nat) (m : Nat), l.foldl max m = m ∨ l.foldl max m ∈ l := by
    intro l
    induction l with
    | nil => simp
    | cons a l ih =>
      intro m
      rw [List.foldl_cons, List.mem_cons]
      rcases ih (max m a) with h | h
      · rw [h]
        rcases max_choice m a with h | h <;> simp [h]
      · exact .inr (.inr h)
  obtain ⟨a, ha⟩ := List.exists_mem_of_ne_nil l h
  rcases hmem l 0 with h0 | h0
  · have : a ≤ l.foldl max 0 := (foldl_max (m := 0)).2 a ha
    rw [h0, Nat.le_zero] at this
    rwa [h0, ← this]
  · exact h0

/-- An edition without a close mark is OPEN and interrupted, with the greatest planned page count of its pages. -/
theorem returnedEdition_unmarked {x : StoreIndex} {k : EditionKey} (hk : k ∈ indexKeys x) (h : ∀ m ∈ x.marks, m.key ≠ k) :
    ∃ planned, returnedEdition x k =
        ⟨k, .opened, planned, none, false, false, true, false, 0, none, none, 0⟩ ∧
      (∀ p ∈ x.pages, p.key = k → p.planned ≤ planned) ∧ ∃ p ∈ x.pages, p.key = k ∧ p.planned = planned := by
  have hmark : x.marks.find? (fun m => m.key == k) = none := List.find?_eq_none.2 (by simpa using h)
  have hpage : ∃ p ∈ x.pages, p.key = k := by
    rcases (mem_indexKeys x k).1 hk with hk | hk
    · obtain ⟨m, hm, rfl⟩ := List.mem_map.1 hk
      exact absurd rfl (h m hm)
    · exact List.mem_map.1 hk
  have hplan {n : Nat} : n ∈ (x.pages.filter fun p => p.key == k).map IdxPage.planned ↔
      ∃ p ∈ x.pages, p.key = k ∧ p.planned = n := by simp [and_assoc]
  refine ⟨((x.pages.filter fun p => p.key == k).map IdxPage.planned).foldl max 0, ?_, fun p hp hkey => ?_, ?_⟩
  · simp only [returnedEdition, hmark]
  · exact foldl_max.2 _ (hplan.2 ⟨p, hp, hkey, rfl⟩)
  · obtain ⟨p, hp, hkey⟩ := hpage
    exact hplan.1 (foldl_max_mem (List.ne_nil_of_mem (hplan.2 ⟨p, hp, hkey, rfl⟩)))

/-! ### The rebuilt tables (R24) -/

theorem rebuilt_editions_length {x : StoreIndex} (h : (indexKeys x).length ≤ 64) :
    (rebuiltCatalogue x).editions.length = 64 := by
  simp only [rebuiltCatalogue, List.length_append, List.length_map, List.length_replicate]
  omega

theorem rebuilt_pages_getElem? {x : StoreIndex} {i : Nat} {p : IdxPage} (h : x.pages[i]? = some p) :
    (rebuiltCatalogue x).pages[i]? = some (returnedPage x p) := by simp [rebuiltCatalogue, h]

/-- A rebuilt page stands in the slot of its edition's key. -/
theorem returnedPage_slot {x : StoreIndex} {p : IdxPage} (h : p ∈ x.pages) :
    (indexKeys x)[(returnedPage x p).slot]? = some p.key :=
  findIdx_key ((mem_indexKeys x _).2 (.inr (List.mem_map_of_mem h)))

/-- A rebuilt page is superseded where a later version of its page number was returned. -/
theorem returnedPage_superseded (x : StoreIndex) (p : IdxPage) : (returnedPage x p).superseded =
    decide (∃ q ∈ x.pages, q.key = p.key ∧ q.number = p.number ∧ p.version < q.version) := by
  rw [Bool.eq_iff_iff]
  simp [returnedPage, and_assoc]

theorem rebuilt_photos_getElem? {x : StoreIndex} {i : Nat} {p : IdxPhoto} (h : x.photos[i]? = some p) :
    (rebuiltCatalogue x).photos[i]? = some (returnedPhoto x p) := by simp [rebuiltCatalogue, h]

end Sys2Proof.Machine
end

section
/-! The bounds that every step keeps, the first half of O58: what the frame of a change and each command's own effect leave of the
ranges of the rules. -/

namespace Sys2Proof.Machine

/-! ### The message port -/

/-- A frame that joins the queue, or waits while the queue is full, keeps the port's bounds (R176). -/
theorem MessagePort.Sound.put {p : MessagePort} (h : p.Sound) (f : Frame) : (p.put f).Sound := by
  obtain ⟨hin, hout, hwait⟩ := h
  unfold MessagePort.put
  split
  · next hroom =>
    simp only [Config.outboundFrames, Bool.and_eq_true, List.isEmpty_iff, decide_eq_true_eq] at hroom
    exact ⟨hin, by simp; omega, fun hw => absurd hroom.1 hw⟩
  · next hfull =>
    refine ⟨hin, hout, fun _ => ?_⟩
    by_cases hw : p.waiting = []
    · simp only [Config.outboundFrames, hw, List.isEmpty_nil, Bool.true_and, decide_eq_true_eq] at hfull
      show p.outbound.length = 8
      omega
    · exact hwait hw

theorem MessagePort.Sound.puts {p : MessagePort} (h : p.Sound) (l : List Frame) : (l.foldl MessagePort.put p).Sound := by
  induction l generalizing p with
  | nil => exact h
  | cons f l ih => exact ih (h.put f)

/-- The head frame leaves the queue, and one that waited takes its place (R176). -/
theorem MessagePort.Sound.sent {p : MessagePort} (h : p.Sound) : p.sent.Sound := by
  obtain ⟨hin, hout, hwait⟩ := h
  unfold MessagePort.sent
  split
  · next hw => exact ⟨hin, by simp; omega, fun hne => absurd hw hne⟩
  · next hw =>
    have := hwait (by simp [hw])
    exact ⟨hin, by simp; omega, fun _ => by simp; omega⟩

namespace State.Sound

variable {s t : State}

/-! ### The frame of a change -/

/-- A chain of moves keeps the bounds. -/
theorem moves (h : s.Sound) (m : Moves s t) : t.Sound := by
  obtain ⟨hcal, hopt, hpool, hsched, hfee, hstmt, hhold, hport, hord, hjobs⟩ := h
  have k := m.kept
  refine ⟨by rwa [k.cal], by rwa [k.options], m.pool_sound hpool, by rwa [k.schedule], m.fee_sound hfee, m.stmt_sound hstmt, ?_,
    by rwa [k.port], k.ord_sound hord, ?_⟩
  · rwa [HoldList.Sound, k.entries]
  · have := k.jobs
    omega

theorem settled (h : s.Sound) : s.settled.Sound := h.moves s.moves_settled

theorem trim {o : OrderTable} (h : o.Sound) : o.trim.Sound := h

theorem endWait (h : s.Sound) : s.endWait.Sound := by
  unfold State.endWait
  split <;> exact h

theorem send (h : s.Sound) (l : List Frame) : (s.send l).Sound := by
  obtain ⟨hcal, hopt, hpool, hsched, hfee, hstmt, hhold, hport, hord, hjobs⟩ := h
  exact ⟨hcal, hopt, hpool, hsched, hfee, hstmt, hhold, hport.puts l, trim hord, hjobs⟩

theorem close (h : s.Sound) : s.close.Sound := send (endWait (s := s.disarm) h) _

theorem answerEntry (h : s.Sound) (k : U8) (c : Code) : (s.answerEntry k c).Sound := by
  unfold State.answerEntry
  split <;> exact h

theorem completeEntry (h : s.Sound) : s.completeEntry.Sound := by
  unfold State.completeEntry
  split
  · exact answerEntry (s := s.changeMode .setup) h _ _
  · exact answerEntry (s := s.changeMode .standby) h _ _
  all_goals exact h

theorem endChange (h : s.Sound) : s.endChange.Sound := by
  unfold State.endChange
  split
  · exact h.settled.completeEntry.settled.close
  · exact h.settled.close

theorem wake (h : s.Sound) : s.wake.Sound := by
  unfold State.wake
  split
  · exact settled (s := (State.latch { s with req := { s.req with mode := .service } } .woken).push .sealTest) h
  · exact h

theorem popped (h : s.Sound) : s.popped.Sound := by
  obtain ⟨hcal, hopt, hpool, hsched, hfee, hstmt, hhold, ⟨hin, hout⟩, hord, hjobs⟩ := h
  refine ⟨hcal, hopt, hpool, hsched, hfee, hstmt, hhold, ⟨?_, hout⟩, hord, hjobs⟩
  show s.port.inbound.tail.length ≤ 2
  rw [List.length_tail]
  omega

theorem take (h : s.Sound) : s.take.Sound := wake h.popped

theorem due {hap : State → Bool} {body : State → State} (h : s.Sound) (hb : ∀ u : State, u.Sound → (body u).Sound) :
    (State.due hap body s).Sound := by
  unfold State.due
  split
  · exact (hb _ h).endChange
  · exact h

theorem handStaged (h : s.Sound) : s.handStaged.Sound := h.moves s.moves_handStaged

theorem handedOff (h : s.Sound) : s.handedOff.Sound := h.due fun _ hu => hu.handStaged

theorem handAtOnce (h : s.Sound) : s.handAtOnce.Sound := by
  unfold State.handAtOnce
  split
  · exact h
  · exact h.handedOff

theorem serve {c : Instr} {body : State → State} (h : s.Sound) (hb : ∀ u : State, u.Sound → (body u).Sound) :
    (s.serve c body).Sound := by
  unfold State.serve
  split
  · exact (hb _ h.take).endChange
  · exact h

theorem query {c : Instr} {body : State → State} (h : s.Sound) (e : Machine.query c body s = .next t)
    (hb : ∀ u : State, u.Sound → (body u).Sound) : t.Sound := by
  cases e
  split
  · exact (h.serve hb).handAtOnce
  · exact h

theorem request {c : Instr} {body : State → State} (h : s.Sound) (e : Machine.request c body s = .next t)
    (hb : ∀ u : State, u.Sound → (body u).Sound) : t.Sound := by
  cases e
  split
  · exact h.handedOff.serve hb
  · exact h

theorem eventWith {follows : State → State} {hap : State → Bool} {body : State → State} (h : s.Sound)
    (e : Machine.eventWith follows hap body s = .next t) (hf : ∀ u : State, u.Sound → (follows u).Sound)
    (hb : ∀ u : State, u.Sound → (body u).Sound) : t.Sound := by
  cases e
  split
  · exact hf _ (hb _ h.handedOff).endChange
  · exact h

theorem event {hap : State → Bool} {body : State → State} (h : s.Sound) (e : Machine.event hap body s = .next t)
    (hb : ∀ u : State, u.Sound → (body u).Sound) : t.Sound := h.eventWith e (fun _ hu => hu) hb

theorem signal {hap : State → Bool} {body : State → State} (h : s.Sound) (e : Machine.signal hap body s = .next t)
    (hb : ∀ u : State, u.Sound → (body u).Sound) : t.Sound := by
  cases e
  split
  · exact hb _ h
  · exact h

end State.Sound

end Sys2Proof.Machine
end

section
/-! What each command does to the ranges of the rules, block by block. -/

namespace Sys2Proof.Machine

/-! ### Chains of moves that commands make -/

namespace State

variable (s : State)

theorem moves_goOffline (i : Nat) (op : Op) (c : Completion) : Moves s (s.goOffline i op c) :=
  (((Moves.of (.link _ _)).trans (Moves.of (.latch _ .storeOffline))).trans (Moves.of (.push _ (.complete op c)))).trans
    (Moves.foldl _ (fun _ _ => Moves.of (.push _ _)) _ _)

theorem moves_completeSlot (i : Nat) (op : Op) (c : Completion) (failure : Bool) : Moves s (s.completeSlot i op c failure) := by
  unfold completeSlot
  split
  · exact s.moves_goOffline i op c
  · exact (Moves.of (.link _ _)).trans (Moves.of (.push _ _))

theorem moves_takeAnswer {α : Type} (at_ : SlotTag) (fits : Op → Bool) (returns : α → Returns) (ans : Answer α) :
    Moves s (s.takeAnswer at_ fits returns ans) := by
  unfold takeAnswer
  split
  · exact .refl _
  · exact s.moves_completeSlot _ _ _ _

theorem moves_timeOut (i : Nat) : Moves s (s.timeOut i) := by
  unfold timeOut
  split
  · exact s.moves_completeSlot _ _ _ _
  · exact .refl _

theorem moves_recover : Moves s s.recover := (Moves.of (.link _ _)).trans (Moves.of (.latch _ _))

theorem moves_judgeProbe (ans : Answer Unit) : Moves s (s.judgeProbe ans) := by
  unfold judgeProbe
  cases ans
  case done =>
    dsimp only
    split
    · exact (Moves.of (.link _ _)).trans (moves_recover _)
    · exact Moves.of (.link _ _)
  all_goals exact Moves.of (.link _ _)

theorem moves_mapped : Moves s s.mapped := by
  unfold mapped
  split
  · exact s.moves_endMapping _
  · exact .refl _

theorem moves_endPreparation (n : Nat) : Moves s (s.endPreparation n) := by
  unfold endPreparation
  split
  · exact s.moves_finishPreparation _
  · exact .refl _

theorem moves_expireReady (n : Nat) : Moves s (s.expireReady n) := (s.moves_unprepare n).trans (Moves.of (.latch _ _))

theorem moves_raiseWarnings (now : Nat) : Moves s (s.raiseWarnings now) := by
  unfold raiseWarnings
  split
  · exact .refl _
  · exact (Moves.foldl _ (fun _ _ => Moves.of (.withCat _ _)) _ _).trans (Moves.of (.latch _ _))

theorem moves_leaveJob (o : Order) : Moves s (s.leaveJob o) := by
  unfold leaveJob
  split
  · exact .refl _
  · split
    · exact Moves.of (.withJob _ _ _)
    · split
      · exact (s.moves_retireJob _ _ _).trans (moves_releaseJob _ _)
      · exact Moves.of (.withJob _ _ _)

theorem moves_cancel (o : Order) : Moves s (s.cancel o) := by
  have h := (s.moves_leaveJob o).trans (moves_leaveTable _ o.number .cancelled .aborted)
  unfold cancel
  dsimp only
  split
  · exact h.trans (moves_retryAccount _ _)
  · exact h

end State

/-! ### The calendar's counters -/

/-- A base tick keeps the counters in their ranges (R27). -/
theorem Calendar.Sound.tick {c : Calendar} (h : c.Sound) : c.tick.Sound := by
  obtain ⟨hfr, hsec, hmin, hhour, hday, hinv⟩ := h
  unfold Calendar.tick
  split
  · next hrun =>
    have hne : c.state ≠ .invalid := by
      rw [beq_iff_eq] at hrun
      simp [hrun]
    unfold Calendar.count
    split_ifs <;> refine ⟨?_, ?_, ?_, ?_, ?_, fun he => absurd he hne⟩ <;> dsimp only <;> omega
  · exact ⟨hfr, hsec, hmin, hhour, hday, hinv⟩

namespace State.Sound

variable {s : State}

/-! ### Power, the message line and the body lane -/

theorem answer (h : s.Sound) (kind tag : U8) (code : Code) (fields : List U8) : (s.answer kind tag code fields).Sound := h

theorem reset : State.reset.Sound := by decide +kernel

theorem atPowerOn {c : Calendar} (h : c.Sound) (r : BitVec 2) (st : BitVec 3) (l : List Instr) :
    (State.atPowerOn c r st l).Sound := by
  have ⟨_, hopt, hpool, hsched, hfee, _, hhold, _, hord, hjobs⟩ : State.reset.Sound := reset
  exact ⟨h, hopt, hpool, hsched, hfee, ⟨Nat.zero_le _, Nat.zero_le _⟩, hhold,
    ⟨Nat.zero_le _, Nat.zero_le _, fun hw => absurd rfl hw⟩, hord, hjobs⟩

theorem endTransfer (h : s.Sound) (b : Binding) (e : LaneEnding) : (s.endTransfer b e).Sound := by
  have hfree : s.freeLane.Sound := h
  unfold State.endTransfer
  split
  · exact hfree.moves (State.moves_failFiling _ _ _ _)
  · exact hfree.moves (Moves.of (.withOrder _ _ _))
  · exact hfree

theorem completeTransfer (h : s.Sound) (b : Binding) (check : U32) : (s.completeTransfer b check).Sound := by
  have hfree : s.freeLane.Sound := h
  unfold State.completeTransfer
  split
  · split
    · exact hfree.moves (State.moves_stage _ _)
    · exact hfree.moves (State.moves_failFiling _ _ _ _)
  · exact hfree.moves (State.moves_leaveTable _ _ _ _)
  · exact hfree

theorem abortLane (h : s.Sound) : s.abortLane.Sound := by
  unfold State.abortLane
  split
  · exact h.endTransfer _ _
  · exact h

theorem clearTags (h : s.ord.Sound) : OrderTable.Sound { s.ord with live := s.ord.live.map fun o => { o with prepTag := none } } := by
  obtain ⟨hlen, hasc, hbelow, hnext⟩ := h
  refine ⟨by simpa using hlen, by simpa [Function.comp_def] using hasc, ?_, hnext⟩
  intro o ho
  simp only [List.mem_map] at ho
  obtain ⟨x, hx, rfl⟩ := ho
  exact hbelow x hx

theorem linkReset (h : s.Sound) : s.linkReset.Sound := by
  obtain ⟨hcal, hopt, hpool, hsched, hfee, hstmt, hhold, hport, hord, hjobs⟩ := h
  refine abortLane ⟨hcal, hopt, hpool, hsched, hfee, hstmt, hhold, ?_, clearTags hord, hjobs⟩
  exact ⟨Nat.zero_le _, Nat.zero_le _, fun hw => absurd rfl hw⟩

theorem receive (h : s.Sound) (chars : List LineChar) : (s.receive chars).Sound := by
  unfold State.receive
  split
  · exact h
  · exact h
  · unfold State.buffer
    split
    · next hroom =>
      obtain ⟨hcal, hopt, hpool, hsched, hfee, hstmt, hhold, ⟨hin, hout⟩, hord, hjobs⟩ := h
      refine ⟨hcal, hopt, hpool, hsched, hfee, hstmt, hhold, ⟨?_, hout⟩, hord, hjobs⟩
      simp only [Config.inboundFrames] at hroom
      simp only [List.length_append, List.length_singleton]
      omega
    · exact h

theorem sent (h : s.Sound) : State.Sound { s with port := s.port.sent } := by
  obtain ⟨hcal, hopt, hpool, hsched, hfee, hstmt, hhold, hport, hord, hjobs⟩ := h
  exact ⟨hcal, hopt, hpool, hsched, hfee, hstmt, hhold, hport.sent, hord, hjobs⟩

theorem linkStatus (h : s.Sound) (clear : U8) : State.Sound { s with port := s.port.cleared clear } := by
  have hp : (s.port.cleared clear).Sound := by
    unfold MessagePort.cleared
    obtain ⟨-, -, -, -, -, -, -, hport, -⟩ := h
    split <;> exact hport
  obtain ⟨hcal, hopt, hpool, hsched, hfee, hstmt, hhold, -, hord, hjobs⟩ := h
  exact ⟨hcal, hopt, hpool, hsched, hfee, hstmt, hhold, hp, hord, hjobs⟩

theorem assertSelect (h : s.Sound) : s.assertSelect.Sound := by
  unfold State.assertSelect
  split <;> exact h

theorem moveByte (h : s.Sound) (b : Binding) (data : U8) : (s.moveByte b data).1.Sound := by
  unfold State.moveByte
  dsimp only
  split <;> exact h

theorem clockByte (h : s.Sound) (data : U8) : (s.clockByte data).Sound := by
  unfold State.clockByte
  split
  · exact h.moveByte _ _
  · exact h

theorem lastByte (h : s.Sound) (data : U8) : (s.lastByte data).Sound := by
  unfold State.lastByte
  split
  · exact h
  · next b _ =>
    have hdone := (h.moveByte b data).completeTransfer (s.moveByte b data).2 (crc32End (s.moveByte b data).2.crc)
    dsimp only
    split <;> exact hdone

theorem releaseSelect (h : s.Sound) : s.releaseSelect.Sound := by
  unfold State.releaseSelect
  have hfree : State.Sound { s with lane := { s.lane with select := false, trailing := false, out := none } } := h
  dsimp only
  split
  · exact hfree.endTransfer _ _
  · exact h

theorem expireBinding (h : s.Sound) : s.expireBinding.Sound := by
  unfold State.expireBinding
  split
  · exact h.endTransfer _ _
  · exact h

theorem cancelTransfer (h : s.Sound) (tag : U8) : State.Sound (match s.lane.slot with
    | none => s.refuse 0x1A tag .badState
    | some b => s.abortLane.answer 0x1A tag .ok (u8 (if b.outbound then 2 else 1) ++ u32 b.count ++ u32 b.moved)) := by
  split
  · exact h
  · exact h.abortLane

/-! ### Modes, options and the WAIT -/

theorem startService (h : s.Sound) (tag : U8) : (s.startService tag).Sound := by
  unfold State.startService
  split
  · split <;> exact h
  · exact h.answerEntry _ _
  · exact h.answerEntry _ _
  all_goals exact h

theorem enterSetup (h : s.Sound) (tag : U8) : (s.enterSetup tag).Sound := by
  unfold State.enterSetup
  split
  case h_1 | h_2 => split <;> exact h
  all_goals exact h

theorem enterStandby (h : s.Sound) (tag : U8) : (s.enterStandby tag).Sound := by
  unfold State.enterStandby
  split
  case h_1 | h_2 => split <;> exact h
  all_goals exact h

theorem options_set {o o' : Options} {n v w : Nat} (h : o.Sound) (e : o.set n v = some (o', w)) : o'.Sound := by
  obtain ⟨hlow, hhigh, hlead, hbound⟩ := h
  unfold Options.set at e
  split_ifs at e <;> cases e <;> simp only [Options.Sound, clamp] <;> omega

theorem setOption (h : s.Sound) (tag number : U8) (value : U16) : (s.setOption tag number value).Sound := by
  unfold State.setOption
  split
  · exact h
  · next r hr =>
    obtain ⟨hcal, hopt, hrest⟩ := h
    exact ⟨hcal, options_set hopt hr, hrest⟩

theorem takeWait (h : s.Sound) (tag : U8) (mask : U32) (seconds : U16) : (s.takeWait tag mask seconds).Sound := by
  unfold State.takeWait
  split_ifs <;> exact h

theorem expireWait (h : s.Sound) : s.expireWait.Sound := by
  unfold State.expireWait
  split <;> exact h

/-! ### The calendar -/

theorem withCal (h : s.Sound) {c : Calendar} (hc : c.Sound) : State.Sound { s with cal := c } := ⟨hc, h.2⟩

theorem setTime (h : s.Sound) (tag sec min hour : U8) (day : U16) : (s.setTime tag sec min hour day).Sound := by
  unfold State.setTime
  split_ifs with hrun hrange
  · exact h
  · exact h
  · have hday : day.toNat < 65536 := day.isLt
    have hc : Calendar.Sound ⟨.stopped, 0, sec.toNat, min.toNat, hour.toNat, day.toNat⟩ := by
      refine ⟨Nat.zero_le _, ?_, ?_, ?_, ?_, nofun⟩ <;> dsimp only <;> omega
    exact withCal h hc

/-- A calendar that is set may be run and stopped. -/
theorem withCalState (h : s.Sound) {st : CalState} (hst : st ≠ .invalid) : (s.withCalState st).Sound := by
  obtain ⟨hfr, hsec, hmin, hhour, hday, -⟩ := h.1
  exact withCal h ⟨hfr, hsec, hmin, hhour, hday, fun he => absurd he hst⟩

theorem runCalendar (h : s.Sound) (tag : U8) : (s.runCalendar tag).Sound := by
  unfold State.runCalendar
  split
  · exact h
  all_goals exact withCalState h (st := .running) nofun

theorem fireDeadlines (now : Nat) (l : List Nat) (h : s.Sound) : (State.fireDeadlines now l s).Sound := by
  induction l generalizing s with
  | nil => exact h
  | cons slot rest ih =>
    unfold State.fireDeadlines
    split
    · exact ih (s := s.beginClose slot true) h
    · exact h

theorem takeMinute (h : s.Sound) : s.takeMinute.Sound := by
  unfold State.takeMinute
  split
  · next now _ =>
    exact (fireDeadlines (s := { s with events := { s.events with minute := none } }) now _ h).moves (State.moves_raiseWarnings _ _)
  · exact h

/-- Holds may leave the list. -/
theorem filterHolds (h : s.Sound) (keep : Hold → Bool) :
    State.Sound { s with hold := { s.hold with entries := s.hold.entries.filter keep } } := by
  obtain ⟨hcal, hopt, hpool, hsched, hfee, hstmt, ⟨hlen, hnum, hkey⟩, hrest⟩ := h
  exact ⟨hcal, hopt, hpool, hsched, hfee, hstmt, ⟨(List.length_filter_le _ _).trans hlen,
    (List.filter_sublist.map _).nodup hnum, (List.filter_sublist.map _).nodup hkey⟩, hrest⟩

theorem expireHolds (h : s.Sound) (day : Nat) : (s.expireHolds day).Sound := by
  unfold State.expireHolds
  split
  · exact (h.filterHolds _).moves (State.moves_reevaluate _ _)
  · exact h

theorem takeRollover (h : s.Sound) : s.takeRollover.Sound := by
  unfold State.takeRollover
  split
  · next day _ =>
    exact (expireHolds (s := { s with events := { s.events with rollover := none } }) h day).moves (Moves.of (.withCat _ _))
  · exact h

/-- The open statement closes while a place for it is free (R166). -/
theorem closeOpenStatement (h : s.Sound) (cause : Nat) (hroom : s.stmt.closed.length < 2) : (s.closeOpenStatement cause).Sound := by
  refine moves (s := State.latch { s with stmt := s.stmt.turnOver s.cal.day cause } .statementClosed) ?_ (State.moves_retryRoom _ _)
  obtain ⟨hcal, hopt, hpool, hsched, hfee, hstmt, hrest⟩ := h
  refine ⟨hcal, hopt, hpool, hsched, hfee, ⟨?_, Nat.zero_le _⟩, hrest⟩
  show (s.stmt.closed ++ [_]).length ≤ 2
  rw [List.length_append, List.length_singleton]
  omega

theorem boundaryStatement (h : s.Sound) : s.boundaryStatement.Sound := by
  unfold State.boundaryStatement
  split
  · next hroom => exact h.closeOpenStatement 1 hroom
  · exact h

theorem takeBoundary (h : s.Sound) : s.takeBoundary.Sound := by
  unfold State.takeBoundary
  split
  · have hw : (State.wake { s with events := { s.events with boundary := none } }).Sound :=
      wake (s := { s with events := { s.events with boundary := none } }) h
    exact hw.boundaryStatement.moves (State.moves_retentionSweep _ _)
  · exact h

theorem takeRaised (h : s.Sound) : s.takeRaised.Sound := h.takeMinute.settled.takeRollover.settled.takeBoundary.settled

theorem stopCalendar (h : s.Sound) (tag : U8) : (s.stopCalendar tag).Sound := by
  unfold State.stopCalendar
  split
  · exact h
  · exact h
  · exact withCalState (s := s.takeRaised) h.takeRaised (st := .stopped) nofun

theorem setDeadline (h : s.Sound) (tag : U8) (key : EditionKey) (d : DeadlineFields) : (s.setDeadline tag key d).Sound := by
  have hchange : ∀ slot x, (s.changeDeadline slot x).Sound := by
    intro slot x
    cases x <;> exact h
  unfold State.setDeadline
  split
  · exact h
  · split
    · exact h
    · split
      · exact h
      · split
        · exact h
        · exact (hchange _ _).answer _ _ _ _

theorem tick (h : s.Sound) : s.tick.Sound := by
  obtain ⟨hcal, hopt, hpool, hsched, hfee, hstmt, hhold, hport, ⟨hlen, hasc, hbelow, hnext⟩, hjobs⟩ := h
  have hnum : ∀ o : Order, o.tick.number = o.number := fun o => by
    unfold Order.tick
    split <;> rfl
  refine ⟨hcal.tick, hopt, hpool, hsched, hfee, hstmt, hhold, hport, ⟨?_, ?_, ?_, hnext⟩, hjobs⟩
  · simpa [State.tick] using hlen
  · simpa [State.tick, Function.comp_def, hnum] using hasc
  · intro o ho
    obtain ⟨x, hx, rfl⟩ := List.mem_map.1 ho
    rw [hnum]
    exact hbelow x hx

theorem foldl {α : Type} {f : State → α → State} (hf : ∀ s x, s.Sound → (f s x).Sound) (l : List α) (h : s.Sound) :
    (l.foldl f s).Sound := by
  induction l generalizing s with
  | nil => exact h
  | cons x l ih => exact ih (hf s x h)

theorem dueTimeouts (h : s.Sound) : s.dueTimeouts.Sound := by
  unfold State.dueTimeouts
  refine foldl (fun u i hu => ?_) _ h
  exact hu.due fun w hw => hw.moves (w.moves_timeOut i)

theorem dueExpiries (h : s.Sound) : s.dueExpiries.Sound := by
  unfold State.dueExpiries
  refine foldl (fun u n hu => ?_) _ h
  exact hu.due fun w hw => hw.moves (w.moves_expireReady n)

theorem takeDue (h : s.Sound) : s.takeDue.Sound := by
  unfold State.takeDue
  dsimp only
  refine dueExpiries (due (dueTimeouts (due (due (due (due (due h.handedOff ?_) ?_) ?_) ?_) ?_)) ?_)
  · exact fun _ hu => hu.expireWait
  · exact fun _ hu => hu.expireBinding
  · exact fun _ hu => hu.takeMinute
  · exact fun _ hu => hu.takeRollover
  · exact fun _ hu => hu.takeBoundary
  · exact fun _ hu => hu

end State.Sound

end Sys2Proof.Machine
end

section
/-! What the requests of the catalogue, the engine, the orders, the holds, the accounts and the statements do to the ranges of the
rules; and that every command keeps them. -/

namespace Sys2Proof.Machine

/-! ### The pool -/

/-- Segments given to a holder that restoration and delivery do not count (R65). -/
theorem countP_fillFree_of_not {h : Holder} {q : Holder → Bool} (hq : q h = false) : ∀ (n : Nat) (l : List (Option Holder)),
    (fillFree h n l).countP (fun x => x.any q) = l.countP fun x => x.any q
  | 0, l => by simp [fillFree]
  | _ + 1, [] => rfl
  | n + 1, none :: l => by simp [fillFree, hq, countP_fillFree_of_not hq n l]
  | n + 1, some x :: l => by simp [fillFree, List.countP_cons, countP_fillFree_of_not hq (n + 1) l]

theorem Pool.Sound.giveRecord {p : Pool} (h : p.Sound) (r : RecId) (n : Nat) :
    Pool.Sound { p with segments := fillFree (.record r) n p.segments } := by
  obtain ⟨hlen, hclaimed⟩ := h
  refine ⟨by simp [fillFree_length, hlen], ?_⟩
  unfold Pool.claimed at *
  rwa [countP_fillFree_of_not rfl]

/-- Elements changed one by one, each keeping what the map reads of it. -/
theorem map_map_of_eq {α β : Type} {f : α → β} {g : α → α} (h : ∀ x, f (g x) = f x) (l : List α) :
    (l.map g).map f = l.map f := by simp [Function.comp_def, h]

/-! ### The hold list -/

/-- The search for a hold number ends at one that is free, or has passed only numbers that are held (R120). -/
theorem lowestNumber_held {entries : List Hold} : ∀ (k n : Nat), lowestNumber entries k n ∈ entries.map Hold.number →
    ∀ i < k, n + i ∈ entries.map Hold.number
  | 0, _, _ => by simp
  | k + 1, n, hm => by
    unfold lowestNumber at hm
    split at hm
    · next hn =>
      intro i hi
      cases i with
      | zero => simpa using hn
      | succ i =>
        have := lowestNumber_held k (n + 1) hm i (by omega)
        rwa [show n + (i + 1) = n + 1 + i by omega]
    · next hn => exact absurd hm (by simpa using hn)

/-- With at most 64 entries the search of 65 numbers finds one that no entry holds (R118, R120). -/
theorem lowestNumber_fresh {entries : List Hold} (h : entries.length ≤ 64) :
    lowestNumber entries 65 1 ∉ entries.map Hold.number := by
  intro hm
  have hsub : List.range' 1 65 ⊆ entries.map Hold.number := by
    intro x hx
    obtain ⟨i, hi, rfl⟩ := List.mem_range'.1 hx
    simpa using lowestNumber_held 65 1 hm i hi
  have := (List.nodup_range' (step := 1)).subperm hsub |>.length_le
  simp at this
  omega

theorem HoldList.Sound.insert {l : HoldList} (h : l.Sound) {x : Hold} (hroom : l.entries.length < 64)
    (hnum : x.number ∉ l.entries.map Hold.number) (hkey : x.key ∉ l.entries.map Hold.key) :
    HoldList.Sound { l with entries := insertHold x l.entries } := by
  obtain ⟨-, hnums, hkeys⟩ := h
  have hp : (insertHold x l.entries).Perm (x :: l.entries) := insertBy_perm _ _ _
  refine ⟨?_, ?_, ?_⟩
  · simpa [hp.length_eq] using hroom
  · simpa using (hp.map Hold.number).nodup_iff.2 (by simpa using ⟨by simpa using hnum, hnums⟩)
  · simpa using (hp.map Hold.key).nodup_iff.2 (by simpa using ⟨by simpa using hkey, hkeys⟩)

/-- Holds changed one by one, each keeping its number and its key (R121). -/
theorem HoldList.Sound.map {l : HoldList} (h : l.Sound) {g : Hold → Hold} (hnum : ∀ x, (g x).number = x.number)
    (hkey : ∀ x, (g x).key = x.key) : HoldList.Sound { l with entries := l.entries.map g } := by
  obtain ⟨hlen, hnums, hkeys⟩ := h
  exact ⟨by simpa using hlen, by rwa [map_map_of_eq hnum], by rwa [map_map_of_eq hkey]⟩

/-! ### The accounts -/

/-- An account changed within its bounds (R158). -/
theorem FeeUnit.Sound.withAccount {u : FeeUnit} (h : u.Sound) {a : Account} (ha : a ∈ u.accounts) {f : Account → Account}
    (hnum : ∀ x, (f x).number = x.number) (hf : (f a).Sound) :
    FeeUnit.Sound { u with accounts := u.accounts.map fun x => if x.number == a.number then f x else x } := by
  obtain ⟨hlen, hnums, hall⟩ := h
  refine ⟨by simpa using hlen, ?_, ?_⟩
  · rwa [map_map_of_eq]
    intro x
    split <;> simp [hnum]
  · intro y hy
    obtain ⟨x, hx, rfl⟩ := List.mem_map.1 hy
    split
    · next hxa =>
      rwa [List.inj_on_of_nodup_map hnums hx ha (by simpa using hxa)]
    · exact hall x hx

/-- An account joins the table, or takes the place of the one with its number (R159). -/
theorem FeeUnit.Sound.load {u : FeeUnit} (h : u.Sound) {a : Account} (ha : a.Sound)
    (hroom : u.account? a.number = none → u.accounts.length < 32) : (u.load a).Sound := by
  unfold FeeUnit.load
  split
  · next hsome =>
    obtain ⟨hlen, hnums, hall⟩ := h
    refine ⟨by simpa using hlen, ?_, ?_⟩
    · rwa [map_map_of_eq]
      intro x
      split
      · next hx => exact (by simpa using hx : x.number = a.number).symm
      · rfl
    · intro y hy
      obtain ⟨x, hx, rfl⟩ := List.mem_map.1 hy
      split
      · exact ha
      · exact hall x hx
  · next hnone =>
    have hnone : u.account? a.number = none := by simpa using hnone
    have hlt := hroom hnone
    obtain ⟨hlen, hnums, hall⟩ := h
    have hfresh : ∀ x ∈ u.accounts, x.number ≠ a.number := by simpa [FeeUnit.account?] using hnone
    refine ⟨by simp; omega, ?_, ?_⟩
    · simp only [List.map_append, List.map_cons, List.map_nil]
      exact List.nodup_append.2 ⟨hnums, by simp, by simpa using hfresh⟩
    · intro x hx
      rcases List.mem_append.1 hx with hx | hx
      · exact hall x hx
      · rwa [List.mem_singleton.1 hx]

/-- What the checks of SET SCHEDULE leave (R149). -/
theorem givenSchedule_sound {f : ScheduleFields} (h : scheduleInRange f = true) : (givenSchedule f).Sound := by
  simp only [scheduleInRange, Bool.and_eq_true, List.all_eq_true, decide_eq_true_eq] at h
  obtain ⟨⟨⟨⟨⟨⟨hbase, hage⟩, htier⟩, hroy⟩, hsur⟩, hmin⟩, hcaps⟩ := h
  simp only [Schedule.Sound, givenSchedule, List.forall_mem_map]
  exact ⟨hbase, hage, htier, hroy, hsur, hmin, hcaps⟩

namespace State.Sound

variable {s : State}

theorem refuse (h : s.Sound) (kind tag : U8) (code : Code) : (s.refuse kind tag code).Sound := h

/-! ### Catalogue and filing -/

theorem pressureSeal (h : s.Sound) : s.pressureSeal.Sound := h.moves s.moves_pressureSeal

theorem dropPhoto (h : s.Sound) (tag : U8) (n : U32) : (s.dropPhoto tag n).Sound := by
  unfold State.dropPhoto
  split
  · exact h
  · split
    · exact h
    · split <;> exact h

theorem reload (h : s.Sound) (tag : U8) : (s.reload tag).Sound := by
  unfold State.reload
  split
  · exact h
  · split
    · exact h
    · exact moves (s := { s with cat := { s.cat with reloading := true }, req := { s.req with reloadTag := some tag } }) h
        (State.moves_handOff _ _)

theorem openEdition (h : s.Sound) (tag : U8) (key : EditionKey) (planned : U8) (d : DeadlineFields) :
    (s.openEdition tag key planned d).Sound := by
  have hopen : ∀ slot x, (s.open slot key planned x).Sound := by
    intro slot x
    unfold State.open
    dsimp only
    split <;> exact h
  unfold State.openEdition
  split
  · exact h
  · split
    · exact h
    · split
      · exact h
      · split
        · exact h
        · split
          · exact h.pressureSeal.refuse _ _ _
          · exact (hopen _ _).answer _ _ _ _

theorem replan (h : s.Sound) (tag : U8) (key : EditionKey) (planned : U8) : (s.replan tag key planned).Sound := by
  unfold State.replan
  split
  · exact h
  · split
    · exact h
    · split
      · exact h
      · split
        · exact h
        · split <;> exact h

/-- A record's segments are given and the lane is bound (R46, R47). -/
theorem giveAndBind (h : s.Sound) (r : RecId) (n count : Nat) : ((s.give (.record r) n).bindLane (.record r) false count).Sound := by
  obtain ⟨hcal, hopt, hpool, hrest⟩ := h
  exact ⟨hcal, hopt, hpool.giveRecord r n, hrest⟩

theorem filePageIn (h : s.Sound) (tag : U8) (f : FilePageFields) (slot planned : Nat) :
    (s.filePageIn tag f slot planned).Sound := by
  have haccept : ∀ p : Page, (s.acceptPage p).Sound := fun p =>
    giveAndBind (s := s.withCat fun c => Catalogue.raiseRefs { c with pages := c.pages ++ [p] } p.placements) h _ _ _
  unfold State.filePageIn
  dsimp only
  split
  · exact h
  · split
    · exact h
    · split
      · exact h
      · split
        · exact h
        · split
          · exact h.pressureSeal.refuse _ _ _
          · split
            · exact h
            · split
              · exact h
              · exact (haccept _).answer _ _ _ _

theorem filePage (h : s.Sound) (tag : U8) (f : FilePageFields) : (s.filePage tag f).Sound := by
  unfold State.filePage
  split
  · exact h
  · split
    · exact h
    · split
      · exact h
      · split
        case h_4 => exact h.filePageIn _ _ _ _
        all_goals exact h

theorem filePhoto (h : s.Sound) (tag : U8) (f : FilePhotoFields) : (s.filePhoto tag f).Sound := by
  have haccept : (s.acceptPhoto (newPhoto f)).Sound :=
    giveAndBind (s := s.withCat fun c => c.putPhoto (newPhoto f)) h _ _ _
  unfold State.filePhoto
  split_ifs
  case neg => exact haccept.answer _ _ _ _
  all_goals exact h

theorem closeEdition (h : s.Sound) (tag : U8) (key : EditionKey) : (s.closeEdition tag key).Sound := by
  unfold State.closeEdition
  split
  · exact h
  · split
    · exact h
    · split
      · exact h
      · split <;> exact h

theorem sealEdition (h : s.Sound) (tag : U8) (key : EditionKey) : (s.sealEdition tag key).Sound := by
  unfold State.sealEdition
  split
  · exact h
  · split
    · exact h
    · split
      · exact h
      · split
        · exact h
        · split
          · exact h
          · exact (h.moves (State.moves_enqueueSeal _ _)).answer _ _ _ _

/-! ### Restoration -/

theorem restore (h : s.Sound) (tag : U8) (x : TargetFields) (l hi : U16) (sp : U8) : (s.restore tag x l hi sp).Sound := by
  have hon : ∀ y a b c, (s.restoreOn tag y a b c).Sound := by
    intro y a b c
    unfold State.restoreOn
    split
    · exact h
    · split
      · exact h
      · split
        · exact h
        · next hroom =>
          have hlt : s.eng.jobs.length < 8 := Nat.lt_of_not_le hroom
          exact (h.moves (s.moves_createJob y a b c none hlt)).answer _ _ _ _
  unfold State.restore
  split
  · exact h
  · split
    · exact h
    · split
      · exact h
      · exact hon _ _ _ _

theorem revert (h : s.Sound) (tag : U8) (x : TargetFields) : (s.revert tag x).Sound := by
  have hrecord : ∀ y r, (s.revertRecord tag y r).Sound := by
    intro y r
    unfold State.revertRecord
    dsimp only
    split
    · exact h
    · exact (h.moves ((Moves.of (.withCat s fun c => c.revertRecord r)).trans (State.moves_discard _ _))).answer _ _ _ _
  unfold State.revert
  split
  · exact h
  · split
    · exact h
    · split
      · exact h
      · split
        · exact h
        · split
          · exact h
          · split
            · exact hrecord _ _
            · exact h

/-! ### Orders -/

/-- A new order has the next number, which is above every number given (R131). -/
theorem acceptOrder (h : s.Sound) {o : Order} (hn : o.number = s.ord.next) (hroom : s.ord.live.length < 32)
    (hnext : s.ord.next < 4294967296) : (s.acceptOrder o).Sound := by
  obtain ⟨hcal, hopt, hpool, hsched, hfee, hstmt, hhold, hport, ⟨hlen, hasc, hbelow, hone, hmax⟩, hjobs⟩ := h
  refine moves (s := { s with ord := { s.ord with live := s.ord.live ++ [o], next := o.number + 1 } })
    ⟨hcal, hopt, hpool, hsched, hfee, hstmt, hhold, hport, ⟨?_, ?_, ?_, ?_, ?_⟩, hjobs⟩
    (Moves.of (.withAccount _ _ _ fun _ => rfl))
  · simp
    omega
  · simp only [List.map_append, List.map_cons, List.map_nil]
    refine List.pairwise_append.2 ⟨hasc, by simp, ?_⟩
    simpa [hn] using hbelow
  · intro x hx
    rcases List.mem_append.1 hx with hx | hx
    · have := hbelow x hx
      dsimp only
      omega
    · rw [List.mem_singleton.1 hx]
      exact Nat.lt_succ_self _
  · dsimp only
    omega
  · dsimp only
    omega

theorem tryOrder (h : s.Sound) (tag : U8) (f : OrderFields) : (s.tryOrder tag f).Sound := by
  unfold State.tryOrder
  split
  · exact h
  · split
    · exact h
    · split
      · exact h
      · split
        · exact h
        · split
          · exact h
          · next hroom =>
            split
            · exact h
            · next hleft =>
              have hlive : s.ord.live.length < 32 := Nat.lt_of_not_le hroom
              have hnext : s.ord.next < 4294967296 := by
                simp only [OrderTable.exhausted, decide_eq_true_eq] at hleft
                omega
              have hplaced := acceptOrder (o := newOrder f s.ord.next) h rfl hlive hnext
              exact ((hplaced.moves (State.moves_locate _ _)).settled).answer _ _ _ _

theorem cancelOrder (h : s.Sound) (tag : U8) (n : U32) : (s.cancelOrder tag n).Sound := by
  unfold State.cancelOrder
  split
  · exact h
  · split
    · exact h
    · split
      · exact h
      · exact (h.moves (s.moves_cancel _)).answer _ _ _ _

theorem retireOrder (h : s.Sound) (tag : U8) (n : U32) : (s.retireOrder tag n).Sound := by
  unfold State.retireOrder
  split
  · exact h
  · split
    · exact h
    · split
      · exact h
      · exact (h.moves (s.moves_leaveTable _ _ _)).answer _ _ _ _

theorem prepareDelivery (h : s.Sound) (tag : U8) (n : U32) : (s.prepareDelivery tag n).Sound := by
  have hprepare : ∀ o v, (s.prepareOrder tag o v).Sound := by
    intro o v
    unfold State.prepareOrder
    split
    · exact h
    · split
      · exact h
      · split
        · exact h
        · exact h.moves ((Moves.of (.withOrder _ _ _)).trans (State.moves_placeClaim _ _))
  unfold State.prepareDelivery
  split
  · exact h
  · split
    · exact h
    · split
      · exact h
      · split
        · exact h
        · exact hprepare _ _

theorem bindDelivery (h : s.Sound) (tag : U8) (n : U32) : (s.bindDelivery tag n).Sound := by
  have hbind : ∀ o length check, (s.bindOrder tag o length check).Sound := by
    intro o length check
    have hdelivering : (s.withOrder o.number fun o => { o with state := .delivering, readyTicks := 0 }).Sound :=
      h.moves (Moves.of (.withOrder _ _ _))
    exact hdelivering
  unfold State.bindDelivery
  split
  · exact h
  · split
    · exact h
    · split
      · exact h
      · unfold State.bindReady
        split
        · split
          · exact h
          · split
            · exact h
            · exact hbind _ _ _
        · exact h

/-! ### Holds, accounts and statements -/

theorem placeHold (h : s.Sound) (tag : U8) (f : HoldFields) : (s.placeHold tag f).Sound := by
  unfold State.placeHold
  split
  · exact h
  · next key _ =>
    split
    · obtain ⟨hcal, hopt, hpool, hsched, hfee, hstmt, hhold, hrest⟩ := h
      refine ⟨hcal, hopt, hpool, hsched, hfee, hstmt, hhold.map ?_ ?_, hrest⟩ <;>
        · intro x
          split <;> rfl
    · next hfind =>
      split
      · exact h
      · next hroom =>
        obtain ⟨hcal, hopt, hpool, hsched, hfee, hstmt, hhold, hrest⟩ := h
        have hlt : s.hold.entries.length < 64 := Nat.lt_of_not_le hroom
        refine ⟨hcal, hopt, hpool, hsched, hfee, hstmt, hhold.insert hlt (lowestNumber_fresh (Nat.le_of_lt hlt)) ?_, hrest⟩
        simpa using hfind

theorem liftHold (h : s.Sound) (tag number : U8) : (s.liftHold tag number).Sound := by
  unfold State.liftHold
  split
  · exact h
  · split
    · exact ((h.filterHolds _).moves (State.moves_reevaluate _ _)).answer _ _ _ _
    · exact h

theorem setSchedule (h : s.Sound) (tag : U8) (f : ScheduleFields) : (s.setSchedule tag f).Sound := by
  unfold State.setSchedule
  split
  · next hrange =>
    obtain ⟨hcal, hopt, hpool, -, hrest⟩ := h
    exact ⟨hcal, hopt, hpool, givenSchedule_sound hrange, hrest⟩
  · exact h

theorem withFee (h : s.Sound) {u : FeeUnit} (hs : u.schedule.Sound) (hu : u.Sound) : State.Sound { s with fee := u } := by
  obtain ⟨hcal, hopt, hpool, -, -, hrest⟩ := h
  exact ⟨hcal, hopt, hpool, hs, hu, hrest⟩

theorem loadAccount (h : s.Sound) (tag : U8) (account : U16) (tier : U8) (balance limit : U32) :
    (s.loadAccount tag account tier balance limit).Sound := by
  have ⟨_, _, _, hsched, hfee, _⟩ := h
  unfold State.loadAccount
  dsimp only
  split
  · exact h
  · split
    · exact h
    · split
      · exact h
      · next hfits =>
        split
        · exact h
        · split
          · exact h
          · next hroom =>
            have hfits : -(limit.toNat : Int) ≤ balance.toInt ∧ balance.toInt ≤ 2000000000 := by
              simpa [balanceFits] using hfits
            refine (h.withFee (u := s.fee.load _) ?_ (hfee.load hfits fun hnone => ?_)).answer _ _ _ _
            · unfold FeeUnit.load
              split <;> exact hsched
            · dsimp only at hnone
              simp only [hnone, Option.isNone_none, Bool.true_and, decide_eq_true_eq, not_le] at hroom
              exact hroom

/-- An account of the table changed within its bounds. -/
theorem withAccount (h : s.Sound) {n : Nat} {a : Account} (ha : s.fee.account? n = some a) {f : Account → Account}
    (hnum : ∀ x, (f x).number = x.number) (hf : (f a).Sound) : (s.withAccount a.number f).Sound := by
  have ⟨_, _, _, hsched, hfee, _⟩ := h
  exact h.withFee (u := (s.withAccount a.number f).fee) hsched (hfee.withAccount (List.mem_of_find?_eq_some ha) hnum hf)

theorem account (h : s.Sound) {n : Nat} {a : Account} (ha : s.fee.account? n = some a) : a.Sound := by
  obtain ⟨_, _, _, _, ⟨_, _, hall⟩, _⟩ := h
  exact hall a (List.mem_of_find?_eq_some ha)

theorem creditAccount (h : s.Sound) (tag : U8) (account : U16) (amount : U32) : (s.creditAccount tag account amount).Sound := by
  unfold State.creditAccount
  split
  · exact h
  · split
    · exact h
    · next a ha =>
      split
      · exact h
      · next hlimit =>
        obtain ⟨hlow, hhigh⟩ := h.account ha
        simp only [Config.balanceLimit] at hlimit
        have hcredit := h.withAccount ha (f := fun a => { a with balance := a.balance + amount.toNat }) (fun _ => rfl)
          ⟨by dsimp only; omega, by dsimp only; omega⟩
        exact (hcredit.moves (State.moves_retryAccount _ _)).answer _ _ _ _

theorem setLimit (h : s.Sound) (tag : U8) (account : U16) (limit : U32) : (s.setLimit tag account limit).Sound := by
  unfold State.setLimit
  split
  · exact h
  · split
    · exact h
    · next a ha =>
      split
      · exact h
      · next hlimit =>
        obtain ⟨hlow, hhigh⟩ := h.account ha
        have hset := h.withAccount ha (f := fun a => { a with limit := limit.toNat }) (fun _ => rfl)
          ⟨by dsimp only; omega, by dsimp only; omega⟩
        refine answer ?_ _ _ _ _
        unfold State.replaceLimit
        dsimp only
        split
        · exact hset.moves (State.moves_retryAccount _ _)
        · exact hset

theorem closeStatement (h : s.Sound) (tag : U8) : (s.closeStatement tag).Sound := by
  unfold State.closeStatement
  split
  · next hroom => exact (h.closeOpenStatement 2 hroom).answer _ _ _ _
  · exact h

theorem releaseStatement (h : s.Sound) (tag : U8) (n : U32) : (s.releaseStatement tag n).Sound := by
  unfold State.releaseStatement
  split
  · exact h
  · next oldest rest hclosed =>
    split
    · exact h
    · obtain ⟨hcal, hopt, hpool, hsched, hfee, ⟨hlen, hentries⟩, hrest⟩ := h
      rw [hclosed, List.length_cons] at hlen
      have hleft : State.Sound { s with stmt := { s.stmt with closed := rest } } :=
        ⟨hcal, hopt, hpool, hsched, hfee, ⟨by dsimp only; omega, hentries⟩, hrest⟩
      refine answer ?_ _ _ _ _
      unfold State.catchUp
      split
      · exact hleft.closeOpenStatement 3 (by dsimp only; omega)
      · exact hleft

end State.Sound

end Sys2Proof.Machine
end

section
/-! The queries only form their replies. -/

namespace Sys2Proof.Machine

/-- The state u is s but for the replies that the change has formed. -/
def State.OnlyForms (s u : State) : Prop := ∃ f, u = { s with formed := f }

namespace State

variable (s : State) (tag : U8)

theorem answer_onlyForms (kind : U8) (code : Code) (fields : List U8) : s.OnlyForms (s.answer kind tag code fields) := ⟨_, rfl⟩

theorem queryEdition_onlyForms (key : EditionKey) : s.OnlyForms (s.queryEdition tag key) := by
  unfold queryEdition
  repeat' split
  all_goals exact s.answer_onlyForms _ _ _ _

theorem queryPage_onlyForms (key : PageKey) : s.OnlyForms (s.queryPage tag key) := by
  unfold queryPage
  repeat' split
  all_goals exact s.answer_onlyForms _ _ _ _

theorem queryPhoto_onlyForms (n : U32) : s.OnlyForms (s.queryPhoto tag n) := by
  unfold queryPhoto
  repeat' split
  all_goals exact s.answer_onlyForms _ _ _ _

theorem queryRestore_onlyForms (job : U16) : s.OnlyForms (s.queryRestore tag job) := by
  unfold queryRestore
  repeat' split
  all_goals exact s.answer_onlyForms _ _ _ _

theorem queryOrder_onlyForms (n : U32) : s.OnlyForms (s.queryOrder tag n) := by
  unfold queryOrder
  repeat' split
  all_goals exact s.answer_onlyForms _ _ _ _

theorem queryAccount_onlyForms (account : U16) : s.OnlyForms (s.queryAccount tag account) := by
  unfold queryAccount
  repeat' split
  all_goals exact s.answer_onlyForms _ _ _ _

theorem readStatement_onlyForms (index : U8) (first : U16) (count : U8) :
    s.OnlyForms (s.readStatement tag index first count) := by
  unfold readStatement
  repeat' split
  all_goals exact s.answer_onlyForms _ _ _ _

end State

end Sys2Proof.Machine
end

section
/-! Every command keeps the ranges of the rules. -/

namespace Sys2Proof.Machine

namespace State.Sound

variable {s t : State}

theorem onlyForms (h : s.Sound) (hf : s.OnlyForms t) : t.Sound := by
  obtain ⟨f, rfl⟩ := hf
  exact h

/-- A store answer that is taken, as a command. -/
theorem storeAnswer {α : Type} {at_ : SlotTag} {fits : Op → Bool} {returns : α → Returns} {ans : Answer α} (h : s.Sound)
    (e : Machine.storeAnswer at_ fits returns ans s = .next t) : t.Sound :=
  h.event e fun u hu => hu.moves (u.moves_takeAnswer at_ fits returns ans)

theorem baseTick (h : s.Sound) (e : execBaseTick s = .next t) : t.Sound := by
  cases e
  split
  · exact h.takeDue.tick
  · exact h.withCal h.1.tick

theorem powerOn {p : PowerUp} (h : s.Sound) (e : execPowerOn p s = .next t) : t.Sound := by
  cases e
  refine atPowerOn ?_ _ _ _
  split
  · exact h.1
  · decide

/-- Every command keeps the bounds of the rules. -/
theorem exec {c : Instr} (h : s.Sound) (e : Machine.exec c s = .next t) : t.Sound := by
  unfold Machine.exec at e
  cases c with
  | powerOn p => exact h.powerOn e
  | linkReset => exact h.event e fun _ hu => hu.linkReset
  | frameReceived chars => exact h.event e fun _ hu => hu.receive chars
  | frameSendStart idle => exact h.signal e fun _ hu => hu
  | arbitrationLost => exact h.signal e fun _ hu => hu
  | frameSent => exact h.signal e fun _ hu => hu.sent
  | unknownRequest tag kind => exact h.request e fun u hu => by split <;> exact hu
  | identify tag => exact h.query e fun _ hu => hu
  | startService tag => exact h.request e fun _ hu => hu.startService tag
  | enterSetup tag => exact h.request e fun _ hu => hu.enterSetup tag
  | setupEntryComplete => exact h.event e fun _ hu => hu
  | enterStandby tag => exact h.request e fun _ hu => hu.enterStandby tag
  | standbyEntryComplete => exact h.event e fun _ hu => hu
  | setOption tag number value => exact h.request e fun _ hu => hu.setOption tag number value
  | readOptions tag => exact h.query e fun _ hu => hu
  | readNotices tag => exact h.request e fun _ hu => hu
  | setNoticeMask tag mask => exact h.request e fun _ hu => hu
  | wait tag mask seconds => exact h.request e fun _ hu => hu.takeWait tag mask seconds
  | waitMet => exact h.event e fun _ hu => hu
  | waitTimeout => exact h.event e fun _ hu => hu.expireWait
  | cancelTransfer tag => exact h.request e fun _ hu => hu.cancelTransfer tag
  | linkStatus tag clear => exact h.request e fun _ hu => hu.linkStatus clear
  | selectAsserted => exact h.signal e fun _ hu => hu.assertSelect
  | transferComplete data => exact h.eventWith e (fun _ hu => hu.handAtOnce) fun _ hu => hu.lastByte data
  | selectReleased => exact h.event e fun _ hu => hu.releaseSelect
  | laneBindExpiry => exact h.event e fun _ hu => hu.expireBinding
  | baseTick => exact h.baseTick e
  | minuteEvent => exact h.event e fun _ hu => hu.takeMinute
  | dayRollover => exact h.event e fun _ hu => hu.takeRollover
  | tradeDayBoundary => exact h.event e fun _ hu => hu.takeBoundary
  | setTime tag sec min hour day => exact h.request e fun _ hu => hu.setTime tag sec min hour day
  | runCalendar tag => exact h.request e fun _ hu => hu.runCalendar tag
  | stopCalendar tag => exact h.request e fun _ hu => hu.stopCalendar tag
  | readTime tag => exact h.query e fun _ hu => hu
  | setDeadline tag key d => exact h.request e fun _ hu => hu.setDeadline tag key d
  | listDeadlines tag => exact h.query e fun _ hu => hu
  | queryEdition tag key => exact h.query e fun u hu => hu.onlyForms (u.queryEdition_onlyForms tag key)
  | listEditions tag start => exact h.query e fun _ hu => by split <;> exact hu
  | queryPage tag key => exact h.query e fun u hu => hu.onlyForms (u.queryPage_onlyForms tag key)
  | queryPhoto tag photo => exact h.query e fun u hu => hu.onlyForms (u.queryPhoto_onlyForms tag photo)
  | dropPhoto tag photo => exact h.request e fun _ hu => hu.dropPhoto tag photo
  | reloadCatalogue tag => exact h.request e fun _ hu => hu.reload tag
  | indexReadCompletion at_ ans => exact h.storeAnswer e
  | openEdition tag key planned d => exact h.request e fun _ hu => hu.openEdition tag key planned d
  | replanEdition tag key planned => exact h.request e fun _ hu => hu.replan tag key planned
  | filePage tag f => exact h.request e fun _ hu => hu.filePage tag f
  | filePhoto tag f => exact h.request e fun _ hu => hu.filePhoto tag f
  | intakeWriteCompletion at_ ans => exact h.storeAnswer e
  | closeEdition tag key => exact h.request e fun _ hu => hu.closeEdition tag key
  | closeEnd slot => exact h.event e fun u hu => hu.moves (u.moves_closeTest _)
  | closeMarkCompletion at_ ans => exact h.storeAnswer e
  | queryStaging tag => exact h.query e fun _ hu => hu
  | claimGrant => exact h.event e fun _ hu => hu
  | lateStoreAnswer at_ ans => cases e; exact h
  | storeOperationTimeout slot => exact h.event e fun u hu => hu.moves (u.moves_timeOut _)
  | probeIntervalExpiry => exact h.event e fun _ hu => hu
  | probeAnswer at_ ans => exact h.event e fun u hu => hu.moves (u.moves_judgeProbe ans)
  | resumeStore tag => exact h.request e fun _ hu => by split <;> exact hu
  | queryStore tag => exact h.query e fun _ hu => hu
  | freeBodyCompletion at_ ans => exact h.storeAnswer e
  | sealEdition tag key => exact h.request e fun _ hu => hu.sealEdition tag key
  | sealStart => exact h.event e fun _ hu => hu
  | sealVolumeCompletion at_ ans => exact h.storeAnswer e
  | querySealing tag => exact h.query e fun _ hu => hu
  | readVolumeEntryCompletion at_ ans => exact h.storeAnswer e
  | recallWaitServe => exact h.event e fun _ hu => hu
  | queryRecall tag detail => exact h.query e fun _ hu => by split_ifs <;> exact hu
  | restore tag x l hi sp => exact h.request e fun _ hu => hu.restore tag x l hi sp
  | jobStart => exact h.event e fun _ hu => hu
  | surveyReadCompletion at_ ans => exact h.storeAnswer e
  | mappingEnd => exact h.event e fun u hu => hu.moves u.moves_mapped
  | restorationWriteCompletion at_ ans => exact h.storeAnswer e
  | heldDiscardRelease => exact h.event e fun _ hu => hu
  | revert tag x => exact h.request e fun _ hu => hu.revert tag x
  | queryRestore tag job => exact h.query e fun u hu => hu.onlyForms (u.queryRestore_onlyForms tag job)
  | placeHold tag f => exact h.request e fun _ hu => hu.placeHold tag f
  | liftHold tag number => exact h.request e fun _ hu => hu.liftHold tag number
  | listHolds tag => exact h.query e fun _ hu => hu
  | placeOrder tag f => exact h.request e fun _ hu => hu.tryOrder tag f
  | cancelOrder tag order => exact h.request e fun _ hu => hu.cancelOrder tag order
  | retireOrder tag order => exact h.request e fun _ hu => hu.retireOrder tag order
  | queryOrder tag order => exact h.query e fun u hu => hu.onlyForms (u.queryOrder_onlyForms tag order)
  | prepareDelivery tag order => exact h.request e fun _ hu => hu.prepareDelivery tag order
  | deliveryReadCompletion at_ ans => exact h.storeAnswer e
  | preparationEnd order => exact h.event e fun u hu => hu.moves (u.moves_endPreparation _)
  | readyExpiry order => exact h.event e fun u hu => hu.moves (u.moves_expireReady _)
  | bindDelivery tag order => exact h.request e fun _ hu => hu.bindDelivery tag order
  | setSchedule tag f => exact h.request e fun _ hu => hu.setSchedule tag f
  | readSchedule tag => exact h.query e fun _ hu => hu
  | loadAccount tag account tier balance limit => exact h.request e fun _ hu => hu.loadAccount tag account tier balance limit
  | creditAccount tag account amount => exact h.request e fun _ hu => hu.creditAccount tag account amount
  | setLimit tag account limit => exact h.request e fun _ hu => hu.setLimit tag account limit
  | queryAccount tag account => exact h.query e fun u hu => hu.onlyForms (u.queryAccount_onlyForms tag account)
  | closeStatement tag => exact h.request e fun _ hu => hu.closeStatement tag
  | releaseStatement tag number => exact h.request e fun _ hu => hu.releaseStatement tag number
  | readStatement tag index first count =>
    exact h.query e fun u hu => hu.onlyForms (u.readStatement_onlyForms tag index first count)
  | mainPowerLoss => cases e; exact h
  | byteMoved data => exact h.signal e fun _ hu => hu.clockByte data
  | breakEnd => exact h.signal e fun _ hu => hu

end State.Sound

end Sys2Proof.Machine
end

section
/-! What the rules state of the tables, the second half of O58: every well-formed command keeps it. -/

namespace Sys2Proof.Machine

theorem State.reset_tables : State.reset.Tables :=
  ⟨rfl, by decide +kernel, by decide +kernel, by decide +kernel, by decide +kernel, by decide +kernel, nofun⟩

namespace State.TablesFit

variable {s t : State}

theorem onlyForms (h : s.TablesFit) (hf : s.OnlyForms t) : t.TablesFit := by
  obtain ⟨f, rfl⟩ := hf
  exact h.same

/-- RESUME STORE takes a RECOVERED link, which holds no operation, to ONLINE (R80). -/
theorem resumeStore (h : s.TablesFit) (hr : s.link.state = .recovered) : State.TablesFit { s with link := s.link.online } :=
  h.withLink (h.link.up (by simp [hr]) (h.link.empty hr) rfl rfl)

/-- The link that holds a PROBE is OFFLINE (R78). -/
theorem offline_of_probe (h : s.TablesFit) {at_ : SlotTag}
    (hp : (s.link.answered? at_ fun op => op == .probe).isSome = true) : s.link.state = .offline := by
  obtain ⟨op, hop⟩ := Option.isSome_iff_exists.1 hp
  obtain ⟨hheld, hprobe⟩ := StoreLink.answered_held hop
  obtain ⟨-, honline, hother⟩ := h.link
  by_cases ho : s.link.state = .online
  · exact absurd (by simpa using hprobe) ((honline ho).2 op hheld)
  · exact ((hother ho).2.2 op hheld).1

theorem assertSelect (h : s.TablesFit) : s.assertSelect.TablesFit ∧ s.assertSelect.agenda = s.agenda := by
  unfold State.assertSelect
  split <;> exact ⟨h.same, rfl⟩

theorem clockByte (h : s.TablesFit) (data : U8) : (s.clockByte data).TablesFit ∧ (s.clockByte data).agenda = s.agenda := by
  unfold State.clockByte
  split
  · exact ⟨same (h.moveByte _ data).1, (h.moveByte _ data).2⟩
  · exact ⟨h.same, rfl⟩

theorem fit_atPowerOn (c : Calendar) (r : BitVec 2) (st : BitVec 3) (l : List Instr) : Fit (State.atPowerOn c r st l) :=
  have hreset := (State.tables_iff _).1 State.reset_tables
  ⟨hreset.2.same, rfl⟩

namespace Fit

theorem ofQuery {c : Instr} {body : State → State} (h : Fit s) (e : Machine.query c body s = .next t)
    (hb : ∀ u : State, u.TablesFit → (body u).TablesFit) : Fit t := query_fit h hb e

theorem ofRequest {c : Instr} {body : State → State} (h : Fit s) (e : Machine.request c body s = .next t)
    (hb : ∀ u : State, u.TablesFit → (body u).TablesFit) : Fit t := request_fit h hb e

theorem ofEvent {hap : State → Bool} {body : State → State} (h : Fit s) (e : Machine.event hap body s = .next t)
    (hb : ∀ u : State, u.TablesFit → hap u = true → (body u).TablesFit) : Fit t := event_fit' h hb e

theorem ofSignal {hap : State → Bool} {body : State → State} (h : Fit s) (e : Machine.signal hap body s = .next t)
    (hb : ∀ u : State, u.TablesFit → (body u).TablesFit ∧ (body u).agenda = u.agenda) : Fit t := signal_fit h hb e

theorem ofAnswer {α : Type} {at_ : SlotTag} {fits : Op → Bool} {returns : α → Returns} {ans : Answer α} (h : Fit s)
    (e : Machine.storeAnswer at_ fits returns ans s = .next t) (hp : fits .probe = false)
    (hx : ∀ a x, ans = .done a → returns a = .index x → x.wellFormed = true) : Fit t :=
  h.ofEvent e fun _ hu _ => hu.takeAnswer at_ hp hx

theorem tick (h : Fit s) : Fit s.tick := ⟨h.1.tick, h.2⟩

theorem baseTick (h : Fit s) (e : execBaseTick s = .next t) : Fit t := by
  cases e
  split
  · exact (takeDue h).tick
  · exact ⟨h.1.same, h.2⟩

/-- Every well-formed command keeps what the rules state of the tables. -/
theorem exec {c : Instr} (h : Fit s) (hc : c.wellFormed = true) (e : Machine.exec c s = .next t) : Fit t := by
  unfold Machine.exec at e
  cases c with
  | powerOn p => cases e; exact fit_atPowerOn _ _ _ _
  | linkReset => exact h.ofEvent e fun _ hu _ => hu.linkReset
  | frameReceived chars => exact h.ofEvent e fun _ hu _ => hu.receive chars
  | frameSendStart idle => exact h.ofSignal e fun _ hu => ⟨hu.same, rfl⟩
  | arbitrationLost => exact h.ofSignal e fun _ hu => ⟨hu.same, rfl⟩
  | frameSent => exact h.ofSignal e fun _ hu => ⟨hu.same, rfl⟩
  | unknownRequest tag kind => exact h.ofRequest e fun _ hu => by split; exacts [hu, hu.refuse _ _ _]
  | identify tag => exact h.ofQuery e fun _ hu => hu.same
  | startService tag => exact h.ofRequest e fun _ hu => hu.startService tag
  | enterSetup tag => exact h.ofRequest e fun _ hu => hu.enterSetup tag
  | setupEntryComplete => exact h.ofEvent e fun _ hu _ => hu
  | enterStandby tag => exact h.ofRequest e fun _ hu => hu.enterStandby tag
  | standbyEntryComplete => exact h.ofEvent e fun _ hu _ => hu
  | setOption tag number value => exact h.ofRequest e fun _ hu => hu.setOption tag number value
  | readOptions tag => exact h.ofQuery e fun _ hu => hu.same
  | readNotices tag => exact h.ofRequest e fun _ hu => hu.same
  | setNoticeMask tag mask => exact h.ofRequest e fun _ hu => hu.same
  | wait tag mask seconds => exact h.ofRequest e fun _ hu => hu.takeWait tag mask seconds
  | waitMet => exact h.ofEvent e fun _ hu _ => hu
  | waitTimeout => exact h.ofEvent e fun _ hu _ => hu.expireWait
  | cancelTransfer tag => exact h.ofRequest e fun _ hu => by split; exacts [hu.refuse _ _ _, hu.abortLane.answer _ _ _ _]
  | linkStatus tag clear => exact h.ofRequest e fun _ hu => hu.same
  | selectAsserted => exact h.ofSignal e fun _ hu => hu.assertSelect
  | transferComplete data => exact eventWith_fit h (fun _ hu => handAtOnce hu) (fun _ hu _ => hu.lastByte data) e
  | selectReleased => exact h.ofEvent e fun _ hu _ => hu.releaseSelect
  | laneBindExpiry => exact h.ofEvent e fun _ hu _ => hu.expireBinding
  | baseTick => exact h.baseTick e
  | minuteEvent => exact h.ofEvent e fun _ hu _ => hu.takeMinute
  | dayRollover => exact h.ofEvent e fun _ hu _ => hu.takeRollover
  | tradeDayBoundary => exact h.ofEvent e fun _ hu _ => hu.takeBoundary
  | setTime tag sec min hour day => exact h.ofRequest e fun _ hu => by unfold State.setTime; split_ifs <;> exact hu.same
  | runCalendar tag => exact h.ofRequest e fun _ hu => by unfold State.runCalendar; split <;> exact hu.same
  | stopCalendar tag => exact h.ofRequest e fun _ hu => hu.stopCalendar tag
  | readTime tag => exact h.ofQuery e fun _ hu => hu.same
  | setDeadline tag key d => exact h.ofRequest e fun _ hu => hu.setDeadline tag key d
  | listDeadlines tag => exact h.ofQuery e fun _ hu => hu.same
  | queryEdition tag key => exact h.ofQuery e fun u hu => hu.onlyForms (u.queryEdition_onlyForms tag key)
  | listEditions tag start => exact h.ofQuery e fun _ hu => by split <;> exact hu.same
  | queryPage tag key => exact h.ofQuery e fun u hu => hu.onlyForms (u.queryPage_onlyForms tag key)
  | queryPhoto tag photo => exact h.ofQuery e fun u hu => hu.onlyForms (u.queryPhoto_onlyForms tag photo)
  | dropPhoto tag photo => exact h.ofRequest e fun _ hu => hu.dropPhoto tag photo
  | reloadCatalogue tag => exact h.ofRequest e fun _ hu => hu.reloads tag
  | indexReadCompletion at_ ans =>
    refine h.ofAnswer e rfl fun a x ha hx => ?_
    cases hx
    rwa [ha] at hc
  | openEdition tag key planned d => exact h.ofRequest e fun _ hu => hu.openEdition tag key planned d
  | replanEdition tag key planned => exact h.ofRequest e fun _ hu => hu.replan tag key planned
  | filePage tag f => exact h.ofRequest e fun _ hu => hu.filePage tag f
  | filePhoto tag f => exact h.ofRequest e fun _ hu => hu.filePhoto tag f
  | intakeWriteCompletion at_ ans => exact h.ofAnswer e rfl nofun
  | closeEdition tag key => exact h.ofRequest e fun _ hu => hu.closeEdition tag key
  | closeEnd slot => exact h.ofEvent e fun _ hu _ => hu.closeTest _
  | closeMarkCompletion at_ ans => exact h.ofAnswer e rfl nofun
  | queryStaging tag => exact h.ofQuery e fun _ hu => hu.same
  | claimGrant => exact h.ofEvent e fun _ hu _ => hu.push
  | lateStoreAnswer at_ ans => cases e; exact h
  | storeOperationTimeout slot => exact h.ofEvent e fun _ hu _ => hu.timeOut _
  | probeIntervalExpiry => exact h.ofEvent e fun _ hu hd => hu.probe hd
  | probeAnswer at_ ans => exact h.ofEvent e fun _ hu hp => hu.judgeProbe (hu.offline_of_probe hp) ans
  | resumeStore tag =>
    exact h.ofRequest e fun _ hu => by
      split
      case h_1 hr => exact (hu.resumeStore hr).answer _ _ _ _
      all_goals exact hu.refuse _ _ _
  | queryStore tag => exact h.ofQuery e fun _ hu => hu.same
  | freeBodyCompletion at_ ans => exact h.ofAnswer e rfl nofun
  | sealEdition tag key => exact h.ofRequest e fun _ hu => hu.sealEdition tag key
  | sealStart => exact h.ofEvent e fun _ hu _ => hu.push
  | sealVolumeCompletion at_ ans => exact h.ofAnswer e rfl nofun
  | querySealing tag => exact h.ofQuery e fun _ hu => hu.same
  | readVolumeEntryCompletion at_ ans => exact h.ofAnswer e rfl nofun
  | recallWaitServe => exact h.ofEvent e fun _ hu _ => hu.push
  | queryRecall tag detail => exact h.ofQuery e fun _ hu => by split_ifs <;> exact hu.same
  | restore tag x l hi sp => exact h.ofRequest e fun _ hu => hu.restore tag x l hi sp
  | jobStart => exact h.ofEvent e fun _ hu _ => hu.push
  | surveyReadCompletion at_ ans => exact h.ofAnswer e rfl nofun
  | mappingEnd => exact h.ofEvent e fun _ hu _ => hu.mapped
  | restorationWriteCompletion at_ ans => exact h.ofAnswer e rfl nofun
  | heldDiscardRelease => exact h.ofEvent e fun _ hu _ => hu.push
  | revert tag x => exact h.ofRequest e fun _ hu => hu.revert tag x
  | queryRestore tag job => exact h.ofQuery e fun u hu => hu.onlyForms (u.queryRestore_onlyForms tag job)
  | placeHold tag f => exact h.ofRequest e fun _ hu => hu.placeHold tag f
  | liftHold tag number => exact h.ofRequest e fun _ hu => hu.liftHold tag number
  | listHolds tag => exact h.ofQuery e fun _ hu => hu.same
  | placeOrder tag f => exact h.ofRequest e fun _ hu => hu.tryOrder tag f
  | cancelOrder tag order => exact h.ofRequest e fun _ hu => hu.cancelOrder tag order
  | retireOrder tag order => exact h.ofRequest e fun _ hu => hu.retireOrder tag order
  | queryOrder tag order => exact h.ofQuery e fun u hu => hu.onlyForms (u.queryOrder_onlyForms tag order)
  | prepareDelivery tag order => exact h.ofRequest e fun _ hu => hu.prepareDelivery tag order
  | deliveryReadCompletion at_ ans => exact h.ofAnswer e rfl nofun
  | preparationEnd order => exact h.ofEvent e fun _ hu _ => hu.endPreparation _
  | readyExpiry order => exact h.ofEvent e fun _ hu _ => hu.expireReady _
  | bindDelivery tag order => exact h.ofRequest e fun _ hu => hu.bindDelivery tag order
  | setSchedule tag f => exact h.ofRequest e fun _ hu => hu.setSchedule tag f
  | readSchedule tag => exact h.ofQuery e fun _ hu => hu.same
  | loadAccount tag account tier balance limit => exact h.ofRequest e fun _ hu => hu.loadAccount tag account tier balance limit
  | creditAccount tag account amount => exact h.ofRequest e fun _ hu => hu.creditAccount tag account amount
  | setLimit tag account limit => exact h.ofRequest e fun _ hu => hu.setLimit tag account limit
  | queryAccount tag account => exact h.ofQuery e fun u hu => hu.onlyForms (u.queryAccount_onlyForms tag account)
  | closeStatement tag => exact h.ofRequest e fun _ hu => hu.closeStatement tag
  | releaseStatement tag number => exact h.ofRequest e fun _ hu => hu.releaseStatement tag number
  | readStatement tag index first count =>
    exact h.ofQuery e fun u hu => hu.onlyForms (u.readStatement_onlyForms tag index first count)
  | mainPowerLoss => cases e; exact ⟨h.1.same, h.2⟩
  | byteMoved data => exact h.ofSignal e fun _ hu => hu.clockByte data
  | breakEnd => exact h.ofSignal e fun _ hu => ⟨hu.same, rfl⟩

end Fit

end State.TablesFit

/-- Settles O58: a step takes the front of the queue, and every command keeps the ranges; a well-formed one keeps what the rules
state of the tables. -/
theorem everyStepKeepsTheBounds : Obligations.EveryStepKeepsTheBounds := by
  unfold Obligations.EveryStepKeepsTheBounds
  refine ⟨fun s t h e => ?_, fun s t h hwf e => ?_⟩
  · unfold step at e
    split at e
    · cases e
      exact h
    · next c rest _ => exact State.Sound.exec (s := { s with pending := rest }) h e
  · rw [State.tables_iff] at h ⊢
    unfold step at e
    split at e
    · cases e
      exact h
    · next c rest hq =>
      have hfit : State.TablesFit.Fit { s with pending := rest } := ⟨h.2.same, h.1⟩
      exact (hfit.exec (hwf c (by simp [hq])) e).symm

/-- Settles O60: the state after reset is a closed value, and each part of the claim is evaluated on it. -/
theorem resetIsCalmAndSound : Obligations.ResetIsCalmAndSound := by
  unfold Obligations.ResetIsCalmAndSound
  exact ⟨by decide +kernel, State.Sound.reset, State.reset_tables⟩

end Sys2Proof.Machine
end

section
/-! The calendar's counters (O22), and the base tick (O23). -/

namespace Sys2Proof.Machine

/-! ### The counters -/

theorem Calendar.tick_of_not_running {c : Calendar} (h : c.state ≠ .running) : c.tick = c := by simp [Calendar.tick, h]

theorem Calendar.tick_of_running {c : Calendar} (h : c.state = .running) : c.tick = c.count := by simp [Calendar.tick, h]

theorem Calendar.count_state (c : Calendar) : c.count.state = c.state := by
  unfold Calendar.count
  split_ifs <;> rfl

/-- The counters of a calendar as one number of fractions (R27). -/
def Calendar.value (c : Calendar) : Nat := (((c.day * 24 + c.hour) * 60 + c.minute) * 60 + c.second) * 256 + c.fraction

/-- A fraction more, but at the top of the range: each carry resets the counters below it. -/
theorem Calendar.value_count {c : Calendar} (h : c.Sound) (htop : c.day < 65535 ∨ c.value + 1 < 65536 * 24 * 60 * 60 * 256) :
    c.count.value = c.value + 1 := by
  obtain ⟨hfr, hsec, hmin, hhour, hday, -⟩ := h
  unfold Calendar.value at *
  unfold Calendar.count
  split_ifs <;> dsimp only <;> omega

/-- Settles O22: the counters taken as one number of fractions. -/
theorem calendarCountsFractions : Obligations.CalendarCountsFractions := by
  unfold Obligations.CalendarCountsFractions
  intro value c hc
  refine ⟨Calendar.tick_of_not_running, fun hrun => ?_, rfl⟩
  refine ⟨?_, hc.tick, fun htop => ?_⟩
  · rw [Calendar.tick_of_running hrun, Calendar.count_state, hrun]
  · rw [Calendar.tick_of_running hrun]
    exact Calendar.value_count hc htop

/-! ### What the changes before a tick leave of the calendar and the options -/

/-- What the tick reads: the calendar and the options. -/
def State.clock (s : State) : Calendar × Options := (s.cal, s.req.options)

theorem Moves.clock {s t : State} (h : Moves s t) : t.clock = s.clock := by simp [State.clock, h.kept.cal, h.kept.options]

namespace State

variable (s : State)

theorem endWait_clock : s.endWait.clock = s.clock := by
  unfold endWait
  split <;> rfl

theorem close_clock : s.close.clock = s.clock := s.disarm.endWait_clock

theorem answerEntry_clock (k : U8) (c : Code) : (s.answerEntry k c).clock = s.clock := by
  unfold answerEntry
  split <;> rfl

theorem completeEntry_clock : s.completeEntry.clock = s.clock := by
  unfold completeEntry
  split
  · exact (s.changeMode .setup).answerEntry_clock _ _
  · exact (s.changeMode .standby).answerEntry_clock _ _
  all_goals rfl

theorem endChange_clock : s.endChange.clock = s.clock := by
  unfold endChange
  split
  · rw [close_clock, (moves_settled _).clock, completeEntry_clock, s.moves_settled.clock]
  · rw [close_clock, s.moves_settled.clock]

theorem due_clock {hap : State → Bool} {body : State → State} (hb : ∀ u : State, (body u).clock = u.clock) :
    (due hap body s).clock = s.clock := by
  unfold due
  split
  · rw [endChange_clock, hb]
  · rfl

theorem foldl_clock {α : Type} {f : State → α → State} (hf : ∀ (u : State) x, (f u x).clock = u.clock) :
    ∀ (l : List α) (s : State), (l.foldl f s).clock = s.clock
  | [], _ => rfl
  | x :: l, s => (foldl_clock hf l (f s x)).trans (hf s x)

theorem handedOff_clock : s.handedOff.clock = s.clock := s.due_clock fun u => u.moves_handStaged.clock

theorem expireWait_clock : s.expireWait.clock = s.clock := by
  unfold expireWait
  split <;> rfl

theorem endTransfer_clock (b : Binding) (e : LaneEnding) : (s.endTransfer b e).clock = s.clock := by
  unfold endTransfer
  split
  · exact (moves_failFiling s.freeLane _ _ _).clock
  all_goals rfl

theorem expireBinding_clock : s.expireBinding.clock = s.clock := by
  unfold expireBinding
  split
  · exact s.endTransfer_clock _ _
  · rfl

theorem fireDeadlines_clock (now : Nat) : ∀ (l : List Nat) (s : State), (fireDeadlines now l s).clock = s.clock
  | [], _ => rfl
  | slot :: rest, s => by
    unfold fireDeadlines
    split
    · exact fireDeadlines_clock now rest (s.beginClose slot true)
    · rfl

theorem takeMinute_clock : s.takeMinute.clock = s.clock := by
  unfold takeMinute minuteWork
  split
  · rw [(moves_raiseWarnings _ _).clock, fireDeadlines_clock]
    rfl
  · rfl

theorem expireHolds_clock (day : Nat) : (s.expireHolds day).clock = s.clock := by
  unfold expireHolds
  split
  · rw [(moves_reevaluate _ _).clock]
    rfl
  · rfl

theorem takeRollover_clock : s.takeRollover.clock = s.clock := by
  unfold takeRollover
  split
  · exact expireHolds_clock { s with events := { s.events with rollover := none } } _
  · rfl

theorem wake_clock : s.wake.clock = s.clock := by
  unfold wake
  split
  · rw [(moves_settled _).clock]
    rfl
  · rfl

theorem boundaryStatement_clock : s.boundaryStatement.clock = s.clock := by
  unfold boundaryStatement closeOpenStatement
  split
  · dsimp only
    rw [(moves_retryRoom _ _).clock]
    rfl
  · rfl

theorem takeBoundary_clock : s.takeBoundary.clock = s.clock := by
  unfold takeBoundary
  split
  · rw [(moves_retentionSweep _ _).clock, boundaryStatement_clock, wake_clock]
    rfl
  · rfl

theorem dueTimeouts_clock : s.dueTimeouts.clock = s.clock :=
  foldl_clock (fun u i => u.due_clock fun v => (v.moves_timeOut i).clock) _ _

theorem dueExpiries_clock : s.dueExpiries.clock = s.clock :=
  foldl_clock (fun u n => u.due_clock fun v => (v.moves_expireReady n).clock) _ _

theorem probe_clock : (State.clock { s with link := s.link.probe }) = s.clock := rfl

theorem takeDue_clock : s.takeDue.clock = s.clock := by
  unfold takeDue
  dsimp only
  rw [dueExpiries_clock, due_clock _ probe_clock, dueTimeouts_clock, due_clock _ takeBoundary_clock,
    due_clock _ takeRollover_clock, due_clock _ takeMinute_clock, due_clock _ expireBinding_clock,
    due_clock _ expireWait_clock, handedOff_clock]

/-! ### A tick with nothing left due -/

theorem foldl_fixed {α : Type} {f : State → α → State} {s : State} : ∀ {l : List α}, (∀ x ∈ l, f s x = s) → l.foldl f s = s
  | [], _ => rfl
  | x :: l, h => by
    rw [List.foldl_cons, h x (by simp)]
    exact foldl_fixed fun y hy => h y (by simp [hy])

variable {s}

theorem dueTimeouts_of_none (h : ∀ i, s.link.timedOut? i = none) : s.dueTimeouts = s :=
  foldl_fixed fun i _ => due_absent (by simp [h i])

theorem dueExpiries_of_none (h : ∀ o ∈ s.ord.live, o.state = .ready → o.readyTicks ≠ 0) : s.dueExpiries = s := by
  refine foldl_fixed fun n _ => due_absent ?_
  cases ho : s.order? n with
  | none => simp [readyExpired, ho]
  | some o => simpa [readyExpired, ho] using h o (List.mem_of_find?_eq_some ho)

theorem raised?_of_none {α : Type} {mark : DueEvents → Option α} (h : mark s.events = none) : s.raised? mark = none := by
  simp [raised?, h]

/-- With nothing left due the tick is the only change. -/
theorem takeDue_of_none (hu : s.Unstaged) (hw : s.req.expiredWait? = none) (hl : s.lane.expired? = none)
    (he : s.events = ⟨none, none, none⟩) (ht : ∀ i, s.link.timedOut? i = none) (hp : s.link.probeDue = false)
    (hr : ∀ o ∈ s.ord.live, o.state = .ready → o.readyTicks ≠ 0) : s.takeDue = s := by
  have hmarks : s.raised? DueEvents.minute = none ∧ s.raised? DueEvents.rollover = none ∧ s.raised? DueEvents.boundary = none :=
    ⟨raised?_of_none (by rw [he]), raised?_of_none (by rw [he]), raised?_of_none (by rw [he])⟩
  obtain ⟨hm, hro, hb⟩ := hmarks
  have h1 : s.due (fun t => t.req.expiredWait?.isSome) expireWait = s := due_absent (by simp [hw])
  have h2 : s.due (fun t => t.lane.expired?.isSome) expireBinding = s := due_absent (by simp [hl])
  have h3 : s.due (fun t => (t.raised? DueEvents.minute).isSome) takeMinute = s := due_absent (by simp [hm])
  have h4 : s.due (fun t => (t.raised? DueEvents.rollover).isSome) takeRollover = s := due_absent (by simp [hro])
  have h5 : s.due (fun t => (t.raised? DueEvents.boundary).isSome) takeBoundary = s := due_absent (by simp [hb])
  have h6 : s.due (fun t => t.link.probeDue) (fun t => { t with link := t.link.probe }) = s := due_absent hp
  unfold takeDue
  dsimp only
  rw [handedOff_of_unstaged hu, h1, h2, h3, h4, h5, dueTimeouts_of_none ht, h6, dueExpiries_of_none hr]

theorem tick_events (s : State) {cal : Calendar} {opts : Options} (h : s.clock = (cal, opts)) :
    s.tick.cal = cal.tick ∧ s.tick.events = raisedEvents cal cal.tick opts.boundary := by
  obtain ⟨rfl, rfl⟩ := Prod.mk.inj h
  exact ⟨rfl, rfl⟩

end State

theorem exec_baseTick {s : State} (hp : s.powered = true) : exec .baseTick s = .next s.takeDue.tick := by
  show execBaseTick s = _
  simp [execBaseTick, hp]

/-- Settles O23: the changes before the tick leave the calendar and the options, and with nothing left due there are none. -/
theorem baseTickCountsEverything : Obligations.BaseTickCountsEverything := by
  unfold Obligations.BaseTickCountsEverything
  intro s hp raised
  refine ⟨?_, fun hu hw hl he ht hpr hr => ?_⟩
  · obtain ⟨hcal, hevents⟩ := s.takeDue.tick_events s.takeDue_clock
    exact ⟨_, exec_baseTick hp, hcal, hevents⟩
  · have htick : Order.tick = fun o => if o.state = .ready then { o with readyTicks := o.readyTicks - 1 } else o := by
      funext o
      simp [Order.tick]
    rw [exec_baseTick hp, State.takeDue_of_none hu hw hl he ht hpr hr, State.tick, htick]
    rfl

end Sys2Proof.Machine
end

section
/-! Main power: the contents at power-on (O6), and the part without main power (O7). -/

namespace Sys2Proof.Machine

/-- Settles O6: each block has its contents by definition. -/
theorem powerOnContents : Obligations.PowerOnContents := by
  unfold Obligations.PowerOnContents
  refine ⟨fun p s => ⟨_, rfl, ?_⟩, fun s => rfl⟩
  refine ⟨rfl, rfl, rfl, rfl, rfl, rfl, rfl, rfl, rfl, rfl, rfl, rfl, rfl, rfl, rfl, rfl, rfl, rfl⟩

/-! ### Without main power -/

theorem State.takes_unpowered {s : State} (h : s.powered = false) (c : Instr) : s.takes c = false := by simp [State.takes, h]

section Unpowered

variable {s : State} (h : s.powered = false) {c : Instr} {happens : State → Bool} {body follows : State → State}
include h

theorem query_unpowered : query c body s = .next s := query_untaken (State.takes_unpowered h c)

theorem request_unpowered : request c body s = .next s := request_untaken (State.takes_unpowered h c)

theorem eventWith_unpowered : eventWith follows happens body s = .next s := event_absent (by rw [h]; rfl)

theorem event_unpowered : event happens body s = .next s := eventWith_unpowered h

theorem storeAnswer_unpowered {α : Type} {at_ : SlotTag} {fits : Op → Bool} {returns : α → Returns} {ans : Answer α} :
    storeAnswer at_ fits returns ans s = .next s := event_unpowered h

theorem signal_unpowered : signal happens body s = .next s := signal_absent (by rw [h]; rfl)

theorem mainPowerLoss_unpowered : ({ s with powered := false } : State) = s := by rw [← h]

/-- Without main power a command other than the base tick and power-on has no effect: every request needs power to be taken, every
event and signal to happen (R25). -/
theorem exec_unpowered (hc : c ≠ .baseTick) (hp : ∀ p, c ≠ .powerOn p) : exec c s = .next s := by
  unfold exec
  cases c with
  | powerOn p => exact absurd rfl (hp p)
  | baseTick => exact absurd rfl hc
  | lateStoreAnswer at_ ans => rfl
  | mainPowerLoss => exact congrArg _ (mainPowerLoss_unpowered h)
  | identify | readOptions | readTime | listDeadlines | queryEdition | listEditions | queryPage | queryPhoto | queryStaging
  | queryStore | querySealing | queryRecall | queryRestore | listHolds | queryOrder | readSchedule | queryAccount
  | readStatement => exact query_unpowered h
  | unknownRequest | startService | enterSetup | enterStandby | setOption | readNotices | setNoticeMask | wait | cancelTransfer
  | linkStatus | setTime | runCalendar | stopCalendar | setDeadline | dropPhoto | reloadCatalogue | openEdition | replanEdition
  | filePage | filePhoto | closeEdition | resumeStore | sealEdition | restore | revert | placeHold | liftHold | placeOrder
  | cancelOrder | retireOrder | prepareDelivery | bindDelivery | setSchedule | loadAccount | creditAccount | setLimit
  | closeStatement | releaseStatement => exact request_unpowered h
  | frameSendStart | arbitrationLost | frameSent | selectAsserted | byteMoved | breakEnd => exact signal_unpowered h
  | linkReset | frameReceived | setupEntryComplete | standbyEntryComplete | waitMet | waitTimeout | selectReleased
  | laneBindExpiry | minuteEvent | dayRollover | tradeDayBoundary | closeEnd | claimGrant | storeOperationTimeout
  | probeIntervalExpiry | probeAnswer | sealStart | recallWaitServe | jobStart | mappingEnd | heldDiscardRelease
  | preparationEnd | readyExpiry => exact event_unpowered h
  | indexReadCompletion | intakeWriteCompletion | closeMarkCompletion | freeBodyCompletion | sealVolumeCompletion
  | readVolumeEntryCompletion | surveyReadCompletion | restorationWriteCompletion | deliveryReadCompletion =>
    exact storeAnswer_unpowered h
  | transferComplete => exact eventWith_unpowered h

theorem exec_baseTick_unpowered : exec .baseTick s = .next { s with cal := s.cal.tick } := by
  show execBaseTick s = _
  simp [execBaseTick, h]

end Unpowered

/-- Settles O7. -/
theorem withoutMainPowerOnlyTheCalendarRuns : Obligations.WithoutMainPowerOnlyTheCalendarRuns := by
  unfold Obligations.WithoutMainPowerOnlyTheCalendarRuns
  refine ⟨fun s => rfl, fun c s h hp => ?_⟩
  split
  · next hc => rw [hc, exec_baseTick_unpowered h]
  · next hc => exact exec_unpowered h hc hp

end Sys2Proof.Machine
end

section
/-! The deadline list: SET DEADLINE (O25), and the list's order and LIST DEADLINES (O26). -/

namespace Sys2Proof.Machine

/-! ### An edition changed in place, its state kept -/

theorem all_modify {α : Type} {q : α → Bool} {g : α → α} (hg : ∀ x, q (g x) = q x) :
    ∀ (l : List α) (i : Nat), (l.modify i g).all q = l.all q
  | [], i => by simp
  | x :: l, 0 => by simp [hg]
  | x :: l, i + 1 => by simp [all_modify hg l i]

/-- A pending entry to SETUP reads of an edition only its state (R187). -/
theorem State.setupReady_withEdition (s : State) (l : List Nat) (slot : Nat) {f : Edition → Edition}
    (hf : ∀ e, (f e).state = e.state) :
    State.setupReady { s with deadlines := l, cat := s.cat.withEdition slot f } = s.setupReady := by
  simp only [State.setupReady, Catalogue.withEdition]
  rw [all_modify fun e => by cases e <;> simp [hf]]

/-- Neither the list nor an edition's other fields are tested at the end of a change. -/
theorem State.Calm.withEdition {s : State} (h : s.Calm) (l : List Nat) (slot : Nat) {f : Edition → Edition}
    (hf : ∀ e, (f e).state = e.state) :
    State.Calm { s with deadlines := l, cat := s.cat.withEdition slot f } := by
  obtain ⟨ha, hform, hn, hw, hl, he⟩ := h
  have hdue : State.entryDue { s with deadlines := l, cat := s.cat.withEdition slot f } = s.entryDue :=
    entryDue_congr rfl (s.setupReady_withEdition l slot hf) rfl
  exact ⟨ha, hform, hn, hw, hl, hdue.trans he⟩

/-! ### SET DEADLINE by its cases -/

theorem not_deadlineInRange_iff (d : DeadlineFields) :
    (!deadlineInRange d) = true ↔ d.flag ≠ 0 ∧ (23 < d.hour.toNat ∨ 59 < d.minute.toNat) := by
  simp only [deadlineInRange, flagSet, Bool.not_eq_true', Bool.or_eq_false_iff, Bool.not_eq_false', bne_iff_ne, decide_eq_false_iff_not]
  exact and_congr_right fun _ => by omega

theorem flagSet_of_ne {b : U8} (h : b ≠ 0) : flagSet b = true := bne_iff_ne.2 h

theorem givenDeadline_clear {d : DeadlineFields} (h : d.flag = 0) : givenDeadline d = none := by simp [givenDeadline, flagSet, h]

theorem givenDeadline_set {d : DeadlineFields} (h : d.flag ≠ 0) :
    givenDeadline d = some ⟨d.day.toNat, d.hour.toNat, d.minute.toNat⟩ := if_pos (flagSet_of_ne h)

/-- A slot that is not in the list has the position 255. -/
theorem deadlinePosition_filter_ne (l : List Nat) (slot : Nat) : deadlinePosition (l.filter fun x => x != slot) slot = 255 := by
  have : (l.filter fun x => x != slot).findIdx? (fun x => x == slot) = none := by simp [List.findIdx?_eq_none_iff]
  simp [deadlinePosition, this]

namespace State

variable {s : State} {tag : U8} {key : EditionKey} {d : DeadlineFields}

theorem setDeadline_outOfRange (h : 15 < key.code.toNat ∨ d.flag ≠ 0 ∧ (23 < d.hour.toNat ∨ 59 < d.minute.toNat)) :
    s.setDeadline tag key d = s.refuse 0x34 tag .outOfRange := if_pos (h.imp_right (not_deadlineInRange_iff d).2)

section InRange

variable (h : ¬(15 < key.code.toNat ∨ d.flag ≠ 0 ∧ (23 < d.hour.toNat ∨ 59 < d.minute.toNat)))
include h

theorem inRange : ¬(15 < key.code.toNat ∨ (!deadlineInRange d) = true) := fun hn =>
  h (hn.imp_right (not_deadlineInRange_iff d).1)

theorem setDeadline_unknown (hs : s.cat.slotOf key = none) : s.setDeadline tag key d = s.refuse 0x34 tag .notFound :=
  (if_neg (inRange h)).trans (by simp only [hs])

variable {slot : Nat} {e : Edition} (hs : s.cat.slotOf key = some slot) (he : s.cat.edition? slot = some e)
include hs he

theorem setDeadline_badState (ho : e.state ≠ .opened) : s.setDeadline tag key d = s.refuse 0x34 tag .badState :=
  (if_neg (inRange h)).trans (by simp [hs, he, ho])

theorem setDeadline_calendarUnset (ho : e.state = .opened) (hd : d.flag ≠ 0) (hc : s.cal.state = .invalid) :
    s.setDeadline tag key d = s.refuse 0x34 tag .calendarUnset :=
  (if_neg (inRange h)).trans (by simp [hs, he, ho, hc, flagSet_of_ne hd])

theorem setDeadline_changes (ho : e.state = .opened) (hc : d.flag = 0 ∨ s.cal.state ≠ .invalid) :
    s.setDeadline tag key d = (s.changeDeadline slot (givenDeadline d)).answer 0x34 tag .ok
      (u8 (deadlinePosition (s.changeDeadline slot (givenDeadline d)).deadlines slot)) := by
  have hset : ¬(flagSet d.flag && s.cal.state == .invalid) = true := by
    rcases hc with hc | hc <;> simp [flagSet, hc]
  refine (if_neg (inRange h)).trans ?_
  simp only [hs, he, ho, Option.any_some, bne_self_eq_false, if_neg hset]
  rfl

end InRange

/-- The warning flag stays only while the new deadline is within the lead (R40). -/
theorem changeDeadline_some (s : State) (slot : Nat) (x : Deadline) :
    s.changeDeadline slot (some x) =
      let cat := s.cat.withEdition slot fun e => { e with
        deadline := some x, warned := e.warned && decide (x.number ≤ s.cal.now + s.req.options.lead) }
      { s with
        cat := cat
        deadlines := insertDeadline (fun y => (cat.deadlineOf y).getD 0) slot (s.deadlines.filter fun y => y != slot) } := by
  have hlater : (!decide (s.cal.now + s.req.options.lead < x.number)) = decide (x.number ≤ s.cal.now + s.req.options.lead) := by
    rw [← decide_not, decide_eq_decide, not_lt]
  simp only [changeDeadline, hlater]
  rfl

end State

/-- Settles O25. -/
theorem setDeadlineReplacesTheDeadline : Obligations.SetDeadlineReplacesTheDeadline := by
  unfold Obligations.SetDeadlineReplacesTheDeadline
  intro s tag key d h
  refine ⟨fun ho => request_replies h (State.setDeadline_outOfRange ho),
    fun hr hs => request_replies h (State.setDeadline_unknown hr hs), fun slot e hr hs he => ?_⟩
  refine ⟨fun ho => request_replies h (State.setDeadline_badState hr hs he ho),
    fun ho hd hc => request_replies h (State.setDeadline_calendarUnset hr hs he ho hd hc), fun ho hd => ?_, fun ho hd hc => ?_⟩
  · refine request_answers h ?_ (State.Calm.withEdition (s := s.popped) h.1.1 (s.deadlines.filter fun x => x != slot) slot
      (f := fun e => { e with deadline := none, warned := false }) fun _ => rfl) rfl rfl
    have hpos := congrArg u8 (deadlinePosition_filter_ne s.deadlines slot)
    refine (State.setDeadline_changes (s := s.popped) hr hs he ho (.inl hd)).trans ?_
    rw [givenDeadline_clear hd]
    exact congrArg (State.answer _ 0x34 tag .ok) hpos
  · refine request_answers h ?_ (State.Calm.withEdition (s := s.popped) h.1.1 _ slot ?_) rfl rfl
    · refine (State.setDeadline_changes (s := s.popped) hr hs he ho (.inr hc)).trans ?_
      rw [givenDeadline_set hd, State.changeDeadline_some]
      rfl
    · exact fun _ => rfl

/-! ### The list's order (R37) -/

/-- Where an insertion stands in an ordered list. -/
theorem insertDeadline_split (num : Nat → Nat) (slot : Nat) : ∀ l : List Nat, l.Pairwise (fun a b => num a ≤ num b) →
    ∃ a b, insertDeadline num slot l = a ++ slot :: b ∧ l = a ++ b ∧ (∀ y ∈ a, num y ≤ num slot) ∧ ∀ y ∈ b, num slot < num y
  | [], _ => ⟨[], [], rfl, rfl, by simp, by simp⟩
  | x :: l, h => by
    obtain ⟨hx, hl⟩ := List.pairwise_cons.1 h
    by_cases hle : num x ≤ num slot
    · obtain ⟨a, b, hins, rfl, ha, hb⟩ := insertDeadline_split num slot l hl
      refine ⟨x :: a, b, by simp [insertDeadline, hle, hins], rfl, ?_, hb⟩
      simpa [hle] using ha
    · refine ⟨[], x :: l, by simp [insertDeadline, hle], rfl, by simp, fun y hy => ?_⟩
      rcases List.mem_cons.1 hy with rfl | hy
      · omega
      · have := hx y hy; omega

theorem insertDeadline_pairwise {num : Nat → Nat} {slot : Nat} {a b : List Nat}
    (h : (a ++ b).Pairwise fun x y => num x ≤ num y) (ha : ∀ y ∈ a, num y ≤ num slot) (hb : ∀ y ∈ b, num slot < num y) :
    (a ++ slot :: b).Pairwise fun x y => num x ≤ num y := by
  rw [List.pairwise_append] at h ⊢
  obtain ⟨hpa, hpb, hab⟩ := h
  refine ⟨hpa, List.pairwise_cons.2 ⟨fun y hy => (hb y hy).le, hpb⟩, fun x hx y hy => ?_⟩
  rcases List.mem_cons.1 hy with rfl | hy
  · exact ha x hx
  · exact hab x hx y hy

theorem Catalogue.deadlineFields_eq {c : Catalogue} {slot : Nat} {e : Edition} {x : Deadline} (he : c.edition? slot = some e)
    (hx : e.deadline = some x) : c.deadlineFields slot = u8 slot ++ u16 e.key.day.toNat ++ u8 e.key.code.toNat ++ u16 x.day ++
      u8 x.hour ++ u8 x.minute ++ [if e.warned then 1 else 0] := by
  simp only [Catalogue.deadlineFields, he, hx, keyField, flagByte, Option.getD_some]
  cases e.warned <;> simp

/-- Settles O26. -/
theorem deadlineListKeepsItsOrder : Obligations.DeadlineListKeepsItsOrder := by
  unfold Obligations.DeadlineListKeepsItsOrder
  refine ⟨fun num slot l h => ?_, fun s tag h => ⟨query_replies h rfl, fun slot e x he hx => Catalogue.deadlineFields_eq he hx⟩⟩
  obtain ⟨a, b, hins, rfl, ha, hb⟩ := insertDeadline_split num slot l h
  exact ⟨a, b, hins, rfl, ha, hb, hins ▸ insertDeadline_pairwise h ha hb⟩

end Sys2Proof.Machine
end

section
/-! What the end of a change keeps: the calendar's side of the state, the first reply, and the events latched. -/

namespace Sys2Proof.Machine

/-! ### The books: what the calendar's events change and no consequence does -/

/-- The calendar with its events, the deadline list, the holds, the options and the closed statements, with the open statement's own
fields. -/
@[ext] structure Books where
  cal : Calendar
  events : DueEvents
  deadlines : List Nat
  entries : List Hold
  options : Options
  closed : List ClosedStatement
  number : Nat
  firstDay : Nat
  missed : Nat

def State.books (s : State) : Books :=
  ⟨s.cal, s.events, s.deadlines, s.hold.entries, s.req.options, s.stmt.closed, s.stmt.current.number, s.stmt.current.firstDay,
    s.stmt.current.missed⟩

/-- What a change has made so far and its end only adds to: its port and first reply, the WAIT, and the events latched. -/
structure Carried (s t : State) : Prop where
  port : t.port = s.port
  immediate : t.formed.immediate = s.formed.immediate
  wait : t.req.wait = s.req.wait
  latched : ∀ i, s.req.latched.getLsbD i = true → t.req.latched.getLsbD i = true

theorem Carried.trans {s t u : State} (h : Carried s t) (k : Carried t u) : Carried s u :=
  ⟨k.port.trans h.port, k.immediate.trans h.immediate, k.wait.trans h.wait, fun i hi => k.latched i (h.latched i hi)⟩

theorem Carried.refl (s : State) : Carried s s := ⟨rfl, rfl, rfl, fun _ h => h⟩

theorem Moves.carried {s t : State} (h : Moves s t) : Carried s t :=
  ⟨h.kept.port, h.kept.immediate, h.kept.wait, h.kept.latched⟩

/-- No move touches the books: a charge joins the open statement's entries only. -/
theorem Move.books {s t : State} (m : Move s t) : t.books = s.books := by
  have k := m.kept
  have hcurrent : t.stmt.current.number = s.stmt.current.number ∧ t.stmt.current.firstDay = s.stmt.current.firstDay ∧
      t.stmt.current.missed = s.stmt.current.missed := by
    cases m with
    | plain h => rw [h.current]; exact ⟨rfl, rfl, rfl⟩
    | charge | free | grant => exact ⟨rfl, rfl, rfl⟩
  obtain ⟨hn, hf, hm⟩ := hcurrent
  exact Books.ext k.cal k.events k.deadlines k.entries k.options k.closed hn hf hm

theorem Moves.books {s t : State} (h : Moves s t) : t.books = s.books := by
  induction h with
  | refl => rfl
  | tail _ m ih => exact m.books.trans ih

namespace State

theorem latch_getLsbD (s : State) (e : Event) (i : Nat) (h : s.req.latched.getLsbD i = true) :
    (s.latch e).req.latched.getLsbD i = true := by simp [latch, h]

theorem latch_bit (s : State) (e : Event) : (s.latch e).req.latched.getLsbD e.bit = true := by
  have : e.bit < 32 := by cases e <;> decide
  simp [latch, bitWord, this]

theorem carried_latch (s : State) (e : Event) : Carried s (s.latch e) := ⟨rfl, rfl, rfl, s.latch_getLsbD e⟩

theorem carried_answerEntry (s : State) (k : U8) (c : Code) : Carried s (s.answerEntry k c) := by
  unfold answerEntry
  split
  · exact .refl s
  · exact ⟨rfl, rfl, rfl, fun _ h => h⟩

theorem carried_changeMode (s : State) (m : Mode) : Carried s (s.changeMode m) :=
  Carried.trans (t := { s with req := { s.req with mode := m } }) ⟨rfl, rfl, rfl, fun _ h => h⟩ (carried_latch _ _)

theorem answerEntry_books (s : State) (k : U8) (c : Code) : (s.answerEntry k c).books = s.books := by
  unfold answerEntry
  split <;> rfl

theorem carried_completeEntry (s : State) : Carried s s.completeEntry := by
  unfold completeEntry
  split
  · exact (s.carried_changeMode .setup).trans ((carried_answerEntry _ _ _).trans (Moves.of (.push _ _)).carried)
  · exact (s.carried_changeMode .standby).trans (carried_answerEntry _ _ _)
  all_goals exact .refl s

theorem completeEntry_books (s : State) : s.completeEntry.books = s.books := by
  unfold completeEntry
  split
  · exact answerEntry_books (s.changeMode .setup) _ _
  · exact answerEntry_books (s.changeMode .standby) _ _
  all_goals rfl

/-- Every change ends with a close, of a state that has what the change has made so far. -/
theorem endChange_closes (s : State) : ∃ u, s.endChange = u.close ∧ Carried s u ∧ u.books = s.books := by
  unfold endChange
  split
  · refine ⟨_, rfl, s.moves_settled.carried.trans ((carried_completeEntry _).trans (moves_settled _).carried), ?_⟩
    rw [(moves_settled _).books, completeEntry_books, s.moves_settled.books]
  · exact ⟨_, rfl, s.moves_settled.carried, s.moves_settled.books⟩

theorem close_books (s : State) : s.close.books = s.books := by
  unfold close send endWait
  split <;> rfl

/-- The end of a change keeps the books. -/
theorem endChange_books (s : State) : s.endChange.books = s.books := by
  obtain ⟨u, he, -, hb⟩ := s.endChange_closes
  rw [he, close_books, hb]

theorem due_books {happens : State → Bool} {body : State → State} (hb : ∀ u : State, (body u).books = u.books) (s : State) :
    (s.due happens body).books = s.books := by
  unfold due
  split
  · rw [endChange_books, hb]
  · rfl

theorem handedOff_books (s : State) : s.handedOff.books = s.books := due_books (fun u => u.moves_handStaged.books) s

theorem close_mode (s : State) : s.close.req.mode = s.req.mode := by
  unfold close send endWait
  split <;> rfl

end State

/-! ### The first reply -/

theorem MessagePort.outbound_puts (l : List Frame) (p : MessagePort) : p.outbound <+: (l.foldl MessagePort.put p).outbound := by
  induction l generalizing p with
  | nil => exact List.prefix_refl _
  | cons f l ih =>
    refine List.IsPrefix.trans ?_ (ih (p.put f))
    unfold MessagePort.put
    split
    · exact List.prefix_append _ _
    · exact List.prefix_refl _

/-- The first frame that joins a port with room is the next in its outbound queue. -/
theorem MessagePort.first_put {p : MessagePort} (hw : p.waiting = []) (ho : p.outbound.length < 8) (f : Frame) (l : List Frame) :
    ((f :: l).foldl MessagePort.put p).outbound[p.outbound.length]? = some f := by
  have hpre := MessagePort.outbound_puts l (p.put f)
  rw [State.put_of_room f hw ho] at hpre
  rw [List.foldl_cons, State.put_of_room f hw ho]
  obtain ⟨rest, hrest⟩ := hpre
  rw [← hrest]
  simp

namespace State

theorem close_outbound (s : State) : s.close.port = s.frames.foldl MessagePort.put s.port := by
  unfold close send endWait
  split <;> rfl

/-- The immediate reply of a change is the first frame it sends (R176). -/
theorem firstSent_endChange {s u : State} {f : Frame} (hw : s.port.waiting = []) (ho : s.port.outbound.length < 8)
    (hp : u.port.outbound = s.port.outbound) (hpw : u.port.waiting = s.port.waiting) (hf : u.formed.immediate = some f) :
    FirstSent s u.endChange f := by
  obtain ⟨v, he, hv, -⟩ := u.endChange_closes
  have hframes : ∃ l, v.frames = f :: l := by
    unfold frames
    rw [hv.immediate, hf]
    simp only [Option.toList_some, List.append_assoc, List.singleton_append]
    exact ⟨_, rfl⟩
  obtain ⟨l, hl⟩ := hframes
  rw [FirstSent, he, close_outbound, hl, hv.port, ← hp]
  exact MessagePort.first_put (hpw.trans hw) (by rw [hp]; exact ho) f l

/-! ### The events latched -/

/-- An event latched in a change is latched behind it, unless the WAIT has ended with it (R193). -/
theorem raised_close {s u : State} {e : Event} (hw : u.req.wait = s.req.wait) (hl : u.req.latched.getLsbD e.bit = true) :
    Raised s u.close e := by
  have hbit : e.bit < 32 := by cases e <;> decide
  unfold Raised close
  show (u.disarm.endWait.req.latched.getLsbD e.bit = true) ∨ u.disarm.endWait.req.wait = none ∧ _
  unfold endWait
  split
  · exact .inl hl
  · next w hm =>
    by_cases hmask : w.mask.getLsbD e.bit = true
    · have hwait : u.req.wait = some w := (Option.filter_eq_some_iff.1 hm).1
      exact .inr ⟨rfl, by rw [← hw, hwait]; exact hmask⟩
    · have hlatched : u.disarm.req.latched.getLsbD e.bit = true := hl
      have hmask : w.mask.getLsbD e.bit = false := by simpa using hmask
      refine .inl ?_
      simp only [BitVec.getLsbD_and, BitVec.getLsbD_not, hlatched, hmask, hbit, decide_true, Bool.not_false, Bool.and_self]

theorem raised_endChange {s u : State} {e : Event} (hw : u.req.wait = s.req.wait) (hl : u.req.latched.getLsbD e.bit = true) :
    Raised s u.endChange e := by
  obtain ⟨v, he, hv, -⟩ := u.endChange_closes
  rw [he]
  exact raised_close (hv.wait.trans hw) (hv.latched _ hl)

end State

end Sys2Proof.Machine
end

section
/-! What the calendar's three events do: the deadlines that fire, the holds that run out, the statement that closes. -/

namespace Sys2Proof.Machine

/-- What the work of a calendar event leaves beside its own blocks; the mode too, in a part that is awake. -/
structure Worked (s t : State) : Prop extends Carried s t where
  mode : t.req.mode = s.req.mode

theorem Worked.trans {s t u : State} (h : Worked s t) (k : Worked t u) : Worked s u :=
  ⟨h.toCarried.trans k.toCarried, k.mode.trans h.mode⟩

theorem Worked.refl (s : State) : Worked s s := ⟨.refl s, rfl⟩

theorem Moves.worked {s t : State} (h : Moves s t) : Worked s t := ⟨h.carried, h.kept.mode⟩

namespace State

theorem raised?_of_running {s : State} (h : s.cal.state = .running) {α : Type} (mark : DueEvents → Option α) :
    s.raised? mark = mark s.events := by simp [raised?, h]

/-! ### The minute event (R34, R38) -/

/-- The minute event's mark taken off. -/
def minuteTaken (s : State) : State := { s with events := { s.events with minute := none } }

theorem takeMinute_of_some {s : State} {now : Nat} (hc : s.cal.state = .running) (he : s.events.minute = some now) :
    s.takeMinute = (fireDeadlines now s.deadlines s.minuteTaken).raiseWarnings now := by
  simp only [takeMinute, raised?_of_running hc, he]
  rfl

theorem takeMinute_of_none {s : State} (he : s.events.minute = none) : s.takeMinute = s := by
  simp only [takeMinute, raised?_of_none he]

theorem worked_beginClose (s : State) (slot : Nat) (forced : Bool) : Worked s (s.beginClose slot forced) :=
  ⟨⟨rfl, rfl, rfl, fun _ h => h⟩, rfl⟩

/-- Deadlines that fire change of the books the list alone. -/
theorem fireDeadlines_work (now : Nat) : ∀ (l : List Nat) (s : State), Worked s (fireDeadlines now l s) ∧
    (fireDeadlines now l s).books = { s.books with deadlines := (fireDeadlines now l s).deadlines }
  | [], s => ⟨.refl s, rfl⟩
  | slot :: rest, s => by
    unfold fireDeadlines
    split
    · obtain ⟨hw, hb⟩ := fireDeadlines_work now rest (s.beginClose slot true)
      exact ⟨(s.worked_beginClose slot true).trans hw, hb⟩
    · exact ⟨.refl s, rfl⟩

theorem edition?_beginClose (s : State) (slot x : Nat) (forced : Bool) : (s.beginClose slot forced).cat.edition? x =
    if slot = x then (s.cat.edition? x).map fun e => { e with state := .closing, forced := forced, deadline := none }
    else s.cat.edition? x := Catalogue.edition?_withEdition _ _ _ _

theorem deadlineOf_beginClose (s : State) {slot x : Nat} (forced : Bool) (h : slot ≠ x) :
    (s.beginClose slot forced).cat.deadlineOf x = s.cat.deadlineOf x := by
  simp only [Catalogue.deadlineOf, edition?_beginClose, if_neg h]

/-- The slot's deadline is at or before now. -/
def deadlineDue (s : State) (now slot : Nat) : Bool := (s.cat.deadlineOf slot).any fun d => decide (d ≤ now)

/-- The slots given begin their forced close, in order. -/
def forceClose (l : List Nat) (s : State) : State := l.foldl (fun t slot => t.beginClose slot true) s

theorem takeWhile_congr {α : Type} {p q : α → Bool} : ∀ {l : List α}, (∀ x ∈ l, p x = q x) → l.takeWhile p = l.takeWhile q
  | [], _ => rfl
  | x :: l, h => by
    have ih : l.takeWhile p = l.takeWhile q := takeWhile_congr fun y hy => h y (List.mem_cons_of_mem x hy)
    rw [List.takeWhile_cons, List.takeWhile_cons, h x List.mem_cons_self, ih]

/-- In a list without duplicates, a deadline that fires leaves those behind it: the due heads fire. -/
theorem fireDeadlines_eq (now : Nat) : ∀ (l : List Nat) (s : State), l.Nodup →
    fireDeadlines now l s = forceClose (l.takeWhile (s.deadlineDue now)) s
  | [], _, _ => rfl
  | slot :: rest, s, h => by
    obtain ⟨hslot, hrest⟩ := List.nodup_cons.1 h
    by_cases hd : s.deadlineDue now slot = true
    · have hsame : rest.takeWhile ((s.beginClose slot true).deadlineDue now) = rest.takeWhile (s.deadlineDue now) :=
        takeWhile_congr fun x hx => by
          simp only [deadlineDue, s.deadlineOf_beginClose true fun e : slot = x => hslot (e ▸ hx)]
      rw [List.takeWhile_cons_of_pos hd, ← hsame]
      exact (if_pos hd).trans (fireDeadlines_eq now rest _ hrest)
    · rw [List.takeWhile_cons_of_neg hd]
      exact if_neg hd

theorem forceClose_deadlines : ∀ (l : List Nat) (s : State),
    (forceClose l s).deadlines = s.deadlines.filter fun x => !l.contains x
  | [], s => by simp [forceClose]
  | slot :: l, s => by
    have := forceClose_deadlines l (s.beginClose slot true)
    simp only [forceClose, List.foldl_cons] at this ⊢
    rw [this]
    simp only [beginClose, push_deadlines, withCat_deadlines, List.filter_filter]
    refine List.filter_congr fun x _ => ?_
    by_cases hx : x = slot <;> simp [hx]

theorem filter_not_takeWhile {l : List Nat} {p : Nat → Bool} (h : l.Nodup) :
    (l.filter fun x => !(l.takeWhile p).contains x) = l.dropWhile p := by
  have hsplit := List.takeWhile_append_dropWhile (p := p) (l := l)
  have hdisj := (List.nodup_append'.1 (hsplit.symm ▸ h)).2.2
  have hfired : ((l.takeWhile p).filter fun x => !(l.takeWhile p).contains x) = [] := by
    simp [List.filter_eq_nil_iff]
  have hleft : ((l.dropWhile p).filter fun x => !(l.takeWhile p).contains x) = l.dropWhile p := by
    refine List.filter_eq_self.2 fun x hx => ?_
    have : x ∉ l.takeWhile p := fun hm => hdisj hm hx
    simpa using this
  calc (l.filter fun x => !(l.takeWhile p).contains x)
      = ((l.takeWhile p ++ l.dropWhile p).filter fun x => !(l.takeWhile p).contains x) := by rw [hsplit]
    _ = l.dropWhile p := by rw [List.filter_append, hfired, hleft, List.nil_append]

/-- The fired deadlines leave the list (R38). -/
theorem fireDeadlines_deadlines {s : State} {now : Nat} (h : s.deadlines.Nodup) :
    (fireDeadlines now s.deadlines s.minuteTaken).deadlines = s.deadlines.dropWhile (s.deadlineDue now) := by
  rw [fireDeadlines_eq now _ _ h, forceClose_deadlines]
  exact filter_not_takeWhile h

/-- A minute event changes of the books its mark and the deadline list. -/
theorem takeMinute_work {s : State} (hc : s.cal.state = .running) : Worked s s.takeMinute ∧
    s.takeMinute.books = { s.books with events := { s.events with minute := none }, deadlines := s.takeMinute.deadlines } ∧
    ∀ now, s.events.minute = some now → s.deadlines.Nodup → s.takeMinute.deadlines = s.deadlines.dropWhile (s.deadlineDue now) := by
  cases he : s.events.minute with
  | none =>
    rw [takeMinute_of_none he, ← he]
    exact ⟨.refl s, rfl, fun now hn => by simp [he] at hn⟩
  | some now =>
    rw [takeMinute_of_some hc he]
    have hm := moves_raiseWarnings (fireDeadlines now s.deadlines s.minuteTaken) now
    obtain ⟨hw, hb⟩ := fireDeadlines_work now s.deadlines s.minuteTaken
    have hstart : Worked s s.minuteTaken := ⟨⟨rfl, rfl, rfl, fun _ h => h⟩, rfl⟩
    refine ⟨hstart.trans (hw.trans hm.worked), ?_, fun n hn hnodup => ?_⟩
    · rw [hm.books, hm.kept.deadlines, hb]
      rfl
    · cases hn
      rw [hm.kept.deadlines]
      exact fireDeadlines_deadlines hnodup

/-! ### The day rollover (R35, R123) -/

/-- The rollover's mark taken off. -/
def rolloverTaken (s : State) : State := { s with events := { s.events with rollover := none } }

theorem takeRollover_of_some {s : State} {day : Nat} (hc : s.cal.state = .running) (he : s.events.rollover = some day) :
    s.takeRollover = (s.rolloverTaken.expireHolds day).sweepOrphans day := by
  simp only [takeRollover, raised?_of_running hc, he]
  rfl

theorem takeRollover_of_none {s : State} (he : s.events.rollover = none) : s.takeRollover = s := by
  simp only [takeRollover, raised?_of_none he]

end State

/-- A hold that has not run out stands on the new day. -/
theorem Hold.not_expired_eq (h : Hold) (day : Nat) : (!h.expired day) = h.untilDay.all fun d => decide (day ≤ d) := by
  cases hd : h.untilDay with
  | none => simp [Hold.expired, hd]
  | some d =>
    simp only [Hold.expired, hd, Option.any_some, Option.all_some]
    rw [← decide_not, decide_eq_decide, not_lt]

namespace State

/-- The holds that stand on the new day (R123). -/
def standingHolds (s : State) (day : Nat) : List Hold := s.hold.entries.filter fun h => h.untilDay.all fun d => decide (day ≤ d)

/-- The state with the expired holds removed. -/
def holdsExpired (s : State) (day : Nat) : State := { s with hold := { s.hold with entries := s.standingHolds day } }

theorem expireHolds_of_any {s : State} {day : Nat} (h : (s.hold.entries.any fun h => h.expired day) = true) :
    s.expireHolds day = (reevaluate s.hold.held (s.holdsExpired day)).1 := by
  unfold expireHolds holdsExpired standingHolds
  rw [if_pos h]
  simp only [Hold.not_expired_eq]

theorem standingHolds_of_none {s : State} {day : Nat} (h : ¬(s.hold.entries.any fun h => h.expired day) = true) :
    s.standingHolds day = s.hold.entries := by
  refine List.filter_eq_self.2 fun x hx => ?_
  rw [← Hold.not_expired_eq]
  simp only [List.any_eq_true, not_exists, not_and, Bool.not_eq_true] at h
  rw [h x hx]
  rfl

theorem expireHolds_work (s : State) (day : Nat) :
    Worked s (s.expireHolds day) ∧ (s.expireHolds day).books = { s.books with entries := s.standingHolds day } := by
  by_cases h : (s.hold.entries.any fun h => h.expired day) = true
  · rw [expireHolds_of_any h]
    have hm := moves_reevaluate s.hold.held (s.holdsExpired day)
    have hstart : Worked s (s.holdsExpired day) := ⟨⟨rfl, rfl, rfl, fun _ h => h⟩, rfl⟩
    refine ⟨hstart.trans hm.worked, ?_⟩
    rw [hm.books]
    rfl
  · rw [standingHolds_of_none h, expireHolds, if_neg h]
    exact ⟨.refl s, rfl⟩

theorem worked_sweepOrphans (s : State) (day : Nat) : Worked s (s.sweepOrphans day) := ⟨⟨rfl, rfl, rfl, fun _ h => h⟩, rfl⟩

/-- A day rollover changes of the books its mark and the holds. -/
theorem takeRollover_work {s : State} (hc : s.cal.state = .running) : Worked s s.takeRollover ∧
    s.takeRollover.books = { s.books with events := { s.events with rollover := none }, entries := s.takeRollover.hold.entries } ∧
    ∀ day, s.events.rollover = some day → s.takeRollover.hold.entries = s.standingHolds day := by
  cases he : s.events.rollover with
  | none =>
    rw [takeRollover_of_none he, ← he]
    exact ⟨.refl s, rfl, fun day hd => by simp [he] at hd⟩
  | some day =>
    rw [takeRollover_of_some hc he]
    obtain ⟨hw, hb⟩ := expireHolds_work s.rolloverTaken day
    have hstart : Worked s s.rolloverTaken := ⟨⟨rfl, rfl, rfl, fun _ h => h⟩, rfl⟩
    have hentries : ((s.rolloverTaken.expireHolds day).sweepOrphans day).hold.entries = s.standingHolds day :=
      congrArg Books.entries hb
    refine ⟨hstart.trans (hw.trans (worked_sweepOrphans _ day)), ?_, fun d hd => ?_⟩
    · rw [hentries]
      exact hb
    · cases hd
      exact hentries

/-! ### The trade-day boundary (R36, R167) -/

/-- The boundary's mark taken off. -/
def boundaryTaken (s : State) : State := { s with events := { s.events with boundary := none } }

theorem takeBoundary_of_some {s : State} {day : Nat} (hc : s.cal.state = .running) (he : s.events.boundary = some day) :
    s.takeBoundary = s.boundaryTaken.wake.boundaryStatement.retentionSweep day := by
  simp only [takeBoundary, raised?_of_running hc, he]
  rfl

theorem takeBoundary_of_none {s : State} (he : s.events.boundary = none) : s.takeBoundary = s := by
  simp only [takeBoundary, raised?_of_none he]

theorem wake_of_awake {s : State} (h : s.Awake) : s.wake = s := by
  have h : (s.req.mode == Mode.standby) = false := by simpa using h
  simp [wake, h]

/-- With room for a closed statement the open one closes (R166, R167). -/
theorem boundaryStatement_closes {s : State} (h : s.stmt.closed.length < 2) : Worked s s.boundaryStatement ∧
    s.boundaryStatement.req.latched.getLsbD Event.statementClosed.bit = true ∧
    s.boundaryStatement.books = { s.books with
      closed := s.stmt.closed ++ [s.stmt.current.closedAs s.cal.day 1]
      number := nextStatement s.stmt.current.number, firstDay := s.cal.day, missed := 0 } := by
  unfold boundaryStatement closeOpenStatement
  rw [if_pos h]
  dsimp only
  have hm := moves_retryRoom (latch { s with stmt := s.stmt.turnOver s.cal.day 1 } .statementClosed).stmt.held
    (latch { s with stmt := s.stmt.turnOver s.cal.day 1 } .statementClosed)
  have hstart : Worked s (latch { s with stmt := s.stmt.turnOver s.cal.day 1 } .statementClosed) :=
    ⟨⟨rfl, rfl, rfl, s.latch_getLsbD _⟩, rfl⟩
  refine ⟨hstart.trans hm.worked, hm.kept.latched _ (latch_bit _ _), ?_⟩
  rw [hm.books]
  rfl

/-- With no room the boundary is missed (R167). -/
theorem boundaryStatement_missed {s : State} (h : 2 ≤ s.stmt.closed.length) : Worked s s.boundaryStatement ∧
    s.boundaryStatement.books = { s.books with missed := min 65535 (s.stmt.current.missed + 1) } := by
  have : ¬s.stmt.closed.length < Config.closedStatements := Nat.not_lt.2 h
  unfold boundaryStatement
  rw [if_neg this]
  exact ⟨⟨⟨rfl, rfl, rfl, fun _ h => h⟩, rfl⟩, rfl⟩

/-- The statement buffer at a boundary changes of the books the statements alone. -/
theorem boundaryStatement_work (s : State) : Worked s s.boundaryStatement ∧
    s.boundaryStatement.books = { s.books with
      closed := s.boundaryStatement.books.closed, number := s.boundaryStatement.books.number
      firstDay := s.boundaryStatement.books.firstDay, missed := s.boundaryStatement.books.missed } ∧
    (s.boundaryStatement.req.latched.getLsbD Event.statementClosed.bit = true ∨ 2 ≤ s.stmt.closed.length) := by
  by_cases h : s.stmt.closed.length < 2
  · obtain ⟨hw, hl, hb⟩ := boundaryStatement_closes h
    refine ⟨hw, ?_, .inl hl⟩
    rw [hb]
  · obtain ⟨hw, hb⟩ := boundaryStatement_missed (Nat.not_lt.1 h)
    refine ⟨hw, ?_, .inr (Nat.not_lt.1 h)⟩
    rw [hb]

/-- A boundary changes of the books its mark and the statements. -/
theorem takeBoundary_work {s : State} (hc : s.cal.state = .running) (ha : s.Awake) : Worked s s.takeBoundary ∧
    s.takeBoundary.books = { s.books with
      events := { s.events with boundary := none }
      closed := s.takeBoundary.books.closed, number := s.takeBoundary.books.number
      firstDay := s.takeBoundary.books.firstDay, missed := s.takeBoundary.books.missed } ∧
    ∀ day, s.events.boundary = some day →
      s.takeBoundary.req.latched.getLsbD Event.statementClosed.bit = true ∨ 2 ≤ s.stmt.closed.length := by
  cases he : s.events.boundary with
  | none =>
    rw [takeBoundary_of_none he, ← he]
    exact ⟨.refl s, rfl, fun day hd => by simp [he] at hd⟩
  | some day =>
    rw [takeBoundary_of_some hc he, wake_of_awake (s := s.boundaryTaken) ha]
    obtain ⟨hw, hb, hl⟩ := boundaryStatement_work s.boundaryTaken
    have hm := moves_retentionSweep s.boundaryTaken.boundaryStatement day
    have hstart : Worked s s.boundaryTaken := ⟨⟨rfl, rfl, rfl, fun _ h => h⟩, rfl⟩
    refine ⟨hstart.trans (hw.trans hm.worked), ?_, fun d hd => hl.imp_left (hm.kept.latched _)⟩
    rw [hm.books]
    exact hb

end State

end Sys2Proof.Machine
end

section
/-! The calendar's requests: SET TIME, RUN CALENDAR, STOP CALENDAR and READ TIME (O24). -/

namespace Sys2Proof.Machine

/-! ### SET TIME and RUN CALENDAR (R29, R30) -/

/-- Nothing that is tested at the end of a change reads the calendar. -/
theorem State.Calm.withCal {s : State} (h : s.Calm) (c : Calendar) : State.Calm { s with cal := c } := h

theorem exec_setTime {s : State} {tag sec min hour : U8} {day : U16} (h : s.Ready (.setTime tag sec min hour day)) :
    exec (.setTime tag sec min hour day) s = .next
      (if s.cal.state = .running then s.replied 0x30 tag .calendarRunning []
      else if 59 < sec.toNat ∨ 59 < min.toNat ∨ 23 < hour.toNat then s.replied 0x30 tag .outOfRange []
      else State.replied { s with cal := ⟨.stopped, 0, sec.toNat, min.toNat, hour.toNat, day.toNat⟩ } 0x30 tag .ok []) := by
  have hcal : s.popped.cal = s.cal := rfl
  split_ifs with hr ho
  · exact request_replies h (if_pos (by simp [hcal, hr]))
  · exact request_replies h ((if_neg (by simp [hcal, hr])).trans (if_pos ho))
  · refine request_answers h ?_ (State.Calm.withCal (s := s.popped) h.1.1
      ⟨.stopped, 0, sec.toNat, min.toNat, hour.toNat, day.toNat⟩) rfl rfl
    simp only [State.setTime, hcal, beq_iff_eq, if_neg hr, if_neg ho]

theorem exec_runCalendar {s : State} {tag : U8} (h : s.Ready (.runCalendar tag)) : exec (.runCalendar tag) s = .next
    (if s.cal.state = .invalid then s.replied 0x31 tag .calendarUnset []
    else State.replied { s with cal := { s.cal with state := .running } } 0x31 tag .ok []) := by
  have hcal : s.popped.cal = s.cal := rfl
  split_ifs with hi
  · refine request_replies h ?_
    simp only [State.runCalendar, hcal, hi]
    rfl
  · refine request_answers (u := s.popped.withCalState .running) h ?_ (State.Calm.withCal (s := s.popped) h.1.1 _) rfl rfl
    cases hc : s.cal.state with
    | invalid => exact absurd hc hi
    | stopped | running => simp only [State.runCalendar, hcal, hc]

/-! ### STOP CALENDAR (R31) -/

theorem exec_stopCalendar_invalid {s : State} {tag : U8} (h : s.Ready (.stopCalendar tag)) (hi : s.cal.state = .invalid) :
    exec (.stopCalendar tag) s = .next (s.replied 0x32 tag .calendarUnset []) := by
  refine request_replies h ?_
  have hcal : s.popped.cal.state = .invalid := hi
  simp only [State.stopCalendar, hcal]
  rfl

namespace State

theorem stopCalendar_running {s : State} (h : s.cal.state = .running) (tag : U8) :
    s.stopCalendar tag = (s.takeRaised.withCalState .stopped).answer 0x32 tag .ok [] := by simp only [stopCalendar, h]

/-- With no event left there is nothing to take before the calendar stops. -/
theorem takeRaised_of_none {s : State} (ha : s.agenda = []) (he : s.events = ⟨none, none, none⟩) : s.takeRaised = s := by
  have hs := settled_of_nil ha
  unfold takeRaised
  rw [takeMinute_of_none (by rw [he]), hs, takeRollover_of_none (by rw [he]), hs, takeBoundary_of_none (by rw [he]), hs]

end State

theorem exec_stopCalendar_quiet {s : State} {tag : U8} (h : s.Ready (.stopCalendar tag)) (hi : s.cal.state ≠ .invalid)
    (hq : s.cal.state = .stopped ∨ s.events = ⟨none, none, none⟩) : exec (.stopCalendar tag) s =
      .next (State.replied { s with cal := { s.cal with state := .stopped } } 0x32 tag .ok []) := by
  refine request_answers (u := s.popped.withCalState .stopped) h ?_ (State.Calm.withCal (s := s.popped) h.1.1 _) rfl rfl
  have hcal : s.popped.cal = s.cal := rfl
  cases hc : s.cal.state with
  | invalid => exact absurd hc hi
  | stopped =>
    have hstop : ({ s.cal with state := .stopped } : Calendar) = s.cal := by rw [← hc]
    have hsame : s.popped.withCalState .stopped = s.popped := by
      rw [State.withCalState, hcal, hstop]
      rfl
    rw [hsame]
    simp only [State.stopCalendar, hcal, hc]
  | running =>
    have he : s.events = ⟨none, none, none⟩ := hq.resolve_left (by simp [hc])
    rw [State.stopCalendar_running (s := s.popped) hc, State.takeRaised_of_none (s := s.popped) h.1.1.1 he]

namespace State

/-- What STOP CALENDAR takes before it stops a RUNNING calendar: all three events, each with its work (R31, R33; log 8). -/
theorem takeRaised_work {s : State} (hc : s.cal.state = .running) (ha : s.Awake) :
    Carried s s.takeRaised ∧ s.takeRaised.cal = s.cal ∧ s.takeRaised.events = ⟨none, none, none⟩ ∧
      (∀ now, s.events.minute = some now → s.deadlines.Nodup →
        s.takeRaised.deadlines = s.deadlines.dropWhile (s.deadlineDue now)) ∧
      (∀ day, s.events.rollover = some day → s.takeRaised.hold.entries = s.standingHolds day) ∧
      ∀ day, s.events.boundary = some day →
        s.takeRaised.req.latched.getLsbD Event.statementClosed.bit = true ∨ 2 ≤ s.stmt.closed.length := by
  have hm1 := s.takeMinute.moves_settled
  obtain ⟨hw1, hb1, hd1⟩ := takeMinute_work hc
  generalize hu1 : s.takeMinute.settled = u1 at hm1
  have hk1 := hw1.trans hm1.worked
  have hbooks1 := hm1.books.trans hb1
  have hc1 : u1.cal.state = .running := (congrArg (fun b => b.cal.state) hbooks1).trans hc
  have hm2 := u1.takeRollover.moves_settled
  obtain ⟨hw2, hb2, hd2⟩ := takeRollover_work hc1
  generalize hu2 : u1.takeRollover.settled = u2 at hm2
  have hk2 := hw2.trans hm2.worked
  have hbooks2 := (hm2.books.trans hb2).trans (by rw [hbooks1])
  have hc2 : u2.cal.state = .running := (congrArg (fun b => b.cal.state) hbooks2).trans hc
  have ha2 : u2.Awake := by rw [State.Awake, hk2.mode, hk1.mode]; exact ha
  have hm3 := u2.takeBoundary.moves_settled
  obtain ⟨hw3, hb3, hd3⟩ := takeBoundary_work hc2 ha2
  have hbooks3 := (hm3.books.trans hb3).trans (by rw [hbooks2])
  have he1 : u1.events = { s.events with minute := none } := congrArg Books.events hbooks1
  have he2 : u2.events = { u1.events with rollover := none } := congrArg Books.events hbooks2
  have htaken : s.takeRaised = u2.takeBoundary.settled := by rw [takeRaised, hu1, hu2]
  rw [htaken]
  refine ⟨(hk1.trans (hk2.trans (hw3.trans hm3.worked))).toCarried, congrArg Books.cal hbooks3, ?_, ?_, ?_, ?_⟩
  · have he3 : u2.takeBoundary.settled.events = { u2.events with boundary := none } := congrArg Books.events hbooks3
    rw [he3, he2, he1]
  · exact fun now hn hnodup => (congrArg Books.deadlines hbooks3).trans (hd1 now hn hnodup)
  · intro day hday
    have hentries : u1.hold.entries = s.hold.entries := congrArg Books.entries hbooks1
    have hroll : u1.events.rollover = some day := by rw [he1]; exact hday
    refine ((congrArg Books.entries hbooks3).trans (hd2 day hroll)).trans ?_
    rw [standingHolds, hentries]
    rfl
  · intro day hday
    have hclosed : u2.stmt.closed = s.stmt.closed := congrArg Books.closed hbooks2
    have hbound : u2.events.boundary = some day := by rw [he2, he1]; exact hday
    exact (hd3 day hbound).imp (hm3.kept.latched _) (hclosed ▸ ·)

end State

theorem exec_stopCalendar_running {s : State} {tag : U8} (h : s.Ready (.stopCalendar tag)) (hc : s.cal.state = .running) :
    ∃ t, exec (.stopCalendar tag) s = .next t ∧ t.cal = { s.cal with state := .stopped } ∧
      t.events = ⟨none, none, none⟩ ∧ FirstSent s t (s.replyFrame 0x32 tag .ok []) ∧
      (∀ now, s.events.minute = some now → s.deadlines.Nodup → t.deadlines = s.deadlines.dropWhile (s.deadlineDue now)) ∧
      (∀ day, s.events.rollover = some day → t.hold.entries = s.standingHolds day) ∧
      ∀ day, s.events.boundary = some day → Raised s t .statementClosed ∨ 2 ≤ s.stmt.closed.length := by
  obtain ⟨⟨-, hawake, htakes⟩, hunstaged⟩ := h
  obtain ⟨-, hroom, hwaiting⟩ := State.takes_port htakes
  have hexec := request_taken (body := fun u => u.stopCalendar tag) htakes hunstaged
  rw [State.take_of_awake hawake, State.stopCalendar_running (s := s.popped) hc] at hexec
  obtain ⟨hk, hcal, hev, hdl, hho, hst⟩ := State.takeRaised_work (s := s.popped) hc hawake
  generalize hu : s.popped.takeRaised = u at *
  have hout : u.port.outbound = s.port.outbound := by rw [hk.port]; rfl
  have hwait : u.port.waiting = s.port.waiting := by rw [hk.port]; rfl
  have hbooks := ((u.withCalState .stopped).answer 0x32 tag .ok []).endChange_books
  have hreply : u.replyFrame 0x32 tag .ok [] = s.replyFrame 0x32 tag .ok [] := by
    simp only [State.replyFrame, State.frame, hk.port]
    rfl
  refine ⟨_, hexec, (congrArg Books.cal hbooks).trans ?_, (congrArg Books.events hbooks).trans hev, ?_,
    fun now hn hnodup => (congrArg Books.deadlines hbooks).trans (hdl now hn hnodup),
    fun day hd => (congrArg Books.entries hbooks).trans (hho day hd), fun day hd => ?_⟩
  · show ({ u.cal with state := .stopped } : Calendar) = _
    rw [hcal]
    rfl
  · exact State.firstSent_endChange hwaiting hroom hout hwait (congrArg some hreply)
  · exact (hst day hd).imp_left fun hl => State.raised_endChange hk.wait hl

/-! ### READ TIME (R32) -/

theorem State.wake_books (s : State) : s.wake.books = s.books := by
  unfold wake
  split
  · exact (moves_settled _).books
  · rfl

theorem State.carried_wake (s : State) : Carried s s.wake := by
  unfold wake
  split
  · refine Carried.trans (t := push (latch { s with req := { s.req with mode := .service } } .woken) .sealTest)
      ⟨rfl, rfl, rfl, s.latch_getLsbD _⟩ (moves_settled _).carried
  · exact .refl s

/-- The hand-off behind a reply only adds to the frames sent. -/
theorem State.outbound_handAtOnce (s : State) : s.port.outbound <+: s.handAtOnce.port.outbound := by
  unfold handAtOnce handedOff due
  split_ifs
  · exact List.prefix_refl _
  · obtain ⟨u, he, hu, -⟩ := s.handStaged.endChange_closes
    rw [he, close_outbound, hu.port, s.moves_handStaged.carried.port]
    exact MessagePort.outbound_puts _ _
  · exact List.prefix_refl _

theorem State.handAtOnce_books (s : State) : s.handAtOnce.books = s.books := by
  unfold handAtOnce
  split
  · rfl
  · exact s.handedOff_books

theorem exec_readTime {s : State} {tag : U8} (h : s.takes (.readTime tag) = true) :
    ∃ t, exec (.readTime tag) s = .next t ∧ t.cal = s.cal ∧ FirstSent s t (s.replyFrame 0x33 tag .ok (timeFields s.cal)) ∧
      (s.Calm → s.Awake → t = s.reported 0x33 tag .ok (timeFields s.cal)) := by
  obtain ⟨-, hroom, hwaiting⟩ := State.takes_port h
  have hexec := query_taken (body := fun u => u.answer 0x33 tag .ok (timeFields u.cal)) h
  have hk : Carried s.popped s.take := s.popped.carried_wake
  have hcal : s.take.cal = s.cal := congrArg Books.cal s.popped.wake_books
  have hreply : s.take.replyFrame 0x33 tag .ok (timeFields s.take.cal) = s.replyFrame 0x33 tag .ok (timeFields s.cal) := by
    simp only [State.replyFrame, State.frame, hk.port, hcal]
    rfl
  generalize hu : s.take = u at *
  have hout : u.port.outbound = s.port.outbound := by rw [hk.port]; rfl
  have hwait : u.port.waiting = s.port.waiting := by rw [hk.port]; rfl
  refine ⟨_, hexec, ?_, ?_, fun hcalm hawake => ?_⟩
  · have hbooks := (State.handAtOnce_books _).trans (u.answer 0x33 tag .ok (timeFields u.cal)).endChange_books
    exact (congrArg Books.cal hbooks).trans hcal
  · have hfirst := State.firstSent_endChange (s := s) (u := u.answer 0x33 tag .ok (timeFields u.cal)) hwaiting hroom
      hout hwait (congrArg some hreply)
    obtain ⟨rest, hrest⟩ := State.outbound_handAtOnce (u.answer 0x33 tag .ok (timeFields u.cal)).endChange
    rw [FirstSent, ← hrest, List.getElem?_append_left (List.getElem?_eq_some_iff.1 hfirst).1]
    exact hfirst
  · have hq : exec (.readTime tag) s = .next (s.reported 0x33 tag .ok (timeFields s.cal)) :=
      query_replies (body := fun u => u.answer 0x33 tag .ok (timeFields u.cal)) ⟨hcalm, hawake, h⟩ rfl
    exact Host.Outcome.next.inj (hexec.symm.trans hq)

/-- While INVALID every field is 0 (R32). -/
theorem timeFields_invalid {c : Calendar} (h : c.Sound) (hi : c.state = .invalid) : timeFields c = [0, 0, 0, 0, 0, 0, 0] := by
  obtain ⟨-, -, -, -, -, hunset⟩ := h
  rw [hunset hi]
  decide

/-- A calendar that is not RUNNING has no event, before and behind the hand-off that is due (R31). -/
theorem event_of_not_running {s : State} {mark : DueEvents → Option Nat} {body : State → State} (h : s.cal.state ≠ .running) :
    event (fun u => (u.raised? mark).isSome) body s = .next s := by
  have hcal : s.handedOff.cal = s.cal := congrArg Books.cal s.handedOff_books
  exact event_absent (by simp [State.raised?, hcal, h])

/-- Settles O24. -/
theorem calendarIsSetRunStoppedAndRead : Obligations.CalendarIsSetRunStoppedAndRead := by
  unfold Obligations.CalendarIsSetRunStoppedAndRead
  refine ⟨⟨fun s tag sec min hour day h => exec_setTime h, fun s tag h => exec_runCalendar h, fun s tag h => ?_, fun s h => ?_⟩,
    fun s tag h => ?_⟩
  · exact ⟨exec_stopCalendar_invalid h, exec_stopCalendar_quiet h, exec_stopCalendar_running h⟩
  · exact ⟨event_of_not_running h, event_of_not_running h, event_of_not_running h⟩
  · exact ⟨exec_readTime h, timeFields_invalid⟩

end Sys2Proof.Machine
end

section
/-! The minute event: the forced closes that it begins and that end in its change, and its warnings (O27). -/

namespace Sys2Proof.Machine

/-! ### The store link takes an operation (R72) -/

theorem StoreLink.held_accept {l : StoreLink} {op : Op} (hd : op.isDiscard = false) :
    op ∈ (l.accept op).held ∧ ∀ x ∈ l.held, x ∈ (l.accept op).held := by
  unfold StoreLink.accept
  simp only [hd, Bool.false_eq_true, if_false]
  split
  · next i hi =>
    obtain ⟨hlt, hfree, -⟩ := List.findIdx?_eq_some_iff_getElem.1 hi
    have hslots (k : Nat) : (l.occupy i op).slots[k]? = if i = k then
        l.slots[k]?.map (fun sl => ⟨(sl.issue + 1) % 65536, some ⟨op, Config.storeTicks⟩⟩) else l.slots[k]? := by
      simp only [StoreLink.occupy, List.getElem?_modify]
      split <;> simp
    refine ⟨StoreLink.mem_held.2 (.inl ⟨⟨(l.slots[i].issue + 1) % 65536, some ⟨op, Config.storeTicks⟩⟩, ?_, rfl⟩), fun x hx => ?_⟩
    · refine List.mem_of_getElem? (i := i) ?_
      rw [hslots, if_pos rfl, List.getElem?_eq_getElem hlt]
      rfl
    · rcases StoreLink.mem_held.1 hx with ⟨sl, hsl, hop⟩ | hwaiting
      · obtain ⟨k, hk⟩ := List.mem_iff_getElem?.1 hsl
        have hik : i ≠ k := by
          rintro rfl
          rw [List.getElem?_eq_getElem hlt] at hk
          cases hk
          rw [Option.isNone_iff_eq_none.1 hfree] at hop
          cases hop
        refine StoreLink.mem_held.2 (.inl ⟨sl, List.mem_of_getElem? (i := k) ?_, hop⟩)
        rw [hslots, if_neg hik, hk]
      · exact StoreLink.mem_held.2 (.inr hwaiting)
  · refine ⟨StoreLink.mem_held.2 (.inr (by simp)), fun x hx => ?_⟩
    rcases StoreLink.mem_held.1 hx with h | h
    · exact StoreLink.mem_held.2 (.inl h)
    · exact StoreLink.mem_held.2 (.inr (by simp [h]))

theorem StoreLink.accept_state {l : StoreLink} (op : Op) : (l.accept op).state = l.state := by
  unfold StoreLink.accept
  dsimp only
  split_ifs <;> split <;> rfl

/-! ### The end of a close (R57, R58) -/

/-- A CLOSED edition, with its gap list and day (R57). -/
def Edition.closedOut (e : Edition) (day : Nat) (gaps : List Nat) : Edition :=
  { e with state := .closed, closedOn := some day, gaps := some gaps }

/-- The mark of a close that ends (R58). -/
def State.markOf (s : State) (slot : Nat) (e : Edition) : Op :=
  .closeMark slot ⟨e.key, e.planned, s.cal.day, s.cat.gapsOf slot e.planned, e.forced, e.failedPages⟩

/-- The event of a close that ends (R57). -/
def Edition.closeEvent (e : Edition) : Event := if e.forced then .deadlineClosed else .editionClosed

theorem Catalogue.inFlight_congr {c d : Catalogue} (h : d.pages = c.pages) (slot : Nat) : d.inFlight slot = c.inFlight slot := by
  simp only [Catalogue.inFlight, Catalogue.pagesOf, h]

theorem Catalogue.gapsOf_congr {c d : Catalogue} (h : d.pages = c.pages) (slot planned : Nat) :
    d.gapsOf slot planned = c.gapsOf slot planned := by simp only [Catalogue.gapsOf, h]

/-- The close of the edition in the slot can end: CLOSING, with no page on its way (R57). -/
abbrev State.Ends (s : State) (slot : Nat) (e : Edition) : Prop := e.state = .closing ∧ s.cat.inFlight slot = 0

namespace State

theorem closeTest_free {s : State} {slot : Nat} (h : s.cat.edition? slot = none) : s.closeTest slot = s := by
  simp only [closeTest, h]

theorem closeTest_stays {s : State} {slot : Nat} {e : Edition} (h : s.cat.edition? slot = some e) (hn : ¬s.Ends slot e) :
    s.closeTest slot = s := by
  simp only [closeTest, h]
  exact if_neg (by simpa [Ends] using hn)

theorem closeTest_ends {s : State} {slot : Nat} {e : Edition} (h : s.cat.edition? slot = some e) (he : s.Ends slot e)
    (ho : s.link.state = .online) :
    s.closeTest slot = latch { s with
      cat := s.cat.withEdition slot fun x => x.closedOut s.cal.day (s.cat.gapsOf slot e.planned)
      link := s.link.accept (s.markOf slot e) } e.closeEvent := by
  have hcond : (e.state == .closing && s.cat.inFlight slot == 0) = true := by simp [he.1, he.2]
  simp only [closeTest, h, hcond, if_true, handOff, withCat_link, ho, Op.isDiscard, Bool.false_and, Bool.false_eq_true, if_false]
  rfl

end State

/-- The closes of the slots given have been tested: those that could end have ended, and nothing else has changed of the catalogue. -/
structure ClosesTested (l : List Nat) (s t : State) : Prop where
  editions : ∀ slot, t.cat.edition? slot = (s.cat.edition? slot).map fun e =>
    if slot ∈ l ∧ s.Ends slot e then e.closedOut s.cal.day (s.cat.gapsOf slot e.planned) else e
  pages : t.cat.pages = s.cat.pages
  photos : t.cat.photos = s.cat.photos
  held : ∀ op ∈ s.link.held, op ∈ t.link.held
  ended : ∀ slot e, slot ∈ l → s.cat.edition? slot = some e → s.Ends slot e →
    t.req.latched.getLsbD e.closeEvent.bit = true ∧ s.markOf slot e ∈ t.link.held

theorem ClosesTested.nil (s : State) : ClosesTested [] s s where
  editions := fun slot => by simp
  pages := rfl
  photos := rfl
  held := fun _ h => h
  ended := by simp

/-- Nothing changes where no close can end. -/
theorem ClosesTested.unchanged {s : State} {slot : Nat} (h : ∀ e, s.cat.edition? slot = some e → ¬s.Ends slot e) :
    ClosesTested [slot] s s where
  editions := fun x => by
    cases hx : s.cat.edition? x with
    | none => rfl
    | some e =>
      have : ¬(x ∈ [slot] ∧ s.Ends x e) := fun ⟨hm, he⟩ => by
        cases List.mem_singleton.1 hm
        exact h e hx he
      simp only [Option.map_some, if_neg this]
  pages := rfl
  photos := rfl
  held := fun _ h => h
  ended := fun x e hm hx he => by
    cases List.mem_singleton.1 hm
    exact absurd he (h e hx)

/-- A close that can end does, while the link is ONLINE. -/
theorem ClosesTested.ends {s : State} {slot : Nat} {e : Edition} (hs : s.cat.edition? slot = some e) (hends : s.Ends slot e)
    (ho : s.link.state = .online) : ClosesTested [slot] s (s.closeTest slot) := by
  obtain ⟨hmark, hheld⟩ := StoreLink.held_accept (l := s.link) (op := s.markOf slot e) rfl
  rw [State.closeTest_ends hs hends ho]
  refine ⟨fun x => ?_, rfl, rfl, hheld, fun x e' hm hx _ => ?_⟩
  · refine (Catalogue.edition?_withEdition _ _ _ _).trans ?_
    by_cases hx : slot = x
    · subst hx
      simp only [hs, if_true, Option.map_some, List.mem_singleton, true_and, if_pos hends]
    · have : ∀ e, ¬(x ∈ [slot] ∧ s.Ends x e) := fun _ hm => hx (List.mem_singleton.1 hm.1).symm
      simp only [if_neg hx, if_neg (this _), Option.map_id']
  · cases List.mem_singleton.1 hm
    cases hs.symm.trans hx
    exact ⟨State.latch_bit _ _, hmark⟩

/-- A close test opens no consequence, where the link is ONLINE or a page is on its way. -/
theorem ClosesTested.closeTest {s : State} {slot : Nat} (h : s.link.state = .online ∨ 0 < s.cat.inFlight slot) :
    ClosesTested [slot] s (s.closeTest slot) ∧ (s.closeTest slot).agenda = s.agenda ∧
      (s.closeTest slot).link.state = s.link.state := by
  cases hs : s.cat.edition? slot with
  | none =>
    rw [State.closeTest_free hs]
    exact ⟨.unchanged fun e he => (nomatch hs.symm.trans he), rfl, rfl⟩
  | some e =>
    by_cases hends : s.Ends slot e
    · have ho : s.link.state = .online := h.resolve_right (by rw [hends.2]; omega)
      refine ⟨.ends hs hends ho, ?_⟩
      rw [State.closeTest_ends hs hends ho]
      exact ⟨rfl, StoreLink.accept_state _⟩
    · rw [State.closeTest_stays hs hends]
      exact ⟨.unchanged fun e' he' => Option.some.inj (hs.symm.trans he') ▸ hends, rfl, rfl⟩

theorem ClosesTested.cons {x : Nat} {l : List Nat} {s u t : State} (h : ClosesTested [x] s u) (k : ClosesTested l u t)
    (hcal : u.cal = s.cal) (hl : ∀ i, u.req.latched.getLsbD i = true → t.req.latched.getLsbD i = true) :
    ClosesTested (x :: l) s t := by
  have hfly (slot : Nat) : u.cat.inFlight slot = s.cat.inFlight slot := Catalogue.inFlight_congr h.pages slot
  have hgaps (slot n : Nat) : u.cat.gapsOf slot n = s.cat.gapsOf slot n := Catalogue.gapsOf_congr h.pages slot n
  refine ⟨fun slot => ?_, k.pages.trans h.pages, k.photos.trans h.photos, fun op hop => k.held op (h.held op hop),
    fun slot e hm he hends => ?_⟩
  · rw [k.editions, h.editions, Option.map_map]
    refine Option.map_congr fun e _ => ?_
    simp only [Function.comp, State.Ends, hfly, hgaps, hcal, List.mem_cons, List.not_mem_nil, or_false]
    by_cases hx : slot = x ∧ e.state = .closing ∧ s.cat.inFlight slot = 0
    · obtain ⟨rfl, hends⟩ := hx
      simp [hends, Edition.closedOut]
    · have hiff : (slot = x ∨ slot ∈ l) ∧ e.state = .closing ∧ s.cat.inFlight slot = 0 ↔
          slot ∈ l ∧ e.state = .closing ∧ s.cat.inFlight slot = 0 := by tauto
      simp only [if_neg hx, hiff]
  · by_cases hx : slot = x
    · subst hx
      obtain ⟨hlatched, hmark⟩ := h.ended slot e (by simp) he hends
      exact ⟨hl _ hlatched, k.held _ hmark⟩
    · have hu : u.cat.edition? slot = some e := by
        rw [h.editions, he]
        simp [hx]
      have hends' : u.Ends slot e := ⟨hends.1, (hfly slot).trans hends.2⟩
      obtain ⟨hlatched, hmark⟩ := k.ended slot e (by simpa [hx] using hm) hu hends'
      refine ⟨hlatched, ?_⟩
      simpa only [State.markOf, hgaps, hcal] using hmark

/-- The close tests of a change, one by one: each leaves the agenda and the link's state to the next. -/
theorem State.settle_closeTests : ∀ (l : List Nat) (n : Nat) (s : State), l.length ≤ n → s.agenda = l.map .closeTest →
    (s.link.state = .online ∨ ∀ slot ∈ l, 0 < s.cat.inFlight slot) → ClosesTested l s (settle n s)
  | [], n, s, _, ha, _ => by
    rw [settle_of_nil n s ha]
    exact .nil s
  | x :: l, 0, s, hn, _, _ => by simp at hn
  | x :: l, n + 1, s, hn, ha, hlink => by
    rw [settle_of_cons n ha]
    generalize hs : ({ s with agenda := l.map .closeTest } : State) = s'
    have hlink' : s'.link.state = .online ∨ ∀ slot ∈ x :: l, 0 < s'.cat.inFlight slot := by rw [← hs]; exact hlink
    obtain ⟨hfirst, hagenda, hstate⟩ := ClosesTested.closeTest (hlink'.imp_right fun h => h x (by simp))
    have hrest : ClosesTested l (s'.closeTest x) (settle n (s'.closeTest x)) := by
      refine settle_closeTests l n _ (by simpa using hn) (hagenda.trans (by rw [← hs])) ?_
      rw [hstate]
      refine hlink'.imp_right fun h slot hm => ?_
      rw [Catalogue.inFlight_congr hfirst.pages]
      exact h slot (by simp [hm])
    have hall := hfirst.cons hrest (s'.moves_closeTest x).kept.cal (moves_settle _ _).kept.latched
    subst hs
    exact ⟨hall.editions, hall.pages, hall.photos, hall.held, hall.ended⟩

end Sys2Proof.Machine
end

section
/-! The minute event as one change: the due heads fire, the warnings, and the closes that end (O27). -/

namespace Sys2Proof.Machine

/-- An edition that its deadline has closed to further pages (R38, R56). -/
def Edition.forcedClosing (e : Edition) : Edition := { e with state := .closing, forced := true, deadline := none }

/-- An edition with its warning flag set (R39). -/
def Edition.warn (e : Edition) : Edition := { e with warned := true }

namespace State

/-! ### The forced closes begin (R38, R56) -/

theorem forceClose_edition? : ∀ (l : List Nat) (s : State) (slot : Nat), (forceClose l s).cat.edition? slot =
    (s.cat.edition? slot).map fun e => if slot ∈ l then e.forcedClosing else e
  | [], s, slot => by simp [forceClose]
  | x :: l, s, slot => by
    have ih := forceClose_edition? l (s.beginClose x true) slot
    simp only [forceClose, List.foldl_cons] at ih ⊢
    rw [ih, edition?_beginClose]
    by_cases hx : x = slot
    · subst hx
      rw [if_pos rfl, Option.map_map]
      refine Option.map_congr fun e _ => ?_
      simp [Edition.forcedClosing]
    · have : ¬slot = x := fun h => hx h.symm
      simp only [if_neg hx, List.mem_cons, this, false_or]

theorem forceClose_agenda : ∀ (l : List Nat) (s : State), (forceClose l s).agenda = s.agenda ++ l.map .closeTest
  | [], s => by simp [forceClose]
  | x :: l, s => by
    have ih := forceClose_agenda l (s.beginClose x true)
    simp only [forceClose, List.foldl_cons] at ih ⊢
    rw [ih]
    simp [beginClose]

/-- Neither the records nor the link change where a close begins. -/
theorem forceClose_rest : ∀ (l : List Nat) (s : State), (forceClose l s).cat.pages = s.cat.pages ∧
    (forceClose l s).cat.photos = s.cat.photos ∧ (forceClose l s).link = s.link
  | [], _ => ⟨rfl, rfl, rfl⟩
  | x :: l, s => forceClose_rest l (s.beginClose x true)

/-! ### The warnings (R39) -/

/-- A change of the editions in the slots given. -/
def markEditions (f : Edition → Edition) (l : List Nat) (s : State) : State :=
  l.foldl (fun t slot => t.withCat fun c => c.withEdition slot f) s

theorem markEditions_edition? {f : Edition → Edition} (hf : ∀ e, f (f e) = f e) : ∀ (l : List Nat) (s : State) (slot : Nat),
    (markEditions f l s).cat.edition? slot = (s.cat.edition? slot).map fun e => if slot ∈ l then f e else e
  | [], s, slot => by simp [markEditions]
  | x :: l, s, slot => by
    have ih := markEditions_edition? hf l (s.withCat fun c => c.withEdition x f) slot
    simp only [markEditions, List.foldl_cons] at ih ⊢
    rw [ih, withCat_cat, Catalogue.edition?_withEdition]
    by_cases hx : x = slot
    · subst hx
      rw [if_pos rfl, Option.map_map]
      refine Option.map_congr fun e _ => ?_
      simp [hf]
    · have : ¬slot = x := fun h => hx h.symm
      simp only [if_neg hx, List.mem_cons, this, false_or]

/-- Beside the editions a change of editions leaves the catalogue, and all else. -/
theorem markEditions_rest (f : Edition → Edition) : ∀ (l : List Nat) (s : State),
    (markEditions f l s).cat.pages = s.cat.pages ∧ (markEditions f l s).cat.photos = s.cat.photos ∧
      markEditions f l s = { s with cat := (markEditions f l s).cat }
  | [], _ => ⟨rfl, rfl, rfl⟩
  | x :: l, s => markEditions_rest f l (s.withCat fun c => c.withEdition x f)

/-- What the warnings do to the slots that are to be warned. -/
theorem raiseWarnings_eq (s : State) (now : Nat) : s.toWarn now = [] ∧ s.raiseWarnings now = markEditions Edition.warn (s.toWarn now) s ∨
    s.toWarn now ≠ [] ∧ s.raiseWarnings now = (markEditions Edition.warn (s.toWarn now) s).latch .deadlineNear := by
  unfold raiseWarnings
  split
  · next h => exact .inl ⟨h, by rw [h]; rfl⟩
  · next h => exact .inr ⟨fun e => h e, rfl⟩

/-- A slot of the list is to be warned: not warned yet, with a deadline within the lead (R39). -/
def nearing (s : State) (now slot : Nat) : Bool :=
  decide (s.req.options.lead ≠ 0) && (s.cat.edition? slot).any (fun e => !e.warned) &&
    (s.cat.deadlineOf slot).any fun d => decide (d ≤ now + s.req.options.lead)

theorem toWarn_eq (s : State) (now : Nat) : s.toWarn now = s.deadlines.filter (s.nearing now) := by
  unfold toWarn nearing
  split
  · next h => simp [h]
  · next h => simp [h]

/-! ### The work of a minute event -/

variable {s : State} {now : Nat}

/-- The slots that fire at a minute event, those that stay listed, and those that are warned. -/
def firedSlots (s : State) (now : Nat) : List Nat := s.deadlines.takeWhile (s.deadlineDue now)

def leftSlots (s : State) (now : Nat) : List Nat := s.deadlines.dropWhile (s.deadlineDue now)

def warnedSlots (s : State) (now : Nat) : List Nat := (s.leftSlots now).filter (s.nearing now)

theorem not_mem_fired (h : s.deadlines.Nodup) {slot : Nat} (hl : slot ∈ s.leftSlots now) : slot ∉ s.firedSlots now := by
  have hsplit := List.takeWhile_append_dropWhile (p := s.deadlineDue now) (l := s.deadlines)
  exact fun hm => (List.nodup_append'.1 (hsplit.symm ▸ h)).2.2 hm hl

/-- The slots to be warned are read behind the forced closes, which leave the listed editions alone. -/
theorem toWarn_forceClose (h : s.deadlines.Nodup) :
    (forceClose (s.firedSlots now) s.minuteTaken).toWarn now = s.warnedSlots now := by
  have hleft : (forceClose (s.firedSlots now) s.minuteTaken).deadlines = s.leftSlots now := by
    rw [forceClose_deadlines]
    exact filter_not_takeWhile h
  have hlead : (forceClose (s.firedSlots now) s.minuteTaken).req.options = s.req.options := by
    have := (fireDeadlines_work now s.deadlines s.minuteTaken).2
    rw [fireDeadlines_eq now _ _ h] at this
    exact congrArg Books.options this
  rw [toWarn_eq, hleft]
  refine List.filter_congr fun slot hm => ?_
  have hed : (forceClose (s.firedSlots now) s.minuteTaken).cat.edition? slot = s.cat.edition? slot := by
    rw [forceClose_edition?]
    simp only [if_neg (not_mem_fired h hm), Option.map_id']
    rfl
  simp only [nearing, Catalogue.deadlineOf, hed, hlead]

/-- What the work of a minute event makes of the catalogue, and the consequences it opens. -/
theorem takeMinute_spec (hc : s.cal.state = .running) (he : s.events.minute = some now) (hn : s.deadlines.Nodup) :
    (∀ slot, s.takeMinute.cat.edition? slot = (s.cat.edition? slot).map fun e =>
      if slot ∈ s.firedSlots now then e.forcedClosing else if slot ∈ s.warnedSlots now then e.warn else e) ∧
    s.takeMinute.cat.pages = s.cat.pages ∧ s.takeMinute.cat.photos = s.cat.photos ∧ s.takeMinute.link = s.link ∧
    s.takeMinute.agenda = s.agenda ++ (s.firedSlots now).map .closeTest ∧
    (s.warnedSlots now ≠ [] → s.takeMinute.req.latched.getLsbD Event.deadlineNear.bit = true) := by
  have hmade : s.takeMinute = (forceClose (s.firedSlots now) s.minuteTaken).raiseWarnings now := by
    rw [takeMinute_of_some hc he, fireDeadlines_eq now _ _ hn]
    rfl
  have hed := forceClose_edition? (s.firedSlots now) s.minuteTaken
  obtain ⟨hpages, hphotos, hlink⟩ := forceClose_rest (s.firedSlots now) s.minuteTaken
  have hagenda := forceClose_agenda (s.firedSlots now) s.minuteTaken
  have hwarn := toWarn_forceClose (now := now) hn
  generalize forceClose (s.firedSlots now) s.minuteTaken = v at *
  have hraise := v.raiseWarnings_eq now
  rw [← hmade, hwarn] at hraise
  have hw := markEditions_edition? (f := Edition.warn) (fun _ => rfl) (s.warnedSlots now) v
  obtain ⟨hpages', hphotos', hrest⟩ := markEditions_rest Edition.warn (s.warnedSlots now) v
  generalize markEditions Edition.warn (s.warnedSlots now) v = w at *
  have hsame : s.takeMinute.cat = w.cat ∧ s.takeMinute.link = w.link ∧ s.takeMinute.agenda = w.agenda := by
    rcases hraise with ⟨-, h⟩ | ⟨-, h⟩ <;> rw [h] <;> exact ⟨rfl, rfl, rfl⟩
  have hlink' : w.link = v.link := by rw [hrest]
  have hagenda' : w.agenda = v.agenda := by rw [hrest]
  obtain ⟨hcat, hlk, hag⟩ := hsame
  rw [hcat, hlk, hag]
  refine ⟨fun slot => ?_, hpages'.trans hpages, hphotos'.trans hphotos, hlink'.trans hlink, hagenda'.trans hagenda, fun hne => ?_⟩
  · rw [hw, hed, Option.map_map]
    refine Option.map_congr fun e _ => ?_
    have hdisj : slot ∈ s.warnedSlots now → slot ∉ s.firedSlots now := fun hm => not_mem_fired hn (List.mem_filter.1 hm).1
    simp only [Function.comp]
    by_cases hf : slot ∈ s.firedSlots now
    · rw [if_pos hf, if_pos hf, if_neg fun hm => hdisj hm hf]
    · rw [if_neg hf, if_neg hf]
  · obtain ⟨-, h⟩ := hraise.resolve_left fun h => hne h.1
    rw [h]
    exact latch_bit _ _

end State

/-- Settles O27: the work of the event, then the close tests of the slots that fired, which leave no mode entry in SERVICE. -/
theorem minuteEventFiresAndWarns : Obligations.MinuteEventFiresAndWarns := by
  unfold Obligations.MinuteEventFiresAndWarns
  intro s now hwork hc he hn hlen hlink due fired left warned
  obtain ⟨hpow, hagenda0, hmode, hun⟩ := id hwork
  obtain ⟨hed, hpages, hphotos, hl, hagenda, hnear⟩ := State.takeMinute_spec hc he hn
  obtain ⟨hworked, hbooks, hdl⟩ := State.takeMinute_work hc
  have hdeadlines := hdl now he hn
  have hhappens : (s.raised? DueEvents.minute).isSome = true := by rw [State.raised?_of_running hc, he]; rfl
  have hmode' : s.takeMinute.settled.req.mode = .service := by
    rw [s.takeMinute.kept_settled.mode, hworked.mode, hmode]
  have hexec : exec .minuteEvent s = .next s.takeMinute.settled.close := 
    State.event_settles (happens := fun u => (u.raised? DueEvents.minute).isSome) hwork hhappens rfl hmode'
  have hsub : ∀ slot ∈ fired, slot ∈ s.deadlines := fun slot hm => (List.takeWhile_sublist _).subset hm
  have hfired : fired.length ≤ 65536 := by
    have := (List.takeWhile_sublist (l := s.deadlines) due).length_le
    have : fired.length ≤ s.deadlines.length := this
    omega
  generalize hu : s.takeMinute = u at *
  have hfly (slot : Nat) : u.cat.inFlight slot = s.cat.inFlight slot := Catalogue.inFlight_congr hpages slot
  have hcal : u.cal = s.cal := congrArg Books.cal hbooks
  have htested : ClosesTested fired u u.settled := by
    refine State.settle_closeTests fired _ u hfired (by rw [hagenda, hagenda0]; rfl) ?_
    rw [hl]
    exact hlink.imp_right fun h slot hm => by rw [hfly]; exact h slot (hsub slot hm)
  have hkept := u.kept_settled
  refine ⟨_, hexec, ?_, ?_, fun slot => ?_, ?_, ?_, fun hne => ?_, fun slot e hm hz hs => ?_⟩
  · exact (congrArg Books.events (u.settled.close_books.trans u.moves_settled.books)).trans (congrArg Books.events hbooks)
  · exact (congrArg Books.deadlines (u.settled.close_books.trans u.moves_settled.books)).trans hdeadlines
  · rw [State.close_cat, htested.editions, hed, Option.map_map]
    refine Option.map_congr fun e _ => ?_
    simp only [Function.comp, State.Ends, hfly, hcal, Catalogue.gapsOf_congr hpages]
    by_cases hf : slot ∈ fired
    · have hf' : slot ∈ s.firedSlots now := hf
      by_cases hz : s.cat.inFlight slot = 0 <;>
        simp [hf, hf', hz, Edition.forcedClosing, Edition.closedOut]
    · have hf' : slot ∉ s.firedSlots now := hf
      have hw : slot ∈ warned ↔ slot ∈ s.warnedSlots now := Iff.rfl
      simp only [hf, hf', hw, if_false, false_and, Edition.warn]
  · rw [State.close_cat, htested.pages, hpages]
  · rw [State.close_cat, htested.photos, hphotos]
  · exact State.raised_close (hkept.wait.trans hworked.wait) (hkept.latched _ (hnear hne))
  · have hclosing : u.cat.edition? slot = some e.forcedClosing := by
      rw [hed, hs]
      exact congrArg some (if_pos hm)
    obtain ⟨hlatched, hmark⟩ := htested.ended slot e.forcedClosing hm hclosing ⟨rfl, (hfly slot).trans hz⟩
    refine ⟨State.raised_close (hkept.wait.trans hworked.wait) hlatched, ?_⟩
    rw [State.close_link]
    simpa only [State.markOf, hcal, Catalogue.gapsOf_congr hpages, Edition.forcedClosing] using hmark

end Sys2Proof.Machine
end

section
/-! The day rollover: the pricing of an order that its hold check lets pass, and the re-evaluation behind the expired holds (O28). -/

namespace Sys2Proof.Machine

/-! ### Pricing (R152 to R157) -/

namespace State

variable {s : State} {o : Order} {v : View} {a : Account}

/-- An order of no hold and no lapsed right is masked as things stand (R125). -/
theorem holdCheck_passed {masked : List Nat} (h : s.holdCheck o v = .passed masked) : masked = s.maskOf v := by
  unfold holdCheck at h
  split_ifs at h
  exact (HoldCheck.passed.inj h).symm

/-- The charge of an order, with the room and the funds for it (R157). -/
theorem charge_eq_sold (hroom : s.stmt.current.entries.length < 512) :
    s.charge o (s.maskOf v).length (s.priceOf o v a) = s.sold o v a := by
  unfold charge sold StatementBuffer.hasRoom StatementBuffer.append
  simp only [withOrder_stmt, withAccount_stmt, List.length_append, List.length_singleton, decide_eq_true_eq]
  have hlimit : Config.statementEntries = 512 := rfl
  by_cases hlast : s.stmt.current.entries.length = 511
  · rw [if_neg (by omega), if_pos hlast]
    rfl
  · rw [if_pos (by omega), if_neg hlast]
    rfl

/-- The room and funds steps of an order that does not come from its account's queue (R155 to R157). -/
theorem fundsStep_eq_priced : s.fundsStep o a (s.maskOf v).length (s.priceOf o v a) false = s.priced o v a := by
  unfold fundsStep priced StatementBuffer.hasRoom Account.fits
  by_cases hroom : s.stmt.current.entries.length < 512
  · have hfull : ¬512 ≤ s.stmt.current.entries.length := by omega
    rw [if_neg (by simpa using hroom), if_neg hfull]
    by_cases hqueue : a.queue = []
    · rw [if_neg (by simp [hqueue])]
      by_cases hfits : ((s.priceOf o v a).total : Int) ≤ a.balance + a.limit
      · have hshort : ¬(a.queue ≠ [] ∨ a.balance + a.limit < (s.priceOf o v a).total) := by
          simp only [hqueue, ne_eq, not_true_eq_false, false_or, not_lt]
          exact hfits
        rw [if_pos (decide_eq_true hfits), if_neg hshort, charge_eq_sold hroom]
      · rw [if_neg (by simpa using hfits), if_neg (by simp), if_pos (.inr (by omega))]
        rfl
    · rw [if_pos (by simp [hqueue]), if_pos (.inl hqueue)]
      rfl
  · rw [if_pos (by simpa using hroom), if_pos (by omega)]
    rfl

/-- The pricing sequence on an order that its hold check lets pass (R152). -/
theorem priceOrder_passed {n : Nat} {masked : List Nat} (ho : s.order? n = some o) (hv : s.orderView o = some v)
    (ha : s.fee.account? o.account = some a) (hc : s.holdCheck o v = .passed masked) : s.priceOrder n false = s.priced o v a := by
  rw [← fundsStep_eq_priced]
  simp only [priceOrder, ho, hv, ha, hc, holdCheck_passed hc]
  rfl

theorem order?_withOrder_ne {n m : Nat} {f : Order → Order} (hf : ∀ o, (f o).number = o.number) (hm : m ≠ n) :
    (s.withOrder n f).order? m = s.order? m := by
  rw [order?_withOrder hf]
  cases ho : s.order? m with
  | none => rfl
  | some o =>
    have : ¬(o.number == n) = true := by simpa [order?_number ho] using hm
    rw [Option.map_some, if_neg this]

/-- Pricing changes no other order. -/
theorem order?_priced {m : Nat} (hm : m ≠ o.number) : (s.priced o v a).order? m = s.order? m := by
  unfold priced sold
  split_ifs
  · exact order?_withOrder_ne (s := { s with stmt := { s.stmt with held := s.stmt.held ++ [o.number] } }) (fun _ => rfl) hm
  · exact order?_withOrder_ne (s := s.withAccount a.number _) (fun _ => rfl) hm
  all_goals exact order?_withOrder_ne (s := s.withAccount o.account _) (fun _ => rfl) hm

/-- Neither the catalogue nor the holds nor the options change in pricing. -/
theorem priced_rest : (s.priced o v a).cat = s.cat ∧ (s.priced o v a).hold = s.hold ∧
    (s.priced o v a).req.options = s.req.options := by
  unfold priced sold
  split_ifs <;> exact ⟨rfl, rfl, rfl⟩

/-- Pricing does not read the event marks. -/
theorem priced_withEvents (ev : DueEvents) :
    State.priced { s with events := ev } o v a = { s.priced o v a with events := ev } := by
  have hprice : State.priceOf { s with events := ev } o v a = s.priceOf o v a := rfl
  have hmask : State.maskOf { s with events := ev } v = s.maskOf v := rfl
  simp only [priced, sold, hprice, hmask]
  split_ifs <;> rfl

/-! ### The re-evaluation of the rights-held list (R124) -/

/-- The order of a number stands and is matched by a hold. -/
def matched (s : State) (n : Nat) : Bool := (s.order? n).any s.orderMatches

theorem orderMatches_congr {t : State} (h : t.hold.entries = s.hold.entries) (o : Order) : t.orderMatches o = s.orderMatches o := by
  simp only [orderMatches, HoldList.pageMatches, HoldList.photoMatches, h]

/-- Matched orders stay where they are. -/
theorem reevaluate_matched : ∀ (l rest : List Nat) (s : State), (∀ n ∈ l, s.matched n = true) →
    reevaluate (l ++ rest) s = reevaluate rest s
  | [], _, _, _ => rfl
  | n :: l, rest, s, h => by
    have hn : (s.order? n).any (fun o => s.orderMatches o) = true := h n (by simp)
    rw [List.cons_append, reevaluate, if_pos hn]
    exact reevaluate_matched l rest s fun m hm => h m (by simp [hm])

theorem reevaluate_all_matched {l : List Nat} (h : ∀ n ∈ l, s.matched n = true) : reevaluate l s = (s, 0) := by
  have := reevaluate_matched l [] s h
  rwa [List.append_nil] at this

/-- A list of which one number fails a test is cut at that number. -/
theorem split_of_filter_singleton {p : Nat → Bool} {n : Nat} : ∀ {l : List Nat}, l.filter (fun m => !p m) = [n] →
    ∃ a b, l = a ++ n :: b ∧ (∀ m ∈ a, p m = true) ∧ (∀ m ∈ b, p m = true) ∧ p n = false
  | [], h => by simp at h
  | x :: l, h => by
    by_cases hx : p x = true
    · obtain ⟨a, b, rfl, ha, hb, hn⟩ := split_of_filter_singleton (l := l) (by simpa [hx] using h)
      exact ⟨x :: a, b, rfl, by simpa [hx] using ha, hb, hn⟩
    · simp only [List.filter_cons, hx, Bool.not_false, if_true, List.cons.injEq] at h
      obtain ⟨rfl, hl⟩ := h
      refine ⟨[], l, rfl, by simp, fun m hm => ?_, by simpa using hx⟩
      simpa using List.filter_eq_nil_iff.1 hl m hm

/-- The number leaves the rights-held list. -/
def unheld (s : State) (n : Nat) : State := { s with hold := { s.hold with held := s.hold.held.filter fun m => m != n } }

/-- With one order that no hold matches any more, the re-evaluation prices that order. -/
theorem reevaluate_one {n : Nat} {masked : List Nat} (hu : s.unmatched = [n]) (ho : s.order? n = some o)
    (hv : s.orderView o = some v) (ha : s.fee.account? o.account = some a) (hc : s.holdCheck o v = .passed masked) :
    (reevaluate s.hold.held s).1 = (s.unheld n).priced o v a := by
  obtain ⟨l, r, hheld, hl, hr, hn⟩ := split_of_filter_singleton (p := s.matched) (n := n) (l := s.hold.held) hu
  have hnum : o.number = n := order?_number ho
  have hprice : (s.unheld n).priceOrder n false = (s.unheld n).priced o v a := priceOrder_passed ho hv ha hc
  have hstay : ∀ m ∈ r, ((s.unheld n).priced o v a).matched m = true := fun m hm => by
    have hmatch := hr m hm
    have hne : m ≠ n := by
      rintro rfl
      rw [hn] at hmatch
      cases hmatch
    have hsame : ((s.unheld n).priced o v a).order? m = s.order? m := order?_priced (by rw [hnum]; exact hne)
    have hentries : ((s.unheld n).priced o v a).hold.entries = s.hold.entries := by rw [priced_rest.2.1]; rfl
    simpa only [matched, hsame, funext (orderMatches_congr hentries)] using hmatch
  have hn' : ¬(s.order? n).any (fun o => s.orderMatches o) = true := by rw [← Bool.not_eq_true] at hn; exact hn
  rw [hheld, reevaluate_matched l _ s hl, reevaluate, if_neg hn']
  show (reevaluate r ((s.unheld n).priceOrder n false)).1 = _
  rw [hprice, reevaluate_all_matched hstay]

end State

end Sys2Proof.Machine
end

section
/-! The day rollover and the trade-day boundary, each as one change (O28). -/

namespace Sys2Proof.Machine

namespace State

variable {s : State} {day : Nat}

/-! ### The day rollover (R35, R123) -/

theorem exec_dayRollover (h : s.Up) (hc : s.cal.state = .running) (he : s.events.rollover = some day) :
    exec .dayRollover s = .next s.takeRollover.endChange := by
  obtain ⟨hpow, -, hun⟩ := h
  exact event_unstaged (happens := fun u => (u.raised? DueEvents.rollover).isSome) hpow
    (by rw [raised?_of_running hc, he]; rfl) hun

theorem exec_dayRollover_books (h : s.Up) (hc : s.cal.state = .running) (he : s.events.rollover = some day) :
    ∃ t, exec .dayRollover s = .next t ∧ t.events = { s.events with rollover := none } ∧
      t.hold.entries = s.standingHolds day := by
  obtain ⟨-, hb, hentries⟩ := takeRollover_work hc
  have hend := s.takeRollover.endChange_books
  exact ⟨_, exec_dayRollover h hc he, (congrArg Books.events hend).trans (congrArg Books.events hb),
    (congrArg Books.entries hend).trans (hentries day he)⟩

/-- The orphan photographs swept on a day, as of the state given (R21). -/
def sweptPhotos (s : State) (day : Nat) : List Photo := s.cat.photos.filter fun p =>
  !(p.state == .filed && p.refs == 0 && p.pins == 0 && p.filedOn.any fun d => decide (d + s.req.options.retention < day))

/-- What a rollover leaves of a state u in which the holds of s have been dealt with: the mark off, the standing holds, the orphans
swept. -/
def rolledOver (s : State) (day : Nat) (u : State) : State := { u with
  events := { s.events with rollover := none }
  hold := { u.hold with entries := s.standingHolds day }
  cat := { s.cat with photos := s.sweptPhotos day } }

/-- The sweep comes behind the holds, which leave the catalogue and the options to it. -/
theorem sweepOrphans_eq {u : State} (hcat : u.cat = s.cat) (hopt : u.req.options = s.req.options)
    (hentries : u.hold.entries = s.standingHolds day) :
    State.sweepOrphans { u with events := { s.events with rollover := none } } day = s.rolledOver day u := by
  have hhold : ({ u.hold with entries := s.standingHolds day } : HoldList) = u.hold := by rw [← hentries]
  unfold rolledOver sweptPhotos
  rw [hhold, ← hcat, ← hopt]
  rfl

/-- Without an order to price, the rollover removes holds and orphans only. -/
theorem takeRollover_quiet (hc : s.cal.state = .running) (he : s.events.rollover = some day)
    (hq : s.hold.held = [] ∨ (s.hold.entries.any fun h => h.expired day) = false) : s.takeRollover = s.rolledOver day s := by
  rw [takeRollover_of_some hc he]
  by_cases hany : (s.hold.entries.any fun h => h.expired day) = true
  · have hheld : s.hold.held = [] := hq.resolve_right (by rw [hany]; simp)
    have hrun : s.rolloverTaken.expireHolds day = s.rolloverTaken.holdsExpired day := by
      rw [expireHolds_of_any (s := s.rolloverTaken) hany, show s.rolloverTaken.hold.held = [] from hheld]
      rfl
    rw [hrun]
    exact (sweepOrphans_eq (s := s) (day := day) (u := s.holdsExpired day) rfl rfl rfl).trans rfl
  · have hrun : s.rolloverTaken.expireHolds day = s.rolloverTaken := if_neg hany
    rw [hrun]
    exact sweepOrphans_eq rfl rfl (standingHolds_of_none hany).symm

/-- With one order that the holds left do not match any more, the rollover prices it. -/
theorem takeRollover_prices {n : Nat} {o : Order} {v : View} {a : Account} {masked : List Nat} (hc : s.cal.state = .running)
    (he : s.events.rollover = some day) (hany : (s.hold.entries.any fun h => h.expired day) = true)
    (hu : (s.holdsExpired day).unmatched = [n]) (ho : s.order? n = some o) (hv : s.orderView o = some v)
    (ha : s.fee.account? o.account = some a) (hk : (s.holdsExpired day).holdCheck o v = .passed masked) :
    s.takeRollover = s.rolledOver day (State.priced ((s.holdsExpired day).unheld n) o v a) := by
  have hrun : s.rolloverTaken.expireHolds day = { State.priced ((s.holdsExpired day).unheld n) o v a with
      events := { s.events with rollover := none } } := by
    rw [expireHolds_of_any (s := s.rolloverTaken) hany, ← priced_withEvents]
    exact reevaluate_one (s := s.rolloverTaken.holdsExpired day) hu ho hv ha hk
  obtain ⟨hcat, hhold, hopt⟩ := priced_rest (s := (s.holdsExpired day).unheld n) (o := o) (v := v) (a := a)
  rw [takeRollover_of_some hc he, hrun]
  exact sweepOrphans_eq hcat hopt (congrArg HoldList.entries hhold)

theorem any_expired_eq_false_iff : (s.hold.entries.any fun h => h.expired day) = false ↔
    ∀ h ∈ s.hold.entries, (h.untilDay.all fun d => decide (day ≤ d)) = true := by
  simp only [List.any_eq_false, Bool.not_eq_true, ← Hold.not_expired_eq, Bool.not_eq_true']

theorem any_expired_iff : (s.hold.entries.any fun h => h.expired day) = true ↔
    ∃ h ∈ s.hold.entries, (h.untilDay.all fun d => decide (day ≤ d)) = false := by
  simp only [List.any_eq_true, ← Hold.not_expired_eq, Bool.not_eq_false']

/-! ### The trade-day boundary (R36, R167, R186) -/

theorem exec_tradeDayBoundary (h : s.Up) (hc : s.cal.state = .running) (he : s.events.boundary = some day) :
    exec .tradeDayBoundary s = .next s.takeBoundary.endChange := by
  obtain ⟨hpow, -, hun⟩ := h
  exact event_unstaged (happens := fun u => (u.raised? DueEvents.boundary).isSome) hpow
    (by rw [raised?_of_running hc, he]; rfl) hun

/-- A part in STANDBY is woken: SERVICE, with WOKEN latched (R186). -/
theorem wake_of_standby (h : s.req.mode = .standby) : s.wake.req.mode = .service ∧ s.wake.req.wait = s.req.wait ∧
    s.wake.req.latched.getLsbD Event.woken.bit = true := by
  have hm : (s.req.mode == Mode.standby) = true := by simp [h]
  have hk := kept_settled ((latch { s with req := { s.req with mode := .service } } .woken).push .sealTest)
  unfold wake
  rw [if_pos hm]
  exact ⟨hk.mode, hk.wait, hk.latched _ (latch_bit _ _)⟩

theorem exec_tradeDayBoundary_wakes (h : s.Up) (hc : s.cal.state = .running) (he : s.events.boundary = some day)
    (hm : s.req.mode = .standby) : ∃ t, exec .tradeDayBoundary s = .next t ∧ t.req.mode = .service ∧ Raised s t .woken := by
  obtain ⟨hmode, hwait, hlatched⟩ := wake_of_standby (s := s.boundaryTaken) hm
  have hw : Worked s.boundaryTaken.wake s.takeBoundary := by
    rw [takeBoundary_of_some hc he]
    exact (boundaryStatement_work _).1.trans (moves_retentionSweep _ day).worked
  have hservice : s.takeBoundary.req.mode = .service := hw.mode.trans hmode
  have hend : s.takeBoundary.endChange = s.takeBoundary.settled.close :=
    endChange_of_settled rfl (s.takeBoundary.kept_settled.mode.trans hservice)
  refine ⟨_, exec_tradeDayBoundary h hc he, ?_, raised_endChange (hw.wait.trans hwait) (hw.latched _ hlatched)⟩
  rw [hend, close_mode, s.takeBoundary.kept_settled.mode, hservice]

/-- In an awake part the boundary is the statement buffer's work, then the retention sweep. -/
theorem takeBoundary_of_awake (hc : s.cal.state = .running) (he : s.events.boundary = some day) (ha : s.Awake) :
    s.takeBoundary = s.boundaryTaken.boundaryStatement.retentionSweep day := by
  rw [takeBoundary_of_some hc he, wake_of_awake (s := s.boundaryTaken) ha]

/-- The books behind a boundary are those that the statement buffer leaves. -/
theorem boundary_books (hc : s.cal.state = .running) (he : s.events.boundary = some day) (ha : s.Awake) :
    s.takeBoundary.endChange.books = s.boundaryTaken.boundaryStatement.books := by
  rw [endChange_books, takeBoundary_of_awake hc he ha, (moves_retentionSweep _ day).books]

theorem exec_tradeDayBoundary_closes (h : s.Up) (hc : s.cal.state = .running) (he : s.events.boundary = some day) (ha : s.Awake)
    (hroom : s.stmt.closed.length < 2) : ∃ t, exec .tradeDayBoundary s = .next t ∧
      t.events = { s.events with boundary := none } ∧ Raised s t .statementClosed ∧
      t.stmt.closed = s.stmt.closed ++ [⟨s.stmt.current.number, s.stmt.current.firstDay, s.cal.day, s.stmt.current.missed,
        1, s.stmt.current.entries⟩] ∧
      t.stmt.current.number = nextStatement s.stmt.current.number ∧ t.stmt.current.firstDay = s.cal.day ∧
      t.stmt.current.missed = 0 := by
  obtain ⟨hw, hlatched, hb⟩ := boundaryStatement_closes (s := s.boundaryTaken) hroom
  have hbooks := (boundary_books hc he ha).trans hb
  have hm := moves_retentionSweep s.boundaryTaken.boundaryStatement day
  refine ⟨_, exec_tradeDayBoundary h hc he, congrArg Books.events hbooks, ?_, congrArg Books.closed hbooks,
    congrArg Books.number hbooks, congrArg Books.firstDay hbooks, congrArg Books.missed hbooks⟩
  rw [takeBoundary_of_awake hc he ha]
  exact raised_endChange (hm.kept.wait.trans hw.wait) (hm.kept.latched _ hlatched)

theorem exec_tradeDayBoundary_misses (h : s.Up) (hc : s.cal.state = .running) (he : s.events.boundary = some day) (ha : s.Awake)
    (hfull : 2 ≤ s.stmt.closed.length) : ∃ t, exec .tradeDayBoundary s = .next t ∧
      t.events = { s.events with boundary := none } ∧ t.stmt.closed = s.stmt.closed ∧
      t.stmt.current.number = s.stmt.current.number ∧ t.stmt.current.missed = min 65535 (s.stmt.current.missed + 1) := by
  obtain ⟨-, hb⟩ := boundaryStatement_missed (s := s.boundaryTaken) hfull
  have hbooks := (boundary_books hc he ha).trans hb
  exact ⟨_, exec_tradeDayBoundary h hc he, congrArg Books.events hbooks, congrArg Books.closed hbooks,
    congrArg Books.number hbooks, congrArg Books.missed hbooks⟩

end State

end Sys2Proof.Machine
end

section
/-! The retention sweep at a boundary (R84), and the statement about both events (O28). -/

namespace Sys2Proof.Machine

namespace State

/-! ### Editions join the seal queue (R83) -/

/-- The editions in the slots given join the queue's tail in order, each once; each that joins asks for a test of the head. -/
theorem foldl_enqueueSeal : ∀ (l : List Nat) (s : State), ∃ added tests, (∀ x ∈ added, x ∈ l) ∧
    (∀ x ∈ l, x ∈ s.vol.sealQueue ++ added) ∧ (∀ x ∈ tests, x = Task.sealTest) ∧ l.foldl enqueueSeal s = { s with
      vol := { s.vol with sealQueue := s.vol.sealQueue ++ added }, agenda := s.agenda ++ tests }
  | [], s => ⟨[], [], by simp, by simp, by simp, by simp⟩
  | slot :: l, s => by
    obtain ⟨added, tests, hadded, hall, htests, heq⟩ := foldl_enqueueSeal l (s.enqueueSeal slot)
    rw [List.foldl_cons, heq]
    by_cases hin : s.vol.sealQueue.contains slot = true
    · have hsame : s.enqueueSeal slot = s := if_pos hin
      rw [hsame] at hall ⊢
      refine ⟨added, tests, fun x hx => List.mem_cons_of_mem _ (hadded x hx), fun x hx => ?_, htests, rfl⟩
      rcases List.mem_cons.1 hx with rfl | hx
      · exact List.mem_append_left _ (by simpa using hin)
      · exact hall x hx
    · have hnew : s.enqueueSeal slot = push { s with vol := { s.vol with sealQueue := s.vol.sealQueue ++ [slot] } } .sealTest :=
        if_neg hin
      rw [hnew] at hall ⊢
      refine ⟨slot :: added, .sealTest :: tests, fun x hx => ?_, fun x hx => ?_, by simpa using htests, ?_⟩
      · rcases List.mem_cons.1 hx with rfl | hx
        · exact List.mem_cons_self
        · exact List.mem_cons_of_mem _ (hadded x hx)
      · rcases List.mem_cons.1 hx with rfl | hx
        · simp
        · simpa using hall x hx
      · simp [push]

/-! ### The sweep (R84) -/

/-- The CLOSED editions outside the queue that are due on a day and pinned, and those that are due and not pinned. -/
def duePinned (s : State) (day : Nat) : List Nat :=
  ((s.cat.occupied.filter (s.isDue day)).filter fun x => decide (0 < x.2.pins)).map Prod.fst

def dueUnpinned (s : State) (day : Nat) : List Nat :=
  (sortBy closedBefore ((s.cat.occupied.filter (s.isDue day)).filter fun x => x.2.pins == 0)).map Prod.fst

variable {s : State} {day slot : Nat}

theorem mem_duePinned : slot ∈ s.duePinned day ↔
    ∃ e, s.cat.edition? slot = some e ∧ s.isDue day (slot, e) = true ∧ 0 < e.pins := by
  simp only [duePinned, List.mem_map, List.mem_filter, decide_eq_true_eq]
  constructor
  · rintro ⟨⟨i, e⟩, ⟨⟨hocc, hdue⟩, hpins⟩, rfl⟩
    exact ⟨e, Catalogue.mem_occupied.1 hocc, hdue, hpins⟩
  · rintro ⟨e, he, hdue, hpins⟩
    exact ⟨(slot, e), ⟨⟨Catalogue.mem_occupied.2 he, hdue⟩, hpins⟩, rfl⟩

theorem mem_dueUnpinned : slot ∈ s.dueUnpinned day ↔
    ∃ e, s.cat.edition? slot = some e ∧ s.isDue day (slot, e) = true ∧ e.pins = 0 := by
  simp only [dueUnpinned, List.mem_map, (sortBy_perm _ _).mem_iff, List.mem_filter, beq_iff_eq]
  constructor
  · rintro ⟨⟨i, e⟩, ⟨⟨hocc, hdue⟩, hpins⟩, rfl⟩
    exact ⟨e, Catalogue.mem_occupied.1 hocc, hdue, hpins⟩
  · rintro ⟨e, he, hdue, hpins⟩
    exact ⟨(slot, e), ⟨⟨Catalogue.mem_occupied.2 he, hdue⟩, hpins⟩, rfl⟩

end State

/-- An edition with its due flag set (R11, R84). -/
def Edition.markDue (e : Edition) : Edition := { e with due := true }

namespace State

theorem retentionSweep_eq (s : State) (day : Nat) :
    s.retentionSweep day = (s.dueUnpinned day).foldl enqueueSeal (markEditions Edition.markDue (s.duePinned day) s) := by
  unfold retentionSweep dueUnpinned duePinned markEditions
  rw [List.foldl_map, List.foldl_map]
  rfl

/-- What the sweep does: the pinned due editions are marked, the others join the queue, and the head is tested. -/
theorem retentionSweep_spec (s : State) (day : Nat) : ∃ added tests, (∀ x ∈ added, x ∈ s.dueUnpinned day) ∧
    (∀ x ∈ s.dueUnpinned day, x ∈ s.vol.sealQueue ++ added) ∧ (∀ x ∈ tests, x = Task.sealTest) ∧
    s.retentionSweep day = { s with
      cat := (markEditions Edition.markDue (s.duePinned day) s).cat
      vol := { s.vol with sealQueue := s.vol.sealQueue ++ added }, agenda := s.agenda ++ tests } := by
  obtain ⟨-, -, hmark⟩ := markEditions_rest Edition.markDue (s.duePinned day) s
  obtain ⟨added, tests, hadded, hall, htests, heq⟩ :=
    foldl_enqueueSeal (s.dueUnpinned day) (markEditions Edition.markDue (s.duePinned day) s)
  rw [← retentionSweep_eq] at heq
  generalize markEditions Edition.markDue (s.duePinned day) s = m at *
  rw [hmark] at hall heq
  exact ⟨added, tests, hadded, hall, htests, heq⟩

/-! ### A head that is SEALING (R87) -/

/-- While the head's seal is in flight no other starts. -/
theorem sealTest_of_sealing {s : State} {head : Nat} {x : Edition} (hq : s.vol.sealQueue.head? = some head)
    (he : s.cat.edition? head = some x) (hs : x.state = .sealing) : sealTest s.vol.sealQueue s = s := by
  obtain ⟨rest, hrest⟩ := List.head?_eq_some_iff.1 hq
  rw [hrest]
  simp only [sealTest, he, hs, beq_self_eq_true, Bool.true_or, if_true]

/-- Tests of a head that is SEALING change nothing. -/
theorem settle_sealTests {s : State} {head : Nat} {x : Edition} (hq : s.vol.sealQueue.head? = some head)
    (he : s.cat.edition? head = some x) (hs : x.state = .sealing) : ∀ (n : Nat) (l : List Task), (∀ y ∈ l, y = Task.sealTest) →
    ∃ rest, settle n { s with agenda := l } = { s with agenda := rest }
  | 0, l, _ => ⟨l, rfl⟩
  | n + 1, [], _ => ⟨[], settle_of_nil _ _ rfl⟩
  | n + 1, y :: l, hl => by
    obtain rfl : y = .sealTest := hl y (by simp)
    have hstep : runTask { s with agenda := l } .sealTest = { s with agenda := l } :=
      sealTest_of_sealing (s := { s with agenda := l }) hq he hs
    obtain ⟨rest, hrest⟩ := settle_sealTests hq he hs n l fun z hz => hl z (by simp [hz])
    refine ⟨rest, ?_⟩
    rw [settle_of_cons (x := .sealTest) (rest := l) n rfl]
    exact (congrArg (settle n) hstep).trans hrest

/-! ### The sweep at a boundary -/

/-- With no order held for room, the statement buffer's work leaves the catalogue, the queue and the agenda. -/
theorem boundaryStatement_quiet {s : State} (h : s.stmt.held = []) : s.boundaryStatement.cat = s.cat ∧
    s.boundaryStatement.vol = s.vol ∧ s.boundaryStatement.agenda = s.agenda := by
  have hheld : (latch { s with stmt := s.stmt.turnOver s.cal.day 1 } .statementClosed).stmt.held = [] := h
  unfold boundaryStatement closeOpenStatement
  split
  · dsimp only
    rw [hheld]
    exact ⟨rfl, rfl, rfl⟩
  · exact ⟨rfl, rfl, rfl⟩

theorem isDue_eq {s : State} {day slot d : Nat} {e : Edition} (hs : e.state = .closed) (hq : slot ∉ s.vol.sealQueue)
    (hd : e.closedOn = some d) : s.isDue day (slot, e) = decide (d + s.req.options.retention ≤ day) := by
  simp [isDue, hs, hq, hd]

/-- The sweep behind a boundary, while the head of the queue is SEALING: no seal starts in the change (R84, R87). -/
theorem exec_tradeDayBoundary_sweeps {s : State} {day head : Nat} {x : Edition} (h : s.Up) (hc : s.cal.state = .running)
    (he : s.events.boundary = some day) (hm : s.req.mode = .service) (hheld : s.stmt.held = [])
    (hq : s.vol.sealQueue.head? = some head) (hx : s.cat.edition? head = some x) (hsealing : x.state = .sealing) :
    ∃ t, exec .tradeDayBoundary s = .next t ∧ (∃ added, t.vol.sealQueue = s.vol.sealQueue ++ added ∧
      (∀ y ∈ added, y ∈ s.dueUnpinned day) ∧ ∀ y ∈ s.dueUnpinned day, y ∈ s.vol.sealQueue ++ added) ∧
      ∀ slot, t.cat.edition? slot = (s.cat.edition? slot).map fun e => if slot ∈ s.duePinned day then e.markDue else e := by
  have hawake : s.Awake := by simp [State.Awake, hm]
  obtain ⟨hcat, hvol, hagenda⟩ := boundaryStatement_quiet (s := s.boundaryTaken) hheld
  obtain ⟨hworked, hbooks, -⟩ := boundaryStatement_work s.boundaryTaken
  have hopt : s.boundaryTaken.boundaryStatement.req.options = s.req.options := congrArg Books.options hbooks
  have hmade := takeBoundary_of_awake hc he hawake
  have hmode := hworked.mode
  generalize s.boundaryTaken.boundaryStatement = u at *
  have hcat : u.cat = s.cat := hcat
  have hvol : u.vol = s.vol := hvol
  have hagenda : u.agenda = [] := hagenda.trans h.2.1.1
  have hdue : u.isDue day = s.isDue day := by
    funext y
    simp only [isDue, hvol, hopt]
  have hpinned : u.duePinned day = s.duePinned day := by simp only [duePinned, hcat, hdue]
  have hunpinned : u.dueUnpinned day = s.dueUnpinned day := by simp only [dueUnpinned, hcat, hdue]
  obtain ⟨added, tests, hadded, hall, htests, hsweep⟩ := u.retentionSweep_spec day
  have hed := markEditions_edition? (f := Edition.markDue) (fun _ => rfl) (u.duePinned day) u
  rw [hagenda, List.nil_append] at hsweep
  rw [hunpinned] at hadded hall
  rw [hvol] at hall hsweep
  rw [hcat, hpinned] at hed
  rw [hpinned] at hsweep
  generalize (markEditions Edition.markDue (s.duePinned day) u).cat = c at *
  have hhead : (s.vol.sealQueue ++ added).head? = some head := by
    obtain ⟨rest, hrest⟩ := List.head?_eq_some_iff.1 hq
    rw [hrest]
    rfl
  have hxc : ∃ y, c.edition? head = some y ∧ y.state = .sealing := by
    refine ⟨_, (hed head).trans (by rw [hx]; rfl), ?_⟩
    dsimp only
    split <;> exact hsealing
  obtain ⟨y, hy, hys⟩ := hxc
  obtain ⟨rest, hrest⟩ := settle_sealTests
    (s := { u with cat := c, vol := { s.vol with sealQueue := s.vol.sealQueue ++ added } }) hhead hy hys 65536 tests htests
  have hsettled : s.takeBoundary.settled = { u with
      cat := c, vol := { s.vol with sealQueue := s.vol.sealQueue ++ added }, agenda := rest } := by
    rw [hmade, hsweep]
    exact hrest
  have hend := endChange_of_settled hsettled (hmode.trans hm)
  refine ⟨_, exec_tradeDayBoundary h hc he, ?_, fun slot => ?_⟩
  · rw [hend, close_vol]
    exact ⟨added, rfl, hadded, hall⟩
  · rw [hend, close_cat]
    exact hed slot

/-- What the sweep does to one edition that is CLOSED and outside the queue. -/
theorem swept_edition {s t : State} {day slot d : Nat} {e : Edition} {added : List Nat}
    (hqueue : t.vol.sealQueue = s.vol.sealQueue ++ added) (hadded : ∀ y ∈ added, y ∈ s.dueUnpinned day)
    (hall : ∀ y ∈ s.dueUnpinned day, y ∈ s.vol.sealQueue ++ added)
    (hed : t.cat.edition? slot = (s.cat.edition? slot).map fun e => if slot ∈ s.duePinned day then e.markDue else e)
    (he : s.cat.edition? slot = some e) (hs : e.state = .closed) (hq : slot ∉ s.vol.sealQueue) (hd : e.closedOn = some d) :
    (d + s.req.options.retention ≤ day → e.pins = 0 → slot ∈ t.vol.sealQueue) ∧
      (d + s.req.options.retention ≤ day → 0 < e.pins →
        slot ∉ t.vol.sealQueue ∧ (t.cat.edition? slot).map Edition.due = some true) ∧
      (day < d + s.req.options.retention → slot ∉ t.vol.sealQueue ∧ t.cat.edition? slot = some e) := by
  have hdue := isDue_eq (day := day) hs hq hd
  have hunpinned : slot ∈ s.dueUnpinned day ↔ d + s.req.options.retention ≤ day ∧ e.pins = 0 := by
    rw [mem_dueUnpinned, he]
    simp [hdue]
  have hpinned : slot ∈ s.duePinned day ↔ d + s.req.options.retention ≤ day ∧ 0 < e.pins := by
    rw [mem_duePinned, he]
    simp [hdue]
  have hmem : slot ∈ t.vol.sealQueue ↔ d + s.req.options.retention ≤ day ∧ e.pins = 0 := by
    rw [hqueue, ← hunpinned]
    refine ⟨fun hm => ?_, hall slot⟩
    exact hadded slot ((List.mem_append.1 hm).resolve_left hq)
  rw [he, Option.map_some] at hed
  refine ⟨fun hday hp => hmem.2 ⟨hday, hp⟩, fun hday hp => ⟨fun hm => ?_, ?_⟩, fun hday => ⟨fun hm => ?_, ?_⟩⟩
  · have := (hmem.1 hm).2
    omega
  · rw [hed, if_pos (hpinned.2 ⟨hday, hp⟩)]
    rfl
  · have := (hmem.1 hm).1
    omega
  · rw [hed, if_neg fun hm => by have := (hpinned.1 hm).1; omega]

end State

/-- Settles O28. -/
theorem rolloverAndBoundaryDoTheirWork : Obligations.RolloverAndBoundaryDoTheirWork := by
  unfold Obligations.RolloverAndBoundaryDoTheirWork
  refine ⟨⟨fun s day h hc he => State.exec_dayRollover_books h hc he, fun s day h hc he => ⟨fun hq => ?_, ?_⟩⟩,
    fun s day h hc he => ⟨State.exec_tradeDayBoundary_wakes h hc he, State.exec_tradeDayBoundary_closes h hc he,
      State.exec_tradeDayBoundary_misses h hc he, ?_⟩⟩
  · rw [State.exec_dayRollover h hc he, State.takeRollover_quiet hc he (hq.imp_right State.any_expired_eq_false_iff.2)]
    rfl
  · intro n o v a masked hany hu ho hv ha hk
    rw [State.exec_dayRollover h hc he, State.takeRollover_prices hc he (State.any_expired_iff.2 hany) hu ho hv ha hk]
    rfl
  · intro head x hm hheld hq hx hs
    obtain ⟨t, hexec, ⟨added, hqueue, hadded, hall⟩, hed⟩ := State.exec_tradeDayBoundary_sweeps h hc he hm hheld hq hx hs
    refine ⟨t, hexec, ⟨added, hqueue.symm⟩, fun slot d e hslot hclosed hout hd => ?_⟩
    exact State.swept_edition hqueue hadded hall (hed slot) hslot hclosed hout hd

end Sys2Proof.Machine
end

section
/-! The store's answers in SERVICE, and the close of an edition: CLOSE EDITION, the end of a close, and its mark (O34). -/

namespace Sys2Proof.Machine

/-! ### The store link (R72 to R76) -/

theorem StoreLink.accept_takes {l : StoreLink} {i : Nat} {op : Op} (h : l.Takes i) (hd : op.isDiscard = false) :
    l.accept op = l.occupy i op := by
  simp only [StoreLink.accept, hd, Bool.false_eq_true, if_false, h.2]

/-- The link after an operation in slot i has completed with a failure below the limit: the slot passes on and the failure counter
rises (R73, R76). -/
def StoreLink.faulted (l : StoreLink) (i : Nat) (op : Op) : StoreLink :=
  StoreLink.passOn { l.vacate i with
    failures := l.failures + 1, discards := if op.isDiscard then l.discards - 1 else l.discards } i

theorem StoreLink.faulted_failures (l : StoreLink) (i : Nat) (op : Op) : (l.faulted i op).failures = l.failures + 1 :=
  passOn_failures _ _

namespace State

theorem completeSlot_served (s : State) (i : Nat) (op : Op) (c : Completion) :
    s.completeSlot i op c false = push { s with link := s.link.served i op } (.complete op c) := rfl

theorem completeSlot_faulted {s : State} (hf : s.link.failures < 7) (i : Nat) (op : Op) (c : Completion) :
    s.completeSlot i op c true = push { s with link := s.link.faulted i op } (.complete op c) :=
  if_neg (by simp only [Bool.true_and, Config.failureLimit, decide_eq_true_eq]; omega)

/-- A store answer in SERVICE: its slot passes on, and its completion at the owner is worked through to x. -/
theorem storeAnswer_settles {α : Type} {s x : State} {at_ : SlotTag} {fits : Op → Bool} {returns : α → Returns}
    {ans : Answer α} {op : Op} {c : Completion} {link : StoreLink} (h : s.Working) (ho : s.link.answered? at_ fits = some op)
    (hslot : s.completeSlot at_.slot.toNat op (op.completion returns ans).1 (op.completion returns ans).2 =
      push { s with link := link } (.complete op c))
    (hx : settle 65535 (completed { s with link := link } op c) = x) :
    storeAnswer at_ fits returns ans s = .next x.close := by
  have htaken : s.takeAnswer at_ fits returns ans = push { s with link := link } (.complete op c) := by
    rw [takeAnswer, ho]
    exact hslot
  have hsettled : (s.takeAnswer at_ fits returns ans).settled = x := by
    rw [htaken, settled_push (u := { s with link := link }) h.2.1]
    exact hx
  have hmode : x.req.mode = .service := by
    rw [← hsettled, (kept_settled _).mode, (s.moves_takeAnswer at_ fits returns ans).kept.mode]
    exact h.2.2.1
  exact event_settles h (by rw [ho]; rfl) hsettled hmode

end State

/-! ### The gap list and the end of a close (R57, R58) -/

theorem Catalogue.mem_gapsOf {c : Catalogue} {slot planned n : Nat} : n ∈ c.gapsOf slot planned ↔
    1 ≤ n ∧ n ≤ planned ∧ ∀ p ∈ c.pages, p.slot = slot → p.number = n → p.state ≠ .filed := by
  simp only [gapsOf, List.mem_filter, List.mem_range'_1, Bool.not_eq_true', List.any_eq_false, Bool.and_eq_true,
    beq_iff_eq, not_and, and_assoc]
  exact and_congr_right fun _ => and_congr_left' (by omega)

theorem Catalogue.withEdition_withEdition (c : Catalogue) (slot : Nat) (f g : Edition → Edition) :
    (c.withEdition slot f).withEdition slot g = c.withEdition slot fun e => g (f e) := by
  simp only [withEdition, List.modify_modify_eq, Option.map_comp_map]
  rfl

namespace State

/-- The end of a close over a link with an empty slot. -/
theorem closeTest_takes {s : State} {slot i : Nat} {e : Edition} (h : s.cat.edition? slot = some e) (he : s.Ends slot e)
    (hl : s.link.Takes i) :
    s.closeTest slot = latch { s with
      cat := s.cat.withEdition slot fun x => x.closedOut s.cal.day (s.cat.gapsOf slot e.planned)
      link := s.link.occupy i (s.markOf slot e) } e.closeEvent := by
  rw [closeTest_ends h he hl.1, StoreLink.accept_takes hl rfl]

/-- The close of an OPEN edition begins at a request: off the deadline list, and CLOSING (R55). -/
def closing (s : State) (slot : Nat) : State :=
  { s with
    deadlines := s.deadlines.filter fun x => x != slot
    cat := s.cat.withEdition slot fun e => { e with state := .closing, forced := false, deadline := none } }

/-! ### CLOSE EDITION by its cases (R55) -/

variable {s : State} {tag : U8} {key : EditionKey}

theorem closeEdition_notInService (hm : s.req.mode ≠ .service) : s.closeEdition tag key = s.refuse 0x25 tag .notInService :=
  if_pos (by simpa [inService] using hm)

theorem not_inService_of_service (hm : s.req.mode = .service) : ¬(!s.inService) = true := by simp [inService, hm]

section InService

variable (hm : s.req.mode = .service)
include hm

theorem closeEdition_outOfRange (hc : 15 < key.code.toNat) : s.closeEdition tag key = s.refuse 0x25 tag .outOfRange :=
  (if_neg (not_inService_of_service hm)).trans (if_pos hc)

variable (hc : key.code.toNat ≤ 15)
include hc

theorem closeEdition_notFound (hs : s.cat.slotOf key = none) : s.closeEdition tag key = s.refuse 0x25 tag .notFound :=
  (if_neg (not_inService_of_service hm)).trans ((if_neg (by omega)).trans (by simp only [hs]))

variable {slot : Nat} {e : Edition} (hs : s.cat.slotOf key = some slot) (he : s.cat.edition? slot = some e)
include hs he

theorem closeEdition_badState (ho : e.state ≠ .opened) : s.closeEdition tag key = s.refuse 0x25 tag .badState :=
  (if_neg (not_inService_of_service hm)).trans ((if_neg (by omega)).trans (by simp [hs, he, ho]))

/-- An OPEN edition's close begins, and may end in the same change. -/
theorem closeEdition_begins (ho : e.state = .opened) : s.closeEdition tag key =
    push ((s.closing slot).answer 0x25 tag .ok (u16 (s.cat.inFlight slot))) (.closeTest slot) :=
  (if_neg (not_inService_of_service hm)).trans ((if_neg (by omega)).trans (by simp [hs, he, ho]; rfl))

end InService

theorem closing_edition? {slot : Nat} {e : Edition} (he : s.cat.edition? slot = some e) :
    (s.closing slot).cat.edition? slot = some { e with state := .closing, forced := false, deadline := none } := by
  simp only [closing, Catalogue.edition?_withEdition, if_true, he, Option.map_some]

/-- With a page on its way the edition waits, CLOSING (R55). -/
theorem exec_closeEdition_waits {slot : Nat} {e : Edition} (h : s.Ready (.closeEdition tag key)) (hm : s.req.mode = .service)
    (hc : key.code.toNat ≤ 15) (hs : s.cat.slotOf key = some slot) (he : s.cat.edition? slot = some e) (ho : e.state = .opened)
    (hf : 0 < s.cat.inFlight slot) :
    exec (.closeEdition tag key) s = .next ((s.closing slot).replied 0x25 tag .ok (u16 (s.cat.inFlight slot))) := by
  refine SameFrame.request_replied (u := s) (x := s.closing slot) (body := fun s => s.closeEdition tag key) h hm
    ⟨rfl, rfl, rfl, rfl, rfl, rfl, rfl⟩ ⟨rfl, rfl, rfl, rfl⟩ h.1.1 rfl ?_
  rw [closeEdition_begins (s := s.popped) hm hc hs he ho, settled_push (by exact h.1.1.1), runTask,
    closeTest_stays (s := (s.popped.closing slot).answer ..) (closing_edition? (s := s.popped) he) fun hends =>
      Nat.pos_iff_ne_zero.1 hf hends.2]
  exact settle_of_nil _ _ h.1.1.1

/-- With no page on its way the close ends in the same change (R57, R58). -/
theorem exec_closeEdition_ends {slot i : Nat} {e : Edition} (h : s.Ready (.closeEdition tag key)) (hm : s.req.mode = .service)
    (hc : key.code.toNat ≤ 15) (hs : s.cat.slotOf key = some slot) (he : s.cat.edition? slot = some e) (ho : e.state = .opened)
    (hf : s.cat.inFlight slot = 0) (hl : s.link.Takes i) :
    exec (.closeEdition tag key) s =
      .next (((s.closing slot).closeTest slot).popped.answer 0x25 tag .ok (u16 0)).close := by
  have hbegins := closeEdition_begins (s := s.popped) (tag := tag) hm hc hs he ho
  have hends : (s.closing slot).Ends slot { e with state := .closing, forced := false, deadline := none } := ⟨rfl, hf⟩
  have hclosed := closeTest_takes (i := i) (closing_edition? he) hends hl
  have hclosed' := closeTest_takes (s := (s.popped.closing slot).answer 0x25 tag .ok (u16 (s.popped.cat.inFlight slot)))
    (i := i) (closing_edition? (s := s.popped) he) hends hl
  refine request_settles (body := fun s => s.closeEdition tag key) h ?_ ?_
  · rw [hbegins, settled_push (by exact h.1.1.1), runTask, hclosed', settle_of_nil _ _ (by exact h.1.1.1), hclosed]
    rw [show s.popped.cat.inFlight slot = 0 from hf]
    rfl
  · rw [hclosed]
    exact hm

/-- The end of a close as a command (R57). -/
theorem exec_closeEnd {slot : BitVec 6} {i : Nat} {e : Edition} (h : s.Working) (he : s.cat.edition? slot.toNat = some e)
    (hends : s.Ends slot.toNat e) (hl : s.link.Takes i) :
    exec (.closeEnd slot) s = .next (s.closeTest slot.toNat).close := by
  have hclosed := closeTest_takes he hends hl
  refine event_settles (happens := fun s => s.closeReady slot.toNat) (body := fun s => s.closeTest slot.toNat) h ?_ ?_ ?_
  · simp [closeReady, he, hends.1, hends.2]
  · exact settled_of_nil (by rw [hclosed]; exact h.2.1)
  · rw [hclosed]
    exact h.2.2.1

/-- The mark's completion only lets the volume unit test its head: with an empty queue nothing follows (R58, R87). -/
theorem completed_closeMark {slot : Nat} {m : CloseMark} (ha : s.agenda = []) (hq : s.vol.sealQueue = []) (c : Completion) :
    settle 65535 (s.completed (.closeMark slot m) c) = s := by
  have hpush : s.completed (.closeMark slot m) c = s.push .sealTest := by cases c <;> rfl
  rw [hpush, settle_of_cons (x := .sealTest) (rest := []) 65534 (by simp [ha])]
  have hnone : runTask { s.push .sealTest with agenda := [] } .sealTest = { s with agenda := [] } := by
    simp [runTask, hq, sealTest, push]
  rw [hnone, agenda_of_nil ha]
  exact settle_of_nil _ _ ha

end State

/-- The mark's completion with the queue empty passes its slot on, and changes nothing else. -/
theorem exec_closeMarkCompletion {s : State} {at_ : SlotTag} {slot : Nat} {m : CloseMark} {ans : Answer Unit} {c : Completion}
    {link : StoreLink} (h : s.Working) (hq : s.vol.sealQueue = [])
    (ho : s.link.answered? at_ Op.isCloseMark = some (.closeMark slot m))
    (hslot : s.completeSlot at_.slot.toNat (.closeMark slot m) (Op.completion (.closeMark slot m) (fun _ => .nothing) ans).1
      (Op.completion (.closeMark slot m) (fun _ => .nothing) ans).2 =
        State.push { s with link := link } (.complete (.closeMark slot m) c)) :
    exec (.closeMarkCompletion at_ ans) s = .next (State.close { s with link := link }) :=
  State.storeAnswer_settles h ho hslot (State.completed_closeMark (s := { s with link := link }) h.2.1 hq c)

/-- Settles O34. -/
theorem closeWaitsForPagesThenEnds : Obligations.CloseWaitsForPagesThenEnds := by
  unfold Obligations.CloseWaitsForPagesThenEnds
  refine ⟨fun s tag key h => ⟨fun hm => ?_, fun hm hc => ?_, fun hm hc hs => ?_, fun slot e hm hc hs he =>
    ⟨fun ho => ?_, fun ho hf => ?_, fun i ho hf hl => ?_⟩⟩, fun s slot e i h he hs hf hl => ?_, fun c slot planned n =>
    Catalogue.mem_gapsOf,
    fun s at_ slot m h hq ho => ⟨?_, fun hf => ?_⟩⟩
  · exact request_replies h (State.closeEdition_notInService hm)
  · exact request_replies h (State.closeEdition_outOfRange hm hc)
  · exact request_replies h (State.closeEdition_notFound hm hc hs)
  · exact request_replies h (State.closeEdition_badState hm hc hs he ho)
  · exact State.exec_closeEdition_waits h hm hc hs he ho hf
  · rw [State.exec_closeEdition_ends h hm hc hs he ho hf hl,
      State.closeTest_takes (i := i) (State.closing_edition? he) ⟨rfl, hf⟩ hl]
    simp only [State.closing, Catalogue.withEdition_withEdition]
    rfl
  · rw [State.exec_closeEnd h he ⟨hs, hf⟩ hl, State.closeTest_takes he ⟨hs, hf⟩ hl]
    rfl
  · exact exec_closeMarkCompletion h hq ho (State.completeSlot_served ..)
  · refine ⟨_, exec_closeMarkCompletion h hq ho (State.completeSlot_faulted hf ..), State.close_cat _, ?_⟩
    rw [State.close_link]
    exact StoreLink.faulted_failures _ _ _

end Sys2Proof.Machine
end

section
/-! The pressure seal that a full table brings (R48, R86, R87). -/

namespace Sys2Proof.Machine

/-! ### The edition that a pressure seal takes (R86) -/

/-- The element that comes before every other one stands first in the sorted list. -/
theorem sortBy_head {α : Type} {le : α → α → Bool} (htot : ∀ a b, le a b = true ∨ le b a = true)
    (htrans : ∀ a b c, le a b = true → le b c = true → le a c = true) {l : List α} {x : α} (hx : x ∈ l)
    (hfirst : ∀ y ∈ l, y ≠ x → le y x = false) : ∃ rest, sortBy le l = x :: rest := by
  have hsorted := sortBy_pairwise htot htrans l
  have hmem (y : α) : y ∈ sortBy le l ↔ y ∈ l := (sortBy_perm le l).mem_iff
  cases hl : sortBy le l with
  | nil =>
    rw [← hmem, hl] at hx
    cases hx
  | cons y rest =>
    rw [hl] at hsorted hmem
    by_cases hy : y = x
    · exact ⟨rest, by rw [hy]⟩
    · have hrest : x ∈ rest := ((List.mem_cons.1 ((hmem x).2 hx)).resolve_left fun h => hy h.symm)
      have hle := (List.pairwise_cons.1 hsorted).1 x hrest
      rw [hfirst y ((hmem y).1 (by simp)) hy] at hle
      cases hle

theorem closedBefore_iff (a b : Nat × Edition) : closedBefore a b = true ↔
    a.2.closedOn.getD 0 < b.2.closedOn.getD 0 ∨ a.2.closedOn.getD 0 = b.2.closedOn.getD 0 ∧
      (a.2.key.day.toNat < b.2.key.day.toNat ∨ a.2.key.day.toNat = b.2.key.day.toNat ∧
        a.2.key.code.toNat ≤ b.2.key.code.toNat) := by
  simp [closedBefore, EditionKey.before]

theorem closedBefore_total (a b : Nat × Edition) : closedBefore a b = true ∨ closedBefore b a = true := by
  simp only [closedBefore_iff]
  omega

theorem closedBefore_trans (a b c : Nat × Edition) (h : closedBefore a b = true) (k : closedBefore b c = true) :
    closedBefore a c = true := by
  simp only [closedBefore_iff] at *
  omega

theorem StoreLink.marking_iff {l : StoreLink} {slot : Nat} : l.marking slot = true ↔ ∃ m, .closeMark slot m ∈ l.held := by
  simp only [marking, List.any_eq_true]
  constructor
  · rintro ⟨op, hop, hmark⟩
    cases op with
    | closeMark x m =>
      obtain rfl : x = slot := by simpa using hmark
      exact ⟨m, hop⟩
    | _ => simp at hmark
  · rintro ⟨m, hm⟩
    exact ⟨_, hm, by simp⟩

namespace State

/-- The edition in the slot is CLOSED and unpinned (R86). -/
abbrev Sealable (s : State) (slot : Nat) (e : Edition) : Prop := s.cat.edition? slot = some e ∧ e.state = .closed ∧ e.pins = 0

/-- The edition was closed before the other one, or on the same day with a lower key (R86). -/
abbrev ClosedFirst (e y : Edition) : Prop :=
  e.closedOn.getD 0 < y.closedOn.getD 0 ∨ e.closedOn.getD 0 = y.closedOn.getD 0 ∧
    (e.key.day.toNat < y.key.day.toNat ∨ e.key.day = y.key.day ∧ e.key.code.toNat < y.key.code.toNat)

variable {s : State} {slot : Nat} {e : Edition}

theorem mem_sealable {x : Nat × Edition} :
    x ∈ s.cat.occupied.filter (fun x => x.2.state == .closed && x.2.pins == 0) ↔ s.Sealable x.1 x.2 := by
  simp [List.mem_filter, Catalogue.mem_occupied]

/-- With an edition in the queue, or none to seal, a pressure request has no effect (R86). -/
theorem pressureSeal_idle (h : s.vol.sealQueue ≠ [] ∨ ∀ slot e, ¬s.Sealable slot e) : s.pressureSeal = s := by
  unfold pressureSeal
  split
  · next hq =>
    have hnone : s.cat.occupied.filter (fun x => x.2.state == .closed && x.2.pins == 0) = [] :=
      List.eq_nil_iff_forall_not_mem.2 fun x hx =>
        h.resolve_left (fun hn => hn (List.isEmpty_iff.1 hq)) x.1 x.2 (mem_sealable.1 hx)
    simp only [hnone, sortBy]
  · rfl

/-- The edition closed first joins the empty queue, and the head is tested (R83, R86). -/
theorem pressureSeal_joins (hq : s.vol.sealQueue = []) (hs : s.Sealable slot e)
    (hfirst : ∀ x y, s.Sealable x y → x ≠ slot → ClosedFirst e y) :
    s.pressureSeal = push { s with vol := { s.vol with sealQueue := [slot] } } .sealTest := by
  have hhead : ∃ rest, sortBy closedBefore (s.cat.occupied.filter fun x => x.2.state == .closed && x.2.pins == 0) =
      (slot, e) :: rest := by
    refine sortBy_head closedBefore_total closedBefore_trans (mem_sealable.2 hs) fun y hy hne => ?_
    have hy := mem_sealable.1 hy
    have hslot : y.1 ≠ slot := fun h => hne (Prod.ext h (Option.some.inj (hy.1.symm.trans (h ▸ hs.1))))
    have hlt := hfirst y.1 y.2 hy hslot
    rw [Bool.eq_false_iff, ne_eq, closedBefore_iff]
    rw [ClosedFirst, ← BitVec.toNat_inj] at hlt
    dsimp only
    omega
  obtain ⟨rest, hrest⟩ := hhead
  simp [pressureSeal, hrest, enqueueSeal, hq]

/-! ### The test of the head (R87) -/

/-- While the head's close mark is in flight its seal does not start. -/
theorem sealTest_marked (hs : s.cat.edition? slot = some e) (hm : s.link.marking slot = true) : sealTest [slot] s = s := by
  simp [sealTest, hs, hm]

/-- An unpinned CLOSED head starts its seal. -/
theorem sealTest_starts {i : Nat} (hs : s.Sealable slot e) (hmode : s.req.mode = .service) (hm : s.link.marking slot = false)
    (hl : s.link.Takes i) : sealTest [slot] s = { s with
      cat := s.cat.withEdition slot fun e => { e with state := .sealing }
      link := s.link.occupy i (.sealVolume slot (s.cat.sealContent slot e)) } := by
  obtain ⟨he, hclosed, hpins⟩ := hs
  simp only [sealTest, he, hclosed, hpins, hmode, hm, Mode.seals]
  exact handOff_takes (s := s.withCat _) (i := i) hl rfl

/-! ### A request refused TABLE_FULL (R48) -/

section Refused

variable {c : Instr} {body : State → State} {kind tag : U8} (h : s.Ready c)
  (hb : body s.popped = s.popped.pressureSeal.refuse kind tag .tableFull)
include h hb

theorem firstSent_pressure : ∃ t, request c body s = .next t ∧ FirstSent s t (s.replyFrame kind tag .tableFull []) := by
  obtain ⟨-, hroom, hwaiting⟩ := takes_port h.1.2.2
  have hport : s.popped.pressureSeal.port = s.popped.port := s.popped.moves_pressureSeal.kept.port
  refine ⟨_, request_taken h.1.2.2 h.2, ?_⟩
  rw [take_of_awake h.1.2.1, hb]
  refine firstSent_endChange hwaiting hroom ?_ ?_ ?_
  · show s.popped.pressureSeal.port.outbound = _
    rw [hport]
    rfl
  · show s.popped.pressureSeal.port.waiting = _
    rw [hport]
    rfl
  · simp only [refuse, answer, replyFrame, frame, hport]
    rfl

/-- The edition that joins the queue, and what its test leaves. -/
theorem request_pressure_joins {x : State} (hm : s.req.mode = .service) (hx : SameFrame s x) (hfree : x.pool.free = s.pool.free)
    (hq : s.vol.sealQueue = []) (hs : s.Sealable slot e) (hfirst : ∀ x y, s.Sealable x y → x ≠ slot → ClosedFirst e y)
    (htest : sealTest [slot] (refuse { s.popped with vol := { s.vol with sealQueue := [slot] } } kind tag .tableFull) =
      x.popped.answer kind tag .tableFull []) :
    request c body s = .next (x.replied kind tag .tableFull []) := by
  refine SameFrame.request_replied h hm hx ⟨rfl, rfl, rfl, rfl⟩ h.1.1 hfree ?_
  rw [hb, pressureSeal_joins (s := s.popped) hq hs hfirst]
  refine (settled_push (u := refuse { s.popped with vol := { s.vol with sealQueue := [slot] } } kind tag .tableFull)
    h.1.1.1).trans ?_
  rw [runTask]
  refine (congrArg (settle 65535) htest).trans (settle_of_nil _ _ ?_)
  exact hx.agenda.trans h.1.1.1

theorem pressureRefused (hm : s.req.mode = .service) : PressureRefused s kind tag (request c body s) := by
  refine ⟨fun hidle => ?_, fun slot e hq hs hfirst => ⟨fun hmark => ?_, fun i hmark hl => ?_⟩⟩
  · exact request_replies h (by rw [hb, pressureSeal_idle (s := s.popped) hidle]; rfl)
  · refine request_pressure_joins h hb hm ⟨rfl, rfl, rfl, rfl, rfl, rfl, rfl⟩ rfl hq hs hfirst ?_
    exact sealTest_marked hs.1 (StoreLink.marking_iff.2 hmark)
  · refine request_pressure_joins h hb hm ⟨rfl, rfl, rfl, rfl, rfl, rfl, rfl⟩ rfl hq hs hfirst ?_
    refine sealTest_starts (i := i) hs hm ?_ hl
    exact Bool.eq_false_iff.2 fun hmarking => (StoreLink.marking_iff.1 hmarking).elim hmark

end Refused

end State

end Sys2Proof.Machine
end

section
/-! OPEN EDITION and REPLAN EDITION (O31). -/

namespace Sys2Proof.Machine

/-! ### OPEN EDITION by its cases (R42, R43, R48) -/

/-- The fields of OPEN EDITION are in range (R42). -/
abbrev OpenInRange (planned : U8) (key : EditionKey) (d : DeadlineFields) : Prop :=
  1 ≤ planned.toNat ∧ planned.toNat ≤ 128 ∧ key.code.toNat ≤ 15 ∧ (d.flag = 0 ∨ d.hour.toNat ≤ 23 ∧ d.minute.toNat ≤ 59)

theorem openInRange_iff (planned : U8) (key : EditionKey) (d : DeadlineFields) :
    (!planInRange planned || decide (15 < key.code.toNat) || !deadlineInRange d) = true ↔ ¬OpenInRange planned key d := by
  rw [Bool.or_eq_true, Bool.or_eq_true, not_deadlineInRange_iff]
  simp only [planInRange, Bool.not_eq_true', decide_eq_false_iff_not, decide_eq_true_eq, OpenInRange]
  by_cases hflag : d.flag = 0
  · simp only [hflag, ne_eq, not_true, false_and, or_false, true_or, and_true]
    omega
  · simp only [hflag, ne_eq, not_false_eq_true, true_and, false_or]
    omega

namespace State

variable {s : State} {tag : U8} {key : EditionKey} {planned : U8} {d : DeadlineFields}

theorem openEdition_notInService (hm : s.req.mode ≠ .service) :
    s.openEdition tag key planned d = s.refuse 0x21 tag .notInService := if_pos (by simpa [inService] using hm)

section InService

variable (hm : s.req.mode = .service)
include hm

theorem openEdition_calendarUnset (hc : s.cal.state = .invalid) :
    s.openEdition tag key planned d = s.refuse 0x21 tag .calendarUnset :=
  (if_neg (not_inService_of_service hm)).trans (if_pos (by simp [hc]))

variable (hc : s.cal.state ≠ .invalid)
include hc

theorem openEdition_outOfRange (hr : ¬OpenInRange planned key d) :
    s.openEdition tag key planned d = s.refuse 0x21 tag .outOfRange :=
  (if_neg (not_inService_of_service hm)).trans ((if_neg (by simpa using hc)).trans (if_pos ((openInRange_iff _ _ _).2 hr)))

variable (hr : OpenInRange planned key d)
include hr

theorem openEdition_inRange : s.openEdition tag key planned d =
    if (s.cat.slotOf key).isSome then s.refuse 0x21 tag .duplicate
    else match s.cat.editions.findIdx? Option.isNone with
      | none => s.pressureSeal.refuse 0x21 tag .tableFull
      | some slot => (s.open slot key planned (givenDeadline d)).answer 0x21 tag .ok
          (u8 slot ++ u8 (deadlinePosition (s.open slot key planned (givenDeadline d)).deadlines slot)) :=
  (if_neg (not_inService_of_service hm)).trans ((if_neg (by simpa using hc)).trans
    (if_neg fun hn => (openInRange_iff _ _ _).1 hn hr))

theorem openEdition_duplicate (hs : s.cat.slotOf key ≠ none) :
    s.openEdition tag key planned d = s.refuse 0x21 tag .duplicate :=
  (openEdition_inRange hm hc hr).trans (if_pos (Option.isSome_iff_ne_none.2 hs))

variable (hs : s.cat.slotOf key = none)
include hs

theorem openEdition_tableFull (hfull : ∀ e ∈ s.cat.editions, e ≠ none) :
    s.openEdition tag key planned d = s.pressureSeal.refuse 0x21 tag .tableFull := by
  have hnone : s.cat.editions.findIdx? Option.isNone = none :=
    List.findIdx?_eq_none_iff.2 fun e he =>
      Option.isNone_eq_false_iff.2 (Option.isSome_iff_ne_none.2 (hfull e he))
  rw [openEdition_inRange hm hc hr, hs, hnone]
  rfl

theorem openEdition_opens {slot : Nat} (hslot : s.cat.editions.findIdx? Option.isNone = some slot) :
    s.openEdition tag key planned d = (s.open slot key planned (givenDeadline d)).answer 0x21 tag .ok
      (u8 slot ++ u8 (deadlinePosition (s.open slot key planned (givenDeadline d)).deadlines slot)) := by
  rw [openEdition_inRange hm hc hr, hs, hslot]
  rfl

end InService

theorem deadlinePosition_of_not_mem {l : List Nat} {slot : Nat} (h : slot ∉ l) : deadlinePosition l slot = 255 := by
  have hnone : l.findIdx? (fun x => x == slot) = none :=
    List.findIdx?_eq_none_iff.2 fun x hx => by simpa using fun heq : x = slot => h (heq ▸ hx)
  simp [deadlinePosition, hnone]

/-- Without a deadline the list stays. -/
theorem open_none (s : State) (slot : Nat) (key : EditionKey) (planned : U8) :
    s.open slot key planned none = { s with cat := s.cat.putEdition slot (some (newEdition key planned none)) } := rfl

/-- With a deadline the edition joins the list (R37, R43). -/
theorem open_some (s : State) (slot : Nat) (key : EditionKey) (planned : U8) (x : Deadline) :
    s.open slot key planned (some x) =
      let cat := s.cat.putEdition slot (some (newEdition key planned (some x)))
      { s with
        cat := cat
        deadlines := insertDeadline (fun y => (cat.deadlineOf y).getD 0) slot (s.deadlines.filter fun y => y != slot) } := rfl

/-- In SERVICE neither the list nor the catalogue is tested at the end of a change. -/
theorem Calm.withCatalogue {s : State} (h : s.Calm) (hm : s.req.mode = .service) (l : List Nat) (cat : Catalogue) :
    Calm { s with deadlines := l, cat := cat } :=
  SameFrame.calm (u := s) ⟨rfl, rfl, rfl, rfl, rfl, rfl, rfl⟩ h hm rfl

/-! ### REPLAN EDITION by its cases (R44) -/

end State

theorem Catalogue.highestPage_le {c : Catalogue} {slot n : Nat} :
    c.highestPage slot ≤ n ↔ ∀ p ∈ c.pages, p.slot = slot → p.number ≤ n := by
  have hmem (k : Nat) : k ∈ (c.pagesOf slot).map Page.number ↔ ∃ p ∈ c.pages, p.slot = slot ∧ p.number = k := by
    simp [pagesOf, and_assoc]
  constructor
  · exact fun h p hp hs => (foldl_max.2 _ ((hmem _).2 ⟨p, hp, hs, rfl⟩)).trans h
  · intro h
    by_cases hnil : (c.pagesOf slot).map Page.number = []
    · simp [highestPage, hnil]
    · obtain ⟨p, hp, hs, heq⟩ := (hmem _).1 (foldl_max_mem hnil)
      exact heq.symm.trans_le (h p hp hs)

/-- The fields of REPLAN EDITION are in range (R44). -/
abbrev ReplanInRange (key : EditionKey) (planned : U8) : Prop :=
  key.code.toNat ≤ 15 ∧ 1 ≤ planned.toNat ∧ planned.toNat ≤ 128

theorem replanInRange_iff (key : EditionKey) (planned : U8) :
    (decide (15 < key.code.toNat) || !planInRange planned) = true ↔ ¬ReplanInRange key planned := by
  simp only [planInRange, Bool.or_eq_true, Bool.not_eq_true', decide_eq_false_iff_not, decide_eq_true_eq, ReplanInRange]
  omega

namespace State

variable {s : State} {tag : U8} {key : EditionKey} {planned : U8}

theorem replan_notInService (hm : s.req.mode ≠ .service) : s.replan tag key planned = s.refuse 0x22 tag .notInService :=
  if_pos (by simpa [inService] using hm)

section InService

variable (hm : s.req.mode = .service)
include hm

theorem replan_outOfRange (hr : ¬ReplanInRange key planned) : s.replan tag key planned = s.refuse 0x22 tag .outOfRange :=
  (if_neg (not_inService_of_service hm)).trans (if_pos ((replanInRange_iff _ _).2 hr))

variable (hr : ReplanInRange key planned)
include hr

theorem replan_notFound (hs : s.cat.slotOf key = none) : s.replan tag key planned = s.refuse 0x22 tag .notFound :=
  (if_neg (not_inService_of_service hm)).trans ((if_neg fun hn => (replanInRange_iff _ _).1 hn hr).trans (by simp only [hs]))

variable {slot : Nat} {e : Edition} (hs : s.cat.slotOf key = some slot) (he : s.cat.edition? slot = some e)
include hs he

theorem replan_found : s.replan tag key planned =
    if e.state ≠ .opened then s.refuse 0x22 tag .badState
    else if planned.toNat < s.cat.highestPage slot then s.refuse 0x22 tag .outOfRange
    else (s.withCat fun c => c.withEdition slot fun e => { e with planned := planned.toNat }).answer 0x22 tag .ok [planned] :=
  (if_neg (not_inService_of_service hm)).trans
    ((if_neg fun hn => (replanInRange_iff _ _).1 hn hr).trans (by simp [hs, he, u8]))

end InService

end State

/-- Settles O31. -/
theorem editionsAreOpenedAndReplanned : Obligations.EditionsAreOpenedAndReplanned := by
  unfold Obligations.EditionsAreOpenedAndReplanned
  refine ⟨fun s tag key planned d h => ⟨fun hm => ?_, fun hm hc => ?_, fun hm hc => ⟨fun hr => ?_, fun hr hs => ?_,
      fun hr hs hfull => ?_, fun slot hr hs hslot => ⟨fun hd hn => ?_, fun hd => ?_⟩⟩⟩,
    fun s tag key planned h => ⟨fun hm => ?_, fun hm hr => ?_, fun hm hr hs => ?_, fun slot e hm hr hs he => ?_⟩⟩
  · exact request_replies h (State.openEdition_notInService hm)
  · exact request_replies h (State.openEdition_calendarUnset hm hc)
  · exact request_replies h (State.openEdition_outOfRange hm hc hr)
  · exact request_replies h (State.openEdition_duplicate hm hc hr hs)
  · have hbody := State.openEdition_tableFull (s := s.popped) (tag := tag) hm hc hr hs hfull
    exact ⟨State.pressureRefused h hbody hm, State.firstSent_pressure h hbody⟩
  · refine request_answers h ?_ (State.Calm.withCatalogue (s := s.popped) h.1.1 hm s.deadlines _) rfl rfl
    refine (State.openEdition_opens (s := s.popped) hm hc hr hs hslot).trans ?_
    rw [givenDeadline_clear hd, State.open_none]
    refine congrArg (fun n => State.answer _ 0x21 tag .ok (u8 slot ++ u8 n)) ?_
    exact State.deadlinePosition_of_not_mem hn
  · refine request_answers h ?_ (State.Calm.withCatalogue (s := s.popped) h.1.1 hm _ _) rfl rfl
    refine (State.openEdition_opens (s := s.popped) hm hc hr hs hslot).trans ?_
    rw [givenDeadline_set hd, State.open_some]
    rfl
  · exact request_replies h (State.replan_notInService hm)
  · exact request_replies h (State.replan_outOfRange hm hr)
  · exact request_replies h (State.replan_notFound hm hr hs)
  · have hfound := State.replan_found (s := s.popped) (tag := tag) hm hr hs he
    refine ⟨fun ho => ?_, fun ho hp => ?_, fun ho hp => ?_⟩
    · exact request_replies h (hfound.trans (if_pos ho))
    · refine request_replies h (hfound.trans ((if_neg (not_not_intro ho)).trans (if_pos ?_)))
      obtain ⟨p, hp, hslot, hlt⟩ := hp
      exact hlt.trans_le (Catalogue.highestPage_le.1 le_rfl p hp hslot)
    · have hplan : ¬planned.toNat < s.cat.highestPage slot := Nat.not_lt.2 (Catalogue.highestPage_le.2 hp)
      exact request_answers h (hfound.trans ((if_neg (not_not_intro ho)).trans (if_neg hplan)))
        (State.Calm.withCatalogue (s := s.popped) h.1.1 hm s.deadlines _) rfl rfl

end Sys2Proof.Machine
end

section
/-! FILE PAGE and FILE PHOTO: the layout of a page, its version, and the checks in order (O32). -/

namespace Sys2Proof.Machine

/-! ### The layout (R9, R45) -/

/-- The tile lies in the placement's rectangle. -/
abbrev Covers (p : Placement) (col row : Nat) : Prop :=
  p.firstCol.toNat ≤ col ∧ col < p.firstCol.toNat + p.cols.toNat ∧ p.firstRow.toNat ≤ row ∧
    row < p.firstRow.toNat + p.rows.toNat

/-- The photograph has a number, and the rectangle is 1 to 4 by 1 to 4 (R9). -/
abbrev Shaped (p : Placement) : Prop :=
  p.photo ≠ 0 ∧ 1 ≤ p.cols.toNat ∧ p.cols.toNat ≤ 4 ∧ 1 ≤ p.rows.toNat ∧ p.rows.toNat ≤ 4

/-- A rectangle that has tiles lies inside the grid exactly when its tiles do. -/
theorem covers_inside_iff {p : Placement} (hc : 1 ≤ p.cols.toNat) (hr : 1 ≤ p.rows.toNat) (cols rows : Nat) :
    (∀ col row, Covers p col row → 1 ≤ col ∧ col ≤ cols ∧ 1 ≤ row ∧ row ≤ rows) ↔
      1 ≤ p.firstCol.toNat ∧ p.firstCol.toNat + p.cols.toNat ≤ cols + 1 ∧
        1 ≤ p.firstRow.toNat ∧ p.firstRow.toNat + p.rows.toNat ≤ rows + 1 := by
  constructor
  · intro h
    have hfirst := h p.firstCol.toNat p.firstRow.toNat (by omega)
    have hlast := h (p.firstCol.toNat + p.cols.toNat - 1) (p.firstRow.toNat + p.rows.toNat - 1) (by omega)
    omega
  · intro h col row hcovers
    omega

theorem placementFits_iff (g : Grid) (p : Placement) : placementFits g p = true ↔ p.photo ≠ 0 ∧ 1 ≤ p.cols.toNat ∧
    p.cols.toNat ≤ 4 ∧ 1 ≤ p.rows.toNat ∧ p.rows.toNat ≤ 4 ∧
    ∀ col row, Covers p col row → 1 ≤ col ∧ col ≤ g.cols ∧ 1 ≤ row ∧ row ≤ g.rows := by
  rw [placementFits, decide_eq_true_iff]
  refine and_congr_right fun _ => and_congr_right fun hc => and_congr_right fun _ => and_congr_right fun hr =>
    and_congr_right fun _ => (covers_inside_iff hc hr _ _).symm

/-- Two rectangles that have tiles overlap exactly when they share one. -/
theorem overlap_eq_false_iff {p q : Placement} (hp : Shaped p) (hq : Shaped q) :
    overlap p q = false ↔ ∀ col row, ¬(Covers p col row ∧ Covers q col row) := by
  obtain ⟨-, hpc, -, hpr, -⟩ := hp
  obtain ⟨-, hqc, -, hqr, -⟩ := hq
  rw [overlap, decide_eq_false_iff_not]
  constructor
  · intro h col row hcovers
    omega
  · intro h hoverlap
    refine h (max p.firstCol.toNat q.firstCol.toNat) (max p.firstRow.toNat q.firstRow.toNat) ?_
    omega

theorem placementsApart_iff : ∀ l : List Placement, placementsApart l = true ↔
    l.Pairwise fun p q => p.photo ≠ q.photo ∧ overlap p q = false
  | [] => by simp [placementsApart]
  | p :: l => by
    rw [placementsApart, Bool.and_eq_true, placementsApart_iff l, List.pairwise_cons, List.all_eq_true]
    refine and_congr_left' (forall₂_congr fun q _ => ?_)
    rw [Bool.and_eq_true, Bool.not_eq_true', bne_iff_ne, and_comm, ne_comm]

/-- The layout check: grid, count, and placements inside the grid that share no tile and no photograph (R9, R45). -/
theorem layoutFits_iff (f : FilePageFields) : layoutFits f = true ↔
    (1 ≤ f.cols.toNat ∧ f.cols.toNat ≤ 8 ∧ 1 ≤ f.rows.toNat ∧ f.rows.toNat ≤ 12) ∧ f.count.toNat ≤ 12 ∧
    f.placements.length = f.count.toNat ∧
    (∀ p ∈ f.placements, p.photo ≠ 0 ∧ 1 ≤ p.cols.toNat ∧ p.cols.toNat ≤ 4 ∧ 1 ≤ p.rows.toNat ∧ p.rows.toNat ≤ 4 ∧
      ∀ col row, Covers p col row → 1 ≤ col ∧ col ≤ f.cols.toNat ∧ 1 ≤ row ∧ row ≤ f.rows.toNat) ∧
    f.placements.Pairwise fun p q => p.photo ≠ q.photo ∧ ∀ col row, ¬(Covers p col row ∧ Covers q col row) := by
  simp only [layoutFits, gridIn, Bool.and_eq_true, decide_eq_true_eq, beq_iff_eq, List.all_eq_true, placementFits_iff,
    placementsApart_iff]
  rw [and_assoc, and_assoc, and_assoc]
  refine and_congr_right fun _ => and_congr_right fun _ => and_congr_right fun _ => and_congr_right fun hfits => ?_
  have hshaped (p : Placement) (hp : p ∈ f.placements) : Shaped p := by
    obtain ⟨hn, hc, hc4, hr, hr4, -⟩ := hfits p hp
    exact ⟨hn, hc, hc4, hr, hr4⟩
  exact List.Pairwise.iff_of_mem fun {p q} hp hq => and_congr_right fun _ => overlap_eq_false_iff (hshaped p hp) (hshaped q hq)

/-! ### Placed photographs and versions (R7, R45) -/

theorem Catalogue.allFiled_iff (c : Catalogue) (ps : List Placement) :
    c.allFiled ps = true ↔ ∀ pl ∈ ps, ∃ p, c.photo? pl.photo = some p ∧ p.state = .filed := by
  simp [allFiled, Option.any_eq_true]

/-- The next version follows that of a record of the page number, where there is one. -/
theorem Catalogue.nextVersion_follows (c : Catalogue) (slot number : Nat) : c.nextVersion slot number = 1 ∨
    ∃ p ∈ c.pages, p.slot = slot ∧ p.number = number ∧ c.nextVersion slot number = p.version + 1 := by
  by_cases hnil : ((c.pagesOf slot).filter fun p => p.number == number).map Page.version = []
  · exact .inl (by simp only [nextVersion, hnil, List.foldl_nil])
  · obtain ⟨p, hp, hv⟩ := List.mem_map.1 (foldl_max_mem hnil)
    simp only [pagesOf, List.mem_filter, beq_iff_eq] at hp
    obtain ⟨⟨hmem, hs⟩, hn⟩ := hp
    exact .inr ⟨p, hmem, hs, hn, by rw [nextVersion, hv]⟩

/-! ### New records (R13, R46, R47) -/

/-- A FAILED record of the number is taken in place, else the record is a new one (R13). -/
theorem Catalogue.putPhoto_eq (c : Catalogue) (p : Photo) : c.putPhoto p =
    if c.photo? p.number = none then { c with photos := c.photos ++ [p] } else c.withPhoto p.number fun _ => p := by
  unfold putPhoto
  cases c.photo? p.number <;> simp

theorem newPhoto_eq (f : FilePhotoFields) : newPhoto f = ⟨f.photo, .receiving,
    ⟨rightsOfCode f.cls.toNat, if f.untilFlag = 0 then none else some f.untilDay.toNat, f.group.toNat⟩,
    ⟨f.cols.toNat, f.rows.toNat⟩, f.declared, none, none, none, 0, none, 0, 0, none, .pending⟩ := by
  by_cases h : f.untilFlag = 0 <;> simp [newPhoto, flagSet, h]

namespace State

/-! ### FILE PAGE (R45, R46, R48) -/

/-- The first of the checks from the page number on that FILE PAGE fails, against an OPEN edition (R45, checks 4 to 10). -/
def pageRefusal (s : State) (f : FilePageFields) (slot planned : Nat) : Option Code :=
  if f.page.toNat < 1 ∨ planned < f.page.toNat then some .pageOutOfPlan
  else if layoutFits f = false then some .placementInvalid
  else if s.cat.allFiled f.placements = false then some .photoNotFiled
  else if 7 < s.cat.nextVersion slot f.page.toNat then some .versionLimit
  else if 2048 ≤ s.cat.pages.length then some .tableFull
  else if s.lane.slot ≠ none then some .laneBusy
  else if s.pool.free < gridSegments (newPage f slot (s.cat.nextVersion slot f.page.toNat)).grid then some .stagingFull
  else none

variable {s : State} {tag : U8} {f : FilePageFields}

/-- The checks stand in this order, and an accepted page is what they leave. -/
theorem filePageIn_eq (slot planned : Nat) : s.filePageIn tag f slot planned =
    match s.pageRefusal f slot planned with
    | some .tableFull => s.pressureSeal.refuse 0x23 tag .tableFull
    | some code => s.refuse 0x23 tag code
    | none => (s.acceptPage (newPage f slot (s.cat.nextVersion slot f.page.toNat))).answer 0x23 tag .ok
        (u8 (s.cat.nextVersion slot f.page.toNat) ++ u32 (f.cols.toNat * f.rows.toNat * 4096)) := by
  simp only [filePageIn, pageRefusal, Bool.not_eq_true', Option.isSome_iff_ne_none, Config.pageRecords]
  split_ifs <;> rfl

theorem filePage_notInService (hm : s.req.mode ≠ .service) : s.filePage tag f = s.refuse 0x23 tag .notInService :=
  if_pos (by simpa [inService] using hm)

section InService

variable (hm : s.req.mode = .service)
include hm

theorem filePage_outOfRange (hr : 15 < f.key.code.toNat ∨ 25 < f.sectionCode.toNat) :
    s.filePage tag f = s.refuse 0x23 tag .outOfRange :=
  (if_neg (not_inService_of_service hm)).trans (if_pos hr)

variable (hk : f.key.code.toNat ≤ 15) (hc : f.sectionCode.toNat ≤ 25)
include hk hc

theorem filePage_notFound (hs : s.cat.slotOf f.key = none) : s.filePage tag f = s.refuse 0x23 tag .notFound :=
  (if_neg (not_inService_of_service hm)).trans ((if_neg (by omega)).trans (by simp [hs]))

variable {slot : Nat} {e : Edition} (hs : s.cat.slotOf f.key = some slot) (he : s.cat.edition? slot = some e)
include hs he

theorem filePage_closed (ho : e.state = .closing ∨ e.state = .closed) : s.filePage tag f = s.refuse 0x23 tag .editionClosed := by
  refine (if_neg (not_inService_of_service hm)).trans ((if_neg (by omega)).trans ?_)
  rcases ho with ho | ho <;> simp only [hs, he, ho, Option.bind_some, Option.map_some]

theorem filePage_sealing (ho : e.state = .sealing) : s.filePage tag f = s.refuse 0x23 tag .badState :=
  (if_neg (not_inService_of_service hm)).trans ((if_neg (by omega)).trans
    (by simp only [hs, he, ho, Option.bind_some, Option.map_some]))

variable (ho : e.state = .opened)
include ho

theorem filePage_opened : s.filePage tag f = s.filePageIn tag f slot e.planned :=
  (if_neg (not_inService_of_service hm)).trans ((if_neg (by omega)).trans
    (by simp only [hs, he, ho, Option.bind_some, Option.map_some]))

theorem filePage_refused {code : Code} (hr : s.pageRefusal f slot e.planned = some code) (hcode : code ≠ .tableFull) :
    s.filePage tag f = s.refuse 0x23 tag code := by
  rw [filePage_opened hm hk hc hs he ho, filePageIn_eq, hr]
  split
  · next h => exact absurd (Option.some.inj h) hcode
  · next h => rw [Option.some.inj h]
  · next h => cases h

theorem filePage_full (hr : s.pageRefusal f slot e.planned = some .tableFull) :
    s.filePage tag f = s.pressureSeal.refuse 0x23 tag .tableFull := by
  rw [filePage_opened hm hk hc hs he ho, filePageIn_eq, hr]

theorem filePage_accepts (hr : s.pageRefusal f slot e.planned = none) : s.filePage tag f =
    (s.acceptPage (newPage f slot (s.cat.nextVersion slot f.page.toNat))).answer 0x23 tag .ok
      (u8 (s.cat.nextVersion slot f.page.toNat) ++ u32 (f.cols.toNat * f.rows.toNat * 4096)) := by
  rw [filePage_opened hm hk hc hs he ho, filePageIn_eq, hr]

end InService

/-! ### FILE PHOTO (R47) -/

/-- The first of its checks that FILE PHOTO fails (R47). -/
def photoRefusal (s : State) (f : FilePhotoFields) : Option Code :=
  if s.req.mode ≠ .service then some .notInService
  else if f.photo = 0 ∨ 3 < f.cls.toNat ∨ 7 < f.group.toNat ∨ f.cols = 0 ∨ 4 < f.cols.toNat ∨ f.rows = 0 ∨
      4 < f.rows.toNat then some .outOfRange
  else if ((s.cat.photo? f.photo).any fun p => p.state != .failed) = true then some .duplicate
  else if s.cat.photo? f.photo = none ∧ 4096 ≤ s.cat.photos.length then some .tableFull
  else if s.lane.slot ≠ none then some .laneBusy
  else if s.pool.free < 1 then some .stagingFull
  else none

theorem photoInRange_iff (f : FilePhotoFields) : (!photoInRange f) = true ↔
    f.photo = 0 ∨ 3 < f.cls.toNat ∨ 7 < f.group.toNat ∨ f.cols = 0 ∨ 4 < f.cols.toNat ∨ f.rows = 0 ∨ 4 < f.rows.toNat := by
  have hzero (b : U8) : b = 0 ↔ b.toNat = 0 := by rw [← BitVec.toNat_inj]; rfl
  simp only [photoInRange, gridIn, Bool.not_eq_true', Bool.and_eq_false_iff, decide_eq_false_iff_not, hzero f.cols, hzero f.rows]
  by_cases hn : f.photo = 0
  · simp [hn]
  · simp only [hn, ne_eq, not_false_eq_true, true_and, false_or]
    omega

/-- The checks stand in this order, and an accepted photograph is what they leave. -/
theorem filePhoto_eq {f : FilePhotoFields} : s.filePhoto tag f =
    match s.photoRefusal f with
    | some code => s.refuse 0x24 tag code
    | none => (s.acceptPhoto (newPhoto f)).answer 0x24 tag .ok (u32 (f.cols.toNat * f.rows.toNat * 4096)) := by
  have hmode : (!s.inService) = true ↔ s.req.mode ≠ .service := by simp [inService]
  simp only [filePhoto, photoRefusal, hmode, photoInRange_iff, Option.isSome_iff_ne_none, Bool.and_eq_true,
    Option.isNone_iff_eq_none, decide_eq_true_eq, Config.photoRecords]
  split_ifs <;> rfl

/-- A ready part takes a request in one change, with the end of the change still to come. -/
theorem request_answered {c : Instr} {body : State → State} {x : State} {kind tag : U8} {code : Code} {fields : List U8}
    (h : s.Ready c) (hb : body s.popped = x.popped.answer kind tag code fields) :
    request c body s = .next (x.answered kind tag code fields) := by
  rw [request_taken h.1.2.2 h.2, take_of_awake h.1.2.1, hb]
  rfl

end State

/-- Settles O32. -/
theorem filingIsAcceptedOrRefused : Obligations.FilingIsAcceptedOrRefused := by
  unfold Obligations.FilingIsAcceptedOrRefused
  refine ⟨fun s tag f h => ⟨fun hm => ?_, fun hm => ⟨fun hr => ?_, fun hk hc => ⟨fun hs => ?_, fun slot e hs he =>
      ⟨fun ho => ?_, fun ho => ?_, fun ho => ⟨fun code hr hcode => ?_, fun hr => ?_, fun hr => ?_⟩⟩⟩⟩⟩,
    fun s tag f h => ⟨fun code hr => ?_, fun hr => ?_⟩, layoutFits_iff, fun c => ⟨c.allFiled_iff, fun slot number =>
      ⟨fun p hp hs hn => ?_, c.nextVersion_follows slot number⟩⟩⟩
  · exact request_replies h (State.filePage_notInService hm)
  · exact request_replies h (State.filePage_outOfRange hm hr)
  · exact request_replies h (State.filePage_notFound hm hk hc hs)
  · exact request_replies h (State.filePage_closed hm hk hc hs he ho)
  · exact request_replies h (State.filePage_sealing hm hk hc hs he ho)
  · exact request_replies h (State.filePage_refused (s := s.popped) hm hk hc hs he ho hr hcode)
  · have hbody := State.filePage_full (s := s.popped) (tag := tag) hm hk hc hs he ho hr
    exact ⟨State.pressureRefused h hbody hm, State.firstSent_pressure h hbody⟩
  · exact State.request_answered h (State.filePage_accepts (s := s.popped) hm hk hc hs he ho hr)
  · refine request_replies h ((State.filePhoto_eq (s := s.popped)).trans ?_)
    rw [show s.popped.photoRefusal f = some code from hr]
    rfl
  · refine State.request_answered h ((State.filePhoto_eq (s := s.popped)).trans ?_)
    rw [show s.popped.photoRefusal f = none from hr]
    simp only [State.acceptPhoto, State.withCat, Catalogue.putPhoto_eq, newPhoto_eq]
    rfl
  · subst hs hn
    exact nextVersion_above hp

end Sys2Proof.Machine
end

section
/-! The end of an intake write (O33): a record's way out of WRITING, and what it does to its page number, its edition and the
catalogue's pages on their way. -/

namespace Sys2Proof.Machine

namespace Catalogue

/-! ### Records by their keys -/

theorem page?_withPage (c : Catalogue) (slot number version slot' number' version' : Nat) {f : Page → Page}
    (hf : ∀ p, (f p).key = p.key) : (c.withPage slot number version f).page? slot' number' version' =
      (c.page? slot' number' version').map fun p => if p.isAt slot number version then f p else p := by
  simp only [page?, withPage, List.find?_map]
  congr 2
  funext p
  have hkey : (if p.isAt slot number version then f p else p).key = p.key := by split <;> simp [hf]
  rw [Function.comp, Bool.eq_iff_iff, Page.isAt_iff, hkey]
  exact Page.isAt_iff.symm

theorem isAt_of_page? {c : Catalogue} {slot number version : Nat} {p : Page} (h : c.page? slot number version = some p) :
    p.isAt slot number version = true := Page.isAt_iff.2 (page?_mem h).2

theorem page?_withPage_same {c : Catalogue} {slot number version : Nat} {p : Page} {f : Page → Page} (hf : ∀ p, (f p).key = p.key)
    (h : c.page? slot number version = some p) : (c.withPage slot number version f).page? slot number version = some (f p) := by
  rw [page?_withPage _ _ _ _ _ _ _ hf, h, Option.map_some, if_pos (isAt_of_page? h)]

theorem page?_withPage_version (c : Catalogue) (slot number : Nat) {version version' : Nat} {f : Page → Page}
    (hf : ∀ p, (f p).key = p.key) (h : version' ≠ version) :
    (c.withPage slot number version f).page? slot number version' = c.page? slot number version' := by
  rw [page?_withPage _ _ _ _ _ _ _ hf]
  cases hp : c.page? slot number version' with
  | none => rfl
  | some p =>
    have hne : ¬p.isAt slot number version = true := fun hat => by
      have hkey := (Page.isAt_iff.1 hat).symm.trans (page?_mem hp).2
      simp only [Prod.mk.injEq, true_and] at hkey
      exact h hkey.symm
    rw [Option.map_some, if_neg hne]

/-- In a catalogue without two records of one key, the record of a key is the one that is found. -/
theorem Sound.eq_of_isAt {c : Catalogue} (h : c.Sound) {slot number version : Nat} {p q : Page}
    (hp : c.page? slot number version = some p) (hq : q ∈ c.pages) (hat : q.isAt slot number version = true) : q = p := by
  have hfound := page?_eq h hq
  have hkey := Page.isAt_iff.1 hat
  simp only [Page.key, Prod.mk.injEq] at hkey
  obtain ⟨hs, hn, hv⟩ := hkey
  rw [hs, hn, hv, hp] at hfound
  exact (Option.some.inj hfound).symm

/-! ### FILED and FAILED (R7, R8, R10, R14) -/

/-- A record's body has been taken by the store (R14, R52). -/
def filedPage (w : Written) (p : Page) : Page :=
  { p with state := .filed, outcome := .ok, raw := some w.locator, current := some w.locator, stored := some w.stored }

/-- A record's way has ended without a body (R10, R50). -/
def failedPage (code : Code) (p : Page) : Page := { p with state := .failed, outcome := code, placements := [] }

variable {c : Catalogue} {slot number version : Nat} {p : Page}

theorem fileRecord_page (w : Written) (hp : c.page? slot number version = some p) (hw : p.state = .writing) :
    c.fileRecord (.page slot number version) w =
      (c.supersede slot number version).withPage slot number version (filedPage w) := by
  have hany : ((c.page? slot number version).any fun p => p.state == .writing) = true := by simp [hp, hw]
  exact if_pos hany

theorem failRecord_page (code : Code) (hp : c.page? slot number version = some p) (hw : p.state = .writing) :
    c.failRecord (.page slot number version) code =
      (c.dropRefs p.placements).withPage slot number version (failedPage code) := by
  have hway : (c.page? slot number version).filter (fun p => p.state.inFlight) = some p := by
    simp [hp, Option.filter, hw, RecState.inFlight]
  simp only [failRecord, hway]
  rfl

/-- Supersession sets the flag of the lower of the two versions (R8). -/
theorem page?_supersede (hp : c.page? slot number version = some p) :
    (c.supersede slot number version).page? slot number version = some { p with
      superseded := match c.current? slot number with
        | some x => if x.version < version then p.superseded else true
        | none => p.superseded } := by
  unfold supersede
  cases hc : c.current? slot number with
  | none => exact hp
  | some x =>
    by_cases hlt : x.version < version
    · simp only [hlt, if_true]
      rw [page?_withPage_version _ _ _ (fun _ => by rfl) hlt.ne']
      exact hp
    · simp only [hlt, if_false]
      exact page?_withPage_same (fun _ => by rfl) hp

/-- The version that was current is superseded by a later one (R8). -/
theorem page?_supersede_current {x : Page} (hc : c.current? slot number = some x) (hlt : x.version < version)
    (hx : c.page? slot number x.version = some x) :
    (c.supersede slot number version).page? slot number x.version = some { x with superseded := true } := by
  simp only [supersede, hc, hlt, if_true]
  exact page?_withPage_same (fun _ => by rfl) hx

theorem fileRecord_photo (c : Catalogue) (n : U32) (w : Written) : c.fileRecord (.photo n) w = c.withPhoto n fun p =>
    if p.state = .writing then { p with
      state := .filed, outcome := .ok, raw := some w.locator, current := some w.locator, stored := some w.stored } else p := by
  simp only [fileRecord, beq_iff_eq]

theorem failRecord_photo (c : Catalogue) (n : U32) (code : Code) : c.failRecord (.photo n) code = c.photoFailed n code := by
  simp only [failRecord, photoFailed]
  congr 1
  funext p
  cases hs : p.state <;> simp [RecState.inFlight]

/-! ### Pages on their way, and gaps, as one record's state changes -/

/-- The records of one key come to a state; the others keep theirs. -/
def PageBecomes (c d : Catalogue) (slot number version : Nat) (st : RecState) : Prop :=
  ∃ g : Page → Page, d.pages = c.pages.map g ∧
    ∀ q, (g q).key = q.key ∧ (g q).state = if q.isAt slot number version then st else q.state

theorem pageBecomes_withPage {c d : Catalogue} {slot number version : Nat} {st : RecState} {g f : Page → Page}
    (hd : d.pages = c.pages.map g) (hg : ∀ q, (g q).key = q.key ∧ (g q).state = q.state)
    (hf : ∀ q, (f q).key = q.key ∧ (f q).state = st) : c.PageBecomes (d.withPage slot number version f) slot number version st := by
  refine ⟨fun q => if (g q).isAt slot number version then f (g q) else g q, ?_, fun q => ?_⟩
  · simp only [withPage, hd, List.map_map]
    rfl
  · have hat : (g q).isAt slot number version = q.isAt slot number version := by
      rw [Bool.eq_iff_iff, Page.isAt_iff, Page.isAt_iff, (hg q).1]
    simp only [hat]
    split
    · exact ⟨(hf _).1.trans (hg q).1, (hf _).2⟩
    · exact hg q

theorem supersede_pages (c : Catalogue) (slot number version : Nat) : ∃ g : Page → Page,
    (c.supersede slot number version).pages = c.pages.map g ∧ ∀ q, (g q).key = q.key ∧ (g q).state = q.state := by
  have hmark (v : Nat) (q : Page) : (if q.isAt slot number v then { q with superseded := true } else q).key = q.key ∧
      (if q.isAt slot number v then { q with superseded := true } else q).state = q.state := by split <;> exact ⟨rfl, rfl⟩
  unfold supersede
  split
  · exact ⟨id, (List.map_id _).symm, fun _ => ⟨rfl, rfl⟩⟩
  · split
    · exact ⟨_, rfl, hmark _⟩
    · exact ⟨_, rfl, hmark _⟩

theorem fileRecord_becomes (w : Written) (hp : c.page? slot number version = some p) (hw : p.state = .writing) :
    c.PageBecomes (c.fileRecord (.page slot number version) w) slot number version .filed := by
  obtain ⟨g, hpages, hg⟩ := c.supersede_pages slot number version
  rw [fileRecord_page w hp hw]
  exact pageBecomes_withPage hpages hg fun _ => ⟨rfl, rfl⟩

theorem failRecord_becomes (code : Code) (hp : c.page? slot number version = some p) (hw : p.state = .writing) :
    c.PageBecomes (c.failRecord (.page slot number version) code) slot number version .failed := by
  rw [failRecord_page code hp hw]
  exact pageBecomes_withPage (g := id) (List.map_id _).symm (fun _ => ⟨rfl, rfl⟩) fun _ => ⟨rfl, rfl⟩

variable {d : Catalogue}

/-- A record that comes to its end leaves one page fewer on its way (R57). -/
theorem PageBecomes.inFlight {st : RecState} (h : c.PageBecomes d slot number version st) (hc : c.Sound)
    (hp : c.page? slot number version = some p) (hw : p.state = .writing) (hst : st.inFlight = false) :
    d.inFlight slot + 1 = c.inFlight slot := by
  obtain ⟨g, hpages, hg⟩ := h
  obtain ⟨hmem, hkey⟩ := page?_mem hp
  have hslot : p.slot = slot := congrArg Prod.fst hkey
  have hcount (e : Catalogue) : e.inFlight slot = e.pages.countP fun q => q.state.inFlight && q.slot == slot := by
    rw [Catalogue.inFlight, pagesOf, List.countP_filter]
  have hnodup : c.pages.Nodup := List.Nodup.of_map _ hc.2.2.2.1
  have hothers : (c.pages.erase p).countP (fun q => (g q).state.inFlight && (g q).slot == slot) =
      (c.pages.erase p).countP fun q => q.state.inFlight && q.slot == slot := by
    refine List.countP_congr fun q hq => ?_
    obtain ⟨hne, hq⟩ := (hnodup.mem_erase_iff).1 hq
    have hat : ¬q.isAt slot number version = true := fun hat => hne (hc.eq_of_isAt hp hq hat)
    have hs : (g q).slot = q.slot := congrArg Prod.fst (hg q).1
    rw [(hg q).2, if_neg hat, hs]
  have hgone : ((g p).state.inFlight && (g p).slot == slot) = false := by
    rw [(hg p).2, if_pos (isAt_of_page? hp), hst, Bool.false_and]
  have hwas : (p.state.inFlight && p.slot == slot) = true := by simp [hw, hslot, RecState.inFlight]
  have hperm := List.perm_cons_erase hmem
  rw [hcount d, hcount c, hpages, List.countP_map, hperm.countP_eq, hperm.countP_eq, List.countP_cons, List.countP_cons]
  have hcomp : (c.pages.erase p).countP ((fun q => q.state.inFlight && q.slot == slot) ∘ g) =
      (c.pages.erase p).countP fun q => q.state.inFlight && q.slot == slot := hothers
  simp only [hcomp, Function.comp, hgone, hwas, Bool.false_eq_true, if_false, if_true, Nat.add_zero]

/-- A page number that has come to be FILED leaves the gap list (R57). -/
theorem PageBecomes.gapsOf_filed (h : c.PageBecomes d slot number version .filed) (hp : c.page? slot number version = some p)
    (planned : Nat) : d.gapsOf slot planned = (c.gapsOf slot planned).filter fun n => n != number := by
  obtain ⟨g, hpages, hg⟩ := h
  rw [gapsOf, gapsOf, List.filter_filter]
  refine List.filter_congr fun n _ => ?_
  rw [Bool.eq_iff_iff]
  simp only [hpages, List.any_map, Function.comp, Bool.not_eq_true', Bool.and_eq_true, bne_iff_ne, List.any_eq_false, beq_iff_eq,
    not_and]
  have hkey (q : Page) : (g q).slot = q.slot ∧ (g q).number = q.number := by
    have := (hg q).1
    simp only [Page.key, Prod.mk.injEq] at this
    exact ⟨this.1, this.2.1⟩
  constructor
  · intro hnone
    refine ⟨fun hn => ?_, fun q hq ⟨hs, hqn⟩ hf => ?_⟩
    · obtain ⟨hmem, hpk⟩ := page?_mem hp
      simp only [Page.key, Prod.mk.injEq] at hpk
      refine hnone p hmem ⟨(hkey p).1.trans hpk.1, (hkey p).2.trans (hpk.2.1.trans hn.symm)⟩ ?_
      rw [(hg p).2, if_pos (isAt_of_page? hp)]
    · refine hnone q hq ⟨(hkey q).1.trans hs, (hkey q).2.trans hqn⟩ ?_
      rw [(hg q).2, hf, ite_self]
  · rintro ⟨hn, hnone⟩ q hq ⟨hs, hqn⟩ hf
    rw [(hkey q).1] at hs
    rw [(hkey q).2] at hqn
    have hat : ¬q.isAt slot number version = true := fun hat => by
      have hqk := Page.isAt_iff.1 hat
      simp only [Page.key, Prod.mk.injEq] at hqk
      exact hn (hqn.symm.trans hqk.2.1)
    rw [(hg q).2, if_neg hat] at hf
    exact hnone q hq ⟨hs, hqn⟩ hf

/-- A page that has failed on its way leaves the gap list as it was (R57). -/
theorem PageBecomes.gapsOf_failed (h : c.PageBecomes d slot number version .failed) (hc : c.Sound)
    (hp : c.page? slot number version = some p) (hw : p.state = .writing) (planned : Nat) :
    d.gapsOf slot planned = c.gapsOf slot planned := by
  obtain ⟨g, hpages, hg⟩ := h
  have hfiled (q : Page) (hq : q ∈ c.pages) : ((g q).state == .filed) = (q.state == .filed) := by
    rw [(hg q).2]
    split
    · next hat => rw [hc.eq_of_isAt hp hq hat, hw]; rfl
    · rfl
  have hany (n : Nat) : (d.pages.any fun q => q.slot == slot && q.number == n && q.state == .filed) =
      c.pages.any fun q => q.slot == slot && q.number == n && q.state == .filed := by
    rw [hpages, List.any_map, Bool.eq_iff_iff, List.any_eq_true, List.any_eq_true]
    refine exists_congr fun q => and_congr_right fun hq => ?_
    have hkey := (hg q).1
    simp only [Page.key, Prod.mk.injEq] at hkey
    simp only [Function.comp, hfiled q hq, hkey.1, hkey.2.1]
  simp only [gapsOf, hany]

end Catalogue

end Sys2Proof.Machine
end

section
/-! The completion of an intake write as one change (O33). -/

namespace Sys2Proof.Machine

/-! ### What a release leaves of the pool (R62, R66) -/

/-- The pool after a holder's release; a holder of none releases nothing. -/
def Pool.returned (p : Pool) (h : Holder) : Pool := if p.heldBy h = 0 then p else p.without h

theorem Pool.returned_of_held {p : Pool} {h : Holder} (hp : 0 < p.heldBy h) : p.returned h = p.without h := if_neg hp.ne'

theorem Pool.returned_claims (p : Pool) (h : Holder) : (p.returned h).claims = p.claims := by
  unfold returned
  split <;> rfl

/-! ### The link that takes a FREE BODY (R72) -/

theorem StoreLink.passOn_rest (l : StoreLink) (i : Nat) : (l.passOn i).state = l.state ∧ (l.passOn i).discards = l.discards := by
  unfold StoreLink.passOn
  split <;> exact ⟨rfl, rfl⟩

theorem StoreLink.mem_held_occupy {l : StoreLink} {i : Nat} (h : i < l.slots.length) (op : Op) : op ∈ (l.occupy i op).held := by
  refine StoreLink.mem_held.2 (.inl ⟨⟨(l.slots[i].issue + 1) % 65536, some ⟨op, Config.storeTicks⟩⟩,
    List.mem_of_getElem? (i := i) ?_, rfl⟩)
  simp [StoreLink.occupy, List.getElem?_eq_getElem h]

theorem StoreLink.freeBody_held (l : StoreLink) (locator : U32) (x : FreeKind) :
    .freeBody locator x ∈ (l.accept (.freeBody locator x)).held := by
  unfold StoreLink.accept
  dsimp only
  split
  · next i hi => exact mem_held_occupy (List.findIdx?_eq_some_iff_getElem.1 hi).1 _
  · exact StoreLink.mem_held.2 (.inr (by simp))

namespace State

theorem release_form (s : State) (h : Holder) : ∃ tasks : List Task, tasks.length ≤ 1 ∧ (∀ x ∈ tasks, x = .regrant) ∧
    s.release h = { s with pool := s.pool.returned h, agenda := s.agenda ++ tasks } := by
  unfold release Pool.returned
  split
  · exact ⟨[], by simp, by simp, by rw [List.append_nil]⟩
  · exact ⟨[.regrant], by simp, by simp, rfl⟩

theorem handOff_freeBody {s : State} {locator : U32} {x : FreeKind} (ho : s.link.state = .online) (hd : s.link.discards < 32) :
    s.handOff (.freeBody locator x) = { s with link := s.link.accept (.freeBody locator x) } := by
  have hroom : s.link.discards ≠ 32 := by omega
  simp [handOff, ho, hroom]

/-! ### A record FILED or FAILED (R52 to R54) -/

/-- The record is FILED with the body that the store has taken; its segments are free (R52). -/
def filed (s : State) (r : RecId) (w : Written) : State :=
  { s with cat := s.cat.fileRecord r w, pool := s.pool.returned (.record r) }

/-- The record has FAILED at its write; its segments are free (R53, R54). -/
def failedAtWrite (s : State) (r : RecId) (code : Code) : State :=
  latch { s with cat := (s.cat.failRecord r code).countFailedPage r, pool := s.pool.returned (.record r) } .fileFailed

/-- The close test that the end of a page's way brings (R57). -/
def closeTested (s : State) : RecId → State
  | .page slot _ _ => s.closeTest slot
  | .photo _ => s

/-- What a completion leaves to be worked through: the claims' re-examination, which gives none, then the close test. -/
theorem settle_returned {v : State} {tasks : List Task} {r : RecId} (ha : v.agenda = []) (hc : v.pool.claims = [])
    (hn : tasks.length ≤ 1) (ht : ∀ x ∈ tasks, x = .regrant) (hv : (v.closeTested r).agenda = []) :
    settle 65535 (pushCloseTest { v with agenda := tasks } r) = v.closeTested r := by
  have hinert (x : Task) (hx : x ∈ tasks) (a : List Task) : runTask { v with agenda := a } x = { v with agenda := a } := by
    rw [ht x hx, runTask]
    simp only [hc, regrant]
  have hpass (rest : List Task) : settle 65535 { v with agenda := tasks ++ rest } =
      settle (65534 - tasks.length + 1) { v with agenda := rest } := by
    rw [← settle_inert rest tasks _ hinert]
    congr 1
    omega
  cases r with
  | page slot number version =>
    refine (hpass [.closeTest slot]).trans ?_
    rw [settle_of_cons (x := .closeTest slot) (rest := []) _ rfl]
    exact (congrArg (fun u => settle _ (closeTest u slot)) (agenda_of_nil ha)).trans (settle_of_nil _ _ hv)
  | photo n =>
    have hpassed := hpass []
    rw [List.append_nil, settle_of_nil _ { v with agenda := [] } rfl, agenda_of_nil ha] at hpassed
    exact hpassed

section Completion

variable {u : State} {r : RecId} {w : Written} (ha : u.agenda = [])
include ha

theorem failFiling_form (code : Code) : ∃ tasks : List Task, tasks.length ≤ 1 ∧ (∀ x ∈ tasks, x = .regrant) ∧
    u.failFiling r code true = pushCloseTest { u.failedAtWrite r code with agenda := tasks } r := by
  obtain ⟨tasks, hn, hall, hform⟩ := release_form (u.withCat fun c => (c.failRecord r code).countFailedPage r) (.record r)
  refine ⟨tasks, hn, hall, ?_⟩
  simp only [failFiling, if_true, hform, withCat_agenda, ha]
  rfl

variable (hc : u.pool.claims = [])
include hc

theorem settle_writeDone_filed (hd : u.cat.declaredOf r = some w.stored) (ht : ((u.filed r w).closeTested r).agenda = []) :
    settle 65535 (u.writeDone r w) = (u.filed r w).closeTested r := by
  obtain ⟨tasks, hn, hall, hform⟩ := release_form (u.withCat fun c => c.fileRecord r w) (.record r)
  have hmade : u.writeDone r w = pushCloseTest { u.filed r w with agenda := tasks } r := by
    rw [writeDone, if_pos (by simp [hd]), hform, withCat_agenda, ha]
    rfl
  rw [hmade]
  exact settle_returned ha ((Pool.returned_claims _ _).trans hc) hn hall ht

theorem settle_failFiling {code : Code} (ht : ((u.failedAtWrite r code).closeTested r).agenda = []) :
    settle 65535 (u.failFiling r code true) = (u.failedAtWrite r code).closeTested r := by
  obtain ⟨tasks, hn, hall, hmade⟩ := failFiling_form (r := r) ha code
  rw [hmade]
  exact settle_returned ha ((Pool.returned_claims _ _).trans hc) hn hall ht

/-- A refused body is to be discarded (R53). -/
def bodyRefused (s : State) (r : RecId) (w : Written) : State :=
  { s.failedAtWrite r .bodyCheck with link := s.link.accept (.freeBody w.locator .refusedWrite) }

theorem settle_writeDone_refused (hd : u.cat.declaredOf r ≠ some w.stored) (ho : u.link.state = .online)
    (hroom : u.link.discards < 32) (ht : ((u.bodyRefused r w).closeTested r).agenda = []) :
    settle 65535 (u.writeDone r w) = (u.bodyRefused r w).closeTested r := by
  obtain ⟨tasks, hn, hall, hform⟩ := failFiling_form (r := r) ha .bodyCheck
  have hmade : u.writeDone r w = pushCloseTest { u.bodyRefused r w with agenda := tasks } r := by
    rw [writeDone, if_neg (by simpa using hd), hform]
    cases r <;> exact handOff_freeBody (s := pushCloseTest { u.failedAtWrite _ .bodyCheck with agenda := tasks } _) ho hroom
  rw [hmade]
  exact settle_returned ha ((Pool.returned_claims _ _).trans hc) hn hall ht

end Completion

/-! ### INTAKE WRITE COMPLETION -/

section Exec

variable {s : State} {at_ : SlotTag} {r : RecId} {len : Nat} {x : IndexRecord} {w : Written} (h : s.Working)
  (hc : s.pool.claims = []) (ho : s.link.answered? at_ Op.isIntakeWrite = some (.writeIntake r len x))
include h hc ho

/-- The state whose link has passed the write's slot on, its failure counter at 0. -/
abbrev intakeServed (s : State) (at_ : SlotTag) (r : RecId) (len : Nat) (x : IndexRecord) : State :=
  { s with link := s.link.served at_.slot.toNat (.writeIntake r len x) }

/-- The state whose link has passed the write's slot on, its failure counter raised. -/
abbrev intakeFaulted (s : State) (at_ : SlotTag) (r : RecId) (len : Nat) (x : IndexRecord) : State :=
  { s with link := s.link.faulted at_.slot.toNat (.writeIntake r len x) }

/-- The store's check is the declared one (R52). -/
theorem exec_intakeWrite_files (hd : s.cat.declaredOf r = some w.stored)
    (ht : (((s.intakeServed at_ r len x).filed r w).closeTested r).agenda = []) :
    exec (.intakeWriteCompletion at_ (.done w)) s = .next (((s.intakeServed at_ r len x).filed r w).closeTested r).close :=
  storeAnswer_settles h ho (completeSlot_served ..) (settle_writeDone_filed (u := s.intakeServed at_ r len x) h.2.1 hc hd ht)

/-- The store's check is another one (R53). -/
theorem exec_intakeWrite_refuses (hd : s.cat.declaredOf r ≠ some w.stored) (hon : s.link.state = .online)
    (hroom : s.link.discards < 32) (ht : (((s.intakeServed at_ r len x).bodyRefused r w).closeTested r).agenda = []) :
    exec (.intakeWriteCompletion at_ (.done w)) s =
      .next (((s.intakeServed at_ r len x).bodyRefused r w).closeTested r).close := by
  obtain ⟨hstate, hdiscards⟩ := StoreLink.passOn_rest { s.link.vacate at_.slot.toNat with failures := 0 } at_.slot.toNat
  exact storeAnswer_settles h ho (completeSlot_served ..) (settle_writeDone_refused (u := s.intakeServed at_ r len x) h.2.1 hc hd
    (hstate.trans hon) (hdiscards.trans_lt hroom) ht)

/-- A failing answer below the limit (R54, R76). -/
theorem exec_intakeWrite_faults (hf : s.link.failures < 7)
    (ht : (((s.intakeFaulted at_ r len x).failedAtWrite r .storeFault).closeTested r).agenda = []) :
    exec (.intakeWriteCompletion at_ .mediaError) s =
      .next (((s.intakeFaulted at_ r len x).failedAtWrite r .storeFault).closeTested r).close :=
  storeAnswer_settles h ho (completeSlot_faulted hf ..) (settle_failFiling (u := s.intakeFaulted at_ r len x) h.2.1 hc ht)

/-- Any other answer (R54). -/
theorem exec_intakeWrite_fails {ans : Answer Written} (hans : ans = .notFound ∨ ans = .full)
    (ht : (((s.intakeServed at_ r len x).failedAtWrite r .storeFault).closeTested r).agenda = []) :
    exec (.intakeWriteCompletion at_ ans) s =
      .next (((s.intakeServed at_ r len x).failedAtWrite r .storeFault).closeTested r).close := by
  have hsettle := settle_failFiling (u := s.intakeServed at_ r len x) h.2.1 hc ht
  rcases hans with rfl | rfl
  · exact storeAnswer_settles h ho (completeSlot_served ..) hsettle
  · exact storeAnswer_settles h ho (completeSlot_served ..) hsettle

end Exec

end State

end Sys2Proof.Machine
end

section
/-! What an intake write's completion leaves of its record, its edition and the close that it ends (O33). -/

namespace Sys2Proof.Machine

namespace Catalogue

variable {c : Catalogue} {slot number version : Nat} {p : Page}

/-- The record FILED, superseded when a later version is current (R8, R14). -/
theorem page?_fileRecord (w : Written) (hp : c.page? slot number version = some p) (hw : p.state = .writing) :
    (c.fileRecord (.page slot number version) w).page? slot number version = some { p with
      state := .filed, outcome := .ok, raw := some w.locator, current := some w.locator, stored := some w.stored
      superseded := match c.current? slot number with
        | some x => if x.version < version then p.superseded else true
        | none => p.superseded } := by
  rw [fileRecord_page w hp hw]
  exact page?_withPage_same (fun _ => by rfl) (page?_supersede hp)

/-- The version that was current is superseded by a later one that is FILED (R8). -/
theorem page?_fileRecord_current (w : Written) (hp : c.page? slot number version = some p) (hw : p.state = .writing) {x : Page}
    (hc : c.current? slot number = some x) (hlt : x.version < version) (hx : c.page? slot number x.version = some x) :
    (c.fileRecord (.page slot number version) w).page? slot number x.version = some { x with superseded := true } := by
  rw [fileRecord_page w hp hw, page?_withPage_version _ _ _ (fun _ => by rfl) hlt.ne]
  exact page?_supersede_current hc hlt hx

theorem edition?_fileRecord (c : Catalogue) (r : RecId) (w : Written) (slot : Nat) :
    (c.fileRecord r w).edition? slot = c.edition? slot := by rw [edition?, (editions_fileRecord c r w).1, edition?]

/-- The record FAILED, its placements undone (R10, R53, R54). -/
theorem page?_failRecord (code : Code) (hp : c.page? slot number version = some p) (hw : p.state = .writing) :
    ((c.failRecord (.page slot number version) code).countFailedPage (.page slot number version)).page? slot number version =
      some { p with state := .failed, outcome := code, placements := [] } := by
  rw [failRecord_page code hp hw]
  exact page?_withPage_same (f := failedPage code) (c := c.dropRefs p.placements) (fun _ => by rfl) hp

/-- The edition counts the page that failed at its write (R4). -/
theorem edition?_failRecord (c : Catalogue) (slot number version : Nat) (code : Code) :
    ((c.failRecord (.page slot number version) code).countFailedPage (.page slot number version)).edition? slot =
      (c.edition? slot).map fun e => { e with failedPages := min 65535 (e.failedPages + 1) } := by
  rw [countFailedPage, edition?_withEdition, if_pos rfl, edition?, (editions_failRecord c _ code).1, edition?]

theorem countFailedPage_becomes (code : Code) (hp : c.page? slot number version = some p) (hw : p.state = .writing) :
    c.PageBecomes ((c.failRecord (.page slot number version) code).countFailedPage (.page slot number version)) slot number version
      .failed := failRecord_becomes code hp hw

end Catalogue

namespace State

/-- A close stays open behind a page's end: the edition is OPEN, or another of its pages is on its way (R57). -/
theorem closeTest_waits {s v : State} {slot number version : Nat} {st : RecState} {p : Page} {e x : Edition}
    (hp : s.cat.page? slot number version = some p) (hw : p.state = .writing)
    (hb : s.cat.PageBecomes v.cat slot number version st) (hst : st.inFlight = false)
    (he : e.state = .opened ∨ e.state = .closing ∧ 1 < s.cat.inFlight slot ∧ s.cat.Sound)
    (hx : v.cat.edition? slot = some x) (hsame : x.state = e.state) : v.closeTest slot = v := by
  refine closeTest_stays hx fun ⟨hclosing, hnone⟩ => ?_
  rcases he with ho | ⟨-, hmore, hsound⟩
  · rw [hsame, ho] at hclosing
    cases hclosing
  · have := hb.inFlight hsound hp hw hst
    omega

/-- The close that a page's end has brought about: the edition is CLOSED with its day, gaps and failed pages, its CLOSE MARK is with
the store link, and the event is latched (R57, R58). -/
def CloseEnded (s t : State) (slot i : Nat) (e : Edition) (link : StoreLink) (gaps : List Nat) (failed : Nat) : Prop :=
  t.cat.edition? slot = some { e with
    state := .closed, closedOn := some s.cal.day, gaps := some gaps, failedPages := failed } ∧
  t.link = link.occupy i (.closeMark slot ⟨e.key, e.planned, s.cal.day, gaps, e.forced, failed⟩) ∧
  Raised s t (if e.forced then .deadlineClosed else .editionClosed)

/-- The last page's end on its way ends the close, over a link with an empty slot (R57, R58). -/
theorem closeTest_last {s v : State} {slot i : Nat} {e : Edition} {gaps : List Nat} {failed : Nat}
    (he : e.state = .closing) (hv : v.cat.edition? slot = some { e with failedPages := failed }) (hn : v.cat.inFlight slot = 0)
    (hl : v.link.Takes i) (hcal : v.cal = s.cal) (hwait : v.req.wait = s.req.wait) (hg : v.cat.gapsOf slot e.planned = gaps) :
    (v.closeTest slot).agenda = v.agenda ∧ CloseEnded s (v.closeTest slot).close slot i e v.link gaps failed := by
  rw [closeTest_takes hv ⟨he, hn⟩ hl, hcal, hg]
  refine ⟨rfl, ?_, ?_, raised_close hwait (latch_bit _ _)⟩
  · rw [close_cat, latch_cat, Catalogue.edition?_withEdition, if_pos rfl, hv]
    rfl
  · rw [close_link, latch_link, markOf, hcal, hg]

/-! ### A photograph's write (R52 to R54) -/

theorem failedAtWrite_photo {s : State} {n : U32} (hheld : 0 < s.pool.heldBy (.record (.photo n))) (code : Code)
    (link : StoreLink) : failedAtWrite { s with link := link } (.photo n) code = { (s.latch .fileFailed) with
      cat := s.cat.photoFailed n code, pool := s.pool.without (.record (.photo n)), link := link } := by
  simp only [failedAtWrite, Catalogue.countFailedPage, Catalogue.failRecord_photo, Pool.returned_of_held hheld]
  rfl

section PhotoWrite

variable {s : State} {at_ : SlotTag} {n : U32} {len : Nat} {x : IndexRecord} (h : s.Working) (hs : s.Still)
  (ho : s.link.answered? at_ Op.isIntakeWrite = some (.writeIntake (.photo n) len x))
  (hheld : 0 < s.pool.heldBy (.record (.photo n)))
include h hs ho hheld

theorem exec_photoWrite_files {w : Written} (hd : s.cat.declaredOf (.photo n) = some w.stored) :
    exec (.intakeWriteCompletion at_ (.done w)) s = .next (State.close { s with
      cat := s.cat.withPhoto n fun p => if p.state = .writing then { p with
        state := .filed, outcome := .ok, raw := some w.locator, current := some w.locator, stored := some w.stored } else p
      pool := s.pool.without (.record (.photo n))
      link := s.link.served at_.slot.toNat (.writeIntake (.photo n) len x) }) := by
  rw [exec_intakeWrite_files h hs.1 ho hd h.2.1, closeTested, filed, Catalogue.fileRecord_photo, Pool.returned_of_held hheld]

theorem exec_photoWrite_faults (hf : s.link.failures < 7) : ∃ t, exec (.intakeWriteCompletion at_ .mediaError) s = .next t ∧
    t.cat = s.cat.photoFailed n .storeFault ∧ t.pool = s.pool.without (.record (.photo n)) ∧
    t.link.failures = s.link.failures + 1 ∧ Raised s t .fileFailed := by
  have hexec := exec_intakeWrite_faults h hs.1 ho hf h.2.1
  rw [closeTested, failedAtWrite_photo hheld] at hexec
  refine ⟨_, hexec, close_cat _, close_pool _, ?_, raised_close rfl (s.latch_bit .fileFailed)⟩
  rw [close_link]
  exact StoreLink.faulted_failures _ _ _

theorem exec_photoWrite_refuses {w : Written} (hd : s.cat.declaredOf (.photo n) ≠ some w.stored) (hon : s.link.state = .online)
    (hroom : s.link.discards < 32) : ∃ t, exec (.intakeWriteCompletion at_ (.done w)) s = .next t ∧
    t.cat = s.cat.photoFailed n .bodyCheck ∧ t.pool = s.pool.without (.record (.photo n)) ∧
    .freeBody w.locator .refusedWrite ∈ t.link.held ∧ Raised s t .fileFailed := by
  have hexec := exec_intakeWrite_refuses h hs.1 ho hd hon hroom h.2.1
  rw [closeTested, bodyRefused, failedAtWrite_photo hheld] at hexec
  refine ⟨_, hexec, close_cat _, close_pool _, ?_, raised_close rfl (s.latch_bit .fileFailed)⟩
  rw [close_link]
  exact StoreLink.freeBody_held _ _ _

theorem exec_photoWrite_fails {ans : Answer Written} (hans : ans = .notFound ∨ ans = .full) :
    exec (.intakeWriteCompletion at_ ans) s = .next (State.close { (s.latch .fileFailed) with
      cat := s.cat.photoFailed n .storeFault, pool := s.pool.without (.record (.photo n))
      link := s.link.served at_.slot.toNat (.writeIntake (.photo n) len x) }) := by
  rw [exec_intakeWrite_fails h hs.1 ho hans h.2.1, closeTested, failedAtWrite_photo hheld]

end PhotoWrite

/-! ### A page's write whose edition waits for more pages, or is OPEN (R52 to R54) -/

section Waits

variable {s : State} {slot number version : Nat} {p : Page} {e : Edition} (hp : s.cat.page? slot number version = some p)
  (hw : p.state = .writing) (he : s.cat.edition? slot = some e)
  (hwaits : e.state = .opened ∨ e.state = .closing ∧ 1 < s.cat.inFlight slot ∧ s.cat.Sound)
include hp hw he hwaits

/-- A filed page leaves its edition's close to the pages that are left. -/
theorem closeTest_filed (w : Written) (link : StoreLink) :
    (filed { s with link := link } (.page slot number version) w).closeTested (.page slot number version) =
      filed { s with link := link } (.page slot number version) w :=
  closeTest_waits hp hw (Catalogue.fileRecord_becomes w hp hw) rfl hwaits
    ((Catalogue.edition?_fileRecord _ _ w slot).trans he) rfl

/-- And so does a failed one. -/
theorem closeTest_failed (code : Code) {v : State}
    (hv : v.cat = (s.cat.failRecord (.page slot number version) code).countFailedPage (.page slot number version)) :
    v.closeTested (.page slot number version) = v := by
  refine closeTest_waits (st := .failed) hp hw ?_ rfl hwaits (x := { e with failedPages := min 65535 (e.failedPages + 1) }) ?_ rfl
  · rw [hv]
    exact Catalogue.countFailedPage_becomes code hp hw
  · rw [hv, Catalogue.edition?_failRecord, he]
    rfl

end Waits

section PageWrite

variable {s : State} {at_ : SlotTag} {slot number version len : Nat} {x : IndexRecord} {p : Page} {e : Edition} (h : s.Working)
  (hs : s.Still) (ho : s.link.answered? at_ Op.isIntakeWrite = some (.writeIntake (.page slot number version) len x))
  (hp : s.cat.page? slot number version = some p) (hw : p.state = .writing) (he : s.cat.edition? slot = some e)
include h hs ho hp hw he

section Waits

variable (hwaits : e.state = .opened ∨ e.state = .closing ∧ 1 < s.cat.inFlight slot ∧ s.cat.Sound)
  (hheld : 0 < s.pool.heldBy (.record (.page slot number version)))
include hwaits hheld

theorem exec_pageWrite_files {w : Written} (hd : w.stored = p.declared) :
    ∃ t, exec (.intakeWriteCompletion at_ (.done w)) s = .next t ∧
      t.cat = s.cat.fileRecord (.page slot number version) w ∧
      t.pool = s.pool.without (.record (.page slot number version)) ∧
      t.link = s.link.served at_.slot.toNat (.writeIntake (.page slot number version) len x) := by
  have htest := closeTest_filed hp hw he hwaits w
    (s.link.served at_.slot.toNat (.writeIntake (.page slot number version) len x))
  have hexec := exec_intakeWrite_files h hs.1 ho (w := w) (by simp [Catalogue.declaredOf, hp, hd]) (by rw [htest]; exact h.2.1)
  rw [htest] at hexec
  exact ⟨_, hexec, close_cat _, (close_pool _).trans (Pool.returned_of_held hheld), close_link _⟩

theorem exec_pageWrite_refuses {w : Written} (hd : w.stored ≠ p.declared) (hon : s.link.state = .online)
    (hroom : s.link.discards < 32) : ∃ t, exec (.intakeWriteCompletion at_ (.done w)) s = .next t ∧
      t.cat = (s.cat.failRecord (.page slot number version) .bodyCheck).countFailedPage (.page slot number version) ∧
      t.pool = s.pool.without (.record (.page slot number version)) ∧
      .freeBody w.locator .refusedWrite ∈ t.link.held ∧ Raised s t .fileFailed := by
  have htest := closeTest_failed hp hw he hwaits .bodyCheck
    (v := (s.intakeServed at_ (.page slot number version) len x).bodyRefused (.page slot number version) w) rfl
  have hexec := exec_intakeWrite_refuses h hs.1 ho (w := w) (by simpa [Catalogue.declaredOf, hp] using fun heq => hd heq.symm) hon
    hroom (by rw [htest]; exact h.2.1)
  rw [htest] at hexec
  refine ⟨_, hexec, close_cat _, (close_pool _).trans (Pool.returned_of_held hheld), ?_, raised_close rfl (s.latch_bit .fileFailed)⟩
  rw [close_link]
  exact StoreLink.freeBody_held _ _ _

theorem exec_pageWrite_faults (hf : s.link.failures < 7) : ∃ t, exec (.intakeWriteCompletion at_ .mediaError) s = .next t ∧
      t.cat = (s.cat.failRecord (.page slot number version) .storeFault).countFailedPage (.page slot number version) ∧
      t.pool = s.pool.without (.record (.page slot number version)) ∧ t.link.failures = s.link.failures + 1 ∧
      Raised s t .fileFailed := by
  have htest := closeTest_failed hp hw he hwaits .storeFault
    (v := (s.intakeFaulted at_ (.page slot number version) len x).failedAtWrite (.page slot number version) .storeFault) rfl
  have hexec := exec_intakeWrite_faults h hs.1 ho hf (by rw [htest]; exact h.2.1)
  rw [htest] at hexec
  refine ⟨_, hexec, close_cat _, (close_pool _).trans (Pool.returned_of_held hheld), ?_, raised_close rfl (s.latch_bit .fileFailed)⟩
  rw [close_link]
  exact StoreLink.faulted_failures _ _ _

end Waits

/-! ### The last page on its way of a CLOSING edition (R57, R58) -/

section Last

variable {i : Nat} (hsound : s.cat.Sound) (hclosing : e.state = .closing) (hlast : s.cat.inFlight slot = 1)
  (hl : (s.link.served at_.slot.toNat (.writeIntake (.page slot number version) len x)).Takes i)
include hsound hclosing hlast hl

theorem exec_lastWrite_files {w : Written} (hd : w.stored = p.declared) :
    ∃ t, exec (.intakeWriteCompletion at_ (.done w)) s = .next t ∧
      CloseEnded s t slot i e (s.link.served at_.slot.toNat (.writeIntake (.page slot number version) len x))
        ((s.cat.gapsOf slot e.planned).filter fun n => n != number) e.failedPages := by
  have hb := Catalogue.fileRecord_becomes w hp hw
  have hway := hb.inFlight hsound hp hw rfl
  obtain ⟨hagenda, hended⟩ := closeTest_last (s := s) (i := i) (failed := e.failedPages)
    (v := (s.intakeServed at_ (.page slot number version) len x).filed (.page slot number version) w) hclosing
    ((Catalogue.edition?_fileRecord _ _ w slot).trans he) (by exact Nat.succ.inj (hway.trans hlast)) hl rfl rfl
    (hb.gapsOf_filed hp e.planned)
  exact ⟨_, exec_intakeWrite_files h hs.1 ho (w := w) (by simp [Catalogue.declaredOf, hp, hd]) (hagenda.trans h.2.1), hended⟩

theorem exec_lastWrite_fails : ∃ t, exec (.intakeWriteCompletion at_ .full) s = .next t ∧ Raised s t .fileFailed ∧
      CloseEnded s t slot i e (s.link.served at_.slot.toNat (.writeIntake (.page slot number version) len x))
        (s.cat.gapsOf slot e.planned) (min 65535 (e.failedPages + 1)) := by
  have hb := Catalogue.countFailedPage_becomes .storeFault hp hw
  have hway := hb.inFlight hsound hp hw rfl
  obtain ⟨hagenda, hended⟩ := closeTest_last (s := s) (i := i) (failed := min 65535 (e.failedPages + 1))
    (v := (s.intakeServed at_ (.page slot number version) len x).failedAtWrite (.page slot number version) .storeFault) hclosing
    ((Catalogue.edition?_failRecord ..).trans (by rw [he]; rfl)) (by exact Nat.succ.inj (hway.trans hlast)) hl rfl rfl
    (hb.gapsOf_failed hsound hp hw e.planned)
  have hkept := (moves_closeTest
    ((s.intakeServed at_ (.page slot number version) len x).failedAtWrite (.page slot number version) .storeFault) slot).kept
  exact ⟨_, exec_intakeWrite_fails h hs.1 ho (.inr rfl) (hagenda.trans h.2.1),
    raised_close hkept.wait (hkept.latched _ (s.latch_bit .fileFailed)), hended⟩

end Last

end PageWrite

end State

/-- Settles O33. -/
theorem intakeWriteCompletes : Obligations.IntakeWriteCompletes := by
  unfold Obligations.IntakeWriteCompletes
  refine ⟨fun s at_ n len x p h hs ho hp hheld => ?_, fun s at_ slot number version len x p e h hs ho hp hw he hwaits hheld =>
    ⟨fun w hd => ?_, fun w hd hon hroom => ?_, fun hf => ?_⟩, ?_⟩
  · have hdeclared : s.cat.declaredOf (.photo n) = some p.declared := by simp [Catalogue.declaredOf, hp]
    refine ⟨fun w hd => ?_, State.exec_photoWrite_faults h hs ho hheld, fun w hd hon hroom => ?_,
      fun ans => State.exec_photoWrite_fails h hs ho hheld⟩
    · exact State.exec_photoWrite_files h hs ho hheld (hdeclared.trans (congrArg some hd.symm))
    · refine State.exec_photoWrite_refuses h hs ho hheld ?_ hon hroom
      rw [hdeclared]
      exact fun heq => hd (Option.some.inj heq).symm
  · obtain ⟨t, hexec, hcat, hpool, hlink⟩ := State.exec_pageWrite_files h hs ho hp hw he hwaits hheld hd
    refine ⟨t, hexec, ?_, fun c hc hlt hx => ?_, hpool, hlink⟩
    · exact (congrArg (fun c => c.page? slot number version) hcat).trans (Catalogue.page?_fileRecord w hp hw)
    · rw [hcat, Catalogue.page?_fileRecord_current w hp hw hc hlt hx]
  · obtain ⟨t, hexec, hcat, hpool, hheld, hraised⟩ := State.exec_pageWrite_refuses h hs ho hp hw he hwaits hheld hd hon hroom
    refine ⟨t, hexec, ?_, ?_, hpool, hheld, hraised⟩
    · rw [hcat, Catalogue.page?_failRecord _ hp hw]
    · rw [hcat, Catalogue.edition?_failRecord, he]
      rfl
  · obtain ⟨t, hexec, hcat, hpool, hfailures, hraised⟩ := State.exec_pageWrite_faults h hs ho hp hw he hwaits hheld hf
    refine ⟨t, hexec, ?_, ?_, hpool, hfailures, hraised⟩
    · rw [hcat, Catalogue.page?_failRecord _ hp hw]
    · rw [hcat, Catalogue.edition?_failRecord, he]
      rfl
  · intro s at_ slot number version len i x p e h hs ho hsound hp hw he hclosing hlast served closed hl
    exact ⟨fun w hd => State.exec_lastWrite_files h hs ho hp hw he hsound hclosing hlast hl hd,
      State.exec_lastWrite_fails h hs ho hp hw he hsound hclosing hlast hl⟩

end Sys2Proof.Machine
end

section
/-! Operations handed to the store link: an ONLINE link keeps its failure counter and what stands in its slots, any other link stays
as it is (R72, R77). With it, the operations of the state that leave the link as it is. -/

namespace Sys2Proof.Machine

/-! ### Operations handed to the link (R72) -/

/-- One operation handed to an ONLINE link: taken, or a FREE BODY dropped beyond the limit. -/
inductive Offer (l : StoreLink) : StoreLink → Prop
  | taken (op : Op) (ho : l.state = .online) : Offer l (l.accept op)
  | dropped (n : Nat) (ho : l.state = .online) : Offer l { l with dropped := n }

/-- Operations handed to the link, one behind the other. -/
abbrev Offers : StoreLink → StoreLink → Prop := Relation.ReflTransGen Offer

theorem StoreLink.accept_failures (l : StoreLink) (op : Op) : (l.accept op).failures = l.failures := by
  unfold StoreLink.accept
  dsimp only
  split <;> split <;> rfl

/-- An operation is taken into an empty slot or the wait list: an occupied slot stays as it is. -/
theorem StoreLink.accept_occupied {l : StoreLink} (op : Op) {i : Nat} {sl : OpSlot} {r : Running} (h : l.slots[i]? = some sl)
    (hr : sl.occupant = some r) : (l.accept op).slots[i]? = some sl := by
  have hslots : (if op.isDiscard then { l with discards := l.discards + 1 } else l).slots = l.slots := by split <;> rfl
  unfold StoreLink.accept
  dsimp only
  split
  · next k hk =>
    rw [hslots] at hk
    obtain ⟨hlt, hempty, -⟩ := List.findIdx?_eq_some_iff_getElem.1 hk
    have hne : k ≠ i := by
      rintro rfl
      rw [List.getElem?_eq_getElem hlt, Option.some.injEq] at h
      rw [h, hr] at hempty
      cases hempty
    simp [StoreLink.occupy, hslots, hne, h]
  · exact (congrArg (·[i]?) hslots).trans h

/-- A link that is not ONLINE is handed nothing. -/
theorem Offers.eq_of_offline {l m : StoreLink} (h : Offers l m) (ho : l.state ≠ .online) : m = l := by
  induction h with
  | refl => rfl
  | tail _ step ih =>
    subst ih
    cases step with
    | taken _ hon => exact absurd hon ho
    | dropped _ hon => exact absurd hon ho

/-- An ONLINE link that is handed operations stays ONLINE, with its failure counter and its occupied slots. -/
theorem Offers.keeps {l m : StoreLink} (h : Offers l m) (ho : l.state = .online) :
    m.state = .online ∧ m.failures = l.failures ∧
      ∀ (i : Nat) (sl : OpSlot) (r : Running), l.slots[i]? = some sl → sl.occupant = some r → m.slots[i]? = some sl := by
  induction h with
  | refl => exact ⟨ho, rfl, fun _ _ _ hi _ => hi⟩
  | tail _ step ih =>
    obtain ⟨hstate, hfailures, hslots⟩ := ih
    cases step with
    | taken op _ =>
      exact ⟨(StoreLink.accept_state op).trans hstate, (StoreLink.accept_failures _ op).trans hfailures,
        fun i sl r hi hr => StoreLink.accept_occupied op (hslots i sl r hi hr) hr⟩
    | dropped _ _ => exact ⟨hstate, hfailures, hslots⟩

theorem Offers.answered? {l m : StoreLink} (h : Offers l m) (ho : l.state = .online) {at_ : SlotTag} {fits : Op → Bool} {op : Op}
    (ha : l.answered? at_ fits = some op) : m.answered? at_ fits = some op := by
  have hall := ha
  simp only [StoreLink.answered?, Option.bind_eq_some_iff] at ha
  obtain ⟨sl, hsl, hop⟩ := ha
  obtain ⟨r, hr, -⟩ := Option.map_eq_some_iff.1 (Option.filter_eq_some_iff.1 hop).1
  rw [StoreLink.answered?, (h.keeps ho).2.2 _ _ _ hsl hr]
  exact hop

theorem Offers.running? {l m : StoreLink} (h : Offers l m) (ho : l.state = .online) {i : Nat} {r : Running}
    (hr : l.running? i = some r) : m.running? i = some r := by
  obtain ⟨sl, hsl, hocc⟩ := Option.bind_eq_some_iff.1 hr
  rw [StoreLink.running?, (h.keeps ho).2.2 _ _ _ hsl hocc]
  exact hocc

/-! ### Operations of the state that hand nothing off -/

namespace State

variable (s : State)

theorem foldl_link {α : Type} {f : State → α → State} (h : ∀ t x, (f t x).link = t.link) :
    ∀ (l : List α) (s : State), (l.foldl f s).link = s.link
  | [], _ => rfl
  | x :: l, s => (foldl_link h l (f s x)).trans (h s x)

@[simp] theorem release_link (h : Holder) : (s.release h).link = s.link := by unfold release; split <;> rfl

@[simp] theorem removeClaim_link (h : Holder) : (s.removeClaim h).link = s.link := by
  unfold removeClaim
  split
  · dsimp only; split <;> rfl
  · rfl

@[simp] theorem enqueueSeal_link (slot : Nat) : (s.enqueueSeal slot).link = s.link := by unfold enqueueSeal; split <;> rfl

@[simp] theorem unpinEdition_link (slot : Nat) : (s.unpinEdition slot).link = s.link := by
  unfold unpinEdition
  split
  · rfl
  · split
    · exact enqueueSeal_link _ _
    · rfl

@[simp] theorem pinSlot_link (r : Requester) (i : Nat) : (s.pinSlot r i).link = s.link := by
  unfold pinSlot
  dsimp only
  split <;> rfl

@[simp] theorem joinSameKey_link (volume : U32) (key : EntryKey) : (s.joinSameKey volume key).link = s.link := by
  unfold joinSameKey
  split
  · rfl
  · exact foldl_link (fun t w => t.pinSlot_link _ _) _ _

@[simp] theorem releaseSlot_link (r : Requester) : (s.releaseSlot r).link = s.link := by
  unfold releaseSlot
  split
  · rfl
  · dsimp only
    split
    · split <;> rfl
    · rfl

@[simp] theorem leaveRecallWait_link (r : Requester) : (s.leaveRecallWait r).link = s.link := by
  unfold leaveRecallWait
  split
  · dsimp only; split <;> rfl
  · rfl

@[simp] theorem releaseRecall_link (r : Requester) : (s.releaseRecall r).link = s.link := by simp [releaseRecall]

@[simp] theorem releasePins_link (o : Order) : (s.releasePins o).link = s.link := by
  unfold releasePins unpinPhoto
  dsimp only
  split <;> split <;> simp

@[simp] theorem leaveTable_link (n : Nat) (final : OrdState) (code : Code) : (s.leaveTable n final code).link = s.link := by
  unfold leaveTable forgetOrder
  split
  · rfl
  · simp

@[simp] theorem endOrder_link (n : Nat) (code : Code) : (s.endOrder n code).link = s.link := by
  unfold endOrder
  split <;> simp

theorem charge_link (o : Order) (masked : Nat) (p : Price) : (s.charge o masked p).link = s.link := by
  unfold charge
  dsimp only
  split <;> rfl

theorem fundsStep_link (o : Order) (a : Account) (masked : Nat) (p : Price) (retried : Bool) :
    (s.fundsStep o a masked p retried).link = s.link := by
  unfold fundsStep
  split_ifs
  · rfl
  · rfl
  · exact charge_link _ _ _ _
  · rfl
  · rfl

@[simp] theorem priceOrder_link (n : Nat) (retried : Bool) : (s.priceOrder n retried).link = s.link := by
  unfold priceOrder
  split
  · rfl
  · split
    · split
      · rfl
      · exact endOrder_link _ _ _
      · exact fundsStep_link _ _ _ _ _ _
    · rfl

@[simp] theorem releaseJob_link (j : Job) : (s.releaseJob j).link = s.link := by
  unfold releaseJob unpinPhoto
  dsimp only
  split <;> simp

@[simp] theorem failJob_link (n : Nat) (c : Code) : (s.failJob n c).link = s.link := by
  unfold failJob
  split
  · rfl
  · rw [push_link, foldl_link fun t o => endOrder_link t o c, latch_link, releaseJob_link]
    rfl

@[simp] theorem applyRestored_link (j : Job) (w : Written) : (s.applyRestored j w).link = s.link := by
  unfold applyRestored
  split
  · rfl
  · rfl
  · split <;> rfl

@[simp] theorem priceAfterJob_link (n : Nat) : (s.priceAfterJob n).link = s.link := by simp [priceAfterJob]

@[simp] theorem jobRecalled_link (n i : Nat) : (s.jobRecalled n i).link = s.link := by
  unfold jobRecalled
  dsimp only
  split
  · rfl
  · split_ifs
    · rfl
    · simp
    · split
      · rfl
      · split <;> simp

@[simp] theorem recallFailed_link (r : Requester) (c : Code) : (s.recallFailed r c).link = s.link := by
  cases r <;> simp [recallFailed]

@[simp] theorem fillSlot_link (i : Nat) (x : RecallSlot) (key : EntryKey) (c : EntryCopy) :
    (s.fillSlot i x key c).link = s.link := by
  unfold fillSlot
  dsimp only
  split
  · rfl
  · exact foldl_link (fun t _ => push_link t _) _ _

@[simp] theorem fetchDone_link (i : Nat) (c : EntryCopy) : (s.fetchDone i c).link = s.link := by
  unfold fetchDone mergeSlot
  dsimp only
  split
  · rfl
  · split
    · simp
    · split
      · exact foldl_link (fun t r => t.pinSlot_link r _) _ _
      · simp

@[simp] theorem fetchFailed_link (i : Nat) (c : Code) : (s.fetchFailed i c).link = s.link := by
  unfold fetchFailed
  split
  · rfl
  · exact foldl_link (fun t _ => push_link t _) _ _

@[simp] theorem pushCloseTest_link (r : RecId) : (s.pushCloseTest r).link = s.link := by cases r <;> rfl

@[simp] theorem failFiling_link (r : RecId) (code : Code) (w : Bool) : (s.failFiling r code w).link = s.link := by
  simp [failFiling]

@[simp] theorem failPreparation_link (n : Nat) (c : Code) : (s.failPreparation n c).link = s.link := by
  unfold failPreparation answerPrepare unprepare
  split
  · rfl
  · split <;> simp

@[simp] theorem deliveryRead_link (n : Nat) (b : List U8) : (s.deliveryRead n b).link = s.link := by
  unfold deliveryRead
  split
  · rfl
  · split
    · rfl
    · exact failPreparation_link _ _ _

@[simp] theorem surveyRead_link (n : Nat) (b : List U8) : (s.surveyRead n b).link = s.link := by
  unfold surveyRead
  split
  · rfl
  · split
    · rfl
    · exact failJob_link _ _ _

@[simp] theorem reloadFailed_link (c : Code) : (s.reloadFailed c).link = s.link := by simp [reloadFailed]

@[simp] theorem reloadDone_link (x : StoreIndex) : (s.reloadDone x).link = s.link := by
  unfold reloadDone
  split <;> simp

end State

end Sys2Proof.Machine
end

section
/-! Every consequence of a change, and its end, only hands operations to the store link. -/

namespace Sys2Proof.Machine

/-- From s to t the store link has only been handed operations. -/
abbrev State.Hands (s t : State) : Prop := Offers s.link t.link

namespace State

theorem hands_of_link {s t : State} (h : t.link = s.link) : Hands s t := by
  rw [Hands, h]

theorem Hands.trans {s t u : State} (h : Hands s t) (k : Hands t u) : Hands s u := Relation.ReflTransGen.trans h k

theorem Hands.after {s t u : State} (k : Hands t u) (h : Hands s t) : Hands s u := h.trans k

/-- The link as it is, then operations handed to it. -/
theorem Hands.behind {s t u : State} (h : Hands t u) (he : t.link = s.link) : Hands s u := (hands_of_link he).trans h

/-- Operations handed to the link, which then stays as it is. -/
theorem Hands.then_link {s t u : State} (h : Hands s t) (he : u.link = t.link) : Hands s u := h.trans (hands_of_link he)

theorem Hands.foldl {α : Type} {f : State → α → State} (h : ∀ t x, Hands t (f t x)) :
    ∀ (l : List α) (s : State), Hands s (l.foldl f s)
  | [], _ => .refl
  | x :: l, s => (h s x).trans (foldl h l (f s x))

/-! ### Recalls and claims (R66, R93, R97, R107, R142) -/

theorem hands_handOff (s : State) (op : Op) : Hands s (s.handOff op) := by
  unfold handOff
  split
  · next ho =>
    split
    · exact .single (.dropped _ ho)
    · exact .single (.taken op ho)
  all_goals exact .refl

theorem hands_tryServe {s t : State} {w : RecallWaiter} (h : s.tryServe w = some t) : Hands s t := by
  unfold tryServe at h
  split at h
  · cases h; exact hands_of_link (s.pinSlot_link _ _)
  · split at h
    · cases h; exact (hands_handOff _ _).behind rfl
    · split at h
      · cases h; exact (hands_handOff _ _).behind rfl
      · cases h

theorem hands_requestRecall (s : State) (w : RecallWaiter) : Hands s (s.requestRecall w) := by
  unfold requestRecall
  split
  · exact .refl
  · split
    · next h => exact hands_tryServe h
    · exact .refl

theorem hands_serveRecall : ∀ (n : Nat) (s : State), Hands s (serveRecall n s)
  | 0, _ => .refl
  | n + 1, s => by
    unfold serveRecall
    split
    · exact .refl
    · split
      · exact .refl
      · next h => exact (((hands_tryServe h).behind rfl).then_link (joinSameKey_link _ _ _)).trans (hands_serveRecall n _)

theorem hands_grant (s : State) (c : Claim) : Hands s (s.grant c) := by
  unfold grant
  dsimp only
  split
  · exact .refl
  all_goals
    split
    · exact .refl
    · split
      · exact .refl
      · exact (hands_handOff _ _).behind rfl

theorem hands_placeClaim (s : State) (c : Claim) : Hands s (s.placeClaim c) := by
  unfold placeClaim
  split
  · exact hands_grant _ _
  · exact .refl

theorem hands_regrant : ∀ (l : List Claim) (s : State), Hands s (regrant l s)
  | [], _ => .refl
  | c :: rest, s => by
    unfold regrant
    split
    · exact (hands_regrant rest _).after ((hands_grant _ c).behind rfl)
    · exact .refl

/-! ### Discards and jobs (R104, R106, R112, R113) -/

theorem hands_discard (s : State) (d : HeldDiscard) : Hands s (s.discard d) := by
  unfold discard
  split
  · exact .refl
  · exact hands_handOff _ _

theorem hands_releaseDiscards : ∀ (l : List HeldDiscard) (s : State), Hands s (releaseDiscards l s)
  | [], _ => .refl
  | d :: rest, s => by
    unfold releaseDiscards
    split
    · exact hands_releaseDiscards rest s
    · exact (hands_releaseDiscards rest _).after ((hands_handOff _ _).behind rfl)

theorem hands_createJob (s : State) (t : Target) (low high span : Nat) (creator : Option Nat) :
    Hands s (s.createJob t low high span creator) := by
  unfold createJob holdTarget
  dsimp only
  split
  · exact .refl
  · exact .refl
  · exact ((hands_requestRecall _ _).then_link (push_link _ _)).behind rfl

theorem hands_startJob (s : State) : Hands s s.startJob := by
  unfold startJob
  split
  · exact .refl
  · split
    · exact .refl
    · split
      · exact .refl
      · exact (hands_placeClaim _ _).behind rfl

theorem hands_finishJob (s : State) (n : Nat) (w : Written) : Hands s (s.finishJob n w) := by
  unfold finishJob
  split
  · exact .refl
  · next j _ =>
    have hpriced : (j.orders.foldl priceAfterJob
        ((((s.applyRestored j w).retireJob j .done .ok).releaseJob j).latch .restoreDone)).link = s.link := by
      rw [foldl_link priceAfterJob_link, latch_link, releaseJob_link]
      exact applyRestored_link _ _ _
    dsimp only
    split
    · exact ((hands_discard _ _).behind hpriced).then_link (push_link _ _)
    · exact hands_of_link hpriced

/-! ### Orders with their target (R134 to R137) -/

theorem hands_restoreStep (s : State) (n : Nat) : Hands s (s.restoreStep n) := by
  unfold restoreStep
  split
  · exact .refl
  · split
    · split
      · exact hands_of_link (s.priceOrder_link _ _)
      · split
        · exact .refl
        · unfold createOrderJob
          split
          · exact hands_of_link (s.endOrder_link _ _)
          · exact (hands_createJob _ _ _ _ _ _).behind rfl
    · exact .refl

theorem hands_askRecall (s : State) (n : Nat) : Hands s (s.askRecall n) := by
  unfold askRecall
  split
  · exact .refl
  · exact (hands_requestRecall _ _).behind rfl

theorem hands_settleResident (s : State) (n slot : Nat) : Hands s (s.settleResident n slot) := by
  unfold settleResident
  split
  · exact .refl
  · dsimp only
    split <;> exact (hands_restoreStep _ _).behind rfl

theorem hands_recallGiven (s : State) (r : Requester) (i : Nat) : Hands s (s.recallGiven r i) := by
  cases r with
  | order n =>
    show Hands s (s.orderRecalled n i)
    unfold orderRecalled
    split
    · exact (hands_restoreStep _ _).behind rfl
    · exact .refl
  | job n => exact hands_of_link (s.jobRecalled_link n i)

/-! ### Seals, records and closes (R49 to R58, R87 to R90) -/

theorem hands_sealTest : ∀ (l : List Nat) (s : State), Hands s (sealTest l s)
  | [], _ => .refl
  | slot :: rest, s => by
    unfold sealTest
    split
    · exact .refl
    · split
      · exact .refl
      · split
        · exact (hands_sealTest rest _).behind rfl
        · exact (hands_handOff _ _).behind rfl

theorem hands_waiterSealed (v : U32) (s : State) (n : Nat) : Hands s (waiterSealed v s n) := (hands_askRecall _ n).behind rfl

theorem hands_sealDone (s : State) (slot : Nat) (v : U32) : Hands s (s.sealDone slot v) := by
  unfold sealDone
  split
  · exact .refl
  · exact ((Hands.foldl (hands_waiterSealed v) s.vol.waiters _).then_link (push_link _ _)).behind rfl

theorem hands_sealFailed (s : State) (slot : Nat) (c : Code) : Hands s (s.sealFailed slot c) := by
  unfold sealFailed
  split
  · exact .refl
  · exact ((Hands.foldl (fun t n => t.hands_settleResident n slot) s.vol.waiters _).then_link (push_link _ _)).behind rfl

theorem hands_writeDone (s : State) (r : RecId) (w : Written) : Hands s (s.writeDone r w) := by
  unfold writeDone
  split
  · exact hands_of_link (by simp)
  · exact (hands_of_link (s.failFiling_link r .bodyCheck true)).trans (hands_handOff _ _)

theorem hands_handStaged (s : State) : Hands s s.handStaged := by
  unfold handStaged
  split
  · unfold handOver
    dsimp only
    split
    · exact (hands_handOff _ _).behind rfl
    · exact .refl
  · exact .refl

theorem hands_closeTest (s : State) (slot : Nat) : Hands s (s.closeTest slot) := by
  unfold closeTest
  split
  · exact .refl
  · split
    · exact ((hands_handOff _ _).then_link (latch_link _ _)).behind rfl
    · exact .refl

/-! ### A whole change -/

theorem hands_completed (s : State) (op : Op) (c : Completion) : Hands s (s.completed op c) := by
  unfold completed
  split
  · exact hands_writeDone _ _ _
  · exact hands_of_link (failFiling_link _ _ _ _)
  · exact hands_finishJob _ _ _
  · exact hands_of_link (failJob_link _ _ _)
  · exact hands_finishJob _ _ _
  · exact hands_of_link (failJob_link _ _ _)
  · exact hands_of_link (surveyRead_link _ _ _)
  · exact hands_of_link (failJob_link _ _ _)
  · exact hands_of_link (deliveryRead_link _ _ _)
  · exact hands_of_link (failPreparation_link _ _ _)
  · exact hands_sealDone _ _ _
  · exact hands_sealFailed _ _ _
  · exact hands_of_link (fetchDone_link _ _ _)
  · exact hands_of_link (fetchFailed_link _ _ _)
  · exact hands_of_link (reloadDone_link _ _)
  · exact hands_of_link (reloadFailed_link _ _)
  all_goals exact .refl

theorem hands_runTask (s : State) (t : Task) : Hands s (s.runTask t) := by
  cases t with
  | complete op c => exact hands_completed _ _ _
  | regrant => exact hands_regrant _ _
  | closeTest slot => exact hands_closeTest _ _
  | sealTest => exact hands_sealTest _ _
  | serveRecall => exact hands_serveRecall _ _
  | startJob => exact hands_startJob _
  | recallGiven r i => exact hands_recallGiven _ _ _
  | recallFailed r c => exact hands_of_link (recallFailed_link _ _ _)
  | heldDiscards => exact hands_releaseDiscards _ _

theorem hands_settle : ∀ (n : Nat) (s : State), Hands s (settle n s)
  | 0, _ => .refl
  | n + 1, s => by
    unfold settle
    split
    · exact .refl
    · exact (hands_settle n _).after ((hands_runTask _ _).behind rfl)

/-- All that a change's consequences do to the link is to hand it operations. -/
theorem hands_settled (s : State) : Hands s s.settled := hands_settle _ _

@[simp] theorem completeEntry_link (s : State) : s.completeEntry.link = s.link := by
  unfold completeEntry answerEntry
  split
  · dsimp only; split <;> rfl
  · split <;> rfl
  all_goals rfl

theorem hands_endChange (s : State) : Hands s s.endChange := by
  unfold endChange
  split
  · exact ((s.hands_settled.then_link (completeEntry_link _)).trans (hands_settled _)).then_link (close_link _)
  · exact s.hands_settled.then_link (close_link _)

theorem hands_handedOff (s : State) : Hands s s.handedOff := by
  unfold handedOff due
  split
  · exact s.hands_handStaged.trans (hands_endChange _)
  · exact .refl

end State

end Sys2Proof.Machine
end

section
/-! Timeouts, and the eighth failure in a row, which takes the link OFFLINE (O38). -/

namespace Sys2Proof.Machine

namespace State

/-! ### The link goes OFFLINE (R77) -/

theorem goOffline_link (s : State) (i : Nat) (op : Op) (c : Completion) : (s.goOffline i op c).link =
    { state := .offline, slots := (s.link.vacate i).slots.map fun sl => ⟨sl.issue, none⟩, waiting := [], failures := 8
      goodProbes := 0, discards := 0, dropped := s.link.dropped, probeTicks := some 256 } :=
  foldl_link (fun t _ => push_link t _) _ _

theorem foldl_push_req {α : Type} (f : α → Task) :
    ∀ (l : List α) (s : State), (l.foldl (fun t x => t.push (f x)) s).req = s.req
  | [], _ => rfl
  | x :: l, s => foldl_push_req f l (s.push (f x))

theorem goOffline_req (s : State) (i : Nat) (op : Op) (c : Completion) : (s.goOffline i op c).req = (s.latch .storeOffline).req :=
  foldl_push_req _ _ _

theorem completeSlot_eighth {s : State} (hf : s.link.failures = 7) (i : Nat) (op : Op) (c : Completion) :
    s.completeSlot i op c true = s.goOffline i op c := if_pos (by simp [hf])

/-- The link has gone OFFLINE in the state t: emptied, its probe interval begun, the event latched (R77). -/
abbrev WentOffline (s t : State) : Prop :=
  t.link.state = .offline ∧ t.link.failures = 8 ∧ t.link.waiting = [] ∧ t.link.probeTicks = some 256 ∧
    (∀ sl ∈ t.link.slots, sl.occupant = none) ∧ Raised s t .storeOffline

/-- What else the change does hands nothing to the OFFLINE link. -/
theorem wentOffline_endChange (s : State) (i : Nat) (op : Op) (c : Completion) : s.WentOffline (s.goOffline i op c).endChange := by
  have hlink : (s.goOffline i op c).endChange.link = (s.goOffline i op c).link :=
    (hands_endChange _).eq_of_offline (by rw [goOffline_link]; exact nofun)
  have hraised : Raised s (s.goOffline i op c).endChange .storeOffline :=
    raised_endChange (by rw [goOffline_req]; rfl) (by rw [goOffline_req]; exact s.latch_bit .storeOffline)
  rw [goOffline_link] at hlink
  rw [WentOffline, hlink]
  refine ⟨rfl, rfl, rfl, rfl, fun sl hsl => ?_, hraised⟩
  obtain ⟨_, -, rfl⟩ := List.mem_map.1 hsl
  rfl

/-! ### Behind the hand-off of a STAGED record's write -/

theorem close_wait (s : State) : s.close.req.wait = s.req.wait ∨ s.close.req.wait = none := by
  unfold close send endWait
  split
  · exact .inl rfl
  · exact .inr rfl

theorem handedOff_wait (s : State) : s.handedOff.req.wait = s.req.wait ∨ s.handedOff.req.wait = none := by
  unfold handedOff due
  split
  · obtain ⟨u, he, hu, -⟩ := s.handStaged.endChange_closes
    rw [he, ← s.moves_handStaged.carried.wait, ← hu.wait]
    exact u.close_wait
  · exact .inl rfl

/-- An event behind the hand-off that is due is one also for the state before it. -/
theorem raised_of_handedOff {s t : State} {e : Event} (h : Raised s.handedOff t e) : Raised s t e := by
  rcases h with hl | ⟨hnone, hmask⟩
  · exact .inl hl
  · rcases s.handedOff_wait with hw | hw
    · exact .inr ⟨hnone, hw ▸ hmask⟩
    · rw [hw] at hmask
      cases hmask

/-- The eighth failure in a row, as an event (R76, R77). -/
theorem event_goesOffline {s t : State} {happens : State → Bool} {body : State → State} {i : Nat} {op : Op} {c : Completion}
    (hp : s.powered = true) (hf : s.link.failures = 7) (ho : s.link.state = .online) (hh : happens s.handedOff = true)
    (hb : body s.handedOff = s.handedOff.completeSlot i op c true) (he : event happens body s = .next t) : s.WentOffline t := by
  have hfailures : s.handedOff.link.failures = 7 := (s.hands_handedOff.keeps ho).2.1.trans hf
  rw [event, event_handsOff hp hh, hb, completeSlot_eighth hfailures] at he
  obtain rfl := Host.Outcome.next.inj he
  obtain ⟨hstate, hcount, hwaiting, hprobe, hslots, hraised⟩ := s.handedOff.wentOffline_endChange i op c
  exact ⟨hstate, hcount, hwaiting, hprobe, hslots, raised_of_handedOff hraised⟩

/-! ### Failing answers and timeouts (R75, R76) -/

theorem timedOut?_of_running {l : StoreLink} {i : Nat} {op : Op} (h : l.running? i = some ⟨op, 0⟩) (hop : op ≠ .probe) :
    l.timedOut? i = some op := by simp [StoreLink.timedOut?, h, Op.isOwned, hop]

theorem timeOut_completes {s : State} {i : Nat} {op : Op} (h : s.link.timedOut? i = some op) :
    s.timeOut i = s.completeSlot i op (.failed .storeTimeout) true := by simp only [timeOut, h]

theorem timeout_goesOffline {s t : State} {slot : BitVec 3} {op : Op} (hp : s.powered = true) (hf : s.link.failures = 7)
    (ho : s.link.state = .online) (hr : s.link.running? slot.toNat = some ⟨op, 0⟩) (hop : op ≠ .probe)
    (he : exec (.storeOperationTimeout slot) s = .next t) : s.WentOffline t := by
  have hdue : s.handedOff.link.timedOut? slot.toNat = some op := timedOut?_of_running (s.hands_handedOff.running? ho hr) hop
  exact event_goesOffline (happens := fun s => (s.link.timedOut? slot.toNat).isSome) (body := fun s => s.timeOut slot.toNat)
    hp hf ho (by simp only [hdue, Option.isSome_some]) (timeOut_completes hdue) he

theorem mediaError_goesOffline {α : Type} {s t : State} {at_ : SlotTag} {fits : Op → Bool} {returns : α → Returns} {op : Op}
    (hp : s.powered = true) (hf : s.link.failures = 7) (ho : s.link.state = .online) (ha : s.link.answered? at_ fits = some op)
    (he : storeAnswer at_ fits returns .mediaError s = .next t) : s.WentOffline t := by
  have hheld : s.handedOff.link.answered? at_ fits = some op := s.hands_handedOff.answered? ho ha
  exact event_goesOffline (i := at_.slot.toNat) (op := op) (c := .failed .storeFault) hp hf ho
    (by simp only [hheld, Option.isSome_some]) (by simp only [takeAnswer, hheld]; rfl) he

/-- A timeout below the limit in SERVICE: its slot passes on, and its completion at the owner is worked through to x. -/
theorem exec_storeOperationTimeout_settles {s x : State} {slot : BitVec 3} {op : Op} (h : s.Working)
    (hd : s.link.timedOut? slot.toNat = some op) (hf : s.link.failures < 7)
    (hx : settle 65535 (completed { s with link := s.link.faulted slot.toNat op } op (.failed .storeTimeout)) = x) :
    exec (.storeOperationTimeout slot) s = .next x.close := by
  have hsettled : (s.timeOut slot.toNat).settled = x := by
    rw [timeOut_completes hd, completeSlot_faulted hf, settled_push (u := { s with link := s.link.faulted slot.toNat op }) h.2.1]
    exact hx
  have hmode : x.req.mode = .service := by
    rw [← hsettled, (kept_settled _).mode, (s.moves_timeOut slot.toNat).kept.mode]
    exact h.2.2.1
  exact event_settles (happens := fun s => (s.link.timedOut? slot.toNat).isSome) (body := fun s => s.timeOut slot.toNat) h
    (by simp only [hd, Option.isSome_some]) hsettled hmode

/-! ### A photograph's write times out (R54, R75) -/

theorem exec_storeOperationTimeout_photo {s : State} {slot : BitVec 3} {n : U32} {len : Nat} {x : IndexRecord} (h : s.Working)
    (hs : s.Still) (hr : s.link.running? slot.toNat = some ⟨.writeIntake (.photo n) len x, 0⟩) (hf : s.link.failures < 7)
    (hheld : 0 < s.pool.heldBy (.record (.photo n))) : ∃ t, exec (.storeOperationTimeout slot) s = .next t ∧
      t.cat = s.cat.photoFailed n .storeTimeout ∧ t.link.failures = s.link.failures + 1 ∧
      t.pool = s.pool.without (.record (.photo n)) ∧ Raised s t .fileFailed := by
  have hexec := exec_storeOperationTimeout_settles h (timedOut?_of_running hr nofun) hf
    (settle_failFiling (u := { s with link := s.link.faulted slot.toNat _ }) (r := .photo n) h.2.1 hs.1 h.2.1)
  rw [closeTested, failedAtWrite_photo hheld] at hexec
  refine ⟨_, hexec, close_cat _, ?_, close_pool _, raised_close rfl (s.latch_bit .fileFailed)⟩
  rw [close_link]
  exact StoreLink.faulted_failures _ _ _

end State

/-- Settles O38. -/
theorem failuresTakeTheLinkOffline : Obligations.FailuresTakeTheLinkOffline := by
  unfold Obligations.FailuresTakeTheLinkOffline
  refine ⟨fun s slot n len issue x h hs hslot hf hheld => ?_, fun s op t hp _ hf ho hcause => ?_⟩
  · exact State.exec_storeOperationTimeout_photo (len := len) (x := x) h hs (by simp [StoreLink.running?, hslot]) hf hheld
  · rcases hcause with ⟨slot, hr, hop, he⟩ | ⟨at_, ha, he⟩ | ⟨at_, ha, he⟩
    · exact State.timeout_goesOffline hp hf ho hr hop he
    · exact State.mediaError_goesOffline hp hf ho ha he
    · exact State.mediaError_goesOffline hp hf ho ha he

end Sys2Proof.Machine
end

section
/-! Probing, recovery and RESUME STORE (O39), with the first reply of a request that is taken. -/

namespace Sys2Proof.Machine

/-! ### Probes (R78, R79) -/

/-- An event in SERVICE whose body leaves nothing to be worked through. -/
theorem event_closes {happens : State → Bool} {body : State → State} {s u : State} (h : s.Working) (hh : happens s = true)
    (hb : body s = u) (ha : u.agenda = []) (hm : u.req.mode = .service) : event happens body s = .next u.close := by
  subst hb
  exact State.event_settles h hh (State.settled_of_nil ha) hm

/-- At the end of the interval a new PROBE goes out in slot 0; one that stands there unanswered has failed (R78). -/
theorem StoreLink.probe_eq {l : StoreLink} {sl : OpSlot} {rest : List OpSlot} (h : l.slots = sl :: rest) : l.probe = { l with
    goodProbes := if sl.occupant = none then l.goodProbes else 0
    probeTicks := some 256
    slots := ⟨(sl.issue + 1) % 65536, some ⟨.probe, 1024⟩⟩ :: rest } := by
  unfold StoreLink.probe
  cases hocc : sl.occupant with
  | none => simp [StoreLink.running?, h, hocc, StoreLink.occupy]
  | some r => simp [StoreLink.running?, h, hocc, StoreLink.occupy]

theorem exec_probeIntervalExpiry {s : State} {sl : OpSlot} {rest : List OpSlot} (h : s.Working) (ho : s.link.state = .offline)
    (hd : s.link.probeTicks = some 0) (hs : s.link.slots = sl :: rest) :
    exec .probeIntervalExpiry s = .next (State.close { s with link := { s.link with
      goodProbes := if sl.occupant = none then s.link.goodProbes else 0
      probeTicks := some 256
      slots := ⟨(sl.issue + 1) % 65536, some ⟨.probe, 1024⟩⟩ :: rest } }) := by
  rw [← StoreLink.probe_eq hs]
  exact event_closes (happens := fun s => s.link.probeDue) (body := fun s => { s with link := s.link.probe }) h
    (by simp [StoreLink.probeDue, ho, hd]) rfl h.2.1 h.2.2.1

namespace State

section Judged

variable (s : State)

/-- A good answer below the limit counts (R78). -/
theorem judgeProbe_counts (hg : s.link.goodProbes < 15) :
    s.judgeProbe (.done ()) = { s with link := { s.link.vacate 0 with goodProbes := s.link.goodProbes + 1 } } :=
  if_neg (by simp only [Config.goodProbeLimit, StoreLink.vacate]; omega)

/-- The sixteenth good answer in a row recovers the link (R79). -/
theorem judgeProbe_recovers (hg : s.link.goodProbes = 15) : s.judgeProbe (.done ()) = State.latch { s with
    link := if s.req.options.autoResume
      then { s.link.vacate 0 with state := .online, failures := 0, goodProbes := 0, probeTicks := none }
      else { s.link.vacate 0 with state := .recovered, goodProbes := 16, probeTicks := none } } .storeRecovered := by
  have hcount : (s.link.vacate 0).goodProbes + 1 = 16 := congrArg (· + 1) hg
  simp only [judgeProbe, hcount, Config.goodProbeLimit, le_refl, if_true, recover, StoreLink.online]

/-- Any other answer sets the count to 0 (R78). -/
theorem judgeProbe_fails {ans : Answer Unit} (ha : ans ≠ .done ()) :
    s.judgeProbe ans = { s with link := { s.link.vacate 0 with goodProbes := 0 } } := by
  cases ans with
  | done => exact absurd rfl ha
  | notFound | full | mediaError => rfl

theorem judgeProbe_agenda (ans : Answer Unit) : (s.judgeProbe ans).agenda = s.agenda := by
  unfold judgeProbe recover
  dsimp only
  split
  · split <;> rfl
  all_goals rfl

end Judged

end State

/-- A PROBE's answer in SERVICE is judged, and nothing follows from it. -/
theorem exec_probeAnswer {s : State} {at_ : SlotTag} (ans : Answer Unit) (h : s.Working)
    (ho : s.link.answered? at_ (fun op => op == .probe) = some .probe) :
    exec (.probeAnswer at_ ans) s = .next (s.judgeProbe ans).close :=
  event_closes (happens := fun s => (s.link.answered? at_ fun op => op == .probe).isSome) (body := fun s => s.judgeProbe ans) h
    (by simp only [ho, Option.isSome_some]) rfl ((s.judgeProbe_agenda ans).trans h.2.1)
    ((s.moves_judgeProbe ans).kept.mode.trans h.2.2.1)

/-! ### Replies to a request that is taken (R176, R183, R186) -/

/-- A wake leaves the port as the request's frame has left it. -/
theorem State.take_port (s : State) : s.take.port = s.popped.port := s.popped.carried_wake.port

theorem State.take_replyFrame (s : State) (kind tag : U8) (code : Code) (fields : List U8) :
    s.take.replyFrame kind tag code fields = s.replyFrame kind tag code fields := by
  simp only [State.replyFrame, State.frame, State.take_port]
  rfl

/-- The reply of a request that is taken is the first frame of its change, whatever else the change does. -/
theorem firstSent_taken {s u : State} {c : Instr} {kind tag : U8} {code : Code} {fields : List U8} (ht : s.takes c = true)
    (hu : u.port = s.take.port) :
    FirstSent s (u.answer kind tag code fields).endChange (s.replyFrame kind tag code fields) := by
  obtain ⟨-, hroom, hwaiting⟩ := State.takes_port ht
  have hport : (u.answer kind tag code fields).port = s.popped.port := hu.trans s.take_port
  have hreply : u.replyFrame kind tag code fields = s.replyFrame kind tag code fields := by
    rw [← s.take_replyFrame, State.replyFrame, State.replyFrame, State.frame, State.frame, hu]
  exact State.firstSent_endChange hwaiting hroom (by rw [hport]; rfl) (by rw [hport]; rfl) (congrArg some hreply)

/-! ### RESUME STORE (R80) -/

section Resume

variable {s : State} {tag : U8} (ht : s.takes (.resumeStore tag) = true) (hu : s.Unstaged)
include ht hu

theorem exec_resumeStore_recovered (hr : s.take.link.state = .recovered) : exec (.resumeStore tag) s = .next
    (State.answer { s.take with link := { s.take.link with state := .online, failures := 0, goodProbes := 0 } }
      0x52 tag .ok []).endChange :=
  (request_taken ht hu).trans (by simp only [hr]; rfl)

theorem exec_resumeStore_refused (hr : s.take.link.state ≠ .recovered) :
    exec (.resumeStore tag) s = .next (s.take.answer 0x52 tag .badState []).endChange := by
  refine (request_taken ht hu).trans ?_
  split
  · next h => exact absurd h hr
  · rfl
  · rfl

end Resume

/-- With an empty first slot an ONLINE link takes the next operation there (R72, R80). -/
theorem handOff_first {s : State} {op : Op} {sl : OpSlot} {rest : List OpSlot} (ho : s.link.state = .online)
    (hs : s.link.slots = sl :: rest) (he : sl.occupant = none) (hd : op.isDiscard = false) :
    (s.handOff op).link.slots = ⟨(sl.issue + 1) % 65536, some ⟨op, 1024⟩⟩ :: rest := by
  have htakes : s.link.Takes 0 := ⟨ho, by simp [hs, List.findIdx?_cons, he]⟩
  rw [State.handOff_takes htakes hd]
  simp [StoreLink.occupy, hs]

/-- Settles O39. -/
theorem probesAndResumeBringTheLinkBack : Obligations.ProbesAndResumeBringTheLinkBack := by
  unfold Obligations.ProbesAndResumeBringTheLinkBack
  refine ⟨⟨fun s sl rest h => exec_probeIntervalExpiry h, fun s at_ h ho => ?judged⟩, fun s tag ht hu => ?resume,
    fun s op sl rest => handOff_first⟩
  case judged =>
    refine ⟨fun hg => ?_, fun hg => ?_, fun ans ha => ?_⟩
    · rw [exec_probeAnswer _ h ho, s.judgeProbe_counts hg]
    · rw [exec_probeAnswer _ h ho, s.judgeProbe_recovers hg]
    · rw [exec_probeAnswer _ h ho, s.judgeProbe_fails ha]
  case resume =>
    by_cases hr : s.take.link.state = .recovered
    · have hexec := exec_resumeStore_recovered ht hu hr
      refine ⟨_, hexec, fun _ => ⟨firstSent_taken ht rfl, fun hawake => ?_⟩, fun hne => absurd hr hne⟩
      rw [hexec, State.take_of_awake hawake]
      rfl
    · refine ⟨_, exec_resumeStore_refused ht hu hr, fun he => absurd he hr,
        fun _ => ⟨firstSent_taken ht rfl, fun hcalm hawake => ?_⟩⟩
      obtain ⟨-, hroom, hwaiting⟩ := State.takes_port ht
      rw [State.take_of_awake hawake, State.endChange_answer _ _ _ _ (State.popped_calm hcalm) hwaiting hroom]
      rfl

end Sys2Proof.Machine
end

section
/-! The claim queue (O36), and the answers of the store with the slot that they free (O37). -/

namespace Sys2Proof.Machine

/-! ### Claims (R65, R66) -/

theorem Pool.fits_iff {p : Pool} {c : Claim} : p.fits c = true ↔ c.need + 32 ≤ p.free := decide_eq_true_iff

namespace State

/-- The only claim, which fits, is granted, and the queue is empty. -/
theorem regrant_one {s : State} {c : Claim} (hc : s.pool.claims = [c]) (hf : s.pool.fits c = true) :
    regrant s.pool.claims s = grant { s with pool := { s.pool with claims := [] } } c := by
  rw [hc, regrant, if_pos hf, regrant]

/-- CLAIM GRANT in SERVICE where the queue is one claim that fits. -/
theorem exec_claimGrant {s x : State} {c : Claim} (h : s.Working) (hc : s.pool.claims = [c]) (hf : s.pool.fits c = true)
    (hx : grant { s with pool := { s.pool with claims := [] } } c = x) (ha : x.agenda = []) (hm : x.req.mode = .service) :
    exec .claimGrant s = .next x.close := by
  have hsettled : (s.push .regrant).settled = x := by
    rw [settled_push h.2.1, runTask, regrant_one hc hf, hx]
    exact settle_of_nil _ _ ha
  exact event_settles (happens := fun s => s.pool.claims.head?.any s.pool.fits) (body := fun s => s.push .regrant) h
    (by simp [hc, hf]) hsettled hm

theorem placeClaim_waits {s : State} (c : Claim) (h : s.pool.claims ≠ []) :
    s.placeClaim c = { s with pool := { s.pool with claims := s.pool.claims ++ [c] } } :=
  if_neg (by simp [h])

end State

/-- Settles O36. -/
theorem claimsAreGrantedInOrder : Obligations.ClaimsAreGrantedInOrder := by
  unfold Obligations.ClaimsAreGrantedInOrder
  refine ⟨fun s n need i v h hfree hl => ⟨fun j hc hj hv => ?_, fun o hc ho hv => ?_⟩, fun s c => State.placeClaim_waits c,
    fun s c rest hfree => State.regrant_stop _ (by simpa using hfree)⟩
  · exact State.exec_claimGrant h hc (Pool.fits_iff.2 hfree) (State.grant_job hj hv hl) h.2.1 h.2.2.1
  · exact State.exec_claimGrant h hc (Pool.fits_iff.2 hfree) (State.grant_order ho hv hl) h.2.1 h.2.2.1

/-! ### Answers that the link does not take (R74) -/

/-- No answer is for a slot that is empty or that holds another issue. -/
theorem StoreLink.answered?_none {l : StoreLink} {at_ : SlotTag} {fits : Op → Bool}
    (h : ∀ r, l.running? at_.slot.toNat = some r → (l.slots[at_.slot.toNat]?).map OpSlot.issue ≠ some at_.issue.toNat) :
    l.answered? at_ fits = none := by
  unfold StoreLink.answered?
  cases hsl : l.slots[at_.slot.toNat]? with
  | none => rfl
  | some sl =>
    cases hr : sl.occupant with
    | none => simp [hr]
    | some r =>
      have hissue := h r (by simp [StoreLink.running?, hsl, hr])
      simp only [hsl, Option.map_some, ne_eq, Option.some.injEq] at hissue
      simp [hr, Option.filter, hissue]

/-- An answer to an operation that the link does not hold has no effect. -/
theorem event_unanswered {s : State} {at_ : SlotTag} {fits : Op → Bool} {body : State → State} (hu : s.Unstaged)
    (h : s.link.answered? at_ fits = none) : event (fun s => (s.link.answered? at_ fits).isSome) body s = .next s :=
  event_absent (by rw [State.handedOff_of_unstaged hu, h]; simp)

theorem storeAnswer_unanswered {α : Type} {s : State} {at_ : SlotTag} {fits : Op → Bool} {returns : α → Returns}
    {ans : Answer α} (hu : s.Unstaged) (h : s.link.answered? at_ fits = none) : storeAnswer at_ fits returns ans s = .next s :=
  event_unanswered hu h

/-! ### The completion of a FREE BODY (R72, R76) -/

theorem StoreLink.faulted_eq (l : StoreLink) (i : Nat) (op : Op) :
    l.faulted i op = { l.served i op with failures := l.failures + 1 } := by
  unfold StoreLink.faulted StoreLink.served StoreLink.passOn
  dsimp only
  split <;> rfl

section FreeBody

variable {s : State} {at_ : SlotTag} {locator : U32} {kind : FreeKind} (h : s.Working)
  (ho : s.link.answered? at_ Op.isDiscard = some (.freeBody locator kind))
include h ho

theorem exec_freeBodyCompletion {ans : Answer Unit} (ha : ans = .done () ∨ ans = .notFound ∨ ans = .full) :
    exec (.freeBodyCompletion at_ ans) s =
      .next (State.close { s with link := s.link.served at_.slot.toNat (.freeBody locator kind) }) := by
  have hsettle (c : Completion) : State.settle 65535 (State.completed
      { s with link := s.link.served at_.slot.toNat (.freeBody locator kind) } (.freeBody locator kind) c) =
      { s with link := s.link.served at_.slot.toNat (.freeBody locator kind) } := State.settle_of_nil _ _ h.2.1
  rcases ha with rfl | rfl | rfl
  all_goals exact State.storeAnswer_settles h ho (State.completeSlot_served ..) (hsettle _)

theorem exec_freeBodyCompletion_faults (hf : s.link.failures < 7) :
    exec (.freeBodyCompletion at_ .mediaError) s = .next (State.close { s with
      link := { s.link.served at_.slot.toNat (.freeBody locator kind) with failures := s.link.failures + 1 } }) := by
  rw [← StoreLink.faulted_eq]
  exact State.storeAnswer_settles h ho (State.completeSlot_faulted hf ..) (State.settle_of_nil _ _ h.2.1)

end FreeBody

/-! ### The operation that a freed slot is given to (R73) -/

theorem takeFirst_split {p : Op → Bool} {w : List Op} {x : Op} {rest : List Op} (h : takeFirst p w = some (x, rest)) :
    p x = true ∧ ∃ a b, w = a ++ x :: b ∧ rest = a ++ b ∧ ∀ y ∈ a, p y = false := by
  induction w generalizing x rest with
  | nil => cases h
  | cons y ys ih =>
    rw [takeFirst] at h
    split at h
    · next hy =>
      cases h
      exact ⟨hy, [], ys, rfl, rfl, List.forall_mem_nil _⟩
    · next hy =>
      obtain ⟨⟨x', rest'⟩, hr, heq⟩ := Option.map_eq_some_iff.1 h
      cases heq
      obtain ⟨hx, a, b, rfl, rfl, ha⟩ := ih hr
      exact ⟨hx, y :: a, b, rfl, rfl, List.forall_mem_cons.2 ⟨by simpa using hy, ha⟩⟩

theorem takeFirst_none {p : Op → Bool} {w : List Op} (h : takeFirst p w = none) : ∀ y ∈ w, p y = false := by
  induction w with
  | nil => exact List.forall_mem_nil _
  | cons y ys ih =>
    rw [takeFirst] at h
    split at h
    · cases h
    · next hy => exact List.forall_mem_cons.2 ⟨by simpa using hy, ih (Option.map_eq_none_iff.1 h)⟩

/-- The slot is given to the oldest filing operation, or else to the oldest one. -/
theorem nextWaiting_cases {w : List Op} {x : Op} {rest : List Op} (h : nextWaiting w = some (x, rest)) :
    (x.isFiling = true ∧ ∃ a b, w = a ++ x :: b ∧ rest = a ++ b ∧ ∀ y ∈ a, y.isFiling = false) ∨
      x.isFiling = false ∧ w = x :: rest ∧ ∀ y ∈ w, y.isFiling = false := by
  unfold nextWaiting at h
  split at h
  · next hr =>
    cases h
    exact .inl (takeFirst_split hr)
  · next hr =>
    have hall := takeFirst_none hr
    cases w with
    | nil => cases h
    | cons y ys =>
      cases h
      exact .inr ⟨hall _ (by simp), rfl, hall⟩

theorem Op.isFiling_iff (op : Op) :
    op.isFiling = true ↔ (∃ r length x, op = .writeIntake r length x) ∨ ∃ slot m, op = .closeMark slot m := by
  cases op <;> simp [Op.isFiling]

/-- Settles O37. -/
theorem storeAnswersFreeTheirSlot : Obligations.StoreAnswersFreeTheirSlot := by
  unfold Obligations.StoreAnswersFreeTheirSlot
  refine ⟨fun s at_ ans => ⟨rfl, fun hu hlate => ?_⟩, fun s at_ locator kind h ho => ?_, fun w x rest hw => ?_,
    fun w => StoreLink.nextWaiting_none, Op.isFiling_iff⟩
  · have hnone (fits : Op → Bool) : s.link.answered? at_ fits = none := StoreLink.answered?_none hlate
    exact ⟨storeAnswer_unanswered hu (hnone _), storeAnswer_unanswered hu (hnone _),
      event_unanswered (fits := fun op => op == .probe) (body := fun s => s.judgeProbe ans) hu (hnone _)⟩
  · exact ⟨fun ans => exec_freeBodyCompletion h ho, exec_freeBodyCompletion_faults h ho⟩
  · rcases nextWaiting_cases hw with ⟨hx, hsplit⟩ | ⟨hx, hsplit⟩
    · exact ⟨fun _ => hsplit, fun hn => absurd (hx.symm.trans hn) nofun⟩
    · exact ⟨fun hy => absurd (hx.symm.trans hy) nofun, fun _ => hsplit⟩

end Sys2Proof.Machine
end

section
/-! QUERY STAGING (O35): what a query reports in every mode, and the counts of the pool. -/

namespace Sys2Proof.Machine

/-! ### The segments by their holders (R62) -/

/-- Every segment is free or held by one class. -/
theorem Pool.counts (p : Pool) :
    p.free + p.heldClass Holder.isIntake + p.heldClass Holder.isJob + p.heldClass Holder.isOrder = p.segments.length := by
  unfold Pool.free Pool.heldClass
  induction p.segments with
  | nil => rfl
  | cons x l ih =>
    have hone : (if x.isNone then 1 else 0) + (if x.any Holder.isIntake then 1 else 0) + (if x.any Holder.isJob then 1 else 0) +
        (if x.any Holder.isOrder then 1 else 0) = 1 := by
      rcases x with _ | h
      · rfl
      · cases h <;> rfl
    simp only [List.countP_cons, List.length_cons]
    omega

/-! ### QUERY STAGING (R69) -/

theorem flagByte_decide (q : Prop) [Decidable q] : flagByte (decide q) = [if q then 1 else 0] := by
  by_cases hq : q <;> simp [flagByte, hq]

/-- A query is answered from the state that takes it, and its reply is the first frame of its change (R176, R183). -/
theorem query_firstSent {s : State} {c : Instr} {body : State → State} {kind tag : U8} {code : Code} {fields : List U8}
    (ht : s.takes c = true) (hb : body s.take = s.take.answer kind tag code fields) :
    ∃ t, query c body s = .next t ∧ FirstSent s t (s.replyFrame kind tag code fields) := by
  refine ⟨_, query_taken ht, ?_⟩
  have hfirst : FirstSent s (body s.take).endChange (s.replyFrame kind tag code fields) := hb ▸ firstSent_taken ht rfl
  obtain ⟨rest, hrest⟩ := State.outbound_handAtOnce (body s.take).endChange
  rw [FirstSent, ← hrest, List.getElem?_append_left (List.getElem?_eq_some_iff.1 hfirst).1]
  exact hfirst

/-- Settles O35. -/
theorem queryStagingReportsThePool : Obligations.QueryStagingReportsThePool := by
  unfold Obligations.QueryStagingReportsThePool
  refine ⟨fun s tag ht => ?_, fun p hp => p.counts.trans hp⟩
  intro p held fields
  have hfields : s.take.stagingFields = fields := by
    rw [State.stagingFields, State.stagingIsLow, flagByte_decide]
    rfl
  obtain ⟨t, hexec, hfirst⟩ := query_firstSent (body := fun s => s.answer 0x50 tag .ok s.stagingFields) ht rfl
  refine ⟨fun hawake => by rw [State.take_of_awake hawake]; rfl, t, hexec, hfields ▸ hfirst, fun hcalm hawake => ?_⟩
  have hreported := query_replies (body := fun s => s.answer 0x50 tag .ok s.stagingFields) ⟨hcalm, hawake, ht⟩ rfl
  rw [← hfields, State.take_of_awake hawake]
  exact Host.Outcome.next.inj (hexec.symm.trans hreported)

end Sys2Proof.Machine
end

section
/-! SEAL EDITION and the start of a seal (O40). -/

namespace Sys2Proof.Machine

namespace State

/-! ### The end of a request's change -/

/-- A ready part takes a request, whose change is worked through to a state that has the reply formed. -/
theorem request_settles_answered {c : Instr} {body : State → State} {s x : State} {kind tag : U8} {code : Code}
    {fields : List U8} (h : s.Ready c) (hx : (body s.popped).settled = x.popped.answer kind tag code fields)
    (ha : x.agenda = []) (he : x.entryDue = false) : request c body s = .next (x.answered kind tag code fields) := by
  have hdue : (x.popped.answer kind tag code fields).entryDue = false := he
  have hworked : (body s.popped).endChange = (x.popped.answer kind tag code fields).close := by
    rw [endChange, hx, if_neg (by rw [hdue]; nofun)]
  rw [request_taken h.1.2.2 h.2, take_of_awake h.1.2.1, hworked, answered,
    endChange_of_nil (s := x.popped.answer kind tag code fields) ha hdue]

/-- A reply behind a change that leaves a calm state is all that its end sends. -/
theorem answered_of_calm {s x : State} {c : Instr} {kind tag : U8} {code : Code} {fields : List U8} (ht : s.takes c = true)
    (h : x.Calm) (hp : x.port = s.port) : x.answered kind tag code fields = x.replied kind tag code fields := by
  obtain ⟨-, hroom, hwaiting⟩ := takes_port ht
  refine endChange_answer kind tag code fields (popped_calm h) ?_ ?_
  · show x.port.waiting = []
    rw [hp, hwaiting]
  · show x.port.outbound.length < 8
    rw [hp]
    exact hroom

/-! ### The test of the head (R87) -/

/-- An unpinned head that is not SEALING starts its seal, in a mode that seals and with no close mark in flight. -/
theorem sealTest_begins {s : State} {slot : Nat} {e : Edition} (rest : List Nat) (he : s.cat.edition? slot = some e)
    (hs : e.state ≠ .sealing) (hp : e.pins = 0) (hmode : s.req.mode.seals = true) (hm : s.link.marking slot = false) :
    sealTest (slot :: rest) s = (s.withCat fun c => c.withEdition slot fun e => { e with state := .sealing }).handOff
      (.sealVolume slot (s.cat.sealContent slot e)) := by
  simp [sealTest, he, hs, hp, hmode, hm]

/-- A pinned head leaves the queue with its due flag, and the next one is tested. -/
theorem sealTest_pinned {s : State} {slot : Nat} {e : Edition} (rest : List Nat) (he : s.cat.edition? slot = some e)
    (hs : e.state ≠ .sealing) (hp : 0 < e.pins) (hmode : s.req.mode.seals = true) (hm : s.link.marking slot = false) :
    sealTest (slot :: rest) s = sealTest rest (withCat { s with vol := { s.vol with sealQueue := rest } } fun c =>
      c.withEdition slot fun e => { e with due := true }) := by
  simp [sealTest, he, hs, hp, hmode, hm]

/-- A head whose close mark is in flight waits for it. -/
theorem sealTest_marking {s : State} {slot : Nat} {e : Edition} (rest : List Nat) (he : s.cat.edition? slot = some e)
    (hm : s.link.marking slot = true) : sealTest (slot :: rest) s = s := by
  simp [sealTest, he, hm]

/-- The edition's seal has begun in slot i of the link (R87). -/
def sealBegun (s : State) (slot i : Nat) (e : Edition) : State :=
  { s with
    cat := s.cat.withEdition slot fun e => { e with state := .sealing }
    link := s.link.occupy i (.sealVolume slot (s.cat.sealContent slot e)) }

theorem sealTest_takes {s : State} {slot i : Nat} {e : Edition} (rest : List Nat) (he : s.cat.edition? slot = some e)
    (hs : e.state ≠ .sealing) (hp : e.pins = 0) (hmode : s.req.mode.seals = true) (hm : s.link.marking slot = false)
    (hl : s.link.Takes i) : sealTest (slot :: rest) s = s.sealBegun slot i e :=
  (sealTest_begins rest he hs hp hmode hm).trans (handOff_takes (s := s.withCat _) hl rfl)

/-! ### SEAL EDITION by its cases (R85) -/

section SealEdition

variable {s : State} {tag : U8} {key : EditionKey}

theorem sealEdition_notInService (hm : s.req.mode = .setupPending ∨ s.req.mode = .standbyPending) :
    s.sealEdition tag key = s.refuse 0x60 tag .notInService := if_pos (by simpa using hm)

variable (hm : s.req.mode = .service ∨ s.req.mode = .setup)
include hm

theorem seals_of_mode : s.req.mode.seals = true := by simpa [Mode.seals] using hm

theorem entryDue_of_mode : s.entryDue = false := hm.elim entryDue_service entryDue_setup

theorem not_pending_of_mode : ¬(s.req.mode == .setupPending || s.req.mode == .standbyPending) = true := by
  rcases hm with hm | hm <;> simp [hm]

theorem sealEdition_outOfRange (hc : 15 < key.code.toNat) : s.sealEdition tag key = s.refuse 0x60 tag .outOfRange :=
  (if_neg (not_pending_of_mode hm)).trans (if_pos hc)

variable (hc : key.code.toNat ≤ 15)
include hc

theorem sealEdition_notFound (hs : s.cat.slotOf key = none) : s.sealEdition tag key = s.refuse 0x60 tag .notFound :=
  (if_neg (not_pending_of_mode hm)).trans ((if_neg (by omega)).trans (by simp [hs]))

variable {slot : Nat} {e : Edition} (hs : s.cat.slotOf key = some slot) (he : s.cat.edition? slot = some e)
include hs he

theorem sealEdition_badState (ho : e.state ≠ .closed) : s.sealEdition tag key = s.refuse 0x60 tag .badState :=
  (if_neg (not_pending_of_mode hm)).trans ((if_neg (by omega)).trans (by simp [hs, he, ho]))

variable (ho : e.state = .closed)
include ho

theorem sealEdition_busy (hp : 0 < e.pins) : s.sealEdition tag key = s.refuse 0x60 tag .busy :=
  (if_neg (not_pending_of_mode hm)).trans ((if_neg (by omega)).trans (by simp [hs, he, ho, hp]))

variable (hp : e.pins = 0)
include hp

theorem sealEdition_queues : s.sealEdition tag key = (s.enqueueSeal slot).answer 0x60 tag .ok
    (u8 (((s.enqueueSeal slot).vol.sealQueue.findIdx? fun x => x == slot).getD 0)) :=
  (if_neg (not_pending_of_mode hm)).trans ((if_neg (by omega)).trans (by simp [hs, he, ho, hp]))

/-- An edition that stands in the queue keeps its place. -/
theorem sealEdition_stands (hq : slot ∈ s.vol.sealQueue) :
    s.sealEdition tag key = s.answer 0x60 tag .ok (u8 (s.vol.sealQueue.findIdx fun x => x == slot)) := by
  have hsame : s.enqueueSeal slot = s := if_pos (by simpa using hq)
  have hfound : s.vol.sealQueue.findIdx? (fun x => x == slot) = some (s.vol.sealQueue.findIdx fun x => x == slot) := by
    rw [List.findIdx?_eq_some_iff_findIdx_eq]
    exact ⟨List.findIdx_lt_length_of_exists ⟨slot, hq, by simp⟩, rfl⟩
  rw [sealEdition_queues hm hc hs he ho hp, hsame, hfound]
  rfl

/-- An edition that does not joins the tail, and the head is tested. -/
theorem sealEdition_joins (hq : slot ∉ s.vol.sealQueue) : s.sealEdition tag key =
    push (answer { s with vol := { s.vol with sealQueue := s.vol.sealQueue ++ [slot] } } 0x60 tag .ok
      (u8 s.vol.sealQueue.length)) .sealTest := by
  have hnew : s.enqueueSeal slot = push { s with vol := { s.vol with sealQueue := s.vol.sealQueue ++ [slot] } } .sealTest :=
    if_neg (by simpa using hq)
  have hfound : (s.vol.sealQueue ++ [slot]).findIdx? (fun x => x == slot) = some s.vol.sealQueue.length := by
    rw [List.findIdx?_append, List.findIdx?_eq_none_iff.2 fun x hx => by simpa using ne_of_mem_of_not_mem hx hq]
    simp
  rw [sealEdition_queues hm hc hs he ho hp, hnew, push_vol, hfound]
  rfl

end SealEdition

/-! ### The edition joins a queue (R83, R85, R87) -/

section Joins

variable {s : State} {tag : U8} {key : EditionKey} {slot : Nat} {e : Edition} (h : s.Ready (.sealEdition tag key))
  (hm : s.req.mode = .service ∨ s.req.mode = .setup) (hc : key.code.toNat ≤ 15) (hs : s.cat.slotOf key = some slot)
  (he : s.cat.edition? slot = some e) (ho : e.state = .closed) (hp : e.pins = 0) (hq : slot ∉ s.vol.sealQueue)
include h hm hc hs he ho hp hq

/-- The change works through the test of the head that the joining asks for. -/
theorem settled_sealEdition : (s.popped.sealEdition tag key).settled =
    settle 65535 (sealTest (s.vol.sealQueue ++ [slot]) (answer
      { s.popped with vol := { s.vol with sealQueue := s.vol.sealQueue ++ [slot] } } 0x60 tag .ok (u8 s.vol.sealQueue.length))) := by
  rw [sealEdition_joins (s := s.popped) hm hc hs he ho hp hq, settled_push (by exact h.1.1.1)]
  rfl

/-- Behind a head that is SEALING it waits. -/
theorem exec_sealEdition_waits {head : Nat} {x : Edition} (hhead : s.vol.sealQueue.head? = some head)
    (hx : s.cat.edition? head = some x) (hsealing : x.state = .sealing) :
    exec (.sealEdition tag key) s = .next (State.replied
      { s with vol := { s.vol with sealQueue := s.vol.sealQueue ++ [slot] } } 0x60 tag .ok (u8 s.vol.sealQueue.length)) := by
  have hcalm : State.Calm { s with vol := { s.vol with sealQueue := s.vol.sealQueue ++ [slot] } } := h.1.1
  have hstays := sealTest_of_sealing (s := answer
    { s.popped with vol := { s.vol with sealQueue := s.vol.sealQueue ++ [slot] } } 0x60 tag .ok (u8 s.vol.sealQueue.length))
    (by simp [hhead]) hx hsealing
  rw [← answered_of_calm h.1.2.2 hcalm rfl]
  refine request_settles_answered (body := fun s => s.sealEdition tag key) h ?_ h.1.1.1 (entryDue_of_mode hm)
  rw [settled_sealEdition h hm hc hs he ho hp hq]
  exact (congrArg (settle 65535) hstays).trans (settle_of_nil _ _ h.1.1.1)

/-- With an empty queue its seal begins in the same change. -/
theorem exec_sealEdition_begins {i : Nat} (hempty : s.vol.sealQueue = []) (hmark : s.link.marking slot = false)
    (hl : s.link.Takes i) : exec (.sealEdition tag key) s = .next
      ((State.sealBegun { s with vol := { s.vol with sealQueue := [slot] } } slot i e).answered 0x60 tag .ok [0]) := by
  have hbegins := sealTest_takes (s := answer { s.popped with vol := { s.vol with sealQueue := [slot] } } 0x60 tag .ok (u8 0)) []
    he (by rw [ho]; nofun) hp (seals_of_mode hm) hmark hl
  refine request_settles_answered (body := fun s => s.sealEdition tag key) h ?_ h.1.1.1 (entryDue_of_mode hm)
  rw [settled_sealEdition h hm hc hs he ho hp hq, hempty]
  exact (congrArg (settle 65535) hbegins).trans (settle_of_nil _ _ h.1.1.1)

end Joins

/-! ### SEAL START (R87) -/

theorem exec_sealStart {s : State} {slot i : Nat} {rest : List Nat} {e : Edition} (h : s.Working)
    (hq : s.vol.sealQueue = slot :: rest) (he : s.cat.edition? slot = some e) (hs : e.state ≠ .sealing) (hp : e.pins = 0)
    (hm : s.link.marking slot = false) (hl : s.link.Takes i) :
    exec .sealStart s = .next (s.sealBegun slot i e).close := by
  have ⟨_, ha, hservice, _⟩ := h
  have hmode : s.req.mode.seals = true := by rw [hservice]; rfl
  refine event_settles (happens := headTestable) (body := fun s => s.push .sealTest) h ?_ ?_ hservice
  · simp [headTestable, hmode, hq, hm, he, hs]
  · rw [settled_push ha, runTask, hq, sealTest_takes rest he hs hp hmode hm hl]
    exact settle_of_nil _ _ ha

end State

/-- Settles O40. -/
theorem sealEditionQueuesAndStarts : Obligations.SealEditionQueuesAndStarts := by
  unfold Obligations.SealEditionQueuesAndStarts
  refine ⟨fun s tag key h => ⟨fun hm => ?_, fun hm => ⟨fun hc => ?_, fun hc hs => ?_, fun slot e hc hs he =>
    ⟨fun ho => ?_, fun ho hp => ?_, fun ho hp hq => ?_, fun head x ho hp hq hhead hx hsealing => ?_,
      fun i ho hp hq hmark hl => ?_⟩⟩⟩,
    fun s slot i rest e h hq he hs hp hm hl => State.exec_sealStart h hq he hs hp hm hl⟩
  · exact request_replies h (State.sealEdition_notInService hm)
  · exact request_replies h (State.sealEdition_outOfRange hm hc)
  · exact request_replies h (State.sealEdition_notFound hm hc hs)
  · exact request_replies h (State.sealEdition_badState hm hc hs he ho)
  · exact request_replies h (State.sealEdition_busy hm hc hs he ho hp)
  · exact request_replies h (State.sealEdition_stands (s := s.popped) hm hc hs he ho hp hq)
  · exact State.exec_sealEdition_waits h hm hc hs he ho hp hq hhead hx hsealing
  · exact State.exec_sealEdition_begins h hm hc hs he ho hp (by simp [hq]) hq hmark hl

end Sys2Proof.Machine
end

section
/-! The test of the seal queue's heads, and what the end of a seal makes of the catalogue and of the store link (O41). -/

namespace Sys2Proof.Machine

/-! ### The operations that the link holds once a slot has passed on (R73) -/

namespace StoreLink

theorem running?_occupy {l : StoreLink} {i : Nat} (h : i < l.slots.length) (op : Op) (k : Nat) :
    (l.occupy i op).running? k = if i = k then some ⟨op, Config.storeTicks⟩ else l.running? k := by
  unfold running? occupy
  rw [List.getElem?_modify]
  split
  · next hk =>
    subst hk
    simp [List.getElem?_eq_getElem h]
  · simp

theorem running?_vacate (l : StoreLink) (i k : Nat) : (l.vacate i).running? k = if i = k then none else l.running? k := by
  unfold running? vacate
  rw [List.getElem?_modify]
  split
  · cases l.slots[k]? <;> rfl
  · simp

theorem mem_held_iff_running {l : StoreLink} {x : Op} :
    x ∈ l.held ↔ (∃ k, (l.running? k).map Running.op = some x) ∨ x ∈ l.waiting := by
  refine mem_held.trans (or_congr_left ⟨fun ⟨sl, hsl, hx⟩ => ?_, fun ⟨k, hx⟩ => ?_⟩)
  · obtain ⟨k, hk⟩ := List.mem_iff_getElem?.1 hsl
    exact ⟨k, by simpa [running?, hk] using hx⟩
  · obtain ⟨r, hr, rfl⟩ := Option.map_eq_some_iff.1 hx
    obtain ⟨sl, hsl, hocc⟩ := Option.bind_eq_some_iff.1 hr
    exact ⟨sl, List.mem_of_getElem? hsl, by rw [hocc]; rfl⟩

theorem runs_of_answered? {l : StoreLink} {at_ : SlotTag} {fits : Op → Bool} {op : Op} (h : l.answered? at_ fits = some op) :
    l.Runs at_.slot.toNat op := by
  obtain ⟨sl, hsl, hop⟩ := Option.bind_eq_some_iff.1 h
  simpa [Runs, running?, hsl] using (Option.filter_eq_some_iff.1 hop).1

theorem served_state (l : StoreLink) (i : Nat) (op : Op) : (l.served i op).state = l.state := (passOn_rest _ i).1

/-- An emptied slot loses its own operation, and no other. -/
theorem mem_held_vacate {l : StoreLink} {i : Nat} {op x : Op} (h : l.Runs i op) (hx : x ≠ op) :
    x ∈ (l.vacate i).held ↔ x ∈ l.held := by
  rw [mem_held_iff_running, mem_held_iff_running]
  refine or_congr_left (exists_congr fun k => ?_)
  rw [running?_vacate]
  by_cases hk : i = k
  · subst hk
    rw [if_pos rfl, show (l.running? i).map Running.op = some op from h]
    simp [Ne.symm hx]
  · rw [if_neg hk]

theorem mem_of_nextWaiting {w rest : List Op} {y : Op} (h : nextWaiting w = some (y, rest)) (x : Op) :
    x ∈ w ↔ x = y ∨ x ∈ rest := by
  rcases nextWaiting_cases h with ⟨-, a, b, rfl, rfl, -⟩ | ⟨-, rfl, -⟩
  · simp only [List.mem_append, List.mem_cons]
    tauto
  · exact List.mem_cons

/-- An empty slot that passes on takes an operation that waited: the link holds what it held. -/
theorem mem_held_passOn {l : StoreLink} {i : Nat} (hlen : i < l.slots.length) (hempty : l.running? i = none) (x : Op) :
    x ∈ (l.passOn i).held ↔ x ∈ l.held := by
  unfold passOn
  split
  · next y rest hw =>
    rw [mem_held_iff_running, mem_held_iff_running, mem_of_nextWaiting hw x, ← or_assoc]
    refine or_congr_left ⟨fun ⟨k, hk⟩ => ?_, fun hx => ?_⟩
    · rw [running?_occupy (l := { l with waiting := rest }) hlen] at hk
      split at hk
      · exact .inr (Option.some.inj hk).symm
      · exact .inl ⟨k, hk⟩
    · simp only [running?_occupy (l := { l with waiting := rest }) hlen]
      rcases hx with ⟨k, hk⟩ | rfl
      · have hne : i ≠ k := by
          rintro rfl
          rw [hempty] at hk
          cases hk
        exact ⟨k, by rw [if_neg hne]; exact hk⟩
      · exact ⟨i, by rw [if_pos rfl]; rfl⟩
  · rfl

/-- A slot whose operation completes loses it and passes on: the link holds the others as before. -/
theorem mem_held_served {l : StoreLink} {i : Nat} {op x : Op} (h : l.Runs i op) (hx : x ≠ op) :
    x ∈ (l.served i op).held ↔ x ∈ l.held := by
  obtain ⟨r, hr, -⟩ := Option.map_eq_some_iff.1 h
  obtain ⟨sl, hsl, -⟩ := Option.bind_eq_some_iff.1 hr
  have hlen : i < (l.vacate i).slots.length := by simpa [vacate] using (List.getElem?_eq_some_iff.1 hsl).1
  refine (mem_held_passOn (l := { l.vacate i with
    failures := 0, discards := if op.isDiscard then l.discards - 1 else l.discards }) hlen ?_ x).trans (mem_held_vacate h hx)
  exact (running?_vacate l i i).trans (if_pos rfl)

/-- A completed operation that is no CLOSE MARK leaves the CLOSE MARKs in flight. -/
theorem marking_served {l : StoreLink} {i : Nat} {op : Op} (h : l.Runs i op) (hop : op.isCloseMark = false) (slot : Nat) :
    (l.served i op).marking slot = l.marking slot := by
  rw [Bool.eq_iff_iff, marking_iff, marking_iff]
  refine exists_congr fun m => mem_held_served h ?_
  rintro rfl
  cases hop

end StoreLink

/-! ### The sealed edition's pages and references (R10, R89) -/

namespace Catalogue

/-- The references of a photograph that the pages of an edition hold: one for each page that places it (R10). -/
def refsFrom (c : Catalogue) (slot : Nat) (q : Photo) : Nat :=
  c.pages.countP fun p => p.slot == slot && p.placements.any fun pl => pl.photo == q.number

theorem freeEdition_eq (c : Catalogue) (slot : Nat) : c.freeEdition slot = { c with
    editions := c.editions.set slot none
    pages := c.pages.filter fun p => p.slot != slot
    photos := c.photos.map fun q => { q with refs := q.refs - c.refsFrom slot q } } := by
  have hcount (q : Photo) : ((c.pagesOf slot).map fun p => if p.placements.any (fun pl => pl.photo == q.number) then 1 else 0).sum =
      c.refsFrom slot q := by
    unfold refsFrom pagesOf
    induction c.pages with
    | nil => rfl
    | cons p l ih =>
      rw [List.filter_cons, List.countP_cons, ← ih]
      by_cases hp : (p.slot == slot) = true
      · simp [hp, Nat.add_comm]
      · simp [hp]
  simp only [freeEdition, foldl_dropRefs, putEdition, hcount]

theorem edition?_freeEdition {c : Catalogue} {slot : Nat} {e : Edition} (he : c.edition? slot = some e) (x : Nat) :
    (c.freeEdition slot).edition? x = if slot = x then none else c.edition? x := by
  have hlt : slot < c.editions.length := (List.getElem?_eq_some_iff.1 (Option.join_eq_some_iff.1 he)).1
  rw [freeEdition_eq]
  exact edition?_putEdition hlt x none

end Catalogue

namespace State

/-! ### The heads are tested (R87) -/

theorem handOff_online {s : State} {op : Op} (h : s.link.state = .online) (hd : op.isDiscard = false) :
    s.handOff op = { s with link := s.link.accept op } := by simp [handOff, h, hd]

/-- What the test of the heads in the slots given leaves as it was. -/
structure HeadsTested (l : List Nat) (s t : State) : Prop where
  agenda : t.agenda = s.agenda
  req : t.req = s.req
  pages : t.cat.pages = s.cat.pages
  photos : t.cat.photos = s.cat.photos
  lastSeal : t.vol.lastSeal = s.vol.lastSeal
  others : ∀ x, x ∉ l → t.cat.edition? x = s.cat.edition? x

theorem HeadsTested.refl (l : List Nat) (s : State) : HeadsTested l s s := ⟨rfl, rfl, rfl, rfl, rfl, fun _ _ => rfl⟩

theorem headsTested_withEdition {slot : Nat} (rest : List Nat) {s t : State} {f : Edition → Edition}
    (hc : t.cat = s.cat.withEdition slot f) (ha : t.agenda = s.agenda) (hr : t.req = s.req)
    (hv : t.vol.lastSeal = s.vol.lastSeal) : HeadsTested (slot :: rest) s t where
  agenda := ha
  req := hr
  pages := by rw [hc]; rfl
  photos := by rw [hc]; rfl
  lastSeal := hv
  others x hx := by
    rw [hc, Catalogue.edition?_withEdition, if_neg]
    rintro rfl
    exact hx List.mem_cons_self

/-- Over an ONLINE link the test changes editions that stand in the queue, the queue and the link. -/
theorem headsTested_sealTest : ∀ (l : List Nat) {s : State}, s.link.state = .online → HeadsTested l s (sealTest l s)
  | [], s, _ => .refl _ s
  | slot :: rest, s, ho => by
    cases he : s.cat.edition? slot with
    | none => simpa [sealTest, he] using .refl _ s
    | some e =>
      simp only [sealTest, he]
      split_ifs
      · exact .refl _ s
      · have hleft := headsTested_withEdition (t := withCat { s with vol := { s.vol with sealQueue := rest } } fun c =>
          c.withEdition slot fun e => { e with due := true }) rest rfl rfl rfl rfl
        have hrest := headsTested_sealTest rest (s := withCat { s with vol := { s.vol with sealQueue := rest } } fun c =>
          c.withEdition slot fun e => { e with due := true }) ho
        exact ⟨hrest.agenda.trans hleft.agenda, hrest.req.trans hleft.req, hrest.pages.trans hleft.pages,
          hrest.photos.trans hleft.photos, hrest.lastSeal.trans hleft.lastSeal,
          fun x hx => (hrest.others x fun h => hx (List.mem_cons_of_mem _ h)).trans (hleft.others x hx)⟩
      · rw [handOff_online (s := s.withCat _) ho rfl]
        exact headsTested_withEdition rest rfl rfl rfl rfl

/-- What becomes of the head that follows an ended seal (R87): its seal starts, it waits for its close mark, or, pinned, it leaves the
queue with its due flag. -/
abbrev NextHead (s : State) (rest : List Nat) (t : State) : Prop := (rest = [] → t.vol.sealQueue = []) ∧
  ∀ next more f, rest = next :: more → s.cat.edition? next = some f → f.state = .closed →
    (s.link.marking next = true → t.vol.sealQueue = rest ∧ t.cat.edition? next = some f) ∧
    (s.link.marking next = false → f.pins = 0 → t.vol.sealQueue = rest ∧
      t.cat.edition? next = some { f with state := .sealing } ∧ ∃ x, .sealVolume next x ∈ t.link.held) ∧
    (s.link.marking next = false → 0 < f.pins → more = [] → t.vol.sealQueue = [] ∧
      t.cat.edition? next = some { f with due := true })

theorem nextHead_sealTest {s w : State} {rest : List Nat} (hq : w.vol.sealQueue = rest) (hmode : w.req.mode.seals = true)
    (ho : w.link.state = .online) (hmark : ∀ x, w.link.marking x = s.link.marking x)
    (hed : ∀ x ∈ rest, w.cat.edition? x = s.cat.edition? x) : s.NextHead rest (sealTest rest w).close := by
  rw [NextHead, close_vol, close_cat, close_link]
  refine ⟨?_, ?_⟩
  · rintro rfl
    exact hq
  · rintro next more f rfl hf hclosed
    have hf : w.cat.edition? next = some f := (hed next (by simp)).trans hf
    have hstate : f.state ≠ .sealing := by rw [hclosed]; nofun
    rw [← hmark]
    refine ⟨fun hm => ?_, fun hm hp => ?_, fun hm hp hmore => ?_⟩
    · rw [sealTest_marking more hf hm]
      exact ⟨hq, hf⟩
    · rw [sealTest_begins more hf hstate hp hmode hm, handOff_online (s := w.withCat _) ho rfl]
      refine ⟨hq, ?_, _, (StoreLink.held_accept rfl).1⟩
      simp [Catalogue.edition?_withEdition, hf]
    · subst hmore
      rw [sealTest_pinned [] hf hstate hp hmode hm]
      exact ⟨rfl, by simp [sealTest, Catalogue.edition?_withEdition, hf]⟩

/-- The test of the head that ends a change. -/
theorem settle_push_sealTest {w : State} (ha : w.agenda = []) (ho : w.link.state = .online) :
    settle 65535 (w.push .sealTest) = sealTest w.vol.sealQueue w := by
  rw [settle_of_cons (x := .sealTest) (rest := []) 65534 (by simp [ha]),
    show ({ w.push .sealTest with agenda := [] } : State) = w from agenda_of_nil ha, runTask,
    settle_of_nil _ _ ((headsTested_sealTest _ ho).agenda.trans ha)]

end State

end Sys2Proof.Machine
end

section
/-! What an order does that has its target, or asks for its recall: the steps that a seal's end and a fetch's end bring (R134 to R137). -/

namespace Sys2Proof.Machine

namespace State

/-- A live order changed in place. -/
theorem order?_withOrder_self {s : State} {n : Nat} {o : Order} {f : Order → Order} (ho : s.order? n = some o)
    (hf : ∀ o, (f o).number = o.number) : (s.withOrder n f).order? n = some (f o) := by
  rw [order?_withOrder hf, ho, Option.map_some, if_pos (beq_iff_eq.2 (order?_number ho))]

/-! ### An order with its target goes on to pricing (R137) -/

/-- An order whose target has a view has a target to restore, but for a page order of a resident page that pins no edition. -/
theorem orderTarget?_of_view {s : State} {o : Order} {v : View} (hv : s.orderView o = some v)
    (hpin : o.volume = 0 → o.photo = none → o.pinEdition.isSome = true) : ∃ t, s.orderTarget? o = some t := by
  rw [← Option.isSome_iff_exists]
  unfold orderTarget?
  by_cases hvol : o.volume = 0
  · rw [if_pos hvol]
    cases hp : o.photo with
    | some n => rfl
    | none => simpa using hpin hvol hp
  · rw [orderView, if_neg hvol] at hv
    obtain ⟨c, hc, -⟩ := Option.map_eq_some_iff.1 hv
    obtain ⟨i, hi, hcopy⟩ := Option.bind_eq_some_iff.1 hc
    obtain ⟨r, hr, -⟩ := Option.bind_eq_some_iff.1 hcopy
    rw [if_neg hvol, hi, Option.bind_some, hr]
    rfl

/-- An order that asks for no restoration is priced. -/
theorem restoreStep_unflagged {s : State} {n : Nat} {o : Order} {v : View} (ho : s.order? n = some o) (hf : o.restore = false)
    (hv : s.orderView o = some v) (hpin : o.volume = 0 → o.photo = none → o.pinEdition.isSome = true) :
    s.restoreStep n = s.priceOrder n false := by
  obtain ⟨t, ht⟩ := orderTarget?_of_view hv hpin
  simp [restoreStep, ho, hv, ht, hf]

/-- Pricing opens no consequence, and leaves the store link, the volume unit, the engine and the pool. -/
theorem priced_blocks {s : State} {o : Order} {v : View} {a : Account} : (s.priced o v a).agenda = s.agenda ∧
    (s.priced o v a).link = s.link ∧ (s.priced o v a).vol = s.vol ∧ (s.priced o v a).eng = s.eng ∧
    (s.priced o v a).pool = s.pool := by
  unfold priced sold
  split_ifs <;> exact ⟨rfl, rfl, rfl, rfl, rfl⟩

/-- An order located at a CLOSED edition's page pins the edition; without the restore flag, and let pass by its hold check, it is
priced (R134). -/
theorem settleResident_priced {s : State} {n slot : Nat} {o : Order} {v : View} {a : Account} {masked : List Nat}
    (ho : s.order? n = some o) (hp : o.photo = none) (hf : o.restore = false) :
    let located : Order := { o with pinEdition := some slot, pinPhoto := o.photo }
    let back := (s.pinEdition slot).withOrder n fun o => { o with pinEdition := some slot, pinPhoto := o.photo }
    back.orderView located = some v → s.fee.account? o.account = some a → back.holdCheck located v = .passed masked →
      s.settleResident n slot = back.priced located v a := by
  intro located back hv ha hc
  have hback : back.order? n = some located := order?_withOrder_self (s := s.pinEdition slot) ho fun _ => rfl
  have hprice : back.priceOrder n false = back.priced located v a := priceOrder_passed hback hv ha hc
  have hstep : back.restoreStep n = back.priceOrder n false := restoreStep_unflagged hback hf hv fun _ _ => rfl
  simp only [settleResident, ho, hp]
  exact hstep.trans hprice

/-! ### An order asks for its recall (R93, R136) -/

/-- With an empty recall wait queue, a key that no slot holds is fetched into the lowest FREE slot. -/
theorem requestRecall_fetches {s : State} {w : RecallWaiter} {i : Nat} (hr : s.vol.recallWait = [])
    (hh : s.vol.holding w.volume w.key = none) (hi : s.vol.table.findIdx? Option.isNone = some i) :
    s.requestRecall w = s.fetch i w := by
  simp [requestRecall, tryServe, hr, hh, hi]

theorem fetch_online {s : State} (h : s.link.state = .online) (i : Nat) (w : RecallWaiter) : s.fetch i w = { s with
    vol := { s.vol with table := s.vol.table.set i (some ⟨w.volume, w.key, [w.requester], none⟩) }
    link := s.link.accept (.readEntry i w.volume w.key) } :=
  handOff_online (s := { s with vol := _ }) h rfl

/-- The key of an order's recall, with its version resolved where it is a page's (R136). -/
theorem recallKey_eq {o : Order} {key : EntryKey}
    (hpage : o.photo = none → ∃ r, o.resolved = some r ∧ key = .page o.key o.page r)
    (hphoto : ∀ p, o.photo = some p → key = .photo p) : o.recallKey = key := by
  unfold Order.recallKey
  cases hp : o.photo with
  | some p => exact (hphoto p hp).symm
  | none =>
    obtain ⟨r, hr, rfl⟩ := hpage hp
    simp [hr]

/-- A waiter of a successful seal has taken the volume number, and its entry is fetched into slot i (R89, R135). -/
def recallAsked (s : State) (n i : Nat) (v : U32) (key : EntryKey) : State :=
  { (s.withOrder n fun o => { o with volume := v }).withOrder n fun o => { o with state := .recalling } with
    vol := { s.vol with table := s.vol.table.set i (some ⟨v, key, [.order n], none⟩) }
    link := s.link.accept (.readEntry i v key) }

theorem order?_recallAsked {s : State} {n : Nat} {o : Order} (ho : s.order? n = some o) (i : Nat) (v : U32) (key : EntryKey) :
    (s.recallAsked n i v key).order? n = some { o with volume := v, state := .recalling } :=
  order?_withOrder_self (s := s.withOrder n fun o => { o with volume := v }) (order?_withOrder_self ho fun _ => rfl) fun _ => rfl

theorem waiterSealed_fetches {s : State} {n i : Nat} {o : Order} {v : U32} (ho : s.order? n = some o)
    (hl : s.link.state = .online) (hr : s.vol.recallWait = []) (hh : s.vol.holding v o.recallKey = none)
    (hi : s.vol.table.findIdx? Option.isNone = some i) : waiterSealed v s n = s.recallAsked n i v o.recallKey := by
  let named : State := s.withOrder n fun o => { o with volume := v }
  let asked : State := named.withOrder n fun o => { o with state := .recalling }
  have hnamed : named.order? n = some { o with volume := v } := order?_withOrder_self ho fun _ => rfl
  have hfetch := requestRecall_fetches (s := asked) (w := ⟨.order n, v, o.recallKey⟩) hr hh hi
  have hask : named.askRecall n = asked.requestRecall ⟨.order n, v, o.recallKey⟩ := by
    rw [askRecall, hnamed]
    rfl
  exact (hask.trans hfetch).trans (fetch_online (s := asked) hl _ _)

end State

end Sys2Proof.Machine
end

section
/-! SEAL VOLUME's completion: a seal that has its volume, one that failed, and the order that waited on it (O41). -/

namespace Sys2Proof.Machine

namespace State

/-! ### The record of an ended seal (R89, R90) -/

/-- The seal has its volume: the edition has left the catalogue and the queue (R89). -/
def sealedAway (s : State) (slot : Nat) (rest : List Nat) (key : EditionKey) (v : U32) : State :=
  latch { s with
    cat := s.cat.freeEdition slot
    vol := { s.vol with sealQueue := rest, lastSeal := some ⟨key, .ok, v⟩, waiters := [] } } .sealDone

/-- The seal has failed: the edition is CLOSED again, and has left the queue (R90). -/
def sealReturned (s : State) (slot : Nat) (rest : List Nat) (key : EditionKey) (c : Code) : State :=
  latch { s with
    cat := s.cat.withEdition slot fun e => { e with state := .closed }
    vol := { s.vol with sealQueue := rest, lastSeal := some ⟨key, c, 0⟩, waiters := [] } } .sealFailed

theorem recordSeal_head {s : State} {slot : Nat} {rest : List Nat} (hq : s.vol.sealQueue = slot :: rest) (hn : slot ∉ rest)
    (r : SealResult) : s.recordSeal slot r =
      { s with vol := { s.vol with sealQueue := rest, lastSeal := some r, waiters := [] } } := by
  have hleft : (slot :: rest).filter (fun x => x != slot) = rest := by
    rw [List.filter_cons_of_neg (by simp), List.filter_eq_self]
    exact fun x hx => by simpa using ne_of_mem_of_not_mem hx hn
  rw [recordSeal, hq, hleft]

section Ends

variable {s : State} {slot : Nat} {rest : List Nat} {e : Edition} (he : s.cat.edition? slot = some e) (hs : e.state = .sealing)
  (hq : s.vol.sealQueue = slot :: rest) (hn : slot ∉ rest)
include he hs hq hn

theorem sealDone_eq (v : U32) : s.sealDone slot v =
    push (s.vol.waiters.foldl (waiterSealed v) (s.sealedAway slot rest e.key v)) .sealTest := by
  have hsealing : s.cat.sealing? slot = some e := by simp [Catalogue.sealing?, he, hs]
  have hrecord := recordSeal_head (s := s.withCat fun c => c.freeEdition slot) hq hn ⟨e.key, .ok, v⟩
  simp only [sealDone, hsealing, hrecord]
  rfl

theorem sealFailed_eq (c : Code) : s.sealFailed slot c =
    push (s.vol.waiters.foldl (fun t n => t.settleResident n slot) (s.sealReturned slot rest e.key c)) .sealTest := by
  have hsealing : s.cat.sealing? slot = some e := by simp [Catalogue.sealing?, he, hs]
  have hrecord := recordSeal_head (s := s.withCat fun c => c.withEdition slot fun e => { e with state := .closed })
    hq hn ⟨e.key, c, 0⟩
  simp only [sealFailed, hsealing, hrecord]
  rfl

end Ends

/-! ### SEAL VOLUME completes (R87 to R90) -/

section Exec

variable {s : State} {at_ : SlotTag} {slot : Nat} {content : SealContent} {e : Edition} {rest : List Nat} (h : s.Working)
  (hon : s.link.state = .online) (hans : s.link.answered? at_ Op.isSeal = some (.sealVolume slot content))
  (he : s.cat.edition? slot = some e) (hs : e.state = .sealing) (hq : s.vol.sealQueue = slot :: rest) (hn : slot ∉ rest)

/-- The link once SEAL VOLUME has completed. -/
abbrev sealServed (s : State) (at_ : SlotTag) (slot : Nat) (content : SealContent) : State :=
  { s with link := s.link.served at_.slot.toNat (.sealVolume slot content) }

theorem sealServed_online (hon : s.link.state = .online) : (s.sealServed at_ slot content).link.state = .online :=
  (StoreLink.served_state _ _ _).trans hon

include h hans hn in
/-- With no order waiting, what the next head becomes in the state w that the end of the seal leaves. -/
theorem nextHead_sealServed (hon : s.link.state = .online) {w : State} (hwq : w.vol.sealQueue = rest) (hreq : w.req.mode = s.req.mode)
    (hlink : w.link = (s.sealServed at_ slot content).link)
    (hed : ∀ x, x ≠ slot → w.cat.edition? x = s.cat.edition? x) : s.NextHead rest (sealTest rest w).close := by
  refine nextHead_sealTest hwq (by rw [hreq, h.2.2.1]; rfl) (by rw [hlink]; exact sealServed_online hon) ?_ ?_
  · rw [hlink]
    exact StoreLink.marking_served (StoreLink.runs_of_answered? hans) rfl
  · exact fun x hx => hed x (ne_of_mem_of_not_mem hx hn)

include h hans he hs hq hn

/-- The seal's success, worked through to the test of the next head. -/
theorem exec_sealDone {v : U32} (w : State)
    (hw : s.vol.waiters.foldl (waiterSealed v) ((s.sealServed at_ slot content).sealedAway slot rest e.key v) = w)
    (hwq : w.vol.sealQueue = rest) (ha : w.agenda = []) (hl : w.link.state = .online) :
    exec (.sealVolumeCompletion at_ (.done v)) s = .next (sealTest rest w).close := by
  refine storeAnswer_settles h hans (completeSlot_served ..) ?_
  refine (congrArg (settle 65535) (sealDone_eq (s := s.sealServed at_ slot content) he hs hq hn v)).trans ?_
  rw [hw, settle_push_sealTest ha hl, hwq]

/-- The seal's failure, worked through to the test of the next head. -/
theorem exec_sealFailed (w : State)
    (hw : s.vol.waiters.foldl (fun t n => t.settleResident n slot)
      ((s.sealServed at_ slot content).sealReturned slot rest e.key .storeFault) = w)
    (hwq : w.vol.sealQueue = rest) (ha : w.agenda = []) (hl : w.link.state = .online) :
    exec (.sealVolumeCompletion at_ .full) s = .next (sealTest rest w).close := by
  refine storeAnswer_settles h hans (completeSlot_served ..) ?_
  refine (congrArg (settle 65535) (sealFailed_eq (s := s.sealServed at_ slot content) he hs hq hn .storeFault)).trans ?_
  rw [hw, settle_push_sealTest ha hl, hwq]

include hon

theorem exec_sealDone_unwaited (hwait : s.vol.waiters = []) (v : U32) :
    ∃ t, exec (.sealVolumeCompletion at_ (.done v)) s = .next t ∧ t.cat.edition? slot = none ∧
      t.cat.pages = s.cat.pages.filter (fun p => p.slot != slot) ∧
      t.cat.photos = s.cat.photos.map (fun q => { q with refs := q.refs - s.cat.refsFrom slot q }) ∧
      (∀ other, other ≠ slot → other ∉ rest → t.cat.edition? other = s.cat.edition? other) ∧
      t.vol.lastSeal = some ⟨e.key, .ok, v⟩ ∧ Raised s t .sealDone ∧ s.NextHead rest t := by
  have honline := sealServed_online (at_ := at_) (slot := slot) (content := content) hon
  have hexec := exec_sealDone h hans he hs hq hn (v := v)
    ((s.sealServed at_ slot content).sealedAway slot rest e.key v) (by rw [hwait]; rfl) rfl h.2.1 honline
  have htested := headsTested_sealTest rest (s := (s.sealServed at_ slot content).sealedAway slot rest e.key v) honline
  have hfree := Catalogue.edition?_freeEdition he
  refine ⟨_, hexec, ?_, ?_, ?_, fun other hne hrest => ?_, ?_, ?_, ?_⟩
  · rw [close_cat]
    exact (htested.others slot hn).trans ((hfree slot).trans (if_pos rfl))
  · rw [close_cat]
    exact htested.pages.trans (congrArg Catalogue.pages (s.cat.freeEdition_eq slot))
  · rw [close_cat]
    exact htested.photos.trans (congrArg Catalogue.photos (s.cat.freeEdition_eq slot))
  · rw [close_cat]
    exact (htested.others other hrest).trans ((hfree other).trans (if_neg hne.symm))
  · rw [close_vol]
    exact htested.lastSeal
  · exact raised_close (by rw [htested.req]; rfl) (by rw [htested.req]; exact latch_bit _ _)
  · exact nextHead_sealServed h hans hn hon (w := (s.sealServed at_ slot content).sealedAway slot rest e.key v) rfl rfl rfl
      fun x hx => (hfree x).trans (if_neg hx.symm)

theorem exec_sealFailed_unwaited (hwait : s.vol.waiters = []) :
    ∃ t, exec (.sealVolumeCompletion at_ .full) s = .next t ∧ t.cat.edition? slot = some { e with state := .closed } ∧
      t.cat.pages = s.cat.pages ∧ t.cat.photos = s.cat.photos ∧ t.vol.lastSeal = some ⟨e.key, .storeFault, 0⟩ ∧
      Raised s t .sealFailed ∧ s.NextHead rest t := by
  have honline := sealServed_online (at_ := at_) (slot := slot) (content := content) hon
  have hexec := exec_sealFailed h hans he hs hq hn
    ((s.sealServed at_ slot content).sealReturned slot rest e.key .storeFault) (by rw [hwait]; rfl) rfl h.2.1 honline
  have htested := headsTested_sealTest rest (s := (s.sealServed at_ slot content).sealReturned slot rest e.key .storeFault) honline
  have hback := s.cat.edition?_withEdition slot (f := fun e => { e with state := .closed })
  refine ⟨_, hexec, ?_, ?_, ?_, ?_, ?_, ?_⟩
  · rw [close_cat]
    exact (htested.others slot hn).trans ((hback slot).trans (by rw [if_pos rfl, he, Option.map_some]))
  · rw [close_cat]
    exact htested.pages
  · rw [close_cat]
    exact htested.photos
  · rw [close_vol]
    exact htested.lastSeal
  · exact raised_close (by rw [htested.req]; rfl) (by rw [htested.req]; exact latch_bit _ _)
  · exact nextHead_sealServed h hans hn hon (w := (s.sealServed at_ slot content).sealReturned slot rest e.key .storeFault)
      rfl rfl rfl fun x hx => (hback x).trans (if_neg hx.symm)

end Exec

/-! ### The only edition in the queue (R87, R90, R135) -/

section Alone

variable {s : State} {at_ : SlotTag} {slot : Nat} {content : SealContent} {e : Edition} (h : s.Working)
  (hon : s.link.state = .online) (hans : s.link.answered? at_ Op.isSeal = some (.sealVolume slot content))
  (he : s.cat.edition? slot = some e) (hs : e.state = .sealing) (hq : s.vol.sealQueue = [slot])
include h hon hans he hs hq

/-- Nothing but the failure's record changes. -/
theorem exec_sealFailed_alone (hwait : s.vol.waiters = []) : exec (.sealVolumeCompletion at_ .full) s =
    .next (close (latch { s with
      cat := s.cat.withEdition slot fun e => { e with state := .closed }
      vol := { s.vol with sealQueue := [], lastSeal := some ⟨e.key, .storeFault, 0⟩ }
      link := s.link.served at_.slot.toNat (.sealVolume slot content) } .sealFailed)) := by
  rw [exec_sealFailed h hans he hs hq List.not_mem_nil ((s.sealServed at_ slot content).sealReturned slot [] e.key .storeFault)
    (by rw [hwait]; rfl) rfl h.2.1 (sealServed_online hon)]
  simp only [sealReturned, hwait]
  rfl

variable {n : Nat} {o : Order} (hwait : s.vol.waiters = [n]) (ho : s.order? n = some o)
include hwait ho

/-- The order that waited asks for its recall under the new volume. -/
theorem exec_sealDone_waited {v : U32} {i : Nat} (hr : s.vol.recallWait = []) (hh : s.vol.holding v o.recallKey = none)
    (hi : s.vol.table.findIdx? Option.isNone = some i) :
    ∃ t, exec (.sealVolumeCompletion at_ (.done v)) s = .next t ∧ t.vol.waiters = [] ∧
      t.order? n = some { o with volume := v, state := .recalling } ∧
      t.vol.slot? i = some ⟨v, o.recallKey, [.order n], none⟩ ∧ .readEntry i v o.recallKey ∈ t.link.held := by
  have honline := sealServed_online (at_ := at_) (slot := slot) (content := content) hon
  let away := (s.sealServed at_ slot content).sealedAway slot [] e.key v
  have hasked : waiterSealed v away n = away.recallAsked n i v o.recallKey := waiterSealed_fetches ho honline hr hh hi
  have hexec := exec_sealDone h hans he hs hq List.not_mem_nil (away.recallAsked n i v o.recallKey)
    (by rw [hwait]; exact hasked) rfl h.2.1 ((StoreLink.accept_state _).trans honline)
  refine ⟨_, hexec, by rw [close_vol]; rfl, ?_, ?_, ?_⟩
  · rw [order?, close_live]
    exact order?_recallAsked (s := away) ho i v o.recallKey
  · rw [close_vol]
    show (s.vol.table.set i _)[i]?.join = _
    rw [List.getElem?_set_self (List.findIdx?_eq_some_iff_getElem.1 hi).1]
    rfl
  · rw [close_link]
    exact (StoreLink.held_accept (op := .readEntry i v o.recallKey) rfl).1

/-- The order that waited pins the edition again and is priced. -/
theorem exec_sealFailed_waited {v : View} {a : Account} {masked : List Nat} (hp : o.photo = none) (hf : o.restore = false) :
    let located : Order := { o with pinEdition := some slot, pinPhoto := o.photo }
    let back := withOrder (latch { s with
      cat := s.cat.withEdition slot fun e => { e with state := .closed, pins := e.pins + 1 }
      vol := { s.vol with sealQueue := [], lastSeal := some ⟨e.key, .storeFault, 0⟩, waiters := [] }
      link := s.link.served at_.slot.toNat (.sealVolume slot content) } .sealFailed) n fun o =>
        { o with pinEdition := some slot, pinPhoto := o.photo }
    back.orderView located = some v → s.fee.account? o.account = some a → back.holdCheck located v = .passed masked →
      exec (.sealVolumeCompletion at_ .full) s = .next (back.priced located v a).close := by
  intro located back hv ha hc
  have honline := sealServed_online (at_ := at_) (slot := slot) (content := content) hon
  have hback : (pinEdition ((s.sealServed at_ slot content).sealReturned slot [] e.key .storeFault) slot).withOrder n
      (fun o => { o with pinEdition := some slot, pinPhoto := o.photo }) = back := by
    simp only [pinEdition, sealReturned, withCat, latch, Catalogue.withEdition_withEdition]
    rfl
  have hpriced := settleResident_priced (s := (s.sealServed at_ slot content).sealReturned slot [] e.key .storeFault)
    (n := n) (slot := slot) (v := v) (a := a) (masked := masked) ho hp hf
  simp only [hback] at hpriced
  have hpriced := hpriced hv ha hc
  obtain ⟨hagenda, hlink, hvol, -⟩ := priced_blocks (s := back) (o := located) (v := v) (a := a)
  have hexec := exec_sealFailed h hans he hs hq List.not_mem_nil (back.priced located v a) (by rw [hwait]; exact hpriced)
    (congrArg VolumeUnit.sealQueue hvol) (hagenda.trans h.2.1) (by rw [hlink]; exact sealServed_online hon)
  exact hexec

end Alone

end State

/-- Settles O41. -/
theorem sealEndsWithAVolumeOrAFailure : Obligations.SealEndsWithAVolumeOrAFailure := by
  unfold Obligations.SealEndsWithAVolumeOrAFailure
  intro s at_ slot content e rest h hon hans he hs hq hn
  refine ⟨fun hwait => ⟨State.exec_sealDone_unwaited h hon hans he hs hq hn hwait,
    State.exec_sealFailed_unwaited h hon hans he hs hq hn hwait, ?_⟩, ?_⟩
  · rintro rfl
    exact State.exec_sealFailed_alone h hon hans he hs hq hwait
  · rintro n o hwait rfl ho
    refine ⟨fun v i key hr hh hi hpage hphoto => ?_, fun v a masked => ?_⟩
    · obtain rfl : o.recallKey = key := State.recallKey_eq hpage hphoto
      exact State.exec_sealDone_waited h hon hans he hs hq hwait ho hr hh hi
    · exact fun hp hf => State.exec_sealFailed_waited h hon hans he hs hq hwait ho hp hf

end Sys2Proof.Machine
end

section
/-! Orders that are handed their recall slot, one behind the other (O42). -/

namespace Sys2Proof.Machine

namespace State

/-! ### Consequences with nothing to do -/

/-- Consequences that find nothing to do, a re-examination of no claim and the serving of an empty recall wait queue, are passed over. -/
theorem settle_idle {s : State} {l : List Task} (rest : List Task) (hl : ∀ x ∈ l, x = .regrant ∨ x = .serveRecall)
    (hc : .regrant ∈ l → s.pool.claims = []) (hr : .serveRecall ∈ l → s.vol.recallWait = []) (n : Nat) :
    settle (l.length + n) { s with agenda := l ++ rest } = settle n { s with agenda := rest } := by
  refine settle_inert rest l n fun x hx a => ?_
  rcases hl x hx with rfl | rfl
  · simp [runTask, hc hx, regrant]
  · simp [runTask, hr hx, serveRecall]

/-- The serving of an empty recall wait queue ends a change. -/
theorem settle_serveRecall {s : State} (ha : s.agenda = []) (hr : s.vol.recallWait = []) (n : Nat) :
    settle (n + 1) (s.push .serveRecall) = s := by
  have hidle := settle_idle (s := s) (l := [.serveRecall]) [] (by simp) (by simp) (fun _ => hr) n
  rw [agenda_of_nil ha, settle_of_nil _ s ha, List.length_singleton, Nat.add_comm] at hidle
  rw [push, ha]
  exact hidle

theorem foldl_push {α : Type} (f : α → Task) : ∀ (l : List α) (s : State),
    l.foldl (fun t x => t.push (f x)) s = { s with agenda := s.agenda ++ l.map f }
  | [], s => by simp
  | x :: l, s => by
    rw [List.foldl_cons, foldl_push f l]
    simp [push]

/-! ### What pricing leaves of an order (R152 to R157) -/

/-- The order has gone through pricing: it is held or charged, a charge has its entry, and no other order has changed. -/
structure OrderPriced (s t : State) (n : Nat) (o : Order) : Prop where
  agenda : t.agenda = s.agenda
  vol : t.vol = s.vol
  accounts : ∀ k, (t.fee.account? k).isSome = (s.fee.account? k).isSome
  others : ∀ m, m ≠ n → t.order? m = s.order? m
  order : ∃ o', t.order? n = some o' ∧ o' = { o with state := o'.state, masked := o'.masked, charged := o'.charged } ∧
    (o'.state = .heldRights ∨ o'.state = .heldStatement ∨ o'.state = .heldFunds ∨ o'.state = .charged)
  entries : (t.order? n).map Order.state = some .charged →
    t.stmt.current.entries.map Entry.order = s.stmt.current.entries.map Entry.order ++ [n]

theorem account?_withAccount_isSome (s : State) (n k : Nat) {f : Account → Account} (hf : ∀ a, (f a).number = a.number) :
    ((s.withAccount n f).fee.account? k).isSome = (s.fee.account? k).isSome := by
  have hnumber : ((fun a => a.number == k) ∘ fun a => if a.number == n then f a else a) = fun a => a.number == k := by
    funext a
    simp only [Function.comp]
    split <;> simp [hf]
  simp only [withAccount, FeeUnit.account?, List.find?_map, hnumber, Option.isSome_map]

section Priced

variable {s : State} {n : Nat} {o : Order} {v : View} {a : Account} (ho : s.order? n = some o)
include ho

/-- An order put in a held state; other blocks may change that its pricing does not look at. -/
theorem orderPriced_held {t : State} {st : OrdState} (hst : st = .heldRights ∨ st = .heldStatement ∨ st = .heldFunds)
    (ha : t.agenda = s.agenda) (hv : t.vol = s.vol) (hacc : ∀ k, (t.fee.account? k).isSome = (s.fee.account? k).isSome)
    (hord : t.ord = (s.withOrder n fun o => { o with state := st }).ord) : OrderPriced s t n o := by
  have horder (m : Nat) : t.order? m = (s.withOrder n fun o => { o with state := st }).order? m := by rw [order?, hord]; rfl
  have hself : t.order? n = some { o with state := st } := (horder n).trans (order?_withOrder_self ho fun _ => rfl)
  refine ⟨ha, hv, hacc, fun m hm => (horder m).trans (order?_withOrder_ne (fun _ => rfl) hm), ⟨_, hself, rfl, ?_⟩, fun hc => ?_⟩
  · rcases hst with rfl | rfl | rfl <;> simp
  · rw [hself] at hc
    rcases hst with rfl | rfl | rfl <;> cases hc

theorem orderPriced_sold : OrderPriced s (s.sold o v a) n o := by
  obtain rfl : o.number = n := order?_number ho
  let paid : State := s.withAccount o.account fun x => { x with balance := x.balance - (s.priceOf o v a).total }
  let charge (x : Order) : Order :=
    { x with state := .charged, masked := (s.maskOf v).length, charged := (s.priceOf o v a).total }
  have hblocks : (s.sold o v a).agenda = s.agenda ∧ (s.sold o v a).vol = s.vol ∧ (s.sold o v a).fee = paid.fee ∧
      (s.sold o v a).ord = (paid.withOrder o.number charge).ord ∧
      (s.sold o v a).stmt.current.entries.map Entry.order = s.stmt.current.entries.map Entry.order ++ [o.number] := by
    unfold sold
    split_ifs <;> exact ⟨rfl, rfl, rfl, rfl, List.map_append⟩
  obtain ⟨hagenda, hvol, hfee, hord, hentries⟩ := hblocks
  have horder (m : Nat) : (s.sold o v a).order? m = (paid.withOrder o.number charge).order? m := by rw [order?, hord]; rfl
  refine ⟨hagenda, hvol, fun k => ?_, fun m hm => (horder m).trans (order?_withOrder_ne (s := paid) (fun _ => rfl) hm),
    ⟨charge o, (horder _).trans (order?_withOrder_self (s := paid) ho fun _ => rfl), rfl, by simp [charge]⟩, fun _ => hentries⟩
  rw [hfee]
  exact account?_withAccount_isSome s _ k fun _ => rfl

theorem orderPriced_priced : OrderPriced s (s.priced o v a) n o := by
  obtain rfl : o.number = n := order?_number ho
  obtain ⟨hagenda, -, hvol, -⟩ := priced_blocks (s := s) (o := o) (v := v) (a := a)
  by_cases hroom : 512 ≤ s.stmt.current.entries.length
  · refine orderPriced_held ho (st := .heldStatement) (by simp) hagenda hvol ?_ ?_
    all_goals
      rw [priced, if_pos hroom]
      intros
      rfl
  · by_cases hfunds : a.queue ≠ [] ∨ a.balance + a.limit < (s.priceOf o v a).total
    · refine orderPriced_held ho (st := .heldFunds) (by simp) hagenda hvol (fun k => ?_) ?_
      all_goals rw [priced, if_neg hroom, if_pos hfunds]
      · exact account?_withAccount_isSome s _ k fun _ => rfl
      · rfl
    · rw [priced, if_neg hroom, if_neg hfunds]
      exact orderPriced_sold ho

/-- A page order of an account goes through pricing. -/
theorem orderPriced_priceOrder (hv : s.orderView o = some v) (ha : s.fee.account? o.account = some a) (hp : o.photo = none) :
    OrderPriced s (s.priceOrder n false) n o := by
  cases hc : s.holdCheck o v with
  | held =>
    have hheld : s.priceOrder n false = s.holdForRights n := by simp only [priceOrder, ho, hv, ha, hc]
    rw [hheld]
    exact orderPriced_held ho (.inl rfl) rfl rfl (fun _ => rfl) rfl
  | expired =>
    have hlapsed : s.ownLapsed o v = false := by simp [ownLapsed, hp]
    simp only [holdCheck, hlapsed, Bool.false_eq_true, if_false] at hc
    split_ifs at hc
  | passed masked =>
    rw [priceOrder_passed ho hv ha hc]
    exact orderPriced_priced ho

end Priced

/-! ### The slot reaches its orders (R95, R136) -/

/-- An order with the slot i, of which r is the content, recorded: its slot and, for a page, the version that the slot's key carries. -/
def handedSlot (i : Nat) (r : RecallSlot) (o : Order) : Order :=
  { o with recallSlot := some i, resolved := if o.photo.isSome then o.resolved else slotVersion r }

theorem orderRecalled_eq {s : State} {n i : Nat} {o : Order} {r : RecallSlot} (ho : s.order? n = some o)
    (hs : o.state = .recalling) (hr : s.vol.slot? i = some r) :
    s.orderRecalled n i = (s.withOrder n (handedSlot i r)).restoreStep n := by
  simp only [orderRecalled, orderState?, ho, Option.map_some, hs, hr, Option.bind_some]
  rfl

section Handed

variable {s : State} {n i : Nat} {o : Order} {r : RecallSlot} (ho : s.order? n = some o) (hs : o.state = .recalling)
  (hvol : o.volume ≠ 0) (hf : o.restore = false) (hr : s.vol.slot? i = some r)
include ho hs hvol hf hr

theorem orderRecalled_prices {v : View} (hv : (s.withOrder n (handedSlot i r)).orderView (handedSlot i r o) = some v) :
    s.orderRecalled n i = (s.withOrder n (handedSlot i r)).priceOrder n false :=
  (orderRecalled_eq ho hs hr).trans
    (restoreStep_unflagged (order?_withOrder_self ho fun _ => rfl) hf hv fun hzero => absurd hzero hvol)

/-- An order of a RESIDENT slot that its hold check lets pass is priced. -/
theorem orderRecalled_priced {v : View} {a : Account} {masked : List Nat} :
    let given := s.withOrder n (handedSlot i r)
    given.orderView (handedSlot i r o) = some v → s.fee.account? o.account = some a →
      given.holdCheck (handedSlot i r o) v = .passed masked → s.orderRecalled n i = given.priced (handedSlot i r o) v a := by
  intro given hv ha hc
  rw [orderRecalled_prices ho hs hvol hf hr hv]
  exact priceOrder_passed (s := given) (order?_withOrder_self ho fun _ => rfl) hv ha hc

/-- A page order of a RESIDENT slot is held or charged. -/
theorem orderPriced_recalled {c : EntryCopy} (hcopy : r.copy = some c) (hp : o.photo = none)
    (ha : (s.fee.account? o.account).isSome = true) : OrderPriced s (s.orderRecalled n i) n (handedSlot i r o) := by
  obtain ⟨a, ha⟩ := Option.isSome_iff_exists.1 ha
  let given : State := s.withOrder n (handedSlot i r)
  have hgiven : given.order? n = some (handedSlot i r o) := order?_withOrder_self ho fun _ => rfl
  have hv : given.orderView (handedSlot i r o) = some (copyView c) := by
    rw [orderView, if_neg (by exact hvol)]
    show ((s.vol.slot? i).bind RecallSlot.copy).map copyView = _
    rw [hr, Option.bind_some, hcopy, Option.map_some]
  rw [orderRecalled_prices ho hs hvol hf hr hv]
  have hpriced : OrderPriced given (given.priceOrder n false) n (handedSlot i r o) :=
    orderPriced_priceOrder hgiven hv ha hp
  exact ⟨hpriced.agenda, hpriced.vol, hpriced.accounts,
    fun m hm => (hpriced.others m hm).trans (order?_withOrder_ne (fun _ => rfl) hm), hpriced.order, hpriced.entries⟩

end Handed

/-! ### All the orders that pinned it (R95) -/

/-- A page order of a sealed volume that waits for its recall, without the restore flag and with an account. -/
abbrev AwaitsPage (s : State) (n : Nat) : Prop :=
  ∃ o, s.order? n = some o ∧ o.state = .recalling ∧ o.volume ≠ 0 ∧ o.photo = none ∧ o.restore = false ∧
    (s.fee.account? o.account).isSome = true

/-- The orders given have each been handed the slot and priced, in this order. -/
structure OrdersHanded (s t : State) (i : Nat) (r : RecallSlot) (ns : List Nat) : Prop where
  vol : t.vol = s.vol
  others : ∀ m, m ∉ ns → t.order? m = s.order? m
  orders : ∀ n ∈ ns, ∀ o, s.order? n = some o → ∃ o', t.order? n = some o' ∧
    o' = { handedSlot i r o with state := o'.state, masked := o'.masked, charged := o'.charged } ∧
    (o'.state = .heldRights ∨ o'.state = .heldStatement ∨ o'.state = .heldFunds ∨ o'.state = .charged)
  entries : (∀ n ∈ ns, (t.order? n).map Order.state = some .charged) →
    t.stmt.current.entries.map Entry.order = s.stmt.current.entries.map Entry.order ++ ns

theorem OrdersHanded.cons {s u t : State} {i n : Nat} {r : RecallSlot} {o : Order} {ns : List Nat} (hn : n ∉ ns)
    (ho : s.order? n = some o) (h : OrderPriced s u n (handedSlot i r o)) (k : OrdersHanded u t i r ns) :
    OrdersHanded s t i r (n :: ns) where
  vol := k.vol.trans h.vol
  others m hm := by
    rw [List.mem_cons, not_or] at hm
    exact (k.others m hm.2).trans (h.others m hm.1)
  orders m hm x hx := by
    rcases List.mem_cons.1 hm with rfl | hm
    · obtain rfl : o = x := Option.some.inj (ho.symm.trans hx)
      rw [k.others m hn]
      exact h.order
    · exact k.orders m hm x ((h.others m (ne_of_mem_of_not_mem hm hn)).trans hx)
  entries hall := by
    rw [k.entries fun m hm => hall m (List.mem_cons_of_mem _ hm), h.entries ?_, List.append_assoc, List.singleton_append]
    rw [← k.others n hn]
    exact hall n List.mem_cons_self

/-- The change works through the hand-over of a RESIDENT slot to its orders. -/
theorem settle_ordersHanded {i : Nat} {r : RecallSlot} {c : EntryCopy} (hcopy : r.copy = some c) :
    ∀ (ns : List Nat) (s : State) (k : Nat), ns.length ≤ k → ns.Nodup → s.vol.slot? i = some r →
      s.agenda = ns.map (fun n => .recallGiven (.order n) i) → (∀ n ∈ ns, s.AwaitsPage n) →
      OrdersHanded s (settle k s) i r ns
  | [], s, k, _, _, _, ha, _ => by
    rw [settle_of_nil k s ha]
    exact ⟨rfl, fun _ _ => rfl, by simp, by simp⟩
  | n :: ns, s, 0, hk, _, _, _, _ => by simp at hk
  | n :: ns, s, k + 1, hk, hnd, hr, ha, hwait => by
    obtain ⟨hn, hnd⟩ := List.nodup_cons.1 hnd
    obtain ⟨o, ho, hs, hvol, hp, hf, hacc⟩ := hwait n List.mem_cons_self
    let left : State := { s with agenda := ns.map fun n => .recallGiven (.order n) i }
    have hfirst : OrderPriced left (left.orderRecalled n i) n (handedSlot i r o) :=
      orderPriced_recalled (s := left) ho hs hvol hf hr hcopy hp hacc
    rw [settle_of_cons k ha]
    suffices hall : OrdersHanded left (settle k (left.orderRecalled n i)) i r (n :: ns) from
      ⟨hall.vol, hall.others, hall.orders, hall.entries⟩
    refine OrdersHanded.cons hn ho hfirst ?_
    refine settle_ordersHanded hcopy ns _ k (by simpa using hk) hnd (by rw [hfirst.vol]; exact hr) hfirst.agenda fun m hm => ?_
    obtain ⟨x, hx, hstate, hxvol, hxp, hxf, hxacc⟩ := hwait m (List.mem_cons_of_mem _ hm)
    exact ⟨x, (hfirst.others m (ne_of_mem_of_not_mem hm hn)).trans hx, hstate, hxvol, hxp, hxf,
      (hfirst.accounts x.account).trans hxacc⟩

end State

end Sys2Proof.Machine
end

section
/-! READ VOLUME ENTRY's completion: the slot that becomes RESIDENT, and the recall wait queue that it serves (O42). -/

namespace Sys2Proof.Machine

/-! ### The keys that the table holds (R93, R94) -/

theorem VolumeUnit.holding_eq_none {v : VolumeUnit} {volume : U32} {key : EntryKey} :
    v.holding volume key = none ↔ ∀ r, some r ∈ v.table → ¬(r.volume = volume ∧ r.key = key) := by
  rw [holding, List.findIdx?_eq_none_iff]
  refine ⟨fun h r hr => by simpa using h _ hr, fun h x hx => ?_⟩
  cases x with
  | none => rfl
  | some r => simpa using h r hx

/-- A slot that is freed, or that keeps its own key, brings no other key into the table. -/
theorem VolumeUnit.holding_set_none {v : VolumeUnit} {volume : U32} {key : EntryKey} {i : Nat} {x : Option RecallSlot}
    (h : v.holding volume key = none) (hx : ∀ r, x = some r → ∃ y, v.slot? i = some y ∧ y.volume = r.volume ∧ y.key = r.key) :
    VolumeUnit.holding { v with table := v.table.set i x } volume key = none := by
  rw [holding_eq_none] at h ⊢
  intro r hr
  rcases List.mem_or_eq_of_mem_set hr with hold | hnew
  · exact h r hold
  · obtain ⟨y, hy, hvolume, hkey⟩ := hx r hnew.symm
    rw [← hvolume, ← hkey]
    exact h y (List.mem_of_getElem? (slot?_eq hy))

theorem resolvedKey_page (k : EditionKey) (n v : Nat) (c : PageCopy) : resolvedKey (.page k n 0) (.page c) = .page k n c.version ∧
    (v ≠ 0 → resolvedKey (.page k n v) (.page c) = .page k n v) := by
  refine ⟨rfl, fun hv => ?_⟩
  cases v with
  | zero => exact absurd rfl hv
  | succ v => rfl

namespace State

/-- A recall slot's content replaced, or the slot freed. -/
def putSlot (s : State) (i : Nat) (r : Option RecallSlot) : State :=
  { s with vol := { s.vol with table := s.vol.table.set i r } }

theorem slot?_putSlot_some {s : State} {i : Nat} (hi : i < s.vol.table.length) (r : RecallSlot) :
    (s.putSlot i (some r)).vol.slot? i = some r := by
  simp [putSlot, VolumeUnit.slot?, hi]

theorem slot?_putSlot_none (s : State) (i : Nat) : (s.putSlot i none).vol.slot? i = none := by
  simp only [putSlot, VolumeUnit.slot?, List.getElem?_set]
  split_ifs <;> rfl

theorem slot?_putSlot_ne {s : State} {i k : Nat} (hk : k ≠ i) (r : Option RecallSlot) :
    (s.putSlot i r).vol.slot? k = s.vol.slot? k := by
  simp only [putSlot, VolumeUnit.slot?, List.getElem?_set_ne hk.symm]

/-! ### A fetch that is done or has failed (R94 to R96) -/

section Slot

variable {s : State} {i : Nat} {volume : U32} {key : EntryKey} {asking : List Requester}
  (hslot : s.vol.slot? i = some ⟨volume, key, asking, none⟩)
include hslot

/-- The copy goes into the slot, unless another one holds the resolved key. -/
theorem fetchDone_fills {c : EntryCopy} (hk : resolvedKey key c = key ∨ s.vol.holding volume (resolvedKey key c) = none) :
    s.fetchDone i c = s.fillSlot i ⟨volume, key, asking, none⟩ (resolvedKey key c) c := by
  by_cases hsame : resolvedKey key c = key
  · simp [fetchDone, hslot, hsame]
  · simp [fetchDone, hslot, hsame, hk.resolve_left hsame]

/-- The requesters are handed the failure in their order, and the freed slot serves the recall wait queue. -/
theorem fetchFailed_eq (c : Code) : s.fetchFailed i c =
    push { s.putSlot i none with agenda := s.agenda ++ asking.map fun r => .recallFailed r c } .serveRecall := by
  simp only [fetchFailed, hslot, foldl_push fun r => Task.recallFailed r c]
  rfl

end Slot

/-- A RESIDENT slot that none pins is the last in the least-recently-unpinned list, and serves the recall wait queue. -/
theorem fillSlot_unasked (s : State) (i : Nat) (volume : U32) (key key' : EntryKey) (c : EntryCopy) :
    s.fillSlot i ⟨volume, key, [], none⟩ key' c = push { s with vol := { s.vol with
      table := s.vol.table.set i (some ⟨volume, key', [], some c⟩), lru := s.vol.lru ++ [i] } } .serveRecall := rfl

/-- A RESIDENT slot is handed to its requesters in the order in which they pinned it. -/
theorem fillSlot_asked (s : State) (i : Nat) (volume : U32) (key key' : EntryKey) {asking : List Requester} (c : EntryCopy)
    (hn : asking ≠ []) : s.fillSlot i ⟨volume, key, asking, none⟩ key' c =
      { s.putSlot i (some ⟨volume, key', asking, some c⟩) with agenda := s.agenda ++ asking.map fun r => .recallGiven r i } := by
  rw [fillSlot, if_neg (by simpa using hn), foldl_push fun r => Task.recallGiven r i]
  rfl

/-! ### READ VOLUME ENTRY completes (R94 to R97) -/

/-- The link once READ VOLUME ENTRY has completed. -/
abbrev fetchServed (s : State) (at_ : SlotTag) (i : Nat) (volume : U32) (key : EntryKey) : State :=
  { s with link := s.link.served at_.slot.toNat (.readEntry i volume key) }

section Exec

variable {s x : State} {at_ : SlotTag} {i : Nat} {volume : U32} {key : EntryKey} (h : s.Working)
  (hans : s.link.answered? at_ Op.isFetch = some (.readEntry i volume key))
include h hans

theorem exec_fetchDone {c : EntryCopy} (hx : settle 65535 ((s.fetchServed at_ i volume key).fetchDone i c) = x) :
    exec (.readVolumeEntryCompletion at_ (.done c)) s = .next x.close :=
  storeAnswer_settles h hans (completeSlot_served ..) hx

theorem exec_fetchFailed (hx : settle 65535 ((s.fetchServed at_ i volume key).fetchFailed i .notInVolume) = x) :
    exec (.readVolumeEntryCompletion at_ .notFound) s = .next x.close :=
  storeAnswer_settles h hans (completeSlot_served ..) hx

end Exec

/-! ### A slot that none pins (R95 to R97) -/

/-- The head of the recall wait queue has taken slot x, and its fetch slot k of the link (R97). -/
def recallServed (s : State) (w : RecallWaiter) (x k : Nat) (lru : List Nat) : State :=
  { s with
    vol := { s.vol with
      table := s.vol.table.set x (some ⟨w.volume, w.key, [w.requester], none⟩), lru := lru, recallWait := [] }
    link := s.link.occupy k (.readEntry x w.volume w.key) }

/-- The only requester in the recall wait queue is served, in the FREE slot given or else in the one unpinned longest ago. -/
theorem settle_serveRecall_one {s : State} {w : RecallWaiter} {x k : Nat} {lru : List Nat} (ha : s.agenda = [])
    (hr : s.vol.recallWait = [w]) (hh : s.vol.holding w.volume w.key = none) (hl : s.link.Takes k)
    (hx : s.vol.table.findIdx? Option.isNone = some x ∧ lru = s.vol.lru ∨
      s.vol.table.findIdx? Option.isNone = none ∧ s.vol.lru = x :: lru) (n : Nat) :
    settle (n + 1) (s.push .serveRecall) = s.recallServed w x k lru := by
  have hserve := serveRecall_one hr hh hl (x := x) (hx.imp And.left fun hx => ⟨hx.1, lru, hx.2⟩)
  have hlru : (if s.vol.table.findIdx? Option.isNone = none then s.vol.lru.tail else s.vol.lru) = lru := by
    rcases hx with ⟨hx, rfl⟩ | ⟨hx, hlru⟩
    · rw [hx, if_neg nofun]
    · rw [if_pos hx, hlru, List.tail_cons]
  rw [settle_of_cons (x := .serveRecall) (rest := []) n (by simp [ha]),
    show ({ s.push .serveRecall with agenda := [] } : State) = s from agenda_of_nil ha, runTask, hserve, hlru]
  exact settle_of_nil _ _ ha

section Unasked

variable {s : State} {at_ : SlotTag} {i : Nat} {volume : U32} {key : EntryKey} (h : s.Working)
  (hans : s.link.answered? at_ Op.isFetch = some (.readEntry i volume key))
  (hslot : s.vol.slot? i = some ⟨volume, key, [], none⟩)
include h hans hslot

theorem exec_fetchDone_unasked {c : EntryCopy} (hk : resolvedKey key c = key ∨ s.vol.holding volume (resolvedKey key c) = none)
    (hr : s.vol.recallWait = []) : exec (.readVolumeEntryCompletion at_ (.done c)) s =
      .next (close { s.fetchServed at_ i volume key with vol := { s.vol with
        table := s.vol.table.set i (some ⟨volume, resolvedKey key c, [], some c⟩), lru := s.vol.lru ++ [i] } }) := by
  refine exec_fetchDone h hans ?_
  rw [fetchDone_fills (s := s.fetchServed at_ i volume key) hslot hk, fillSlot_unasked]
  exact settle_serveRecall (by exact h.2.1) (by exact hr) 65534

theorem exec_fetchFailed_unasked (hr : s.vol.recallWait = []) : exec (.readVolumeEntryCompletion at_ .notFound) s =
    .next ((s.fetchServed at_ i volume key).putSlot i none).close := by
  refine exec_fetchFailed h hans ?_
  rw [fetchFailed_eq (s := s.fetchServed at_ i volume key) hslot, List.map_nil, List.append_nil]
  exact settle_serveRecall (by exact h.2.1) (by exact hr) 65534

variable {w : RecallWaiter} {k x : Nat} (hr : s.vol.recallWait = [w]) (hh : s.vol.holding w.volume w.key = none)
  (hl : (s.fetchServed at_ i volume key).link.Takes k)
include hr hh hl

/-- The freed slot serves the head of the recall wait queue. -/
theorem exec_fetchFailed_serves (hx : (s.vol.table.set i none).findIdx? Option.isNone = some x) :
    exec (.readVolumeEntryCompletion at_ .notFound) s =
      .next (((s.fetchServed at_ i volume key).putSlot i none).recallServed w x k s.vol.lru).close := by
  have hhold := VolumeUnit.holding_set_none (i := i) (x := none) hh nofun
  refine exec_fetchFailed h hans ?_
  rw [fetchFailed_eq (s := s.fetchServed at_ i volume key) hslot, List.map_nil, List.append_nil]
  exact settle_serveRecall_one (s := (s.fetchServed at_ i volume key).putSlot i none) h.2.1 hr hhold hl (.inl ⟨hx, rfl⟩) 65534

/-- With no slot FREE, the head takes the slot that was unpinned longest ago. -/
theorem exec_fetchDone_serves {c : EntryCopy} {rest : List Nat} (hk : resolvedKey key c = key)
    (hfull : s.vol.table.findIdx? Option.isNone = none) (hlru : s.vol.lru ++ [i] = x :: rest) :
    exec (.readVolumeEntryCompletion at_ (.done c)) s = .next
      (((s.fetchServed at_ i volume key).putSlot i (some ⟨volume, key, [], some c⟩)).recallServed w x k rest).close := by
  have hhold := VolumeUnit.holding_set_none (i := i) (x := some ⟨volume, key, [], some c⟩) hh fun r hr =>
    ⟨_, hslot, by cases hr; exact ⟨rfl, rfl⟩⟩
  have hnone : (s.vol.table.set i (some ⟨volume, key, [], some c⟩)).findIdx? Option.isNone = none := by
    rw [List.findIdx?_eq_none_iff] at hfull ⊢
    intro y hy
    rcases List.mem_or_eq_of_mem_set hy with hy | rfl
    · exact hfull y hy
    · rfl
  refine exec_fetchDone h hans ?_
  rw [fetchDone_fills (s := s.fetchServed at_ i volume key) hslot (.inl hk), fillSlot_unasked, hk]
  exact settle_serveRecall_one (s := { s.fetchServed at_ i volume key with vol := { s.vol with
    table := s.vol.table.set i (some ⟨volume, key, [], some c⟩), lru := s.vol.lru ++ [i] } }) h.2.1 hr hhold hl
    (.inr ⟨hnone, hlru⟩) 65534

end Unasked

/-! ### RECALL WAIT SERVE (R97) -/

theorem exec_recallWaitServe {s : State} {w : RecallWaiter} {i k : Nat} (h : s.Working) (hr : s.vol.recallWait = [w])
    (hh : s.vol.holding w.volume w.key = none) (hi : s.vol.table.findIdx? Option.isNone = some i) (hl : s.link.Takes k) :
    exec .recallWaitServe s = .next (s.recallServed w i k s.vol.lru).close := by
  have hserved := settle_serveRecall_one h.2.1 hr hh hl (.inl ⟨hi, rfl⟩) 65535
  refine event_settles (happens := recallServable) (body := fun s => s.push .serveRecall) h ?_ hserved h.2.2.1
  simp [recallServable, hr, tryServe, hh, hi]

end State

end Sys2Proof.Machine
end

section
/-! What the end of an order, or the failure of a job, releases while nothing waits for it (O42). -/

namespace Sys2Proof.Machine

/-- Consequences that find nothing to do while nothing waits for a release: the re-examination of the claims, and the serving of the
recall wait queue. -/
abbrev Task.Idle (x : Task) : Prop := x = .regrant ∨ x = .serveRecall

namespace State

/-! ### Releases while nothing waits (R11, R12, R62, R66, R97, R98) -/

/-- t is s with holds given back: at most n consequences have been opened, none of which finds anything to do, still nothing waits for a
release, and neither the engine, the orders, the link nor the request processor has changed. -/
structure Released (n : Nat) (s t : State) : Prop where
  tasks : ∃ l : List Task, l.length ≤ n ∧ (∀ x ∈ l, x.Idle) ∧ t.agenda = s.agenda ++ l
  still : t.Still
  eng : t.eng = s.eng
  ord : t.ord = s.ord
  link : t.link = s.link
  req : t.req = s.req
  free : ∀ k, s.vol.slot? k = none → t.vol.slot? k = none

theorem Released.refl {s : State} (h : s.Still) : Released 0 s s :=
  ⟨⟨[], by simp, by simp, by simp⟩, h, rfl, rfl, rfl, rfl, fun _ h => h⟩

theorem Released.trans {m n : Nat} {s t u : State} (h : Released m s t) (k : Released n t u) : Released (m + n) s u := by
  obtain ⟨l, hl, hidle, ha⟩ := h.tasks
  obtain ⟨l', hl', hidle', ha'⟩ := k.tasks
  refine ⟨⟨l ++ l', by simp; omega, fun x hx => ?_, by rw [ha', ha, List.append_assoc]⟩, k.still, k.eng.trans h.eng,
    k.ord.trans h.ord, k.link.trans h.link, k.req.trans h.req, fun i hi => k.free i (h.free i hi)⟩
  exact (List.mem_append.1 hx).elim (hidle x) (hidle' x)

/-- The slots that are FREE stay so when the pins of a slot change. -/
theorem slot?_withRecall_none {s : State} {i k : Nat} {f : RecallSlot → RecallSlot} (hk : s.vol.slot? k = none) :
    (s.withRecall i f).vol.slot? k = none := by
  simp only [VolumeUnit.slot?, withRecall, List.getElem?_modify, Option.join_eq_none_iff] at hk ⊢
  rcases hk with hk | hk <;> rw [hk]
  · exact .inl rfl
  · refine .inr ?_
    split <;> rfl

theorem Released.mono {m n : Nat} {s t : State} (h : Released m s t) (hmn : m ≤ n) : Released n s t := by
  obtain ⟨l, hl, hrest⟩ := h.tasks
  exact { h with tasks := ⟨l, hl.trans hmn, hrest⟩ }

section Still

variable {s : State} (h : s.Still)
include h

theorem released_withCat {f : Catalogue → Catalogue} (hf : ∀ e ∈ (f s.cat).editions, e.all (fun x => !x.due) = true) :
    Released 0 s (s.withCat f) :=
  ⟨⟨[], by simp, by simp, by simp⟩, ⟨h.1, h.2.1, hf⟩, rfl, rfl, rfl, rfl, fun _ h => h⟩

/-- No edition is due, so that one whose last pin goes does not join the seal queue (R11). -/
theorem released_unpinEdition (slot : Nat) : Released 0 s (s.unpinEdition slot) := by
  unfold unpinEdition
  split
  · exact .refl h
  · next e he =>
    have hdue : e.due = false := by simpa using h.2.2 _ (Catalogue.edition?_mem he)
    rw [hdue, Bool.and_false, if_neg Bool.false_ne_true]
    refine released_withCat h fun x hx => ?_
    rcases StoreLink.mem_modify hx with hx | ⟨y, hy, rfl⟩
    · exact h.2.2 x hx
    · cases y with
      | none => rfl
      | some x => exact h.2.2 (some x) hy

theorem released_unpinPhoto (n : U32) : Released 0 s (s.unpinPhoto n) := released_withCat h h.2.2

theorem released_releasePins (o : Order) : Released 0 s (s.releasePins o) := by
  unfold releasePins
  cases o.pinEdition <;> cases o.pinPhoto
  · exact .refl h
  · exact released_unpinPhoto h _
  · exact released_unpinEdition h _
  · exact (released_unpinEdition h _).trans (released_unpinPhoto (released_unpinEdition h _).still _)

theorem released_leaveRecallWait (r : Requester) : Released 0 s (s.leaveRecallWait r) := by
  have hsame : s.leaveRecallWait r = s := by
    simp only [leaveRecallWait, h.2.1, List.filter_nil]
    rw [← h.2.1]
  rw [hsame]
  exact .refl h

theorem released_releaseSlot (r : Requester) : Released 1 s (s.releaseSlot r) := by
  unfold releaseSlot
  split
  · exact (Released.refl h).mono (by omega)
  · next i hi =>
    dsimp only
    split
    · split
      · exact ⟨⟨[.serveRecall], by simp, by simp [Task.Idle], rfl⟩, h, rfl, rfl, rfl, rfl, fun k hk => slot?_withRecall_none hk⟩
      · exact ⟨⟨[], by simp, by simp, by simp [withRecall]⟩, h, rfl, rfl, rfl, rfl, fun k hk => slot?_withRecall_none hk⟩
    · exact ⟨⟨[], by simp, by simp, by simp [withRecall]⟩, h, rfl, rfl, rfl, rfl, fun k hk => slot?_withRecall_none hk⟩

theorem released_releaseRecall (r : Requester) : Released 1 s (s.releaseRecall r) :=
  (released_leaveRecallWait h r).trans (released_releaseSlot (released_leaveRecallWait h r).still r)

theorem released_removeClaim (x : Holder) : Released 0 s (s.removeClaim x) := by
  have hsame : s.removeClaim x = s := by
    simp only [removeClaim, h.1, List.filter_nil]
    rw [← h.1]
  rw [hsame]
  exact .refl h

theorem released_release (x : Holder) : Released 1 s (s.release x) := by
  obtain ⟨tasks, hlen, hall, hform⟩ := release_form s x
  rw [hform]
  exact ⟨⟨tasks, hlen, fun y hy => .inl (hall y hy), rfl⟩, ⟨(Pool.returned_claims _ _).trans h.1, h.2⟩, rfl, rfl, rfl, rfl,
    fun _ h => h⟩

/-- A job gives back its claim, its segments and its hold (R114). -/
theorem released_releaseJob (j : Job) : Released 2 s (s.releaseJob j) := by
  have hclaim := released_removeClaim h (.job j.number)
  have hpool := hclaim.trans (released_release hclaim.still (.job j.number))
  unfold releaseJob
  cases j.target with
  | page slot number version => exact (hpool.trans (released_unpinEdition hpool.still slot)).mono (by omega)
  | photo n => exact (hpool.trans (released_unpinPhoto hpool.still n)).mono (by omega)
  | sealed v k => exact hpool.trans (released_releaseRecall hpool.still _)

/-- An order gives back its pins, its recall, its claim and its segments (R138). -/
theorem released_leaving (o : Order) (n : Nat) :
    Released 2 s ((((s.releasePins o).releaseRecall (.order n)).removeClaim (.order n)).release (.order n)) := by
  have hpins := released_releasePins h o
  have hrecall := hpins.trans (released_releaseRecall hpins.still (.order n))
  have hclaim := hrecall.trans (released_removeClaim hrecall.still (.order n))
  exact hclaim.trans (released_release hclaim.still (.order n))

end Still

/-! ### An order ends (R138) -/

/-- The order has ended with the outcome, and with it the consequences and the FREE slots are as after its releases. -/
structure OrderFailed (s t : State) (n : Nat) (c : Code) : Prop where
  tasks : ∃ l : List Task, l.length ≤ 2 ∧ (∀ x ∈ l, x.Idle) ∧ t.agenda = s.agenda ++ l
  still : t.Still
  gone : t.order? n = none
  others : ∀ m, m ≠ n → t.order? m = s.order? m
  finished : ∃ f, t.ord.finished = s.ord.finished ++ [f] ∧ f.number = n ∧ f.state = .ended ∧ f.outcome = c
  req : t.req = (s.latch .orderEnded).req
  free : ∀ k, s.vol.slot? k = none → t.vol.slot? k = none

theorem orderFailed_endOrder {s : State} {n : Nat} {o : Order} (h : s.Still) (ho : s.order? n = some o) (c : Code) :
    OrderFailed s (s.endOrder n c) n c := by
  have hleft := released_leaving h o n
  have hends : s.endOrder n c = (s.leaveTable n .ended c).latch .orderEnded := if_pos (by rw [ho]; rfl)
  have hlive : (s.endOrder n c).ord.live = s.ord.live.filter fun x => x.number != n := by
    rw [hends, leaveTable, ho]
    exact congrArg (fun t : OrderTable => t.live.filter fun x => x.number != n) hleft.ord
  have hfinished : (s.endOrder n c).ord.finished = s.ord.finished ++ [o.finishedCopy .ended c] := by
    rw [hends, leaveTable, ho]
    exact congrArg (fun t : OrderTable => t.finished ++ [o.finishedCopy .ended c]) hleft.ord
  refine ⟨?_, ?_, ?_, fun m hm => ?_, ⟨_, hfinished, (order?_number ho : o.number = n), rfl, rfl⟩, ?_, fun k hk => ?_⟩
  · rw [hends, leaveTable, ho]
    exact hleft.tasks
  · rw [hends, leaveTable, ho]
    exact hleft.still
  · rw [order?, hlive, List.find?_eq_none]
    intro x hx
    simpa using (List.mem_filter.1 hx).2
  · rw [order?, hlive, List.find?_filter]
    refine congrArg (fun p => s.ord.live.find? p) (funext fun x => ?_)
    by_cases hx : x.number = m
    · simp [hx, hm]
    · simp [hx]
  · rw [hends, leaveTable, ho]
    exact congrArg (fun r : RequestUnit => { r with latched := r.latched ||| bitWord Event.orderEnded.bit }) hleft.req
  · rw [hends, leaveTable, ho]
    exact hleft.free k hk

/-! ### The fetch's failure reaches its orders (R96) -/

/-- The orders given have ended with the outcome. -/
structure OrdersFailed (s t : State) (ns : List Nat) (c : Code) : Prop where
  gone : ∀ n ∈ ns, t.order? n = none
  others : ∀ m, m ∉ ns → t.order? m = s.order? m
  finished : ∃ fs : List Order, t.ord.finished = s.ord.finished ++ fs ∧ fs.length = ns.length ∧
    ∀ n ∈ ns, ∃ f ∈ fs, f.number = n ∧ f.state = .ended ∧ f.outcome = c
  wait : t.req.wait = s.req.wait
  latched : s.req.latched.getLsbD Event.orderEnded.bit = true ∨ ns ≠ [] →
    t.req.latched.getLsbD Event.orderEnded.bit = true
  free : ∀ k, s.vol.slot? k = none → t.vol.slot? k = none

theorem OrdersFailed.cons {s u t : State} {n : Nat} {ns : List Nat} {c : Code} (hn : n ∉ ns) (h : OrderFailed s u n c)
    (k : OrdersFailed u t ns c) : OrdersFailed s t (n :: ns) c where
  gone m hm := by
    rcases List.mem_cons.1 hm with rfl | hm
    · exact (k.others m hn).trans h.gone
    · exact k.gone m hm
  others m hm := by
    rw [List.mem_cons, not_or] at hm
    exact (k.others m hm.2).trans (h.others m hm.1)
  finished := by
    obtain ⟨f, hf, hnumber⟩ := h.finished
    obtain ⟨fs, hfs, hlen, hall⟩ := k.finished
    refine ⟨f :: fs, by rw [hfs, hf, List.append_assoc, List.singleton_append], by simp [hlen], fun m hm => ?_⟩
    rcases List.mem_cons.1 hm with rfl | hm
    · exact ⟨f, List.mem_cons_self, hnumber⟩
    · obtain ⟨x, hx, hrest⟩ := hall m hm
      exact ⟨x, List.mem_cons_of_mem _ hx, hrest⟩
  wait := k.wait.trans (by rw [h.req]; rfl)
  latched _ := k.latched (.inl (by rw [h.req]; exact latch_bit _ _))
  free i hi := k.free i (h.free i hi)

/-- The change works through the failure's hand-over to the orders, with idle consequences behind it. -/
theorem settle_ordersFailed (c : Code) : ∀ (ns : List Nat) (s : State) (l : List Task) (k : Nat), s.Still →
    s.agenda = ns.map (fun n => .recallFailed (.order n) c) ++ l → (∀ x ∈ l, x.Idle) → 3 * ns.length + l.length ≤ k →
    ns.Nodup → (∀ n ∈ ns, (s.order? n).isSome = true) → OrdersFailed s (settle k s) ns c
  | [], s, l, k, hstill, ha, hl, hk, _, _ => by
    have hidle := settle_idle (s := s) [] hl (fun _ => hstill.1) (fun _ => hstill.2.1) (k - l.length)
    have hsame : settle k s = { s with agenda := [] } := by
      rw [show ({ s with agenda := l ++ [] } : State) = s by rw [List.append_nil, ← show s.agenda = l from ha],
        show l.length + (k - l.length) = k by simp at hk; omega] at hidle
      exact hidle.trans (settle_of_nil _ _ rfl)
    rw [hsame]
    exact ⟨by simp, fun _ _ => rfl, ⟨[], by simp, rfl, by simp⟩, rfl, fun h => h.resolve_right (by simp), fun _ h => h⟩
  | n :: ns, s, l, 0, _, _, _, hk, _, _ => by simp at hk
  | n :: ns, s, l, k + 1, hstill, ha, hl, hk, hnd, hall => by
    obtain ⟨hn, hnd⟩ := List.nodup_cons.1 hnd
    obtain ⟨o, ho⟩ := Option.isSome_iff_exists.1 (hall n List.mem_cons_self)
    let left : State := { s with agenda := ns.map (fun n => .recallFailed (.order n) c) ++ l }
    have hfirst : OrderFailed left (left.endOrder n c) n c := orderFailed_endOrder (s := left) hstill ho c
    obtain ⟨l', hlen, hl', ha'⟩ := hfirst.tasks
    rw [settle_of_cons k ha]
    suffices hends : OrdersFailed left (settle k (left.endOrder n c)) (n :: ns) c from
      ⟨hends.gone, hends.others, hends.finished, hends.wait, hends.latched, hends.free⟩
    refine OrdersFailed.cons hn hfirst (settle_ordersFailed c ns _ (l ++ l') k hfirst.still ?_ ?_ ?_ hnd fun m hm => ?_)
    · rw [ha', List.append_assoc]
    · exact fun x hx => (List.mem_append.1 hx).elim (hl x) (hl' x)
    · simp only [List.length_cons, List.length_append] at hk ⊢
      omega
    · rw [hfirst.others m (ne_of_mem_of_not_mem hm hn)]
      exact hall m (List.mem_cons_of_mem _ hm)

end State

end Sys2Proof.Machine
end

section
/-! A job that is handed its recall slot, or that fails, and the engine's start behind it (O42). -/

namespace Sys2Proof.Machine

namespace State

/-! ### A job fails (R114) -/

/-- A job of no order has failed with the outcome: it has left the queue for the finished list, and the engine may start another. -/
structure JobFailed (s t : State) (n : Nat) (c : Code) : Prop where
  tasks : ∃ l : List Task, l.length ≤ 2 ∧ (∀ x ∈ l, x.Idle) ∧ t.agenda = s.agenda ++ l ++ [.startJob]
  still : t.Still
  link : t.link = s.link
  jobs : t.eng.jobs = s.eng.jobs.filter fun k => k.number != n
  last : t.eng.finished.getLast?.map (fun k => (k.number, k.state, k.outcome)) = some (n, .failed, c)
  req : t.req = (s.latch .restoreFailed).req
  free : ∀ k, s.vol.slot? k = none → t.vol.slot? k = none

/-- The last entry of a list that keeps its last 8 is the last that joined it. -/
theorem getLast?_kept {α : Type} (l : List α) (x : α) :
    ((l ++ [x]).drop ((l ++ [x]).length - Config.finishedJobs)).getLast? = some x := by
  rw [List.getLast?_drop, if_neg, List.getLast?_concat]
  simp

theorem jobFailed_failJob {s : State} {n : Nat} {j : Job} (h : s.Still) (hj : s.job? n = some j) (hc : j.creator = none)
    (hjoin : j.joiners = []) (c : Code) : JobFailed s (s.failJob n c) n c := by
  obtain rfl : j.number = n := job?_number hj
  have hleft : Released 2 (s.retireJob j .failed c) ((s.retireJob j .failed c).releaseJob j) :=
    released_releaseJob (s := s.retireJob j .failed c) h j
  have hfails : s.failJob j.number c = push (((s.retireJob j .failed c).releaseJob j).latch .restoreFailed) .startJob := by
    simp only [failJob, hj, Job.orders, hc, hjoin]
    rfl
  obtain ⟨l, hlen, hidle, ha⟩ := hleft.tasks
  rw [hfails]
  refine ⟨⟨l, hlen, hidle, congrArg (· ++ [Task.startJob]) ha⟩, hleft.still, hleft.link, congrArg Engine.jobs hleft.eng, ?_, ?_,
    hleft.free⟩
  · refine (congrArg (fun e : Engine => e.finished.getLast?.map fun k => (k.number, k.state, k.outcome)) hleft.eng).trans ?_
    show Option.map _ (List.getLast? (List.drop _ _)) = _
    rw [getLast?_kept]
    rfl
  · exact congrArg (fun r : RequestUnit => { r with latched := r.latched ||| bitWord Event.restoreFailed.bit }) hleft.req

/-! ### The engine's start (R106) -/

/-- A start changes no job's number, no finished job, no recall slot and no event. -/
structure Starts (s t : State) : Prop where
  agenda : t.agenda = s.agenda
  online : t.link.state = .online
  numbers : t.eng.jobs.map Job.number = s.eng.jobs.map Job.number
  finished : t.eng.finished = s.eng.finished
  vol : t.vol = s.vol
  req : t.req = s.req

theorem Starts.trans {s t u : State} (h : Starts s t) (k : Starts t u) : Starts s u :=
  ⟨k.agenda.trans h.agenda, k.online, k.numbers.trans h.numbers, k.finished.trans h.finished, k.vol.trans h.vol, k.req.trans h.req⟩

section Online

variable {s : State} (ho : s.link.state = .online)
include ho

theorem Starts.refl : Starts s s := ⟨rfl, ho, rfl, rfl, rfl, rfl⟩

theorem starts_withJob (n : Nat) {f : Job → Job} (hf : ∀ j, (f j).number = j.number) : Starts s (s.withJob n f) := by
  refine ⟨rfl, ho, ?_, rfl, rfl, rfl⟩
  simp only [withJob, List.map_map]
  refine List.map_congr_left fun j _ => ?_
  simp only [Function.comp]
  split <;> simp [hf]

theorem starts_handOff {op : Op} (hd : op.isDiscard = false) : Starts s (s.handOff op) := by
  rw [handOff_online ho hd]
  exact ⟨rfl, (StoreLink.accept_state op).trans ho, rfl, rfl, rfl, rfl⟩

theorem starts_placeClaim (n need : Nat) : Starts s (s.placeClaim ⟨.job n, need⟩) := by
  have hgive : Starts s (s.give (.job n) need) := ⟨rfl, ho, rfl, rfl, rfl, rfl⟩
  unfold placeClaim grant
  dsimp only
  split
  · split
    · exact hgive
    · split
      · exact hgive
      · have hsurvey := hgive.trans (starts_withJob hgive.online n (f := fun j => { j with state := .survey }) fun _ => rfl)
        exact hsurvey.trans (starts_handOff hsurvey.online rfl)
  · exact ⟨rfl, ho, rfl, rfl, rfl, rfl⟩

theorem starts_startJob : Starts s s.startJob := by
  unfold startJob
  split
  · exact .refl ho
  · split
    · exact .refl ho
    · next j _ =>
      split
      · exact .refl ho
      · next v _ =>
        have hclaiming := starts_withJob ho j.number (f := fun j =>
          { j with state := .claiming, startLevel := v.level, need := gridSegments v.grid }) fun _ => rfl
        exact hclaiming.trans (starts_placeClaim hclaiming.online _ _)

end Online

/-- Tests for a start end a change. -/
theorem settle_starts : ∀ (starts : List Task) (s : State) (k : Nat), s.link.state = .online → starts.length ≤ k →
    s.agenda = starts → (∀ x ∈ starts, x = .startJob) → Starts { s with agenda := [] } (settle k s)
  | [], s, k, ho, _, ha, _ => by
    rw [settle_of_nil k s ha]
    exact ⟨ha, ho, rfl, rfl, rfl, rfl⟩
  | x :: starts, s, 0, _, hk, _, _ => by simp at hk
  | x :: starts, s, k + 1, ho, hk, ha, hall => by
    obtain rfl : x = .startJob := hall x List.mem_cons_self
    let left : State := { s with agenda := starts }
    have hfirst : Starts left left.startJob := starts_startJob ho
    have hrest := settle_starts starts left.startJob k hfirst.online (by simpa using hk) hfirst.agenda
      fun y hy => hall y (List.mem_cons_of_mem _ hy)
    rw [settle_of_cons k ha]
    exact ⟨hrest.agenda, hrest.online, hrest.numbers.trans hfirst.numbers, hrest.finished.trans hfirst.finished,
      hrest.vol.trans hfirst.vol, hrest.req.trans hfirst.req⟩

/-- Idle consequences and then tests for a start end a change. -/
theorem settle_idle_starts {s : State} (h : s.Still) (ho : s.link.state = .online) {l starts : List Task}
    (ha : s.agenda = l ++ starts) (hl : ∀ x ∈ l, x.Idle) (hstarts : ∀ x ∈ starts, x = .startJob) {k : Nat}
    (hk : l.length + starts.length ≤ k) : Starts { s with agenda := [] } (settle k s) := by
  have hidle := settle_idle (s := s) starts hl (fun _ => h.1) (fun _ => h.2.1) (k - l.length)
  rw [show ({ s with agenda := l ++ starts } : State) = s by rw [← ha], show l.length + (k - l.length) = k by omega] at hidle
  rw [hidle]
  exact settle_starts starts { s with agenda := starts } (k - l.length) ho (by omega) rfl hstarts

end State

end Sys2Proof.Machine
end

section
/-! A recall slot is handed to a job, and a job's failure ends its change (O42). -/

namespace Sys2Proof.Machine

namespace State

/-! ### The change in which a job fails (R114) -/

/-- The job has left the queue for the finished list with the outcome, the event is latched, and no other number has left the queue. -/
structure JobEnded (s t : State) (n : Nat) (c : Code) : Prop where
  numbers : t.eng.jobs.map Job.number = (s.eng.jobs.map Job.number).filter (· != n)
  last : t.eng.finished.getLast?.map (fun k => (k.number, k.state, k.outcome)) = some (n, .failed, c)
  raised : Raised s t .restoreFailed
  free : ∀ k, s.vol.slot? k = none → t.vol.slot? k = none

theorem job?_isSome_iff {s : State} {n : Nat} : (s.job? n).isSome = true ↔ n ∈ s.eng.jobs.map Job.number := by
  simp [job?, List.find?_isSome]

section Ended

variable {s t : State} {n : Nat} {c : Code} (h : JobEnded s t n c)
include h

theorem JobEnded.gone : t.job? n = none := by
  rw [← Option.not_isSome_iff_eq_none, job?_isSome_iff, h.numbers]
  simp

theorem JobEnded.kept {m : Nat} (hm : m ≠ n) (hlive : (s.job? m).isSome = true) : (t.job? m).isSome = true := by
  rw [job?_isSome_iff] at hlive ⊢
  rw [h.numbers]
  simpa [hm] using hlive

/-- The only job's failure empties the queue. -/
theorem JobEnded.jobs_nil {j : Job} (hj : s.job? n = some j) (hall : s.eng.jobs.map Job.number = [j.number]) :
    t.eng.jobs = [] := by
  have hnumbers := h.numbers
  rw [hall, job?_number hj] at hnumbers
  simpa using hnumbers

end Ended

/-- Behind a job's failure the idle consequences pass and the engine may start another job. -/
theorem JobFailed.ended {s u : State} {n : Nat} {c : Code} (h : JobFailed s u n c) (ho : s.link.state = .online)
    (hs : ∀ x ∈ s.agenda, x.Idle) {extra : List Task} (hextra : ∀ x ∈ extra, x = .startJob) {k : Nat}
    (hk : s.agenda.length + 3 + extra.length ≤ k) :
    JobEnded s (settle k { u with agenda := u.agenda ++ extra }).close n c := by
  obtain ⟨l, hlen, hl, ha⟩ := h.tasks
  have hstarts : Starts { u with agenda := [] } (settle k { u with agenda := u.agenda ++ extra }) :=
    settle_idle_starts (s := { u with agenda := u.agenda ++ extra }) (l := s.agenda ++ l) (starts := .startJob :: extra)
      h.still ((congrArg StoreLink.state h.link).trans ho) (by simp [ha])
      (fun x hx => (List.mem_append.1 hx).elim (hs x) (hl x)) (by simpa using hextra) (by simp; omega)
  refine ⟨?_, ?_, raised_close (u := settle k _) ?_ ?_, fun i hi => ?_⟩
  · rw [close_eng, hstarts.numbers, show ({ u with agenda := [] } : State).eng.jobs = _ from h.jobs, List.filter_map]
    rfl
  · rw [close_eng, hstarts.finished]
    exact h.last
  · rw [hstarts.req]
    exact (congrArg RequestUnit.wait h.req).trans rfl
  · rw [hstarts.req]
    exact (congrArg (fun r : RequestUnit => r.latched.getLsbD Event.restoreFailed.bit) h.req).trans (latch_bit _ _)
  · rw [close_vol, hstarts.vol]
    exact h.free i hi

theorem jobEnded_failJob {s : State} {n : Nat} {j : Job} (h : s.Still) (ho : s.link.state = .online) (hj : s.job? n = some j)
    (hc : j.creator = none) (hjoin : j.joiners = []) (c : Code) (hs : ∀ x ∈ s.agenda, x.Idle) {k : Nat}
    (hk : s.agenda.length + 3 ≤ k) : JobEnded s (settle k (s.failJob n c)).close n c := by
  have hended := (jobFailed_failJob h hj hc hjoin c).ended ho hs (extra := []) (by simp) (k := k) (by simpa using hk)
  simpa only [List.append_nil] using hended

/-! ### A QUEUED job is handed its recall slot (R115) -/

/-- The job with its recall slot recorded. -/
abbrev handJob (s : State) (n i : Nat) : State := s.withJob n fun j => { j with recallSlot := some i }

/-- The capacity level that a record copy carries. -/
abbrev copyLevel : EntryCopy → Nat
  | .page c => c.level
  | .photo c => c.level

theorem copyView_level (c : EntryCopy) : (copyView c).level = copyLevel c := by cases c <;> rfl

theorem handJob_numbers (s : State) (n i : Nat) : (s.handJob n i).eng.jobs.map Job.number = s.eng.jobs.map Job.number := by
  simp only [withJob, List.map_map]
  refine List.map_congr_left fun j _ => ?_
  simp only [Function.comp]
  split <;> rfl

theorem job?_handJob_self {s : State} {n : Nat} {j : Job} (hj : s.job? n = some j) (i : Nat) :
    (s.handJob n i).job? n = some { j with recallSlot := some i } := by
  rw [job?_withJob (f := fun j => { j with recallSlot := some i }) fun _ => rfl, hj]
  simp [job?_number hj]

theorem job?_handJob_ne (s : State) {m n : Nat} (hm : m ≠ n) (i : Nat) : (s.handJob n i).job? m = s.job? m := by
  rw [job?_withJob (f := fun j => { j with recallSlot := some i }) fun _ => rfl]
  cases hk : s.job? m with
  | none => rfl
  | some k => simp [job?_number hk, hm]

section Recalled

variable {s : State} {n i : Nat} {j : Job} {c : EntryCopy} (hj : s.job? n = some j) (hq : j.state = .queued)
  (hc : s.vol.copy? i = some c)
include hj hq hc

theorem jobRecalled_top (hl : copyLevel c = 3) : s.jobRecalled n i = (s.handJob n i).failJob n .levelLimit := by
  simp [jobRecalled, hj, hq, hc, copyView_level, hl]

theorem jobRecalled_ready (hl : copyLevel c ≠ 3) (hk : s.servedBy? n i = none) :
    s.jobRecalled n i = (s.handJob n i).push .startJob := by
  simp [jobRecalled, hj, hq, hc, copyView_level, hl, hk]

/-- Of two jobs that one slot serves the later accepted fails. -/
theorem jobRecalled_served {k : Job} (hl : copyLevel c ≠ 3) (hk : s.servedBy? n i = some k) : s.jobRecalled n i =
    if s.eng.isBefore n k.number then ((s.handJob n i).failJob k.number .duplicate).push .startJob
    else (s.handJob n i).failJob n .duplicate := by
  simp [jobRecalled, hj, hq, hc, copyView_level, hl, hk]

end Recalled

end State

end Sys2Proof.Machine
end

section
/-! READ VOLUME ENTRY's completion for requesters that wait for the slot: orders, a job, and the slot that holds the resolved
key (O42). -/

namespace Sys2Proof.Machine

namespace State

/-- The first consequence of a change that has opened no other. -/
theorem settle_push {s : State} (ha : s.agenda = []) (x : Task) (n : Nat) : settle (n + 1) (s.push x) = settle n (s.runTask x) := by
  rw [settle_of_cons (x := x) (rest := []) n (by simp [ha])]
  exact congrArg (fun t : State => settle n (t.runTask x)) (agenda_of_nil ha)

theorem copy?_putSlot {s : State} {i : Nat} (hi : i < s.vol.table.length) (r : RecallSlot) :
    (s.putSlot i (some r)).vol.copy? i = r.copy := by
  rw [VolumeUnit.copy?, slot?_putSlot_some hi]
  rfl

/-! ### The requesters of the fetching slot (R94 to R96) -/

section Asked

variable {s : State} {at_ : SlotTag} {i : Nat} {volume : U32} {key : EntryKey} {asking : List Requester} (h : s.Working)
  (hans : s.link.answered? at_ Op.isFetch = some (.readEntry i volume key)) (hi : i < s.vol.table.length)
  (hslot : s.vol.slot? i = some ⟨volume, key, asking, none⟩)

/-- The state in which the copy is in its slot, before the slot's requesters are handed it. -/
abbrev fetchResident (s : State) (at_ : SlotTag) (i : Nat) (volume : U32) (key : EntryKey) (asking : List Requester)
    (c : EntryCopy) : State :=
  (s.fetchServed at_ i volume key).putSlot i (some ⟨volume, resolvedKey key c, asking, some c⟩)

/-- The slot is handed to the orders that pinned it. -/
theorem ordersHanded_fetched {c : EntryCopy} {ns : List Nat} (hi : i < s.vol.table.length) (hlen : ns.length ≤ 65535)
    (hnd : ns.Nodup) (hwait : ∀ n ∈ ns, s.AwaitsPage n) :
    let resident := s.fetchResident at_ i volume key asking c
    OrdersHanded resident (settle 65535 { resident with agenda := ns.map fun n => .recallGiven (.order n) i }) i
      ⟨volume, resolvedKey key c, asking, some c⟩ ns := by
  intro resident
  have hgiven := settle_ordersHanded (r := ⟨volume, resolvedKey key c, asking, some c⟩) (c := c) rfl ns
    { resident with agenda := ns.map fun n => .recallGiven (.order n) i } 65535 hlen hnd
    (slot?_putSlot_some (s := s.fetchServed at_ i volume key) hi _) rfl hwait
  exact ⟨hgiven.vol, hgiven.others, hgiven.orders, hgiven.entries⟩

include h hans hslot

theorem exec_fetchDone_asked {c : EntryCopy} (hn : asking ≠ [])
    (hk : resolvedKey key c = key ∨ s.vol.holding volume (resolvedKey key c) = none) :
    exec (.readVolumeEntryCompletion at_ (.done c)) s = .next
      (settle 65535 { s.fetchResident at_ i volume key asking c with agenda := asking.map fun r => .recallGiven r i }).close := by
  refine exec_fetchDone h hans ?_
  rw [fetchDone_fills (s := s.fetchServed at_ i volume key) hslot hk, fillSlot_asked _ _ _ _ _ _ hn, h.2.1, List.nil_append]

theorem exec_fetchFailed_asked : exec (.readVolumeEntryCompletion at_ .notFound) s = .next
    (settle 65535 { (s.fetchServed at_ i volume key).putSlot i none with
      agenda := asking.map (fun r => .recallFailed r .notInVolume) ++ [.serveRecall] }).close := by
  refine exec_fetchFailed h hans ?_
  rw [fetchFailed_eq (s := s.fetchServed at_ i volume key) hslot]
  simp [push, h.2.1]

end Asked

/-! ### One requester of the fetching slot (R95) -/

section Sole

variable {s : State} {at_ : SlotTag} {i : Nat} {volume : U32} {key : EntryKey} {r : Requester} (h : s.Working)
  (hans : s.link.answered? at_ Op.isFetch = some (.readEntry i volume key)) (hi : i < s.vol.table.length)
  (hslot : s.vol.slot? i = some ⟨volume, key, [r], none⟩)
include h hans hslot

theorem exec_fetchDone_sole {c : EntryCopy} (hk : resolvedKey key c = key ∨ s.vol.holding volume (resolvedKey key c) = none) :
    exec (.readVolumeEntryCompletion at_ (.done c)) s = .next
      (settle 65534 ((s.fetchResident at_ i volume key [r] c).recallGiven r i)).close := by
  have hagenda : (s.fetchResident at_ i volume key [r] c).agenda = [] := h.2.1
  have hpushed : ({ s.fetchResident at_ i volume key [r] c with agenda := [.recallGiven r i] } : State) =
      (s.fetchResident at_ i volume key [r] c).push (.recallGiven r i) := by
    rw [push, hagenda]
    rfl
  rw [exec_fetchDone_asked h hans hslot (by simp) hk, List.map_singleton, hpushed, settle_push hagenda, runTask]

/-- An order that its hold check lets pass is priced. -/
theorem exec_fetchDone_order {c : EntryCopy} (hi : i < s.vol.table.length)
    (hk : resolvedKey key c = key ∨ s.vol.holding volume (resolvedKey key c) = none) {n : Nat} (hr : r = .order n) {o : Order}
    (ho : s.order? n = some o) (hs : o.state = .recalling) (hvol : o.volume ≠ 0) (hf : o.restore = false) {v : View} {a : Account}
    {masked : List Nat} :
    let x : RecallSlot := ⟨volume, resolvedKey key c, [r], some c⟩
    let given := (s.fetchResident at_ i volume key [r] c).withOrder n (handedSlot i x)
    given.orderView (handedSlot i x o) = some v → s.fee.account? o.account = some a →
      given.holdCheck (handedSlot i x o) v = .passed masked →
      exec (.readVolumeEntryCompletion at_ (.done c)) s = .next (given.priced (handedSlot i x o) v a).close := by
  intro x given hv ha hc
  subst hr
  have hpriced := orderRecalled_priced (s := s.fetchResident at_ i volume key [.order n] c) (r := x) ho hs hvol hf
    (slot?_putSlot_some (s := s.fetchServed at_ i volume key) hi x) hv ha hc
  rw [exec_fetchDone_sole h hans hslot hk, recallGiven, hpriced]
  exact congrArg (fun t : State => Host.Outcome.next t.close) (settle_of_nil _ _ ((priced_blocks ..).1.trans h.2.1))

section Job

variable {n : Nat} (hr : r = .job n) {j : Job} (hj : s.job? n = some j)
include hr hj

/-- A job that its slot makes ready waits while another is active (R106). -/
theorem exec_fetchDone_job_ready {c : EntryCopy} (hi : i < s.vol.table.length)
    (hk : resolvedKey key c = key ∨ s.vol.holding volume (resolvedKey key c) = none) (hq : j.state = .queued)
    (hl : copyLevel c ≠ 3) (hsole : ∀ k ∈ s.eng.jobs, k.recallSlot ≠ some i) (hbusy : ∃ k ∈ s.eng.jobs, k.state.isActive = true) :
    exec (.readVolumeEntryCompletion at_ (.done c)) s =
      .next ((s.fetchResident at_ i volume key [r] c).handJob n i).close := by
  subst hr
  let resident := s.fetchResident at_ i volume key [.job n] c
  have hcopy : resident.vol.copy? i = some c := copy?_putSlot (s := s.fetchServed at_ i volume key) hi _
  have hserved : resident.servedBy? n i = none := List.find?_eq_none.2 fun k hk => by simp [hsole k hk]
  have hstill : ∃ k ∈ (resident.handJob n i).eng.jobs, k.state.isActive = true := by
    obtain ⟨k, hk, hactive⟩ := hbusy
    refine ⟨_, List.mem_map_of_mem hk, ?_⟩
    split <;> exact hactive
  have hagenda : resident.agenda = [] := h.2.1
  rw [exec_fetchDone_sole h hans hslot hk, recallGiven, jobRecalled_ready (s := resident) hj hq hcopy hl hserved,
    settle_push (s := resident.handJob n i) hagenda, runTask, startJob_busy hstill,
    settle_of_nil _ (resident.handJob n i) hagenda]

variable (hstill : s.Still) (ho : s.link.state = .online) (hc : j.creator = none) (hjoin : j.joiners = [])
  (hall : s.eng.jobs = [j])
include hstill ho hc hjoin hall

/-- A job on an entry of the highest level fails LEVEL_LIMIT. -/
theorem exec_fetchDone_job_top {c : EntryCopy} (hi : i < s.vol.table.length)
    (hk : resolvedKey key c = key ∨ s.vol.holding volume (resolvedKey key c) = none) (hq : j.state = .queued)
    (hl : copyLevel c = 3) :
    ∃ t, exec (.readVolumeEntryCompletion at_ (.done c)) s = .next t ∧ t.eng.jobs = [] ∧
      t.eng.finished.getLast?.map (fun k => (k.number, k.state, k.outcome)) = some (n, .failed, .levelLimit) ∧
      Raised s t .restoreFailed := by
  subst hr
  let resident := s.fetchResident at_ i volume key [.job n] c
  have hcopy : resident.vol.copy? i = some c := copy?_putSlot (s := s.fetchServed at_ i volume key) hi _
  have hagenda : resident.agenda = [] := h.2.1
  have hlink : resident.link.state = .online := (StoreLink.served_state ..).trans ho
  have hhanded := job?_handJob_self (s := resident) hj i
  have hended := jobEnded_failJob (s := resident.handJob n i) hstill hlink hhanded hc hjoin .levelLimit (by simp [hagenda])
    (k := 65534) (by simp [hagenda])
  refine ⟨_, by rw [exec_fetchDone_sole h hans hslot hk, recallGiven, jobRecalled_top (s := resident) hj hq hcopy hl], ?_,
    hended.last, hended.raised⟩
  refine hended.jobs_nil hhanded ((handJob_numbers resident n i).trans ?_)
  rw [show resident.eng.jobs = [j] from hall]
  rfl

/-- A job fails with the outcome of its fetch. -/
theorem exec_fetchFailed_job :
    ∃ t, exec (.readVolumeEntryCompletion at_ .notFound) s = .next t ∧ t.vol.slot? i = none ∧ t.eng.jobs = [] ∧
      t.eng.finished.getLast?.map (fun k => (k.number, k.state, k.outcome)) = some (n, .failed, .notInVolume) ∧
      Raised s t .restoreFailed := by
  subst hr
  let left : State := { (s.fetchServed at_ i volume key).putSlot i none with agenda := [.serveRecall] }
  have hlink : left.link.state = .online := (StoreLink.served_state ..).trans ho
  have hended := jobEnded_failJob (s := left) (n := n) hstill hlink hj hc hjoin .notInVolume (by simp [left, Task.Idle])
    (k := 65534) (by simp [left])
  refine ⟨_, (exec_fetchFailed_asked h hans hslot).trans ?_, hended.free i (slot?_putSlot_none _ i),
    hended.jobs_nil (j := j) hj (congrArg (List.map Job.number) hall), hended.last, hended.raised⟩
  rw [settle_of_cons (x := .recallFailed (.job n) .notInVolume) (rest := [.serveRecall]) 65534 rfl]
  rfl

end Job

end Sole

end State

end Sys2Proof.Machine
end

section
/-! READ VOLUME ENTRY's completion: the orders that its failure ends, and the slot that already holds the resolved key (O42). -/

namespace Sys2Proof.Machine

namespace State

/-! ### The orders that a failed fetch ends (R96, R138) -/

/-- At most 16 orders that end in one change are all in the finished list behind it. -/
theorem finished_close {s t : State} {fs : List Order} (ht : t.ord.finished = s.ord.finished ++ fs) (hlen : fs.length ≤ 16)
    {f : Order} (hf : f ∈ fs) : f ∈ t.close.ord.finished := by
  have htrim : t.close.ord.finished = t.ord.finished.drop (t.ord.finished.length - 16) := by
    unfold close send endWait
    split <;> rfl
  rw [htrim, ht, List.drop_append, List.mem_append]
  refine .inr ?_
  rw [show (s.ord.finished ++ fs).length - 16 - s.ord.finished.length = 0 by simp; omega]
  exact hf

theorem exec_fetchFailed_orders {s : State} {at_ : SlotTag} {i : Nat} {volume : U32} {key : EntryKey} {ns : List Nat}
    (h : s.Working) (hans : s.link.answered? at_ Op.isFetch = some (.readEntry i volume key))
    (hslot : s.vol.slot? i = some ⟨volume, key, ns.map Requester.order, none⟩) (hnd : ns.Nodup) (hlen : ns.length ≤ 16)
    (hstill : s.Still) (hlive : ∀ n ∈ ns, (s.order? n).isSome = true) :
    ∃ t, exec (.readVolumeEntryCompletion at_ .notFound) s = .next t ∧ t.vol.slot? i = none ∧
      (∀ n ∈ ns, t.order? n = none ∧ ∃ f ∈ t.ord.finished, f.number = n ∧ f.state = .ended ∧ f.outcome = .notInVolume) ∧
      (ns ≠ [] → Raised s t .orderEnded) := by
  let u : State := { (s.fetchServed at_ i volume key).putSlot i none with
    agenda := ns.map (fun n => .recallFailed (.order n) .notInVolume) ++ [.serveRecall] }
  have hends : OrdersFailed u (settle 65535 u) ns .notInVolume :=
    settle_ordersFailed .notInVolume ns u [.serveRecall] 65535 hstill rfl (by simp [Task.Idle])
      (by simp only [List.length_singleton]; omega) hnd hlive
  obtain ⟨fs, hfinished, hcount, hall⟩ := hends.finished
  refine ⟨(settle 65535 u).close, ?_, ?_, fun n hn => ⟨?_, ?_⟩, fun hne => ?_⟩
  · rw [exec_fetchFailed_asked h hans hslot, List.map_map]
    rfl
  · rw [close_vol]
    exact hends.free i (slot?_putSlot_none _ i)
  · rw [order?, close_live]
    exact hends.gone n hn
  · obtain ⟨f, hf, hfacts⟩ := hall n hn
    exact ⟨f, finished_close hfinished (hcount.trans_le hlen) hf, hfacts⟩
  · exact raised_close (hends.wait.trans rfl) (hends.latched (.inr hne))

/-! ### Another slot holds the resolved key (R94) -/

/-- Slot i is freed, and its requester has pinned slot k, whose content was there. -/
def movedPin (s : State) (i k : Nat) (there : RecallSlot) (r : Requester) : State :=
  { s with vol := { s.vol with
    table := (s.vol.table.set i none).set k (some { there with pinners := there.pinners ++ [r] })
    lru := s.vol.lru.filter fun x => x != k } }

/-- Pricing does not look at the consequences that are open. -/
theorem priced_push (s : State) (x : Task) (o : Order) (v : View) (a : Account) :
    (s.push x).priced o v a = (s.priced o v a).push x := by
  unfold priced sold
  simp only [apply_ite (fun t : State => t.push x)]
  rfl

theorem slot?_movedPin {s : State} {i k : Nat} {there : RecallSlot} (hthere : s.vol.slot? k = some there)
    (r : Requester) : (s.movedPin i k there r).vol.slot? k = some { there with pinners := there.pinners ++ [r] } := by
  have hlt : k < (s.vol.table.set i none).length := by
    rw [List.length_set]
    exact VolumeUnit.slot?_lt hthere
  exact slot?_putSlot_some (s := s.putSlot i none) hlt _

section Merge

variable {s : State} {i k : Nat} {volume : U32} {key : EntryKey} {r : Requester} {there : RecallSlot} {c : EntryCopy}
  (hslot : s.vol.slot? i = some ⟨volume, key, [r], none⟩) (hne : resolvedKey key c ≠ key)
  (hhold : s.vol.holding volume (resolvedKey key c) = some k) (hk : k ≠ i) (hthere : s.vol.slot? k = some there)
include hslot hne hhold hk hthere

/-- The requester moves to the slot that holds the resolved key, which it is handed at once when it is RESIDENT. -/
theorem fetchDone_merges : s.fetchDone i c =
    push (if there.copy.isSome then (s.movedPin i k there r).push (.recallGiven r k) else s.movedPin i k there r) .serveRecall := by
  have hfreed : (s.putSlot i none).vol.slot? k = some there := (slot?_putSlot_ne hk none).trans hthere
  have hpins : (s.putSlot i none).pinSlot r k =
      if there.copy.isSome then (s.movedPin i k there r).push (.recallGiven r k) else s.movedPin i k there r := by
    simp only [pinSlot, withRecall_set hfreed, hfreed, Option.any_some]
    rfl
  simp only [fetchDone, hslot, beq_iff_eq, if_neg hne, hhold, mergeSlot]
  exact congrArg (fun t : State => t.push .serveRecall) hpins

end Merge

section ExecMerge

variable {s : State} {at_ : SlotTag} {i k : Nat} {volume : U32} {key : EntryKey} {r : Requester} {there : RecallSlot} {c : EntryCopy}
  (h : s.Working) (hans : s.link.answered? at_ Op.isFetch = some (.readEntry i volume key))
  (hslot : s.vol.slot? i = some ⟨volume, key, [r], none⟩) (hne : resolvedKey key c ≠ key)
  (hhold : s.vol.holding volume (resolvedKey key c) = some k) (hk : k ≠ i) (hthere : s.vol.slot? k = some there)
include h hans hslot hne hhold hk hthere

theorem exec_fetchDone_joins (hwait : s.vol.recallWait = []) (hcopy : there.copy = none) :
    exec (.readVolumeEntryCompletion at_ (.done c)) s = .next ((s.fetchServed at_ i volume key).movedPin i k there r).close := by
  refine exec_fetchDone h hans ?_
  rw [fetchDone_merges (s := s.fetchServed at_ i volume key) hslot hne hhold hk hthere, hcopy]
  exact settle_serveRecall (by exact h.2.1) (by exact hwait) 65534

variable {c2 : EntryCopy} (hcopy : there.copy = some c2)
include hcopy

theorem exec_fetchDone_given : exec (.readVolumeEntryCompletion at_ (.done c)) s = .next
    (settle 65534 ((((s.fetchServed at_ i volume key).movedPin i k there r).push .serveRecall).recallGiven r k)).close := by
  let moved : State := (s.fetchServed at_ i volume key).movedPin i k there r
  have hagenda : moved.agenda = [] := h.2.1
  refine exec_fetchDone h hans ?_
  rw [fetchDone_merges (s := s.fetchServed at_ i volume key) hslot hne hhold hk hthere, hcopy, Option.isSome_some, if_pos rfl,
    settle_of_cons (s := (moved.push (.recallGiven r k)).push .serveRecall) (x := .recallGiven r k) (rest := [.serveRecall]) 65534
      (by simp [hagenda])]
  rw [show moved.push .serveRecall = { moved with agenda := [.serveRecall] } by rw [push, hagenda]; rfl]
  rfl

/-- An order that its hold check lets pass is priced. -/
theorem exec_fetchDone_given_order (hwait : s.vol.recallWait = []) {n : Nat} (hr : r = .order n) {o : Order}
    (ho : s.order? n = some o) (hs : o.state = .recalling) (hvol : o.volume ≠ 0) (hf : o.restore = false) {v : View} {a : Account}
    {masked : List Nat} :
    let given := ((s.fetchServed at_ i volume key).movedPin i k there r).withOrder n (handedSlot k there)
    given.orderView (handedSlot k there o) = some v → s.fee.account? o.account = some a →
      given.holdCheck (handedSlot k there o) v = .passed masked →
      exec (.readVolumeEntryCompletion at_ (.done c)) s = .next (given.priced (handedSlot k there o) v a).close := by
  intro given hv ha hc
  subst hr
  let moved : State := (s.fetchServed at_ i volume key).movedPin i k there (.order n)
  have hpriced := orderRecalled_priced (s := moved.push .serveRecall) (i := k) ho hs hvol hf
    (slot?_movedPin (s := s.fetchServed at_ i volume key) hthere (.order n)) hv ha hc
  obtain ⟨hagenda, -, hvolume, -⟩ := priced_blocks (s := given) (o := handedSlot k there o) (v := v) (a := a)
  rw [exec_fetchDone_given h hans hslot hne hhold hk hthere hcopy, recallGiven, hpriced]
  refine congrArg (fun t : State => Host.Outcome.next t.close) ?_
  refine (congrArg (settle 65534) (priced_push given .serveRecall (handedSlot k there o) v a)).trans ?_
  exact settle_serveRecall (hagenda.trans h.2.1) ((congrArg VolumeUnit.recallWait hvolume).trans hwait) 65533

/-- The slot is handed to the job while its own serving task stands behind. -/
theorem exec_fetchDone_given_job {n : Nat} (hr : r = .job n) {j : Job} (hj : s.job? n = some j) (hq : j.state = .queued)
    (hl : copyLevel c2 ≠ 3) {l : Job} (hserved : s.servedBy? n k = some l) :
    let given := (((s.fetchServed at_ i volume key).movedPin i k there r).push .serveRecall).handJob n k
    exec (.readVolumeEntryCompletion at_ (.done c)) s = .next (settle 65534
      (if s.eng.isBefore n l.number then (given.failJob l.number .duplicate).push .startJob
        else given.failJob n .duplicate)).close := by
  intro given
  subst hr
  have hcopied : ((s.fetchServed at_ i volume key).movedPin i k there (.job n)).vol.copy? k = some c2 := by
    rw [VolumeUnit.copy?, slot?_movedPin (s := s.fetchServed at_ i volume key) hthere (.job n), Option.bind_some]
    exact hcopy
  rw [exec_fetchDone_given h hans hslot hne hhold hk hthere hcopy, recallGiven]
  exact congrArg (fun t : State => Host.Outcome.next (settle 65534 t).close)
    (jobRecalled_served (s := ((s.fetchServed at_ i volume key).movedPin i k there (.job n)).push .serveRecall)
      hj hq hcopied hl hserved)

end ExecMerge

/-! ### Two jobs that one slot serves (R115) -/

/-- A queue of two jobs holds them in one order or in the other. -/
theorem jobs_two {s : State} {n : Nat} {j k : Job} (hj : s.job? n = some j) (hk : s.job? k.number = some k) (hne : k.number ≠ n)
    (hlen : s.eng.jobs.length = 2) : s.eng.jobs = [k, j] ∨ s.eng.jobs = [j, k] := by
  have hother : j ≠ k := fun he => hne (he ▸ job?_number hj)
  obtain ⟨a, b, hab⟩ := List.length_eq_two.1 hlen
  have hjmem : j ∈ [a, b] := hab ▸ List.mem_of_find?_eq_some hj
  have hkmem : k ∈ [a, b] := hab ▸ List.mem_of_find?_eq_some hk
  simp only [List.mem_cons, List.not_mem_nil, or_false] at hjmem hkmem
  rw [hab]
  rcases hjmem with rfl | rfl <;> rcases hkmem with rfl | rfl
  · exact absurd rfl hother
  · exact .inr rfl
  · exact .inl rfl
  · exact absurd rfl hother

section Two

variable {s : State} {n i : Nat} {j k : Job} (hne : k.number ≠ n) (hs : k.recallSlot = some i)
include hne hs

theorem servedBy?_earlier (hall : s.eng.jobs = [k, j]) : s.servedBy? n i = some k ∧ s.eng.isBefore n k.number = false := by
  simp [servedBy?, Engine.isBefore, hall, hs, hne, List.findIdx_cons]

theorem servedBy?_later (hj : j.number = n) (hall : s.eng.jobs = [j, k]) :
    s.servedBy? n i = some k ∧ s.eng.isBefore n k.number = true := by
  have hother : (n == k.number) = false := beq_false_of_ne hne.symm
  simp [servedBy?, Engine.isBefore, hall, hs, hne, hj, hother, List.findIdx_cons]

end Two

section Duplicate

variable {s : State} {at_ : SlotTag} {i i2 n : Nat} {volume : U32} {key : EntryKey} {there : RecallSlot} {c c2 : EntryCopy} {j k : Job}
  (h : s.Working) (hstill : s.Still) (ho : s.link.state = .online)
  (hans : s.link.answered? at_ Op.isFetch = some (.readEntry i volume key))
  (hslot : s.vol.slot? i = some ⟨volume, key, [.job n], none⟩) (hne : resolvedKey key c ≠ key)
  (hhold : s.vol.holding volume (resolvedKey key c) = some i2) (hi2 : i2 ≠ i) (hthere : s.vol.slot? i2 = some there)
  (hcopy : there.copy = some c2) (hl : copyLevel c2 ≠ 3) (hj : s.job? n = some j) (hq : j.state = .queued)
  (hk : s.job? k.number = some k) (hs : k.recallSlot = some i2) (hkn : k.number ≠ n)
include h hstill ho hans hslot hne hhold hi2 hthere hcopy hl hj hq hk hs hkn

/-- The job that the merge brings to the slot was accepted later, and fails. -/
theorem exec_fetchDone_duplicate_self (hc : j.creator = none) (hjoin : j.joiners = []) (hall : s.eng.jobs = [k, j]) :
    ∃ t, exec (.readVolumeEntryCompletion at_ (.done c)) s = .next t ∧ Raised s t .restoreFailed ∧
      t.job? n = none ∧ (t.job? k.number).isSome = true ∧
      t.eng.finished.getLast?.map (fun x => (x.number, x.state, x.outcome)) = some (n, .failed, .duplicate) := by
  let moved : State := ((s.fetchServed at_ i volume key).movedPin i i2 there (.job n)).push .serveRecall
  have hlink : moved.link.state = .online := (StoreLink.served_state ..).trans ho
  have hagenda : moved.agenda = [.serveRecall] := congrArg (· ++ [Task.serveRecall]) h.2.1
  obtain ⟨hserved, hbefore⟩ := servedBy?_earlier hkn hs hall
  have hended := jobEnded_failJob (s := moved.handJob n i2) hstill hlink (job?_handJob_self (s := moved) hj i2) hc hjoin .duplicate
    (by simp [hagenda, Task.Idle]) (k := 65534) (by simp [hagenda])
  have hkept : ((moved.handJob n i2).job? k.number).isSome = true := by
    rw [job?_handJob_ne moved hkn i2]
    exact Option.isSome_of_eq_some hk
  refine ⟨_, (exec_fetchDone_given_job h hans hslot hne hhold hi2 hthere hcopy rfl hj hq hl hserved).trans ?_,
    hended.raised, hended.gone, hended.kept hkn hkept, hended.last⟩
  rw [hbefore, if_neg Bool.false_ne_true]

/-- The job that the slot served before was accepted later, and fails. -/
theorem exec_fetchDone_duplicate_other (hc : k.creator = none) (hjoin : k.joiners = []) (hall : s.eng.jobs = [j, k]) :
    ∃ t, exec (.readVolumeEntryCompletion at_ (.done c)) s = .next t ∧ Raised s t .restoreFailed ∧
      t.job? k.number = none ∧ (t.job? n).isSome = true ∧
      t.eng.finished.getLast?.map (fun x => (x.number, x.state, x.outcome)) = some (k.number, .failed, .duplicate) := by
  let moved : State := ((s.fetchServed at_ i volume key).movedPin i i2 there (.job n)).push .serveRecall
  have hlink : moved.link.state = .online := (StoreLink.served_state ..).trans ho
  have hagenda : moved.agenda = [.serveRecall] := congrArg (· ++ [Task.serveRecall]) h.2.1
  obtain ⟨hserved, hbefore⟩ := servedBy?_later hkn hs (job?_number hj) hall
  have hother : (moved.handJob n i2).job? k.number = some k := (job?_handJob_ne moved hkn i2).trans hk
  have hended := (jobFailed_failJob (s := moved.handJob n i2) hstill hother hc hjoin .duplicate).ended hlink
    (by simp [hagenda, Task.Idle]) (extra := [.startJob]) (by simp) (k := 65534) (by simp [hagenda])
  have hkept : ((moved.handJob n i2).job? n).isSome = true := by
    rw [job?_handJob_self (s := moved) hj i2]
    rfl
  refine ⟨_, (exec_fetchDone_given_job h hans hslot hne hhold hi2 hthere hcopy rfl hj hq hl hserved).trans ?_,
    hended.raised, hended.gone, hended.kept hkn.symm hkept, hended.last⟩
  rw [hbefore, if_pos rfl]
  rfl

end Duplicate

end State

end Sys2Proof.Machine
end

section
/-! Recall slots are fetched and served (O42). -/

namespace Sys2Proof.Machine

namespace State

theorem order?_close (s : State) (n : Nat) : s.close.order? n = s.order? n := by rw [order?, order?, close_live]

theorem close_stmt (s : State) : s.close.stmt = s.stmt := by
  unfold close send endWait
  split <;> rfl

theorem handedSlot_page {o : Order} (hp : o.photo = none) (i : Nat) (r : RecallSlot) :
    handedSlot i r o = { o with recallSlot := some i, resolved := slotVersion r } := by
  simp [handedSlot, hp]

/-- The orders that wait for the slot are handed it and priced, in the order in which they pinned it. -/
theorem exec_fetchDone_orders {s : State} {at_ : SlotTag} {i : Nat} {volume : U32} {key : EntryKey} {c : EntryCopy} {ns : List Nat}
    (h : s.Working) (hans : s.link.answered? at_ Op.isFetch = some (.readEntry i volume key)) (hi : i < s.vol.table.length)
    (hslot : s.vol.slot? i = some ⟨volume, key, ns.map Requester.order, none⟩)
    (hk : resolvedKey key c = key ∨ s.vol.holding volume (resolvedKey key c) = none) (hne : ns ≠ []) (hnd : ns.Nodup)
    (hlen : ns.length ≤ 32) (hpages : ∀ n ∈ ns, s.AwaitsPage n) :
    let r : RecallSlot := ⟨volume, resolvedKey key c, ns.map Requester.order, some c⟩
    ∃ t, exec (.readVolumeEntryCompletion at_ (.done c)) s = .next t ∧
      t.vol = { s.vol with table := s.vol.table.set i (some r) } ∧
      (∀ n ∈ ns, ∀ o, s.order? n = some o → ∃ o', t.order? n = some o' ∧
        o' = { o with
          recallSlot := some i, resolved := slotVersion r, state := o'.state, masked := o'.masked, charged := o'.charged } ∧
        (o'.state = .heldRights ∨ o'.state = .heldStatement ∨ o'.state = .heldFunds ∨ o'.state = .charged)) ∧
      ((∀ n ∈ ns, (t.order? n).map Order.state = some .charged) →
        t.stmt.current.entries.map Entry.order = s.stmt.current.entries.map Entry.order ++ ns) := by
  have hasks : ns.map Requester.order ≠ [] := by simpa using hne
  have hrun := exec_fetchDone_asked h hans hslot hasks hk
  rw [List.map_map] at hrun
  have hgiven := ordersHanded_fetched (at_ := at_) (volume := volume) (key := key) (asking := ns.map Requester.order) (c := c) hi
    (by omega) hnd hpages
  refine ⟨_, hrun, (close_vol _).trans hgiven.vol, fun n hn o hord => ?_, fun hall => ?_⟩
  · obtain ⟨x, hx, -, -, hp, -⟩ := hpages n hn
    obtain rfl : x = o := Option.some.inj (hx.symm.trans hord)
    obtain ⟨o', ho', hform, hstate⟩ := hgiven.orders n hn x hx
    rw [handedSlot_page hp] at hform
    exact ⟨o', (order?_close _ n).trans ho', hform, hstate⟩
  · simp only [order?_close] at hall
    rw [close_stmt]
    exact hgiven.entries hall

end State

open State

/-- Settles O42: each completion of READ VOLUME ENTRY opens known consequences, hand-overs or failures for the slot's requesters and the
serving of the recall wait queue, which are followed one behind the other to the end of the change. -/
theorem recallSlotsAreFetchedAndServed : Obligations.RecallSlotsAreFetchedAndServed := by
  unfold Obligations.RecallSlotsAreFetchedAndServed
  refine ⟨?_, resolvedKey_page, ?_, ?_⟩
  · intro s at_ i volume key asking h ho hans hi hslot hwait served version fails
    refine ⟨?_, ?_, ?_, ?_, ?_⟩
    · intro c hk run resident
      refine ⟨?_, ?_, ?_, ?_⟩
      · rintro rfl
        exact exec_fetchDone_unasked h hans hslot hk hwait
      · rintro ns rfl hne hnd hlen hpages
        exact exec_fetchDone_orders h hans hi hslot hk hne hnd hlen hpages
      · rintro n o v a masked rfl hord hs hvol hf hand given hv ha hc
        exact exec_fetchDone_order h hans hslot hi hk rfl hord hs hvol hf hv ha hc
      · rintro n j level rfl hj hq hlevel
        have hcopied : copyLevel c = level := by cases c <;> exact hlevel
        subst hcopied
        refine ⟨fun hl hsole hbusy => ?_, fun hl hstill hc hjoin hall _ => ?_⟩
        · exact exec_fetchDone_job_ready h hans hslot rfl hj hi hk hq hl hsole hbusy
        · exact exec_fetchDone_job_top h hans hslot rfl hj hstill ho hc hjoin hall hi hk hq hl
    · rintro rfl
      exact exec_fetchFailed_unasked h hans hslot hwait
    · rintro ns rfl hnd hlen hstill hlive
      exact exec_fetchFailed_orders h hans hslot hnd hlen hstill fun n hn => by
        obtain ⟨o, hord, -⟩ := hlive n hn
        exact Option.isSome_of_eq_some hord
    · rintro n j rfl hj hstill hc hjoin hall
      exact exec_fetchFailed_job h hans hslot rfl hj hstill ho hc hjoin hall
    · rintro c i2 there r hne hhold hi2 hthere rfl run merged
      refine ⟨fun hcopy => ?_, ?_, ?_⟩
      · exact exec_fetchDone_joins h hans hslot hne hhold hi2 hthere hwait hcopy
      · intro n o v a masked hcopy hr hord hs hvol hf hand given hv ha hc
        obtain ⟨c2, hc2⟩ := Option.ne_none_iff_exists'.1 hcopy
        exact exec_fetchDone_given_order h hans hslot hne hhold hi2 hthere hc2 hwait hr hord hs hvol hf hv ha hc
      · rintro n j k c2 hcopy hlevel rfl hstill hlen hj hq hc hjoin hk hs hkn hkc hkjoin
        have hl : copyLevel c2 ≠ 3 := by cases c2 <;> exact hlevel
        have hjk : j ≠ k := fun he => hkn (he ▸ job?_number hj)
        rcases jobs_two hj hk hkn hlen with hall | hall
        · obtain ⟨t, hrun, hraised, hgone, hkept, hlast⟩ :=
            exec_fetchDone_duplicate_self h hstill ho hans hslot hne hhold hi2 hthere hcopy hl hj hq hk hs hkn hc hjoin hall
          exact ⟨t, hrun, hraised, fun _ => ⟨hgone, hkept, hlast⟩, fun hswap => absurd (hall.symm.trans hswap) (by simp [hjk.symm])⟩
        · obtain ⟨t, hrun, hraised, hgone, hkept, hlast⟩ :=
            exec_fetchDone_duplicate_other h hstill ho hans hslot hne hhold hi2 hthere hcopy hl hj hq hk hs hkn hkc hkjoin hall
          exact ⟨t, hrun, hraised, fun hswap => absurd (hall.symm.trans hswap) (by simp [hjk]), fun _ => ⟨hgone, hkept, hlast⟩⟩
  · intro s at_ i k x volume key w h hans hslot hr hh link fetch hl
    exact ⟨exec_fetchFailed_serves h hans hslot hr hh hl, fun c rest hk hfull hlru =>
      exec_fetchDone_serves h hans hslot hr hh hl hk hfull hlru⟩
  · intro s r volume key i k h hr hh hi hl
    exact exec_recallWaitServe h hr hh hi hl

end Sys2Proof.Machine
end

section
/-! The tone stretch (O45): the counts of a body's samples, the points that they and the parameters give, and the map of a sample. -/

namespace Sys2Proof.Machine

/-! ### The histogram (R109) -/

theorem foldl_modify_count (body : List U8) (h : List Nat) (v : Nat) :
    (body.foldl (fun h x => h.modify x.toNat (· + 1)) h)[v]? = h[v]?.map (· + body.countP fun x => x.toNat == v) := by
  induction body generalizing h with
  | nil => simp
  | cons x xs ih =>
    rw [List.foldl_cons, ih, List.getElem?_modify, List.countP_cons]
    by_cases hx : x.toNat = v
    · simp only [hx, if_true, Option.map_eq_map, Option.map_map, beq_self_eq_true]
      congr 1
      funext k
      simp only [Function.comp]
      omega
    · simp [hx]

/-- Each value's count is the number of samples that have it. -/
theorem histogramOf_eq (body : List U8) :
    histogramOf body = (List.range 256).map fun v => body.countP fun x => x.toNat == v := by
  refine List.ext_getElem? fun v => ?_
  rw [histogramOf, foldl_modify_count, List.getElem?_map, List.getElem?_replicate]
  by_cases hv : v < 256
  · rw [if_pos hv, List.getElem?_range hv, Option.map_some, Option.map_some, Nat.zero_add]
  · rw [if_neg hv, List.getElem?_eq_none (by rw [List.length_range]; omega)]
    rfl

/-- The samples up to a value: cum(v) of the rule. -/
def cumulative (body : List U8) (v : Nat) : Nat := body.countP fun x => decide (x.toNat ≤ v)

theorem cumulative_succ (body : List U8) (v : Nat) :
    cumulative body (v + 1) = cumulative body v + body.countP fun x => x.toNat == v + 1 := by
  induction body with
  | nil => rfl
  | cons x xs ih =>
    unfold cumulative at ih ⊢
    simp only [List.countP_cons, ih, decide_eq_true_eq, beq_iff_eq]
    split_ifs <;> omega

/-- No sample is above 255. -/
theorem cumulative_top (body : List U8) : cumulative body 255 = body.length := by
  rw [cumulative, List.countP_eq_length]
  intro x _
  have hx := x.isLt
  simp only [decide_eq_true_eq]
  omega

/-- The first counts of a histogram add up to the cumulative count. -/
theorem sum_take_histogramOf (body : List U8) {v : Nat} (h : v < 256) :
    ((histogramOf body).take (v + 1)).sum = cumulative body v := by
  rw [histogramOf_eq, ← List.map_take, List.take_range, Nat.min_eq_left (by omega : v + 1 ≤ 256)]
  clear h
  induction v with
  | zero => simp [cumulative, beq_eq_decide]
  | succ v ih => rw [List.range_succ, List.map_append, List.sum_append, ih, cumulative_succ]; simp

theorem sum_histogramOf (body : List U8) : (histogramOf body).sum = body.length := by
  have h := sum_take_histogramOf body (v := 255) (by omega)
  rwa [List.take_of_length_le (by rw [histogramOf_length]), cumulative_top] at h

/-! ### The first value that meets a test (R109) -/

/-- Where the whole count meets the test, the value found is the first whose count up to it does. -/
theorem firstValue_spec (test : Nat → Bool) : ∀ (l : List Nat) (v cum : Nat), l ≠ [] → test (cum + l.sum) = true →
    ∃ k, k < l.length ∧ firstValue test l v cum = v + k ∧ test (cum + (l.take (k + 1)).sum) = true ∧
      ∀ i, i < k → test (cum + (l.take (i + 1)).sum) = false
  | h :: rest, v, cum, _, ht => by
    unfold firstValue
    split
    · next hfirst => exact ⟨0, by simp, rfl, by simpa using hfirst, nofun⟩
    · next hfirst =>
      have hrest : rest ≠ [] := by
        rintro rfl
        exact hfirst (by simpa using ht)
      obtain ⟨k, hk, hv, hmeets, hbelow⟩ := firstValue_spec test rest (v + 1) (cum + h) hrest (by simpa [Nat.add_assoc] using ht)
      refine ⟨k + 1, by simpa using hk, by omega, by simpa [Nat.add_assoc] using hmeets, fun i hi => ?_⟩
      cases i with
      | zero => simpa using hfirst
      | succ i => simpa [Nat.add_assoc] using hbelow i (by omega)

/-- On a body, with a test that its whole length meets. -/
theorem firstValue_histogramOf (test : Nat → Bool) (body : List U8) (h : test body.length = true) :
    ∃ k, k ≤ 255 ∧ firstValue test (histogramOf body) 0 0 = k ∧ test (cumulative body k) = true ∧
      ∀ i, i < k → test (cumulative body i) = false := by
  have hlen := histogramOf_length body
  obtain ⟨k, hk, hv, hmeets, hbelow⟩ := firstValue_spec test (histogramOf body) 0 0 (by rintro hnil; simp [hnil] at hlen)
    (by rw [sum_histogramOf, Nat.zero_add]; exact h)
  rw [hlen] at hk
  rw [Nat.zero_add, sum_take_histogramOf body hk] at hmeets
  refine ⟨k, by omega, by omega, hmeets, fun i hi => ?_⟩
  have := hbelow i hi
  rwa [Nat.zero_add, sum_take_histogramOf body (by omega)] at this

/-! ### Points and map (R109, R110) -/

/-- The points widened to the span (R109, step 3). -/
theorem pointsOf_spec {body : List U8} {low high : Nat} (span : Nat) (hne : body ≠ []) (hl : low ≤ 100) (hh : 900 ≤ high)
    (hh' : high ≤ 1000) : ∃ b w, b ≤ w ∧ w ≤ 255 ∧
      body.length * low < cumulative body b * 1000 ∧ (∀ v, v < b → cumulative body v * 1000 ≤ body.length * low) ∧
      body.length * high ≤ cumulative body w * 1000 ∧ (∀ v, v < w → cumulative body v * 1000 < body.length * high) ∧
      pointsOf (histogramOf body) low high span =
        if span ≤ w - b then ⟨b, w⟩ else if b + span ≤ 255 then ⟨b, b + span⟩ else ⟨255 - span, 255⟩ := by
  have hpos : 0 < body.length := List.length_pos_iff.2 hne
  have hlow : body.length * low < body.length * 1000 := Nat.mul_lt_mul_of_pos_left (by omega) hpos
  have hhigh : body.length * high ≤ body.length * 1000 := Nat.mul_le_mul_left _ hh'
  have hgap : body.length * low < body.length * high := Nat.mul_lt_mul_of_pos_left (by omega) hpos
  obtain ⟨b, hb, hbv, hbm, hbb⟩ := firstValue_histogramOf (fun c => decide (body.length * low < c * 1000)) body (decide_eq_true hlow)
  obtain ⟨w, hw, hwv, hwm, hwb⟩ := firstValue_histogramOf (fun c => decide (body.length * high ≤ c * 1000)) body
    (decide_eq_true hhigh)
  simp only [decide_eq_true_eq, decide_eq_false_iff_not, not_lt, not_le] at hbm hbb hwm hwb
  have hle : b ≤ w := by
    by_contra hlt
    have := hbb w (by omega)
    omega
  refine ⟨b, w, hle, hw, hbm, hbb, hwm, hwb, ?_⟩
  simp only [pointsOf, sum_histogramOf, hbv, hwv, ← not_lt (a := 255), ite_not]

theorem widened_bounds {b w span : Nat} (hle : b ≤ w) (hw : w ≤ 255) (hs : span ≤ 128) :
    let p : Points := if span ≤ w - b then ⟨b, w⟩ else if b + span ≤ 255 then ⟨b, b + span⟩ else ⟨255 - span, 255⟩
    p.b + span ≤ p.w ∧ p.w ≤ 255 := by
  dsimp only
  split_ifs <;> constructor <;> dsimp only <;> omega

theorem stretch_low {p : Points} {x : U8} (h : x.toNat ≤ p.b) : stretch p x = 0 := if_pos h

theorem stretch_high {p : Points} {x : U8} (hp : p.b < p.w) (h : p.w ≤ x.toNat) : stretch p x = 255 :=
  (if_neg (by omega)).trans (if_pos h)

/-- The third form stays below 256. -/
theorem stretch_between {p : Points} {x : U8} (hb : p.b < x.toNat) (hw : x.toNat < p.w) :
    (stretch p x).toNat = ((x.toNat - p.b) * 510 + (p.w - p.b)) / (2 * (p.w - p.b)) := by
  have hsmall : ((x.toNat - p.b) * 510 + (p.w - p.b)) / (2 * (p.w - p.b)) < 256 := by
    rw [Nat.div_lt_iff_lt_mul (by omega)]
    omega
  rw [stretch, if_neg (by omega), if_neg (by omega), BitVec.toNat_ofNat, Nat.mod_eq_of_lt hsmall]

/-- Settles O45. -/
theorem pointsAndToneStretch : Obligations.PointsAndToneStretch := by
  unfold Obligations.PointsAndToneStretch
  intro body low high span hne hl hh hh' h8 hs cum p
  obtain ⟨b, w, hle, hw, hbm, hbb, hwm, hwb, hp⟩ := pointsOf_spec span hne hl hh hh'
  have hbounds := widened_bounds hle hw hs
  rw [← hp] at hbounds
  refine ⟨⟨b, w, hle, hw, hbm, hbb, hwm, hwb, hp⟩, hbounds.1, hbounds.2, fun x => ⟨stretch_low, ?_, stretch_between⟩⟩
  have hspan : p.b + span ≤ p.w := hbounds.1
  exact stretch_high (by omega)

end Sys2Proof.Machine
end

section
/-! The targets that RESTORE and REVERT name, and RESTORE's checks in their order (O43, O46). -/

namespace Sys2Proof.Machine

/-! ### The target fields (R102, R103, R116) -/

/-- The target fields are in range (R102, check 2). -/
abbrev TargetInRange (t : TargetFields) : Prop :=
  t.kind = 1 ∧ t.key.edition.code.toNat ≤ 15 ∧ 1 ≤ t.key.page.toNat ∧ t.key.page.toNat ≤ 128 ∧ t.key.version.toNat ≤ 7 ∨
    t.kind = 2 ∧ t.photo ≠ 0

theorem targetInRange_iff {t : TargetFields} : targetInRange t = true ↔ TargetInRange t := by
  rw [targetInRange, Bool.or_eq_true, Bool.and_eq_true, Bool.and_eq_true, beq_iff_eq, beq_iff_eq, bne_iff_ne,
    pageKeyInRange_iff]

theorem kind_ne_page {t : TargetFields} (h : t.kind = 2) : t.kind ≠ 1 := by
  rw [h]
  decide

namespace Catalogue

variable {c : Catalogue}

/-! ### The page record that a key names (R8, R103) -/

section Resolve

variable {slot page version : Nat} {p : Page}

theorem resolve_uncurrent (hv : version = 0) (hp : c.current? slot page = none) :
    c.resolve slot page version = .error .notFiled := (if_pos hv).trans (by rw [hp])

theorem resolve_unknown (hv : version ≠ 0) (hp : c.page? slot page version = none) :
    c.resolve slot page version = .error .notFound := (if_neg hv).trans (by rw [hp])

theorem resolve_unfiled (hv : version ≠ 0) (hp : c.page? slot page version = some p) (hs : p.state ≠ .filed) :
    c.resolve slot page version = .error .notFiled := (if_neg hv).trans (by rw [hp]; exact if_neg (by simpa using hs))

theorem resolve_named (h : version = 0 ∧ c.current? slot page = some p ∨
    version ≠ 0 ∧ p.state = .filed ∧ c.page? slot page version = some p) : c.resolve slot page version = .ok p := by
  rcases h with ⟨hv, hp⟩ | ⟨hv, hs, hp⟩
  · exact (if_pos hv).trans (by rw [hp])
  · exact (if_neg hv).trans (by rw [hp]; exact if_pos (by simpa using hs))

end Resolve

/-! ### The resident target that the fields name (R103, R116) -/

variable {t : TargetFields} {turnedAway : EdState → Option Code}

section Photo

variable (hk : t.kind = 2)
include hk

theorem targetOf_photo_unknown (hp : c.photo? t.photo = none) : c.targetOf t turnedAway = .error .notFound :=
  (if_neg (kind_ne_page hk)).trans (by rw [photoTarget, hp])

theorem targetOf_photo_unfiled {p : Photo} (hp : c.photo? t.photo = some p) (hs : p.state ≠ .filed) :
    c.targetOf t turnedAway = .error .notFiled :=
  (if_neg (kind_ne_page hk)).trans (by rw [photoTarget, hp]; exact if_neg (by simpa using hs))

theorem targetOf_photo_filed {p : Photo} (hp : c.photo? t.photo = some p) (hs : p.state = .filed) :
    c.targetOf t turnedAway = .ok (.photo t.photo) :=
  (if_neg (kind_ne_page hk)).trans (by rw [photoTarget, hp]; exact if_pos (by simpa using hs))

end Photo

section Page

variable (hk : t.kind = 1)
include hk

theorem targetOf_page_unknown (hs : c.slotOf t.key.edition = none) : c.targetOf t turnedAway = .error .notFound :=
  (if_pos hk).trans (by rw [pageTarget, hs]; rfl)

variable {slot : Nat} {e : Edition} (hs : c.slotOf t.key.edition = some slot) (he : c.edition? slot = some e)
include hs he

theorem targetOf_page_turnedAway {code : Code} (ha : turnedAway e.state = some code) :
    c.targetOf t turnedAway = .error code :=
  (if_pos hk).trans (by simp only [pageTarget, hs, he, Option.bind_some, Option.map_some, ha])

variable (ha : turnedAway e.state = none)
include ha

theorem targetOf_page : c.targetOf t turnedAway =
    (c.resolve slot t.key.page.toNat t.key.version.toNat).map fun p => .page slot p.number p.version :=
  (if_pos hk).trans (by simp only [pageTarget, hs, he, Option.bind_some, Option.map_some, ha])

theorem targetOf_page_refused {code : Code} (hr : c.resolve slot t.key.page.toNat t.key.version.toNat = .error code) :
    c.targetOf t turnedAway = .error code := by
  rw [targetOf_page hk hs he ha, hr]
  rfl

theorem targetOf_page_named {p : Page} (hr : c.resolve slot t.key.page.toNat t.key.version.toNat = .ok p) :
    c.targetOf t turnedAway = .ok (.page slot p.number p.version) := by
  rw [targetOf_page hk hs he ha, hr]
  rfl

end Page

end Catalogue

/-! ### Versions as the fields carry them -/

theorem version_eq_zero_iff {v : U8} : v.toNat = 0 ↔ v = 0 := by
  rw [← BitVec.toNat_inj]
  rfl

namespace State

/-! ### RESTORE by its cases (R102 to R104) -/

theorem clampTo_zero (high n : Nat) : clampTo 0 high n = min high n := Nat.zero_max _

/-- The low clip, the high clip and the least span as RESTORE clamps them (R102). -/
abbrev lowClip (l : U16) : Nat := min 100 l.toNat
abbrev highClip (h : U16) : Nat := max 900 (min 1000 h.toNat)
abbrev leastSpan (sp : U8) : Nat := max 8 (min 128 sp.toNat)

section Restore

variable {s : State} {tag : U8} {t : TargetFields} {l h : U16} {sp : U8}

theorem restore_notInService (hm : s.req.mode ≠ .service) : s.restore tag t l h sp = s.refuse 0x70 tag .notInService :=
  if_pos (by simpa [inService] using hm)

variable (hm : s.req.mode = .service)
include hm

theorem restore_outOfRange (hr : ¬TargetInRange t) : s.restore tag t l h sp = s.refuse 0x70 tag .outOfRange :=
  (if_neg (not_inService_of_service hm)).trans (if_pos (by simpa [← targetInRange_iff] using hr))

variable (hr : TargetInRange t)
include hr

theorem restore_refused {code : Code} (ht : s.restoreTarget t = .error code) :
    s.restore tag t l h sp = s.refuse 0x70 tag code :=
  (if_neg (not_inService_of_service hm)).trans ((if_neg (by simpa using targetInRange_iff.2 hr)).trans (by rw [ht]))

theorem restore_on {x : Target} (ht : s.restoreTarget t = .ok x) :
    s.restore tag t l h sp = s.restoreOn tag x (lowClip l) (highClip h) (leastSpan sp) := by
  refine (if_neg (not_inService_of_service hm)).trans ((if_neg (by simpa using targetInRange_iff.2 hr)).trans ?_)
  rw [ht, clampTo_zero]
  rfl

end Restore

theorem restoreTarget_resident {s : State} {t : TargetFields} (hv : t.volume = 0) :
    s.restoreTarget t = s.cat.targetOf t restoreRefuses := if_pos hv

theorem restoreTarget_sealed {s : State} {t : TargetFields} (hv : t.volume ≠ 0) :
    s.restoreTarget t = .ok (.sealed t.volume (sealedKey t)) := if_neg hv

/-! ### RESTORE's last checks (R102, checks 4 to 6) -/

/-- The reply of an accepted RESTORE: the job number, the parameters and the number of jobs ahead (R104). -/
abbrev restoreFields (s : State) (l h : U16) (sp : U8) : List U8 :=
  u16 s.eng.nextJob ++ u16 (lowClip l) ++ u16 (highClip h) ++ u8 (leastSpan sp) ++ u8 s.eng.jobs.length

section Checks

variable {s : State} {tag : U8} {t : TargetFields} {l h : U16} {sp : U8} (hready : s.Ready (.restore tag t l h sp))
include hready

theorem exec_restore_notInService (hm : s.req.mode ≠ .service) :
    exec (.restore tag t l h sp) s = .next (s.replied 0x70 tag .notInService []) :=
  request_replies hready (restore_notInService (s := s.popped) hm)

variable (hm : s.req.mode = .service)
include hm

theorem exec_restore_outOfRange (hr : ¬TargetInRange t) :
    exec (.restore tag t l h sp) s = .next (s.replied 0x70 tag .outOfRange []) :=
  request_replies hready (restore_outOfRange (s := s.popped) hm hr)

variable (hr : TargetInRange t)
include hr

theorem exec_restore_refused {code : Code} (ht : s.restoreTarget t = .error code) :
    exec (.restore tag t l h sp) s = .next (s.replied 0x70 tag code []) :=
  request_replies hready (restore_refused (s := s.popped) hm hr ht)

variable {x : Target} (ht : s.restoreTarget t = .ok x)
include ht

theorem exec_restore_duplicate (hj : (s.jobOn? x).isSome = true) :
    exec (.restore tag t l h sp) s = .next (s.replied 0x70 tag .duplicate []) :=
  request_replies hready ((restore_on (s := s.popped) hm hr ht).trans (if_pos hj))

variable (hj : s.jobOn? x = none)
include hj

theorem exec_restore_levelLimit (hl : s.targetLevel x = 3) :
    exec (.restore tag t l h sp) s = .next (s.replied 0x70 tag .levelLimit []) :=
  request_replies hready ((restore_on (s := s.popped) hm hr ht).trans
    ((if_neg (by show ¬(s.jobOn? x).isSome = true; simp [hj])).trans (if_pos hl)))

variable (hl : s.targetLevel x ≠ 3)
include hl

theorem exec_restore_full (h8 : 8 ≤ s.eng.jobs.length) :
    exec (.restore tag t l h sp) s = .next (s.replied 0x70 tag .tableFull []) :=
  request_replies hready ((restore_on (s := s.popped) hm hr ht).trans
    ((if_neg (by show ¬(s.jobOn? x).isSome = true; simp [hj])).trans ((if_neg hl).trans (if_pos h8))))

omit hready in
/-- An accepted RESTORE creates its job. -/
theorem restore_creates (h8 : s.eng.jobs.length < 8) : s.restore tag t l h sp =
    (s.createJob x (lowClip l) (highClip h) (leastSpan sp) none).answer 0x70 tag .ok (s.restoreFields l h sp) :=
  (restore_on hm hr ht).trans
    ((if_neg (by simp [hj])).trans ((if_neg hl).trans (if_neg (by simpa [Config.jobs] using h8))))

end Checks

end State

end Sys2Proof.Machine
end

section
/-! The change in which RESTORE creates a job, and the engine's start behind it (O43). -/

namespace Sys2Proof.Machine

namespace State

/-! ### Consequences that open no other -/

/-- The consequence leads from s to t and opens none, whatever consequences are open. -/
def Leads (s : State) (x : Task) (t : State) : Prop :=
  ∀ a : List Task, runTask { s with agenda := a } x = { t with agenda := a }

theorem settle_leads {s t : State} {x : Task} (h : s.Leads x t) (n : Nat) (rest : List Task) :
    settle (n + 1) { s with agenda := x :: rest } = settle n { t with agenda := rest } :=
  (settle_of_cons n rfl).trans (congrArg (settle n) (h rest))

/-! ### The engine's test for a start finds nothing to do (R106) -/

/-- No start while no QUEUED job is ready. -/
theorem startJob_unready {s : State} (h : ∀ k ∈ s.eng.jobs, k.state = .queued → k.isReady = false) : s.startJob = s := by
  unfold startJob
  split
  · rfl
  · rw [List.find?_eq_none.2 fun k hk => by simpa using h k hk]

theorem leads_startJob_busy {s : State} (h : ∃ k ∈ s.eng.jobs, k.state.isActive = true) : s.Leads .startJob s :=
  fun a => startJob_busy (s := { s with agenda := a }) h

/-! ### A created job and the number after it (R101, R104) -/

/-- A job that RESTORE creates, with the slot that serves it, if one does. -/
def newJob (s : State) (x : Target) (slot : Option Nat) (low high span : Nat) : Job :=
  ⟨s.eng.nextJob, .queued, x, slot, low, high, span, none, [], 0, 0, none, .pending, s.cat.editionOf x⟩

/-- The number given next once the job has joined the queue. -/
def nextAfter (s : State) (j : Job) : Nat :=
  Engine.freeNumber { s.eng with jobs := s.eng.jobs ++ [j] } 17 (nextNumber s.eng.nextJob)

theorem advances_nextAfter {s : State} (h : s.eng.Sound) (room : s.eng.jobs.length < 8) {j : Job}
    (hj : j.number = s.eng.nextJob) : s.eng.Advances s.eng.nextJob (s.nextAfter j) :=
  (h.2.2.advances j hj room).1

theorem number_ne_nextJob {e : Engine} (h : e.Sound) : ∀ k ∈ e.jobs, k.number ≠ e.nextJob := by
  obtain ⟨-, -, -, -, -, hnodup⟩ := h
  intro k hk he
  exact (List.nodup_cons.1 hnodup).1 (List.mem_append_left _ (he ▸ List.mem_map_of_mem hk))

/-! ### A request that creates a ready job (R104, R106) -/

section Created

variable {s u : State} {c : Instr} {body : State → State} {kind tag : U8} {fields : List U8} {j : Job} {v : View} {next : Nat}

/-- A request whose change queues the job, ready on a target of the view, and tests for a start. -/
theorem jobCreated_of_start (h : s.Ready c) (hm : s.req.mode = .service)
    (hu : u.formed = s.formed ∧ u.port = s.port ∧ u.req = s.req ∧ u.agenda = s.agenda) (hc : u.Calm)
    (hnew : ∀ k ∈ u.eng.jobs, k.number ≠ j.number) (hadv : u.eng.Advances j.number next) (hq : j.state = .queued)
    (hr : j.isReady = true) (hv : (u.queuedAs j next).jobView j = some v)
    (hbody : ∀ x : State, ((u.popped.answer kind tag .ok fields).queuedAs j next).Leads .startJob x → x.Leads .startJob x →
      x.agenda = [] → (body s.popped).settled = x) :
    JobCreated u j v (fun x => request c body s = .next (x.replied kind tag .ok fields))
      fun x => request c body s = .next (x.answered kind tag .ok fields) := by
  have hagenda : u.agenda = [] := hu.2.2.2.trans h.1.1.1
  have hactive (w : State) {st : JobState} (hst : st.isActive = true) :
      ∃ k ∈ (w.queuedAs (j.started v st) next).eng.jobs, k.state.isActive = true := ⟨j.started v st, by simp, hst⟩
  refine ⟨next, hadv, fun hbusy => ?_, fun hidle => ⟨fun i hclaims hfits hl => ?_, fun hwait => ?_⟩⟩
  · have hstays : ((u.popped.answer kind tag .ok fields).queuedAs j next).Leads .startJob
        ((u.popped.answer kind tag .ok fields).queuedAs j next) := by
      obtain ⟨k, hk, hactive⟩ := hbusy
      exact leads_startJob_busy ⟨k, List.mem_append_left _ hk, hactive⟩
    exact SameFrame.request_replied (u := u) (x := u.queuedAs j next) h hm ⟨rfl, rfl, rfl, rfl, rfl, rfl, rfl⟩ hu hc rfl
      (hbody _ hstays hstays hagenda)
  · refine SameFrame.request_answered (u := u) h hm ⟨rfl, rfl, rfl, rfl, rfl, rfl, rfl⟩ hu
      (hbody _ (fun a => ?_) (leads_startJob_busy (hactive _ rfl)) hagenda)
    exact startJob_fits (u := { u.popped.answer kind tag .ok fields with agenda := a }) hidle hq hr hnew hv hclaims hfits hl
  · refine SameFrame.request_replied (u := u) h hm ⟨rfl, rfl, rfl, rfl, rfl, rfl, rfl⟩ hu hc rfl
      (hbody _ (fun a => ?_) (leads_startJob_busy (hactive _ rfl)) hagenda)
    exact startJob_waits (u := { u.popped.answer kind tag .ok fields with agenda := a }) hidle hq hr hnew hv hwait

end Created

/-! ### RESTORE creates its job (R104) -/

section Restore

variable {s : State} {tag : U8} {t : TargetFields} {l h : U16} {sp : U8} (hready : s.Ready (.restore tag t l h sp))
  (hm : s.req.mode = .service) (hr : TargetInRange t) {x : Target} (ht : s.restoreTarget t = .ok x) (hj : s.jobOn? x = none)
  (hl : s.targetLevel x ≠ 3) (h8 : s.eng.jobs.length < 8) (hs : s.eng.Sound)

/-- The job that RESTORE creates on the target. -/
abbrev restoreJob (s : State) (x : Target) (slot : Option Nat) (l h : U16) (sp : U8) : Job :=
  s.newJob x slot (lowClip l) (highClip h) (leastSpan sp)

include hm hr ht hj hl h8

/-- The job joins the queue and takes its hold, and the engine tests for a start. -/
theorem restore_eq : s.popped.restore tag t l h sp = push (answer
    (holdTarget (s.popped.queuedAs (s.restoreJob x none l h sp) (s.nextAfter (s.restoreJob x none l h sp))) s.eng.nextJob x)
    0x70 tag .ok (s.restoreFields l h sp)) .startJob := restore_creates (s := s.popped) hm hr ht hj hl h8

include hready hs

/-- A job on a resident target, which it pins, is ready at once. -/
theorem restore_jobCreated {f : Catalogue → Catalogue} {v : View} (hhold : ∀ (y : State) (n : Nat), y.holdTarget n x = y.withCat f)
    (hresident : (s.restoreJob x none l h sp).isReady = true)
    (hv : ∀ next, (queuedAs { s with cat := f s.cat } (s.restoreJob x none l h sp) next).jobView (s.restoreJob x none l h sp) =
      some v) :
    JobCreated { s with cat := f s.cat } (s.restoreJob x none l h sp) v
      (fun u => exec (.restore tag t l h sp) s = .next (u.replied 0x70 tag .ok (s.restoreFields l h sp)))
      fun u => exec (.restore tag t l h sp) s = .next (u.answered 0x70 tag .ok (s.restoreFields l h sp)) := by
  have hcalm : State.Calm { s with cat := f s.cat } :=
    SameFrame.calm (u := s) ⟨rfl, rfl, rfl, rfl, rfl, rfl, rfl⟩ hready.1.1 hm rfl
  refine jobCreated_of_start (u := { s with cat := f s.cat }) (body := fun s => s.restore tag t l h sp) hready hm ⟨rfl, rfl, rfl, rfl⟩
    hcalm (number_ne_nextJob hs) (advances_nextAfter hs h8 (j := s.restoreJob x none l h sp) rfl) rfl hresident (hv _)
    fun y hstart _ hagenda => ?_
  show (s.popped.restore tag t l h sp).settled = y
  rw [restore_eq hm hr ht hj hl h8, hhold]
  rw [settled_push (by exact hready.1.1.1)]
  refine (congrArg (settle 65535) (hstart s.agenda)).trans ?_
  rw [hready.1.1.1, show ({ y with agenda := [] } : State) = y from agenda_of_nil hagenda, settle_of_nil _ y hagenda]

end Restore

end State

end Sys2Proof.Machine
end

section
/-! RESTORE of a sealed entry: the job that a RESIDENT slot is handed to at once, and the one that waits for its recall; and JOB START
(O43). -/

namespace Sys2Proof.Machine

namespace State

/-! ### A recall asked for (R93) -/

/-- The recall table once a requester has pinned slot i, whose content was x. -/
abbrev pinnedSlot (v : VolumeUnit) (i : Nat) (x : RecallSlot) (r : Requester) : VolumeUnit :=
  { v with table := v.table.set i (some { x with pinners := x.pinners ++ [r] }), lru := v.lru.filter fun y => y != i }

theorem pinSlot_eq {s : State} {r : Requester} {i : Nat} {x : RecallSlot} (hx : s.vol.slot? i = some x) : s.pinSlot r i =
    if x.copy.isSome then push { s with vol := pinnedSlot s.vol i x r } (.recallGiven r i)
    else { s with vol := pinnedSlot s.vol i x r } := by
  simp only [pinSlot, withRecall_set hx, hx, Option.any_some]

section Request

variable {s : State} {w : RecallWaiter}

/-- A slot that holds the key is pinned. -/
theorem requestRecall_held {i : Nat} (hh : s.vol.holding w.volume w.key = some i) : s.requestRecall w = s.pinSlot w.requester i := by
  simp [requestRecall, tryServe, hh]

theorem fetch_takes {k : Nat} (hl : s.link.Takes k) (i : Nat) : s.fetch i w = { s with
    vol := { s.vol with table := s.vol.table.set i (some ⟨w.volume, w.key, [w.requester], none⟩) }
    link := s.link.occupy k (.readEntry i w.volume w.key) } := handOff_takes (s := { s with vol := _ }) hl rfl

variable (hh : s.vol.holding w.volume w.key = none)
include hh

/-- With no FREE slot the key is fetched into the slot that was unpinned longest ago. -/
theorem requestRecall_evicts {i : Nat} {rest : List Nat} (hr : s.vol.recallWait = [])
    (hfull : s.vol.table.findIdx? Option.isNone = none) (hlru : s.vol.lru = i :: rest) :
    s.requestRecall w = fetch { s with vol := { s.vol with lru := rest } } i w := by
  simp [requestRecall, tryServe, hr, hh, hfull, hlru]

/-- Behind other requesters, or with no slot to be had, the requester joins the recall wait queue. -/
theorem requestRecall_waits
    (hr : s.vol.recallWait ≠ [] ∨ s.vol.table.findIdx? Option.isNone = none ∧ s.vol.lru = []) :
    s.requestRecall w = s.joinRecallWait w := by
  rcases hr with hr | ⟨hfull, hlru⟩
  · simp [requestRecall, hh, hr]
  · simp [requestRecall, tryServe, hh, hfull, hlru]

end Request

/-! ### The targets of sealed volumes (R103) -/

theorem holding_slot {v : VolumeUnit} {volume : U32} {key : EntryKey} {i : Nat} {r : RecallSlot} (hh : v.holding volume key = some i)
    (hs : v.slot? i = some r) : r.volume = volume ∧ r.key = key := by
  obtain ⟨hlt, hkey, -⟩ := List.findIdx?_eq_some_iff_getElem.1 hh
  have hget := VolumeUnit.slot?_eq hs
  rw [List.getElem?_eq_getElem hlt, Option.some.injEq] at hget
  rw [hget] at hkey
  simpa using hkey

/-- No other job is served by a slot that holds the key of a target which no job has. -/
theorem recallSlot_ne_of_jobOn? {s : State} {volume : U32} {key : EntryKey} {i : Nat} {r : RecallSlot}
    (hj : s.jobOn? (.sealed volume key) = none) (hh : s.vol.holding volume key = some i) (hs : s.vol.slot? i = some r) :
    ∀ k ∈ s.eng.jobs, k.recallSlot ≠ some i := by
  intro k hk hserved
  have hname := holding_slot hh hs
  have hhas := List.find?_eq_none.1 hj k hk
  simp [jobHas, hserved, hs, hname] at hhas

section Sealed

variable {s : State} {tag : U8} {t : TargetFields} {l h : U16} {sp : U8} (hready : s.Ready (.restore tag t l h sp))
  (hm : s.req.mode = .service) (hr : TargetInRange t) (ht : s.restoreTarget t = .ok (.sealed t.volume (sealedKey t)))
  (hj : s.jobOn? (.sealed t.volume (sealedKey t)) = none) (hl : s.targetLevel (.sealed t.volume (sealedKey t)) ≠ 3)
  (h8 : s.eng.jobs.length < 8) (hs : s.eng.Sound)
include hready hm hr ht hj hl h8 hs

/-- A RESIDENT slot that holds the key is pinned and handed to the job, which is ready. -/
theorem restore_jobCreated_slot {i : Nat} {r : RecallSlot} {c : EntryCopy}
    (hh : s.vol.holding t.volume (sealedKey t) = some i) (hslot : s.vol.slot? i = some r) (hcopy : r.copy = some c)
    (hlevel : (copyView c).level ≠ 3) :
    JobCreated { s with vol := pinnedSlot s.vol i r (.job s.eng.nextJob) }
      (s.restoreJob (.sealed t.volume (sealedKey t)) (some i) l h sp) (copyView c)
      (fun u => exec (.restore tag t l h sp) s = .next (u.replied 0x70 tag .ok (s.restoreFields l h sp)))
      fun u => exec (.restore tag t l h sp) s = .next (u.answered 0x70 tag .ok (s.restoreFields l h sp)) := by
  let u : State := { s with vol := pinnedSlot s.vol i r (.job s.eng.nextJob) }
  let waiting := s.restoreJob (.sealed t.volume (sealedKey t)) none l h sp
  let ready := s.restoreJob (.sealed t.volume (sealedKey t)) (some i) l h sp
  let next := s.nextAfter waiting
  have hcalm : u.Calm := SameFrame.calm (u := s) ⟨rfl, rfl, rfl, rfl, rfl, rfl, rfl⟩ hready.1.1 hm rfl
  have hnew := number_ne_nextJob hs
  have hcopied : u.vol.copy? i = some c := by
    show (VolumeUnit.slot? { s.vol with table := s.vol.table.set i _ } i).bind RecallSlot.copy = _
    rw [VolumeUnit.slot?_set hslot]
    exact hcopy
  have hview : (u.queuedAs ready next).jobView ready = some (copyView c) := congrArg (Option.map copyView) hcopied
  refine jobCreated_of_start (u := u) (body := fun s => s.restore tag t l h sp) hready hm ⟨rfl, rfl, rfl, rfl⟩
    hcalm hnew (advances_nextAfter hs h8 (j := waiting) rfl) rfl rfl hview fun y hstart hagain hagenda => ?_
  let pinned : State := (u.popped.answer 0x70 tag .ok (s.restoreFields l h sp)).queuedAs waiting next
  have hbody : s.popped.restore tag t l h sp = { pinned with agenda := [.recallGiven (.job s.eng.nextJob) i, .startJob] } := by
    have hpins := pinSlot_eq (s := s.popped.queuedAs waiting next) (r := .job s.eng.nextJob) hslot
    rw [hcopy, Option.isSome_some, if_pos rfl] at hpins
    rw [restore_eq hm hr ht hj hl h8, holdTarget, requestRecall_held (by exact hh), hpins]
    exact congrArg (fun a => ({ pinned with agenda := a ++ [.recallGiven (.job s.eng.nextJob) i] ++ [.startJob] } : State))
      (show s.popped.agenda = [] from hready.1.1.1)
  have hgiven (a : List Task) : runTask { pinned with agenda := a } (.recallGiven (.job s.eng.nextJob) i) =
      push { (u.popped.answer 0x70 tag .ok (s.restoreFields l h sp)).queuedAs ready next with agenda := a } .startJob := by
    have hserved : servedBy? { pinned with agenda := a } s.eng.nextJob i = none := by
      refine List.find?_eq_none.2 fun k hk => ?_
      rcases List.mem_append.1 hk with hk | hk
      · simp [recallSlot_ne_of_jobOn? hj hh hslot k hk]
      · rw [List.mem_singleton.1 hk]
        simp [waiting, newJob]
    refine (jobRecalled_ready (s := { pinned with agenda := a }) (job?_queuedAs (j := waiting) hnew) rfl hcopied
      (by rwa [copyView_level] at hlevel) hserved).trans ?_
    exact congrArg (fun z : State => z.push .startJob)
      (withJob_queuedAs (u := { u.popped.answer 0x70 tag .ok (s.restoreFields l h sp) with agenda := a }) (j := waiting) hnew)
  show (s.popped.restore tag t l h sp).settled = y
  rw [hbody, settled, settle_of_cons 65535 rfl]
  refine (congrArg (settle 65535) (hgiven [.startJob])).trans ?_
  refine (settle_leads hstart 65534 [.startJob]).trans ((settle_leads hagain 65533 []).trans ?_)
  rw [agenda_of_nil hagenda, settle_of_nil _ y hagenda]

/-- A job whose recall has not been delivered is not ready: it joins the queue, and the engine starts none. -/
theorem exec_restore_waits (hidle : (∃ k ∈ s.eng.jobs, k.state.isActive = true) ∨ s.eng.Idle) {vol : VolumeUnit} {link : StoreLink}
    (hlink : link.state = s.link.state) (hask : ∀ y : State, y.vol = s.vol → y.link = s.link →
      y.requestRecall ⟨.job s.eng.nextJob, t.volume, sealedKey t⟩ = { y with vol := vol, link := link }) :
    ∃ next, s.eng.Advances s.eng.nextJob next ∧ exec (.restore tag t l h sp) s = .next (State.replied { s with
      eng := { s.eng with
        jobs := s.eng.jobs ++ [s.restoreJob (.sealed t.volume (sealedKey t)) none l h sp], nextJob := next }
      vol := vol, link := link } 0x70 tag .ok (s.restoreFields l h sp)) := by
  let waiting := s.restoreJob (.sealed t.volume (sealedKey t)) none l h sp
  let queued : State := { s.queuedAs waiting (s.nextAfter waiting) with vol := vol, link := link }
  refine ⟨s.nextAfter waiting, advances_nextAfter hs h8 rfl, ?_⟩
  refine SameFrame.request_replied (u := s) (x := queued) (body := fun s => s.restore tag t l h sp) hready hm
    ⟨rfl, rfl, rfl, rfl, rfl, rfl, hlink⟩ ⟨rfl, rfl, rfl, rfl⟩ hready.1.1 rfl ?_
  let answered : State := queued.popped.answer 0x70 tag .ok (s.restoreFields l h sp)
  have hstays : answered.startJob = answered := by
    rcases hidle with ⟨k, hk, hactive⟩ | hidle
    · exact startJob_busy ⟨k, List.mem_append_left _ hk, hactive⟩
    · refine startJob_unready fun k hk => ?_
      rcases List.mem_append.1 hk with hk | hk
      · exact (hidle k hk).2
      · rw [List.mem_singleton.1 hk]
        exact fun _ => rfl
  show (s.popped.restore tag t l h sp).settled = answered
  rw [restore_eq hm hr ht hj hl h8, holdTarget, hask (s.popped.queuedAs waiting (s.nextAfter waiting)) rfl rfl,
    settled_push (by exact hready.1.1.1)]
  exact (congrArg (settle 65535) hstays).trans (settle_of_nil _ _ hready.1.1.1)

end Sealed

/-! ### JOB START (R106, R107) -/

theorem withJob_withJob (s : State) (n : Nat) {f g : Job → Job} (hf : ∀ j, (f j).number = j.number) :
    (s.withJob n f).withJob n g = s.withJob n fun j => g (f j) := by
  simp only [withJob, List.map_map]
  congr 2
  refine List.map_congr_left fun j _ => ?_
  by_cases hn : j.number = n <;> simp [Function.comp, hn, hf]

/-- An operation that the link accepts takes its lowest empty slot. -/
theorem accept_takes {l : StoreLink} {i : Nat} {op : Op} (h : l.Takes i) (hd : op.isDiscard = false) :
    l.accept op = l.occupy i op := by
  simp [StoreLink.accept, hd, h.2]

/-- A job is given its segments, and an ONLINE link takes the read of its body. -/
theorem grant_job_accepted {s : State} {m need : Nat} {j : Job} {v : View} (hj : s.job? m = some j) (hv : s.jobView j = some v)
    (ho : s.link.state = .online) : s.grant ⟨.job m, need⟩ = withJob { s with
      pool := s.pool.given (.job m) need
      link := s.link.accept (.readForJob m j.target.volume v.current) } m fun j => { j with state := .survey } := by
  have hjob : (s.give (.job m) need).job? m = some j := hj
  have hview : (s.give (.job m) need).jobView j = some v := hv
  simp only [grant, hjob, hview]
  exact (handOff_online (by exact ho) rfl).trans rfl

section Start

variable {s : State} {j : Job} {v : View} (hidle : ∀ k ∈ s.eng.jobs, k.state.isActive = false)
  (hfirst : s.eng.jobs.find? (fun k => k.state == .queued && k.isReady) = some j) (hv : s.jobView j = some v)
include hidle hfirst hv

/-- The oldest ready job has its claim placed. -/
theorem startJob_first : s.startJob = (s.withJob j.number fun k => k.started v .claiming).placeClaim ⟨.job j.number, v.need⟩ := by
  unfold startJob
  rw [if_neg (by simpa using hidle), hfirst]
  simp only [hv]
  rfl

variable (hclaims : s.pool.claims = [])
include hclaims

/-- With room it is given its segments, and its body is read. -/
theorem startJob_accepted (hj : s.job? j.number = some j) (hfits : v.need + 32 ≤ s.pool.free) (ho : s.link.state = .online) :
    s.startJob = withJob { s with
      pool := s.pool.given (.job j.number) v.need
      link := s.link.accept (.readForJob j.number j.target.volume v.current) } j.number fun k => k.started v .survey := by
  have hclaiming : (s.withJob j.number fun k => k.started v .claiming).job? j.number = some (j.started v .claiming) := by
    rw [job?_withJob (f := fun k => k.started v .claiming) fun _ => rfl, hj]
    simp
  rw [startJob_first hidle hfirst hv, placeClaim, if_pos (by
    show (s.pool.claims.isEmpty && s.pool.fits _) = true
    rw [hclaims, List.isEmpty_nil, Bool.true_and]
    exact Pool.fits_iff.2 hfits)]
  refine (grant_job_accepted (v := v) hclaiming (hv ▸ jobView_congr rfl rfl rfl rfl) ho).trans ?_
  exact withJob_withJob { s with
    pool := s.pool.given (.job j.number) v.need
    link := s.link.accept (.readForJob j.number j.target.volume v.current) } j.number
      (f := fun k => k.started v .claiming) fun _ => rfl

theorem startJob_granted (hj : s.job? j.number = some j) {i : Nat} (hfits : v.need + 32 ≤ s.pool.free) (hl : s.link.Takes i) :
    s.startJob = withJob { s with
      pool := s.pool.given (.job j.number) v.need
      link := s.link.occupy i (.readForJob j.number j.target.volume v.current) } j.number fun k => k.started v .survey := by
  rw [startJob_accepted hidle hfirst hv hclaims hj hfits hl.1, accept_takes hl rfl]

/-- Without room it waits in the claim queue. -/
theorem startJob_claiming (hshort : s.pool.free < v.need + 32) : s.startJob = withJob { s with
    pool := { s.pool with claims := [⟨.job j.number, v.need⟩] } } j.number fun k => k.started v .claiming := by
  have hno : ¬(s.pool.claims.isEmpty && s.pool.fits ⟨.job j.number, v.need⟩) = true := by
    rw [Bool.and_eq_true, Pool.fits_iff]
    rintro ⟨-, hfits⟩
    exact absurd hfits (by simpa using hshort)
  rw [startJob_first hidle hfirst hv, placeClaim, if_neg (by exact hno)]
  show withJob { s with pool := { s.pool with claims := s.pool.claims ++ _ } } _ _ = _
  rw [hclaims, List.nil_append]

omit hv hclaims in
theorem exec_jobStart {x : State} (h : s.Working) (hx : s.startJob = x) (ha : x.agenda = []) (hmode : x.req.mode = .service) :
    exec .jobStart s = .next x.close := by
  have hmem := List.mem_of_find?_eq_some hfirst
  have hready : (j.state == .queued && j.isReady) = true :=
    List.find?_some (p := fun k : Job => k.state == .queued && k.isReady) hfirst
  refine event_settles (happens := jobStartable) (body := fun s => s.push .startJob) h ?_ ?_ hmode
  · rw [jobStartable, Bool.and_eq_true, Bool.not_eq_true', List.any_eq_false, List.any_eq_true]
    exact ⟨fun k hk => by simp [hidle k hk], j, hmem, hready⟩
  · rw [settled_push h.2.1, runTask, hx, settle_of_nil _ x ha]

end Start

end State

end Sys2Proof.Machine
end

section
/-! RESTORE on each kind of target, and the engine's start (O43). -/

namespace Sys2Proof.Machine

theorem Catalogue.photo?_withPhoto (c : Catalogue) (n i : U32) {f : Photo → Photo} (hf : ∀ p, (f p).number = p.number) :
    (c.withPhoto n f).photo? i = (c.photo? i).map fun p => if p.number == n then f p else p := by
  simp only [photo?, withPhoto, List.find?_map]
  congr 2
  funext p
  simp only [Function.comp]
  split <;> simp [hf]

theorem Catalogue.photo?_number {c : Catalogue} {n : U32} {p : Photo} (h : c.photo? n = some p) : p.number = n := by
  simpa using List.find?_some h

namespace State

section Restore

variable {s : State} {tag : U8} {t : TargetFields} {l h : U16} {sp : U8} (hready : s.Ready (.restore tag t l h sp))
  (hm : s.req.mode = .service)
include hready hm

/-! ### A resident photograph -/

section Photo

variable (hk : t.kind = 2) (hn : t.photo ≠ 0) (hv : t.volume = 0)
include hk hn hv

theorem exec_restore_photoRefused {code : Code} (ht : s.cat.targetOf t restoreRefuses = .error code) :
    exec (.restore tag t l h sp) s = .next (s.replied 0x70 tag code []) :=
  exec_restore_refused hready hm (.inr ⟨hk, hn⟩) ((restoreTarget_resident hv).trans ht)

variable {p : Photo} (hp : s.cat.photo? t.photo = some p) (hfiled : p.state = .filed) (hj : s.jobOn? (.photo t.photo) = none)
  (hl : p.level ≠ 3) (h8 : s.eng.jobs.length < 8) (hs : s.eng.Sound)
include hp hfiled hj hl h8 hs

theorem restore_photo_created :
    JobCreated { s with cat := s.cat.withPhoto t.photo fun p => { p with pins := p.pins + 1 } }
      (s.restoreJob (.photo t.photo) none l h sp) (photoView p)
      (fun u => exec (.restore tag t l h sp) s = .next (u.replied 0x70 tag .ok (s.restoreFields l h sp)))
      fun u => exec (.restore tag t l h sp) s = .next (u.answered 0x70 tag .ok (s.restoreFields l h sp)) := by
  have ht := (restoreTarget_resident hv).trans (Catalogue.targetOf_photo_filed (turnedAway := restoreRefuses) hk hp hfiled)
  have hlevel : s.targetLevel (.photo t.photo) ≠ 3 := by simpa [targetLevel, hp] using hl
  refine restore_jobCreated (f := fun c => c.withPhoto t.photo fun p => { p with pins := p.pins + 1 }) hready hm (.inr ⟨hk, hn⟩) ht hj
    hlevel h8 hs (fun _ _ => rfl) rfl fun next => ?_
  show Option.map photoView (Catalogue.photo? (s.cat.withPhoto t.photo _) t.photo) = _
  rw [Catalogue.photo?_withPhoto _ _ _ (by exact fun _ => rfl), hp, Option.map_some, if_pos (by simp [Catalogue.photo?_number hp])]
  rfl

end Photo

/-! ### A page of a resident edition -/

section Page

variable (hr : TargetInRange t) (hk : t.kind = 1) (hv : t.volume = 0) {slot : Nat} {e : Edition}
  (hslot : s.cat.slotOf t.key.edition = some slot) (he : s.cat.edition? slot = some e)
include hr hk hv hslot he

theorem exec_restore_turnedAway {code : Code} (ha : restoreRefuses e.state = some code) :
    exec (.restore tag t l h sp) s = .next (s.replied 0x70 tag code []) :=
  exec_restore_refused hready hm hr
    ((restoreTarget_resident hv).trans (Catalogue.targetOf_page_turnedAway hk hslot he ha))

theorem exec_restore_unresolved (hc : e.state = .closed) {code : Code}
    (hres : s.cat.resolve slot t.key.page.toNat t.key.version.toNat = .error code) :
    exec (.restore tag t l h sp) s = .next (s.replied 0x70 tag code []) :=
  exec_restore_refused hready hm hr
    ((restoreTarget_resident hv).trans (Catalogue.targetOf_page_refused hk hslot he (by rw [hc]; rfl) hres))

omit hready hm hr in
theorem restoreTarget_page (hc : e.state = .closed) {p : Page}
    (hres : s.cat.resolve slot t.key.page.toNat t.key.version.toNat = .ok p) :
    s.restoreTarget t = .ok (.page slot p.number p.version) :=
  (restoreTarget_resident hv).trans (Catalogue.targetOf_page_named hk hslot he (by rw [hc]; rfl) hres)

omit hk hv hslot he in
theorem restore_page_created {p : Page} (hp : s.cat.page? slot p.number p.version = some p)
    (ht : s.restoreTarget t = .ok (.page slot p.number p.version)) (hj : s.jobOn? (.page slot p.number p.version) = none)
    (hl : p.level ≠ 3) (h8 : s.eng.jobs.length < 8) (hs : s.eng.Sound) :
    JobCreated { s with cat := s.cat.withEdition slot fun e => { e with pins := e.pins + 1 } }
      (s.restoreJob (.page slot p.number p.version) none l h sp) (s.cat.pageView p)
      (fun u => exec (.restore tag t l h sp) s = .next (u.replied 0x70 tag .ok (s.restoreFields l h sp)))
      fun u => exec (.restore tag t l h sp) s = .next (u.answered 0x70 tag .ok (s.restoreFields l h sp)) := by
  have hlevel : s.targetLevel (.page slot p.number p.version) ≠ 3 := by simpa [targetLevel, hp] using hl
  refine restore_jobCreated (f := fun c => c.withEdition slot fun e => { e with pins := e.pins + 1 }) hready hm hr ht hj hlevel h8 hs
    (fun _ _ => rfl) rfl fun next => ?_
  exact congrArg (Option.map s.cat.pageView) hp

end Page

end Restore

/-! ### The level of a sealed target (R102, check 5) -/

theorem targetLevel_held {s : State} {volume : U32} {key : EntryKey} {i : Nat} {c : EntryCopy}
    (hh : s.vol.holding volume key = some i) (hc : s.vol.copy? i = some c) :
    s.targetLevel (.sealed volume key) = (copyView c).level := by
  simp [targetLevel, hh, hc]

theorem targetLevel_ne {s : State} {volume : U32} {key : EntryKey}
    (hl : ∀ i c, s.vol.holding volume key = some i → s.vol.copy? i = some c → (copyView c).level ≠ 3) :
    s.targetLevel (.sealed volume key) ≠ 3 := by
  rw [targetLevel]
  cases hh : s.vol.holding volume key with
  | none => simp
  | some i =>
    rw [Option.bind_some]
    cases hc : s.vol.copy? i with
    | none => simp
    | some c => exact hl i c hh hc

theorem targetLevel_unheld {s : State} {volume : U32} {key : EntryKey} (hh : s.vol.holding volume key = none) :
    s.targetLevel (.sealed volume key) ≠ 3 := targetLevel_ne fun _ _ hh' _ => by rw [hh] at hh'; cases hh'

theorem copy?_of_slot {v : VolumeUnit} {i : Nat} {r : RecallSlot} (h : v.slot? i = some r) : v.copy? i = r.copy := by
  rw [VolumeUnit.copy?, h, Option.bind_some]

/-- The requester joins those of a FETCHING slot that holds the key. -/
theorem requestRecall_joins {s : State} {w : RecallWaiter} {i : Nat} {x : RecallSlot}
    (hh : s.vol.holding w.volume w.key = some i) (hx : s.vol.slot? i = some x) (hc : x.copy = none) :
    s.requestRecall w = { s with vol := pinnedSlot s.vol i x w.requester } := by
  rw [requestRecall_held hh, pinSlot_eq hx, if_neg (by simp [hc])]

/-- The targets of a RESTORE of a sealed entry, in range, with the key as given. -/
theorem sealedKey_inRange {t : TargetFields} {key : EntryKey}
    (h : t.kind = 1 ∧ t.key.edition.code.toNat ≤ 15 ∧ 1 ≤ t.key.page.toNat ∧ t.key.page.toNat ≤ 128 ∧ t.key.version.toNat ≤ 7 ∧
        key = .page t.key.edition t.key.page.toNat t.key.version.toNat ∨
      t.kind = 2 ∧ t.photo ≠ 0 ∧ key = .photo t.photo) : TargetInRange t ∧ key = sealedKey t := by
  rcases h with ⟨hk, hcode, hlow, hhigh, hver, rfl⟩ | ⟨hk, hn, rfl⟩
  · exact ⟨.inl ⟨hk, hcode, hlow, hhigh, hver⟩, (if_pos hk).symm⟩
  · exact ⟨.inr ⟨hk, hn⟩, (if_neg (kind_ne_page hk)).symm⟩

end State

/-- Settles O43. -/
theorem restoreQueuesAndTheEngineStarts : Obligations.RestoreQueuesAndTheEngineStarts := by
  unfold Obligations.RestoreQueuesAndTheEngineStarts
  refine ⟨fun s tag t l h sp hready => ⟨?_, ?_, ?_, ?_⟩, ?_, ?_, ?_⟩
  · exact fun hm => State.exec_restore_notInService hready hm
  · exact fun hm hr => State.exec_restore_outOfRange hready hm hr
  · exact fun hm hk hn hv hp =>
      State.exec_restore_photoRefused hready hm hk hn hv (Catalogue.targetOf_photo_unknown hk hp)
  · intro p hm hk hn hv hp
    have hr : TargetInRange t := .inr ⟨hk, hn⟩
    refine ⟨fun hs => ?_, fun hs hj => ?_, fun hs hj => ⟨fun hl => ?_, fun hl h8 => ?_, fun hl h8 heng => ?_⟩⟩
    · exact State.exec_restore_photoRefused hready hm hk hn hv (Catalogue.targetOf_photo_unfiled hk hp hs)
    all_goals
      have ht : s.restoreTarget t = .ok (.photo t.photo) :=
        (State.restoreTarget_resident hv).trans (Catalogue.targetOf_photo_filed hk hp hs)
      have hlevel : s.targetLevel (.photo t.photo) = p.level := by simp [State.targetLevel, hp]
    · exact State.exec_restore_duplicate hready hm hr ht hj
    · exact State.exec_restore_levelLimit hready hm hr ht hj (hlevel.trans hl)
    · exact State.exec_restore_full hready hm hr ht hj (hlevel.trans_ne hl) h8
    · exact State.restore_photo_created hready hm hk hn hv hp hs hj hl h8 heng
  · intro s tag t l h sp hready hm hk hcode hlow hhigh hver hv
    have hr : TargetInRange t := .inl ⟨hk, hcode, hlow, hhigh, hver⟩
    have hpos {v : U8} (h : v ≠ 0) : v.toNat ≠ 0 := fun h0 => h (version_eq_zero_iff.1 h0)
    refine ⟨fun hs => ?_, fun slot e hslot he => ⟨fun hopen => ?_, fun hsealing => ?_, fun hc hv0 hp => ?_,
      fun hc hv0 => ⟨fun hp => ?_, fun p hp hs => ?_⟩, fun p hc hat hp => ?_⟩⟩
    · exact State.exec_restore_refused hready hm hr
        ((State.restoreTarget_resident hv).trans (Catalogue.targetOf_page_unknown hk hs))
    · refine State.exec_restore_turnedAway hready hm hr hk hv hslot he ?_
      rcases hopen with ho | ho <;> rw [ho] <;> rfl
    · exact State.exec_restore_turnedAway hready hm hr hk hv hslot he (by rw [hsealing]; rfl)
    · exact State.exec_restore_unresolved hready hm hr hk hv hslot he hc
        (Catalogue.resolve_uncurrent (version_eq_zero_iff.2 hv0) hp)
    · exact State.exec_restore_unresolved hready hm hr hk hv hslot he hc (Catalogue.resolve_unknown (hpos hv0) hp)
    · exact State.exec_restore_unresolved hready hm hr hk hv hslot he hc (Catalogue.resolve_unfiled (hpos hv0) hp hs)
    have ht : s.restoreTarget t = .ok (.page slot p.number p.version) :=
      State.restoreTarget_page hk hv hslot he hc
        (Catalogue.resolve_named (hp.imp (And.imp_left version_eq_zero_iff.2) (And.imp_left hpos)))
    have hlevel : s.targetLevel (.page slot p.number p.version) = p.level := by simp [State.targetLevel, hat]
    refine ⟨fun hj => ?_, fun hj => ⟨fun hl => ?_, fun hl h8 => ?_, fun hl h8 heng => ?_⟩⟩
    · exact State.exec_restore_duplicate hready hm hr ht hj
    · exact State.exec_restore_levelLimit hready hm hr ht hj (hlevel.trans hl)
    · exact State.exec_restore_full hready hm hr ht hj (hlevel.trans_ne hl) h8
    · have hkey : s.cat.editionOf (.page slot p.number p.version) = e.key := by simp [Catalogue.editionOf, he]
      have hcreated := State.restore_page_created hready hm hr hat ht hj hl h8 heng
      rwa [State.restoreJob, State.newJob, hkey] at hcreated
  · intro s tag t l h sp key hready hm hv hkey
    obtain ⟨hr, rfl⟩ := State.sealedKey_inRange hkey
    have ht := State.restoreTarget_sealed (s := s) hv
    refine ⟨fun hj => ?_, fun hj => ⟨fun i c hh hc hl => ?_, fun i r c hh hslot hc hl h8 heng => ?_, fun hl h8 => ?_,
      fun h8 heng hidle => ⟨fun i x hh hslot hc => ?_, fun hh hw => ⟨fun i k hi hk => ?_, fun i rest k hfull hlru hk => ?_⟩,
        fun hh hw => ?_⟩⟩⟩
    · exact State.exec_restore_duplicate hready hm hr ht hj
    · exact State.exec_restore_levelLimit hready hm hr ht hj ((State.targetLevel_held hh hc).trans hl)
    · have hlevel := State.targetLevel_held hh ((State.copy?_of_slot hslot).trans hc)
      exact State.restore_jobCreated_slot hready hm hr ht hj (hlevel.trans_ne hl) h8 heng hh hslot hc hl
    · exact State.exec_restore_full hready hm hr ht hj (State.targetLevel_ne hl) h8
    · have hlevel : s.targetLevel (.sealed t.volume (sealedKey t)) ≠ 3 := State.targetLevel_ne fun i' c hh' hc' => by
        rw [hh, Option.some.injEq] at hh'
        rw [← hh', State.copy?_of_slot hslot, hc] at hc'
        cases hc'
      refine State.exec_restore_waits hready hm hr ht hj hlevel h8 heng hidle rfl fun y hvol hlink => ?_
      rw [State.requestRecall_joins (by rwa [hvol]) (by rwa [hvol]) hc, hvol, ← hlink]
    all_goals have hlevel := State.targetLevel_unheld hh
    · refine State.exec_restore_waits hready hm hr ht hj hlevel h8 heng hidle rfl fun y hvol hlink => ?_
      rw [State.requestRecall_fetches (by rwa [hvol]) (by rwa [hvol]) (by rwa [hvol]), State.fetch_takes (by rwa [hlink]), hvol, hlink]
    · refine State.exec_restore_waits hready hm hr ht hj hlevel h8 heng hidle rfl fun y hvol hlink => ?_
      rw [State.requestRecall_evicts (by rwa [hvol]) (by rwa [hvol]) (by rwa [hvol]) (by rwa [hvol]),
        State.fetch_takes (by simpa only [hlink] using hk), hvol, hlink]
    · refine State.exec_restore_waits hready hm hr ht hj hlevel h8 heng hidle rfl fun y hvol hlink => ?_
      rw [State.requestRecall_waits (by rwa [hvol]) (by rwa [hvol]), State.joinRecallWait, hvol, ← hlink]
  · intro s j v h hidle hfirst hjob hv hclaims
    refine ⟨fun i hfits hl => ?_, fun hshort => ?_⟩
    · exact State.exec_jobStart hidle hfirst h (State.startJob_granted hidle hfirst hv hclaims hjob hfits hl) h.2.1 h.2.2.1
    · exact State.exec_jobStart hidle hfirst h (State.startJob_claiming hidle hfirst hv hclaims hshort) h.2.1 h.2.2.1

end Sys2Proof.Machine
end

section
/-! What the end of a job or of an order can do to the records while nothing waits for a release: it lowers pins, it frees segments, and
it opens consequences that find nothing to do (O44, O46). -/

namespace Sys2Proof.Machine

/-- A photo record but for its pins. -/
def Photo.unpinned (p : Photo) : Photo := { p with pins := 0 }

/-- A recall slot but for its requesters. -/
def RecallSlot.bare (r : RecallSlot) : RecallSlot := { r with pinners := [] }

namespace State

/-! ### Holds let go -/

/-- t is s with holds let go: of the records and the copies only the pins differ, and no holder has more segments. -/
structure Loosened (s t : State) : Prop where
  pages : t.cat.pages = s.cat.pages
  photos : ∀ n, (t.cat.photo? n).map Photo.unpinned = (s.cat.photo? n).map Photo.unpinned
  slots : ∀ i, (t.vol.slot? i).map RecallSlot.bare = (s.vol.slot? i).map RecallSlot.bare
  held : ∀ h, t.pool.heldBy h ≤ s.pool.heldBy h

theorem Loosened.trans {s t u : State} (h : Loosened s t) (k : Loosened t u) : Loosened s u :=
  ⟨k.pages.trans h.pages, fun n => (k.photos n).trans (h.photos n), fun i => (k.slots i).trans (h.slots i),
    fun x => (k.held x).trans (h.held x)⟩

/-- Nothing of it has changed. -/
theorem Loosened.of {s t : State} (hc : t.cat = s.cat) (hv : t.vol.table = s.vol.table) (hp : t.pool.segments = s.pool.segments) :
    Loosened s t :=
  ⟨by rw [hc], fun _ => by rw [hc], fun _ => by rw [VolumeUnit.slot?, hv, ← VolumeUnit.slot?],
    fun _ => by rw [Pool.heldBy, hp, ← Pool.heldBy]⟩

theorem Loosened.refl (s : State) : Loosened s s := .of rfl rfl rfl

/-- A photograph's record is there still, but for its pins. -/
theorem Loosened.photo? {s t : State} (h : Loosened s t) {n : U32} {p : Photo} (hp : s.cat.photo? n = some p) :
    ∃ pins, t.cat.photo? n = some { p with pins := pins } := by
  have hsame := h.photos n
  rw [hp, Option.map_some, Option.map_eq_some_iff] at hsame
  obtain ⟨q, hq, hqp⟩ := hsame
  refine ⟨q.pins, hq.trans (congrArg some ?_)⟩
  exact congrArg (fun x : Photo => { x with pins := q.pins }) hqp

/-- A recall slot is there still, but for its requesters. -/
theorem Loosened.slot? {s t : State} (h : Loosened s t) {i : Nat} {r : RecallSlot} (hr : s.vol.slot? i = some r) :
    ∃ pinners, t.vol.slot? i = some { r with pinners := pinners } := by
  have hsame := h.slots i
  rw [hr, Option.map_some, Option.map_eq_some_iff] at hsame
  obtain ⟨q, hq, hqr⟩ := hsame
  refine ⟨q.pinners, hq.trans (congrArg some ?_)⟩
  exact congrArg (fun x : RecallSlot => { x with pinners := q.pinners }) hqr

theorem loosened_enqueueSeal (s : State) (slot : Nat) : Loosened s (s.enqueueSeal slot) := by
  unfold enqueueSeal
  split
  · exact .refl s
  · exact .of rfl rfl rfl

theorem loosened_unpinEdition (s : State) (slot : Nat) : Loosened s (s.unpinEdition slot) := by
  have hcat (f : Edition → Edition) : Loosened s (s.withCat fun c => c.withEdition slot f) :=
    ⟨rfl, fun _ => rfl, fun _ => rfl, fun _ => le_rfl⟩
  unfold unpinEdition
  split
  · exact .refl s
  · split
    · exact (hcat _).trans (loosened_enqueueSeal _ slot)
    · exact hcat _

theorem loosened_unpinPhoto (s : State) (n : U32) : Loosened s (s.unpinPhoto n) := by
  refine ⟨rfl, fun i => ?_, fun _ => rfl, fun _ => le_rfl⟩
  rw [unpinPhoto, withCat_cat, Catalogue.photo?_withPhoto _ _ _ (by exact fun _ => rfl)]
  cases s.cat.photo? i with
  | none => rfl
  | some p =>
    rw [Option.map_some, Option.map_some]
    split <;> rfl

theorem loosened_releasePins (s : State) (o : Order) : Loosened s (s.releasePins o) := by
  unfold releasePins
  cases o.pinEdition with
  | none =>
    cases o.pinPhoto with
    | none => exact .refl s
    | some n => exact loosened_unpinPhoto s n
  | some slot =>
    cases o.pinPhoto with
    | none => exact loosened_unpinEdition s slot
    | some n => exact (loosened_unpinEdition s slot).trans (loosened_unpinPhoto _ n)

theorem loosened_leaveRecallWait (s : State) (r : Requester) : Loosened s (s.leaveRecallWait r) := by
  unfold leaveRecallWait
  split
  · split <;> exact .of rfl rfl rfl
  · exact .of rfl rfl rfl

theorem slot?_withRecall (s : State) (i k : Nat) (f : RecallSlot → RecallSlot) :
    (s.withRecall i f).vol.slot? k = if i = k then (s.vol.slot? k).map f else s.vol.slot? k := by
  simp only [VolumeUnit.slot?, withRecall, List.getElem?_modify]
  split
  · cases s.vol.table[k]? with
    | none => rfl
    | some x => cases x <;> rfl
  · cases s.vol.table[k]? <;> rfl

theorem loosened_releaseSlot (s : State) (r : Requester) : Loosened s (s.releaseSlot r) := by
  have hpins (i : Nat) : Loosened s (s.withRecall i fun x => { x with pinners := x.pinners.filter fun q => q != r }) := by
    refine ⟨rfl, fun _ => rfl, fun k => ?_, fun _ => le_rfl⟩
    rw [slot?_withRecall]
    split
    · cases s.vol.slot? k <;> rfl
    · rfl
  unfold releaseSlot
  split
  · exact .refl s
  · dsimp only
    split
    · split
      · exact (hpins _).trans (.of rfl rfl rfl)
      · exact hpins _
    · exact hpins _

theorem loosened_releaseRecall (s : State) (r : Requester) : Loosened s (s.releaseRecall r) :=
  (loosened_leaveRecallWait s r).trans (loosened_releaseSlot _ r)

theorem loosened_removeClaim (s : State) (x : Holder) : Loosened s (s.removeClaim x) := by
  unfold removeClaim
  dsimp only
  split
  · split <;> exact .of rfl rfl rfl
  · exact .of rfl rfl rfl

theorem heldBy_without_self (p : Pool) (h : Holder) : (p.without h).heldBy h = 0 := by
  simp only [Pool.heldBy, Pool.without, emptyOut, List.countP_eq_zero, List.mem_map]
  rintro _ ⟨x, -, rfl⟩
  by_cases hx : x = some h <;> simp [hx]

theorem heldBy_returned_self (p : Pool) (h : Holder) : (p.returned h).heldBy h = 0 := by
  unfold Pool.returned
  split
  · assumption
  · exact heldBy_without_self p h

theorem heldBy_returned_le (p : Pool) (h k : Holder) : (p.returned h).heldBy k ≤ p.heldBy k := by
  by_cases hk : k = h
  · rw [hk, heldBy_returned_self]
    exact Nat.zero_le _
  · unfold Pool.returned
    split
    · exact le_rfl
    · exact (Pool.heldBy_without hk).le

theorem loosened_release (s : State) (x : Holder) : Loosened s (s.release x) := by
  obtain ⟨tasks, -, -, hform⟩ := release_form s x
  rw [hform]
  exact ⟨rfl, fun _ => rfl, fun _ => rfl, heldBy_returned_le s.pool x⟩

theorem loosened_releaseJob (s : State) (j : Job) : Loosened s (s.releaseJob j) := by
  have hpool := (loosened_removeClaim s (.job j.number)).trans (loosened_release _ (.job j.number))
  unfold releaseJob
  cases j.target with
  | page slot number version => exact hpool.trans (loosened_unpinEdition _ slot)
  | photo n => exact hpool.trans (loosened_unpinPhoto _ n)
  | sealed v k => exact hpool.trans (loosened_releaseRecall _ _)

theorem loosened_leaveTable (s : State) (n : Nat) (st : OrdState) (c : Code) : Loosened s (s.leaveTable n st c) := by
  unfold leaveTable
  split
  · exact .refl s
  · next o _ =>
    exact ((((loosened_releasePins s o).trans (loosened_releaseRecall _ _)).trans (loosened_removeClaim _ _)).trans
      (loosened_release _ _)).trans (.of rfl rfl rfl)

theorem loosened_endOrder (s : State) (n : Nat) (c : Code) : Loosened s (s.endOrder n c) := by
  unfold endOrder
  split
  · exact (loosened_leaveTable s n .ended c).trans (.of rfl rfl rfl)
  · exact .refl s

/-- A job has no segments once it has given back its holds. -/
theorem heldBy_releaseJob (s : State) (j : Job) : (s.releaseJob j).pool.heldBy (.job j.number) = 0 := by
  have hreleased : ((s.removeClaim (.job j.number)).release (.job j.number)).pool.heldBy (.job j.number) = 0 := by
    obtain ⟨tasks, -, -, hform⟩ := release_form (s.removeClaim (.job j.number)) (.job j.number)
    rw [hform]
    exact heldBy_returned_self _ _
  refine Nat.eq_zero_of_le_zero (Nat.le_trans ?_ hreleased.le)
  unfold releaseJob
  cases j.target with
  | page slot number version => exact (loosened_unpinEdition _ slot).held _
  | photo n => exact (loosened_unpinPhoto _ n).held _
  | sealed v k => exact (loosened_releaseRecall _ _).held _

end State

end Sys2Proof.Machine
end

section
/-! A job that fails, with the orders that it carried: the rest of its change finds nothing to do (O44, O46). -/

namespace Sys2Proof.Machine

namespace State

/-! ### Consequences that find nothing to do -/

theorem close_agenda (s : State) (a : List Task) : close { s with agenda := a } = s.close := by
  have hmet : waitMet? (disarm { s with agenda := a }) = waitMet? s.disarm := rfl
  unfold close endWait
  rw [hmet]
  cases s.disarm.waitMet? <;> rfl

/-- While all that is left to work through finds nothing to do, the change ends as the state stands. -/
theorem settle_inert_close (s : State) : ∀ (k : Nat) (a : List Task), (∀ x ∈ a, s.Leads x s) →
    (settle k { s with agenda := a }).close = s.close
  | 0, a, _ => close_agenda s a
  | k + 1, [], _ => by rw [settle_of_nil _ { s with agenda := [] } rfl, close_agenda]
  | k + 1, x :: a, h => by
    rw [settle_leads (h x List.mem_cons_self) k a]
    exact settle_inert_close s k a fun y hy => h y (List.mem_cons_of_mem x hy)

theorem Still.leads {s : State} (h : s.Still) {x : Task} (hx : x.Idle) : s.Leads x s := by
  intro a
  rcases hx with rfl | rfl
  · simp [runTask, h.1, regrant]
  · simp [runTask, h.2.1, serveRecall]

theorem leads_startJob_nil {s : State} (h : s.eng.jobs = []) : s.Leads .startJob s := fun a =>
  startJob_unready (s := { s with agenda := a }) fun k hk => by
    rw [show ({ s with agenda := a } : State).eng.jobs = [] from h] at hk
    cases hk

theorem leads_heldDiscards_nil {s : State} (h : s.eng.heldDiscards = []) : s.Leads .heldDiscards s := fun a => by
  simp only [runTask, h]
  rfl

/-! ### Releases that open nothing of note -/

/-- t is s with holds let go and idle consequences opened, the engine and the link as they were. -/
structure Eased (s t : State) : Prop where
  tasks : ∃ l : List Task, (∀ x ∈ l, x.Idle) ∧ t.agenda = s.agenda ++ l
  still : t.Still
  eng : t.eng = s.eng
  link : t.link = s.link
  loose : Loosened s t
  moves : Moves s t

theorem Eased.refl {s : State} (h : s.Still) : Eased s s :=
  ⟨⟨[], by simp, by simp⟩, h, rfl, rfl, .refl s, .refl s⟩

theorem Eased.trans {s t u : State} (h : Eased s t) (k : Eased t u) : Eased s u := by
  obtain ⟨l, hl, ha⟩ := h.tasks
  obtain ⟨l', hl', ha'⟩ := k.tasks
  exact ⟨⟨l ++ l', fun x hx => (List.mem_append.1 hx).elim (hl x) (hl' x), by rw [ha', ha, List.append_assoc]⟩, k.still,
    k.eng.trans h.eng, k.link.trans h.link, h.loose.trans k.loose, h.moves.trans k.moves⟩

theorem Released.eased {n : Nat} {s t : State} (h : Released n s t) (hl : Loosened s t) (hm : Moves s t) : Eased s t := by
  obtain ⟨l, -, hidle, ha⟩ := h.tasks
  exact ⟨⟨l, hidle, ha⟩, h.still, h.eng, h.link, hl, hm⟩

theorem eased_releaseJob {s : State} (h : s.Still) (j : Job) : Eased s (s.releaseJob j) :=
  (released_releaseJob h j).eased (loosened_releaseJob s j) (moves_releaseJob s j)

theorem eased_latch {s : State} (h : s.Still) (e : Event) : Eased s (s.latch e) :=
  ⟨⟨[], by simp, by simp [latch]⟩, h, rfl, rfl, .of rfl rfl rfl, Moves.of (.latch s e)⟩

theorem eng_forgetOrder {s : State} (h : s.eng.jobs = []) (o : Order) : (s.forgetOrder o).eng = s.eng := by
  unfold forgetOrder
  dsimp only
  rw [h, List.map_nil, ← h]

section Orders

variable {s : State} (h : s.Still) (hj : s.eng.jobs = [])
include h hj

/-- An order that ends leaves an engine without jobs as it is. -/
theorem eased_endOrder (n : Nat) (c : Code) : Eased s (s.endOrder n c) := by
  cases ho : s.order? n with
  | none =>
    rw [show s.endOrder n c = s from if_neg (by rw [ho]; decide)]
    exact .refl h
  | some o =>
    have hfailed := orderFailed_endOrder h ho c
    have hleft := released_leaving h o n
    have hends : s.endOrder n c = (s.leaveTable n .ended c).latch .orderEnded := if_pos (by rw [ho]; rfl)
    obtain ⟨l, -, hl, ha⟩ := hfailed.tasks
    refine ⟨⟨l, hl, ha⟩, hfailed.still, ?_, ?_, loosened_endOrder s n c, moves_endOrder s n c⟩
    · rw [hends, leaveTable, ho]
      exact (eng_forgetOrder ((congrArg Engine.jobs hleft.eng).trans hj) o).trans hleft.eng
    · rw [hends, leaveTable, ho]
      exact hleft.link

omit hj in
theorem order?_endOrder_self (n : Nat) (c : Code) : (s.endOrder n c).order? n = none := by
  cases ho : s.order? n with
  | none => rwa [show s.endOrder n c = s from if_neg (by rw [ho]; decide)]
  | some o => exact (orderFailed_endOrder h ho c).gone

omit hj in
theorem order?_endOrder_none {m : Nat} (n : Nat) (c : Code) (hm : s.order? m = none) : (s.endOrder n c).order? m = none := by
  by_cases hmn : m = n
  · rw [hmn]
    exact order?_endOrder_self h n c
  · cases ho : s.order? n with
    | none => rwa [show s.endOrder n c = s from if_neg (by rw [ho]; decide)]
    | some o => rw [(orderFailed_endOrder h ho c).others m hmn, hm]

end Orders

/-- One order after the other. -/
theorem eased_foldl {f : State → Nat → State} (hf : ∀ t n, t.Still → t.eng.jobs = [] → Eased t (f t n)) :
    ∀ (ns : List Nat) {s : State}, s.Still → s.eng.jobs = [] → Eased s (ns.foldl f s)
  | [], _, h, _ => .refl h
  | n :: ns, s, h, hj => by
    have hfirst := hf s n h hj
    exact hfirst.trans (eased_foldl hf ns hfirst.still ((congrArg Engine.jobs hfirst.eng).trans hj))

/-- Orders that end one after the other are live no longer. -/
theorem order?_endOrders (c : Code) : ∀ (ns : List Nat) {s : State}, s.Still → s.eng.jobs = [] → ∀ m : Nat,
    m ∈ ns ∨ s.order? m = none → (ns.foldl (fun t n => t.endOrder n c) s).order? m = none
  | [], _, _, _, m, hm => hm.resolve_left (by simp)
  | n :: ns, s, h, hj, m, hm => by
    have hfirst := eased_endOrder h hj n c
    refine order?_endOrders c ns hfirst.still ((congrArg Engine.jobs hfirst.eng).trans hj) m ?_
    rcases hm with hm | hm
    · rcases List.mem_cons.1 hm with rfl | hm
      · exact .inr (order?_endOrder_self h m c)
      · exact .inl hm
    · exact .inr (order?_endOrder_none h n c hm)

/-- The last order to end closes the finished list, which keeps its last 16. -/
theorem getLast?_finished_close {s : State} {l : List Order} {f : Order} (h : s.ord.finished = l ++ [f]) :
    s.close.ord.finished.getLast? = some f := by
  have htrim : s.close.ord.finished = s.ord.finished.drop (s.ord.finished.length - 16) := by
    unfold close send endWait
    split <;> rfl
  rw [htrim, h, List.getLast?_drop, if_neg, List.getLast?_concat]
  simp

/-! ### The only job fails (R114) -/

section Fails

variable {s : State} {j : Job} (h : s.Still) (hjobs : s.eng.jobs = [j])
include hjobs

theorem job?_only : s.job? j.number = some j := by simp [job?, hjobs]

theorem jobs_retireJob (st : JobState) (c : Code) : (s.retireJob j st c).eng.jobs = [] := by
  simp [retireJob, hjobs]

/-- The job has left the queue and given back its holds, and RESTORE_FAILED is latched. -/
abbrev jobLeft (s : State) (j : Job) (c : Code) : State := ((s.retireJob j .failed c).releaseJob j).latch .restoreFailed

theorem failJob_only (c : Code) : s.failJob j.number c =
    (j.orders.foldl (fun t n => t.endOrder n c) (s.jobLeft j c)).push .startJob := by
  unfold failJob
  rw [job?_only hjobs]

include h

omit hjobs in
theorem eased_jobLeft (c : Code) : Eased (s.retireJob j .failed c) (s.jobLeft j c) := by
  have hreleased := eased_releaseJob (s := s.retireJob j .failed c) h j
  exact hreleased.trans (eased_latch hreleased.still .restoreFailed)

theorem jobs_jobLeft (c : Code) : (s.jobLeft j c).eng.jobs = [] :=
  (congrArg Engine.jobs (eased_jobLeft h c).eng).trans (jobs_retireJob hjobs .failed c)

theorem eased_jobOrders (c : Code) :
    Eased (s.jobLeft j c) (j.orders.foldl (fun t n => t.endOrder n c) (s.jobLeft j c)) :=
  eased_foldl (fun _ n ht hjt => eased_endOrder ht hjt n c) _ (eased_jobLeft h c).still (jobs_jobLeft h hjobs c)

theorem eng_failJob (c : Code) : (s.failJob j.number c).eng = (s.retireJob j .failed c).eng := by
  rw [failJob_only hjobs]
  exact ((eased_jobLeft h c).trans (eased_jobOrders h hjobs c)).eng

/-- All that the failure opens finds nothing to do. -/
theorem failJob_inert (ha : s.agenda = []) (c : Code) :
    ∀ x ∈ (s.failJob j.number c).agenda, (s.failJob j.number c).Leads x (s.failJob j.number c) := by
  have hall := (eased_jobLeft (j := j) h c).trans (eased_jobOrders h hjobs c)
  obtain ⟨l, hl, hagenda⟩ := hall.tasks
  have hstill : (s.failJob j.number c).Still := by
    rw [failJob_only hjobs]
    exact hall.still
  have hopened : (s.failJob j.number c).agenda = l ++ [.startJob] := by
    rw [failJob_only hjobs]
    refine congrArg (· ++ [Task.startJob]) (hagenda.trans ?_)
    rw [show (s.retireJob j .failed c).agenda = [] from ha, List.nil_append]
  intro x hx
  rw [hopened, List.mem_append, List.mem_singleton] at hx
  rcases hx with hx | rfl
  · exact hstill.leads (hl x hx)
  · exact leads_startJob_nil (by rw [eng_failJob h hjobs, jobs_retireJob hjobs])

/-- So the change ends with the failure, also with a look at the held locators behind it, of which there are none. -/
theorem settle_failJob_close (ha : s.agenda = []) (c : Code) (n : Nat) {rest : List Task}
    (hrest : ∀ x ∈ rest, x = .heldDiscards ∧ s.eng.heldDiscards = []) :
    (settle n { s.failJob j.number c with agenda := (s.failJob j.number c).agenda ++ rest }).close =
      (s.failJob j.number c).close := by
  refine settle_inert_close _ n _ fun x hx => ?_
  rcases List.mem_append.1 hx with hx | hx
  · exact failJob_inert h hjobs ha c x hx
  · obtain ⟨rfl, hd⟩ := hrest x hx
    exact leads_heldDiscards_nil (by rw [eng_failJob h hjobs]; exact hd)

theorem jobFails_failJob (c : Code) : JobFails s (s.failJob j.number c).close j c := by
  have hleft := eased_jobLeft (j := j) h c
  have hall := eased_jobOrders h hjobs c
  have hnone := jobs_jobLeft h hjobs c
  have hloose : Loosened s (j.orders.foldl (fun t n => t.endOrder n c) (s.jobLeft j c)) :=
    (Loosened.of (s := s) (t := s.retireJob j .failed c) rfl rfl rfl).trans (hleft.loose.trans hall.loose)
  have hkept := Moves.kept (hleft.moves.trans hall.moves)
  have heng := (hleft.trans hall).eng
  rw [failJob_only hjobs]
  refine ⟨?_, ?_, ?_, ?_, ?_, ?_, fun n p hp => ?_, fun i r hr => ?_, fun m hm => ?_, fun m x hm hjoin hx => ⟨?_, ?_⟩⟩
  · rw [close_eng]
    exact (congrArg Engine.jobs heng).trans (jobs_retireJob hjobs .failed c)
  · rw [close_eng]
    exact (congrArg Engine.heldDiscards heng :)
  · rw [close_pool]
    exact Nat.eq_zero_of_le_zero ((hall.loose.held _).trans (heldBy_releaseJob (s.retireJob j .failed c) j).le)
  · rw [close_eng]
    refine (congrArg (fun e : Engine => e.finished.getLast?.map fun k => (k.number, k.state, k.outcome)) heng).trans ?_
    show Option.map _ (List.getLast? (List.drop _ _)) = _
    rw [getLast?_kept]
    rfl
  · exact raised_close (s := s) (u := push _ _) hkept.wait ((Moves.kept hall.moves).latched _ (latch_bit _ _))
  · rw [close_cat]
    exact hloose.pages
  · rw [close_cat]
    exact hloose.photo? hp
  · rw [close_vol]
    exact hloose.slot? hr
  · rw [order?_close]
    refine order?_endOrders c j.orders hleft.still hnone m (.inl ?_)
    rw [Job.orders, List.mem_append, Option.mem_toList]
    exact hm
  all_goals
    have horders : j.orders = [m] := by rw [Job.orders, hm, hjoin]; rfl
    have hord : (s.jobLeft j c).order? m = some x := by
      rw [order?, show (s.jobLeft j c).ord = s.ord from (released_releaseJob (s := s.retireJob j .failed c) h j).ord]
      exact hx
    have hended := orderFailed_endOrder hleft.still hord c
    rw [horders, List.foldl_cons, List.foldl_nil]
  · obtain ⟨f, hf, hnumber, hstate, hcode⟩ := hended.finished
    rw [getLast?_finished_close (s := push _ _) hf, Option.map_some, hnumber, hstate, hcode]
  · refine raised_close (s := s) (u := push _ _) ?_ ?_
    · exact (Moves.kept (moves_endOrder (s.jobLeft j c) m c)).wait.trans (Moves.kept hleft.moves).wait
    · exact (congrArg (fun r : RequestUnit => r.latched.getLsbD Event.orderEnded.bit) hended.req).trans (latch_bit _ _)

end Fails

end State

end Sys2Proof.Machine
end

section
/-! The engine's start behind a job's end (O44, O46). -/

namespace Sys2Proof.Machine

namespace State

/-! ### The pool after a job's releases (R62, R114) -/

theorem removeClaim_nil {s : State} (h : s.pool.claims = []) (x : Holder) : s.removeClaim x = s := by
  simp only [removeClaim, h, List.filter_nil]
  rw [← h]

theorem pool_unpinEdition (s : State) (slot : Nat) : (s.unpinEdition slot).pool = s.pool := by
  unfold unpinEdition enqueueSeal
  split
  · rfl
  · split
    · split <;> rfl
    · rfl

theorem pool_releaseRecall (s : State) (r : Requester) : (s.releaseRecall r).pool = s.pool := by
  have hwait : (s.leaveRecallWait r).pool = s.pool := by
    unfold leaveRecallWait
    split
    · split <;> rfl
    · rfl
  refine Eq.trans ?_ hwait
  unfold releaseRecall releaseSlot
  split
  · rfl
  · dsimp only
    split
    · split <;> rfl
    · rfl

theorem pool_releaseJob {s : State} (h : s.Still) (j : Job) : (s.releaseJob j).pool = s.pool.returned (.job j.number) := by
  have hreturned : ((s.removeClaim (.job j.number)).release (.job j.number)).pool = s.pool.returned (.job j.number) := by
    obtain ⟨tasks, -, -, hform⟩ := release_form (s.removeClaim (.job j.number)) (.job j.number)
    rw [hform, removeClaim_nil h.1]
  refine Eq.trans ?_ hreturned
  unfold releaseJob
  cases j.target with
  | page slot number version => exact pool_unpinEdition _ slot
  | photo n => rfl
  | sealed v k => exact pool_releaseRecall _ _

theorem free_returned (p : Pool) (h : Holder) : (p.returned h).free = (p.without h).free := by
  by_cases hz : p.heldBy h = 0
  · rw [Pool.returned, if_pos hz]
    exact congrArg (List.countP Option.isNone) (emptyOut_of_none hz).symm
  · rw [Pool.returned, if_neg hz]

theorem heldBy_returned {p : Pool} {h k : Holder} (hk : k ≠ h) : (p.returned h).heldBy k = p.heldBy k := by
  unfold Pool.returned
  split
  · rfl
  · exact Pool.heldBy_without hk

/-! ### What a job works on does not depend on pins (R106) -/

theorem Loosened.pageView {s t : State} (h : Loosened s t) (p : Page) : t.cat.pageView p = s.cat.pageView p := by
  have hrights (n : U32) : ((t.cat.photo? n).map Photo.rights) = (s.cat.photo? n).map Photo.rights := by
    have hsame := congrArg (Option.map Photo.rights) (h.photos n)
    rwa [Option.map_map, Option.map_map] at hsame
  simp only [Catalogue.pageView, hrights]

theorem Loosened.page? {s t : State} (h : Loosened s t) (slot number version : Nat) :
    t.cat.page? slot number version = s.cat.page? slot number version := by
  rw [Catalogue.page?, h.pages, ← Catalogue.page?]

theorem Loosened.photoView {s t : State} (h : Loosened s t) (n : U32) :
    (t.cat.photo? n).map Machine.photoView = (s.cat.photo? n).map Machine.photoView := by
  have hsame := congrArg (Option.map Machine.photoView) (h.photos n)
  rwa [Option.map_map, Option.map_map] at hsame

theorem Loosened.copy? {s t : State} (h : Loosened s t) (i : Nat) : t.vol.copy? i = s.vol.copy? i := by
  have hsame := congrArg (fun x : Option RecallSlot => x.bind RecallSlot.copy) (h.slots i)
  simp only [Option.bind_map] at hsame
  exact hsame

theorem Loosened.jobView {s t : State} (h : Loosened s t) (j : Job) : t.jobView j = s.jobView j := by
  unfold State.jobView
  cases j.target with
  | page slot number version =>
    dsimp only
    rw [h.page?, funext h.pageView]
  | photo n => exact h.photoView n
  | sealed v k =>
    dsimp only
    rw [show t.vol.copy? = s.vol.copy? from funext h.copy?]

/-! ### The engine's start (R106) -/

section Next

variable {s u : State} {gone : Nat} {k : Job} {v : View} (hstill : u.Still) (hjobs : u.eng.jobs = [k])
  (hq : k.state = .queued) (hr : k.isReady = true) (hv : u.jobView k = some v) (ho : u.link.state = .online)
include hstill hjobs hq hr hv ho

/-- The only live job starts: with room it has its segments and reads its body, else its claim waits. -/
theorem startJob_only :
    (v.need + 32 ≤ u.pool.free → u.startJob = { u with
      pool := u.pool.given (.job k.number) v.need
      link := u.link.accept (.readForJob k.number k.target.volume v.current)
      eng := { u.eng with jobs := [k.started v .survey] } }) ∧
    (u.pool.free < v.need + 32 → u.startJob = { u with
      pool := { u.pool with claims := [⟨.job k.number, v.need⟩] }
      eng := { u.eng with jobs := [k.started v .claiming] } }) := by
  have hidle : ∀ x ∈ u.eng.jobs, x.state.isActive = false := by simp [hjobs, hq, JobState.isActive]
  have hfirst : u.eng.jobs.find? (fun x => x.state == .queued && x.isReady) = some k := by simp [hjobs, hq, hr]
  have hone (f : Job → Job) : u.eng.jobs.map (fun x => if x.number == k.number then f x else x) = [f k] := by
    simp [hjobs]
  refine ⟨fun hfits => ?_, fun hshort => ?_⟩
  · rw [startJob_accepted hidle hfirst hv hstill.1 (job?_only hjobs) hfits ho, withJob, hone]
  · rw [startJob_claiming hidle hfirst hv hstill.1 hshort, withJob, hone]

/-- A start opens no consequence, whatever is open. -/
theorem leads_startJob_only : u.Leads .startJob u.startJob := by
  intro a
  have here := startJob_only hstill hjobs hq hr hv ho
  have there := startJob_only (u := { u with agenda := a }) hstill hjobs hq hr hv ho
  rcases Nat.lt_or_ge u.pool.free (v.need + 32) with hshort | hfits
  · rw [here.2 hshort]
    exact there.2 hshort
  · rw [here.1 hfits]
    exact there.1 hfits

theorem eng_startJob_only : ∃ j, u.startJob.eng = { u.eng with jobs := [j] } := by
  have hstarts := startJob_only hstill hjobs hq hr hv ho
  rcases Nat.lt_or_ge u.pool.free (v.need + 32) with hshort | hfits
  · exact ⟨_, by rw [hstarts.2 hshort]⟩
  · exact ⟨_, by rw [hstarts.1 hfits]⟩

/-- The one behind a job that is gone has started. -/
theorem nextStarts_startJob (hpool : u.pool = s.pool.returned (.job gone)) (hne : k.number ≠ gone) :
    NextStarts s u.startJob.close gone k v u.link := by
  have hstarts := startJob_only hstill hjobs hq hr hv ho
  have hfree : u.pool.free = (s.pool.without (.job gone)).free := by rw [hpool, free_returned]
  rw [NextStarts, ← hfree, close_eng, close_pool, close_link]
  refine ⟨fun i hfits hl => ?_, fun hshort => ?_⟩
  · rw [hstarts.1 hfits]
    refine ⟨rfl, hstill.1, ?_, accept_takes hl rfl⟩
    rw [Pool.heldBy_given (by omega), hpool, heldBy_returned (by simpa using hne)]
  · rw [hstarts.2 hshort]
    exact ⟨rfl, rfl, rfl⟩

/-- Idle consequences pass, the next job starts, and no locator is held that could be freed. -/
theorem settle_next {l rest : List Task} (hl : ∀ x ∈ l, x.Idle) (hrest : ∀ x ∈ rest, x = .heldDiscards)
    (hd : rest ≠ [] → u.eng.heldDiscards = []) (n : Nat) :
    (settle (l.length + (n + 1)) { u with agenda := l ++ .startJob :: rest }).close = u.startJob.close := by
  rw [settle_idle (s := u) (.startJob :: rest) hl (fun _ => hstill.1) (fun _ => hstill.2.1),
    settle_leads (leads_startJob_only hstill hjobs hq hr hv ho) n rest]
  refine settle_inert_close u.startJob n rest fun x hx => ?_
  obtain ⟨j, heng⟩ := eng_startJob_only hstill hjobs hq hr hv ho
  rw [hrest x hx]
  refine leads_heldDiscards_nil ?_
  rw [heng]
  exact hd (List.ne_nil_of_mem hx)

end Next

end State

end Sys2Proof.Machine
end

section
/-! The store operations of a job: they fail the job, or the survey's body lands (O44, O46). -/

namespace Sys2Proof.Machine

namespace State

/-! ### An operation of the only job fails (R71, R74, R75, R114) -/

/-- At its owner the failed operation fails the job; behind a read the held locators, of which there are none, are looked at. -/
abbrev FailsJob (s : State) (op : Op) (n : Nat) : Prop :=
  ∀ (link : StoreLink) (c : Code), ∃ rest : List Task, (∀ x ∈ rest, x = .heldDiscards ∧ s.eng.heldDiscards = []) ∧
    completed { s with link := link } op (.failed c) = { failJob { s with link := link } n c with
      agenda := (failJob { s with link := link } n c).agenda ++ rest }

theorem failsJob_read {s : State} (h : s.eng.heldDiscards = []) (n : Nat) (volume locator : U32) :
    s.FailsJob (.readForJob n volume locator) n := fun _ _ => ⟨[.heldDiscards], by simp [h], rfl⟩

theorem failsJob_write (s : State) (n length : Nat) (x : IndexRecord) : s.FailsJob (.writeRestoration n length x) n :=
  fun _ _ => ⟨[], by simp, by rw [List.append_nil]; rfl⟩

theorem failsJob_amend (s : State) (n length level : Nat) (volume : U32) (key : EntryKey) (p : Points) :
    s.FailsJob (.amend n volume key length p level) n := fun _ _ => ⟨[], by simp, by rw [List.append_nil]; rfl⟩

section Fails

variable {s : State} {j : Job} {op : Op} (h : s.Working) (hstill : s.Still) (hjobs : s.eng.jobs = [j]) (hop : s.FailsJob op j.number)
include h hstill hjobs hop

theorem jobFails_completed (link : StoreLink) (c : Code) :
    JobFails s (settle 65535 (completed { s with link := link } op (.failed c))).close j c := by
  obtain ⟨rest, hrest, hcompleted⟩ := hop link c
  rw [hcompleted, settle_failJob_close (s := { s with link := link }) hstill hjobs h.2.1 c 65535 hrest]
  exact jobFails_failJob (s := { s with link := link }) hstill hjobs c

/-- By an answer. -/
theorem storeAnswer_fails {α : Type} {at_ : SlotTag} {fits : Op → Bool} {returns : α → Returns} {ans : Answer α} {c : Code}
    {fault : Bool} (hans : s.link.answered? at_ fits = some op) (hc : op.completion returns ans = (.failed c, fault))
    (hf : fault = true → s.link.failures < 7) : ∃ t, storeAnswer at_ fits returns ans s = .next t ∧ JobFails s t j c := by
  have hends (link : StoreLink) (hslot : s.completeSlot at_.slot.toNat op (.failed c) fault =
      push { s with link := link } (.complete op (.failed c))) :
      ∃ t, storeAnswer at_ fits returns ans s = .next t ∧ JobFails s t j c :=
    ⟨_, storeAnswer_settles h hans (by rw [hc]; exact hslot) rfl, jobFails_completed h hstill hjobs hop link c⟩
  cases fault with
  | false => exact hends _ (completeSlot_served s _ op _)
  | true => exact hends _ (completeSlot_faulted (hf rfl) _ op _)

/-- By a timeout. -/
theorem storeOperationTimeout_fails {slot : BitVec 3} (hd : s.link.timedOut? slot.toNat = some op) (hf : s.link.failures < 7) :
    ∃ t, exec (.storeOperationTimeout slot) s = .next t ∧ JobFails s t j .storeTimeout :=
  ⟨_, exec_storeOperationTimeout_settles h hd hf rfl, jobFails_completed h hstill hjobs hop _ .storeTimeout⟩

end Fails

/-! ### The survey's read (R108, R109, R113) -/

section Survey

variable {s : State} {at_ : SlotTag} {n : Nat} {volume locator : U32} {body : List U8} {j : Job} {v : View} (h : s.Working)
  (hans : s.link.answered? at_ Op.isSurvey = some (.readForJob n volume locator)) (hj : s.job? n = some j)
  (hv : s.jobView j = some v)
include h hans hj hv

/-- The job is MAPPING: its body is stored, and the histogram is the body's. -/
abbrev surveyed (s : State) (link : StoreLink) (n : Nat) (body : List U8) : State := State.withJob { s with
  pool := s.pool.putContent (.job n) body, eng := { s.eng with histogram := histogramOf body }, link := link } n fun j =>
    { j with state := .mapping }

omit h hans in
theorem surveyRead_checked (hc : v.stored = crc32 body) (link : StoreLink) :
    surveyRead { s with link := link } n body = s.surveyed link n body := by
  have hjob : ({ s with link := link } : State).job? n = some j := hj
  have hview : ({ s with link := link } : State).jobView j = some v := hv
  simp only [surveyRead, hjob, hview, Option.map_some, hc, BEq.rfl, if_true]

omit h hans in
theorem surveyRead_unchecked (hc : v.stored ≠ crc32 body) (link : StoreLink) :
    surveyRead { s with link := link } n body = failJob { s with link := link } n .bodyCheck := by
  have hjob : ({ s with link := link } : State).job? n = some j := hj
  have hview : ({ s with link := link } : State).jobView j = some v := hv
  rw [surveyRead, hjob]
  dsimp only
  rw [hview, Option.map_some, if_neg (by simpa using hc)]

/-- The held locators are looked at behind a body with the recorded check. -/
theorem exec_surveyRead (hc : v.stored = crc32 body) {x : State}
    (hx : releaseDiscards s.eng.heldDiscards (s.surveyed (s.link.served at_.slot.toNat (.readForJob n volume locator)) n body) = x)
    (ha : x.agenda = []) : exec (.surveyReadCompletion at_ (.done body)) s = .next x.close := by
  refine storeAnswer_settles h hans (completeSlot_served ..) ?_
  show settle 65535 ((surveyRead _ n body).push .heldDiscards) = x
  rw [surveyRead_checked hj hv hc]
  refine (settle_push (by exact h.2.1) .heldDiscards 65534).trans ?_
  refine (congrArg (settle 65534) hx).trans (settle_of_nil _ x ha)

/-- With another check the job fails. -/
theorem exec_surveyRead_unchecked (hc : v.stored ≠ crc32 body) (hd : s.eng.heldDiscards = []) (hstill : s.Still)
    (hjobs : s.eng.jobs = [j]) : ∃ t, exec (.surveyReadCompletion at_ (.done body)) s = .next t ∧ JobFails s t j .bodyCheck := by
  obtain rfl : j.number = n := job?_number hj
  refine ⟨_, storeAnswer_settles h hans (completeSlot_served ..) rfl, ?_⟩
  show JobFails s (settle 65535 ((surveyRead _ j.number body).push .heldDiscards)).close j .bodyCheck
  rw [surveyRead_unchecked hj hv hc]
  exact jobFails_completed h hstill hjobs (failsJob_read hd j.number volume locator) _ .bodyCheck

end Survey

end State

end Sys2Proof.Machine
end

section
/-! The job behind one that fails; the held locators behind a survey's read; the end of MAPPING (O44). -/

namespace Sys2Proof.Machine

namespace State

/-! ### The next job starts behind a failure (R106, R114) -/

section Next

variable {s : State} {j k : Job} {v : View} (hstill : s.Still) (ho : s.link.state = .online) (hjobs : s.eng.jobs = [j, k])
  (hcreator : j.creator = none) (hjoin : j.joiners = []) (hne : k.number ≠ j.number) (hq : k.state = .queued)
  (hr : k.isReady = true) (hv : s.jobView k = some v)
include hstill ho hjobs hcreator hjoin hne hq hr hv

/-- A failure, with a look at the held locators behind it, of which there are none. -/
theorem failJob_next (ha : s.agenda = []) (hd : s.eng.heldDiscards = []) (c : Code) :
    let t := (settle 65535 ((s.failJob j.number c).push .heldDiscards)).close
    t.eng.finished.getLast?.map (fun k => (k.number, k.state, k.outcome)) = some (j.number, .failed, c) ∧
      NextStarts s t j.number k v s.link := by
  have hreleased := released_releaseJob (s := s.retireJob j .failed c) hstill j
  have hleft := eased_jobLeft (j := j) hstill c
  have hjob : s.job? j.number = some j := by simp [job?, hjobs]
  have hjobs' : (s.jobLeft j c).eng.jobs = [k] := by
    refine (congrArg Engine.jobs hleft.eng).trans ?_
    simp [retireJob, hjobs, hne]
  have hview : (s.jobLeft j c).jobView k = some v := (hleft.loose.jobView k).trans hv
  have honline : (s.jobLeft j c).link.state = .online := (congrArg StoreLink.state hleft.link).trans ho
  have hheld : (s.jobLeft j c).eng.heldDiscards = [] := (congrArg Engine.heldDiscards hleft.eng).trans hd
  have hpool : (s.jobLeft j c).pool = s.pool.returned (.job j.number) := pool_releaseJob (s := s.retireJob j .failed c) hstill j
  obtain ⟨l, hlen, hl, hagenda⟩ := hreleased.tasks
  have hends : (settle 65535 ((s.failJob j.number c).push .heldDiscards)).close = (s.jobLeft j c).startJob.close := by
    have hopened : (s.failJob j.number c).push .heldDiscards =
        { s.jobLeft j c with agenda := l ++ .startJob :: [.heldDiscards] } := by
      have hleaves : (s.jobLeft j c).agenda = l := by
        refine hagenda.trans ?_
        rw [show (s.retireJob j .failed c).agenda = [] from ha, List.nil_append]
      have horders : j.orders = [] := by rw [Job.orders, hcreator, hjoin]; rfl
      have hfails : s.failJob j.number c = (s.jobLeft j c).push .startJob := by
        simp only [failJob, hjob, horders, List.foldl_nil]
      rw [hfails, push, push, hleaves, List.append_assoc]
      rfl
    rw [hopened, show 65535 = l.length + (65534 - l.length + 1) by omega]
    exact settle_next hleft.still hjobs' hq hr hview honline hl (by simp) (fun _ => hheld) _
  obtain ⟨y, heng⟩ := eng_startJob_only hleft.still hjobs' hq hr hview honline
  rw [hends]
  refine ⟨?_, ?_⟩
  · rw [close_eng, heng]
    refine (congrArg (fun e : Engine => e.finished.getLast?.map fun k => (k.number, k.state, k.outcome)) hleft.eng).trans ?_
    show Option.map _ (List.getLast? (List.drop _ _)) = _
    rw [getLast?_kept]
    rfl
  · have hstarts := nextStarts_startJob hleft.still hjobs' hq hr hview honline hpool hne
    rwa [hleft.link] at hstarts

end Next

/-! ### Held locators are freed (R113) -/

theorem releaseDiscards_held {s : State} {d : HeldDiscard} (h : ∃ op ∈ s.link.held, op.reads d.locator = true) :
    releaseDiscards [d] s = s := by
  rw [releaseDiscards, if_pos (by simpa using h)]
  rfl

theorem releaseDiscards_free {s : State} {d : HeldDiscard} (hd : s.eng.heldDiscards = [d]) {i : Nat}
    (h : ∀ op ∈ s.link.held, op.reads d.locator = false) (hl : s.link.Takes i) (hroom : s.link.discards < 32) :
    releaseDiscards [d] s = { s with
      eng := { s.eng with heldDiscards := [] }
      link := s.link.freeing i d.locator (match d.revertOf with | some r => .withIndex (s.cat.indexOf r) | none => .plain) } := by
  rw [releaseDiscards, if_neg (by simpa using h), hd, List.erase_cons_head]
  exact handOff_free (s := { s with eng := { s.eng with heldDiscards := [] } }) hl hroom

/-! ### The end of MAPPING (R110, R111) -/

section Mapping

variable {s : State} {j : Job} (h : s.Working) (hm : s.eng.mapping? = some j)
include h hm

/-- The mapped body is in the pool, the points are recorded, and the histogram is discarded. -/
abbrev mappedBody (s : State) (j : Job) : State :=
  let p := pointsOf s.eng.histogram j.low j.high j.span
  withJob { s with
    pool := s.pool.putContent (.job j.number) ((s.pool.content (.job j.number)).map (stretch p))
    eng := { s.eng with histogram := [] } } j.number fun j => { j with state := .writing, points := some p }

omit h in
theorem mapped_eq {op : Op} (hw : s.jobWrite? j ((s.pool.content (.job j.number)).map
    (stretch (pointsOf s.eng.histogram j.low j.high j.span))).length (pointsOf s.eng.histogram j.low j.high j.span) = some op) :
    s.mapped = (s.mappedBody j).handOff op := by
  simp only [mapped, hm, endMapping, hw]

theorem exec_mappingEnd {x : State} (hx : s.mapped.settled = x) : exec .mappingEnd s = .next x.close := by
  refine event_settles (happens := fun s => s.eng.mapping?.isSome) (body := State.mapped) h (by rw [hm]; rfl) hx ?_
  rw [← hx, (kept_settled _).mode]
  unfold mapped
  rw [hm, (Moves.kept (moves_endMapping s j)).mode]
  exact h.2.2.1

theorem exec_mappingEnd_writes {op : Op} {i : Nat} (hw : s.jobWrite? j ((s.pool.content (.job j.number)).map
    (stretch (pointsOf s.eng.histogram j.low j.high j.span))).length (pointsOf s.eng.histogram j.low j.high j.span) = some op)
    (hd : op.isDiscard = false) (hl : s.link.Takes i) :
    exec .mappingEnd s = .next (close { s.mappedBody j with link := s.link.occupy i op }) := by
  refine exec_mappingEnd h hm ?_
  rw [mapped_eq hm hw, handOff_takes (by exact hl) hd]
  exact settle_of_nil _ _ h.2.1

end Mapping

section Write

variable {s : State} {j : Job} (length : Nat) (points : Points)

theorem jobWrite?_page {slot number version : Nat} {p : Page} (ht : j.target = .page slot number version)
    (hp : s.cat.page? slot number version = some p) : s.jobWrite? j length points =
      some (.writeRestoration j.number length (.page { s.cat.indexPage p with
        current := none, stored := none, level := min 3 (j.startLevel + 1), points := some points })) := by
  simp only [jobWrite?, ht, hp, Option.map_some]

theorem jobWrite?_photo {n : U32} {p : Photo} (ht : j.target = .photo n) (hp : s.cat.photo? n = some p) :
    s.jobWrite? j length points = some (.writeRestoration j.number length (.photo { indexPhoto p with
      current := none, stored := none, level := min 3 (j.startLevel + 1), points := some points })) := by
  simp only [jobWrite?, ht, hp, Option.map_some]

theorem jobWrite?_sealed {volume : U32} {key : EntryKey} {k : Nat} {r : RecallSlot} (ht : j.target = .sealed volume key)
    (hk : j.recallSlot = some k) (hr : s.vol.slot? k = some r) : s.jobWrite? j length points =
      some (.amend j.number r.volume r.key length points (min 3 (j.startLevel + 1))) := by
  simp only [jobWrite?, ht, hk, Option.bind_some, hr, Option.map_some]

/-- A job whose target is there has a write to hand off, whose failure fails the job. -/
theorem jobWrite?_of_view (hv : (s.jobView j).isSome = true) :
    ∃ op, s.jobWrite? j length points = some op ∧ ∀ u : State, u.FailsJob op j.number := by
  unfold jobView at hv
  cases ht : j.target with
  | page slot number version =>
    simp only [ht, Option.isSome_map] at hv
    obtain ⟨p, hp⟩ := Option.isSome_iff_exists.1 hv
    exact ⟨_, jobWrite?_page length points ht hp, fun u => failsJob_write u _ _ _⟩
  | photo n =>
    simp only [ht, Option.isSome_map] at hv
    obtain ⟨p, hp⟩ := Option.isSome_iff_exists.1 hv
    exact ⟨_, jobWrite?_photo length points ht hp, fun u => failsJob_write u _ _ _⟩
  | sealed volume key =>
    simp only [ht, Option.isSome_map] at hv
    obtain ⟨c, hc⟩ := Option.isSome_iff_exists.1 hv
    obtain ⟨i, hi, hcopy⟩ := Option.bind_eq_some_iff.1 hc
    obtain ⟨r, hr, -⟩ := Option.bind_eq_some_iff.1 hcopy
    exact ⟨_, jobWrite?_sealed length points ht hi hr, fun u => failsJob_amend u _ _ _ _ _ _⟩

/-- The targets of a job, and the write that each hands off (R111). -/
theorem jobWrite?_eq {write : Nat → Points → Op}
    (h : (∃ n p, j.target = .photo n ∧ s.cat.photo? n = some p ∧ write = fun length points =>
        .writeRestoration j.number length (.photo { indexPhoto p with
          current := none, stored := none, level := min 3 (j.startLevel + 1), points := some points })) ∨
      (∃ slot number version p, j.target = .page slot number version ∧ s.cat.page? slot number version = some p ∧
        write = fun length points => .writeRestoration j.number length (.page { s.cat.indexPage p with
          current := none, stored := none, level := min 3 (j.startLevel + 1), points := some points })) ∨
      ∃ volume key k r, j.target = .sealed volume key ∧ j.recallSlot = some k ∧ s.vol.slot? k = some r ∧
        write = fun length points => .amend j.number r.volume r.key length points (min 3 (j.startLevel + 1))) :
    s.jobWrite? j length points = some (write length points) ∧ (write length points).isDiscard = false := by
  rcases h with ⟨n, p, ht, hp, rfl⟩ | ⟨slot, number, version, p, ht, hp, rfl⟩ | ⟨volume, key, k, r, ht, hk, hr, rfl⟩
  · exact ⟨jobWrite?_photo length points ht hp, rfl⟩
  · exact ⟨jobWrite?_page length points ht hp, rfl⟩
  · exact ⟨jobWrite?_sealed length points ht hk hr, rfl⟩

end Write

theorem handOff_offline {s : State} (h : s.link.state ≠ .online) (op : Op) :
    s.handOff op = s.push (.complete op (.failed .storeOffline)) := by
  unfold handOff
  cases hs : s.link.state with
  | online => exact absurd hs h
  | offline => rfl
  | recovered => rfl

/-- With the link not ONLINE the write fails the job at once. -/
theorem exec_mappingEnd_offline {s : State} {j : Job} (h : s.Working) (hstill : s.Still) (hjobs : s.eng.jobs = [j])
    (hmapping : j.state = .mapping) (hv : (s.jobView j).isSome = true) (hl : s.link.state ≠ .online) :
    ∃ t, exec .mappingEnd s = .next t ∧ JobFails s t j .storeOffline := by
  have hm : s.eng.mapping? = some j := by simp [Engine.mapping?, hjobs, hmapping]
  obtain ⟨op, hw, hfails⟩ := jobWrite?_of_view ((s.pool.content (.job j.number)).map
    (stretch (pointsOf s.eng.histogram j.low j.high j.span))).length (pointsOf s.eng.histogram j.low j.high j.span) hv
  let written : Job := { j with state := .writing, points := some (pointsOf s.eng.histogram j.low j.high j.span) }
  have hjobs' : (s.mappedBody j).eng.jobs = [written] := by
    simp [hjobs, written]
  refine ⟨_, exec_mappingEnd h hm rfl, ?_⟩
  rw [mapped_eq hm hw, handOff_offline (by exact hl), settled_push (by exact h.2.1)]
  exact jobFails_completed (s := s.mappedBody j) (j := written) h hstill hjobs' (hfails _) _ .storeOffline

end State

/-- Settles O44. -/
theorem surveyThenMapping : Obligations.SurveyThenMapping := by
  unfold Obligations.SurveyThenMapping
  refine ⟨fun s at_ n volume locator body j v h hans hj hv hd => ⟨fun hc => ?_, fun hc hstill hjobs => ?_⟩,
    fun s j volume locator run code h hstill hjobs hd hrun => ?_,
    fun s at_ volume locator j k v h hstill ho hjobs hd hcreator hjoin hne hq hr hans hv => ?_,
    fun s at_ n i volume locator body j v d h hans hj hv hc hd => ⟨fun hreads => ?_, fun hfree hl hroom => ?_⟩,
    fun s j h hstill hjobs hm hv hl => State.exec_mappingEnd_offline h hstill hjobs hm hv hl,
    fun s j i write h hm hl hwrite => ?_⟩
  · exact State.exec_surveyRead h hans hj hv hc (by rw [hd]; rfl) h.2.1
  · obtain ⟨t, hexec, hfails⟩ := State.exec_surveyRead_unchecked h hans hj hv hc hd hstill hjobs
    obtain rfl : j.number = n := State.job?_number hj
    obtain ⟨hnone, -, hheld, hlast, hraised, -, -, -, hgone, hended⟩ := hfails
    exact ⟨t, hexec, hnone, hheld, hlast, hgone, hended, hraised⟩
  · have hop := State.failsJob_read hd j.number volume locator
    rcases hrun with ⟨at_, hans, hrun⟩ | ⟨slot, hdue, hf, rfl, rfl⟩
    · rcases hrun with ⟨rfl, rfl⟩ | ⟨rfl, hf, rfl⟩ | ⟨rfl, hv, rfl⟩ | ⟨rfl, hv, rfl⟩
      · exact State.storeAnswer_fails h hstill hjobs hop hans (fault := false) rfl nofun
      · exact State.storeAnswer_fails h hstill hjobs hop hans (fault := true) rfl fun _ => hf
      · exact State.storeAnswer_fails h hstill hjobs hop hans (fault := false) (by rw [hv]; rfl) nofun
      · exact State.storeAnswer_fails h hstill hjobs hop hans (fault := false)
          (by rw [Op.completion, Op.notFound, if_neg hv]) nofun
    · exact State.storeOperationTimeout_fails h hstill hjobs hop hdue hf
  · refine ⟨_, State.storeAnswer_settles h hans (State.completeSlot_served ..) rfl, ?_⟩
    exact State.failJob_next (s := { s with link := s.link.served at_.slot.toNat (.readForJob j.number volume locator) }) hstill
      ((StoreLink.served_state _ _ _).trans ho) hjobs hcreator hjoin hne hq hr hv h.2.1 hd .storeFault
  · refine State.exec_surveyRead h hans hj hv hc ?_ h.2.1
    rw [hd]
    exact (State.releaseDiscards_held
      (s := s.surveyed (s.link.served at_.slot.toNat (.readForJob n volume locator)) n body) hreads).trans (by rw [← hd])
  · refine State.exec_surveyRead h hans hj hv hc ?_ h.2.1
    rw [hd]
    exact State.releaseDiscards_free
      (s := s.surveyed (s.link.served at_.slot.toNat (.readForJob n volume locator)) n body) hd hfree hl hroom
  · obtain ⟨hw, hdiscard⟩ := State.jobWrite?_eq _ _ hwrite
    exact State.exec_mappingEnd_writes h hm hw hdiscard hl


end Sys2Proof.Machine
end

section
/-! A write-back that completes: the record restored, its job DONE, and the orders that waited on it priced (O46). -/

namespace Sys2Proof.Machine

theorem Catalogue.withPhoto_withPhoto (c : Catalogue) (n : U32) {f g : Photo → Photo} (hf : ∀ p, (f p).number = p.number) :
    (c.withPhoto n f).withPhoto n g = c.withPhoto n fun p => g (f p) := by
  simp only [withPhoto, List.map_map]
  congr 1
  refine List.map_congr_left fun p _ => ?_
  by_cases hn : p.number = n <;> simp [Function.comp, hn, hf]

theorem Catalogue.withEdition_unknown {c : Catalogue} {slot : Nat} (h : c.edition? slot = none) (f : Edition → Edition) :
    c.withEdition slot f = c := by
  have hsame : c.editions.modify slot (Option.map f) = c.editions := by
    refine List.ext_getElem? fun i => ?_
    rw [List.getElem?_modify]
    split
    · next hi =>
      rw [← hi]
      unfold edition? at h
      cases hx : c.editions[slot]? with
      | none => rfl
      | some x =>
        rw [hx] at h
        rw [show x = none from h]
        rfl
    · cases c.editions[i]? <;> rfl
  rw [withEdition, hsame]

namespace State

/-! ### The job gives back its holds on the restored record (R112) -/

/-- No edition is due, so that the release of a pin is that and no more. -/
theorem unpinEdition_still {s : State} (h : ∀ e ∈ s.cat.editions, e.all (fun x => !x.due) = true) (slot : Nat) :
    s.unpinEdition slot = s.withCat fun c => c.withEdition slot fun e => { e with pins := e.pins - 1 } := by
  unfold unpinEdition
  split
  · next he => rw [withCat, Catalogue.withEdition_unknown he]
  · next e he =>
    have hdue : e.due = false := by simpa using h _ (Catalogue.edition?_mem he)
    rw [hdue, Bool.and_false, if_neg Bool.false_ne_true]

/-- A job has ended DONE and given back its holds; its orders and the replaced body are still to be looked at. -/
abbrev doneLeft (s : State) (j : Job) (w : Written) : State :=
  (((s.applyRestored j w).retireJob j .done .ok).releaseJob j).latch .restoreDone

/-- A resident job that has ended DONE, with the catalogue cat, its segments given back and RESTORE_DONE latched. -/
abbrev jobDone (s : State) (j : Job) (cat : Catalogue) (l : List Task) : State := latch { s with
  cat := cat, pool := s.pool.returned (.job j.number), eng := (s.retireJob j .done .ok).eng, agenda := s.agenda ++ l } .restoreDone

section Done

variable {s : State} {j : Job} {w : Written} {cat : Catalogue} {replaced : Option U32} (h : s.Still) (hres : s.Restores j w cat replaced)
include h hres

theorem restored_released : ∃ l : List Task, l.length ≤ 1 ∧ (∀ x ∈ l, x.Idle) ∧
    s.doneLeft j w = s.jobDone j cat l := by
  rcases hres with ⟨n, p, ht, hp, -, rfl⟩ | ⟨slot, number, version, p, ht, hp, -, rfl⟩
  · have hretired : (s.applyRestored j w).retireJob j .done .ok = { s with
        cat := s.cat.withPhoto n fun p => { p with
          current := some w.locator, stored := some w.stored, level := min 3 (j.startLevel + 1), points := j.points }
        eng := (s.retireJob j .done .ok).eng } := by
      simp only [applyRestored, retireJob, resolvedTarget, ht]
      rfl
    obtain ⟨l, hlen, hl, hform⟩ := release_form ((s.applyRestored j w).retireJob j .done .ok) (.job j.number)
    refine ⟨l, hlen, fun x hx => .inl (hl x hx), congrArg (fun u : State => u.latch .restoreDone) ?_⟩
    rw [releaseJob, removeClaim_nil (by rw [hretired]; exact h.1), hform, ht, hretired]
    exact congrArg (fun c => ({ s with
      cat := c, pool := s.pool.returned (.job j.number), eng := (s.retireJob j .done .ok).eng, agenda := s.agenda ++ l } : State))
      (Catalogue.withPhoto_withPhoto s.cat n fun _ => rfl)
  · have hretired : (s.applyRestored j w).retireJob j .done .ok = { s with
        cat := s.cat.withPage slot number version fun p => { p with
          current := some w.locator, stored := some w.stored, level := min 3 (j.startLevel + 1), points := j.points }
        eng := (s.retireJob j .done .ok).eng } := by
      simp only [applyRestored, retireJob, resolvedTarget, ht]
      rfl
    obtain ⟨l, hlen, hl, hform⟩ := release_form ((s.applyRestored j w).retireJob j .done .ok) (.job j.number)
    refine ⟨l, hlen, fun x hx => .inl (hl x hx), congrArg (fun u : State => u.latch .restoreDone) ?_⟩
    rw [releaseJob, removeClaim_nil (by rw [hretired]; exact h.1), hform, ht, hretired]
    exact unpinEdition_still (s := { s with
      cat := s.cat.withPage slot number version _, pool := _, eng := _, agenda := _ }) h.2.2 slot

omit h in
theorem supersededBy_restores : s.supersededBy j = if j.startLevel = 0 then none else replaced := by
  unfold supersededBy
  rcases hres with ⟨n, p, ht, hp, rfl, -⟩ | ⟨slot, number, version, p, ht, hp, rfl, -⟩
  · simp only [ht, hp, Option.bind_some]
  · simp only [ht, hp, Option.bind_some]

end Done

/-! ### The rest of the change (R112, R113) -/

/-- The locator that the job's write replaced, if it is to be freed, is handed to discard. -/
def discardSuperseded (s : State) (j : Job) (u : State) : State :=
  match s.supersededBy j with
  | some locator => u.discard ⟨locator, none⟩
  | none => u

theorem discardSuperseded_none {s : State} {j : Job} (h : s.supersededBy j = none) (u : State) : s.discardSuperseded j u = u := by
  unfold discardSuperseded
  rw [h]

theorem discardSuperseded_some {s : State} {j : Job} {locator : U32} (h : s.supersededBy j = some locator) (u : State) :
    s.discardSuperseded j u = u.discard ⟨locator, none⟩ := by
  unfold discardSuperseded
  rw [h]

theorem finishJob_eq {s : State} {j : Job} (hj : s.job? j.number = some j) (hw : j.state = .writing) (w : Written) :
    s.finishJob j.number w = (s.discardSuperseded j (j.orders.foldl priceAfterJob
      (s.doneLeft j w))).push .startJob := by
  have hwriting : (s.job? j.number).filter (fun j => j.state == .writing) = some j := by simp [hj, hw]
  unfold finishJob
  rw [hwriting]
  rfl

/-! ### What a DONE job leaves (R112) -/

theorem applyRestored_rest (s : State) (j : Job) (w : Written) : (s.applyRestored j w).agenda = s.agenda ∧
    (s.applyRestored j w).pool = s.pool ∧ (s.applyRestored j w).eng = s.eng ∧ (s.applyRestored j w).link = s.link ∧
    (s.applyRestored j w).req = s.req ∧ (s.applyRestored j w).vol.recallWait = s.vol.recallWait ∧
    (s.applyRestored j w).cat.editions = s.cat.editions := by
  unfold applyRestored
  dsimp only
  split
  · exact ⟨rfl, rfl, rfl, rfl, rfl, rfl, rfl⟩
  · exact ⟨rfl, rfl, rfl, rfl, rfl, rfl, rfl⟩
  · split <;> exact ⟨rfl, rfl, rfl, rfl, rfl, rfl, rfl⟩

/-- The job has left the queue for the finished list, DONE, and given back its holds, and RESTORE_DONE is latched. -/
structure DoneLeft (s u : State) (j : Job) : Prop where
  tasks : ∃ l : List Task, l.length ≤ 2 ∧ (∀ x ∈ l, x.Idle) ∧ u.agenda = s.agenda ++ l
  still : u.Still
  jobs : u.eng.jobs = s.eng.jobs.filter fun k => k.number != j.number
  last : u.eng.finished.getLast?.map (fun k => (k.number, k.state, k.outcome)) = some (j.number, .done, .ok)
  discards : u.eng.heldDiscards = s.eng.heldDiscards
  pool : u.pool = s.pool.returned (.job j.number)
  link : u.link = s.link
  req : u.req = (s.latch .restoreDone).req

theorem doneLeft_released {s : State} (h : s.Still) (j : Job) (w : Written) :
    DoneLeft s (s.doneLeft j w) j := by
  obtain ⟨hagenda, hpool, heng, hlink, hreq, hwait, heds⟩ := applyRestored_rest s j w
  have hstill : (s.applyRestored j w).Still := ⟨by rw [hpool]; exact h.1, hwait.trans h.2.1, by rw [heds]; exact h.2.2⟩
  have hleft := released_releaseJob (s := (s.applyRestored j w).retireJob j .done .ok) hstill j
  obtain ⟨l, hlen, hl, ha⟩ := hleft.tasks
  refine ⟨⟨l, hlen, hl, ha.trans (congrArg (· ++ l) hagenda)⟩, hleft.still, ?_, ?_, ?_, ?_, hleft.link.trans hlink, ?_⟩
  · refine (congrArg Engine.jobs hleft.eng).trans ?_
    rw [← heng]
    rfl
  · refine (congrArg (fun e : Engine => e.finished.getLast?.map fun k => (k.number, k.state, k.outcome)) hleft.eng).trans ?_
    show Option.map _ (List.getLast? (List.drop _ _)) = _
    rw [getLast?_kept]
    rfl
  · exact (congrArg Engine.heldDiscards hleft.eng).trans (by rw [← heng]; rfl)
  · exact (pool_releaseJob (s := (s.applyRestored j w).retireJob j .done .ok) hstill j).trans
      (congrArg (fun p : Pool => p.returned (.job j.number)) hpool)
  · exact congrArg (fun r : RequestUnit => { r with latched := r.latched ||| bitWord Event.restoreDone.bit }) (hleft.req.trans hreq)

/-- The only job has ended DONE: it has left the queue, its segments are given back, and RESTORE_DONE is raised. -/
abbrev DoneEnds (s t : State) (j : Job) : Prop := t.eng.jobs = [] ∧ t.pool.heldBy (.job j.number) = 0 ∧
  t.eng.finished.getLast?.map (fun k => (k.number, k.state, k.outcome)) = some (j.number, .done, .ok) ∧ Raised s t .restoreDone

/-! ### The body that was replaced (R113) -/

theorem handOff_form {u : State} (ho : u.link.state = .online) (op : Op) : ∃ link, u.handOff op = { u with link := link } := by
  unfold handOff
  rw [ho]
  by_cases hfull : (op.isDiscard && u.link.discards == Config.discardLimit) = true
  · exact ⟨_, if_pos hfull⟩
  · exact ⟨_, if_neg hfull⟩

/-- A locator handed to discard changes no more than the link and the held locators while the link is ONLINE. -/
theorem discard_form {u : State} (ho : u.link.state = .online) (d : HeldDiscard) : ∃ link held,
    u.discard d = { u with link := link, eng := { u.eng with heldDiscards := held } } := by
  unfold discard
  split
  · exact ⟨u.link, _, rfl⟩
  · obtain ⟨link, hlink⟩ := handOff_form ho (.freeBody d.locator _)
    exact ⟨link, u.eng.heldDiscards, hlink⟩

theorem discardSuperseded_form (s : State) (j : Job) {u : State} (ho : u.link.state = .online) : ∃ link held,
    s.discardSuperseded j u = { u with link := link, eng := { u.eng with heldDiscards := held } } := by
  cases hd : s.supersededBy j with
  | none => exact ⟨u.link, u.eng.heldDiscards, discardSuperseded_none hd u⟩
  | some l =>
    rw [discardSuperseded_some hd]
    exact discard_form ho _

theorem discard_held {u : State} {d : HeldDiscard} (h : ∃ op ∈ u.link.held, op.reads d.locator = true) :
    u.discard d = { u with eng := { u.eng with heldDiscards := u.eng.heldDiscards ++ [d] } } :=
  if_pos (by simpa using h)

theorem discard_freed {u : State} {l : U32} (h : ∀ op ∈ u.link.held, op.reads l = false) (ho : u.link.state = .online)
    (hroom : u.link.discards < 32) : u.discard ⟨l, none⟩ = { u with link := u.link.accept (.freeBody l .plain) } :=
  (if_neg (by simpa using h)).trans (handOff_freeBody ho hroom)

theorem discards_accept_free (link : StoreLink) (l : U32) (x : FreeKind) :
    (link.accept (.freeBody l x)).discards = link.discards + 1 := by
  unfold StoreLink.accept
  dsimp only
  split <;> rfl

/-! ### The change in which the only job ends DONE (R112) -/

section Finish

variable {s : State} {j : Job} (h : s.Still) (ho : s.link.state = .online) (hjobs : s.eng.jobs = [j]) (hw : j.state = .writing)
  (ha : s.agenda = []) (w : Written)
include h ho hjobs hw ha

/-- The state behind the job's orders, as its change ends. -/
theorem finishJob_ends {t : State} (hpriced : Eased (s.doneLeft j w) t)
    (ht : j.orders.foldl priceAfterJob (s.doneLeft j w) = t) :
    (settle 65535 (s.finishJob j.number w)).close = (s.discardSuperseded j t).close ∧
      DoneEnds s (s.discardSuperseded j t).close j := by
  have hleft := doneLeft_released h j w
  obtain ⟨link, held, hform⟩ := discardSuperseded_form s j
    (show t.link.state = .online by rw [hpriced.link, hleft.link, ho])
  have hnone : t.eng.jobs = [] := by
    rw [hpriced.eng, hleft.jobs, hjobs]
    simp
  obtain ⟨l, -, hl, hagenda⟩ := hleft.tasks
  obtain ⟨l', hl', hagenda'⟩ := hpriced.tasks
  refine ⟨?_, ?_⟩
  · rw [finishJob_eq (job?_only hjobs) hw, ht, hform]
    refine settle_inert_close { t with link := link, eng := { t.eng with heldDiscards := held } } 65535 _ fun x hx => ?_
    rw [show ({ t with link := link, eng := { t.eng with heldDiscards := held } } : State).agenda = l ++ l' by
      rw [← List.nil_append l, ← ha, ← hagenda]; exact hagenda'] at hx
    rcases List.mem_append.1 hx with hx | hx
    · exact Still.leads (s := { t with link := link, eng := { t.eng with heldDiscards := held } }) hpriced.still
        ((List.mem_append.1 hx).elim (hl x) (hl' x))
    · rw [List.mem_singleton.1 hx]
      exact leads_startJob_nil (by exact hnone)
  · rw [hform, DoneEnds, close_eng, close_pool]
    refine ⟨hnone, ?_, ?_, ?_⟩
    · refine Nat.eq_zero_of_le_zero ((hpriced.loose.held _).trans ?_)
      rw [hleft.pool, heldBy_returned_self]
    · rw [← hleft.last, ← hpriced.eng]
    · have hkept := Moves.kept hpriced.moves
      refine raised_close (u := { t with link := _, eng := _ }) (hkept.wait.trans ?_) (hkept.latched _ ?_)
      · rw [hleft.req]
        rfl
      · rw [hleft.req]
        exact latch_bit _ _

end Finish

end State

end Sys2Proof.Machine
end

section
/-! The orders that waited on a job which ends DONE, the body that it replaced, and the job behind it (O46). -/

namespace Sys2Proof.Machine

/-! ### The link once a write-back has completed (R72, R113) -/

namespace StoreLink

theorem served_discards {op : Op} (hop : op.isDiscard = false) (l : StoreLink) (i : Nat) :
    (l.served i op).discards = l.discards := by
  refine (passOn_rest _ i).2.trans ?_
  rw [hop]
  rfl

/-- The completion of an operation that reads no body leaves the reads of a locator as they were. -/
theorem reads_served {l : StoreLink} {i : Nat} {op : Op} (h : l.Runs i op) {locator : U32} (hop : op.reads locator = false) :
    (∃ r ∈ (l.served i op).held, r.reads locator = true) ↔ ∃ r ∈ l.held, r.reads locator = true := by
  refine exists_congr fun r => and_congr_left fun hr => mem_held_served h ?_
  rintro rfl
  rw [hop] at hr
  cases hr

theorem reads_served_none {l : StoreLink} {i : Nat} {op : Op} (h : l.Runs i op) {locator : U32} (hop : op.reads locator = false)
    (hnone : ∀ r ∈ l.held, r.reads locator = false) : ∀ r ∈ (l.served i op).held, r.reads locator = false := by
  intro r hr
  by_contra hreads
  obtain ⟨x, hx, hxr⟩ := (reads_served h hop).1 ⟨r, hr, by simpa using hreads⟩
  rw [hnone x hx] at hxr
  cases hxr

end StoreLink

namespace State

/-! ### A resident job of no order (R112, R113) -/

section Alone

variable {s : State} {j : Job} {w : Written} {cat : Catalogue} {replaced : Option U32} (hres : s.Restores j w cat replaced)
include hres

/-- No body is to be jobFree behind a job that began at level 0: what its target had was its raw body. -/
theorem discardSuperseded_raw (hlevel : j.startLevel = 0) (u : State) : s.discardSuperseded j u = u :=
  discardSuperseded_none (by rw [supersededBy_restores hres, if_pos hlevel]) u

theorem discardSuperseded_replaced (hlevel : 0 < j.startLevel) {l : U32} (hl : replaced = some l) (u : State) :
    s.discardSuperseded j u = u.discard ⟨l, none⟩ :=
  discardSuperseded_some (by rw [supersededBy_restores hres, if_neg (by omega), hl]) u

end Alone

/-! ### The next job starts behind one that is DONE (R106, R112) -/

section Next

variable {s : State} {j k : Job} {w : Written} {cat : Catalogue} {replaced : Option U32} {v : View} (hstill : s.Still)
  (ho : s.link.state = .online) (hjobs : s.eng.jobs = [j, k]) (hw : j.state = .writing) (hlevel : j.startLevel = 0)
  (hcreator : j.creator = none) (hjoin : j.joiners = []) (hres : s.Restores j w cat replaced)
  (hne : k.number ≠ j.number) (hq : k.state = .queued) (hr : k.isReady = true)
  (hv : State.jobView { s with cat := cat } k = some v)
include hstill ho hjobs hw hlevel hcreator hjoin hres hne hq hr hv

theorem finishJob_next (ha : s.agenda = []) :
    let t := (settle 65535 (s.finishJob j.number w)).close
    t.cat = cat ∧ t.eng.finished.getLast?.map (fun k => (k.number, k.state, k.outcome)) = some (j.number, .done, .ok) ∧
      NextStarts s t j.number k v s.link := by
  have hleft := doneLeft_released hstill j w
  obtain ⟨l, hlen, hl, hdone⟩ := restored_released hstill hres
  rw [hdone] at hleft
  have hjob : s.job? j.number = some j := by simp [job?, hjobs]
  have hjobs' : (s.jobDone j cat l).eng.jobs = [k] := by
    rw [hleft.jobs, hjobs]
    simp [hne]
  have honline : (s.jobDone j cat l).link.state = .online := ho
  have horders : j.orders = [] := by rw [Job.orders, hcreator, hjoin]; rfl
  have hends : (settle 65535 (s.finishJob j.number w)).close = (s.jobDone j cat l).startJob.close := by
    rw [finishJob_eq hjob hw, discardSuperseded_raw hres hlevel, horders, List.foldl_nil, hdone, push,
      show 65535 = l.length + (65534 - l.length + 1) by omega,
      show (s.jobDone j cat l).agenda = l from (congrArg (· ++ l) ha).trans (List.nil_append l)]
    exact settle_next (rest := []) hleft.still hjobs' hq hr hv honline hl (by simp) (fun hnil => absurd rfl hnil) _
  have hstarts := startJob_only hleft.still hjobs' hq hr hv honline
  rw [hends]
  refine ⟨?_, ?_, nextStarts_startJob hleft.still hjobs' hq hr hv honline hleft.pool hne⟩
  · rw [close_cat]
    rcases Nat.lt_or_ge (s.jobDone j cat l).pool.free (v.need + 32) with hshort | hfits
    · exact congrArg State.cat (hstarts.2 hshort)
    · exact congrArg State.cat (hstarts.1 hfits)
  · obtain ⟨y, heng⟩ := eng_startJob_only hleft.still hjobs' hq hr hv honline
    rw [close_eng, heng]
    exact hleft.last

end Next

/-! ### Accounts stay (R150) -/

/-- No consequence of a change opens or closes an account. -/
theorem accounts_moves {s t : State} (h : Moves s t) :
    t.fee.accounts.map Account.number = s.fee.accounts.map Account.number := by
  induction h with
  | refl => rfl
  | tail _ m ih =>
    refine Eq.trans ?_ ih
    cases m with
    | plain h =>
      have hmoney := congrArg (List.map Prod.fst) h.money
      rwa [List.map_map, List.map_map] at hmoney
    | charge n total e a _ _ _ =>
      rw [charged, List.map_map]
      refine List.map_congr_left fun x _ => ?_
      rw [Function.comp]
      split <;> rfl
    | free h => rfl
    | grant c h => rfl

theorem account?_isSome_iff {f : FeeUnit} {k : Nat} : (f.account? k).isSome = true ↔ k ∈ f.accounts.map Account.number := by
  simp [FeeUnit.account?, List.find?_isSome]

theorem account?_moves {s t : State} (h : Moves s t) {k : Nat} (hk : (s.fee.account? k).isSome = true) :
    (t.fee.account? k).isSome = true := by
  rw [account?_isSome_iff, accounts_moves h, ← account?_isSome_iff]
  exact hk

/-! ### An order that waited on the job is priced (R137, R152) -/

theorem Loosened.orderView {s t : State} (h : Loosened s t) (o : Order) : t.orderView o = s.orderView o := by
  unfold State.orderView
  split
  · cases o.photo with
    | none =>
      dsimp only
      rw [h.page?, funext h.pageView]
    | some n => exact h.photoView n
  · rw [show t.vol.copy? = s.vol.copy? from funext h.copy?]

/-- The order waits on no job any more. -/
abbrev jobFree (o : Order) : Order := { o with job := none }

/-- The order n has been priced, or has ended at it; no other order, no record but for pins, and nothing of the engine has changed. -/
structure JobPriced (s t : State) (n : Nat) : Prop where
  eased : Eased s t
  others : ∀ m, m ≠ n → t.order? m = s.order? m
  order : ∀ o, t.order? n = some o → o.job = none ∧
    (o.state = .heldRights ∨ o.state = .heldStatement ∨ o.state = .heldFunds ∨ o.state = .charged)
  entries : (t.order? n).map Order.state = some .charged →
    t.stmt.current.entries.map Entry.order = s.stmt.current.entries.map Entry.order ++ [n]

theorem eased_jobFree {s : State} (h : s.Still) (n : Nat) : Eased s (s.withOrder n jobFree) :=
  ⟨⟨[], by simp, by simp [withOrder]⟩, h, rfl, rfl, .of rfl rfl rfl, Moves.of (.withOrder s n jobFree)⟩

theorem eased_priced {s : State} (h : s.Still) {o : Order} {v : View} {a : Account} (hm : Moves s (s.priced o v a)) :
    Eased s (s.priced o v a) := by
  obtain ⟨hagenda, hlink, hvol, heng, hpool⟩ := priced_blocks (s := s) (o := o) (v := v) (a := a)
  obtain ⟨hcat, -, -⟩ := priced_rest (s := s) (o := o) (v := v) (a := a)
  exact ⟨⟨[], by simp, by rw [hagenda, List.append_nil]⟩, ⟨by rw [hpool]; exact h.1, by rw [hvol]; exact h.2.1,
    by rw [hcat]; exact h.2.2⟩,
    heng, hlink, .of hcat (by rw [hvol]) (by rw [hpool]), hm⟩

/-- An order that goes through pricing waits on no job any more, and is held or charged. -/
theorem OrderPriced.jobPriced {s t : State} {n : Nat} {o : Order} (h : OrderPriced (s.withOrder n jobFree) t n (jobFree o))
    (he : Eased s t) : JobPriced s t n := by
  obtain ⟨o', ho', hform, hstate⟩ := h.order
  refine ⟨he, fun m hm => (h.others m hm).trans (order?_withOrder_ne (fun _ => rfl) hm), fun x hx => ?_, h.entries⟩
  obtain rfl : o' = x := Option.some.inj (ho'.symm.trans hx)
  exact ⟨congrArg Order.job hform, hstate⟩

section Price

variable {s : State} {n : Nat} {o : Order} (h : s.Still) (ho : s.order? n = some o)
include ho

theorem priceAfterJob_passed {v : View} {a : Account} {masked : List Nat} (hv : (s.withOrder n jobFree).orderView (jobFree o) = some v)
    (ha : s.fee.account? o.account = some a) (hc : (s.withOrder n jobFree).holdCheck (jobFree o) v = .passed masked) :
    s.priceAfterJob n = (s.withOrder n jobFree).priced (jobFree o) v a :=
  priceOrder_passed (s := s.withOrder n jobFree) (order?_withOrder_self ho fun _ => rfl) hv ha hc

include h

theorem jobPriced_priceAfterJob (hjobs : s.eng.jobs = []) (hv : (s.orderView o).isSome = true)
    (ha : (s.fee.account? o.account).isSome = true) : JobPriced s (s.priceAfterJob n) n := by
  obtain ⟨v, hv⟩ := Option.isSome_iff_exists.1 hv
  obtain ⟨a, ha⟩ := Option.isSome_iff_exists.1 ha
  let given : State := s.withOrder n jobFree
  have hgiven : Eased s given := eased_jobFree h n
  have horder : given.order? n = some (jobFree o) := order?_withOrder_self ho fun _ => rfl
  have hview : given.orderView (jobFree o) = some v := hv
  have hmoves : Moves given (given.priceOrder n false) := moves_priceOrder given n false
  show JobPriced s (given.priceOrder n false) n
  cases hc : given.holdCheck (jobFree o) v with
  | held =>
    have hheld : given.priceOrder n false = given.holdForRights n := by
      simp only [priceOrder, horder, hview, show given.fee.account? (jobFree o).account = some a from ha, hc]
    rw [hheld] at hmoves ⊢
    refine OrderPriced.jobPriced (orderPriced_held horder (.inl rfl) rfl rfl (fun _ => rfl) rfl) (hgiven.trans ?_)
    exact ⟨⟨[], by simp, by simp [holdForRights, putOnHold, latch, withOrder]⟩, h, rfl, rfl, .of rfl rfl rfl, hmoves⟩
  | expired =>
    have hends : given.priceOrder n false = given.endOrder n .rightsExpired := by
      simp only [priceOrder, horder, hview, show given.fee.account? (jobFree o).account = some a from ha, hc]
    have hfailed := orderFailed_endOrder (s := given) h horder .rightsExpired
    rw [hends]
    refine ⟨hgiven.trans (eased_endOrder (s := given) h hjobs n .rightsExpired), fun m hm => ?_, fun x hx => ?_, fun hx => ?_⟩
    · exact (hfailed.others m hm).trans (order?_withOrder_ne (fun _ => rfl) hm)
    · rw [hfailed.gone] at hx
      cases hx
    · rw [hfailed.gone] at hx
      cases hx
  | passed masked =>
    have hpriced : given.priceOrder n false = given.priced (jobFree o) v a := priceOrder_passed horder hview ha hc
    rw [hpriced] at hmoves ⊢
    exact OrderPriced.jobPriced (orderPriced_priced horder) (hgiven.trans (eased_priced (s := given) h hmoves))

end Price

/-- The orders of the job are priced one after the other, each on what those before it leave. -/
theorem pricedAll : ∀ (ns : List Nat) {s : State}, s.Still → s.eng.jobs = [] → ns.Nodup →
    (∀ n ∈ ns, ∃ o, s.order? n = some o ∧ (s.orderView o).isSome = true ∧ (s.fee.account? o.account).isSome = true) →
    let t := ns.foldl priceAfterJob s
    Eased s t ∧ (∀ m, m ∉ ns → t.order? m = s.order? m) ∧
      (∀ n ∈ ns, ∀ o, t.order? n = some o → o.job = none ∧
        (o.state = .heldRights ∨ o.state = .heldStatement ∨ o.state = .heldFunds ∨ o.state = .charged)) ∧
      ((∀ n ∈ ns, (t.order? n).map Order.state = some .charged) →
        t.stmt.current.entries.map Entry.order = s.stmt.current.entries.map Entry.order ++ ns)
  | [], s, h, _, _, _ => ⟨.refl h, fun _ _ => rfl, by simp, by simp⟩
  | n :: ns, s, h, hjobs, hnd, hall => by
    obtain ⟨hn, hnd⟩ := List.nodup_cons.1 hnd
    obtain ⟨o, ho, hv, ha⟩ := hall n List.mem_cons_self
    have hfirst := jobPriced_priceAfterJob h ho hjobs hv ha
    obtain ⟨heased, hothers, horders, hentries⟩ := pricedAll ns hfirst.eased.still
      ((congrArg Engine.jobs hfirst.eased.eng).trans hjobs) hnd fun m hm => by
        obtain ⟨x, hx, hxv, hxa⟩ := hall m (List.mem_cons_of_mem n hm)
        refine ⟨x, (hfirst.others m (ne_of_mem_of_not_mem hm hn)).trans hx, ?_, account?_moves hfirst.eased.moves hxa⟩
        rw [hfirst.eased.loose.orderView]
        exact hxv
    rw [List.foldl_cons]
    refine ⟨hfirst.eased.trans heased, fun m hm => ?_, fun m hm x hx => ?_, fun hcharged => ?_⟩
    · rw [List.mem_cons, not_or] at hm
      exact (hothers m hm.2).trans (hfirst.others m hm.1)
    · rcases List.mem_cons.1 hm with rfl | hm
      · exact hfirst.order x ((hothers m hn).symm.trans hx)
      · exact horders m hm x hx
    · have hhead := hcharged n List.mem_cons_self
      rw [hothers n hn] at hhead
      rw [hentries fun m hm => hcharged m (List.mem_cons_of_mem n hm), hfirst.entries hhead, List.append_assoc,
        List.singleton_append]

end State

end Sys2Proof.Machine
end

section
/-! A write-back of a sealed entry that completes: the copies in the recall slots amended, and the job's slot given back (O46). -/

namespace Sys2Proof.Machine

/-- No two recall slots have one name (R92, R93). -/
theorem VolumeUnit.slot_eq_of_name {v : VolumeUnit} (h : v.TableSound) {a b : Nat} {x y : RecallSlot} (hx : v.slot? a = some x)
    (hy : v.slot? b = some y) (hn : x.name = y.name) : a = b := by
  have hpair := List.pairwise_iff_getElem.1 (List.pairwise_filterMap.1 h.2)
  have hget {k : Nat} {z : RecallSlot} (hz : v.slot? k = some z) :
      (v.table[k]'(VolumeUnit.slot?_lt hz)).map RecallSlot.name = some z.name := by
    have hk := VolumeUnit.slot?_eq hz
    rw [List.getElem?_eq_getElem (VolumeUnit.slot?_lt hz), Option.some.injEq] at hk
    rw [hk]
    rfl
  have hlt {k l : Nat} {z u : RecallSlot} (hz : v.slot? k = some z) (hu : v.slot? l = some u) (hkl : k < l) : z.name ≠ u.name :=
    hpair k l _ _ hkl z.name (hget hz) u.name (hget hu)
  rcases Nat.lt_trichotomy a b with hab | hab | hab
  · exact absurd hn (hlt hx hy hab)
  · exact hab
  · exact absurd hn.symm (hlt hy hx hab)

namespace State

/-! ### The copies amended (R112) -/

/-- The change that a write-back of the entry in slot r makes to a slot. -/
abbrev amendSlot (r : RecallSlot) (w : Written) (level : Nat) (points : Option Points) (y : RecallSlot) : RecallSlot :=
  if y.volume == r.volume then { y with copy := y.copy.map (amendCopy (y.key == r.key) r.key w level points) } else y

/-- The recall table once a write-back of the entry in slot r has completed. -/
abbrev amendedTable (v : VolumeUnit) (r : RecallSlot) (w : Written) (level : Nat) (points : Option Points) : VolumeUnit :=
  { v with table := v.table.map fun x => x.map (amendSlot r w level points) }

section Amend

variable {v : VolumeUnit} {r : RecallSlot} {w : Written} {level : Nat} {points : Option Points}

theorem slot?_amended (i : Nat) : (amendedTable v r w level points).slot? i = (v.slot? i).map (amendSlot r w level points) := by
  simp only [VolumeUnit.slot?, List.getElem?_map]
  cases v.table[i]? with
  | none => rfl
  | some x => cases x <;> rfl

theorem pinners_amendSlot (y : RecallSlot) : (amendSlot r w level points y).pinners = y.pinners := by
  unfold amendSlot
  split <;> rfl

/-- The copy of the entry itself has the restored body. -/
theorem amendSlot_self : amendSlot r w level points r = { r with copy := r.copy.map fun c => match c with
    | .page c => .page { c with current := w.locator, stored := w.stored, level := level, points := points }
    | .photo c => .photo { c with current := w.locator, stored := w.stored, level := level, points := points } } := by
  rw [amendSlot, if_pos (BEq.rfl)]
  refine congrArg (fun c => { r with copy := c }) (congrArg (fun f => r.copy.map f) (funext fun c => ?_))
  cases c <;> simp [amendCopy]

theorem amendPlaced_eq (n : U32) (q : PlacedCopy) : amendPlaced n w level q =
    if q.place.photo = n then { q with current := w.locator, stored := w.stored, level := level } else q := by
  simp only [amendPlaced, beq_iff_eq]

/-- Of the other slots, the pages of the volume have the placement copies of a restored photograph amended. -/
theorem amendSlot_other {y : RecallSlot} (hne : y.volume = r.volume → y.key ≠ r.key) : amendSlot r w level points y =
    match r.key, y.copy with
    | .photo n, some (.page c) =>
      if y.volume = r.volume then { y with copy := some (.page { c with placed := c.placed.map fun q =>
        if q.place.photo = n then { q with current := w.locator, stored := w.stored, level := level } else q }) }
      else y
    | _, _ => y := by
  by_cases hv : y.volume = r.volume
  · have hkey : (y.key == r.key) = false := beq_eq_false_iff_ne.2 (hne hv)
    rw [amendSlot, if_pos (beq_iff_eq.2 hv), hkey]
    cases hc : y.copy with
    | none => cases r.key <;> exact congrArg (fun x => { y with copy := x }) hc.symm
    | some c =>
      cases c with
      | photo c =>
        cases r.key <;> exact congrArg (fun x => { y with copy := x }) hc.symm
      | page c =>
        cases r.key with
        | page k m n => exact congrArg (fun x => { y with copy := x }) hc.symm
        | photo n =>
          dsimp only
          rw [if_pos hv, ← funext (amendPlaced_eq (w := w) (level := level) n)]
          rfl
  · rw [amendSlot, if_neg (by simpa using hv)]
    split
    · rw [if_neg hv]
    · rfl

end Amend

/-! ### The job gives back its slot (R98, R112) -/

theorem leaveRecallWait_nil {s : State} (h : s.vol.recallWait = []) (r : Requester) : s.leaveRecallWait r = s := by
  simp only [leaveRecallWait, h, List.filter_nil]
  rw [← h]

section Sealed

variable {s : State} {j : Job} {w : Written} {i : Nat} {r : RecallSlot} {given : EntryKey} (h : s.Still)
  (ht : j.target = .sealed r.volume given) (hserved : j.recallSlot = some i) (hslot : s.vol.slot? i = some r)
include ht hserved hslot

theorem applyRestored_sealed : s.applyRestored j w =
    { s with vol := amendedTable s.vol r w (min 3 (j.startLevel + 1)) j.points } := by
  simp only [applyRestored, ht, hserved, Option.bind_some, hslot]

include h

/-- The recall table as the job leaves it: its copies amended, the job's pin gone. -/
theorem amended_released (hpin : .job j.number ∈ r.pinners) (hcopy : r.copy ≠ none)
    (huniq : ∀ x y, s.vol.slot? x = some y → .job j.number ∈ y.pinners → x = i) :
    let left := r.pinners.filter fun q => q != .job j.number
    let u := (((s.applyRestored j w).retireJob j .done .ok).releaseJob j).latch .restoreDone
    let amend := amendSlot r w (min 3 (j.startLevel + 1)) j.points
    u.cat = s.cat ∧ u.vol.slot? i = some { amend r with pinners := left } ∧
      (∀ x y, x ≠ i → s.vol.slot? x = some y → u.vol.slot? x = some (amend y)) ∧
      u.vol.lru = if left = [] then s.vol.lru ++ [i] else s.vol.lru := by
  intro left u amend
  let table : VolumeUnit := amendedTable s.vol r w (min 3 (j.startLevel + 1)) j.points
  obtain ⟨tasks, -, -, hform⟩ := release_form ((s.applyRestored j w).retireJob j .done .ok) (.job j.number)
  have happlied := applyRestored_sealed (w := w) ht hserved hslot
  let returned : State := { (s.applyRestored j w).retireJob j .done .ok with
    pool := ((s.applyRestored j w).retireJob j .done .ok).pool.returned (.job j.number)
    agenda := ((s.applyRestored j w).retireJob j .done .ok).agenda ++ tasks }
  have hvol : returned.vol = table := congrArg State.vol happlied
  have hhere : table.slot? i = some (amend r) := by
    rw [slot?_amended, hslot]
    rfl
  have hpinners : (amend r).pinners = r.pinners := pinners_amendSlot r
  have hfilled : (amend r).copy.isSome = true := by
    rw [show amend r = _ from amendSlot_self, Option.isSome_map]
    exact Option.isSome_iff_ne_none.2 hcopy
  have hreleased : ((s.applyRestored j w).retireJob j .done .ok).releaseJob j = returned.releaseSlot (.job j.number) := by
    have hclaims : ((s.applyRestored j w).retireJob j .done .ok).pool.claims = [] :=
      (congrArg (fun t : State => t.pool.claims) happlied).trans h.1
    have hwait : returned.vol.recallWait = [] := by rw [hvol]; exact h.2.1
    rw [releaseJob, removeClaim_nil hclaims, hform, ht]
    exact congrArg (fun t : State => t.releaseSlot (.job j.number)) (leaveRecallWait_nil hwait _)
  have hone := releaseSlot_one (s := returned) (r := .job j.number) (i := i) (x := amend r) (by rw [hvol]; exact hhere)
    (by rw [hpinners]; exact hpin) fun k y hk hy => by
      rw [hvol, slot?_amended, Option.map_eq_some_iff] at hk
      obtain ⟨z, hz, rfl⟩ := hk
      exact huniq k z hz (by rwa [pinners_amendSlot] at hy)
  simp only [hpinners, hfilled, Bool.and_true] at hone
  have hafter : u.cat = s.cat ∧ u.vol = { table with
      table := table.table.set i (some { amend r with pinners := left })
      lru := if left = [] then s.vol.lru ++ [i] else s.vol.lru } := by
    show (State.latch _ .restoreDone).cat = _ ∧ (State.latch _ .restoreDone).vol = _
    rw [hreleased, hone]
    have hcat : returned.cat = s.cat := by
      show (s.applyRestored j w).cat = s.cat
      rw [happlied]
    by_cases hnone : left = []
    · rw [if_pos (List.isEmpty_iff.2 hnone), if_pos hnone, hvol]
      exact ⟨hcat, rfl⟩
    · rw [if_neg (fun hempty => hnone (List.isEmpty_iff.1 hempty)), if_neg hnone, hvol]
      exact ⟨hcat, rfl⟩
  obtain ⟨hcat, hafter⟩ := hafter
  refine ⟨hcat, ?_, fun x y hx hy => ?_, congrArg VolumeUnit.lru hafter⟩
  · rw [hafter]
    exact VolumeUnit.slot?_set hhere
  · rw [hafter]
    refine Eq.trans ?_ ((slot?_amended x).trans (by rw [hy]; rfl))
    simp only [VolumeUnit.slot?, List.getElem?_set_ne hx.symm]
    rfl

end Sealed

end State

end Sys2Proof.Machine
end

section
/-! REVERT (O46). -/

namespace Sys2Proof.Machine

/-- The record of a photograph changed in place. -/
theorem Catalogue.photo?_withPhoto_same {c : Catalogue} {n : U32} {p : Photo} {f : Photo → Photo} (hf : ∀ p, (f p).number = p.number)
    (hp : c.photo? n = some p) : (c.withPhoto n f).photo? n = some (f p) := by
  rw [photo?_withPhoto c n n hf, hp, Option.map_some, if_pos (by simp [photo?_number hp])]

namespace State

/-- A locator that no READ BODY names is freed at once by a link that takes it (R72, R113). -/
theorem discard_takes {u : State} {d : HeldDiscard} {i : Nat} (h : ∀ op ∈ u.link.held, op.reads d.locator = false)
    (hl : u.link.Takes i) (hroom : u.link.discards < 32) : u.discard d = { u with
      link := u.link.freeing i d.locator (match d.revertOf with | some r => .withIndex (u.cat.indexOf r) | none => .plain) } :=
  (if_neg (by simpa using h)).trans (handOff_free hl hroom)

section Revert

variable {s : State} {tag : U8} {t : TargetFields}

theorem revert_notInService (hm : s.req.mode ≠ .service) : s.revert tag t = s.refuse 0x71 tag .notInService :=
  if_pos (by simpa [inService] using hm)

variable (hm : s.req.mode = .service)
include hm

theorem revert_outOfRange (hr : ¬TargetInRange t) : s.revert tag t = s.refuse 0x71 tag .outOfRange :=
  (if_neg (not_inService_of_service hm)).trans (if_pos (by simpa [← targetInRange_iff] using hr))

variable (hr : TargetInRange t)
include hr

theorem revert_sealed (hv : t.volume ≠ 0) : s.revert tag t = s.refuse 0x71 tag .sealed :=
  (if_neg (not_inService_of_service hm)).trans
    ((if_neg (by simpa using targetInRange_iff.2 hr)).trans (if_pos (by simpa using hv)))

variable (hv : t.volume = 0)
include hv

theorem revert_refused {code : Code} (ht : s.cat.targetOf t revertRefuses = .error code) :
    s.revert tag t = s.refuse 0x71 tag code :=
  (if_neg (not_inService_of_service hm)).trans
    ((if_neg (by simpa using targetInRange_iff.2 hr)).trans ((if_neg (by simpa using hv)).trans (by rw [ht])))

variable {x : Target} (ht : s.cat.targetOf t revertRefuses = .ok x)
include ht

theorem revert_busy (hj : (s.jobOn? x).isSome = true) : s.revert tag t = s.refuse 0x71 tag .busy :=
  (if_neg (not_inService_of_service hm)).trans
    ((if_neg (by simpa using targetInRange_iff.2 hr)).trans
      ((if_neg (by simpa using hv)).trans (by rw [ht]; exact if_pos hj)))

variable (hj : s.jobOn? x = none) {r : RecId} (hrecord : x.record = some r)
include hj hrecord

theorem revert_record : s.revert tag t = s.revertRecord tag x r :=
  (if_neg (not_inService_of_service hm)).trans
    ((if_neg (by simpa using targetInRange_iff.2 hr)).trans
      ((if_neg (by simpa using hv)).trans (by
        rw [ht]
        dsimp only
        rw [if_neg (by simp [hj]), hrecord])))

end Revert

/-! ### REVERT of a record (R116) -/

section Exec

variable {s : State} {tag : U8} {t : TargetFields} (hready : s.Ready (.revert tag t))
include hready

theorem exec_revert_notInService (hm : s.req.mode ≠ .service) :
    exec (.revert tag t) s = .next (s.replied 0x71 tag .notInService []) :=
  request_replies hready (revert_notInService (s := s.popped) hm)

variable (hm : s.req.mode = .service)
include hm

theorem exec_revert_outOfRange (hr : ¬TargetInRange t) : exec (.revert tag t) s = .next (s.replied 0x71 tag .outOfRange []) :=
  request_replies hready (revert_outOfRange (s := s.popped) hm hr)

variable (hr : TargetInRange t)
include hr

theorem exec_revert_sealed (hv : t.volume ≠ 0) : exec (.revert tag t) s = .next (s.replied 0x71 tag .sealed []) :=
  request_replies hready (revert_sealed (s := s.popped) hm hr hv)

variable (hv : t.volume = 0)
include hv

theorem exec_revert_refused {code : Code} (ht : s.cat.targetOf t revertRefuses = .error code) :
    exec (.revert tag t) s = .next (s.replied 0x71 tag code []) :=
  request_replies hready (revert_refused (s := s.popped) hm hr hv ht)

variable {x : Target} (ht : s.cat.targetOf t revertRefuses = .ok x)
include ht

theorem exec_revert_busy (hj : (s.jobOn? x).isSome = true) : exec (.revert tag t) s = .next (s.replied 0x71 tag .busy []) :=
  request_replies hready (revert_busy (s := s.popped) hm hr hv ht hj)

variable (hj : s.jobOn? x = none) {r : RecId} (hrecord : x.record = some r)
include hj hrecord

theorem exec_revert_raw (hlevel : s.targetLevel x = 0) :
    exec (.revert tag t) s = .next (s.replied 0x71 tag .ok (u8 0 ++ u32 0)) :=
  request_replies hready ((revert_record (s := s.popped) hm hr hv ht hj hrecord).trans (if_pos hlevel))

variable (hlevel : s.targetLevel x ≠ 0) {l : U32} (hl : s.cat.currentOf r = some l)
include hlevel hl

omit hready in
/-- The reply names the level and the locator that the record had. -/
theorem revert_discards : s.popped.revert tag t = ((s.popped.withCat fun c => c.revertRecord r).discard ⟨l, some r⟩).answer 0x71 tag
    .ok (u8 (s.targetLevel x) ++ u32 l.toNat) := by
  rw [revert_record (s := s.popped) hm hr hv ht hj hrecord]
  refine (if_neg hlevel).trans ?_
  rw [show s.popped.cat.currentOf r = some l from hl]
  rfl

theorem exec_revert_held (hreads : ∃ op ∈ s.link.held, op.reads l = true) :
    exec (.revert tag t) s = .next (State.answered { s with
      cat := s.cat.revertRecord r, eng := { s.eng with heldDiscards := s.eng.heldDiscards ++ [⟨l, some r⟩] } } 0x71 tag .ok
      (u8 (s.targetLevel x) ++ u32 l.toNat)) := by
  refine request_answered (body := fun s => s.revert tag t) hready
    ((revert_discards hm hr hv ht hj hrecord hlevel hl).trans ?_)
  exact congrArg (fun y : State => y.answer 0x71 tag .ok (u8 (s.targetLevel x) ++ u32 l.toNat))
    (discard_held (u := s.popped.withCat fun c => c.revertRecord r) (d := ⟨l, some r⟩) hreads)

theorem exec_revert_freed {index : IndexRecord} (hindex : (s.cat.revertRecord r).indexOf r = some index) {i : Nat}
    (hnone : ∀ op ∈ s.link.held, op.reads l = false) (htakes : s.link.Takes i) (hroom : s.link.discards < 32) :
    exec (.revert tag t) s = .next (State.answered { s with
      cat := s.cat.revertRecord r
      link := { s.link.occupy i (.freeBody l (.withIndex (some index))) with discards := s.link.discards + 1 } } 0x71 tag .ok
      (u8 (s.targetLevel x) ++ u32 l.toNat)) := by
  refine request_answered (body := fun s => s.revert tag t) hready
    ((revert_discards hm hr hv ht hj hrecord hlevel hl).trans ?_)
  rw [← hindex]
  exact congrArg (fun y : State => y.answer 0x71 tag .ok (u8 (s.targetLevel x) ++ u32 l.toNat))
    (discard_takes (u := s.popped.withCat fun c => c.revertRecord r) (d := ⟨l, some r⟩) hnone htakes hroom)

omit hj hlevel hl in
/-- REVERT of the target that the fields name, whose record has the level and the current body given. -/
theorem exec_revert_target {level : Nat} {current : Option U32} {index : IndexRecord} (hlevel : s.targetLevel x = level)
    (hcurrent : s.cat.currentOf r = current) (hindex : (s.cat.revertRecord r).indexOf r = some index) :
    let run := exec (.revert tag t) s
    ((s.jobOn? x).isSome → run = .next (s.replied 0x71 tag .busy [])) ∧
    (s.jobOn? x = none →
      (level = 0 → run = .next (s.replied 0x71 tag .ok (u8 0 ++ u32 0))) ∧
      ∀ l, level ≠ 0 → current = some l →
        ((∃ r ∈ s.link.held, r.reads l = true) → run = .next (State.answered { s with
          cat := s.cat.revertRecord r, eng := { s.eng with heldDiscards := s.eng.heldDiscards ++ [⟨l, some r⟩] } } 0x71 tag .ok
          (u8 level ++ u32 l.toNat))) ∧
        ∀ i, (∀ op ∈ s.link.held, op.reads l = false) → s.link.Takes i → s.link.discards < 32 →
          run = .next (State.answered { s with
            cat := s.cat.revertRecord r
            link := { s.link.occupy i (.freeBody l (.withIndex (some index))) with
              discards := s.link.discards + 1 } } 0x71 tag .ok (u8 level ++ u32 l.toNat))) := by
  subst hlevel hcurrent
  refine ⟨fun hj => exec_revert_busy hready hm hr hv ht hj, fun hj => ⟨fun hlevel => ?_, fun l hlevel hl => ⟨fun hreads => ?_,
    fun i hnone htakes hroom => ?_⟩⟩⟩
  · exact exec_revert_raw hready hm hr hv ht hj hrecord hlevel
  · exact exec_revert_held hready hm hr hv ht hj hrecord hlevel hl hreads
  · exact exec_revert_freed hready hm hr hv ht hj hrecord hlevel hl hindex hnone htakes hroom

end Exec

/-! ### The record that REVERT leaves, in its index record (R15, R116) -/

theorem indexOf_revert_photo {c : Catalogue} {n : U32} {p : Photo} (hp : c.photo? n = some p) :
    (c.revertRecord (.photo n)).indexOf (.photo n) = some (.photo { indexPhoto p with
      current := p.raw, stored := some p.declared, level := 0, points := none }) := by
  rw [Catalogue.revertRecord, Catalogue.indexOf, Catalogue.photo?_withPhoto_same (by exact fun _ => rfl) hp]
  rfl

theorem indexOf_revert_page {c : Catalogue} {slot number version : Nat} {p : Page} (hp : c.page? slot number version = some p) :
    (c.revertRecord (.page slot number version)).indexOf (.page slot number version) = some (.page { c.indexPage p with
      current := p.raw, stored := some p.declared, level := 0, points := none }) := by
  rw [Catalogue.revertRecord, Catalogue.indexOf, Catalogue.page?_withPage_same (by exact fun _ => rfl) hp]
  rfl

/-- HELD DISCARD RELEASE frees the only held locator. -/
theorem exec_heldDiscardRelease {s : State} {locator : U32} {i : Nat} (h : s.Working) (hd : s.eng.heldDiscards = [⟨locator, none⟩])
    (hnone : ∀ op ∈ s.link.held, op.reads locator = false) (hl : s.link.Takes i) (hroom : s.link.discards < 32) :
    exec .heldDiscardRelease s = .next (State.close { s with
      eng := { s.eng with heldDiscards := [] }
      link := { s.link.occupy i (.freeBody locator .plain) with discards := s.link.discards + 1 } }) := by
  refine event_settles (happens := State.discardReleasable) (body := fun s => s.push .heldDiscards) h ?_ ?_ h.2.2.1
  · rw [discardReleasable, hd, List.any_cons, List.any_nil, Bool.or_false, Bool.not_eq_true', List.any_eq_false]
    exact fun op hop => by simp [hnone op hop]
  · rw [settled_push h.2.1, runTask, hd, releaseDiscards_free hd hnone hl hroom]
    exact settle_of_nil _ _ h.2.1

end State

end Sys2Proof.Machine
end

section
/-! RESTORATION WRITE COMPLETION, and the statement about restored bodies and REVERT (O46). -/

namespace Sys2Proof.Machine

namespace State

/-! ### Pricing reads and writes the books only (R152 to R157) -/

theorem close_fee (s : State) : s.close.fee = s.fee := by
  unfold close send endWait
  split <;> rfl

/-- What pricing makes of the orders, the accounts and the statement follows from them and from the price. -/
theorem priced_congr {s t : State} {o : Order} {v : View} {a : Account} (hord : t.ord = s.ord) (hfee : t.fee = s.fee)
    (hstmt : t.stmt = s.stmt) (hcal : t.cal = s.cal) (hmask : t.maskOf v = s.maskOf v) :
    (t.priced o v a).ord = (s.priced o v a).ord ∧ (t.priced o v a).fee = (s.priced o v a).fee ∧
      (t.priced o v a).stmt = (s.priced o v a).stmt := by
  have hprice : t.priceOf o v a = s.priceOf o v a := by rw [priceOf, hfee, hcal, hmask, ← priceOf]
  unfold priced sold
  rw [hprice, hstmt, hmask, hcal]
  split_ifs <;> simp [withOrder, latch, withAccount, hord, hfee, hstmt]

/-! ### A write-back completes (R112) -/

/-- The slot of a completed write-back has passed on. -/
abbrev writeServed (s : State) (at_ : SlotTag) (op : Op) : State := { s with link := s.link.served at_.slot.toNat op }

section WriteBack

variable {s : State} {at_ : SlotTag} {j : Job} {op : Op} {w : Written} (h : s.Working) (hstill : s.Still)
  (ho : s.link.state = .online) (hans : s.link.answered? at_ Op.isWriteBack = some op) (hjobs : s.eng.jobs = [j])
  (hw : j.state = .writing)
include h hstill ho hans hjobs hw

/-- The change ends with the replaced body handed to discard, behind the job's orders. -/
theorem exec_writeBack (hop : ∀ u : State, u.completed op (.ok (.written w)) = u.finishJob j.number w) {t : State}
    (hpriced : Eased ((s.writeServed at_ op).doneLeft j w) t)
    (ht : j.orders.foldl priceAfterJob ((s.writeServed at_ op).doneLeft j w) = t) :
    exec (.restorationWriteCompletion at_ (.done w)) s = .next ((s.writeServed at_ op).discardSuperseded j t).close ∧
      DoneEnds s ((s.writeServed at_ op).discardSuperseded j t).close j := by
  have honline : (s.writeServed at_ op).link.state = .online := (StoreLink.served_state _ _ _).trans ho
  obtain ⟨hcloses, hends⟩ := finishJob_ends (s := s.writeServed at_ op) hstill honline hjobs hw h.2.1 w hpriced ht
  refine ⟨?_, hends⟩
  have hexec : exec (.restorationWriteCompletion at_ (.done w)) s = .next (settle 65535
      (completed (s.writeServed at_ op) op (.ok (.written w)))).close := storeAnswer_settles h hans (completeSlot_served ..) rfl
  rw [hexec, hop, hcloses]

/-! ### A resident job -/

section Resident

variable {len : Nat} {x : IndexRecord} (hop : op = .writeRestoration j.number len x) {cat : Catalogue} {replaced : Option U32}
  (hres : s.Restores j w cat replaced)
include hop hres

omit h ho hans hjobs hw hop in
theorem doneLeft_eq (at_ : SlotTag) (op : Op) :
    ∃ l, (s.writeServed at_ op).doneLeft j w = (s.writeServed at_ op).jobDone j cat l := by
  obtain ⟨l, -, -, hl⟩ := restored_released (s := s.writeServed at_ op) (w := w) (j := j) (cat := cat) hstill hres
  exact ⟨l, hl⟩

omit hres in
/-- The change ends in a state with the catalogue and the books as the job's orders leave them. -/
theorem exec_writeBack_resident {t : State} (hpriced : Eased ((s.writeServed at_ op).doneLeft j w) t)
    (ht : j.orders.foldl priceAfterJob ((s.writeServed at_ op).doneLeft j w) = t) :
    ∃ u, exec (.restorationWriteCompletion at_ (.done w)) s = .next u ∧ DoneEnds s u j ∧ u.cat = t.cat ∧
      u.ord.live = t.ord.live ∧ u.fee = t.fee ∧ u.stmt = t.stmt := by
  obtain ⟨hexec, hends⟩ := exec_writeBack h hstill ho hans hjobs hw (by rw [hop]; exact fun _ => rfl) hpriced ht
  have honline : t.link.state = .online := by
    rw [hpriced.link, (doneLeft_released (s := s.writeServed at_ op) hstill j w).link]
    exact (StoreLink.served_state _ _ _).trans ho
  obtain ⟨link, held, hform⟩ := discardSuperseded_form (s.writeServed at_ op) j honline
  refine ⟨_, hexec, hends, ?_⟩
  rw [hform, close_cat, close_live, close_fee, close_stmt]
  exact ⟨rfl, rfl, rfl, rfl⟩

/-- A job of no order: the body that it replaced is freed, or held while a READ BODY names it. -/
theorem exec_writeBack_alone (hcreator : j.creator = none) (hjoin : j.joiners = []) :
    ∃ t, exec (.restorationWriteCompletion at_ (.done w)) s = .next t ∧ DoneEnds s t j ∧ t.cat = cat ∧
      (j.startLevel = 0 → t.link = s.link.served at_.slot.toNat op ∧ t.eng.heldDiscards = s.eng.heldDiscards) ∧
      ∀ l, 0 < j.startLevel → replaced = some l →
        ((∃ r ∈ s.link.held, r.reads l = true) → t.link = s.link.served at_.slot.toNat op ∧
          t.eng.heldDiscards = s.eng.heldDiscards ++ [⟨l, none⟩]) ∧
        ((∀ r ∈ s.link.held, r.reads l = false) → s.link.discards < 32 →
          .freeBody l .plain ∈ t.link.held ∧ t.link.discards = s.link.discards + 1 ∧
            t.eng.heldDiscards = s.eng.heldDiscards) := by
  have horders : j.orders = [] := by rw [Job.orders, hcreator, hjoin]; rfl
  obtain ⟨tasks, hleft⟩ := doneLeft_eq hstill hres at_ op
  have hdone := doneLeft_released (s := s.writeServed at_ op) hstill j w
  have hreads (l : U32) : op.reads l = false := by rw [hop]; rfl
  have hruns := StoreLink.runs_of_answered? hans
  obtain ⟨hexec, hends⟩ := exec_writeBack h hstill ho hans hjobs hw (by rw [hop]; exact fun _ => rfl) (.refl hdone.still)
    (by rw [horders]; rfl)
  obtain ⟨link, held, hform⟩ := discardSuperseded_form (s.writeServed at_ op) j (u := (s.writeServed at_ op).doneLeft j w)
    (by rw [hdone.link]; exact (StoreLink.served_state _ _ _).trans ho)
  refine ⟨_, hexec, hends, ?_, fun hlevel => ?_, fun l hlevel hl => ⟨fun hnames => ?_, fun hnone hroom => ?_⟩⟩
  · rw [hform, close_cat]
    exact congrArg State.cat hleft
  · rw [discardSuperseded_raw (s := s.writeServed at_ op) hres hlevel, close_link, close_eng]
    exact ⟨hdone.link, hdone.discards⟩
  · have hheld : ∃ r ∈ ((s.writeServed at_ op).doneLeft j w).link.held, r.reads l = true := by
      rw [hdone.link]
      exact (StoreLink.reads_served hruns (hreads l)).2 hnames
    rw [discardSuperseded_replaced (s := s.writeServed at_ op) hres hlevel hl, discard_held (d := ⟨l, none⟩) hheld, close_link,
      close_eng]
    exact ⟨hdone.link, congrArg (· ++ [⟨l, none⟩]) hdone.discards⟩
  · have hdiscards : (s.link.served at_.slot.toNat op).discards = s.link.discards :=
      StoreLink.served_discards (by rw [hop]; rfl) _ _
    have hfreed := discard_freed (u := (s.writeServed at_ op).doneLeft j w) (l := l)
      (by rw [hdone.link]; exact StoreLink.reads_served_none hruns (hreads l) hnone)
      (by rw [hdone.link]; exact (StoreLink.served_state _ _ _).trans ho) (by rw [hdone.link]; exact hdiscards ▸ hroom)
    rw [discardSuperseded_replaced (s := s.writeServed at_ op) hres hlevel hl, hfreed, close_link, close_eng]
    refine ⟨StoreLink.freeBody_held _ _ _, (discards_accept_free _ _ _).trans ?_, hdone.discards⟩
    rw [hdone.link]
    exact congrArg (· + 1) hdiscards

/-- The only order that waited on the job, which its hold check lets pass, is priced on the restored body. -/
theorem exec_writeBack_priced {n : Nat} {o : Order} {v : View} {a : Account} {masked : List Nat} (horders : j.orders = [n])
    (horder : s.order? n = some o) :
    let freed := State.withOrder { s with cat := cat } n jobFree
    freed.orderView (jobFree o) = some v → s.fee.account? o.account = some a → freed.holdCheck (jobFree o) v = .passed masked →
    ∃ t, exec (.restorationWriteCompletion at_ (.done w)) s = .next t ∧ DoneEnds s t j ∧ t.cat = cat ∧
      t.ord.live = (freed.priced (jobFree o) v a).ord.live ∧ t.fee = (freed.priced (jobFree o) v a).fee ∧
      t.stmt = (freed.priced (jobFree o) v a).stmt := by
  intro freed hv ha hc
  obtain ⟨tasks, hleft⟩ := doneLeft_eq hstill hres at_ op
  have hdone := doneLeft_released (s := s.writeServed at_ op) hstill j w
  let left : State := (s.writeServed at_ op).jobDone j cat tasks
  have hstill' : ((s.writeServed at_ op).jobDone j cat tasks).Still := hleft ▸ hdone.still
  have hpriced : left.priceAfterJob n = (left.withOrder n jobFree).priced (jobFree o) v a :=
    priceAfterJob_passed (s := left) horder hv ha hc
  have heased : Eased left (left.priceAfterJob n) := by
    have hmoves : Moves (left.withOrder n jobFree) (left.priceAfterJob n) := moves_priceOrder _ n false
    rw [hpriced] at hmoves ⊢
    exact (eased_jobFree hstill' n).trans (eased_priced (s := left.withOrder n jobFree) hstill' hmoves)
  obtain ⟨t, hexec, hends, hcat, hlive, hfee, hstmt⟩ := exec_writeBack_resident h hstill ho hans hjobs hw hop
    (t := left.priceAfterJob n) (by rw [hleft]; exact heased) (by rw [hleft, horders]; rfl)
  obtain ⟨hord', hfee', hstmt'⟩ := priced_congr (s := freed) (t := left.withOrder n jobFree) (o := jobFree o) (v := v) (a := a)
    rfl rfl rfl rfl rfl
  rw [hpriced] at hcat hlive hfee hstmt
  refine ⟨t, hexec, hends, hcat.trans ?_, hlive.trans (congrArg OrderTable.live hord'), hfee.trans hfee', hstmt.trans hstmt'⟩
  exact priced_rest.1

omit h hstill ho hans hjobs hw hop in
/-- What an order works on is there on the restored catalogue too. -/
theorem orderView_restored {o : Order} (hv : (s.orderView o).isSome = true) :
    (State.orderView { s with cat := cat } o).isSome = true := by
  have hsame : (∀ n, (cat.photo? n).isSome = (s.cat.photo? n).isSome) ∧
      ∀ slot number version, (cat.page? slot number version).isSome = (s.cat.page? slot number version).isSome := by
    rcases hres with ⟨n, p, -, -, -, rfl⟩ | ⟨slot, number, version, p, -, -, -, rfl⟩
    · refine ⟨fun i => ?_, fun _ _ _ => rfl⟩
      rw [Catalogue.photo?_withPhoto _ _ _ (by exact fun _ => rfl), Option.isSome_map]
    · refine ⟨fun _ => rfl, fun a b c => ?_⟩
      refine (congrArg Option.isSome (Catalogue.page?_withPage s.cat slot number version a b c ?_)).trans Option.isSome_map
      exact fun _ => rfl
  unfold orderView at hv ⊢
  split
  · rw [if_pos ‹_›] at hv
    cases ho : o.photo with
    | none =>
      rw [ho] at hv
      simp only [Option.isSome_map, hsame.2] at hv ⊢
      exact hv
    | some n =>
      rw [ho] at hv
      simp only [Option.isSome_map, hsame.1] at hv ⊢
      exact hv
  · rwa [if_neg ‹_›] at hv

/-- The orders that waited on the job are priced one after the other on the restored body. -/
theorem exec_writeBack_orders {ns : List Nat} (horders : j.orders = ns) (hnd : ns.Nodup)
    (hall : ∀ n ∈ ns, ∃ o, s.order? n = some o ∧ o.state = .restoreWait ∧ (s.orderView o).isSome = true ∧
      (s.fee.account? o.account).isSome = true) :
    ∃ t, exec (.restorationWriteCompletion at_ (.done w)) s = .next t ∧ DoneEnds s t j ∧
      (∀ n ∈ ns, ∀ o, t.order? n = some o → o.job = none ∧
        (o.state = .heldRights ∨ o.state = .heldStatement ∨ o.state = .heldFunds ∨ o.state = .charged)) ∧
      ((∀ n ∈ ns, (t.order? n).map Order.state = some .charged) →
        t.stmt.current.entries.map Entry.order = s.stmt.current.entries.map Entry.order ++ ns) := by
  obtain ⟨tasks, hleft⟩ := doneLeft_eq hstill hres at_ op
  have hdone := doneLeft_released (s := s.writeServed at_ op) hstill j w
  have hnone : ((s.writeServed at_ op).doneLeft j w).eng.jobs = [] := by
    rw [hdone.jobs, hjobs]
    simp
  obtain ⟨heased, -, hstates, hentries⟩ := pricedAll ns hdone.still hnone hnd fun n hn => by
    obtain ⟨o, horder, -, hv, ha⟩ := hall n hn
    rw [hleft]
    exact ⟨o, horder, orderView_restored hres hv, ha⟩
  obtain ⟨t, hexec, hends, -, hlive, -, hstmt⟩ := exec_writeBack_resident h hstill ho hans hjobs hw hop heased (by rw [horders])
  have horder (n : Nat) : t.order? n = (ns.foldl priceAfterJob ((s.writeServed at_ op).doneLeft j w)).order? n := by
    rw [order?, hlive, ← order?]
  refine ⟨t, hexec, hends, fun n hn o ht => hstates n hn o ((horder n).symm.trans ht), fun hcharged => ?_⟩
  rw [hstmt, hentries fun n hn => (horder n) ▸ hcharged n hn, hleft]
  rfl

end Resident

/-! ### A sealed job -/

/-- The copies of the entry are amended, and the job's slot is given back. -/
theorem exec_writeBack_sealed {len lvl : Nat} {v : U32} {k given : EntryKey} {pts : Points} {i : Nat} {r : RecallSlot}
    (hop : op = .amend j.number v k len pts lvl) (ht : j.target = .sealed r.volume given) (hserved : j.recallSlot = some i)
    (hsound : s.vol.TableSound) (hslot : s.vol.slot? i = some r) (hpin : .job j.number ∈ r.pinners) (hcopy : r.copy ≠ none)
    (huniq : ∀ x y, s.vol.slot? x = some y → .job j.number ∈ y.pinners → x = i) (hcreator : j.creator = none)
    (hjoin : j.joiners = []) :
    let left := r.pinners.filter fun q => q != .job j.number
    let level := min 3 (j.startLevel + 1)
    ∃ t, exec (.restorationWriteCompletion at_ (.done w)) s = .next t ∧ DoneEnds s t j ∧ t.cat = s.cat ∧
      t.link = s.link.served at_.slot.toNat op ∧
      t.vol.slot? i = some { r with pinners := left, copy := r.copy.map fun c => match c with
        | .page c => .page { c with current := w.locator, stored := w.stored, level := level, points := j.points }
        | .photo c => .photo { c with current := w.locator, stored := w.stored, level := level, points := j.points } } ∧
      (∀ x y, x ≠ i → s.vol.slot? x = some y → t.vol.slot? x = some (match r.key, y.copy with
        | .photo n, some (.page c) =>
          if y.volume = r.volume then { y with copy := some (.page { c with placed := c.placed.map fun q =>
            if q.place.photo = n then { q with current := w.locator, stored := w.stored, level := level } else q }) }
          else y
        | _, _ => y)) ∧
      t.vol.lru = (if left = [] then s.vol.lru ++ [i] else s.vol.lru) := by
  intro left level
  have horders : j.orders = [] := by rw [Job.orders, hcreator, hjoin]; rfl
  have hdone := doneLeft_released (s := s.writeServed at_ op) hstill j w
  obtain ⟨hexec, hends⟩ := exec_writeBack h hstill ho hans hjobs hw (by rw [hop]; exact fun _ => rfl) (.refl hdone.still)
    (by rw [horders]; rfl)
  have hnone : (s.writeServed at_ op).supersededBy j = none := by
    simp only [supersededBy, ht, ite_self]
  obtain ⟨hcat, hhere, hothers, hlru⟩ :=
    amended_released (s := s.writeServed at_ op) (w := w) hstill ht hserved hslot hpin hcopy huniq
  rw [discardSuperseded_none hnone] at hexec hends
  refine ⟨_, hexec, hends, ?_, ?_, ?_, fun x y hx hy => ?_, ?_⟩
  · rw [close_cat]
    exact hcat
  · rw [close_link]
    exact hdone.link
  · rw [close_vol]
    exact hhere.trans (congrArg (fun y : RecallSlot => some { y with pinners := left }) amendSlot_self)
  · rw [close_vol]
    refine (hothers x y hx hy).trans (congrArg some ?_)
    refine amendSlot_other fun hvol hkey => hx (VolumeUnit.slot_eq_of_name hsound hy hslot ?_)
    rw [RecallSlot.name, hvol, hkey, RecallSlot.name]
  · rw [close_vol]
    exact hlru

end WriteBack

end State

end Sys2Proof.Machine
end

section
/-! The statement about restored bodies and REVERT (O46). -/

namespace Sys2Proof.Machine

theorem revertRefuses_eq_none {x : EdState} (h : x ≠ .sealing) : revertRefuses x = none := by
  cases x with
  | sealing => exact absurd rfl h
  | opened | closing | closed => rfl

/-- Settles O46. -/
theorem restoredBodiesAndReverts : Obligations.RestoredBodiesAndReverts := by
  unfold Obligations.RestoredBodiesAndReverts
  refine ⟨fun s at_ j op w h hstill ho hans hjobs hw => ⟨fun len x cat replaced hop hres => ⟨fun hcreator hjoin => ?_,
      fun n o v a masked horders horder hv ha hc => ?_, fun ns horders hnd hall => ?_⟩,
      fun v k len pts lvl given i r hop ht hserved hsound hslot hpin hcopy huniq hcreator hjoin => ?_⟩,
    fun s at_ j k w v len x cat replaced h hstill ho hans hjobs hw hlevel hcreator hjoin hres hne hq hr hv => ?_,
    fun s j op run code h hstill hjobs hop hrun => ?_, fun s tag t hready => ⟨fun hm => ?_, fun hm hr => ?_, fun hm hr hv => ?_,
      fun hm hr hv hk => ⟨fun hp => ?_, fun p hp => ⟨fun hs => ?_, fun hs => ?_⟩⟩, fun hm hr hv hk => ⟨fun hs => ?_,
        fun slot e hslot he => ⟨fun hs => ?_, fun hs hv0 hp => ?_, fun hs hv0 => ⟨fun hp => ?_, fun p hp hf => ?_⟩,
          fun p hs hat hp => ?_⟩⟩⟩,
    fun s locator i h hd hnone hl hroom => State.exec_heldDiscardRelease h hd hnone hl hroom⟩
  · exact State.exec_writeBack_alone h hstill ho hans hjobs hw hop hres hcreator hjoin
  · exact State.exec_writeBack_priced h hstill ho hans hjobs hw hop hres horders horder hv ha hc
  · exact State.exec_writeBack_orders h hstill ho hans hjobs hw hop hres horders hnd hall
  · exact State.exec_writeBack_sealed h hstill ho hans hjobs hw hop ht hserved hsound hslot hpin hcopy huniq hcreator hjoin
  · refine ⟨_, State.storeAnswer_settles h hans (State.completeSlot_served ..) rfl, ?_⟩
    exact State.finishJob_next (s := s.writeServed at_ (.writeRestoration j.number len x)) hstill
      ((StoreLink.served_state _ _ _).trans ho) hjobs hw hlevel hcreator hjoin hres hne hq hr hv h.2.1
  · have hfails : s.FailsJob op j.number := by
      rcases hop with ⟨len, x, rfl⟩ | ⟨v, k, len, pts, lvl, rfl⟩
      · exact State.failsJob_write s _ _ _
      · exact State.failsJob_amend s _ _ _ _ _ _
    rcases hrun with ⟨at_, hans, hrun⟩ | ⟨slot, hdue, hf, rfl, rfl⟩
    · rcases hrun with ⟨rfl, rfl⟩ | ⟨rfl, hf, rfl⟩ | ⟨rfl, rfl⟩
      · exact State.storeAnswer_fails h hstill hjobs hfails hans (fault := false) rfl nofun
      · exact State.storeAnswer_fails h hstill hjobs hfails hans (fault := true) rfl fun _ => hf
      · refine State.storeAnswer_fails h hstill hjobs hfails hans (fault := false) ?_ nofun
        rcases hop with ⟨len, x, rfl⟩ | ⟨v, k, len, pts, lvl, rfl⟩ <;> rfl
    · exact State.storeOperationTimeout_fails h hstill hjobs hfails hdue hf
  · exact State.exec_revert_notInService hready hm
  · exact State.exec_revert_outOfRange hready hm hr
  · exact State.exec_revert_sealed hready hm hr hv
  · exact State.exec_revert_refused hready hm hr hv (Catalogue.targetOf_photo_unknown hk hp)
  · exact State.exec_revert_refused hready hm hr hv (Catalogue.targetOf_photo_unfiled hk hp hs)
  · exact State.exec_revert_target hready hm hr hv (Catalogue.targetOf_photo_filed hk hp hs) rfl
      (by simp [State.targetLevel, hp]) (by simp [Catalogue.currentOf, hp]) (State.indexOf_revert_photo hp)
  · exact State.exec_revert_refused hready hm hr hv (Catalogue.targetOf_page_unknown hk hs)
  · exact State.exec_revert_refused hready hm hr hv (Catalogue.targetOf_page_turnedAway hk hslot he (by rw [hs]; rfl))
  all_goals have haway := revertRefuses_eq_none hs
  · exact State.exec_revert_refused hready hm hr hv
      (Catalogue.targetOf_page_refused hk hslot he haway (Catalogue.resolve_uncurrent (version_eq_zero_iff.2 hv0) hp))
  · exact State.exec_revert_refused hready hm hr hv (Catalogue.targetOf_page_refused hk hslot he haway
      (Catalogue.resolve_unknown (fun h0 => hv0 (version_eq_zero_iff.1 h0)) hp))
  · exact State.exec_revert_refused hready hm hr hv (Catalogue.targetOf_page_refused hk hslot he haway
      (Catalogue.resolve_unfiled (fun h0 => hv0 (version_eq_zero_iff.1 h0)) hp hf))
  · have hnamed := Catalogue.targetOf_page_named hk hslot he haway (Catalogue.resolve_named
      (hp.imp (And.imp_left version_eq_zero_iff.2) (And.imp_left fun hv0 h0 => hv0 (version_eq_zero_iff.1 h0))))
    exact State.exec_revert_target hready hm hr hv hnamed rfl (by simp [State.targetLevel, hat])
      (by simp [Catalogue.currentOf, hat]) (State.indexOf_revert_page hat)

end Sys2Proof.Machine
end

section
/-! PLACE HOLD and LIST HOLDS: the key of a request, the merge into an entry (O47), a new entry and its number, and the list. -/

namespace Sys2Proof.Machine

/-! ### The fields of PLACE HOLD (R120) -/

section HoldKey

variable {f : HoldFields}

theorem holdKey?_reason (h : 15 < f.reason.toNat) : holdKey? f = none := if_pos h

/-- With the reason in its range the scope decides (R120). -/
theorem holdKey?_of_reason (h : f.reason.toNat ≤ 15) : holdKey? f =
    if f.scope = 1 then some (.day f.day.toNat)
    else if f.scope = 2 then if f.code.toNat ≤ 15 then some (.edition ⟨f.day, f.code⟩) else none
    else if f.scope = 3 then
      if f.code.toNat ≤ 15 ∧ 1 ≤ f.page.toNat ∧ f.page.toNat ≤ 128 then some (.page ⟨f.day, f.code⟩ f.page.toNat) else none
    else if f.scope = 4 then if f.photo ≠ 0 then some (.photo f.photo) else none
    else none := if_neg (Nat.not_lt.2 h)

/-- No scope but 1 to 4 gives a key. -/
theorem holdKey?_scope (h : f.scope = 0 ∨ 4 < f.scope.toNat) : holdKey? f = none := by
  have hne : f.scope ≠ 1 ∧ f.scope ≠ 2 ∧ f.scope ≠ 3 ∧ f.scope ≠ 4 := by
    refine ⟨?_, ?_, ?_, ?_⟩ <;> rintro hs <;> rw [hs] at h <;> revert h <;> decide
  obtain ⟨h1, h2, h3, h4⟩ := hne
  by_cases hr : f.reason.toNat ≤ 15
  · rw [holdKey?_of_reason hr, if_neg h1, if_neg h2, if_neg h3, if_neg h4]
  · exact holdKey?_reason (Nat.lt_of_not_le hr)

end HoldKey

theorem holdUntil_eq (f : HoldFields) : holdUntil f = if f.untilFlag = 0 then none else some f.untilDay.toNat := by
  by_cases h : f.untilFlag = 0 <;> simp [holdUntil, flagSet, h]

theorem mergedUntil_eq (x y : Option Nat) : mergedUntil x y =
    match x, y with
    | some d1, some d2 => some (max d1 d2)
    | some _, none => none
    | none, _ => none := by
  cases x <;> cases y <;> rfl

/-! ### The lowest free number (R118, R120) -/

/-- The search for a number passes only numbers that are held. -/
theorem exists_lt_lowestNumber {entries : List Hold} : ∀ (k n m : Nat), n ≤ m → m < lowestNumber entries k n →
    ∃ h ∈ entries, h.number = m
  | 0, n, m, hn, hm => by
    rw [lowestNumber] at hm
    omega
  | k + 1, n, m, hn, hm => by
    rw [lowestNumber] at hm
    split at hm
    · next hheld =>
      rcases Nat.eq_or_lt_of_le hn with rfl | hlt
      · simpa using hheld
      · exact exists_lt_lowestNumber k (n + 1) m hlt hm
    · omega

theorem le_lowestNumber (entries : List Hold) : ∀ k n : Nat, n ≤ lowestNumber entries k n
  | 0, _ => le_rfl
  | k + 1, n => by
    rw [lowestNumber]
    split
    · exact (Nat.le_succ n).trans (le_lowestNumber entries k (n + 1))
    · exact le_rfl

/-- At most as many numbers are passed as there are entries. -/
theorem lowestNumber_le (entries : List Hold) : lowestNumber entries 65 1 ≤ entries.length + 1 := by
  have hsub : List.range' 1 (lowestNumber entries 65 1 - 1) ⊆ entries.map Hold.number := by
    intro m hm
    obtain ⟨h1, hlt⟩ := List.mem_range'_1.1 hm
    obtain ⟨h, hmem, rfl⟩ := exists_lt_lowestNumber (entries := entries) 65 1 m h1 (by omega)
    exact List.mem_map_of_mem hmem
  have hlen := (List.nodup_range' (step := 1)).subperm hsub |>.length_le
  simp only [List.length_range', List.length_map] at hlen
  omega

/-- A key that no entry has is found in none. -/
theorem Hold.find?_key {entries : List Hold} {key : HoldKey} (h : ∀ x ∈ entries, x.key ≠ key) :
    (entries.find? fun x => x.key == key) = none :=
  List.find?_eq_none.2 fun x hx => by simpa using h x hx

/-! ### PLACE HOLD by its cases (R120, R121) -/

namespace State

variable {s : State} {tag : U8} {f : HoldFields}

/-- Nothing that is tested at the end of a change reads the hold list. -/
theorem Calm.withHold (h : s.Calm) (l : HoldList) : Calm { s with hold := l } := h

theorem placeHold_outOfRange (hk : holdKey? f = none) : s.placeHold tag f = s.refuse 0x14 tag .outOfRange := by
  simp only [placeHold, hk]

variable {key : HoldKey} (hk : holdKey? f = some key)
include hk

/-- An entry of the request's key takes its reason and the until-day of the merge; no other has that key (R118, R121). -/
theorem placeHold_merges {old : Hold} (hs : s.hold.Sound) (hold : old ∈ s.hold.entries) (hkey : old.key = key) :
    s.placeHold tag f = answer { s with hold := { s.hold with entries := s.hold.entries.map fun h =>
      if h = old then { old with reason := f.reason.toNat, untilDay := mergedUntil old.untilDay (holdUntil f) } else h } }
      0x14 tag .ok (u8 old.number ++ [1]) := by
  have hsame {h : Hold} (hm : h ∈ s.hold.entries) : h.key = key ↔ h = old :=
    ⟨fun he => List.inj_on_of_nodup_map hs.2.2 hm hold (he.trans hkey.symm), fun he => he ▸ hkey⟩
  have hfind : s.hold.entries.find? (fun h => h.key == key) = some old := by
    obtain ⟨x, hx⟩ := Option.isSome_iff_exists.1 (List.find?_isSome (p := fun h : Hold => h.key == key).2
      ⟨old, hold, by simpa using hkey⟩)
    rw [hx, (hsame (List.mem_of_find?_eq_some hx)).1 (by simpa using List.find?_some hx)]
  have hmap : (s.hold.entries.map fun h => if h.key == key then
        { h with reason := f.reason.toNat, untilDay := mergedUntil h.untilDay (holdUntil f) } else h) =
      s.hold.entries.map fun h => if h = old then
        { old with reason := f.reason.toNat, untilDay := mergedUntil old.untilDay (holdUntil f) } else h := by
    refine List.map_congr_left fun h hm => ?_
    by_cases he : h = old
    · subst he
      rw [if_pos (by simpa using hkey), if_pos rfl]
    · rw [if_neg (by simpa using fun hx => he ((hsame hm).1 hx)), if_neg he]
  simp only [placeHold, hk, hfind, hmap]
  rfl

variable (hnew : ∀ h ∈ s.hold.entries, h.key ≠ key)
include hnew

theorem placeHold_full (hfull : 64 ≤ s.hold.entries.length) : s.placeHold tag f = s.refuse 0x14 tag .tableFull := by
  simp only [placeHold, hk, Hold.find?_key hnew]
  exact if_pos hfull

theorem placeHold_adds (hroom : s.hold.entries.length < 64) :
    s.placeHold tag f = answer { s with hold := { s.hold with
      entries := insertHold ⟨lowestNumber s.hold.entries 65 1, key, f.reason.toNat, holdUntil f⟩ s.hold.entries } } 0x14 tag .ok
      (u8 (lowestNumber s.hold.entries 65 1) ++ [0]) := by
  simp only [placeHold, hk, Hold.find?_key hnew]
  exact if_neg (Nat.not_le.2 hroom)

end State

/-- Settles O47: the merge changes the hold list alone, so the reply is all that its change sends. -/
theorem placeHoldMergesInPlace : Obligations.PlaceHoldMergesInPlace := by
  unfold Obligations.PlaceHoldMergesInPlace
  intro s tag f key old h hs hk hold hkey asked merged
  have hmerged : mergedUntil old.untilDay (holdUntil f) = merged :=
    (congrArg (mergedUntil old.untilDay) (holdUntil_eq f)).trans (mergedUntil_eq _ _)
  rw [← hmerged]
  exact request_answers h (State.placeHold_merges (s := s.popped) hk hs hold hkey)
    (State.Calm.withHold (s := s.popped) h.1.1 _) rfl rfl

/-- A new key takes the lowest free number (R120). -/
theorem exec_placeHold_adds {s : State} {tag : U8} {f : HoldFields} {key : HoldKey} (h : s.Ready (.placeHold tag f))
    (hk : holdKey? f = some key) (hnew : ∀ x ∈ s.hold.entries, x.key ≠ key) (hroom : s.hold.entries.length < 64) :
    let n := lowestNumber s.hold.entries 65 1
    exec (.placeHold tag f) s = .next (State.replied { s with hold := { s.hold with
      entries := insertHold ⟨n, key, f.reason.toNat, holdUntil f⟩ s.hold.entries } } 0x14 tag .ok (u8 n ++ [0])) :=
  request_answers h (State.placeHold_adds (s := s.popped) hk hnew hroom) (State.Calm.withHold (s := s.popped) h.1.1 _) rfl rfl

/-! ### LIST HOLDS (R128) -/

/-- An entry of LIST HOLDS, its scope and key fields read from the key. -/
theorem holdField_eq (h : Hold) : holdField h =
    let scope : List U8 := match h.key with | .day _ => [1] | .edition _ => [2] | .page _ _ => [3] | .photo _ => [4]
    u8 h.number ++ scope ++ u8 h.reason ++ h.untilDay.elim [0, 0, 0] (fun d => [1] ++ u16 d) ++ match h.key with
      | .day d => u16 d ++ [0, 0] ++ u32 0
      | .edition k => u16 k.day.toNat ++ u8 k.code.toNat ++ [0] ++ u32 0
      | .page k p => u16 k.day.toNat ++ u8 k.code.toNat ++ u8 p ++ u32 0
      | .photo p => [0, 0, 0, 0] ++ u32 p.toNat := by
  rw [holdField, flaggedDay_eq_elim]
  cases h.key <;> rfl

end Sys2Proof.Machine
end

section
/-! What a hold covers, and which placements of a body are masked (R119, R125). -/

namespace Sys2Proof.Machine

theorem coversPage_iff (h : HoldKey) (k : EditionKey) (page : Nat) :
    coversPage h k page = true ↔ h = .day k.day.toNat ∨ h = .edition k ∨ h = .page k page := by
  cases h <;> simp [coversPage]

theorem coversPhoto_iff (h : HoldKey) (n : U32) : coversPhoto h n = true ↔ h = .photo n := by
  cases h <;> simp [coversPhoto]

/-- A page matches by its day, its edition or itself (R119). -/
theorem HoldList.pageMatches_iff (l : HoldList) (k : EditionKey) (page : Nat) : l.pageMatches k page = true ↔
    ∃ h ∈ l.entries, h.key = .day k.day.toNat ∨ h.key = .edition k ∨ h.key = .page k page := by
  simp only [HoldList.pageMatches, List.any_eq_true, coversPage_iff]

/-- A photograph matches by itself (R119). -/
theorem HoldList.photoMatches_iff (l : HoldList) (n : U32) :
    l.photoMatches n = true ↔ ∃ h ∈ l.entries, h.key = .photo n := by
  simp only [HoldList.photoMatches, List.any_eq_true, coversPhoto_iff]

theorem lapsed_iff (r : Rights) (today : Nat) : lapsed r today = true ↔ ∃ d, r.untilDay = some d ∧ d < today := by
  simp [lapsed, Option.any_eq_true]

namespace State

variable (s : State) (v : View)

/-- A placement is masked when its photograph matches or has lapsed (R125). -/
theorem isMasked_iff (p : Placed) : s.isMasked p = true ↔
    (∃ h ∈ s.hold.entries, h.key = .photo p.place.photo) ∨ ∃ d, p.rights.untilDay = some d ∧ d < s.cal.day := by
  rw [isMasked, Bool.or_eq_true, HoldList.photoMatches_iff, lapsed_iff]

theorem maskOf_eq_map : s.maskOf v = ((v.placed.zipIdx 1).filter fun x => s.isMasked x.1).map Prod.snd := by
  rw [maskOf, ← List.filterMap_eq_map, List.filterMap_filter]
  rfl

theorem mem_maskOf {n : Nat} : n ∈ s.maskOf v ↔ ∃ p, 1 ≤ n ∧ v.placed[n - 1]? = some p ∧ s.isMasked p = true := by
  simp only [maskOf_eq_map, List.mem_map, List.mem_filter, Prod.exists, List.mk_mem_zipIdx_iff_le_and_getElem?_sub, and_assoc]
  constructor
  · rintro ⟨p, i, hi, hp, hmasked, rfl⟩
    exact ⟨p, hi, hp, hmasked⟩
  · rintro ⟨p, hi, hp, hmasked⟩
    exact ⟨p, n, hi, hp, hmasked, rfl⟩

/-- The masked positions stand in ascending order, each once. -/
theorem maskOf_pairwise : (s.maskOf v).Pairwise (· < ·) := by
  have hpositions : ((v.placed.zipIdx 1).map Prod.snd).Pairwise (· < ·) := by
    rw [List.zipIdx_map_snd]
    exact List.pairwise_lt_range' 1
  rw [maskOf_eq_map]
  exact hpositions.sublist (List.filter_sublist.map Prod.snd)

end State

/-- A resident page's placement has the rights of its photograph's record. -/
theorem Catalogue.pageView_placed {c : Catalogue} {p : Page} {i : Nat} {pl : Placement} {q : Photo}
    (hpl : p.placements[i]? = some pl) (hq : c.photo? pl.photo = some q) :
    (c.pageView p).placed[i]? = some ⟨pl, q.rights⟩ := by
  simp only [Catalogue.pageView, List.getElem?_map, hpl, Option.map_some, hq, Option.getD_some]

/-- A page copy's placement has the rights that the copy carries. -/
theorem copyView_placed {x : PageCopy} {i : Nat} {y : PlacedCopy} (hy : x.placed[i]? = some y) :
    (copyView (.page x)).placed[i]? = some ⟨y.place, y.rights⟩ := by
  simp only [copyView, List.getElem?_map, hy, Option.map_some]

end Sys2Proof.Machine
end

section
/-! The re-evaluation of the rights-held list (R124): the orders that no hold matches any more leave it one by one, each priced before
the next is looked at. -/

namespace Sys2Proof.Machine

namespace State

/-! ### The orders, the holds and the tables of an order that ends (R131, R138) -/

/-- t is s with holds let go: no block but the catalogue, the pool and the volume unit has changed, and consequences are open. -/
def LetsGo (s t : State) : Prop := t = { s with cat := t.cat, pool := t.pool, vol := t.vol, agenda := t.agenda }

theorem LetsGo.trans {s t u : State} (h : LetsGo s t) (k : LetsGo t u) : LetsGo s u := by
  unfold LetsGo at *
  rw [h] at k
  exact k

theorem LetsGo.ord {s t : State} (h : LetsGo s t) : t.ord = s.ord := (congrArg State.ord h :)

theorem LetsGo.hold {s t : State} (h : LetsGo s t) : t.hold = s.hold := (congrArg State.hold h :)

theorem letsGo_enqueueSeal (s : State) (slot : Nat) : LetsGo s (s.enqueueSeal slot) := by
  unfold enqueueSeal
  split <;> rfl

theorem letsGo_unpinEdition (s : State) (slot : Nat) : LetsGo s (s.unpinEdition slot) := by
  unfold unpinEdition
  split
  · rfl
  · split
    · exact LetsGo.trans (t := s.withCat _) rfl (letsGo_enqueueSeal _ _)
    · rfl

theorem letsGo_releasePins (s : State) (o : Order) : LetsGo s (s.releasePins o) := by
  unfold releasePins
  cases o.pinEdition with
  | none => cases o.pinPhoto <;> rfl
  | some slot =>
    cases o.pinPhoto with
    | none => exact letsGo_unpinEdition s slot
    | some n => exact (letsGo_unpinEdition s slot).trans rfl

theorem letsGo_leaveRecallWait (s : State) (r : Requester) : LetsGo s (s.leaveRecallWait r) := by
  obtain ⟨tasks, hform, -⟩ := leaveRecallWait_form s r
  rw [hform]
  rfl

theorem letsGo_releaseSlot (s : State) (r : Requester) : LetsGo s (s.releaseSlot r) := by
  unfold releaseSlot
  split
  · rfl
  · dsimp only
    split
    · split <;> rfl
    · rfl

theorem letsGo_removeClaim (s : State) (x : Holder) : LetsGo s (s.removeClaim x) := by
  unfold removeClaim
  split
  · dsimp only
    split <;> rfl
  · rfl

theorem letsGo_release (s : State) (x : Holder) : LetsGo s (s.release x) := by
  obtain ⟨tasks, -, -, hform⟩ := release_form s x
  rw [hform]
  rfl

/-- What an order gives back as it leaves the table touches neither the orders nor the holds. -/
theorem letsGo_leaving (s : State) (o : Order) (n : Nat) :
    LetsGo s ((((s.releasePins o).releaseRecall (.order n)).removeClaim (.order n)).release (.order n)) :=
  (letsGo_releasePins s o).trans ((letsGo_leaveRecallWait _ _).trans ((letsGo_releaseSlot _ _).trans
    ((letsGo_removeClaim _ _).trans (letsGo_release _ _))))

section Ends

variable {s : State} {n : Nat} {o : Order} (ho : s.order? n = some o) (c : Code)
include ho

/-- An order that ends leaves the live orders, its copy enters the finished list, and it leaves the rights-held list. -/
theorem endOrder_tables : (s.endOrder n c).ord = { s.ord with
      live := s.ord.live.filter fun x => x.number != n, finished := s.ord.finished ++ [o.finishedCopy .ended c] } ∧
    (s.endOrder n c).hold = { s.hold with held := s.hold.held.filter fun m => m != n } := by
  have hleft := letsGo_leaving s o n
  have hnumber : o.number = n := order?_number ho
  have hends : s.endOrder n c = (s.leaveTable n .ended c).latch .orderEnded := if_pos (by rw [ho]; rfl)
  rw [hends, leaveTable, ho]
  constructor
  · exact congrArg (fun t : OrderTable => { t with
      live := t.live.filter fun x => x.number != n, finished := t.finished ++ [o.finishedCopy .ended c] }) hleft.ord
  · subst hnumber
    exact congrArg (fun l : HoldList => { l with held := l.held.filter fun m => m != o.number }) hleft.hold

theorem order?_endOrder_ne {m : Nat} (hm : m ≠ n) : (s.endOrder n c).order? m = s.order? m := by
  rw [order?, (endOrder_tables ho c).1, List.find?_filter]
  refine congrArg (fun p => s.ord.live.find? p) (funext fun x => ?_)
  by_cases hx : x.number = m
  · simp [hx, hm]
  · simp [hx]

end Ends

/-! ### Pricing and the other orders (R152) -/

variable {s : State} {o : Order} {v : View} {a : Account}

theorem priceOrder_held {n : Nat} (ho : s.order? n = some o) (hv : s.orderView o = some v)
    (ha : s.fee.account? o.account = some a) (hc : s.holdCheck o v = .held) (retried : Bool) :
    s.priceOrder n retried = s.holdForRights n := by simp only [priceOrder, ho, hv, ha, hc]

/-- An order whose photograph has lapsed ends at its hold check (R125). -/
theorem priceOrder_expired {n : Nat} (ho : s.order? n = some o) (hv : s.orderView o = some v)
    (ha : s.fee.account? o.account = some a) (hc : s.holdCheck o v = .expired) (retried : Bool) :
    s.priceOrder n retried = s.endOrder n .rightsExpired := by simp only [priceOrder, ho, hv, ha, hc]

/-- Without an account, or a record to read, an order is not priced. -/
theorem priceOrder_unpriced {n : Nat} (ho : s.order? n = some o) (h : s.orderView o = none ∨ s.fee.account? o.account = none)
    (retried : Bool) : s.priceOrder n retried = s := by
  rcases h with h | h
  · simp only [priceOrder, ho, h]
  · cases hv : s.orderView o <;> simp only [priceOrder, ho, hv, h]

/-- Pricing an order changes no other, whether it is held, charged or ends. -/
theorem order?_priceOrder_ne {n m : Nat} (hm : m ≠ n) : (s.priceOrder n false).order? m = s.order? m := by
  cases ho : s.order? n with
  | none => simp only [priceOrder, ho]
  | some o =>
    cases hv : s.orderView o with
    | none => rw [priceOrder_unpriced ho (.inl hv)]
    | some v =>
      cases ha : s.fee.account? o.account with
      | none => rw [priceOrder_unpriced ho (.inr ha)]
      | some a =>
        cases hc : s.holdCheck o v with
        | held =>
          rw [priceOrder_held ho hv ha hc]
          exact order?_withOrder_ne (s := { s with hold := { s.hold with held := s.hold.held ++ [n] } }) (fun _ => rfl) hm
        | expired =>
          rw [priceOrder_expired ho hv ha hc]
          exact order?_endOrder_ne ho _ hm
        | passed masked =>
          rw [priceOrder_passed ho hv ha hc]
          exact order?_priced (by rwa [order?_number ho])

/-! ### The walk of the list (R124) -/

/-- An order that a lifted hold frees leaves the rights-held list and is priced. -/
def reprice (s : State) (n : Nat) : State := (s.unheld n).priceOrder n false

theorem moves_reprice (s : State) (n : Nat) : Moves s (s.reprice n) :=
  (Moves.of (.held s _)).trans (moves_priceOrder _ n false)

/-- Whether another order is matched does not change. -/
theorem matched_reprice {n m : Nat} (hm : m ≠ n) : (s.reprice n).matched m = s.matched m := by
  have horder : (s.reprice n).order? m = s.order? m := order?_priceOrder_ne (s := s.unheld n) hm
  have hentries : (s.reprice n).hold.entries = s.hold.entries := (moves_reprice s n).kept.entries
  simp only [matched, horder, funext (orderMatches_congr hentries)]

/-- The walk frees the orders that no hold matches, in the order of the list, and counts them. -/
theorem reevaluate_eq_foldl : ∀ (l : List Nat) (s : State), (l.filter fun n => !s.matched n).Nodup →
    reevaluate l s = ((l.filter fun n => !s.matched n).foldl reprice s, (l.filter fun n => !s.matched n).length)
  | [], _, _ => rfl
  | n :: l, s, hnd => by
    by_cases hn : s.matched n = true
    · have hskip : (n :: l).filter (fun n => !s.matched n) = l.filter fun n => !s.matched n := by simp [hn]
      rw [hskip] at hnd ⊢
      exact (if_pos hn).trans (reevaluate_eq_foldl l s hnd)
    · have hfirst : (n :: l).filter (fun n => !s.matched n) = n :: l.filter fun n => !s.matched n := by simp [hn]
      rw [hfirst] at hnd ⊢
      obtain ⟨hnot, hnd⟩ := List.nodup_cons.1 hnd
      have hrest : (l.filter fun m => !(s.reprice n).matched m) = l.filter fun m => !s.matched m := by
        refine List.filter_congr fun m hm => ?_
        refine congrArg not (matched_reprice ?_)
        rintro rfl
        exact hnot (List.mem_filter.2 ⟨hm, by simpa using hn⟩)
      have hwalk := reevaluate_eq_foldl l (s.reprice n) (by rwa [hrest])
      rw [hrest] at hwalk
      refine (if_neg hn).trans ?_
      show ((reevaluate l (s.reprice n)).1, (reevaluate l (s.reprice n)).2 + 1) = _
      rw [hwalk]
      rfl

/-- A re-evaluation frees the orders that no hold matches any more. -/
theorem reevaluate_unmatched (h : s.unmatched.Nodup) :
    reevaluate s.hold.held s = (s.unmatched.foldl reprice s, s.unmatched.length) := reevaluate_eq_foldl _ s h

end State

end Sys2Proof.Machine
end

section
/-! LIFT HOLD, and the statement about holds placed, lifted and listed (O48). -/

namespace Sys2Proof.Machine

namespace State

/-! ### The end of a change with only idle consequences open -/

/-- While nothing waits for a release, releases open nothing that the end of a change in SERVICE would have to work through. -/
theorem endChange_of_idle {s : State} (h : s.Still) (hm : s.req.mode = .service) (hl : ∀ x ∈ s.agenda, x.Idle) :
    s.endChange = s.close := by
  rw [endChange_of_settled rfl (s.kept_settled.mode.trans hm)]
  exact settle_inert_close s 65536 s.agenda fun x hx => h.leads (hl x hx)

theorem close_hold (s : State) : s.close.hold = s.hold := by
  unfold close send endWait
  split <;> rfl

/-! ### LIFT HOLD by its cases (R122) -/

/-- The entry of a number removed. -/
def holdLifted (s : State) (n : U8) : State :=
  { s with hold := { s.hold with entries := s.hold.entries.filter fun h => h.number != n.toNat } }

section Lift

variable {s : State} {tag n : U8}

theorem liftHold_outOfRange (hn : n = 0) : s.liftHold tag n = s.refuse 0x15 tag .outOfRange := if_pos hn

theorem liftHold_notFound (hn : n ≠ 0) (hnone : ∀ h ∈ s.hold.entries, h.number ≠ n.toNat) :
    s.liftHold tag n = s.refuse 0x15 tag .notFound := by
  have hany : (s.hold.entries.any fun h => h.number == n.toNat) = false := by simpa using hnone
  unfold liftHold
  rw [if_neg hn, hany]
  rfl

variable (hn : n ≠ 0) (hsome : ∃ h ∈ s.hold.entries, h.number = n.toNat)
include hn hsome

theorem liftHold_lifts : s.liftHold tag n = (reevaluate s.hold.held (s.holdLifted n)).1.answer 0x15 tag .ok
    (u8 (reevaluate s.hold.held (s.holdLifted n)).2) := by
  have hany : (s.hold.entries.any fun h => h.number == n.toNat) = true := by simpa using hsome
  unfold liftHold
  rw [if_neg hn, if_pos hany]
  rfl

/-- The orders freed are priced one behind the other, and the reply counts them (R124). -/
theorem liftHold_reprices (hnd : (s.holdLifted n).unmatched.Nodup) : s.liftHold tag n =
    ((s.holdLifted n).unmatched.foldl reprice (s.holdLifted n)).answer 0x15 tag .ok (u8 (s.holdLifted n).unmatched.length) := by
  have hwalk : reevaluate s.hold.held (s.holdLifted n) = _ := reevaluate_unmatched (s := s.holdLifted n) hnd
  rw [liftHold_lifts hn hsome, hwalk]

end Lift

/-! ### What the pricing of an order leaves to the next -/

section Priced

variable {s : State} {o p : Order} {v w : View} {a : Account}

/-- Pricing does not read the port. -/
theorem priced_popped : s.popped.priced o v a = (s.priced o v a).popped := by
  have hprice : s.popped.priceOf o v a = s.priceOf o v a := rfl
  have hmask : s.popped.maskOf v = s.maskOf v := rfl
  have hstmt : s.popped.stmt = s.stmt := rfl
  simp only [priced, sold, hprice, hmask, hstmt]
  split_ifs <;> rfl

theorem priced_cal : (s.priced o v a).cal = s.cal := by
  unfold priced sold
  split_ifs <;> rfl

/-- Pricing an order changes nothing that the view of another is read from. -/
theorem orderView_priced : (s.priced o v a).orderView p = s.orderView p := by
  obtain ⟨hcat, -, -⟩ := priced_rest (s := s) (o := o) (v := v) (a := a)
  obtain ⟨-, -, hvol, -⟩ := priced_blocks (s := s) (o := o) (v := v) (a := a)
  simp only [orderView, hcat, hvol]

/-- The hold check reads the entries and the day only. -/
theorem holdCheck_congr {t : State} (hentries : t.hold.entries = s.hold.entries) (hcal : t.cal = s.cal) :
    t.holdCheck p w = s.holdCheck p w := by
  have hmasked : t.isMasked = s.isMasked := funext fun _ => by simp only [isMasked, HoldList.photoMatches, hentries, hcal]
  have hmask : t.maskOf w = s.maskOf w := by simp only [maskOf, hmasked]
  have hlapsed : t.ownLapsed p w = s.ownLapsed p w := by simp only [ownLapsed, hcal]
  rw [holdCheck, orderMatches_congr hentries, hlapsed, hmask, ← holdCheck]

theorem holdCheck_priced : (s.priced o v a).holdCheck p w = s.holdCheck p w := by
  obtain ⟨-, hhold, -⟩ := priced_rest (s := s) (o := o) (v := v) (a := a)
  exact holdCheck_congr (by rw [hhold]) priced_cal

/-- A freed order that its hold check lets pass is priced, whether or not the request's frame still stands in the buffer. -/
theorem reprice_passed {n : Nat} {masked : List Nat} (ho : s.order? n = some o) (hv : s.orderView o = some v)
    (ha : s.fee.account? o.account = some a) (hc : s.holdCheck o v = .passed masked) :
    s.popped.reprice n = ((s.unheld n).priced o v a).popped := by
  rw [← priced_popped]
  exact priceOrder_passed (s := (s.unheld n).popped) ho hv ha hc

end Priced

/-! ### LIFT HOLD as one change (R122, R124) -/

section Exec

variable {s : State} {tag n : U8} (h : s.Ready (.liftHold tag n)) (hn : n ≠ 0)
  (hsome : ∃ h ∈ s.hold.entries, h.number = n.toNat)
include h hn hsome

theorem exec_liftHold_entries : ∃ t, exec (.liftHold tag n) s = .next t ∧ t.hold.entries = (s.holdLifted n).hold.entries := by
  refine ⟨_, request_taken (body := fun u => u.liftHold tag n) h.1.2.2 h.2, ?_⟩
  rw [take_of_awake h.1.2.1, liftHold_lifts (s := s.popped) hn hsome]
  refine (congrArg Books.entries (endChange_books _)).trans ?_
  exact (moves_reevaluate s.hold.held (s.popped.holdLifted n)).kept.entries

theorem exec_liftHold_quiet (hu : (s.holdLifted n).unmatched = []) :
    exec (.liftHold tag n) s = .next ((s.holdLifted n).replied 0x15 tag .ok [0]) := by
  have hpopped : (s.popped.holdLifted n).unmatched = [] := hu
  refine request_answers (u := s.popped.holdLifted n) h ?_ (Calm.withHold (s := s.popped) h.1.1 _) rfl rfl
  rw [liftHold_reprices (s := s.popped) hn hsome (by rw [hpopped]; exact List.nodup_nil), hpopped]
  rfl

theorem exec_liftHold_counts (hnd : s.hold.held.Nodup) : ∃ t, exec (.liftHold tag n) s = .next t ∧
    FirstSent s t (s.replyFrame 0x15 tag .ok (u8 (s.holdLifted n).unmatched.length)) := by
  have hunmatched : (s.popped.holdLifted n).unmatched.Nodup := hnd.filter _
  have hmoves : Moves (s.popped.holdLifted n) _ := moves_reevaluate s.hold.held (s.popped.holdLifted n)
  rw [show reevaluate s.hold.held (s.popped.holdLifted n) = _ from reevaluate_unmatched hunmatched] at hmoves
  refine ⟨_, request_taken (body := fun u => u.liftHold tag n) h.1.2.2 h.2, ?_⟩
  rw [take_of_awake h.1.2.1, liftHold_reprices (s := s.popped) hn hsome hunmatched]
  refine firstSent_taken h.1.2.2 (hmoves.kept.port.trans ?_)
  rw [take_of_awake h.1.2.1]
  rfl

variable {m : Nat} {o : Order} {v : View}

section One

variable (hu : (s.holdLifted n).unmatched = [m])
include hu

omit h in
/-- With one order that no hold matches any more, that order leaves the list, and is priced in the request's change. -/
theorem liftHold_reprices_one : s.popped.liftHold tag n = ((s.holdLifted n).popped.reprice m).answer 0x15 tag .ok [1] := by
  have hpopped : (s.popped.holdLifted n).unmatched = [m] := hu
  rw [liftHold_reprices (s := s.popped) hn hsome (by rw [hpopped]; exact List.nodup_singleton m), hpopped]
  rfl

theorem exec_liftHold_prices {a : Account} {masked : List Nat} (ho : s.order? m = some o) (hv : s.orderView o = some v)
    (ha : s.fee.account? o.account = some a) (hc : (s.holdLifted n).holdCheck o v = .passed masked) :
    exec (.liftHold tag n) s = .next ((((s.holdLifted n).unheld m).priced o v a).answered 0x15 tag .ok [1]) :=
  request_answered h ((liftHold_reprices_one hn hsome hu).trans
    (congrArg (fun t => t.answer 0x15 tag .ok [1]) (reprice_passed (s := s.holdLifted n) ho hv ha hc)))

/-- An order whose photograph has lapsed meanwhile ends (R125). -/
theorem exec_liftHold_ends (hm : s.req.mode = .service) (hstill : s.Still) (ho : s.order? m = some o)
    (hv : s.orderView o = some v) (ha : (s.fee.account? o.account).isSome = true) (hc : (s.holdLifted n).holdCheck o v = .expired) :
    ∃ t, exec (.liftHold tag n) s = .next t ∧ t.order? m = none ∧
      t.ord.finished.getLast? = some (o.finishedCopy .ended .rightsExpired) ∧
      t.hold.held = s.hold.held.filter (fun k => k != m) ∧ Raised s t .orderEnded := by
  obtain ⟨a, ha⟩ := Option.isSome_iff_exists.1 ha
  let left : State := (s.holdLifted n).popped.unheld m
  have hleft : left.Still := hstill
  have hends : (s.holdLifted n).popped.reprice m = left.endOrder m .rightsExpired := priceOrder_expired (s := left) ho hv ha hc false
  have hfailed : OrderFailed left _ m .rightsExpired := orderFailed_endOrder hleft ho .rightsExpired
  obtain ⟨hord, hhold⟩ := endOrder_tables (s := left) ho .rightsExpired
  obtain ⟨l, -, hl, hagenda⟩ := hfailed.tasks
  have hexec := request_taken (body := fun u => u.liftHold tag n) h.1.2.2 h.2
  rw [take_of_awake h.1.2.1, liftHold_reprices_one hn hsome hu, hends] at hexec
  generalize left.endOrder m .rightsExpired = u at *
  have hopen : u.agenda = l := hagenda.trans (congrArg (· ++ l) h.1.1.1)
  have hmode : u.req.mode = .service := by
    rw [hfailed.req]
    exact hm
  have hclose : (u.answer 0x15 tag .ok [1]).endChange = (u.answer 0x15 tag .ok [1]).close :=
    endChange_of_idle hfailed.still hmode fun x hx => hl x (hopen ▸ hx)
  rw [hclose] at hexec
  refine ⟨_, hexec, ?_, getLast?_finished_close (congrArg OrderTable.finished hord), ?_, raised_close ?_ ?_⟩
  · rw [order?_close]
    exact hfailed.gone
  · rw [close_hold]
    refine (congrArg HoldList.held hhold).trans ?_
    exact (List.filter_filter ..).trans (List.filter_congr fun k _ => Bool.and_self _)
  · exact (congrArg RequestUnit.wait hfailed.req :)
  · show u.req.latched.getLsbD _ = true
    rw [hfailed.req]
    exact latch_bit left .orderEnded

end One

/-- With two such orders, the second is priced on what the first leaves. -/
theorem exec_liftHold_prices_two {k : Nat} {p : Order} {w : View} {a b : Account} {x y : List Nat}
    (hu : (s.holdLifted n).unmatched = [m, k]) (hne : m ≠ k) (ho : s.order? m = some o) (hp : s.order? k = some p)
    (hv : s.orderView o = some v) (hw : s.orderView p = some w) (ha : s.fee.account? o.account = some a)
    (hc : (s.holdLifted n).holdCheck o v = .passed x) (hd : (s.holdLifted n).holdCheck p w = .passed y) :
    let first := ((s.holdLifted n).unheld m).priced o v a
    first.fee.account? p.account = some b →
      exec (.liftHold tag n) s = .next (((first.unheld k).priced p w b).answered 0x15 tag .ok [2]) := by
  intro first hb
  have hpopped : (s.popped.holdLifted n).unmatched = [m, k] := hu
  have hnumber : o.number = m := order?_number ho
  have horder : first.order? k = some p := (order?_priced (by rw [hnumber]; exact hne.symm)).trans hp
  have hsecond : first.popped.reprice k = ((first.unheld k).priced p w b).popped :=
    reprice_passed horder (orderView_priced.trans hw) hb (holdCheck_priced.trans hd)
  refine request_answered h ?_
  rw [liftHold_reprices (s := s.popped) hn hsome (by rw [hpopped]; simpa using hne), hpopped, ← hsecond]
  exact congrArg (fun t : State => (t.reprice k).answer 0x15 tag .ok [2]) (reprice_passed (s := s.holdLifted n) ho hv ha hc)

end Exec

end State

/-- Settles O48: PLACE HOLD and LIFT HOLD by their cases, each as one change; what a hold covers and masks; and the list's bytes. -/
theorem holdsArePlacedLiftedAndListed : Obligations.HoldsArePlacedLiftedAndListed := by
  unfold Obligations.HoldsArePlacedLiftedAndListed
  refine ⟨fun s tag f h => ⟨fun hk => request_replies h (State.placeHold_outOfRange hk), fun key hk hnew =>
      ⟨fun hfull => request_replies h (State.placeHold_full (s := s.popped) hk hnew hfull), fun hroom => ?new⟩⟩,
    fun f hr => ?key, fun f hr => holdKey?_reason hr, fun s tag n h => ⟨fun hn => request_replies h (State.liftHold_outOfRange hn),
      fun hn hnone => request_replies h (State.liftHold_notFound (s := s.popped) hn hnone), fun hn hsome => ?lift⟩,
    ⟨HoldList.pageMatches_iff, HoldList.photoMatches_iff, fun s v => ⟨s.maskOf_pairwise v, fun n => ?mask⟩,
      fun c p i pl q hpl hq => Catalogue.pageView_placed hpl hq, fun x i y hy => copyView_placed hy⟩, fun s tag h => ?list⟩
  case new =>
    refine ⟨lowestNumber s.hold.entries 65 1, le_lowestNumber _ 65 1, ?_, fun x hx hnum => ?_,
      fun m h1 hlt => exists_lt_lowestNumber 65 1 m h1 hlt, ?_⟩
    · have := lowestNumber_le s.hold.entries
      omega
    · exact lowestNumber_fresh (Nat.le_of_lt hroom) (hnum ▸ List.mem_map_of_mem hx)
    · rw [exec_placeHold_adds h hk hnew hroom, holdUntil_eq]
  case key =>
    refine ⟨fun hs => ?_, fun hs hc => ?_, fun hs hc h1 h2 => ?_, fun hs hp => ?_, holdKey?_scope, fun hs hc => ?_,
      fun hs hp => ?_, fun hs hp => ?_⟩
    all_goals rw [holdKey?_of_reason hr]
    · simp [hs]
    · simp [hs, hc]
    · simp [hs, hc, h1, h2]
    · simpa [hs] using hp
    · rcases hs with hs | hs <;> simp [hs, Nat.not_le.2 hc]
    · have hrange : ¬(f.code.toNat ≤ 15 ∧ 1 ≤ f.page.toNat ∧ f.page.toNat ≤ 128) := by
        rcases hp with hp | hp
        · simp [hp]
        · omega
      simp [hs, hrange]
    · simp [hs, hp]
  case lift =>
    refine ⟨State.exec_liftHold_entries h hn hsome, ?_⟩
    intro left without
    refine ⟨State.exec_liftHold_quiet h hn hsome, fun hnd _ => State.exec_liftHold_counts h hn hsome hnd,
      fun m o v a masked hu ho hv ha hc => State.exec_liftHold_prices h hn hsome hu ho hv ha hc,
      fun m o v hm hstill hu ho hv ha hc => State.exec_liftHold_ends h hn hsome hu hm hstill ho hv ha hc, ?_⟩
    intro m1 m2 o1 o2 v1 v2 a1 a2 x1 x2 hu hne ho1 ho2 hv1 hv2 ha1 hc1 hc2
    exact State.exec_liftHold_prices_two h hn hsome hu hne ho1 ho2 hv1 hv2 ha1 hc1 hc2
  case mask =>
    rw [State.mem_maskOf]
    simp only [State.isMasked_iff]
  case list =>
    refine query_replies h ?_
    rw [funext holdField_eq]
    rfl

end Sys2Proof.Machine
end

section
/-! CANCEL ORDER, RETIRE ORDER and PREPARE DELIVERY in a part of which two live orders share a number (O50, O51). -/

namespace Sys2Proof.Machine

/-- A page order of account 305 with number 1, in the state given, which pins the edition in slot 0. -/
def orderOne (st : OrdState) : Order :=
  { number := 1, account := 305, key := noKey, page := 1, version := 0, resolved := some 1, photo := none, volume := 0
    useClass := 0, sizeClass := 0, copies := 1, restore := false, bearer := false, state := st, outcome := .pending
    pinEdition := some 0, pinPhoto := none, recallSlot := none, job := none, masked := 0, charged := 0, maskSet := none
    prepared := none, attempts := 0, lastPrep := none, readOf := none, landed := false, prepTag := none, readyTicks := 0 }

/-! ### RETIRE ORDER lets a pending entry to SETUP complete -/

/-- A CLOSED edition that one order pins. -/
def pinnedOnce : Edition :=
  { key := noKey, state := .closed, planned := 1, deadline := none, warned := false, forced := false, interrupted := false
    due := false, pins := 1, closedOn := some 0, gaps := some [], failedPages := 0 }

/-- A part whose entry to SETUP waits for one order, an ACCEPTED one, which has the number of a CHARGED one; the edition that
the CHARGED one pins stands in the seal queue. -/
def sharedOrders : State := { State.reset with
  cat := { Catalogue.initial with editions := [some pinnedOnce] }
  vol := { VolumeUnit.initial with sealQueue := [0] }
  ord := ⟨[orderOne .charged, orderOne .accepted], 2, []⟩
  req := { RequestUnit.initial with mode := .setupPending } }

/-- It is no sound order table: R131 gives each order a number of its own. -/
theorem sharedOrders_not_sound : ¬sharedOrders.ord.Sound := fun ⟨_, hnumbers, _⟩ => absurd hnumbers (by decide)

theorem sharedOrders_ready : sharedOrders.Ready (.retireOrder 4 1) := by decide +kernel

/-- RETIRE ORDER takes both orders out of the table, so that the entry to SETUP completes in the same change, and SETUP lets the
seal of the edition begin. -/
theorem exec_retireOrder_sharedOrders : ∃ t, exec (.retireOrder 4 1) sharedOrders = .next t ∧
    (t.cat.edition? 0).map Edition.state = some .sealing := ⟨_, rfl, by decide +kernel⟩

/-- Refutes O50, in its last clause: nothing in the premises of RETIRE ORDER keeps two live orders from sharing a number. With the
CHARGED order of `sharedOrders` the ACCEPTED one leaves too, the pending entry to SETUP completes, and the edition that lost its last
pin is SEALING, where the statement lets nothing but its pins change. -/
theorem not_ordersAreCancelledAndRetired : ¬Obligations.OrdersAreCancelledAndRetired := by
  rintro ⟨-, -, -, hretire⟩
  obtain ⟨-, -, hlive⟩ := hretire sharedOrders 4 1 sharedOrders_ready
  obtain ⟨-, hcharged⟩ := hlive (orderOne .charged) (by decide) rfl
  obtain ⟨t, ht, -, -, hstill⟩ := hcharged rfl
  obtain ⟨-, -, -, -, hpins⟩ := hstill (by decide +kernel)
  have hedition := hpins 0 pinnedOnce rfl rfl
  obtain ⟨u, hu, hsealing⟩ := exec_retireOrder_sharedOrders
  rw [hu] at ht
  cases ht
  rw [hedition] at hsealing
  exact absurd hsealing (by decide)

/-! ### PREPARE DELIVERY gives one mask set to both -/

/-- A FILED page that places photograph 9. -/
def pageOfNine : Page :=
  { slot := 0, number := 1, version := 1, sectionCode := 0, state := .filed, superseded := false, grid := ⟨1, 1⟩, declared := 0
    raw := none, current := none, stored := none, level := 0, points := none, placements := [⟨9, 1, 1, 1, 1⟩], outcome := .ok }

/-- A part in SERVICE with photograph 9 on hold and a claim that waits, of which a page order and an order of photograph 9, both
CHARGED, have one number. -/
def sharedPreparation : State := { State.reset with
  cat := { Catalogue.initial with pages := [pageOfNine] }
  pool := { Pool.initial with claims := [⟨.job 1, 1⟩] }
  hold := ⟨[⟨1, .photo 9, 0, none⟩], []⟩
  ord := ⟨[orderOne .charged, { orderOne .charged with photo := some 9 }], 2, []⟩
  req := { RequestUnit.initial with mode := .service } }

theorem sharedPreparation_not_sound : ¬sharedPreparation.ord.Sound := fun ⟨_, hnumbers, _⟩ => absurd hnumbers (by decide)

theorem sharedPreparation_ready : sharedPreparation.Ready (.prepareDelivery 4 1) := by decide +kernel

/-- Both orders of the number get the mask set of the page order. -/
theorem exec_prepareDelivery_sharedPreparation : ∃ t, exec (.prepareDelivery 4 1) sharedPreparation = .next t ∧
    t.ord.live.map Order.maskSet = [some [1], some [1]] := ⟨_, rfl, by decide +kernel⟩

/-- Refutes O51, in its first clause: nothing in the premises of PREPARE DELIVERY keeps two live orders from sharing a number. The
preparation of the page order of `sharedPreparation` records its mask set in both, where the statement gives the photo-only one an
empty set. -/
theorem not_deliveriesArePrepared : ¬Obligations.DeliveriesArePrepared := by
  rintro ⟨hprepare, -, -⟩
  obtain ⟨-, -, -, hlive⟩ := hprepare sharedPreparation 4 1 sharedPreparation_ready
  obtain ⟨-, hcharged⟩ := hlive (orderOne .charged) rfl (by decide) rfl
  obtain ⟨-, -, -, hbegins⟩ := hcharged (sharedPreparation.cat.pageView pageOfNine) rfl rfl
  have hmatched : ¬(sharedPreparation.hold.pageMatches noKey 1 = true ∨
      ∃ p, (none : Option U32) = some p ∧ sharedPreparation.hold.photoMatches p = true) := by
    rintro (h | ⟨p, h, -⟩)
    · exact absurd h (by decide)
    · cases h
  obtain ⟨-, hwaits⟩ := hbegins hmatched (fun ⟨p, _, _, h, _⟩ => by cases h) (by decide)
  have hrun := hwaits (.inl (by decide))
  obtain ⟨t, ht, hmasks⟩ := exec_prepareDelivery_sharedPreparation
  rw [ht] at hrun
  cases hrun
  rw [State.close_live] at hmasks
  exact absurd hmasks (by decide +kernel)

end Sys2Proof.Machine
end

section
/-! The end of a preparation and the ready expiry (O52): the frames that wait in a change, the rectangles that are filled, and the claim
queue behind an order that gives back its segments. -/

namespace Sys2Proof.Machine

/-! ### The frames that a change sends (R176) -/

/-- A frame that has joined the port stays in it while others join. -/
theorem MessagePort.mem_puts {f : Frame} : ∀ (l : List Frame) (p : MessagePort), f ∈ p.outbound ++ p.waiting ∨ f ∈ l →
    f ∈ (l.foldl MessagePort.put p).outbound ++ (l.foldl MessagePort.put p).waiting
  | [], p, h => h.resolve_right List.not_mem_nil
  | g :: l, p, h => by
    refine MessagePort.mem_puts l (p.put g) ?_
    have hput : f ∈ p.outbound ++ p.waiting ∨ f = g → f ∈ (p.put g).outbound ++ (p.put g).waiting := by
      unfold MessagePort.put
      split <;> simp only [List.mem_append, List.mem_singleton] <;> tauto
    rw [List.mem_cons] at h
    tauto

/-- The bytes put in a holder's segments are what lies there. -/
theorem Pool.content_putContent (p : Pool) (h : Holder) (b : List U8) : (p.putContent h b).content h = b := by
  have hnone : (p.contents.filter fun c => c.1 != h).find? (fun c => c.1 == h) = none :=
    List.find?_eq_none.2 fun c hc => by simpa using (List.mem_filter.1 hc).2
  simp [Pool.content, Pool.putContent, List.find?_append, hnone]

namespace State

/-- The replies to PREPARE DELIVERY that a change has formed are among the frames it sends. -/
theorem mem_frames_of_prepare {s : State} {k : Nat} {f : Frame} (h : (k, f) ∈ s.formed.prepare) : f ∈ s.frames := by
  have hsorted : f ∈ (sortBy (fun a b : Nat × Frame => decide (a.1 ≤ b.1)) s.formed.prepare).map Prod.snd :=
    List.mem_map.2 ⟨(k, f), (sortBy_perm _ _).mem_iff.2 h, rfl⟩
  simp only [frames, List.mem_append]
  tauto

theorem sent_close {s : State} {f : Frame} (h : f ∈ s.frames) : Sent s.close f := by
  rw [Sent, close_outbound]
  exact MessagePort.mem_puts _ _ (.inr h)

/-! ### The suspended reply of a preparation (R142) -/

variable (s : State) (o : Order) (code : Code) (fields : List U8)

@[simp] theorem answerPrepare_agenda : (s.answerPrepare o code fields).agenda = s.agenda := by unfold answerPrepare; split <;> rfl
@[simp] theorem answerPrepare_req : (s.answerPrepare o code fields).req = s.req := by unfold answerPrepare; split <;> rfl
@[simp] theorem answerPrepare_pool : (s.answerPrepare o code fields).pool = s.pool := by unfold answerPrepare; split <;> rfl
@[simp] theorem answerPrepare_ord : (s.answerPrepare o code fields).ord = s.ord := by unfold answerPrepare; split <;> rfl

theorem sent_answerPrepare {g : U8} (hg : o.prepTag = some g) :
    Sent (s.answerPrepare o code fields).close (s.replyFrame 0x7C g code (u32 o.number ++ fields)) := by
  refine sent_close (mem_frames_of_prepare (k := o.number) ?_)
  simp only [answerPrepare, hg]
  exact List.mem_append_right _ (List.mem_singleton.2 rfl)

end State

/-! ### The masked rectangles (R142) -/

/-- A tile lies in a rectangle of which the mask set names the list position. -/
theorem any_maskedPlaces {v : View} {mask : List Nat} {tile : Nat} :
    ((maskedPlaces v mask).any fun p => inRectangle v.grid p tile) = true ↔ ∃ m ∈ mask, ∃ x, 1 ≤ m ∧ v.placed[m - 1]? = some x ∧
      inRectangle v.grid x.place tile = true := by
  have hat (x : Placed) (m : Nat) : (x, m) ∈ v.placed.zipIdx 1 ↔ 1 ≤ m ∧ v.placed[m - 1]? = some x := by
    rw [List.mem_zipIdx_iff_le_and_getElem?_sub]
  simp only [maskedPlaces, List.any_eq_true, List.mem_filterMap, Prod.exists, hat, List.contains_iff_mem]
  constructor
  · rintro ⟨p, ⟨x, m, ⟨h1, hx⟩, hp⟩, hin⟩
    split at hp
    · next hm => cases hp; exact ⟨m, hm, x, h1, hx, hin⟩
    · cases hp
  · rintro ⟨m, hm, x, h1, hx, hin⟩
    exact ⟨x.place, ⟨x, m, ⟨h1, hx⟩, if_pos hm⟩, hin⟩

theorem maskBody_length (g : Grid) (places : List Placement) (body : List U8) : (maskBody g places body).length = body.length := by
  simp [maskBody]

theorem maskBody_getElem? (g : Grid) (places : List Placement) (body : List U8) (i : Nat) : (maskBody g places body)[i]? =
    body[i]?.map fun x => if places.any fun p => inRectangle g p (i / 4096) then 255 else x := by
  simp only [maskBody, List.getElem?_map, List.getElem?_zipIdx, Option.map_map, Nat.zero_add]
  rfl

namespace State

/-! ### The end of a preparation (R142, R143) -/

/-- The body of a preparation with the masked rectangles filled. -/
abbrev filledBody (s : State) (o : Order) (v : View) : List U8 :=
  maskBody v.grid (maskedPlaces v (o.maskSet.getD [])) (s.pool.content (.order o.number))

/-- An order that is READY with the body given, its expiry fresh. -/
abbrev readyOrder (body : List U8) (o : Order) : Order :=
  { o with state := .ready, prepared := some (body.length, crc32 body), lastPrep := some .ok, readOf := none
           landed := false, prepTag := none, readyTicks := 153600 }

/-- The order is READY with the body given, which lies in its segments. -/
def readied (s : State) (o : Order) (body : List U8) : State :=
  withOrder { s with pool := s.pool.putContent (.order o.number) body } o.number (readyOrder body)

section End

variable {s : State} {n : U32} {o : Order} {v : View} (h : s.Working) (ho : s.order? n.toNat = some o) (hv : s.orderView o = some v)

/-- What the end of the preparation leaves, its reply formed. -/
abbrev prepared (s : State) (o : Order) (v : View) : State :=
  (s.readied o (s.filledBody o v)).answerPrepare o .ok
    (u32 (s.filledBody o v).length ++ u32 (crc32 (s.filledBody o v)).toNat ++ u8 o.attempts)

include ho

theorem content_prepared : (s.prepared o v).close.pool.content (.order n.toNat) = s.filledBody o v := by
  rw [close_pool, answerPrepare_pool, ← order?_number ho]
  exact Pool.content_putContent _ _ _

theorem order?_prepared : (s.prepared o v).close.order? n.toNat = some (readyOrder (s.filledBody o v) o) := by
  have hlive : (s.prepared o v).close.order? n.toNat = (s.readied o (s.filledBody o v)).order? n.toNat := by
    rw [order?, close_live, answerPrepare_ord, order?]
  rw [hlive, readied, order?_number ho]
  exact order?_withOrder_self (s := { s with pool := s.pool.putContent (.order n.toNat) (s.filledBody o v) })
    (f := readyOrder (s.filledBody o v)) ho fun _ => rfl

include h hv

theorem exec_preparationEnd (hp : o.state = .preparing) (hl : o.landed = true) :
    exec (.preparationEnd n) s = .next (s.prepared o v).close := by
  have hlanded : s.landed? n.toNat = some o := by simp [landed?, ho, hp, hl]
  have hbody : s.endPreparation n.toNat = s.prepared o v := by simp only [endPreparation, hlanded, finishPreparation, hv]; rfl
  refine event_settles (happens := fun u => (u.landed? n.toNat).isSome) (body := fun u => u.endPreparation n.toNat) h
    (by rw [hlanded]; rfl) ((congrArg settled hbody).trans (settled_of_nil ?_)) ?_
  · rw [answerPrepare_agenda]; exact h.2.1
  · rw [answerPrepare_req]; exact h.2.2.1

end End

/-! ### A ready expiry (R143) -/

/-- An order that is CHARGED again, with nothing prepared. -/
abbrev unpreparedOrder (o : Order) : Order :=
  { o with state := .charged, maskSet := none, prepared := none, readOf := none, landed := false, prepTag := none, readyTicks := 0 }

/-- The order n is CHARGED again, its segments given back. -/
abbrev chargedAgain (s : State) (n : Nat) : State :=
  latch (withOrder { s with pool := s.pool.without (.order n) } n unpreparedOrder) .readyExpired

/-- The claim at the head is granted, and the next one does not fit. -/
theorem regrant_first {u x : State} {c : Claim} {rest : List Claim} (hf : c.need + 32 ≤ u.pool.free)
    (hx : grant { u with pool := { u.pool with claims := rest } } c = x) (hp : x.pool.free = u.pool.free - c.need)
    (hrest : ∀ d ∈ rest.head?, u.pool.free < c.need + d.need + 32) : regrant (c :: rest) u = x := by
  rw [regrant, if_pos (Pool.fits_iff.2 hf), hx]
  refine regrant_stop rest fun d hd => ?_
  have := hrest d hd
  omega

section Expiry

variable {s : State} {n : U32} {o : Order} (h : s.Working) (ho : s.order? n.toNat = some o) (hr : o.state = .ready)
  (ht : o.readyTicks = 0) (hheld : 0 < s.pool.heldBy (.order n.toNat))
include h ho hr ht hheld

/-- The segments given back let the claim queue be looked at again. -/
theorem exec_readyExpiry {x : State} (hx : regrant s.pool.claims (s.chargedAgain n.toNat) = x) (ha : x.agenda = [])
    (hm : x.req.mode = .service) : exec (.readyExpiry n) s = .next x.close := by
  have hheld' : ¬s.pool.heldBy (.order n.toNat) = 0 := by omega
  have hbody : s.expireReady n.toNat = (s.chargedAgain n.toNat).push .regrant :=
    congrArg (fun t => latch t .readyExpired) (if_neg hheld')
  refine event_settles (happens := fun u => u.readyExpired n.toNat) (body := fun u => u.expireReady n.toNat) h
    (by simp [readyExpired, ho, hr, ht]) ?_ hm
  rw [hbody]
  exact (settled_push (u := s.chargedAgain n.toNat) h.2.1).trans ((congrArg (settle 65535) hx).trans (settle_of_nil _ _ ha))

theorem exec_readyExpiry_stops (hc : ∀ c ∈ s.pool.claims.head?, (s.pool.without (.order n.toNat)).free < c.need + 32) :
    exec (.readyExpiry n) s = .next (s.chargedAgain n.toNat).close :=
  exec_readyExpiry h ho hr ht hheld (regrant_stop (u := s.chargedAgain n.toNat) _ hc) h.2.1 h.2.2.1

variable {m need i : Nat} {rest : List Claim} {v : View} (hf : need + 32 ≤ (s.pool.without (.order n.toNat)).free)
  (hl : s.link.Takes i) (hrest : ∀ c ∈ rest.head?, (s.pool.without (.order n.toNat)).free < need + c.need + 32)
include hf hl hrest

theorem exec_readyExpiry_grantsJob {j : Job} (hc : s.pool.claims = ⟨.job m, need⟩ :: rest) (hj : s.job? m = some j)
    (hv : s.jobView j = some v) : exec (.readyExpiry n) s = .next (close (withJob { s.chargedAgain n.toNat with
      pool := { (s.pool.without (.order n.toNat)).given (.job m) need with claims := rest }
      link := s.link.occupy i (.readForJob m j.target.volume v.current) } m fun j => { j with state := .survey })) := by
  refine exec_readyExpiry h ho hr ht hheld ?_ h.2.1 h.2.2.1
  rw [hc]
  exact regrant_first (u := s.chargedAgain n.toNat) hf
    (grant_job (u := { s.chargedAgain n.toNat with pool := { s.pool.without (.order n.toNat) with claims := rest } }) hj hv hl)
    (Pool.free_given (p := s.pool.without (.order n.toNat)) (by omega)) hrest

theorem exec_readyExpiry_grantsOrder {p : Order} (hc : s.pool.claims = ⟨.order m, need⟩ :: rest) (hne : m ≠ n.toNat)
    (hp : s.order? m = some p) (hv : s.orderView p = some v) :
    exec (.readyExpiry n) s = .next (close (withOrder { s.chargedAgain n.toNat with
      pool := { (s.pool.without (.order n.toNat)).given (.order m) need with claims := rest }
      link := s.link.occupy i (.readForOrder m p.volume v.current) } m fun p =>
        { p with readOf := some (v.current, v.stored) })) := by
  refine exec_readyExpiry h ho hr ht hheld ?_ h.2.1 h.2.2.1
  have hp' : (s.chargedAgain n.toNat).order? m = some p :=
    (order?_withOrder_ne (s := { s with pool := s.pool.without (.order n.toNat) }) (f := unpreparedOrder) (fun _ => rfl) hne).trans hp
  rw [hc]
  exact regrant_first (u := s.chargedAgain n.toNat) hf
    (grant_order (u := { s.chargedAgain n.toNat with pool := { s.pool.without (.order n.toNat) with claims := rest } }) hp' hv hl)
    (Pool.free_given (p := s.pool.without (.order n.toNat)) (by omega)) hrest

end Expiry

/-! ### What the hold checks refuse a delivery with (R126, R127) -/

/-- A hold on the order's page, or on the photograph of a photo-only order. -/
theorem orderMatches_iff {s : State} {o : Order} : s.orderMatches o = true ↔
    s.hold.pageMatches o.key o.page = true ∨ ∃ p, o.photo = some p ∧ s.hold.photoMatches p = true := by
  simp [orderMatches, Option.any_eq_true]

/-- The rights of a photo-only order's photograph have run out. -/
theorem ownLapsed_iff {s : State} {o : Order} {v : View} : s.ownLapsed o v = true ↔
    ∃ p r d, o.photo = some p ∧ v.own = some r ∧ r.untilDay = some d ∧ d < s.cal.day := by
  simp only [ownLapsed, Bool.and_eq_true, Option.isSome_iff_exists, Option.any_eq_true, lapsed_iff]
  constructor
  · rintro ⟨⟨p, hp⟩, r, hr, d, hd, hlt⟩; exact ⟨p, r, d, hp, hr, hd, hlt⟩
  · rintro ⟨p, r, d, hp, hr, hd, hlt⟩; exact ⟨⟨p, hp⟩, r, hr, d, hd, hlt⟩

section Hold

variable {s : State} {o : Order} {v : View}

theorem deliveryHold?_held (h : s.orderMatches o = true) : s.deliveryHold? o v = some .held := if_pos h

theorem deliveryHold?_expired (h : ¬s.orderMatches o = true) (hl : s.ownLapsed o v = true) :
    s.deliveryHold? o v = some .rightsExpired := (if_neg h).trans (if_pos hl)

theorem deliveryHold?_none (h : ¬s.orderMatches o = true) (hl : ¬s.ownLapsed o v = true) : s.deliveryHold? o v = none :=
  (if_neg h).trans (if_neg hl)

end Hold

/-! ### BIND DELIVERY by its cases (R144) -/

section Bind

variable {s : State} {tag : U8} {n : U32}

theorem delivers_iff : (s.inService || s.req.mode == .setupPending) = true ↔
    s.req.mode = .service ∨ s.req.mode = .setupPending := by simp [inService]

theorem bindDelivery_notInService (hm : ¬(s.req.mode = .service ∨ s.req.mode = .setupPending)) :
    s.bindDelivery tag n = s.refuse 0x7D tag .notInService := 
  if_pos (by rw [Bool.not_eq_true', Bool.eq_false_iff]; exact mt delivers_iff.1 hm)

variable (hm : s.req.mode = .service ∨ s.req.mode = .setupPending)
include hm

theorem not_closed_of_mode : ¬(!(s.inService || s.req.mode == .setupPending)) = true := by
  simp only [delivers_iff.2 hm, Bool.not_true, Bool.false_eq_true, not_false_iff]

theorem bindDelivery_outOfRange (hn : n = 0) : s.bindDelivery tag n = s.refuse 0x7D tag .outOfRange :=
  (if_neg (not_closed_of_mode hm)).trans (if_pos hn)

variable (hn : n ≠ 0)
include hn

theorem bindDelivery_notFound (ho : s.order? n.toNat = none) : s.bindDelivery tag n = s.refuse 0x7D tag .notFound := by
  rw [bindDelivery, if_neg (not_closed_of_mode hm), if_neg hn, ho]

variable {o : Order} (ho : s.order? n.toNat = some o)
include ho

theorem bindDelivery_live : s.bindDelivery tag n = s.bindReady tag o := by
  rw [bindDelivery, if_neg (not_closed_of_mode hm), if_neg hn, ho]

theorem bindDelivery_badState (hr : o.state ≠ .ready) : s.bindDelivery tag n = s.refuse 0x7D tag .badState := by
  have hr : (o.state == .ready) = false := by simpa using hr
  rw [bindDelivery_live hm hn ho, bindReady, hr]

variable {v : View} {length : Nat} {check : U32} (hr : o.state = .ready) (hp : o.prepared = some (length, check))
  (hv : s.orderView o = some v)
include hr hp hv

theorem bindDelivery_refused {code : Code} (hh : s.deliveryHold? o v = some code) :
    s.bindDelivery tag n = s.refuse 0x7D tag code := by
  rw [bindDelivery_live hm hn ho]
  simp only [bindReady, hr, hp, hv, hh, beq_self_eq_true]

variable (hh : s.deliveryHold? o v = none)
include hh

theorem bindDelivery_laneBusy (hl : s.lane.slot ≠ none) : s.bindDelivery tag n = s.refuse 0x7D tag .laneBusy := by
  rw [bindDelivery_live hm hn ho]
  simp only [bindReady, hr, hp, hv, hh, beq_self_eq_true, Option.isSome_iff_ne_none.2 hl, if_true]

theorem bindDelivery_binds (hl : s.lane.slot = none) : s.bindDelivery tag n = s.bindOrder tag o length check := by
  rw [bindDelivery_live hm hn ho]
  simp only [bindReady, hr, hp, hv, hh, beq_self_eq_true, hl, Option.isSome_none, Bool.false_eq_true, if_false]

end Bind

end State

/-- Settles O52: the finishing work of a preparation, the ready expiry with the claims behind it, and BIND DELIVERY by its cases. -/
theorem readyOrdersExpireOrAreBound : Obligations.ReadyOrdersExpireOrAreBound := by
  unfold Obligations.ReadyOrdersExpireOrAreBound
  refine ⟨fun s n o v h ho hp hl hv => ?prepared, fun s n o h ho hr ht hheld => ?expired, fun s tag n h => ?bound⟩
  case prepared =>
    intro before white
    have hbefore : s.pool.content (.order o.number) = before := by rw [State.order?_number ho]
    have hwhite (tile : Nat) : ((maskedPlaces v (o.maskSet.getD [])).any fun p => inRectangle v.grid p tile) = true ↔ white tile := by
      rw [any_maskedPlaces]
      simp only [inRectangle, decide_eq_true_eq]
      exact Iff.rfl
    refine ⟨_, s.filledBody o v, State.exec_preparationEnd h ho hv hp hl, ?_, fun i x hx => ?_, State.content_prepared ho,
      State.order?_prepared ho, fun g hg => ?_⟩
    · rw [maskBody_length, hbefore]
    · rw [maskBody_getElem?, hbefore, hx, Option.map_some]
      refine ⟨fun hw => ?_, fun hw => ?_⟩
      · rw [if_pos ((hwhite _).2 hw)]
      · rw [if_neg fun hany => hw ((hwhite _).1 hany)]
    · have := State.sent_answerPrepare (s.readied o (s.filledBody o v)) o .ok
        (u32 (s.filledBody o v).length ++ u32 (crc32 (s.filledBody o v)).toNat ++ u8 o.attempts) hg
      rwa [← List.append_assoc, ← List.append_assoc] at this
  case expired =>
    refine ⟨State.exec_readyExpiry_stops h ho hr ht hheld, fun m need rest i v hf hl hrest =>
      ⟨fun j hc hj hv => State.exec_readyExpiry_grantsJob h ho hr ht hheld hf hl hrest hc hj hv,
        fun p hc hne hp hv => State.exec_readyExpiry_grantsOrder h ho hr ht hheld hf hl hrest hc hne hp hv⟩⟩
  case bound =>
    refine ⟨fun hm => request_replies h (State.bindDelivery_notInService (s := s.popped) hm),
      fun hm hn => request_replies h (State.bindDelivery_outOfRange (s := s.popped) hm hn),
      fun hm hn ho => request_replies h (State.bindDelivery_notFound (s := s.popped) hm hn ho), fun o hm hn ho =>
      ⟨fun hr => request_replies h (State.bindDelivery_badState (s := s.popped) hm hn ho hr),
        fun v length check hr hp hv => ⟨fun hh => ?_, fun hh hl => ?_, fun hh hl hlane => ?_, fun hh hl hlane => ?_⟩⟩⟩
    · exact request_replies h (State.bindDelivery_refused (s := s.popped) hm hn ho hr hp hv
        (State.deliveryHold?_held (State.orderMatches_iff.2 hh)))
    all_goals
      have hh : ¬s.popped.orderMatches o = true := fun hmatch => hh (State.orderMatches_iff.1 hmatch)
    · exact request_replies h (State.bindDelivery_refused (s := s.popped) hm hn ho hr hp hv
        (State.deliveryHold?_expired hh (State.ownLapsed_iff.2 hl)))
    all_goals
      have hl : ¬s.popped.ownLapsed o v = true := fun hlapsed => hl (State.ownLapsed_iff.1 hlapsed)
    · exact request_replies h (State.bindDelivery_laneBusy (s := s.popped) hm hn ho hr hp hv (State.deliveryHold?_none hh hl) hlane)
    · refine State.request_answered h ?_
      rw [State.bindDelivery_binds (s := s.popped) hm hn ho hr hp hv (State.deliveryHold?_none hh hl) hlane, State.bindOrder,
        State.order?_number ho]
      rfl

end Sys2Proof.Machine
end

section
/-! PLACE ORDER's checks, and the new order in the order table (O49). -/

namespace Sys2Proof.Machine

/-! ### The checks (R132) -/

/-- The fields that are out of range. -/
theorem orderInRange_false_iff {f : OrderFields} : (!orderInRange f) = true ↔
    15 < f.key.edition.code.toNat ∨ f.key.page.toNat < 1 ∨ 128 < f.key.page.toNat ∨ 7 < f.key.version.toNat ∨
      4 < f.useClass.toNat ∨ 3 < f.sizeClass.toNat ∨ f.copies.toNat < 1 ∨ 50 < f.copies.toNat ∨
      f.sizeClass = 3 ∧ f.photo = 0 := by
  simp only [orderInRange, pageKeyInRange, Bool.not_eq_true', Bool.and_eq_false_iff, decide_eq_false_iff_not,
    Bool.or_eq_false_iff, bne_eq_false_iff_eq, not_and_or, Nat.not_le, or_assoc]

namespace State

/-- The check of PLACE ORDER that fails first. -/
def orderRefusal (s : State) (f : OrderFields) : Option Code :=
  if s.req.mode ≠ .service then some .notInService
  else if s.cal.state = .invalid then some .calendarUnset
  else if 15 < f.key.edition.code.toNat ∨ f.key.page.toNat < 1 ∨ 128 < f.key.page.toNat ∨ 7 < f.key.version.toNat ∨
      4 < f.useClass.toNat ∨ 3 < f.sizeClass.toNat ∨ f.copies.toNat < 1 ∨ 50 < f.copies.toNat ∨
      f.sizeClass = 3 ∧ f.photo = 0 then
    some .outOfRange
  else if s.fee.account? f.account.toNat = none then some .notFound
  else if 32 ≤ s.ord.live.length then some .tableFull
  else if 4294967295 < s.ord.next then some .orderNumbersExhausted
  else none

/-- The checks stand in this order, and a request that passes them is placed. -/
theorem tryOrder_eq (s : State) (tag : U8) (f : OrderFields) : s.tryOrder tag f =
    match s.orderRefusal f with
    | some code => s.refuse 0x78 tag code
    | none => s.placeOrder tag f := by
  have hmode : (!s.inService) = true ↔ s.req.mode ≠ .service := by simp [inService]
  simp only [tryOrder, orderRefusal, hmode, orderInRange_false_iff, beq_iff_eq, Option.isNone_iff_eq_none, Config.orders,
    OrderTable.exhausted, decide_eq_true_eq]
  split_ifs <;> rfl

theorem mode_of_orderRefusal {s : State} {f : OrderFields} (h : s.orderRefusal f = none) : s.req.mode = .service := by
  by_contra hm
  simp [orderRefusal, hm] at h

/-! ### The new order (R131, R133) -/

/-- The order stands behind the live ones, and its number is used. -/
abbrev joined (u : State) (o : Order) : State :=
  { u with ord := { u.ord with live := u.ord.live ++ [o], next := o.number + 1 } }

/-- The account counts one more live order. -/
abbrev counted (s : State) (account : Nat) : State := s.withAccount account fun a => { a with live := a.live + 1 }

theorem acceptOrder_eq (s : State) (o : Order) : s.acceptOrder o = (s.counted o.account).joined o := rfl

theorem account?_counted {s : State} {n : Nat} {a : Account} (ha : s.fee.account? n = some a) :
    (s.counted n).fee.account? n = some { a with live := a.live + 1 } := by
  have hnum : a.number = n := by simpa using List.find?_some ha
  have hcomp : ((fun x : Account => x.number == n) ∘
      fun x : Account => if x.number == n then { x with live := x.live + 1 } else x) = fun x => x.number == n := by
    funext x
    simp only [Function.comp]
    split <;> simp_all
  simp only [FeeUnit.account?, withAccount_accounts, List.find?_map, hcomp]
  rw [show s.fee.accounts.find? (fun x => x.number == n) = some a from ha]
  simp [hnum]

section Joined

variable {u : State} {o : Order} (hnew : ∀ x ∈ u.ord.live, x.number ≠ o.number)
include hnew

theorem order?_joined : (u.joined o).order? o.number = some o := by
  have hnone : u.ord.live.find? (fun x => x.number == o.number) = none := List.find?_eq_none.2 (by simpa using hnew)
  simp [order?, List.find?_append, hnone]

theorem withOrder_joined {f : Order → Order} (hf : (f o).number = o.number) :
    (u.joined o).withOrder o.number f = u.joined (f o) := by
  have hmap : u.ord.live.map (fun x => if x.number == o.number then f x else x) = u.ord.live :=
    (List.map_congr_left fun x hx => if_neg (by simpa using hnew x hx)).trans (List.map_id' _)
  simp only [withOrder, joined, List.map_append, List.map_cons, List.map_nil, beq_self_eq_true, if_true, hmap, hf]

theorem live_left : (u.joined o).ord.live.filter (fun x => x.number != o.number) = u.ord.live := by
  rw [List.filter_append, List.filter_eq_self.2 (by simpa using hnew)]
  simp

end Joined

/-- Every live order has a number that was given before. -/
theorem number_ne_next {s : State} (h : s.ord.Sound) : ∀ x ∈ s.ord.live, x.number ≠ s.ord.next := by
  obtain ⟨-, -, hbelow, -⟩ := h
  exact fun x hx => Nat.ne_of_lt (hbelow x hx)

/-! ### The reply (R133) -/

theorem placedOrder_live {x : State} {n : Nat} {o : Order} (h : x.order? n = some o) : x.placedOrder n = (.ok, o.state) := by
  simp only [placedOrder, h]

theorem placedOrder_ended {x : State} {n : Nat} {l : List Order} {o : Order} (h : x.order? n = none)
    (hf : x.ord.finished = l ++ [o]) (hl : ∀ y ∈ l, y.number ≠ n) (ho : o.number = n) :
    x.placedOrder n = (o.outcome, o.state) := by
  have hnone : l.find? (fun y => y.number == n) = none := List.find?_eq_none.2 (by simpa using hl)
  simp [placedOrder, h, hf, List.find?_append, hnone, ho]

theorem close_next (s : State) : s.close.ord.next = s.ord.next := by unfold close send endWait; split <;> rfl

section Place

variable {s : State} {tag : U8} {f : OrderFields} (h : s.Ready (.placeOrder tag f))
include h

theorem exec_placeOrder_refused {code : Code} (hr : s.orderRefusal f = some code) :
    exec (.placeOrder tag f) s = .next (s.replied 0x78 tag code []) :=
  request_replies h ((tryOrder_eq s.popped tag f).trans (by rw [show s.popped.orderRefusal f = some code from hr]; rfl))

variable (hr : s.orderRefusal f = none)
include hr

omit h in
theorem tryOrder_places : s.popped.tryOrder tag f = s.popped.placeOrder tag f :=
  (tryOrder_eq s.popped tag f).trans (by rw [show s.popped.orderRefusal f = none from hr])

/-- What the order's way through the change leaves is answered with the order's outcome and state. -/
theorem exec_placeOrder {x : State} {code : Code} {st : OrdState}
    (hx : ((s.popped.acceptOrder (newOrder f s.ord.next)).locate (newOrder f s.ord.next)).settled = x.popped)
    (hp : x.placedOrder s.ord.next = (code, st)) :
    exec (.placeOrder tag f) s = .next (x.answered 0x78 tag code (u32 s.ord.next ++ u8 st.toNat)) := by
  refine request_answered h ?_
  have hp : x.popped.placedOrder s.ord.next = (code, st) := hp
  rw [tryOrder_places hr, placeOrder, show s.popped.ord.next = s.ord.next from rfl, hx]
  show x.popped.answer 0x78 tag (x.popped.placedOrder s.ord.next).1
    (u32 s.ord.next ++ u8 (x.popped.placedOrder s.ord.next).2.toNat) = _
  rw [hp]

/-- Every order that is placed has the next number, and is answered with its outcome and state. -/
theorem exec_placeOrder_numbers : ∃ t, exec (.placeOrder tag f) s = .next t ∧ t.ord.next = s.ord.next + 1 ∧
    ∃ code st, FirstSent s t (s.replyFrame 0x78 tag code (u32 s.ord.next ++ [st])) := by
  obtain ⟨-, h8, hw⟩ := takes_port h.1.2.2
  let y : State := ((s.popped.acceptOrder (newOrder f s.ord.next)).locate (newOrder f s.ord.next)).settled
  have hkept : Kept (s.popped.acceptOrder (newOrder f s.ord.next)) y :=
    Moves.kept ((moves_locate _ _).trans (moves_settled _))
  let z : State := y.answer 0x78 tag (y.placedOrder s.ord.next).1 (u32 s.ord.next ++ u8 (y.placedOrder s.ord.next).2.toNat)
  have hexec : exec (.placeOrder tag f) s = .next z.endChange := by
    refine (request_taken h.1.2.2 h.2).trans ?_
    rw [take_of_awake h.1.2.1]
    exact congrArg (fun t => Host.Outcome.next (endChange t)) (tryOrder_places hr)
  have hmode : z.settled.req.mode = .service :=
    z.kept_settled.mode.trans (hkept.mode.trans (mode_of_orderRefusal (s := s) hr))
  refine ⟨_, hexec, ?_, (y.placedOrder s.ord.next).1, BitVec.ofNat 8 (y.placedOrder s.ord.next).2.toNat, ?_⟩
  · rw [endChange_of_settled rfl hmode, close_next, z.kept_settled.next]
    exact hkept.next
  · have hport : z.port = s.popped.port := hkept.port
    refine firstSent_endChange hw h8 (congrArg MessagePort.outbound hport :) (congrArg MessagePort.waiting hport :) ?_
    refine congrArg some ?_
    show y.replyFrame _ _ _ _ = _
    rw [replyFrame, replyFrame, frame, frame, hkept.port]
    rfl

end Place

end State

end Sys2Proof.Machine
end

section
/-! An order that ends in the change that placed it, nothing but its own record naming it (O49). -/

namespace Sys2Proof.Machine

namespace State

/-! ### Releases of a number that no block names (R62, R67, R97, R98) -/

theorem removeClaim_unclaimed {s : State} {x : Holder} (h : ∀ c ∈ s.pool.claims, c.owner ≠ x) : s.removeClaim x = s := by
  have hfilter : s.pool.claims.filter (fun c => c.owner != x) = s.pool.claims := List.filter_eq_self.2 (by simpa using h)
  simp only [removeClaim, hfilter]
  split
  · next c _ hc => exact if_neg (by simpa using h c (by simp [hc]))
  · rfl

theorem leaveRecallWait_unasked {s : State} {r : Requester} (h : ∀ w ∈ s.vol.recallWait, w.requester ≠ r) :
    s.leaveRecallWait r = s := by
  have hfilter : s.vol.recallWait.filter (fun w => w.requester != r) = s.vol.recallWait :=
    List.filter_eq_self.2 (by simpa using h)
  simp only [leaveRecallWait, hfilter]
  split
  · next w _ hw => exact if_neg (by simpa using h w (by simp [hw]))
  · rfl

/-- The releases of a number that no block names change nothing (R131). -/
theorem releases_fresh {s : State} {n : Nat} (h : s.Fresh n) :
    ((s.releaseRecall (.order n)).removeClaim (.order n)).release (.order n) = s := by
  obtain ⟨hheld, hclaims, hwait, hslots, -, -⟩ := h
  rw [releaseRecall, leaveRecallWait_unasked hwait, releaseSlot_none hslots, removeClaim_unclaimed hclaims]
  exact if_pos hheld

/-! ### The order leaves again (R131, R138) -/

/-- The order o has ended with the outcome: the live orders, the job table and the open consequences are those of u, and the
catalogue is the one given. -/
structure OrderGone (u t : State) (o : Order) (code : Code) (cat : Catalogue) : Prop where
  live : t.ord.live = u.ord.live
  finished : t.ord.finished = u.ord.finished ++ [o.finishedCopy .ended code]
  cat : t.cat = cat
  jobs : t.eng.jobs = u.eng.jobs
  agenda : t.agenda = u.agenda
  port : t.port = u.port
  mode : t.req.mode = u.req.mode
  wait : t.req.wait = u.req.wait
  latched : t.req.latched.getLsbD Event.orderEnded.bit = true

section Gone

variable {u : State} {o : Order} (hnew : ∀ x ∈ u.ord.live, x.number ≠ o.number) (hfresh : u.Fresh o.number) (code : Code)
include hnew hfresh

/-- An order whose pins, given back, change the catalogue alone. -/
theorem orderGone_endOrder {cat : Catalogue} (hpins : (u.joined o).releasePins o = { u.joined o with cat := cat }) :
    OrderGone u ((u.joined o).endOrder o.number code) o code cat := by
  have horder : (u.joined o).order? o.number = some o := order?_joined hnew
  have hleft : ({ u.joined o with cat := cat } : State).Fresh o.number := hfresh
  have hends : (u.joined o).endOrder o.number code = ((u.joined o).leaveTable o.number .ended code).latch .orderEnded :=
    if_pos (by rw [horder]; rfl)
  have hjobs : (u.eng.jobs.map fun j => { j with joiners := j.joiners.filter fun n => n != o.number }) = u.eng.jobs := by
    obtain ⟨-, -, -, -, hjoin, -⟩ := hfresh
    refine (List.map_congr_left fun j hj => ?_).trans (List.map_id' _)
    rw [List.filter_eq_self.2 fun n hn => by simpa using fun he : n = o.number => hjoin j hj (he ▸ hn)]
  rw [hends, leaveTable, horder]
  dsimp only
  rw [hpins, releases_fresh hleft]
  exact ⟨live_left hnew, rfl, rfl, hjobs, rfl, rfl, rfl, rfl, latch_bit _ _⟩

end Gone

section Ended

variable {s : State} {tag : U8} {f : OrderFields} (h : s.Ready (.placeOrder tag f)) (hr : s.orderRefusal f = none)
  (hs : s.ord.Sound) (hfresh : s.Fresh s.ord.next)
include h hr hs hfresh

/-- An order that ends in its own change is answered with its outcome, and its copy is the newest of the finished list. -/
theorem exec_placeOrder_ends {t : State} {o : Order} {code : Code} {pinned cat : Catalogue}
    (hgone : OrderGone { s.popped.counted f.account.toNat with cat := pinned } t o code cat) (ho : o.number = s.ord.next)
    (ht : (s.popped.acceptOrder (newOrder f s.ord.next)).locate (newOrder f s.ord.next) = t) :
    ∃ t, exec (.placeOrder tag f) s = .next t ∧
      FirstSent s t (s.replyFrame 0x78 tag code (u32 s.ord.next ++ [15])) ∧ t.ord.live = s.ord.live ∧
      t.ord.finished.getLast?.map (fun o => (o.number, o.state, o.outcome)) = some (s.ord.next, .ended, code) ∧
      Raised s t .orderEnded ∧ t.cat = cat ∧ t.eng.jobs = s.eng.jobs := by
  obtain ⟨-, h8, hw⟩ := takes_port h.1.2.2
  obtain ⟨hlive, hfinished, hcat, hjobs, hagenda, hport, hmode, hwait, hlatched⟩ : OrderGone s.popped t o code cat :=
    ⟨hgone.live, hgone.finished, hgone.cat, hgone.jobs, hgone.agenda, hgone.port, hgone.mode, hgone.wait, hgone.latched⟩
  have hgone : t.order? s.ord.next = none := by
    rw [order?, hlive]
    exact List.find?_eq_none.2 fun x hx => by simpa using number_ne_next hs x hx
  have hplaced : t.placedOrder s.ord.next = (code, .ended) := placedOrder_ended hgone hfinished hfresh.2.2.2.2.2 ho
  let z : State := t.answer 0x78 tag code (u32 s.ord.next ++ [15])
  have hsettled : t.settled = t := settled_of_nil (hagenda.trans h.1.1.1)
  have hexec : exec (.placeOrder tag f) s = .next z.endChange := by
    refine (request_taken h.1.2.2 h.2).trans ?_
    rw [take_of_awake h.1.2.1]
    refine congrArg (fun t => Host.Outcome.next (endChange t)) ((tryOrder_places hr).trans ?_)
    rw [placeOrder, show s.popped.ord.next = s.ord.next from rfl, ht, hsettled]
    show t.answer 0x78 tag (t.placedOrder s.ord.next).1 (u32 s.ord.next ++ u8 (t.placedOrder s.ord.next).2.toNat) = _
    rw [hplaced]
    rfl
  have hclose : z.endChange = z.close := endChange_of_nil (hagenda.trans h.1.1.1)
    (entryDue_service (hmode.trans (mode_of_orderRefusal (s := s) hr)))
  refine ⟨z.endChange, hexec, ?_, ?_, ?_, raised_endChange hwait hlatched, ?_, ?_⟩
  · refine firstSent_endChange hw h8 (congrArg MessagePort.outbound hport :) (congrArg MessagePort.waiting hport :) ?_
    refine congrArg some ?_
    show t.replyFrame _ _ _ _ = _
    rw [replyFrame, replyFrame, frame, frame, hport]
    rfl
  · rw [hclose, close_live]; exact hlive
  · rw [hclose, getLast?_finished_close (s := z) hfinished, Option.map_some, ← ho]
    rfl
  · rw [hclose, close_cat]; exact hcat
  · rw [hclose, close_eng]; exact hjobs

end Ended

end State
end Sys2Proof.Machine
end

section
/-! A new order on its way to a resident page or photograph (O49). -/

namespace Sys2Proof.Machine

namespace Catalogue

/-- The edition pinned for an order, and a photo-only order's photograph too; what is ordered has k pins more (R11, R12, R134). -/
def pinnedFor (c : Catalogue) (slot : Nat) (photo : Option U32) (k : Nat) : Catalogue :=
  match photo with
  | none => c.withEdition slot fun e => { e with pins := e.pins + k }
  | some n => (c.withEdition slot fun e => { e with pins := e.pins + 1 }).withPhoto n fun p => { p with pins := p.pins + k }

end Catalogue

/-- The order on the page p of an edition slot, which it pins. -/
def Order.atPage (o : Order) (slot : Nat) (p : Page) : Order :=
  { o with resolved := some p.version, pinEdition := some slot, pinPhoto := o.photo }

/-- What an order on the page p of an edition slot is about: the page, or its photograph (R137). -/
def Order.targetOn (o : Order) (slot : Nat) (p : Page) : Target :=
  match o.photo with
  | none => .page slot o.page p.version
  | some n => .photo n

namespace State

/-! ### The page of the catalogue (R134) -/

/-- The order and its pins (R134). -/
theorem settleResident_joined {u : State} {q : Order} (hnew : ∀ x ∈ u.ord.live, x.number ≠ q.number) (slot : Nat) :
    (u.joined q).settleResident q.number slot = (joined { u with cat := u.cat.pinnedFor slot q.photo 1 }
      { q with pinEdition := some slot, pinPhoto := q.photo }).restoreStep q.number := by
  have hpinned : ((u.joined q).pinEdition slot).withOrder q.number
        (fun o => { o with pinEdition := some slot, pinPhoto := o.photo }) =
      joined { u with cat := u.cat.withEdition slot fun e => { e with pins := e.pins + 1 } }
        { q with pinEdition := some slot, pinPhoto := q.photo } :=
    withOrder_joined (u := { u with cat := u.cat.withEdition slot fun e => { e with pins := e.pins + 1 } })
      (f := fun o => { o with pinEdition := some slot, pinPhoto := o.photo }) hnew rfl
  simp only [settleResident, order?_joined hnew, Catalogue.pinnedFor, hpinned]
  cases q.photo <;> rfl

section Locate

variable {u : State} {o : Order} {slot : Nat} {e : Edition}

theorem locateResident_absent (hk : u.cat.slotOf o.key = none) :
    (u.joined o).locateResident o = (u.joined o).endOrder o.number .notResident := by simp only [locateResident, hk]

variable (hk : u.cat.slotOf o.key = some slot) (he : u.cat.edition? slot = some e)
include hk he

theorem locateResident_open (hst : e.state = .opened ∨ e.state = .closing) :
    (u.joined o).locateResident o = (u.joined o).endOrder o.number .editionOpen := by
  rcases hst with hst | hst <;> simp only [locateResident, hk, he, Option.map_some, hst]

/-- In a CLOSED or SEALING edition the order's page is looked for. -/
theorem locateResident_closed (hst : e.state = .closed ∨ e.state = .sealing) : (u.joined o).locateResident o =
    match u.cat.resolve slot o.page o.version with
    | .error c => (u.joined o).endOrder o.number c
    | .ok p =>
      if o.photo.any fun n => p.placements.all fun pl => pl.photo != n then (u.joined o).endOrder o.number .notFound
      else
        let s1 := (u.joined o).withOrder o.number fun o => { o with resolved := some p.version }
        if e.state == .sealing then
          { s1 with vol := { s1.vol with waiters := s1.vol.waiters ++ [o.number] } }.withOrder o.number fun o =>
            { o with state := .waitSeal }
        else s1.settleResident o.number slot := by
  rcases hst with hst | hst <;> simp only [locateResident, hk, he, Option.map_some, Option.any_some, hst] <;> rfl

variable (hst : e.state = .closed ∨ e.state = .sealing)
include hst

theorem locateResident_unresolved {c : Code} (hp : u.cat.resolve slot o.page o.version = .error c) :
    (u.joined o).locateResident o = (u.joined o).endOrder o.number c := by
  rw [locateResident_closed hk he hst, hp]

theorem locateResident_unplaced {p : Page} {n : U32} (hp : u.cat.resolve slot o.page o.version = .ok p) (hn : o.photo = some n)
    (hpl : ∀ pl ∈ p.placements, pl.photo ≠ n) :
    (u.joined o).locateResident o = (u.joined o).endOrder o.number .notFound := by
  rw [locateResident_closed hk he hst, hp]
  exact if_pos (by simpa [hn] using hpl)

omit hst
variable (hnew : ∀ x ∈ u.ord.live, x.number ≠ o.number) {p : Page} (hp : u.cat.resolve slot o.page o.version = .ok p)
  (hpl : ∀ n, o.photo = some n → ∃ pl ∈ p.placements, pl.photo = n)
include hnew hp hpl

theorem locateResident_sealing (hst : e.state = .sealing) : (u.joined o).locateResident o =
    joined { u with vol := { u.vol with waiters := u.vol.waiters ++ [o.number] } }
      { o with resolved := some p.version, state := .waitSeal } := by
  have hplaced : ¬(o.photo.any fun n => p.placements.all fun pl => pl.photo != n) = true := by
    simpa [Option.any_eq_true] using hpl
  rw [locateResident_closed hk he (.inr hst), hp]
  dsimp only
  rw [if_neg hplaced, if_pos (beq_iff_eq.2 hst), withOrder_joined hnew (by rfl)]
  exact withOrder_joined (u := { u with vol := { u.vol with waiters := u.vol.waiters ++ [o.number] } })
    (o := { o with resolved := some p.version }) (f := fun o => { o with state := .waitSeal }) hnew rfl

theorem locateResident_pins (hst : e.state = .closed) : (u.joined o).locateResident o =
    (joined { u with cat := u.cat.pinnedFor slot o.photo 1 } (o.atPage slot p)).restoreStep o.number := by
  have hplaced : ¬(o.photo.any fun n => p.placements.all fun pl => pl.photo != n) = true := by
    simpa [Option.any_eq_true] using hpl
  rw [locateResident_closed hk he (.inl hst), hp]
  dsimp only
  rw [if_neg hplaced, if_neg (by simp [hst]), withOrder_joined hnew (by rfl)]
  exact settleResident_joined (q := { o with resolved := some p.version }) hnew slot

end Locate

/-! ### The restore-flag step (R137) -/

/-- The order n among those that wait for the job. -/
abbrev withJoiner (u : State) (job n : Nat) : State :=
  { u with eng := { u.eng with jobs := u.eng.jobs.map fun k =>
    if k.number = job then { k with joiners := k.joiners ++ [n] } else k } }

section Restore

variable {u : State} {q : Order} (hnew : ∀ x ∈ u.ord.live, x.number ≠ q.number) {v : View} {t : Target}
  (hv : u.orderView q = some v) (ht : u.orderTarget? q = some t)
include hnew hv ht

theorem restoreStep_prices (hl : q.restore = false ∨ v.level ≠ 0) :
    (u.joined q).restoreStep q.number = (u.joined q).priceOrder q.number false := by
  rw [restoreStep, order?_joined hnew]
  dsimp only
  rw [show (u.joined q).orderView q = some v from hv, show (u.joined q).orderTarget? q = some t from ht]
  refine if_pos ?_
  rcases hl with hl | hl
  · simp [hl]
  · simp [Nat.one_le_iff_ne_zero, hl]

variable (hrestore : q.restore = true) (hl : v.level = 0)
include hrestore hl

/-- A level-0 body is restored first. -/
theorem restoreStep_restores : (u.joined q).restoreStep q.number =
    match u.jobOn? t with
    | some j => (u.joined q).joinJob q.number j
    | none => (u.joined q).createOrderJob q.number t := by
  rw [restoreStep, order?_joined hnew]
  dsimp only
  rw [show (u.joined q).orderView q = some v from hv, show (u.joined q).orderTarget? q = some t from ht]
  exact if_neg (by simp [hrestore, hl])

theorem restoreStep_joins {j : Job} (hj : u.jobOn? t = some j) : (u.joined q).restoreStep q.number =
    (u.withJoiner j.number q.number).joined { q with state := .restoreWait, job := some j.number } := by
  rw [restoreStep_restores hnew hv ht hrestore hl, hj]
  dsimp only
  have hjobs : (u.joined q).withJob j.number (fun k => { k with joiners := k.joiners ++ [q.number] }) =
      (u.withJoiner j.number q.number).joined q := by
    simp only [withJob, beq_iff_eq]
  rw [joinJob, hjobs]
  exact withOrder_joined (u := u.withJoiner j.number q.number)
    (f := fun o => { o with state := .restoreWait, job := some j.number }) hnew rfl

theorem restoreStep_full (hj : u.jobOn? t = none) (hfull : 8 ≤ u.eng.jobs.length) :
    (u.joined q).restoreStep q.number = (u.joined q).endOrder q.number .tableFull := by
  rw [restoreStep_restores hnew hv ht hrestore hl, hj]
  exact if_pos hfull

theorem restoreStep_creates (hj : u.jobOn? t = none) (hroom : u.eng.jobs.length < 8) :
    (u.joined q).restoreStep q.number =
      (u.joined { q with state := .restoreWait, job := some u.eng.nextJob, bearer := true }).createJob t 5 995 16
        (some q.number) := by
  rw [restoreStep_restores hnew hv ht hrestore hl, hj]
  dsimp only
  rw [createOrderJob, if_neg (show ¬Config.jobs ≤ u.eng.jobs.length from Nat.not_le.2 hroom)]
  exact congrArg (fun x => createJob x t 5 995 16 (some q.number)) (withOrder_joined hnew (by rfl))

end Restore

end State
end Sys2Proof.Machine
end

section
/-! What a new order with its target is priced at, and the replies of the orders that stand (O49). -/

namespace Sys2Proof.Machine

/-- What a catalogue holds of the page or photograph that an order on the page p of an edition slot is about. -/
def Catalogue.viewOn (c : Catalogue) (o : Order) (slot : Nat) (p : Page) : Option View :=
  match o.photo with
  | none => (c.page? slot o.page p.version).map c.pageView
  | some n => (c.photo? n).map photoView

/-- Pins are no part of it. -/
theorem Catalogue.viewOn_pinnedFor (c : Catalogue) (o : Order) (slot k : Nat) (p : Page) :
    (c.pinnedFor slot o.photo k).viewOn o slot p = c.viewOn o slot p := by
  cases hphoto : o.photo with
  | none => simp only [viewOn, pinnedFor, hphoto]; rfl
  | some n =>
    simp only [viewOn, pinnedFor, hphoto]
    rw [photo?_withPhoto _ _ _ (by exact fun _ => rfl), Option.map_map]
    refine congrArg (fun g => Option.map g (c.photo? n)) (funext fun x => ?_)
    rw [Function.comp_apply]
    split <;> rfl

namespace State

/-! ### What an order on a resident page works on (R129, R137) -/

section Target

variable {u : State} {o : Order} {slot : Nat} {p : Page}

theorem jobView_targetOn {j : Job} (hj : j.target = o.targetOn slot p) : u.jobView j = u.cat.viewOn o slot p := by
  simp only [jobView, hj, Order.targetOn, Catalogue.viewOn]
  cases o.photo <;> rfl

variable (hvol : o.volume = 0)
include hvol

theorem orderTarget?_atPage : u.orderTarget? (o.atPage slot p) = some (o.targetOn slot p) := by
  rw [orderTarget?, if_pos (by exact hvol)]
  simp only [Order.atPage, Order.targetOn]
  cases o.photo <;> rfl

theorem orderView_atPage : u.orderView (o.atPage slot p) = u.cat.viewOn o slot p := by
  rw [orderView, if_pos (by exact hvol)]
  simp only [Order.atPage, Catalogue.viewOn]
  cases o.photo <;> rfl

end Target

/-! ### The price of a new order (R152 to R157) -/

/-- The order's account has paid, and the open statement has the order's entry. -/
def paidFor (u : State) (q : Order) (masked : Nat) (price : Price) : State :=
  let paid := u.withAccount q.account fun a => { a with balance := a.balance - price.total }
  { (if u.stmt.current.entries.length = 511 then paid.latch .statementFull else paid) with
    stmt := { u.stmt with current := { u.stmt.current with entries := u.stmt.current.entries ++
      [⟨q.number, q.account, u.cal.day, u.cal.hour, u.cal.minute, q.useClass, q.sizeClass, q.copies, masked, price.core,
        price.royalties, price.surcharge, price.total⟩] } } }

theorem paidFor_ord {u : State} {q : Order} {masked : Nat} {price : Price} : (u.paidFor q masked price).ord = u.ord := by
  rw [paidFor]
  by_cases hlast : u.stmt.current.entries.length = 511 <;> simp only [hlast, if_true, if_false] <;> rfl

theorem paidFor_withCat {u : State} {c : Catalogue} {q : Order} {masked : Nat} {price : Price} :
    paidFor { u with cat := c } q masked price = { u.paidFor q masked price with cat := c } := by
  simp only [paidFor]
  by_cases hlast : u.stmt.current.entries.length = 511 <;> simp only [hlast, if_true, if_false] <;> rfl

theorem joined_paidFor {u : State} {c : Catalogue} {q o : Order} {masked : Nat} {price : Price} :
    joined { u.paidFor q masked price with cat := c } o = { u.paidFor q masked price with
      cat := c, ord := { u.ord with live := u.ord.live ++ [o], next := o.number + 1 } } := by
  simp only [joined, paidFor_ord]

section Price

variable {u : State} {q : Order} (hnew : ∀ x ∈ u.ord.live, x.number ≠ q.number) {v : View} {a : Account}
include hnew

theorem holdForRights_joined : (u.joined q).holdForRights q.number =
    joined ({ u with hold := { u.hold with held := u.hold.held ++ [q.number] } }.latch .orderHeld)
      { q with state := .heldRights } :=
  congrArg (fun x => latch x .orderHeld) (withOrder_joined
    (u := { u with hold := { u.hold with held := u.hold.held ++ [q.number] } })
    (f := fun o => { o with state := .heldRights }) hnew rfl)

theorem priced_full (hfull : 512 ≤ u.stmt.current.entries.length) : (u.joined q).priced q v a =
    joined ({ u with stmt := { u.stmt with held := u.stmt.held ++ [q.number] } }.latch .orderHeld)
      { q with state := .heldStatement } := by
  rw [priced, if_pos (by exact hfull)]
  exact congrArg (fun x => latch x .orderHeld) (withOrder_joined
    (u := { u with stmt := { u.stmt with held := u.stmt.held ++ [q.number] } })
    (f := fun o => { o with state := .heldStatement }) hnew rfl)

variable (hroom : u.stmt.current.entries.length < 512)
include hroom

theorem priced_unfunded {n : Nat} (hn : a.number = n)
    (hfunds : a.queue ≠ [] ∨ a.balance + a.limit < (u.priceOf q v a).total) : (u.joined q).priced q v a =
    joined ((u.withAccount n fun a => { a with queue := a.queue ++ [q.number] }).latch .orderHeld)
      { q with state := .heldFunds } := by
  subst hn
  rw [priced, if_neg (by exact Nat.not_le.2 hroom), if_pos (by exact hfunds)]
  exact congrArg (fun x => latch x .orderHeld) (withOrder_joined
    (u := u.withAccount a.number fun a => { a with queue := a.queue ++ [q.number] })
    (f := fun o => { o with state := .heldFunds }) hnew rfl)

theorem priced_charged (hqueue : a.queue = []) (hfits : ((u.priceOf q v a).total : Int) ≤ a.balance + a.limit) :
    (u.joined q).priced q v a = joined (u.paidFor q (u.maskOf v).length (u.priceOf q v a))
      { q with state := .charged, masked := (u.maskOf v).length, charged := (u.priceOf q v a).total } := by
  have hshort : ¬(a.queue ≠ [] ∨ a.balance + a.limit < (u.priceOf q v a).total) := by
    simp only [hqueue, ne_eq, not_true_eq_false, false_or, not_lt]
    exact hfits
  let charge (o : Order) : Order :=
    { o with state := .charged, masked := (u.maskOf v).length, charged := (u.priceOf q v a).total }
  have hpaid : ((u.joined q).withAccount q.account fun x => { x with balance := x.balance - (u.priceOf q v a).total }).withOrder
        q.number charge =
      joined (u.withAccount q.account fun x => { x with balance := x.balance - (u.priceOf q v a).total }) (charge q) :=
    withOrder_joined (u := u.withAccount q.account fun x => { x with balance := x.balance - (u.priceOf q v a).total })
      (f := charge) hnew rfl
  rw [priced, if_neg (by exact Nat.not_le.2 hroom), if_neg (by exact hshort), sold,
    show (u.joined q).priceOf q v a = u.priceOf q v a from rfl, show (u.joined q).maskOf v = u.maskOf v from rfl]
  dsimp only
  rw [hpaid, paidFor]
  by_cases hlast : u.stmt.current.entries.length = 511 <;> simp only [hlast, if_true, if_false] <;> rfl

end Price

/-! ### The reply of an order that stands (R133) -/

/-- The new order stands behind the live ones, and has gone as far as it can without the open consequences. -/
abbrev located (s : State) (f : OrderFields) : State :=
  ((s.popped.counted f.account.toNat).joined (newOrder f s.ord.next)).locate (newOrder f s.ord.next)

section Stands

variable {s : State} {tag : U8} {f : OrderFields} (h : s.Ready (.placeOrder tag f)) (hr : s.orderRefusal f = none)
include h hr

/-- An order that stands behind the live ones, no consequence being open, is answered with its state. -/
theorem exec_placeOrder_stands {y : State} {q : Order} (hy : y.agenda = []) (hnew : ∀ x ∈ y.ord.live, x.number ≠ s.ord.next)
    (hq : q.number = s.ord.next) (ht : s.located f = (y.joined q).popped) :
    exec (.placeOrder tag f) s = .next ((y.joined q).answered 0x78 tag .ok (u32 s.ord.next ++ u8 q.state.toNat)) := by
  refine exec_placeOrder h hr ?_ (placedOrder_live (hq ▸ order?_joined (hq ▸ hnew)))
  refine (congrArg settled ht).trans (settled_of_nil hy)

/-- An order that is priced is answered with the state that its price gives it. -/
theorem exec_placeOrder_priced {y : State} {q : Order} {v : View} {a : Account}
    (hnew : ∀ x ∈ y.ord.live, x.number ≠ s.ord.next)
    (hq : q.number = s.ord.next) (ht : (s.located f).settled = ((y.joined q).priced q v a).popped) :
    ∃ o, ((y.joined q).priced q v a).order? s.ord.next = some o ∧ exec (.placeOrder tag f) s =
      .next (((y.joined q).priced q v a).answered 0x78 tag .ok (u32 s.ord.next ++ u8 o.state.toNat)) := by
  have hjoined : (y.joined q).order? s.ord.next = some q := hq ▸ order?_joined (hq ▸ hnew)
  obtain ⟨o, ho, -⟩ := (orderPriced_priced (v := v) (a := a) hjoined).order
  exact ⟨o, ho, exec_placeOrder h hr ht (placedOrder_live ho)⟩

end Stands

end State
end Sys2Proof.Machine
end

section
/-! An order that ends once it has pinned its edition gives its pins back (O49). -/

namespace Sys2Proof.Machine

namespace Catalogue

theorem withEdition_same (c : Catalogue) (slot : Nat) {f : Edition → Edition} (hf : ∀ e, f e = e) :
    c.withEdition slot f = c := by
  obtain rfl : f = id := funext hf
  have hsame : c.editions.modify slot (Option.map id) = c.editions := by
    rw [Option.map_id]
    exact List.modify_id ..
  rw [withEdition, hsame]

theorem withPhoto_same (c : Catalogue) (n : U32) {f : Photo → Photo} (hf : ∀ p, f p = p) : c.withPhoto n f = c := by
  have hsame : c.photos.map (fun p => if p.number == n then f p else p) = c.photos :=
    (List.map_congr_left fun p _ => by rw [hf, ite_self]).trans (List.map_id' _)
  rw [withPhoto, hsame]

/-- A pin given back (R11). -/
theorem withEdition_pins (c : Catalogue) (slot : Nat) :
    ((c.withEdition slot fun e => { e with pins := e.pins + 1 }).withEdition slot fun e => { e with pins := e.pins - 1 }) = c :=
  (withEdition_withEdition ..).trans (withEdition_same c slot fun _ => rfl)

/-- A photograph's pin given back (R12). -/
theorem withPhoto_pins (c : Catalogue) (n : U32) : (c.withPhoto n fun p => { p with pins := p.pins + 1 }).withPhoto n
    (fun p => { p with pins := p.pins - 1 }) = c :=
  (withPhoto_withPhoto c n (f := fun p => { p with pins := p.pins + 1 }) fun _ => rfl).trans (withPhoto_same c n fun _ => rfl)

theorem edition?_pinnedFor {c : Catalogue} {slot : Nat} {e : Edition} (he : c.edition? slot = some e) (photo : Option U32) :
    (c.pinnedFor slot photo 1).edition? slot = some { e with pins := e.pins + 1 } := by
  have hpinned : (c.withEdition slot fun e => { e with pins := e.pins + 1 }).edition? slot =
      some { e with pins := e.pins + 1 } := by
    rw [edition?_withEdition, if_pos rfl, he, Option.map_some]
  cases photo <;> exact hpinned

end Catalogue

namespace State

section Unpinned

variable {u : State} {o : Order} {slot : Nat} {e : Edition} {p : Page} (he : u.cat.edition? slot = some e)
  (hdue : e.due = true → 0 < e.pins)
include he hdue

/-- The pins of an edition that seals no earlier than its last pin goes. -/
theorem releasePins_pinnedFor {x : State} (hx : x.cat = u.cat.pinnedFor slot o.photo 1) :
    x.releasePins (o.atPage slot p) = { x with cat := u.cat } := by
  have hkept : ¬(({ e with pins := e.pins + 1 } : Edition).pins ≤ 1 && e.due) = true := by
    intro hc
    obtain ⟨hone, hd⟩ := Bool.and_eq_true_iff.1 hc
    have : e.pins + 1 ≤ 1 := of_decide_eq_true hone
    have := hdue hd
    omega
  have hunpin : x.unpinEdition slot = { x with cat := x.cat.withEdition slot fun e => { e with pins := e.pins - 1 } } := by
    rw [unpinEdition, hx, Catalogue.edition?_pinnedFor he]
    dsimp only
    rw [if_neg hkept, withCat, hx]
  simp only [releasePins, Order.atPage, hunpin]
  cases hphoto : o.photo with
  | none =>
    simp only [hx, hphoto, Catalogue.pinnedFor, Catalogue.withEdition_pins]
  | some n =>
    simp only [hx, hphoto, Catalogue.pinnedFor]
    have hcat : (((u.cat.withEdition slot fun e => { e with pins := e.pins + 1 }).withPhoto n fun p =>
        { p with pins := p.pins + 1 }).withEdition slot fun e => { e with pins := e.pins - 1 }) =
        u.cat.withPhoto n fun p => { p with pins := p.pins + 1 } :=
      congrArg (fun c : Catalogue => c.withPhoto n fun p => { p with pins := p.pins + 1 }) (u.cat.withEdition_pins slot)
    rw [hcat]
    exact congrArg (fun c => ({ x with cat := c } : State)) (u.cat.withPhoto_pins n)

/-- An order that has pinned its edition and ends leaves the catalogue as it was. -/
theorem orderGone_pinned (hnew : ∀ x ∈ u.ord.live, x.number ≠ o.number) (hfresh : u.Fresh o.number) (code : Code) :
    OrderGone { u with cat := u.cat.pinnedFor slot o.photo 1 }
      ((joined { u with cat := u.cat.pinnedFor slot o.photo 1 } (o.atPage slot p)).endOrder o.number code)
      (o.atPage slot p) code u.cat :=
  orderGone_endOrder (u := { u with cat := u.cat.pinnedFor slot o.photo 1 }) (o := o.atPage slot p) hnew hfresh code
    (releasePins_pinnedFor he hdue rfl)

end Unpinned

end State
end Sys2Proof.Machine
end

section
/-! An order that creates its job, and the engine's start in the same change (O49). -/

namespace Sys2Proof.Machine

namespace State

/-! ### A job at the tail of the queue (R104, R106) -/

/-- A ready job in the queue waits for the active one, or is started: its body is read or its claim waits. The order table and the
open consequences stay as they are. -/
theorem jobCreated_of_startJob {u : State} {j : Job} {v : View} {next : Nat} {ends : State → Prop}
    (hadv : u.eng.Advances j.number next) (hnew : ∀ k ∈ u.eng.jobs, k.number ≠ j.number) (hq : j.state = .queued)
    (hready : j.isReady = true) (hv : (u.queuedAs j next).jobView j = some v)
    (hends : ∀ x : State, x.agenda = u.agenda → x.ord = u.ord → (u.popped.queuedAs j next).startJob = x.popped → ends x) :
    JobCreated u j v ends ends := by
  refine ⟨next, hadv, fun hbusy => ?_, fun hidle => ⟨fun i hclaims hfits hl => ?_, fun hwait => ?_⟩⟩
  · obtain ⟨k, hk, hactive⟩ := hbusy
    exact hends _ rfl rfl (startJob_busy ⟨k, List.mem_append_left _ hk, hactive⟩)
  · exact hends _ rfl rfl (startJob_fits (u := u.popped) hidle hq hready hnew hv hclaims hfits hl)
  · exact hends _ rfl rfl (startJob_waits (u := u.popped) hidle hq hready hnew hv hwait)

/-! ### The order's job (R105, R137) -/

/-- The job that an order creates, and which it will pay for. -/
def orderJob (u : State) (o : Order) (e : Edition) (t : Target) : Job :=
  ⟨u.eng.nextJob, .queued, t, none, 5, 995, 16, some o.number, [], 0, 0, none, .pending,
    if o.photo.isSome then noKey else e.key⟩

section Creates

variable {u : State} {o : Order} {slot : Nat} {e : Edition} {p : Page}

theorem createJob_joined (he : u.cat.edition? slot = some e) (q : Order) :
    (joined { u with cat := u.cat.pinnedFor slot o.photo 1 } q).createJob (o.targetOn slot p) 5 995 16 (some o.number) =
      push (queuedAs (joined { u with cat := u.cat.pinnedFor slot o.photo 2 } q) (u.orderJob o e (o.targetOn slot p))
        (u.nextAfter (u.orderJob o e (o.targetOn slot p)))) .startJob := by
  have hedition := Catalogue.edition?_pinnedFor he o.photo
  cases hphoto : o.photo with
  | none =>
    rw [hphoto] at hedition
    have hkey : (u.cat.pinnedFor slot none 1).editionOf (.page slot o.page p.version) = e.key := by
      rw [Catalogue.editionOf, hedition]; rfl
    have hcat : (u.cat.pinnedFor slot none 1).withEdition slot (fun e => { e with pins := e.pins + 1 }) =
        u.cat.pinnedFor slot none 2 :=
      Catalogue.withEdition_withEdition ..
    simp only [createJob, orderJob, Order.targetOn, hphoto, holdTarget, pinEdition, withCat, hkey, hcat]
    rfl
  | some n =>
    have hcat : (u.cat.pinnedFor slot (some n) 1).withPhoto n (fun p => { p with pins := p.pins + 1 }) =
        u.cat.pinnedFor slot (some n) 2 :=
      Catalogue.withPhoto_withPhoto (u.cat.withEdition slot _) n (f := fun p => { p with pins := p.pins + 1 }) fun _ => rfl
    simp only [createJob, orderJob, Order.targetOn, hphoto, holdTarget, pinPhoto, withCat, hcat]
    rfl

end Creates

end State
end Sys2Proof.Machine
end

section
/-! PLACE ORDER of a page or photograph of a CLOSED edition (O49). -/

namespace Sys2Proof.Machine

namespace State

/-- The account counts the new order, and the edition, and a photo-only order's photograph, have its pins. -/
abbrev pinned (s : State) (f : OrderFields) (slot k : Nat) : State :=
  { s.counted f.account.toNat with cat := s.cat.pinnedFor slot (newOrder f s.ord.next).photo k }

section Closed

variable {s : State} {tag : U8} {f : OrderFields} (h : s.Ready (.placeOrder tag f)) (hr : s.orderRefusal f = none)
  (hs : s.ord.Sound) (hvol : f.volume = 0) {slot : Nat} {e : Edition} {p : Page} (hk : s.cat.slotOf f.key.edition = some slot)
  (he : s.cat.edition? slot = some e) (hst : e.state = .closed)
  (hp : s.cat.resolve slot f.key.page.toNat f.key.version.toNat = .ok p)
  (hpl : ∀ n, (newOrder f s.ord.next).photo = some n → ∃ pl ∈ p.placements, pl.photo = n)
include hs hvol hk he hst hp hpl

/-- The order has pinned what it is about, and goes to its restore-flag step. -/
theorem locate_closed : s.located f =
    ((s.pinned f slot 1).popped.joined ((newOrder f s.ord.next).atPage slot p)).restoreStep s.ord.next := by
  rw [located, locate, if_pos (by exact hvol)]
  exact locateResident_pins (u := s.popped.counted f.account.toNat) (o := newOrder f s.ord.next) hk he (number_ne_next hs)
    hp hpl hst

variable {v : View} (hv : s.cat.viewOn (newOrder f s.ord.next) slot p = some v)
include hv

omit hs hk he hst hp hpl in
theorem orderView_pinned : (s.pinned f slot 1).popped.orderView ((newOrder f s.ord.next).atPage slot p) = some v :=
  (orderView_atPage hvol).trans ((Catalogue.viewOn_pinnedFor ..).trans hv)

section Unrestored

variable (hl : f.restore = 0 ∨ v.level ≠ 0)
include hl

theorem locate_prices : s.located f =
    ((s.pinned f slot 1).popped.joined ((newOrder f s.ord.next).atPage slot p)).priceOrder s.ord.next false := by
  rw [locate_closed hs hvol hk he hst hp hpl]
  refine restoreStep_prices (u := (s.pinned f slot 1).popped) (q := (newOrder f s.ord.next).atPage slot p) (number_ne_next hs)
    (orderView_pinned hvol hv) (orderTarget?_atPage hvol) ?_
  exact hl.imp_left fun hf => by simp [newOrder, Order.atPage, flagSet, hf]

variable {a : Account} (ha : s.fee.account? f.account.toNat = some a)
include ha

/-- The order of a page or photograph that a hold matches is held. -/
theorem locate_held (hm : s.orderMatches (newOrder f s.ord.next) = true) :
    s.located f =
      joined (latch { (s.pinned f slot 1).popped with hold := { s.hold with held := s.hold.held ++ [s.ord.next] } } .orderHeld)
        { (newOrder f s.ord.next).atPage slot p with state := .heldRights } := by
  rw [locate_prices hs hvol hk he hst hp hpl hv hl]
  refine (priceOrder_held (order?_joined (u := (s.pinned f slot 1).popped)
    (o := (newOrder f s.ord.next).atPage slot p) (number_ne_next hs))
    (orderView_pinned hvol hv) (account?_counted ha) (if_pos hm) false).trans ?_
  exact holdForRights_joined (u := (s.pinned f slot 1).popped) (q := (newOrder f s.ord.next).atPage slot p) (number_ne_next hs)

/-- The order of a photograph that has lapsed ends. -/
theorem locate_lapsed (hm : s.orderMatches (newOrder f s.ord.next) = false)
    (hlapsed : s.ownLapsed (newOrder f s.ord.next) v = true) :
    s.located f =
      ((s.pinned f slot 1).popped.joined ((newOrder f s.ord.next).atPage slot p)).endOrder s.ord.next .rightsExpired := by
  rw [locate_prices hs hvol hk he hst hp hpl hv hl]
  exact priceOrder_expired (order?_joined (u := (s.pinned f slot 1).popped)
    (o := (newOrder f s.ord.next).atPage slot p) (number_ne_next hs))
    (orderView_pinned hvol hv) (account?_counted ha) ((if_neg (ne_true_of_eq_false hm)).trans (if_pos hlapsed)) false

/-- Any other is priced. -/
theorem locate_priced (hm : s.orderMatches (newOrder f s.ord.next) = false)
    (hlapsed : s.ownLapsed (newOrder f s.ord.next) v = false) :
    s.located f =
      ((s.pinned f slot 1).popped.joined ((newOrder f s.ord.next).atPage slot p)).priced
        ((newOrder f s.ord.next).atPage slot p) v { a with live := a.live + 1 } := by
  rw [locate_prices hs hvol hk he hst hp hpl hv hl]
  exact priceOrder_passed (order?_joined (u := (s.pinned f slot 1).popped)
    (o := (newOrder f s.ord.next).atPage slot p) (number_ne_next hs))
    (orderView_pinned hvol hv) (account?_counted ha)
    ((if_neg (ne_true_of_eq_false hm)).trans (if_neg (ne_true_of_eq_false hlapsed)))

end Unrestored

section Restored

variable (hf : f.restore ≠ 0) (hl : v.level = 0)
include hf hl

omit hs hvol hk he hst hp hpl hv hl in
theorem restore_atPage : ((newOrder f s.ord.next).atPage slot p).restore = true := bne_iff_ne.2 hf

/-- The order joins the live job on what it is about. -/
theorem locate_joins {j : Job} (hj : s.jobOn? ((newOrder f s.ord.next).targetOn slot p) = some j) :
    s.located f =
      ((s.pinned f slot 1).withJoiner j.number s.ord.next).popped.joined
        { (newOrder f s.ord.next).atPage slot p with state := .restoreWait, job := some j.number } := by
  rw [locate_closed hs hvol hk he hst hp hpl]
  exact restoreStep_joins (u := (s.pinned f slot 1).popped) (q := (newOrder f s.ord.next).atPage slot p) (number_ne_next hs)
    (orderView_pinned hvol hv) (orderTarget?_atPage hvol) (restore_atPage hf) hl hj

variable (hj : s.jobOn? ((newOrder f s.ord.next).targetOn slot p) = none)
include hj

/-- With 8 jobs live the order ends. -/
theorem locate_full (hfull : 8 ≤ s.eng.jobs.length) :
    s.located f =
      ((s.pinned f slot 1).popped.joined ((newOrder f s.ord.next).atPage slot p)).endOrder s.ord.next .tableFull := by
  rw [locate_closed hs hvol hk he hst hp hpl]
  exact restoreStep_full (u := (s.pinned f slot 1).popped) (q := (newOrder f s.ord.next).atPage slot p) (number_ne_next hs)
    (orderView_pinned hvol hv) (orderTarget?_atPage hvol) (restore_atPage hf) hl hj hfull

/-- The order creates its job, and the engine tests for a start. -/
theorem locate_creates (hroom : s.eng.jobs.length < 8) :
    s.located f =
      push (queuedAs ((s.pinned f slot 2).popped.joined { (newOrder f s.ord.next).atPage slot p with
          state := .restoreWait, job := some s.eng.nextJob, bearer := true })
        (s.orderJob (newOrder f s.ord.next) e ((newOrder f s.ord.next).targetOn slot p))
        (s.nextAfter (s.orderJob (newOrder f s.ord.next) e ((newOrder f s.ord.next).targetOn slot p)))) .startJob := by
  rw [locate_closed hs hvol hk he hst hp hpl]
  refine (restoreStep_creates (u := (s.pinned f slot 1).popped) (q := (newOrder f s.ord.next).atPage slot p) (number_ne_next hs)
    (orderView_pinned hvol hv) (orderTarget?_atPage hvol) (restore_atPage hf) hl hj hroom).trans ?_
  exact createJob_joined (u := s.popped.counted f.account.toNat) (o := newOrder f s.ord.next) he _

include h hr

/-- The order's job joins the queue, and the reply says that the order waits for it. -/
theorem exec_placeOrder_creates (hroom : s.eng.jobs.length < 8) (heng : s.eng.Sound) :
    JobCreated ((s.pinned f slot 2).joined { (newOrder f s.ord.next).atPage slot p with
          state := .restoreWait, job := some s.eng.nextJob, bearer := true })
      (s.orderJob (newOrder f s.ord.next) e ((newOrder f s.ord.next).targetOn slot p)) v
      (fun u => exec (.placeOrder tag f) s = .next (u.answered 0x78 tag .ok (u32 s.ord.next ++ [3])))
      fun u => exec (.placeOrder tag f) s = .next (u.answered 0x78 tag .ok (u32 s.ord.next ++ [3])) := by
  refine jobCreated_of_startJob (advances_nextAfter heng hroom
    (j := s.orderJob (newOrder f s.ord.next) e ((newOrder f s.ord.next).targetOn slot p)) rfl) (number_ne_nextJob heng) rfl ?_
    ((jobView_targetOn rfl).trans ((Catalogue.viewOn_pinnedFor ..).trans hv)) fun x hagenda hord hstart => ?_
  · simp only [orderJob, Job.isReady, Order.targetOn]
    cases (newOrder f s.ord.next).photo <;> rfl
  · refine exec_placeOrder h hr (st := .restoreWait) ?_ ?_
    · have hnone : x.popped.agenda = [] := hagenda.trans h.1.1.1
      refine (congrArg settled (locate_creates hs hvol hk he hst hp hpl hv hf hl hj hroom)).trans ?_
      rw [settled_push (by exact h.1.1.1)]
      exact (congrArg (settle 65535) hstart).trans (settle_of_nil _ _ hnone)
    · refine placedOrder_live (o := { (newOrder f s.ord.next).atPage slot p with
        state := .restoreWait, job := some s.eng.nextJob, bearer := true }) ?_
      rw [order?, hord]
      exact order?_joined (u := s.pinned f slot 2) (o := { (newOrder f s.ord.next).atPage slot p with
        state := .restoreWait, job := some s.eng.nextJob, bearer := true }) (number_ne_next hs)

end Restored

end Closed

end State
end Sys2Proof.Machine
end

section
/-! PLACE ORDER of an entry of a volume (O49). -/

namespace Sys2Proof.Machine

namespace State

/-! ### The recall that a new order asks for (R93, R136) -/

/-- The order of a volume, its recall asked for. -/
def asking (f : OrderFields) (n : Nat) : Order := { newOrder f n with state := .recalling }

section Asked

variable {s : State} {tag : U8} {f : OrderFields} (h : s.Ready (.placeOrder tag f)) (hr : s.orderRefusal f = none)
  (hs : s.ord.Sound) (hvol : f.volume ≠ 0) {sought : EntryKey} (hkey : (newOrder f s.ord.next).recallKey = sought)
include hs hvol hkey

theorem locate_asks : s.located f =
    ((s.popped.counted f.account.toNat).joined (asking f s.ord.next)).requestRecall
      ⟨.order s.ord.next, f.volume, sought⟩ := by
  have hnew : ∀ x ∈ (s.popped.counted f.account.toNat).ord.live, x.number ≠ (newOrder f s.ord.next).number :=
    number_ne_next hs
  have hasked : ((s.popped.counted f.account.toNat).joined (newOrder f s.ord.next)).withOrder s.ord.next
      (fun o => { o with state := .recalling }) = (s.popped.counted f.account.toNat).joined (asking f s.ord.next) :=
    withOrder_joined (o := newOrder f s.ord.next) (f := fun o => { o with state := .recalling }) hnew rfl
  rw [located, locate, if_neg (by exact hvol), askRecall, order?_joined hnew]
  dsimp only
  rw [hkey]
  exact congrArg (fun x => requestRecall x ⟨.order s.ord.next, f.volume, sought⟩) hasked

include h hr

/-- A request for a recall that leaves the order waiting for it. -/
theorem exec_placeOrder_asks {y : State} (hy : y.agenda = []) (hnew : ∀ x ∈ y.ord.live, x.number ≠ s.ord.next)
    (ht : ((s.popped.counted f.account.toNat).joined (asking f s.ord.next)).requestRecall
      ⟨.order s.ord.next, f.volume, sought⟩ = (y.joined (asking f s.ord.next)).popped) :
    exec (.placeOrder tag f) s = .next ((y.joined (asking f s.ord.next)).answered 0x78 tag .ok (u32 s.ord.next ++ [2])) :=
  exec_placeOrder_stands h hr hy hnew rfl ((locate_asks hs hvol hkey).trans ht)

section Absent

variable (hh : s.vol.holding f.volume sought = none)
include hh

theorem exec_placeOrder_waits (hw : s.vol.recallWait ≠ []) : exec (.placeOrder tag f) s = .next (answered
    (joined { s.counted f.account.toNat with vol := { s.vol with
      recallWait := s.vol.recallWait ++ [⟨.order s.ord.next, f.volume, sought⟩] } } (asking f s.ord.next))
    0x78 tag .ok (u32 s.ord.next ++ [2])) := by
  refine exec_placeOrder_asks h hr hs hvol hkey (by exact h.1.1.1) (number_ne_next hs) ?_
  exact requestRecall_waits (s := (s.popped.counted f.account.toNat).joined (asking f s.ord.next)) hh (.inl hw)

variable (hw : s.vol.recallWait = []) {i k : Nat} (hl : s.link.Takes k)
include hw hl

theorem exec_placeOrder_fetches (hi : s.vol.table.findIdx? Option.isNone = some i) : exec (.placeOrder tag f) s = .next (answered
    (joined { s.counted f.account.toNat with
      vol := { s.vol with table := s.vol.table.set i (some ⟨f.volume, sought, [.order s.ord.next], none⟩) }
      link := s.link.occupy k (.readEntry i f.volume sought) } (asking f s.ord.next))
    0x78 tag .ok (u32 s.ord.next ++ [2])) := by
  refine exec_placeOrder_asks h hr hs hvol hkey (by exact h.1.1.1) (number_ne_next hs) ?_
  refine (requestRecall_fetches (s := (s.popped.counted f.account.toNat).joined (asking f s.ord.next))
    (w := ⟨.order s.ord.next, f.volume, sought⟩) hw hh hi).trans ?_
  exact fetch_takes (s := (s.popped.counted f.account.toNat).joined (asking f s.ord.next)) hl i

theorem exec_placeOrder_evicts {rest : List Nat} (hfull : s.vol.table.findIdx? Option.isNone = none)
    (hlru : s.vol.lru = i :: rest) : exec (.placeOrder tag f) s = .next (answered
    (joined { s.counted f.account.toNat with
      vol := { s.vol with
        table := s.vol.table.set i (some ⟨f.volume, sought, [.order s.ord.next], none⟩), lru := rest }
      link := s.link.occupy k (.readEntry i f.volume sought) } (asking f s.ord.next))
    0x78 tag .ok (u32 s.ord.next ++ [2])) := by
  refine exec_placeOrder_asks h hr hs hvol hkey (by exact h.1.1.1) (number_ne_next hs) ?_
  refine (requestRecall_evicts (s := (s.popped.counted f.account.toNat).joined (asking f s.ord.next))
    (w := ⟨.order s.ord.next, f.volume, sought⟩) hh hw hfull hlru).trans ?_
  exact fetch_takes (s := joined { s.popped.counted f.account.toNat with vol := { s.vol with lru := rest } }
    (asking f s.ord.next)) hl i

end Absent

/-! ### A slot that holds the entry (R93, R95, R136) -/

section Held

variable {i : Nat} {r : RecallSlot} (hh : s.vol.holding f.volume sought = some i) (hslot : s.vol.slot? i = some r)
include hh hslot

/-- The order joins those that wait for a FETCHING slot. -/
theorem exec_placeOrder_joins (hc : r.copy = none) : exec (.placeOrder tag f) s = .next (answered
    (joined { s.counted f.account.toNat with vol := pinnedSlot s.vol i r (.order s.ord.next) } (asking f s.ord.next))
    0x78 tag .ok (u32 s.ord.next ++ [2])) := by
  refine exec_placeOrder_asks h hr hs hvol hkey (by exact h.1.1.1) (number_ne_next hs) ?_
  exact requestRecall_joins (s := (s.popped.counted f.account.toNat).joined (asking f s.ord.next)) hh hslot hc

/-- The order of a RESIDENT slot is handed it, and is priced. -/
theorem exec_placeOrder_recalled {c : EntryCopy} (hc : r.copy = some c) (hf : f.restore = 0) {v : View} {a : Account}
    {masked : List Nat} (ha : s.fee.account? f.account.toNat = some a)
    (hv : orderView { s with vol := pinnedSlot s.vol i r (.order s.ord.next) } (handedSlot i r (asking f s.ord.next)) = some v)
    (hcheck : s.holdCheck (handedSlot i r (asking f s.ord.next)) v = .passed masked) :
    let u := joined { s.counted f.account.toNat with vol := pinnedSlot s.vol i r (.order s.ord.next) }
      (handedSlot i r (asking f s.ord.next))
    let done := u.priced (handedSlot i r (asking f s.ord.next)) v { a with live := a.live + 1 }
    ∃ o, done.order? s.ord.next = some o ∧
      exec (.placeOrder tag f) s = .next (done.answered 0x78 tag .ok (u32 s.ord.next ++ u8 o.state.toNat)) := by
  intro u done
  refine exec_placeOrder_priced (y := { s.counted f.account.toNat with vol := pinnedSlot s.vol i r (.order s.ord.next) }) h hr
    (number_ne_next hs) rfl ?_
  let asked : State := joined { s.popped.counted f.account.toNat with vol := pinnedSlot s.vol i r (.order s.ord.next) }
    (asking f s.ord.next)
  let pinned : RecallSlot := { r with pinners := r.pinners ++ [.order s.ord.next] }
  have hnew : ∀ x ∈ s.ord.live, x.number ≠ s.ord.next := number_ne_next hs
  have hlocate : s.located f =
      asked.push (.recallGiven (.order s.ord.next) i) := by
    rw [locate_asks hs hvol hkey, requestRecall_held (by exact hh)]
    exact (pinSlot_eq (s := (s.popped.counted f.account.toNat).joined (asking f s.ord.next)) hslot).trans (if_pos (by simp [hc]))
  have hhanded : asked.withOrder s.ord.next (handedSlot i pinned) = u.popped :=
    withOrder_joined (u := { s.popped.counted f.account.toNat with vol := pinnedSlot s.vol i r (.order s.ord.next) })
      (o := asking f s.ord.next) (f := handedSlot i pinned) hnew rfl
  have hgiven : asked.orderRecalled s.ord.next i = done.popped := by
    have hpinned : asked.vol.slot? i = some pinned := VolumeUnit.slot?_set hslot
    refine (orderRecalled_priced (s := asked) (n := s.ord.next) (o := asking f s.ord.next) (r := pinned) (v := v)
      (a := { a with live := a.live + 1 }) (masked := masked)
      (order?_joined (u := { s.popped.counted f.account.toNat with
        vol := pinnedSlot s.vol i r (.order s.ord.next) }) (o := asking f s.ord.next) hnew) rfl hvol ?_ hpinned ?_
      (account?_counted ha) ?_).trans ?_
    · simp [asking, newOrder, flagSet, hf]
    · rw [hhanded]; exact hv
    · rw [hhanded]; exact hcheck
    · rw [hhanded]; exact priced_popped
  rw [hlocate, settled_push (by exact h.1.1.1)]
  refine (congrArg (settle 65535) hgiven).trans (settle_of_nil _ _ ?_)
  exact priced_blocks.1.trans h.1.1.1

end Held

end Asked

end State
end Sys2Proof.Machine
end

section
/-! The replies of PLACE ORDER for an order of the resident catalogue (O49). -/

namespace Sys2Proof.Machine

/-! ### The fields of a new order (R129, R133) -/

section NewOrder

variable {f : OrderFields} {n : Nat}

theorem newOrder_photo (hc : f.sizeClass = 3) : (newOrder f n).photo = some f.photo := if_pos hc

theorem newOrder_pageOnly (hc : f.sizeClass ≠ 3) : (newOrder f n).photo = none := if_neg hc

theorem placed_newOrder {p : Page} (hpl : f.sizeClass = 3 → ∃ pl ∈ p.placements, pl.photo = f.photo) :
    ∀ x, (newOrder f n).photo = some x → ∃ pl ∈ p.placements, pl.photo = x := by
  intro x hx
  by_cases hc : f.sizeClass = 3
  · rw [newOrder_photo hc] at hx
    exact Option.some.inj hx ▸ hpl hc
  · rw [newOrder_pageOnly hc] at hx
    cases hx

theorem newOrder_recallKey : (newOrder f n).recallKey =
    if f.sizeClass = 3 then EntryKey.photo f.photo else .page f.key.edition f.key.page.toNat f.key.version.toNat := by
  by_cases hc : f.sizeClass = 3
  · rw [if_pos hc, Order.recallKey, newOrder_photo hc]
  · rw [if_neg hc, Order.recallKey, newOrder_pageOnly hc]
    rfl

theorem pinnedFor_newOrder (c : Catalogue) (slot k : Nat) : c.pinnedFor slot (newOrder f n).photo k =
    if f.sizeClass = 3 then (c.withEdition slot fun e => { e with pins := e.pins + 1 }).withPhoto f.photo fun q =>
        { q with pins := q.pins + k }
      else c.withEdition slot fun e => { e with pins := e.pins + k } := by
  by_cases hc : f.sizeClass = 3
  · rw [if_pos hc, newOrder_photo hc]; rfl
  · rw [if_neg hc, newOrder_pageOnly hc]; rfl

theorem atPage_photo (hc : f.sizeClass = 3) (slot : Nat) (p : Page) : (newOrder f n).atPage slot p =
    { newOrder f n with resolved := some p.version, pinEdition := some slot, pinPhoto := some f.photo } :=
  congrArg (fun x => ({ newOrder f n with resolved := some p.version, pinEdition := some slot, pinPhoto := x } : Order))
    (newOrder_photo hc)

theorem atPage_pageOnly (hc : f.sizeClass ≠ 3) (slot : Nat) (p : Page) : (newOrder f n).atPage slot p =
    { newOrder f n with resolved := some p.version, pinEdition := some slot } :=
  congrArg (fun x => ({ newOrder f n with resolved := some p.version, pinEdition := some slot, pinPhoto := x } : Order))
    (newOrder_pageOnly hc)

variable {s : State}

theorem orderMatches_photo (hc : f.sizeClass = 3) : s.orderMatches (newOrder f n) = true ↔
    s.hold.pageMatches f.key.edition f.key.page.toNat = true ∨ s.hold.photoMatches f.photo = true := by
  rw [State.orderMatches_iff, newOrder_photo hc]
  simp only [Option.some.injEq, exists_eq_left']
  rfl

theorem orderMatches_pageOnly (hc : f.sizeClass ≠ 3) :
    s.orderMatches (newOrder f n) = s.hold.pageMatches f.key.edition f.key.page.toNat := by
  rw [State.orderMatches, newOrder_pageOnly hc]
  exact Bool.or_false _

theorem ownLapsed_photo (hc : f.sizeClass = 3) {x : Photo} : s.ownLapsed (newOrder f n) (photoView x) = true ↔
    ∃ d, x.rights.untilDay = some d ∧ d < s.cal.day := by
  rw [State.ownLapsed_iff, newOrder_photo hc]
  simp [photoView]

theorem ownLapsed_pageOnly (hc : f.sizeClass ≠ 3) (v : View) : s.ownLapsed (newOrder f n) v = false := by
  rw [State.ownLapsed, newOrder_pageOnly hc]
  rfl

theorem handedSlot_asking (i : Nat) (r : RecallSlot) : State.handedSlot i r (State.asking f n) =
    { State.asking f n with recallSlot := some i, resolved := if f.sizeClass = 3 then none else slotVersion r } := by
  refine congrArg (fun x => ({ State.asking f n with recallSlot := some i, resolved := x } : Order)) ?_
  show (if (newOrder f n).photo.isSome then none else slotVersion r) = _
  by_cases hc : f.sizeClass = 3
  · rw [newOrder_photo hc, if_pos hc]; rfl
  · rw [newOrder_pageOnly hc, if_neg hc]; rfl

theorem orderJob_newOrder (e : Edition) (t : Target) : s.orderJob (newOrder f n) e t =
    ⟨s.eng.nextJob, .queued, t, none, 5, 995, 16, some n, [], 0, 0, none, .pending,
      if f.sizeClass = 3 then noKey else e.key⟩ := by
  by_cases hc : f.sizeClass = 3
  · rw [if_pos hc, State.orderJob, newOrder_photo hc]; rfl
  · rw [if_neg hc, State.orderJob, newOrder_pageOnly hc]; rfl

end NewOrder

namespace State

/-! ### The order ends before it has pinned anything (R134) -/

section Unpinned

variable {s : State} {tag : U8} {f : OrderFields} (h : s.Ready (.placeOrder tag f)) (hr : s.orderRefusal f = none)
  (hs : s.ord.Sound) (hfresh : s.Fresh s.ord.next) (hvol : f.volume = 0)
include h hr hs hfresh hvol

theorem exec_placeOrder_unlocated {code : Code}
    (ht : ((s.popped.counted f.account.toNat).joined (newOrder f s.ord.next)).locateResident (newOrder f s.ord.next) =
      ((s.popped.counted f.account.toNat).joined (newOrder f s.ord.next)).endOrder s.ord.next code) :
    ∃ t, exec (.placeOrder tag f) s = .next t ∧ FirstSent s t (s.replyFrame 0x78 tag code (u32 s.ord.next ++ [15])) ∧
      t.ord.live = s.ord.live ∧
      t.ord.finished.getLast?.map (fun o => (o.number, o.state, o.outcome)) = some (s.ord.next, .ended, code) ∧
      Raised s t .orderEnded := by
  have hgone : OrderGone (s.popped.counted f.account.toNat)
      (((s.popped.counted f.account.toNat).joined (newOrder f s.ord.next)).endOrder s.ord.next code)
      (newOrder f s.ord.next) code s.cat :=
    orderGone_endOrder (u := s.popped.counted f.account.toNat) (o := newOrder f s.ord.next) (number_ne_next hs) hfresh code rfl
  obtain ⟨t, hexec, hsent, hlive, hfinished, hraised, -⟩ :=
    exec_placeOrder_ends h hr hs hfresh (pinned := s.cat) hgone rfl ((if_pos hvol).trans ht)
  exact ⟨t, hexec, hsent, hlive, hfinished, hraised⟩

end Unpinned

/-! ### The order waits for its edition's seal (R135) -/

section Sealing

variable {s : State} {tag : U8} {f : OrderFields} (h : s.Ready (.placeOrder tag f)) (hr : s.orderRefusal f = none)
  (hs : s.ord.Sound) (hvol : f.volume = 0) {slot : Nat} {e : Edition} {p : Page} (hk : s.cat.slotOf f.key.edition = some slot)
  (he : s.cat.edition? slot = some e) (hp : s.cat.resolve slot f.key.page.toNat f.key.version.toNat = .ok p)
  (hpl : ∀ n, (newOrder f s.ord.next).photo = some n → ∃ pl ∈ p.placements, pl.photo = n)
include h hr hs hvol hk he hp hpl

theorem exec_placeOrder_sealing (hst : e.state = .sealing) : exec (.placeOrder tag f) s = .next (answered
    (joined { s.counted f.account.toNat with vol := { s.vol with waiters := s.vol.waiters ++ [s.ord.next] } }
      { newOrder f s.ord.next with resolved := some p.version, state := .waitSeal })
    0x78 tag .ok (u32 s.ord.next ++ [1])) := by
  refine exec_placeOrder_stands h hr (by exact h.1.1.1) (number_ne_next hs) rfl ((if_pos hvol).trans ?_)
  exact locateResident_sealing (u := s.popped.counted f.account.toNat) (o := newOrder f s.ord.next) hk he (number_ne_next hs)
    hp hpl hst

end Sealing

/-! ### The order has pinned its edition (R134, R137, R152) -/

section Closed

variable {s : State} {tag : U8} {f : OrderFields} (h : s.Ready (.placeOrder tag f)) (hr : s.orderRefusal f = none)
  (hs : s.ord.Sound) (hvol : f.volume = 0) {slot : Nat} {e : Edition} {p : Page} (hk : s.cat.slotOf f.key.edition = some slot)
  (he : s.cat.edition? slot = some e) (hst : e.state = .closed)
  (hp : s.cat.resolve slot f.key.page.toNat f.key.version.toNat = .ok p)
  (hpl : ∀ n, (newOrder f s.ord.next).photo = some n → ∃ pl ∈ p.placements, pl.photo = n)
  {v : View} (hv : s.cat.viewOn (newOrder f s.ord.next) slot p = some v)
include h hr hs hvol hk he hst hp hpl hv

omit hvol hk hst hp hpl hv in
/-- An order that ends leaves the catalogue and the job table as they were. -/
theorem exec_placeOrder_unpins (hfresh : s.Fresh s.ord.next) (hdue : e.due = true → 0 < e.pins) {code : Code}
    (ht : s.located f =
      ((s.pinned f slot 1).popped.joined ((newOrder f s.ord.next).atPage slot p)).endOrder s.ord.next code) :
    ∃ t, exec (.placeOrder tag f) s = .next t ∧ FirstSent s t (s.replyFrame 0x78 tag code (u32 s.ord.next ++ [15])) ∧
      t.ord.live = s.ord.live ∧
      t.ord.finished.getLast?.map (fun o => (o.number, o.state, o.outcome)) = some (s.ord.next, .ended, code) ∧
      t.eng.jobs = s.eng.jobs ∧ t.cat = s.cat := by
  have hgone := orderGone_pinned (u := s.popped.counted f.account.toNat) (o := newOrder f s.ord.next) (p := p) he hdue
    (number_ne_next hs) hfresh code
  obtain ⟨t, hexec, hsent, hlive, hfinished, -, hcat, hjobs⟩ := exec_placeOrder_ends h hr hs hfresh hgone rfl ht
  exact ⟨t, hexec, hsent, hlive, hfinished, hjobs, hcat⟩

/-! The records that the statements name: the catalogue with the order's pins, and the order on its page. -/

variable {c : Catalogue} (hc : s.cat.pinnedFor slot (newOrder f s.ord.next).photo 1 = c) {q : Order}
  (hq : (newOrder f s.ord.next).atPage slot p = q)
include hc hq

section Unrestored

variable (hl : f.restore = 0 ∨ v.level ≠ 0) {a : Account} (ha : s.fee.account? f.account.toNat = some a)
include hl ha

theorem exec_placeOrder_held (hm : s.orderMatches (newOrder f s.ord.next) = true) : exec (.placeOrder tag f) s = .next (answered
    (joined (latch { s.counted f.account.toNat with
      cat := c, hold := { s.hold with held := s.hold.held ++ [s.ord.next] } } .orderHeld) { q with state := .heldRights })
    0x78 tag .ok (u32 s.ord.next ++ [5])) := by
  subst hc hq
  exact exec_placeOrder_stands h hr (by exact h.1.1.1) (number_ne_next hs) rfl (locate_held hs hvol hk he hst hp hpl hv hl ha hm)

variable (hm : s.orderMatches (newOrder f s.ord.next) = false) (hlapsed : s.ownLapsed (newOrder f s.ord.next) v = false)
include hm hlapsed

omit hr in
theorem settled_locate_priced : (s.located f).settled = (priced (joined { s.counted f.account.toNat with cat := c } q) q v
      { a with live := a.live + 1 }).popped := by
  subst hc hq
  rw [locate_priced hs hvol hk he hst hp hpl hv hl ha hm hlapsed]
  refine (settled_of_nil (priced_blocks (s := (s.pinned f slot 1).popped.joined ((newOrder f s.ord.next).atPage slot p)).1.trans
    h.1.1.1)).trans ?_
  exact priced_popped (s := (s.pinned f slot 1).joined ((newOrder f s.ord.next).atPage slot p))

theorem exec_placeOrder_prices : ∃ o,
    (priced (joined { s.counted f.account.toNat with cat := c } q) q v { a with live := a.live + 1 }).order? s.ord.next =
      some o ∧
      exec (.placeOrder tag f) s = .next (answered
        (priced (joined { s.counted f.account.toNat with cat := c } q) q v { a with live := a.live + 1 })
        0x78 tag .ok (u32 s.ord.next ++ u8 o.state.toNat)) :=
  exec_placeOrder_priced h hr (number_ne_next hs) (hq ▸ rfl)
    (settled_locate_priced h hs hvol hk he hst hp hpl hv hc hq hl ha hm hlapsed)

/-- The order stands as its price has left it. -/
theorem exec_placeOrder_stands_priced {y : State} {o : Order}
    (hpriced : priced (joined { s.counted f.account.toNat with cat := c } q) q v { a with live := a.live + 1 } = y.joined o)
    (hlive : y.ord.live = s.ord.live) (ho : o.number = s.ord.next) : exec (.placeOrder tag f) s =
      .next ((y.joined o).answered 0x78 tag .ok (u32 s.ord.next ++ u8 o.state.toNat)) := by
  refine exec_placeOrder h hr ?_ (placedOrder_live (ho ▸ order?_joined (ho ▸ hlive ▸ number_ne_next hs)))
  exact (settled_locate_priced h hs hvol hk he hst hp hpl hv hc hq hl ha hm hlapsed).trans (congrArg popped hpriced)

theorem exec_placeOrder_full (hfull : 512 ≤ s.stmt.current.entries.length) : exec (.placeOrder tag f) s = .next (answered
    (joined (latch { s.counted f.account.toNat with
      cat := c, stmt := { s.stmt with held := s.stmt.held ++ [s.ord.next] } } .orderHeld) { q with state := .heldStatement })
    0x78 tag .ok (u32 s.ord.next ++ [6])) := by
  subst hc hq
  exact exec_placeOrder_stands_priced h hr hs hvol hk he hst hp hpl hv rfl rfl hl ha hm hlapsed
    (priced_full (u := s.pinned f slot 1) (q := (newOrder f s.ord.next).atPage slot p) (number_ne_next hs) hfull) rfl rfl

variable (hroom : s.stmt.current.entries.length < 512)
include hroom

theorem exec_placeOrder_unfunded (hfunds : a.queue ≠ [] ∨ a.balance + a.limit < (s.priceOf q v a).total) :
    exec (.placeOrder tag f) s = .next (answered
      (joined (latch (withAccount { s.counted f.account.toNat with cat := c } f.account.toNat fun a =>
        { a with queue := a.queue ++ [s.ord.next] }) .orderHeld) { q with state := .heldFunds })
      0x78 tag .ok (u32 s.ord.next ++ [7])) := by
  subst hc hq
  have hnumber : a.number = f.account.toNat := by simpa using List.find?_some ha
  exact exec_placeOrder_stands_priced h hr hs hvol hk he hst hp hpl hv rfl rfl hl ha hm hlapsed
    (priced_unfunded (u := s.pinned f slot 1) (q := (newOrder f s.ord.next).atPage slot p) (a := { a with live := a.live + 1 })
      (number_ne_next hs) hroom hnumber hfunds) rfl rfl

theorem exec_placeOrder_charged (hqueue : a.queue = []) (hfits : ((s.priceOf q v a).total : Int) ≤ a.balance + a.limit) :
    exec (.placeOrder tag f) s = .next (answered
      { (s.counted f.account.toNat).paidFor q (s.maskOf v).length (s.priceOf q v a) with
        cat := c
        ord := { s.ord with next := s.ord.next + 1, live := s.ord.live ++
          [{ q with state := .charged, masked := (s.maskOf v).length, charged := (s.priceOf q v a).total }] } }
      0x78 tag .ok (u32 s.ord.next ++ [8])) := by
  subst hc hq
  have hpriced := priced_charged (u := s.pinned f slot 1) (q := (newOrder f s.ord.next).atPage slot p) (v := v)
    (a := { a with live := a.live + 1 }) (number_ne_next hs) hroom hqueue hfits
  rw [paidFor_withCat] at hpriced
  have hcharged := exec_placeOrder_stands_priced h hr hs hvol hk he hst hp hpl hv rfl rfl hl ha hm hlapsed hpriced
    (congrArg OrderTable.live (paidFor_ord (masked := (s.maskOf v).length))) rfl
  rw [joined_paidFor] at hcharged
  exact hcharged

end Unrestored

section Restored

variable (hf : f.restore ≠ 0) (hl : v.level = 0)
include hf hl

theorem exec_placeOrder_joinsJob {j : Job} (hj : s.jobOn? ((newOrder f s.ord.next).targetOn slot p) = some j) :
    exec (.placeOrder tag f) s = .next (answered
      (joined (withJoiner { s.counted f.account.toNat with cat := c } j.number s.ord.next)
        { q with state := .restoreWait, job := some j.number })
      0x78 tag .ok (u32 s.ord.next ++ [3])) := by
  subst hc hq
  exact exec_placeOrder_stands h hr (by exact h.1.1.1) (number_ne_next hs) rfl (locate_joins hs hvol hk he hst hp hpl hv hf hl hj)

end Restored

end Closed

end State
end Sys2Proof.Machine
end

section
/-! Orders are placed and priced (O49). -/

namespace Sys2Proof.Machine

/-- Settles O49, by the order's way through its change: its checks, the page it names, the restore-flag step, and its price. -/
theorem ordersArePlacedAndPriced : Obligations.OrdersArePlacedAndPriced := by
  unfold Obligations.OrdersArePlacedAndPriced
  intro s tag f h hs run n key page account counted refusal
  refine ⟨fun code hr => State.exec_placeOrder_refused h hr, fun hr => ⟨State.exec_placeOrder_numbers h hr, ?unlocated,
    ?unresolved, ?sealing, ?photo, ?volume, ?restored, ?page⟩⟩
  case unlocated =>
    intro code hvol hfresh hcode
    refine State.exec_placeOrder_unlocated h hr hs hfresh hvol ?_
    rcases hcode with ⟨rfl, hk⟩ | ⟨rfl, slot, e, hk, he, hst⟩
    · exact State.locateResident_absent hk
    · exact State.locateResident_open hk he hst
  case unresolved =>
    intro slot e code hvol hfresh hk he hst hcode
    refine State.exec_placeOrder_unlocated h hr hs hfresh hvol ?_
    have hunresolved (hp : s.cat.resolve slot page f.key.version.toNat = .error code) :=
      State.locateResident_unresolved (u := s.popped.counted account) (o := newOrder f n) hk he hst hp
    have hversion (hv : f.key.version ≠ 0) : f.key.version.toNat ≠ 0 := fun hz => hv (BitVec.eq_of_toNat_eq hz)
    rcases hcode with ⟨rfl, hv, hp⟩ | ⟨rfl, hv, hp⟩ | ⟨p, rfl, hv, hp, hfiled⟩ | ⟨p, rfl, hc, hp, hpl⟩
    · exact hunresolved (Catalogue.resolve_uncurrent (congrArg BitVec.toNat hv) hp)
    · exact hunresolved (Catalogue.resolve_unknown (hversion hv) hp)
    · exact hunresolved (Catalogue.resolve_unfiled (hversion hv) hp hfiled)
    · exact State.locateResident_unplaced hk he hst hp (newOrder_photo hc) hpl
  case sealing =>
    intro slot e p hvol hk he hst hp hpl
    exact State.exec_placeOrder_sealing h hr hs hvol hk he hp (placed_newOrder hpl) hst
  case photo =>
    intro slot e p photo a hvol hc hf hk he hst hp hpl hx ha placed waiting held hasLapsed
    have hpl := placed_newOrder (n := n) fun _ => hpl
    have hphoto : (newOrder f n).photo = some f.photo := newOrder_photo hc
    have hview : s.cat.viewOn (newOrder f n) slot p = some (photoView photo) := by
      simp only [Catalogue.viewOn, hphoto, hx, Option.map_some]
    have hcat : s.cat.pinnedFor slot (newOrder f n).photo 1 = waiting.cat := by rw [hphoto]; rfl
    have hq : (newOrder f n).atPage slot p = placed := atPage_photo hc slot p
    have hmatch : s.orderMatches (newOrder f n) = true ↔ held := orderMatches_photo hc
    have hlapse : s.ownLapsed (newOrder f n) (photoView photo) = true ↔ hasLapsed := ownLapsed_photo hc
    have hunmatched (hm : ¬held) : s.orderMatches (newOrder f n) = false := Bool.eq_false_iff.2 fun hh => hm (hmatch.1 hh)
    refine ⟨fun hm => ?_, fun hm hl hfresh hdue => ?_, fun hm hl => ?_⟩
    · have hheld := State.exec_placeOrder_held h hr hs hvol hk he hst hp hpl hview hcat hq (.inl hf) ha (hmatch.2 hm)
      have hjoined := State.holdForRights_joined (u := { counted with cat := waiting.cat }) (q := placed)
        (State.number_ne_next hs)
      exact hheld.trans (congrArg (fun x => Host.Outcome.next (State.answered x 0x78 tag .ok (u32 n ++ [5]))) hjoined.symm)
    · have hlocate := State.locate_lapsed hs hvol hk he hst hp hpl hview (.inl hf) ha (hunmatched hm) (hlapse.2 hl)
      obtain ⟨t, hexec, hsent, hlive, hfinished, -, hcat⟩ := State.exec_placeOrder_unpins h hr hs he hfresh hdue hlocate
      exact ⟨t, hexec, hsent, hlive, hfinished, hcat⟩
    · exact State.exec_placeOrder_prices h hr hs hvol hk he hst hp hpl hview hcat hq (.inl hf) ha
        (hunmatched hm) (Bool.eq_false_iff.2 fun hh => hl (hlapse.1 hh))
  case volume =>
    intro sought hvol hsought asking waiting
    have hkey : (newOrder f n).recallKey = sought := newOrder_recallKey.trans hsought.symm
    refine ⟨fun i k hh hw hi hl => ?_, fun i rest k hh hw hfull hlru hl => ?_, fun hh hw => ?_,
      fun i r hh hslot => ⟨?_, ?_⟩⟩
    · exact State.exec_placeOrder_fetches h hr hs hvol hkey hh hw hl hi
    · exact State.exec_placeOrder_evicts h hr hs hvol hkey hh hw hl hfull hlru
    · exact State.exec_placeOrder_waits h hr hs hvol hkey hh hw
    · exact State.exec_placeOrder_joins h hr hs hvol hkey hh hslot
    · intro c v a masked hc hf ha given u hv hcheck
      have hgiven : State.handedSlot i r (State.asking f n) = given := handedSlot_asking i r
      have hpriced := State.exec_placeOrder_recalled h hr hs hvol hkey hh hslot hc hf ha (v := v) (masked := masked)
        (hgiven ▸ hv) (hgiven ▸ hcheck)
      rw [hgiven] at hpriced
      exact hpriced
  case restored =>
    intro slot e p v target hvol hf hk he hst hp hwhat hl pinned placed
    have hpl : f.sizeClass = 3 → ∃ pl ∈ p.placements, pl.photo = f.photo := by
      rcases hwhat with ⟨hc, -⟩ | ⟨-, hpl, -⟩
      · exact fun hc' => absurd hc' hc
      · exact fun _ => hpl
    have hpl := placed_newOrder (n := n) hpl
    have htarget : (newOrder f n).targetOn slot p = target := by
      rcases hwhat with ⟨hc, -, rfl, -⟩ | ⟨hc, -, rfl, -⟩
      · rw [Order.targetOn, newOrder_pageOnly hc]; rfl
      · rw [Order.targetOn, newOrder_photo hc]
    have hview : s.cat.viewOn (newOrder f n) slot p = some v := by
      rcases hwhat with ⟨hc, hpage, -, rfl⟩ | ⟨hc, -, -, q, hx, rfl⟩
      · rw [Catalogue.viewOn, newOrder_pageOnly hc]
        exact congrArg (Option.map s.cat.pageView) hpage
      · simp only [Catalogue.viewOn, newOrder_photo hc, hx, Option.map_some]
    have hcat (k : Nat) : s.cat.pinnedFor slot (newOrder f n).photo k = pinned k := pinnedFor_newOrder ..
    refine ⟨fun j hj _ => ?_, fun hj hroom heng => ?_, fun hj hfull hfresh hdue => ?_⟩
    · exact State.exec_placeOrder_joinsJob h hr hs hvol hk he hst hp hpl hview (hcat 1) rfl hf hl (htarget ▸ hj)
    · have hcreated := State.exec_placeOrder_creates h hr hs hvol hk he hst hp hpl hview hf hl (htarget ▸ hj) hroom heng
      rw [orderJob_newOrder, htarget] at hcreated
      exact hcat 2 ▸ hcreated
    · have hlocate := State.locate_full hs hvol hk he hst hp hpl hview hf hl (htarget ▸ hj) hfull
      exact State.exec_placeOrder_unpins h hr hs he hfresh hdue hlocate
  case page =>
    intro slot e p a hvol hc hl hk he hst hp hpage ha view masked placed price room entered
    have hpl := placed_newOrder (n := n) (p := p) fun hc' => absurd hc' hc
    have hphoto : (newOrder f n).photo = none := newOrder_pageOnly hc
    have hview : s.cat.viewOn (newOrder f n) slot p = some view := by
      rw [Catalogue.viewOn, hphoto]
      exact congrArg (Option.map s.cat.pageView) hpage
    have hcat : s.cat.pinnedFor slot (newOrder f n).photo 1 = s.cat.withEdition slot fun e => { e with pins := e.pins + 1 } := by
      rw [hphoto]; rfl
    have hq : (newOrder f n).atPage slot p = placed := atPage_pageOnly hc slot p
    have hlapsed : s.ownLapsed (newOrder f n) view = false := ownLapsed_pageOnly hc view
    have hmatch : s.orderMatches (newOrder f n) = s.hold.pageMatches key page := orderMatches_pageOnly hc
    refine ⟨fun hm => ?_, fun hm => ⟨fun hfull => ?_, fun hroom => ⟨fun hfunds => ?_, fun hqueue hfits => ?_⟩⟩⟩
    · exact State.exec_placeOrder_held h hr hs hvol hk he hst hp hpl hview hcat hq hl ha (hmatch.trans hm)
    · exact State.exec_placeOrder_full h hr hs hvol hk he hst hp hpl hview hcat hq hl ha (hmatch.trans hm) hlapsed hfull
    · exact State.exec_placeOrder_unfunded h hr hs hvol hk he hst hp hpl hview hcat hq hl ha (hmatch.trans hm) hlapsed hroom
        hfunds
    · exact State.exec_placeOrder_charged h hr hs hvol hk he hst hp hpl hview hcat hq hl ha (hmatch.trans hm) hlapsed hroom
        hqueue hfits

end Sys2Proof.Machine
end

section
/-! The price of an order by the schedule, and the bounds of each of its parts (O53). -/

namespace Sys2Proof.Machine

/-! ### The tables of the schedule (R148) -/

/-- An entry of a table is within the bound of its entries; outside of the table 0 is read. -/
theorem getD_le_of_forall {l : List Nat} {m : Nat} (h : ∀ x ∈ l, x ≤ m) (i : Nat) : l.getD i 0 ≤ m := by
  by_cases hi : i < l.length
  · rw [List.getD_eq_getElem l 0 hi]
    exact h _ (List.getElem_mem hi)
  · rw [List.getD_eq_default _ _ (Nat.le_of_not_lt hi)]
    exact Nat.zero_le m

/-! ### The core (R151, R153) -/

/-- The rounded core is a whole number of minor units, and the cap only lowers it. -/
theorem coreOf_le (b f d copies cap : Nat) : coreOf b f d copies cap ≤ (copies * (b * f * (100 - d)) + 5000) / 10000 := by
  unfold coreOf
  dsimp only
  split_ifs with hcap
  · exact Nat.le_of_lt hcap.2
  · exact Nat.le_refl _

theorem Schedule.Sound.perCopy_le {f : Schedule} (h : f.Sound) (i band tier : Nat) :
    f.base.getD i 0 * f.age.getD band 0 * (100 - f.tier.getD tier 0) ≤ 99900000000 := by
  obtain ⟨hbase, hage, -⟩ := h
  calc f.base.getD i 0 * f.age.getD band 0 * (100 - f.tier.getD tier 0)
    _ ≤ 1000000 * 999 * 100 := Nat.mul_le_mul (Nat.mul_le_mul (getD_le_of_forall hbase i) (getD_le_of_forall hage band))
        (Nat.sub_le 100 _)
    _ = 99900000000 := rfl

/-! ### The royalties (R154) -/

/-- Only AGENCY and FREELANCE photographs earn a royalty. -/
theorem Schedule.royaltyOf_eq (f : Schedule) (r : Rights) :
    f.royaltyOf r = if r.cls = .agency ∨ r.cls = .freelance then f.royalty.getD r.group 0 else 0 := by
  unfold royaltyOf
  cases r.cls <;> rfl

theorem Schedule.Sound.royaltyOf_le {f : Schedule} (h : f.Sound) (r : Rights) : f.royaltyOf r ≤ 100000 := by
  obtain ⟨-, -, -, hroyalty, -⟩ := h
  rw [f.royaltyOf_eq]
  split_ifs
  · exact getD_le_of_forall hroyalty r.group
  · exact Nat.zero_le _

/-- A masked placement adds nothing to a sum over the placements that are sold. -/
theorem sum_map_unmasked (masked : List Nat) (g : Rights → Nat) (l : List (Placed × Nat)) :
    ((l.filterMap fun x => if masked.contains x.2 then none else some x.1.rights).map g).sum =
      (l.map fun x => if x.2 ∈ masked then 0 else g x.1.rights).sum := by
  induction l with
  | nil => rfl
  | cons x l ih =>
    by_cases hx : x.2 ∈ masked
    · simp [hx, ← ih]
    · simp [hx, ← ih]

theorem soldRights_page {o : Order} (h : o.photo = none) (v : View) (masked : List Nat) : soldRights o v masked =
    (v.placed.zipIdx 1).filterMap fun x => if masked.contains x.2 then none else some x.1.rights := by
  rw [soldRights, h]
  rfl

theorem soldRights_photo {o : Order} (h : o.photo ≠ none) (v : View) (masked : List Nat) :
    soldRights o v masked = v.own.toList := if_pos (Option.isSome_iff_ne_none.2 h)

/-- An order sells one photograph, or those of its page. -/
theorem length_soldRights_le (o : Order) (v : View) (masked : List Nat) :
    (soldRights o v masked).length ≤ max 1 v.placed.length := by
  by_cases h : o.photo = none
  · rw [soldRights_page h]
    exact ((List.length_filterMap_le _ _).trans_eq List.length_zipIdx).trans (Nat.le_max_right _ _)
  · rw [soldRights_photo h]
    cases v.own
    · exact Nat.zero_le _
    · exact Nat.le_max_left _ _

theorem Schedule.Sound.royalties_le {f : Schedule} (h : f.Sound) {sold : List Rights} (hl : sold.length ≤ 12) :
    (sold.map f.royaltyOf).sum ≤ 1200000 := by
  have hsum := List.sum_le_card_nsmul (sold.map f.royaltyOf) 100000 (List.forall_mem_map.2 fun r _ => h.royaltyOf_le r)
  rw [List.length_map, smul_eq_mul] at hsum
  omega

/-! ### The parts of a price (R153, R154) -/

/-- The bounds of each part, for at most 50 copies and 12 photographs sold. -/
theorem Schedule.Sound.price_le {f : Schedule} (h : f.Sound) (today tier : Nat) {o : Order} {sold : List Rights}
    (hn : o.copies ≤ 50) (hl : sold.length ≤ 12) :
    (f.price today tier o sold).core ≤ 499500000 ∧ (f.price today tier o sold).royalties ≤ 60000000 ∧
      (f.price today tier o sold).total ≤ 560000000 := by
  have hcore : (f.price today tier o sold).core ≤ 499500000 := by
    refine (coreOf_le ..).trans ?_
    have hraw := Nat.mul_le_mul hn (h.perCopy_le (o.useClass * 4 + o.sizeClass) (ageBand (ageInDays today o.key.day.toNat)) tier)
    omega
  have hroyalties : (f.price today tier o sold).royalties ≤ 60000000 := Nat.mul_le_mul hn (h.royalties_le hl)
  obtain ⟨-, -, -, -, hsurcharge, hminimum, -⟩ := h
  have hextra : (f.price today tier o sold).surcharge ≤ 500000 := by
    show (if o.bearer then f.surcharge else 0) ≤ 500000
    split_ifs
    · exact hsurcharge
    · exact Nat.zero_le _
  refine ⟨hcore, hroyalties, ?_⟩
  have htotal : (f.price today tier o sold).total = max f.minimum ((f.price today tier o sold).core +
      (f.price today tier o sold).royalties + (f.price today tier o sold).surcharge) := rfl
  omega

/-- Settles O53: each part is read off the schedule, and its bound is the product of the bounds of what it is made of. -/
theorem priceFollowsTheSchedule : Obligations.PriceFollowsTheSchedule := by
  unfold Obligations.PriceFollowsTheSchedule
  intro f today tier o v masked price n age band q rounded cap r
  have hr : f.royaltyOf = r := funext f.royaltyOf_eq
  refine ⟨rfl, fun hpage => ?page, fun x hphoto hown => ?photo, rfl, rfl, fun hf hn hplaced => ?bounds⟩
  case page =>
    show n * ((soldRights o v masked).map f.royaltyOf).sum = _
    rw [soldRights_page hpage, sum_map_unmasked, hr]
  case photo =>
    show n * ((soldRights o v masked).map f.royaltyOf).sum = _
    rw [soldRights_photo hphoto, hown, hr]
    exact congrArg (n * ·) List.sum_singleton
  case bounds =>
    have hq : q ≤ 99900000000 := hf.perCopy_le _ _ _
    have hsold := (length_soldRights_le o v masked).trans (max_le (by omega : 1 ≤ 12) hplaced)
    exact ⟨hq, Nat.mul_le_mul hn hq, hf.price_le today tier hn hsold⟩

end Sys2Proof.Machine
end

section
/-! SET SCHEDULE and READ SCHEDULE (O54), and what the end of a change keeps of the schedule. -/

namespace Sys2Proof.Machine

/-! ### No change but SET SCHEDULE touches the schedule -/

namespace State

theorem completeEntry_fee (s : State) : s.completeEntry.fee = s.fee := by
  unfold completeEntry answerEntry
  cases s.req.mode <;> dsimp only <;> split <;> rfl

theorem endChange_schedule (s : State) : s.endChange.fee.schedule = s.fee.schedule := by
  unfold endChange
  split
  · rw [close_fee, (kept_settled _).schedule, completeEntry_fee, s.kept_settled.schedule]
  · rw [close_fee, s.kept_settled.schedule]

theorem handAtOnce_schedule (s : State) : s.handAtOnce.fee.schedule = s.fee.schedule := by
  unfold handAtOnce handedOff due
  split_ifs
  · rfl
  · rw [endChange_schedule, s.moves_handStaged.kept.schedule]
  · rfl

theorem take_schedule (s : State) : s.take.fee.schedule = s.fee.schedule := by
  unfold take wake
  split
  · exact (kept_settled _).schedule
  · rfl

end State

/-! ### READ SCHEDULE (R150) -/

/-- A schedule whose tables have their sizes fills 156 bytes. -/
theorem Schedule.length_fields {f : Schedule} (hbase : f.base.length = 20) (hage : f.age.length = 4) (htier : f.tier.length = 8)
    (hroyalty : f.royalty.length = 8) (hcaps : f.caps.length = 5) : f.fields.length = 156 := by
  simp [Schedule.fields, u32, u16, u8, hbase, hage, htier, hroyalty, hcaps, List.length_flatMap]

/-- In every mode the reply is the first frame of the change and carries the schedule, which stays. -/
theorem exec_readSchedule {s : State} {tag : U8} (ht : s.takes (.readSchedule tag) = true) :
    ∃ t, exec (.readSchedule tag) s = .next t ∧ FirstSent s t (s.replyFrame 0x65 tag .ok s.fee.schedule.fields) ∧
      t.fee.schedule = s.fee.schedule ∧ (s.Calm → s.Awake → t = s.reported 0x65 tag .ok s.fee.schedule.fields) := by
  have hexec := query_taken (body := fun s => s.answer 0x65 tag .ok s.fee.schedule.fields) ht
  obtain ⟨t, ht', hfirst⟩ := query_firstSent (body := fun s => s.answer 0x65 tag .ok s.fee.schedule.fields) ht rfl
  rw [State.take_schedule] at hfirst
  refine ⟨t, ht', hfirst, ?_, fun hcalm hawake => ?_⟩
  · rw [← Host.Outcome.next.inj (hexec.symm.trans ht'), State.handAtOnce_schedule, State.endChange_schedule]
    exact s.take_schedule
  · have hreported := query_replies (body := fun s => s.answer 0x65 tag .ok s.fee.schedule.fields) ⟨hcalm, hawake, ht⟩ rfl
    exact Host.Outcome.next.inj (ht'.symm.trans hreported)

/-! ### SET SCHEDULE (R149) -/

theorem scheduleInRange_iff {f : ScheduleFields} : scheduleInRange f = true ↔
    (∀ x ∈ f.base, x.toNat ≤ 1000000) ∧ (∀ x ∈ f.age, x.toNat ≤ 999) ∧ (∀ x ∈ f.tier, x.toNat ≤ 90) ∧
      (∀ x ∈ f.royalty, x.toNat ≤ 100000) ∧ f.surcharge.toNat ≤ 500000 ∧ f.minimum.toNat ≤ 1000000 ∧
      ∀ x ∈ f.caps, x.toNat ≤ 100000000 := by
  simp only [scheduleInRange, Bool.and_eq_true, List.all_eq_true, decide_eq_true_eq, and_assoc]

/-- Nothing that is tested at the end of a change reads the fee unit. -/
theorem State.Calm.withFee {s : State} (h : s.Calm) (u : FeeUnit) : State.Calm { s with fee := u } := h

theorem exec_setSchedule_outOfRange {s : State} {tag : U8} {f : ScheduleFields} (h : s.Ready (.setSchedule tag f))
    (hf : ¬scheduleInRange f = true) : exec (.setSchedule tag f) s = .next (s.replied 0x64 tag .outOfRange []) :=
  request_replies h (if_neg hf)

theorem exec_setSchedule_inRange {s : State} {tag : U8} {f : ScheduleFields} (h : s.Ready (.setSchedule tag f))
    (hf : scheduleInRange f = true) : exec (.setSchedule tag f) s =
      .next (State.replied { s with fee := { s.fee with schedule := givenSchedule f } } 0x64 tag .ok []) :=
  request_answers (u := { s.popped with fee := { s.fee with schedule := givenSchedule f } }) h (if_pos hf)
    (h.1.1.withFee (s := s.popped) _) rfl rfl

/-! ### The bytes of the two requests (R149, R150) -/

/-- The bytes of a word are those of its low 16 bits. -/
theorem wordBytes_ofNat (n : Nat) : wordBytes (BitVec.ofNat 16 n) = u16 n := by
  have hhigh : n % 65536 / 256 % 256 = n / 256 % 256 := by omega
  have hlow : n % 65536 % 256 = n % 256 := by omega
  simp only [wordBytes, u16, BitVec.toNat_ofNat, List.cons.injEq, and_true]
  exact ⟨BitVec.eq_of_toNat_eq hhigh, BitVec.eq_of_toNat_eq hlow⟩

theorem u32_toNat (x : U32) : u32 x.toNat = longBytes x := by rw [u32, longBytes, wordBytes_ofNat, wordBytes_ofNat]

theorem u16_toNat (x : U16) : u16 x.toNat = wordBytes x := rfl

theorem u8_toNat (x : U8) : u8 x.toNat = [x] := by simp [u8]

/-- READ SCHEDULE sends back the bytes that SET SCHEDULE brought. -/
theorem givenSchedule_fields (f : ScheduleFields) : (givenSchedule f).fields = scheduleBytes f := by
  have htier : f.tier.flatMap (fun x => u8 x.toNat) = f.tier := by simp only [u8_toNat, List.flatMap_singleton']
  simp only [Schedule.fields, givenSchedule, scheduleBytes, List.flatMap_map, u32_toNat, u16_toNat, htier]

/-- Settles O54. -/
theorem scheduleIsSetAndRead : Obligations.ScheduleIsSetAndRead := by
  unfold Obligations.ScheduleIsSetAndRead
  refine ⟨fun s tag ht => ⟨exec_readSchedule ht, Schedule.length_fields⟩, fun s tag f h => ?set, givenSchedule_fields⟩
  case set =>
    intro inRange
    have hrange : scheduleInRange f = true ↔ inRange := scheduleInRange_iff
    exact ⟨fun hf => exec_setSchedule_outOfRange h (mt hrange.1 hf), fun hf => exec_setSchedule_inRange h (hrange.2 hf)⟩

end Sys2Proof.Machine
end

section
/-! The orders, accounts and statements at the end of a change that may complete an entry to SETUP: the seal that such an entry lets
begin touches none of them while no order waits for one. -/

namespace Sys2Proof.Machine

/-! ### The work of the seal queue (R87, R90) -/

/-- A test of the seal queue's head, or the failure of a SEAL VOLUME. -/
def Task.IsSeal : Task → Prop
  | .sealTest | .complete (.sealVolume _ _) (.failed _) => True
  | _ => False

/-- From s to t only the seal queue has been worked: no order waits for a seal, and nothing else is open. -/
structure SealWorked (s t : State) : Prop where
  fee : t.fee = s.fee
  ord : t.ord = s.ord
  stmt : t.stmt = s.stmt
  waiters : t.vol.waiters = []
  agenda : ∀ x ∈ t.agenda, x.IsSeal

theorem SealWorked.trans {s t u : State} (h : SealWorked s t) (k : SealWorked t u) : SealWorked s u :=
  ⟨k.fee.trans h.fee, k.ord.trans h.ord, k.stmt.trans h.stmt, k.waiters, k.agenda⟩

namespace State

variable {s : State} (hw : s.vol.waiters = []) (ha : ∀ x ∈ s.agenda, x.IsSeal)
include hw ha

theorem sealWorked_push {x : Task} (hx : x.IsSeal) : SealWorked s (s.push x) :=
  ⟨rfl, rfl, rfl, hw, List.forall_mem_append.2 ⟨ha, List.forall_mem_singleton.2 hx⟩⟩

/-- Over a link that is not ONLINE a SEAL VOLUME fails in the same change (R77). -/
theorem sealWorked_handOff (slot : Nat) (x : SealContent) : SealWorked s (s.handOff (.sealVolume slot x)) := by
  unfold handOff
  cases s.link.state with
  | online =>
    rw [if_neg (by simp [Op.isDiscard])]
    exact ⟨rfl, rfl, rfl, hw, ha⟩
  | offline | recovered => exact sealWorked_push hw ha trivial

omit hw ha in
theorem sealWorked_sealTest : ∀ (l : List Nat) {s : State}, s.vol.waiters = [] → (∀ x ∈ s.agenda, x.IsSeal) →
    SealWorked s (sealTest l s)
  | [], s, hw, ha => ⟨rfl, rfl, rfl, hw, ha⟩
  | slot :: rest, s, hw, ha => by
    unfold sealTest
    split
    · exact ⟨rfl, rfl, rfl, hw, ha⟩
    · split_ifs
      · exact ⟨rfl, rfl, rfl, hw, ha⟩
      · have hrest := sealWorked_sealTest rest (s := withCat { s with vol := { s.vol with sealQueue := rest } } fun c =>
          c.withEdition slot fun e => { e with due := true }) hw ha
        exact ⟨hrest.fee, hrest.ord, hrest.stmt, hrest.waiters, hrest.agenda⟩
      · have hhanded (c : Catalogue → Catalogue) (x : SealContent) := sealWorked_handOff (s := s.withCat c) hw ha slot x
        exact ⟨(hhanded _ _).fee, (hhanded _ _).ord, (hhanded _ _).stmt, (hhanded _ _).waiters, (hhanded _ _).agenda⟩

/-- A failed seal sends back the orders that wait for it, of which there are none (R90). -/
theorem sealWorked_sealFailed (slot : Nat) (c : Code) : SealWorked s (s.sealFailed slot c) := by
  unfold sealFailed
  split
  · exact ⟨rfl, rfl, rfl, hw, ha⟩
  · rw [hw]
    exact ⟨rfl, rfl, rfl, rfl, List.forall_mem_append.2 ⟨ha, List.forall_mem_singleton.2 trivial⟩⟩

theorem sealWorked_runTask {x : Task} (hx : x.IsSeal) : SealWorked s (s.runTask x) := by
  unfold Task.IsSeal at hx
  split at hx
  · exact sealWorked_sealTest _ hw ha
  · exact sealWorked_sealFailed hw ha _ _
  · exact hx.elim

omit hw ha in
theorem sealWorked_settle : ∀ (n : Nat) {s : State}, s.vol.waiters = [] → (∀ x ∈ s.agenda, x.IsSeal) → SealWorked s (settle n s)
  | 0, s, hw, ha => ⟨rfl, rfl, rfl, hw, ha⟩
  | n + 1, s, hw, ha => by
    cases hs : s.agenda with
    | nil =>
      rw [settle_of_nil _ s hs]
      exact ⟨rfl, rfl, rfl, hw, ha⟩
    | cons x rest =>
      rw [hs] at ha
      obtain ⟨hx, hrest⟩ := List.forall_mem_cons.1 ha
      rw [settle_of_cons n hs]
      have hone := sealWorked_runTask (s := { s with agenda := rest }) hw hrest hx
      have hmore := hone.trans (sealWorked_settle n hone.waiters hone.agenda)
      exact ⟨hmore.fee, hmore.ord, hmore.stmt, hmore.waiters, hmore.agenda⟩

/-! ### The end of a change (R87, R187, R188) -/

omit hw ha

theorem answerEntry_blocks (s : State) (kind : U8) (code : Code) : (s.answerEntry kind code).fee = s.fee ∧
    (s.answerEntry kind code).ord = s.ord ∧ (s.answerEntry kind code).stmt = s.stmt ∧ (s.answerEntry kind code).vol = s.vol ∧
    (s.answerEntry kind code).agenda = s.agenda := by
  unfold answerEntry
  split <;> exact ⟨rfl, rfl, rfl, rfl, rfl⟩

/-- A mode entry that completes touches no order, no account and no statement, with the seals that it lets begin. -/
theorem completeEntry_settled_blocks (ha : s.agenda = []) (hw : s.req.mode = .setupPending → s.vol.waiters = []) :
    s.completeEntry.settled.fee = s.fee ∧ s.completeEntry.settled.ord = s.ord ∧ s.completeEntry.settled.stmt = s.stmt := by
  unfold completeEntry
  split
  · next hm =>
    obtain ⟨hfee, hord, hstmt, hvol, hagenda⟩ := answerEntry_blocks (s.changeMode .setup) 0x03 .ok
    have hopen : ∀ x ∈ (((s.changeMode .setup).answerEntry 0x03 .ok).push .sealTest).agenda, x.IsSeal := by
      rw [push_agenda, hagenda, show (s.changeMode .setup).agenda = [] from ha]
      exact List.forall_mem_singleton.2 trivial
    have hworked := sealWorked_settle Config.changeBound
      (s := ((s.changeMode .setup).answerEntry 0x03 .ok).push .sealTest) (by rw [push_vol, hvol]; exact hw hm) hopen
    exact ⟨hworked.fee.trans hfee, hworked.ord.trans hord, hworked.stmt.trans hstmt⟩
  · obtain ⟨hfee, hord, hstmt, -, hagenda⟩ := answerEntry_blocks (s.changeMode .standby) 0x04 .ok
    rw [settled_of_nil (hagenda.trans ha)]
    exact ⟨hfee, hord, hstmt⟩
  all_goals
    rw [settled_of_nil ha]
    exact ⟨rfl, rfl, rfl⟩

/-- With no consequence open, the end of a change leaves the orders, the accounts and the statements. -/
theorem endChange_tables (ha : s.agenda = []) (hw : s.req.mode = .setupPending → s.vol.waiters = []) :
    s.endChange.fee = s.fee ∧ s.endChange.stmt = s.stmt ∧ ∀ n, s.endChange.order? n = s.order? n := by
  unfold endChange
  rw [settled_of_nil ha]
  split
  · obtain ⟨hfee, hord, hstmt⟩ := completeEntry_settled_blocks ha hw
    exact ⟨(close_fee _).trans hfee, (close_stmt _).trans hstmt, fun n => (order?_close _ n).trans (by rw [order?, hord]; rfl)⟩
  · exact ⟨close_fee s, close_stmt s, order?_close s⟩

end State

end Sys2Proof.Machine
end

section
/-! The retry of an account's held-funds queue (R162): the order at its head is charged and leaves it, or does not fit and
stays. -/

namespace Sys2Proof.Machine

/-! ### Accounts and orders of one number -/

theorem FeeUnit.account?_number {f : FeeUnit} {n : Nat} {a : Account} (h : f.account? n = some a) : a.number = n := by
  simpa using List.find?_some h

/-- The account of a number is the only one, where no two accounts share theirs. -/
theorem FeeUnit.account_eq_of_number {f : FeeUnit} (hf : (f.accounts.map Account.number).Nodup) {n : Nat} {a b : Account}
    (ha : f.account? n = some a) (hb : b ∈ f.accounts) (hn : b.number = n) : b = a :=
  List.inj_on_of_nodup_map hf hb (List.mem_of_find?_eq_some ha) (hn.trans (f.account?_number ha).symm)

/-- The live order of a number is the only one, where no two live orders share theirs. -/
theorem OrderTable.order_eq_of_number {s : State} (hs : (s.ord.live.map Order.number).Nodup) {n : Nat} {o p : Order}
    (ho : s.order? n = some o) (hp : p ∈ s.ord.live) (hn : p.number = n) : p = o :=
  List.inj_on_of_nodup_map hs hp (List.mem_of_find?_eq_some ho) (hn.trans (State.order?_number ho).symm)

namespace State

theorem account?_withAccount_self {s : State} {n : Nat} {a : Account} {f : Account → Account} (ha : s.fee.account? n = some a)
    (hf : ∀ a, (f a).number = a.number) : (s.withAccount n f).fee.account? n = some (f a) := by
  have hcomp : ((fun x : Account => x.number == n) ∘ fun x => if x.number == n then f x else x) = fun x => x.number == n := by
    funext x
    simp only [Function.comp]
    split <;> simp [hf]
  rw [FeeUnit.account?, withAccount_accounts, List.find?_map, hcomp]
  exact (congrArg _ ha).trans (by rw [Option.map_some, if_pos (beq_iff_eq.2 (FeeUnit.account?_number ha))])

/-- An account changed twice. -/
theorem withAccount_withAccount (s : State) (n : Nat) {f g : Account → Account} (hf : ∀ a, (f a).number = a.number) :
    (s.withAccount n f).withAccount n g = s.withAccount n fun a => g (f a) := by
  simp only [withAccount, List.map_map]
  congr 3
  funext a
  simp only [Function.comp]
  by_cases hn : a.number == n <;> simp [hn, hf]

/-- A change that leaves the account of the number as it is changes nothing. -/
theorem withAccount_eq_self {s : State} (hs : (s.fee.accounts.map Account.number).Nodup) {n : Nat} {a : Account}
    (ha : s.fee.account? n = some a) {f : Account → Account} (hf : f a = a) : s.withAccount n f = s := by
  have hmap : s.fee.accounts.map (fun x => if x.number == n then f x else x) = s.fee.accounts := by
    refine (List.map_congr_left fun x hx => ?_).trans (List.map_id _)
    split
    · next hn => rw [FeeUnit.account_eq_of_number hs ha hx (beq_iff_eq.1 hn)]; exact hf
    · rfl
  rw [withAccount, hmap]

/-- A change that leaves the order of the number as it is changes nothing. -/
theorem withOrder_eq_self {s : State} (hs : (s.ord.live.map Order.number).Nodup) {n : Nat} {o : Order}
    (ho : s.order? n = some o) {f : Order → Order} (hf : f o = o) : s.withOrder n f = s := by
  have hmap : s.ord.live.map (fun x => if x.number == n then f x else x) = s.ord.live := by
    refine (List.map_congr_left fun x hx => ?_).trans (List.map_id _)
    split
    · next hn => rw [OrderTable.order_eq_of_number hs ho hx (beq_iff_eq.1 hn)]; exact hf
    · rfl
  rw [withOrder, hmap]

/-! ### The order at the head is priced (R152, R162) -/

/-- The account's queue becomes the one given. -/
abbrev queued (s : State) (account : Nat) (queue : List Nat) : State :=
  s.withAccount account fun a => { a with queue := queue }

/-- An order of the account's queue that its hold check lets pass. -/
structure Retriable (s : State) (account n : Nat) (o : Order) (v : View) : Prop where
  order : s.order? n = some o
  state : o.state = .heldFunds
  account : o.account = account
  view : s.orderView o = some v
  passed : s.holdCheck o v = .passed (s.maskOf v)

/-- An order that comes from its queue is tested against its account, whatever waits behind it (R155, R156, R162). -/
theorem priceOrder_retried {s : State} {n : Nat} {o : Order} {v : View} {a : Account} (h : s.Retriable a.number n o v)
    (ha : s.fee.account? a.number = some a) (hroom : s.stmt.current.entries.length < 512) : s.priceOrder n true =
      if ((s.priceOf o v a).total : Int) ≤ a.balance + a.limit then s.sold o v a else s.keepAtHead n a.number := by
  have hfunds : s.priceOrder n true = s.fundsStep o a (s.maskOf v).length (s.priceOf o v a) true := by
    simp only [priceOrder, h.order, h.view, h.account, ha, h.passed]
    rfl
  have hentries : (!s.stmt.hasRoom) = false := by simpa [StatementBuffer.hasRoom] using hroom
  rw [hfunds, fundsStep, hentries, charge_eq_sold hroom, order?_number h.order]
  simp only [Account.fits, decide_eq_true_eq]
  rfl

/-- An order that does not fit goes back to the head of its queue, and all is as before (R162). -/
theorem keepAtHead_queued {s : State} (haccounts : (s.fee.accounts.map Account.number).Nodup)
    (horders : (s.ord.live.map Order.number).Nodup) {account n : Nat} {a : Account} {o : Order} {rest : List Nat}
    (ha : s.fee.account? account = some a) (hq : a.queue = n :: rest) (ho : s.order? n = some o) (hst : o.state = .heldFunds) :
    (s.queued account rest).keepAtHead n account = s := by
  have hback : (s.queued account rest).withAccount account (fun a => { a with queue := n :: a.queue }) = s := by
    rw [withAccount_withAccount s account (f := fun a => { a with queue := rest }) fun _ => rfl]
    exact withAccount_eq_self haccounts ha (by rw [← hq])
  rw [keepAtHead, hback]
  exact withOrder_eq_self horders ho (by rw [← hst])

/-- The head of the account's queue is charged, and rest is what waits behind it. -/
abbrev headSold (s : State) (o : Order) (v : View) (a : Account) (rest : List Nat) : State :=
  (s.queued a.number rest).sold o v a

/-- The head that has left the queue is charged where it fits; otherwise it goes back. -/
theorem priceOrder_head {s : State} {n : Nat} {o : Order} {v : View} {a : Account} (h : s.Retriable a.number n o v)
    (ha : s.fee.account? a.number = some a) (hroom : s.stmt.current.entries.length < 512) (rest : List Nat) :
    (s.queued a.number rest).priceOrder n true = if ((s.priceOf o v a).total : Int) ≤ a.balance + a.limit then
      s.headSold o v a rest else (s.queued a.number rest).keepAtHead n a.number :=
  priceOrder_retried (s := s.queued a.number rest) (a := { a with queue := rest })
    ⟨h.order, h.state, h.account, h.view, h.passed⟩
    (account?_withAccount_self (f := fun a => { a with queue := rest }) ha fun _ => rfl) hroom

/-! ### What the charge of the head leaves -/

/-- The order as its charge leaves it. -/
abbrev chargedOrder (s : State) (o : Order) (v : View) (a : Account) : Order :=
  { o with state := .charged, masked := (s.maskOf v).length, charged := (s.priceOf o v a).total }

/-- The account as the charge of its head leaves it. -/
abbrev chargedAccount (s : State) (o : Order) (v : View) (a : Account) (rest : List Nat) : Account :=
  { a with balance := a.balance - (s.priceOf o v a).total, queue := rest }

section HeadSold

variable (s : State) (o : Order) (v : View) (a : Account) (rest : List Nat)

theorem headSold_blocks : (s.headSold o v a rest).cat = s.cat ∧ (s.headSold o v a rest).vol = s.vol ∧
    (s.headSold o v a rest).hold = s.hold ∧ (s.headSold o v a rest).cal = s.cal ∧ (s.headSold o v a rest).port = s.port ∧
    (s.headSold o v a rest).agenda = s.agenda ∧ (s.headSold o v a rest).req.mode = s.req.mode ∧
    (s.headSold o v a rest).fee.schedule = s.fee.schedule := by
  unfold headSold sold
  split_ifs <;> exact ⟨rfl, rfl, rfl, rfl, rfl, rfl, rfl, rfl⟩

theorem headSold_entries : (s.headSold o v a rest).stmt.current.entries.map Entry.order =
    s.stmt.current.entries.map Entry.order ++ [o.number] := by
  unfold headSold sold
  split_ifs <;> exact List.map_append

/-- The accounts and the orders of the charge: the queue is given up, and the total is taken from the balance (R157). -/
theorem headSold_tables (hacc : o.account = a.number) :
    (s.headSold o v a rest).fee = ((s.queued a.number rest).withAccount a.number fun x =>
      { x with balance := x.balance - (s.priceOf o v a).total }).fee ∧
    (s.headSold o v a rest).ord = (s.withOrder o.number fun x =>
      { x with state := .charged, masked := (s.maskOf v).length, charged := (s.priceOf o v a).total }).ord := by
  unfold headSold sold
  rw [hacc]
  split_ifs <;> exact ⟨rfl, rfl⟩

/-- No account and no order changes its number. -/
theorem headSold_numbers (hacc : o.account = a.number) :
    (s.headSold o v a rest).fee.accounts.map Account.number = s.fee.accounts.map Account.number ∧
    (s.headSold o v a rest).ord.live.map Order.number = s.ord.live.map Order.number := by
  obtain ⟨hfee, hord⟩ := headSold_tables s o v a rest hacc
  rw [hfee, hord]
  simp only [withAccount, withOrder]
  refine ⟨?_, ?_⟩
  · rw [map_map_of_eq fun x => by split <;> rfl, map_map_of_eq fun x => by split <;> rfl]
  · rw [map_map_of_eq fun x => by split <;> rfl]

end HeadSold

/-! ### One head after the other (R162) -/

section Retry

variable {s : State} {a : Account} {n : Nat} {rest : List Nat} {o : Order} {v : View}

theorem retryFunds_empty (ha : s.fee.account? a.number = some a) (hq : a.queue = []) (k : Nat) :
    retryFunds a.number k s = (s, 0) := by
  cases k with
  | zero => rfl
  | succ k => simp only [retryFunds, ha, Option.map_some, hq]

variable (h : s.Retriable a.number n o v) (ha : s.fee.account? a.number = some a)
include h

theorem headSold_order? : (s.headSold o v a rest).order? n = some (s.chargedOrder o v a) := by
  have hord := (headSold_tables s o v a rest h.account).2
  rw [order?, hord]
  obtain rfl := order?_number h.order
  exact order?_withOrder_self h.order fun _ => rfl

theorem headSold_order?_ne {m : Nat} (hm : m ≠ n) : (s.headSold o v a rest).order? m = s.order? m := by
  have hord := (headSold_tables s o v a rest h.account).2
  rw [order?, hord]
  obtain rfl := order?_number h.order
  exact order?_withOrder_ne (fun _ => rfl) hm

/-- The order behind the head is priced as it would have been before. -/
theorem headSold_retriable {m : Nat} {p : Order} {w : View} (hm : m ≠ n) (hp : s.Retriable a.number m p w) :
    (s.headSold o v a rest).Retriable a.number m p w := by
  obtain ⟨hcat, hvol, hhold, hcal, -⟩ := headSold_blocks s o v a rest
  have hcheck : (s.headSold o v a rest).holdCheck p w = s.holdCheck p w := holdCheck_congr (by rw [hhold]) hcal
  refine ⟨(headSold_order?_ne h hm).trans hp.order, hp.state, hp.account, ?_, ?_⟩
  · rw [← hp.view, orderView, orderView, hcat, hvol]
  · have hpassed := hcheck.trans hp.passed
    rw [hpassed, holdCheck_passed hpassed]

omit h

theorem headSold_maskOf (w : View) : (s.headSold o v a rest).maskOf w = s.maskOf w := by
  obtain ⟨-, -, hhold, hcal, -⟩ := headSold_blocks s o v a rest
  have hmasked : (s.headSold o v a rest).isMasked = s.isMasked := funext fun _ => by simp only [isMasked, hhold, hcal]
  simp only [maskOf, hmasked]

theorem headSold_priceOf (p : Order) (w : View) :
    (s.headSold o v a rest).priceOf p w (s.chargedAccount o v a rest) = s.priceOf p w a := by
  obtain ⟨-, -, -, hcal, -, -, -, hschedule⟩ := headSold_blocks s o v a rest
  rw [priceOf, hschedule, hcal, headSold_maskOf]
  rfl

theorem headSold_chargedOrder (p : Order) (w : View) :
    (s.headSold o v a rest).chargedOrder p w (s.chargedAccount o v a rest) = s.chargedOrder p w a := by
  rw [chargedOrder, headSold_maskOf, headSold_priceOf]

include h ha

theorem headSold_account? : (s.headSold o v a rest).fee.account? a.number = some (s.chargedAccount o v a rest) := by
  rw [(headSold_tables s o v a rest h.account).1]
  exact account?_withAccount_self (s := s.queued a.number rest) (account?_withAccount_self ha fun _ => rfl) fun _ => rfl

variable (hq : a.queue = n :: rest) (hroom : s.stmt.current.entries.length < 512)
include hq hroom

/-- The walk stops at an order that does not fit. -/
theorem retryFunds_short (haccounts : (s.fee.accounts.map Account.number).Nodup)
    (horders : (s.ord.live.map Order.number).Nodup) (hshort : a.balance + a.limit < (s.priceOf o v a).total) (k : Nat) :
    retryFunds a.number (k + 1) s = (s, 0) := by
  have hkept : (s.queued a.number rest).priceOrder n true = s :=
    ((priceOrder_head h ha hroom rest).trans (if_neg (not_le.2 hshort))).trans
      (keepAtHead_queued haccounts horders ha hq h.order h.state)
  simp only [retryFunds, ha, Option.map_some, hq, hkept, orderState?, h.order, h.state, beq_self_eq_true, if_true]

/-- The walk charges an order that fits, and goes on with what stands behind it. -/
theorem retryFunds_fits (hfits : ((s.priceOf o v a).total : Int) ≤ a.balance + a.limit) (k : Nat) :
    retryFunds a.number (k + 1) s = ((retryFunds a.number k (s.headSold o v a rest)).1,
      (retryFunds a.number k (s.headSold o v a rest)).2 + 1) := by
  have hsold := (priceOrder_head h ha hroom rest).trans (if_pos hfits)
  simp only [retryFunds, ha, Option.map_some, hq, hsold, orderState?, headSold_order? h]
  rfl

end Retry

/-! ### The order behind a head that is charged -/

section Behind

variable {s : State} {a : Account} {n m : Nat} {o p : Order} {v w : View} (h : s.Retriable a.number n o v)
  (ha : s.fee.account? a.number = some a) (hm : m ≠ n) (hp : s.Retriable a.number m p w)
  (hroom : s.stmt.current.entries.length < 511)
include h ha hm hp hroom

omit h ha hm hp in
theorem headSold_room (rest : List Nat) : (s.headSold o v a rest).stmt.current.entries.length < 512 := by
  have hlength := congrArg List.length (headSold_entries s o v a rest)
  simp only [List.length_map, List.length_append, List.length_singleton] at hlength
  omega

theorem retryFunds_headSold_short (haccounts : (s.fee.accounts.map Account.number).Nodup)
    (horders : (s.ord.live.map Order.number).Nodup)
    (hshort : a.balance + a.limit < ((s.priceOf o v a).total : Int) + (s.priceOf p w a).total) :
    retryFunds a.number 1 (s.headSold o v a [m]) = (s.headSold o v a [m], 0) := by
  obtain ⟨hnumbers, hlive⟩ := headSold_numbers s o v a [m] h.account
  refine retryFunds_short (a := s.chargedAccount o v a [m]) (headSold_retriable h hm hp) (headSold_account? h ha) rfl
    (headSold_room hroom [m]) (hnumbers ▸ haccounts) (hlive ▸ horders) ?_ 0
  rw [headSold_priceOf]
  show a.balance - (s.priceOf o v a).total + a.limit < _
  omega

theorem retryFunds_headSold_fits
    (hfits : ((s.priceOf o v a).total : Int) + (s.priceOf p w a).total ≤ a.balance + a.limit) :
    retryFunds a.number 1 (s.headSold o v a [m]) =
      ((s.headSold o v a [m]).headSold p w (s.chargedAccount o v a [m]) [], 1) := by
  refine retryFunds_fits (a := s.chargedAccount o v a [m]) (headSold_retriable h hm hp) (headSold_account? h ha) rfl
    (headSold_room hroom [m]) ?_ 0
  rw [headSold_priceOf]
  show _ ≤ a.balance - (s.priceOf o v a).total + a.limit
  omega

end Behind

end State

end Sys2Proof.Machine
end

section
/-! A request that retries an account's held-funds queue, with one or two orders in it (O55). -/

namespace Sys2Proof.Machine

namespace State

/-- The fee unit has become u. -/
abbrev withFee (s : State) (u : FeeUnit) : State := { s with fee := u }

/-- The answer of a request that retries the account's queue: the balance, the orders charged and those left (R160, R161). -/
def retriedAnswer (s : State) (account : Nat) (kind tag : U8) (fields : Int → U8 → U8 → List U8) : State :=
  (s.retryAccount account).1.answer kind tag .ok (fields ((s.retryAccount account).1.fee.balanceOf account)
    (BitVec.ofNat 8 (s.retryAccount account).2) (BitVec.ofNat 8 ((s.retryAccount account).1.fee.queueLength account)))

/-! ### The request's change (R183) -/

section Run

variable {s : State} {c : Instr} {body : State → State} {kind tag : U8} (h : s.Ready c)
include h

/-- A request whose work is done before its change ends: its reply goes out first, and the tables stay as the work left them. -/
theorem request_worked {x : State} {code : Code} {fields : List U8} (hbody : body s.popped = x.answer kind tag code fields)
    (hport : x.port = s.popped.port) (ha : x.agenda = []) (hw : x.req.mode = .setupPending → x.vol.waiters = []) :
    ∃ t, request c body s = .next t ∧ FirstSent s t (s.replyFrame kind tag code fields) ∧ t.fee = x.fee ∧ t.stmt = x.stmt ∧
      ∀ n, t.order? n = x.order? n := by
  obtain ⟨⟨-, hawake, htakes⟩, hunstaged⟩ := h
  have hexec := request_taken (body := body) htakes hunstaged
  have htake := take_of_awake hawake
  rw [htake, hbody] at hexec
  exact ⟨_, hexec, firstSent_taken htakes (hport.trans (congrArg State.port htake.symm)),
    endChange_tables (s := x.answer kind tag code fields) ha hw⟩

/-! ### The retry in a request (R160 to R162) -/

omit h

variable {u : FeeUnit} {a : Account} {fields : Int → U8 → U8 → List U8}
  (ha : u.account? a.number = some a)
  (hbody : body s.popped = (s.popped.withFee u).retriedAnswer a.number kind tag fields)
include ha hbody

/-- What the request does, from the retry's own result. -/
theorem body_retried {x : State} {b : Account} {k : Nat}
    (hr : retryFunds a.number a.queue.length (s.popped.withFee u) = (x, k)) (hb : x.fee.account? a.number = some b) :
    body s.popped = x.answer kind tag .ok (fields b.balance (BitVec.ofNat 8 k) (BitVec.ofNat 8 b.queue.length)) := by
  have hretry : (s.popped.withFee u).retryAccount a.number = (x, k) := by
    rw [retryAccount, FeeUnit.queueLength, show (s.popped.withFee u).fee.account? a.number = some a from ha]
    exact hr
  rw [hbody, retriedAnswer, hretry]
  simp only [FeeUnit.balanceOf, FeeUnit.queueLength, hb]
  rfl

include h

/-- An order at the head that does not fit: the reply counts what still waits, and nothing else has changed. -/
theorem request_retriesNone (hr : retryFunds a.number a.queue.length (s.popped.withFee u) = (s.popped.withFee u, 0)) :
    request c body s =
      .next ((s.withFee u).replied kind tag .ok (fields a.balance 0 (BitVec.ofNat 8 a.queue.length))) :=
  request_answers (u := s.popped.withFee u) h (body_retried ha hbody hr ha) (h.1.1.withFee (s := s.popped) u) rfl rfl

/-- With an empty queue there is nothing to retry. -/
theorem request_retriesEmpty (hq : a.queue = []) :
    request c body s = .next ((s.withFee u).replied kind tag .ok (fields a.balance 0 0)) := by
  have hnone := request_retriesNone h ha hbody (retryFunds_empty (s := s.popped.withFee u) ha hq _)
  rwa [hq] at hnone

/-- With orders charged: the reply carries the account's new balance, how many were charged and how many wait. -/
theorem request_retriesTo {x : State} {b : Account} {k : Nat}
    (hr : retryFunds a.number a.queue.length (s.popped.withFee u) = (x, k)) (hb : x.fee.account? a.number = some b)
    (hagenda : x.agenda = s.agenda) (hvol : x.vol = s.vol) (hw : s.req.mode = .setupPending → s.vol.waiters = []) :
    ∃ t, request c body s = .next t ∧ FirstSent s t (s.replyFrame kind tag .ok
        (fields b.balance (BitVec.ofNat 8 k) (BitVec.ofNat 8 b.queue.length))) ∧ t.fee.account? a.number = some b ∧
      t.stmt = x.stmt ∧ ∀ n, t.order? n = x.order? n := by
  have hmoves := moves_retryFunds a.number a.queue.length (s.popped.withFee u)
  rw [hr] at hmoves
  obtain ⟨t, hexec, hfirst, hfee, hstmt, horder⟩ := request_worked h (body_retried ha hbody hr hb) hmoves.kept.port
    (hagenda.trans h.1.1.1) fun hm => hvol ▸ hw (hmoves.kept.mode.symm.trans hm)
  exact ⟨t, hexec, hfirst, hfee ▸ hb, hstmt, horder⟩

variable {n : Nat} {o : Order} {v : View} {rest : List Nat} (hq : a.queue = n :: rest)
  (hhead : (s.popped.withFee u).Retriable a.number n o v) (hroom : s.stmt.current.entries.length < 511)
  (haccounts : (u.accounts.map Account.number).Nodup) (horders : (s.ord.live.map Order.number).Nodup)
  (hw : s.req.mode = .setupPending → s.vol.waiters = [])
include hq hhead hroom

include haccounts horders in
theorem request_retriesShort (hshort : a.balance + a.limit < ((s.withFee u).priceOf o v a).total) :
    request c body s = .next ((s.withFee u).replied kind tag .ok
      (fields a.balance 0 (BitVec.ofNat 8 (rest.length + 1)))) := by
  have hstops : retryFunds a.number a.queue.length (s.popped.withFee u) = (s.popped.withFee u, 0) := by
    rw [hq]
    exact retryFunds_short hhead ha hq (Nat.lt_succ_of_lt hroom) haccounts horders hshort _
  rw [request_retriesNone h ha hbody hstops, hq, List.length_cons]

variable (hfits : (((s.withFee u).priceOf o v a).total : Int) ≤ a.balance + a.limit)
include hfits hw

/-- The head is charged, and the walk ends behind it. -/
theorem request_retriesHead (hends : retryFunds a.number rest.length ((s.popped.withFee u).headSold o v a rest) =
      ((s.popped.withFee u).headSold o v a rest, 0)) :
    ∃ t, request c body s = .next t ∧ FirstSent s t (s.replyFrame kind tag .ok
        (fields (a.balance - ((s.withFee u).priceOf o v a).total) 1 (BitVec.ofNat 8 rest.length))) ∧
      t.fee.account? a.number = some ((s.withFee u).chargedAccount o v a rest) ∧
      t.order? n = some ((s.withFee u).chargedOrder o v a) ∧ (∀ m, m ≠ n → t.order? m = s.order? m) ∧
      t.stmt.current.entries.map Entry.order = s.stmt.current.entries.map Entry.order ++ [n] := by
  have hr : retryFunds a.number a.queue.length (s.popped.withFee u) =
      ((s.popped.withFee u).headSold o v a rest, 1) := by
    rw [hq, List.length_cons, retryFunds_fits hhead ha hq (Nat.lt_succ_of_lt hroom) hfits, hends]
  obtain ⟨-, hvol, -, -, -, hagenda, -⟩ := headSold_blocks (s.popped.withFee u) o v a rest
  obtain ⟨t, hexec, hfirst, haccount, hstmt, horder⟩ := request_retriesTo h ha hbody hr (headSold_account? hhead ha) hagenda hvol hw
  refine ⟨t, hexec, hfirst, haccount, (horder n).trans (headSold_order? hhead),
    fun m hm => (horder m).trans (headSold_order?_ne hhead hm), ?_⟩
  rw [hstmt, headSold_entries, order?_number hhead.order]
  rfl

omit hfits in
/-- The head and the order behind it are charged. -/
theorem request_retriesBoth {m : Nat} {p : Order} {w : View} (hrest : rest = [m]) (hm : m ≠ n)
    (hp : (s.popped.withFee u).Retriable a.number m p w)
    (hboth : (((s.withFee u).priceOf o v a).total : Int) + ((s.withFee u).priceOf p w a).total ≤
      a.balance + a.limit) :
    ∃ t, request c body s = .next t ∧ FirstSent s t (s.replyFrame kind tag .ok
        (fields (a.balance - ((((s.withFee u).priceOf o v a).total : Int) + ((s.withFee u).priceOf p w a).total))
          2 0)) ∧
      t.fee.account? a.number = some { a with
        balance := a.balance - ((((s.withFee u).priceOf o v a).total : Int) + ((s.withFee u).priceOf p w a).total)
        queue := [] } ∧
      t.order? n = some ((s.withFee u).chargedOrder o v a) ∧ t.order? m = some ((s.withFee u).chargedOrder p w a) ∧
      t.stmt.current.entries.map Entry.order = s.stmt.current.entries.map Entry.order ++ [n, m] := by
  subst hrest
  have hfits : (((s.withFee u).priceOf o v a).total : Int) ≤ a.balance + a.limit := by
    have hnonneg : (0 : Int) ≤ ((s.withFee u).priceOf p w a).total := Int.natCast_nonneg _
    omega
  let left : Account := (s.popped.withFee u).chargedAccount o v a [m]
  let first : State := (s.popped.withFee u).headSold o v a [m]
  let second : State := headSold first p w left []
  have hr : retryFunds a.number a.queue.length (s.popped.withFee u) = (second, 2) := by
    rw [hq, List.length_cons, retryFunds_fits hhead ha hq (Nat.lt_succ_of_lt hroom) hfits, List.length_singleton,
      retryFunds_headSold_fits hhead ha hm hp hroom hboth]
  have hleft : first.fee.account? a.number = some left := headSold_account? hhead ha
  have hnext : first.Retriable left.number m p w := headSold_retriable hhead hm hp
  have hprice : first.priceOf p w left = (s.withFee u).priceOf p w a := headSold_priceOf p w
  have hb : second.fee.account? a.number = some { a with
      balance := a.balance - ((((s.withFee u).priceOf o v a).total : Int) + ((s.withFee u).priceOf p w a).total)
      queue := [] } := by
    refine (headSold_account? (a := left) hnext hleft).trans ?_
    rw [chargedAccount, hprice, ← Int.sub_sub]
    rfl
  obtain ⟨-, hvol, -, -, -, hagenda, -⟩ := headSold_blocks (s.popped.withFee u) o v a [m]
  obtain ⟨-, hvol2, -, -, -, hagenda2, -⟩ := headSold_blocks first p w left []
  obtain ⟨t, hexec, hfirst, haccount, hstmt, horder⟩ := request_retriesTo h ha hbody hr hb (hagenda2.trans hagenda)
    (hvol2.trans hvol) hw
  refine ⟨t, hexec, hfirst, haccount, ?_, ?_, ?_⟩
  · exact (horder n).trans ((headSold_order?_ne hnext hm.symm).trans (headSold_order? hhead))
  · exact (horder m).trans ((headSold_order? hnext).trans (congrArg some (headSold_chargedOrder p w)))
  · rw [hstmt, headSold_entries, headSold_entries, order?_number hhead.order, order?_number hp.order, List.append_assoc]
    rfl

end Run

/-- The walk over a queue of one or two orders, case by case (R162). -/
theorem queueRetried {s : State} {c : Instr} {body : State → State} {kind tag : U8} (h : s.Ready c) {u : FeeUnit} {a : Account}
    {fields : Int → U8 → U8 → List U8} (ha : u.account? a.number = some a)
    (hbody : body s.popped = (s.popped.withFee u).retriedAnswer a.number kind tag fields) :
    QueueRetried s (s.withFee u) a (request c body s) kind tag fields := by
  intro n o v hfee hord hw hroom ho hst hacc hv hc charged total
  obtain ⟨-, haccounts, -⟩ := hfee
  obtain ⟨-, hlive, -⟩ := hord
  have horders : (s.ord.live.map Order.number).Nodup := hlive.imp Nat.ne_of_lt
  have hhead : (s.popped.withFee u).Retriable a.number n o v := ⟨ho, hst, hacc, hv, hc⟩
  refine ⟨fun hq => ⟨fun hshort => ?_, fun hfits => ?_⟩, fun m p w hq hm hp hpst hpacc hpv hpc => ?_⟩
  · exact request_retriesShort h ha hbody hq hhead hroom haccounts horders hshort
  · obtain ⟨t, hexec, hfirst, haccount, horder, -, hentries⟩ := request_retriesHead h ha hbody hq hhead hroom hw hfits
      (retryFunds_empty (a := (s.popped.withFee u).chargedAccount o v a []) (headSold_account? hhead ha) rfl _)
    exact ⟨t, hexec, hfirst, haccount, horder, hentries⟩
  · intro both
    have hnext : (s.popped.withFee u).Retriable a.number m p w := ⟨hp, hpst, hpacc, hpv, hpc⟩
    refine ⟨fun hshort => ?_, fun hfits hshort => ?_, fun hboth => ?_⟩
    · exact request_retriesShort h ha hbody hq hhead hroom haccounts horders hshort
    · obtain ⟨t, hexec, hfirst, haccount, horder, hothers, hentries⟩ := request_retriesHead h ha hbody hq hhead hroom hw hfits
        (retryFunds_headSold_short hhead ha hm hnext hroom haccounts horders hshort)
      exact ⟨t, hexec, hfirst, haccount, horder, (hothers m hm).trans hp, hentries⟩
    · exact request_retriesBoth h ha hbody hq hhead hroom hw rfl hm hnext hboth

end State

end Sys2Proof.Machine
end

section
/-! LOAD ACCOUNT, QUERY ACCOUNT, CREDIT ACCOUNT and SET LIMIT by their cases, and the statement about accounts (O55). -/

namespace Sys2Proof.Machine

/-! ### LOAD ACCOUNT (R159) -/

theorem balanceFits_iff {balance : Int} {limit : Nat} : balanceFits balance limit = true ↔
    ¬(balance < -(limit : Int) ∨ 2000000000 < balance) := by
  simp only [balanceFits, Config.balanceLimit, decide_eq_true_eq]
  omega

/-- The account that LOAD ACCOUNT gives. -/
def newAccount (account : U16) (tier : U8) (balance limit : U32) : Account :=
  ⟨account.toNat, tier.toNat, balance.toInt, limit.toNat, 0, []⟩

namespace State

/-- The first check of LOAD ACCOUNT that fails (R159). -/
def loadRefusal (s : State) (account : U16) (tier : U8) (balance limit : U32) : Option Code :=
  if s.req.mode ≠ .setup then some .badState
  else if account = 0 ∨ 7 < tier.toNat ∨ 10000000 < limit.toNat then some .outOfRange
  else if balance.toInt < -(limit.toNat : Int) ∨ 2000000000 < balance.toInt then some .limitViolation
  else if ((s.fee.account? account.toNat).any fun a => a.live != 0) = true then some .busy
  else if s.fee.account? account.toNat = none ∧ 32 ≤ s.fee.accounts.length then some .tableFull
  else none

section Load

variable {s : State} {tag : U8} {account : U16} {tier : U8} {balance limit : U32}

theorem loadAccount_eq : s.loadAccount tag account tier balance limit =
    match s.loadRefusal account tier balance limit with
    | some code => s.refuse 0x66 tag code
    | none => answer { s with fee := s.fee.load (newAccount account tier balance limit) } 0x66 tag .ok
        (flagByte (s.fee.account? account.toNat).isSome) := by
  have hmode : (s.req.mode != .setup) = true ↔ s.req.mode ≠ .setup := bne_iff_ne
  have hbalance : (!balanceFits balance.toInt limit.toNat) = true ↔
      balance.toInt < -(limit.toNat : Int) ∨ 2000000000 < balance.toInt := by
    rw [Bool.not_eq_true', ← Bool.not_eq_true, balanceFits_iff, not_not]
  have hfull : ((s.fee.account? account.toNat).isNone && decide (Config.accounts ≤ s.fee.accounts.length)) = true ↔
      s.fee.account? account.toNat = none ∧ 32 ≤ s.fee.accounts.length := by
    simp [Config.accounts]
  simp only [loadAccount, loadRefusal, hmode, hbalance, hfull]
  split_ifs <;> rfl

end Load

end State

theorem FeeUnit.load_new {f : FeeUnit} {a : Account} (h : f.account? a.number = none) :
    f.load a = { f with accounts := f.accounts ++ [a] } := by simp [load, h]

theorem FeeUnit.load_replaces {f : FeeUnit} {a : Account} (h : f.account? a.number ≠ none) :
    f.load a = { f with accounts := f.accounts.map fun x => if x.number = a.number then a else x } := by
  simp [load, Option.isSome_iff_ne_none.2 h]

/-! ### QUERY ACCOUNT (R163) -/

/-- The accounts of the list, in ascending order of number. -/
theorem sorted_accounts (l : List Account) : ∃ m : List Account, m.Perm l ∧ m.Pairwise (fun a b => a.number ≤ b.number) ∧
    sortBy (fun a b : Account => decide (a.number ≤ b.number)) l = m := by
  refine ⟨_, sortBy_perm _ l, ?_, rfl⟩
  refine (sortBy_pairwise (fun a b => ?_) (fun a b c => ?_) l).imp of_decide_eq_true
  · simp only [decide_eq_true_eq]
    exact Nat.le_total _ _
  · simp only [decide_eq_true_eq]
    exact Nat.le_trans

section Query

variable {s : State} {tag : U8} {account : U16} (h : s.Asked (.queryAccount tag account))
include h

theorem exec_queryAccount_list (hn : account = 0) :
    exec (.queryAccount tag account) s = .next (s.reported 0x69 tag .ok s.fee.listFields) := query_replies h (if_pos hn)

theorem exec_queryAccount_unknown (hn : account ≠ 0) (ha : s.fee.account? account.toNat = none) :
    exec (.queryAccount tag account) s = .next (s.reported 0x69 tag .notFound []) := by
  refine query_replies h ((if_neg hn).trans ?_)
  rw [show s.popped.fee.account? account.toNat = none from ha]
  rfl

theorem exec_queryAccount_found {a : Account} (hn : account ≠ 0) (ha : s.fee.account? account.toNat = some a) :
    exec (.queryAccount tag account) s = .next (s.reported 0x69 tag .ok a.fields) := by
  refine query_replies h ((if_neg hn).trans ?_)
  rw [show s.popped.fee.account? account.toNat = some a from ha]

end Query

/-! ### CREDIT ACCOUNT (R160) -/

namespace State

/-- The amount joins the account's balance. -/
abbrev credited (s : State) (account : U16) (amount : U32) : State :=
  s.withAccount account.toNat fun a => { a with balance := a.balance + amount.toNat }

section Credit

variable {s : State} {tag : U8} {account : U16} {amount : U32} {a : Account}

theorem creditAccount_outOfRange (hn : account = 0 ∨ amount = 0 ∨ 100000000 < amount.toNat) :
    s.creditAccount tag account amount = s.refuse 0x67 tag .outOfRange := if_pos hn

variable (hn : ¬(account = 0 ∨ amount = 0 ∨ 100000000 < amount.toNat))
include hn

theorem creditAccount_unknown (ha : s.fee.account? account.toNat = none) :
    s.creditAccount tag account amount = s.refuse 0x67 tag .notFound := by
  simp only [creditAccount, if_neg hn, ha]

variable (ha : s.fee.account? account.toNat = some a)
include ha

theorem creditAccount_violates (hlimit : 2000000000 < a.balance + amount.toNat) :
    s.creditAccount tag account amount = s.refuse 0x67 tag .limitViolation := by
  simp only [creditAccount, if_neg hn, ha]
  exact if_pos hlimit

theorem creditAccount_retries (hlimit : a.balance + amount.toNat ≤ 2000000000) :
    s.creditAccount tag account amount = (s.credited account amount).retriedAnswer a.number 0x67 tag
      fun balance charged left => s32 balance ++ [charged, left] := by
  have hnumber := FeeUnit.account?_number ha
  simp only [creditAccount, if_neg hn, ha]
  rw [if_neg (not_lt.2 hlimit)]
  simp only [credited, hnumber, u8, List.append_assoc]
  rfl

end Credit

/-! ### SET LIMIT (R161) -/

/-- The account's limit becomes the one given. -/
abbrev limited (s : State) (account : U16) (limit : U32) : State :=
  s.withAccount account.toNat fun a => { a with limit := limit.toNat }

section Limit

variable {s : State} {tag : U8} {account : U16} {limit : U32} {a : Account}

theorem setLimit_outOfRange (hn : account = 0 ∨ 10000000 < limit.toNat) :
    s.setLimit tag account limit = s.refuse 0x68 tag .outOfRange := if_pos hn

variable (hn : ¬(account = 0 ∨ 10000000 < limit.toNat))
include hn

theorem setLimit_unknown (ha : s.fee.account? account.toNat = none) :
    s.setLimit tag account limit = s.refuse 0x68 tag .notFound := by
  simp only [setLimit, if_neg hn, ha]

variable (ha : s.fee.account? account.toNat = some a)
include ha

theorem setLimit_violates (hlow : a.balance < -(limit.toNat : Int)) :
    s.setLimit tag account limit = s.refuse 0x68 tag .limitViolation := by
  simp only [setLimit, if_neg hn, ha, if_pos hlow]

variable (hfits : -(limit.toNat : Int) ≤ a.balance)
include hfits

/-- A limit that is not raised retries nothing. -/
theorem setLimit_lowers (hle : limit.toNat ≤ a.limit) :
    s.setLimit tag account limit = (s.limited account limit).answer 0x68 tag .ok (u8 0 ++ u8 a.queue.length) := by
  have hself : (s.limited account limit).fee.account? account.toNat = some { a with limit := limit.toNat } :=
    account?_withAccount_self ha fun _ => rfl
  have hnumber := FeeUnit.account?_number ha
  simp only [setLimit, if_neg hn, ha, if_neg (not_lt.2 hfits), replaceLimit, if_neg (Nat.not_lt.2 hle), hnumber,
    FeeUnit.queueLength, hself]
  rfl

theorem setLimit_retries (hlt : a.limit < limit.toNat) :
    s.setLimit tag account limit = (s.limited account limit).retriedAnswer a.number 0x68 tag
      fun _ charged left => [charged, left] := by
  have hnumber := FeeUnit.account?_number ha
  simp only [setLimit, if_neg hn, ha, if_neg (not_lt.2 hfits), replaceLimit, if_pos hlt, limited, hnumber]
  rfl

end Limit

end State

/-! ### The requests as one change -/

section Exec

variable {s : State} {tag : U8} {account : U16} {a : Account} (ha : s.fee.account? account.toNat = some a)
include ha

/-- A changed account is found under its own number. -/
theorem account?_changed {f : Account → Account} (hf : ∀ a, (f a).number = a.number) :
    (s.withAccount account.toNat f).fee.account? (f a).number = some (f a) := by
  rw [hf, FeeUnit.account?_number ha]
  exact State.account?_withAccount_self ha hf

section Credit

variable {amount : U32} (h : s.Ready (.creditAccount tag account amount))
  (hn : ¬(account = 0 ∨ amount = 0 ∨ 100000000 < amount.toNat)) (hlimit : a.balance + amount.toNat ≤ 2000000000)
include h hn hlimit

theorem exec_creditAccount_empty (hq : a.queue = []) : exec (.creditAccount tag account amount) s =
    .next ((s.credited account amount).replied 0x67 tag .ok (s32 (a.balance + amount.toNat) ++ [0, 0])) :=
  State.request_retriesEmpty (u := (s.credited account amount).fee) (a := { a with balance := a.balance + amount.toNat })
    (fields := fun balance charged left => s32 balance ++ [charged, left]) h
    (account?_changed ha (f := fun a => { a with balance := a.balance + amount.toNat }) fun _ => rfl)
    (State.creditAccount_retries (s := s.popped) (a := a) hn ha hlimit) hq

theorem exec_creditAccount_retries : QueueRetried s (s.credited account amount) { a with balance := a.balance + amount.toNat }
    (exec (.creditAccount tag account amount) s) 0x67 tag fun balance charged left => s32 balance ++ [charged, left] :=
  State.queueRetried (u := (s.credited account amount).fee) h
    (account?_changed ha (f := fun a => { a with balance := a.balance + amount.toNat }) fun _ => rfl)
    (State.creditAccount_retries (s := s.popped) (a := a) hn ha hlimit)

end Credit

section Limit

variable {limit : U32} (h : s.Ready (.setLimit tag account limit)) (hn : ¬(account = 0 ∨ 10000000 < limit.toNat))
  (hfits : -(limit.toNat : Int) ≤ a.balance)
include h hn hfits

theorem exec_setLimit_retries (hlt : a.limit < limit.toNat) : QueueRetried s (s.limited account limit)
    { a with limit := limit.toNat } (exec (.setLimit tag account limit) s) 0x68 tag fun _ charged left => [charged, left] :=
  State.queueRetried (u := (s.limited account limit).fee) h
    (account?_changed ha (f := fun a => { a with limit := limit.toNat }) fun _ => rfl)
    (State.setLimit_retries (s := s.popped) (a := a) hn ha hfits hlt)

/-- Without a higher limit, or without an order in the queue, nothing is charged. -/
theorem exec_setLimit_quiet (hquiet : limit.toNat ≤ a.limit ∨ a.queue = []) : exec (.setLimit tag account limit) s =
    .next ((s.limited account limit).replied 0x68 tag .ok (u8 0 ++ u8 a.queue.length)) := by
  by_cases hle : limit.toNat ≤ a.limit
  · exact request_answers (u := s.popped.limited account limit) h (State.setLimit_lowers (s := s.popped) hn ha hfits hle)
      (h.1.1.withFee (s := s.popped) (s.limited account limit).fee) rfl rfl
  · have hq := hquiet.resolve_left hle
    rw [hq]
    exact State.request_retriesEmpty (fields := fun _ charged left => [charged, left]) h
      (account?_changed ha (f := fun a => { a with limit := limit.toNat }) fun _ => rfl)
      (State.setLimit_retries (s := s.popped) (a := a) hn ha hfits (Nat.not_le.1 hle)) hq

end Limit

end Exec

/-- Settles O55: each request by its checks in order; a retry over a queue of one or two orders is a walk from its head. -/
theorem accountsAreLoadedCreditedAndQueried : Obligations.AccountsAreLoadedCreditedAndQueried := by
  unfold Obligations.AccountsAreLoadedCreditedAndQueried
  refine ⟨⟨fun s tag account tier balance limit h => ?load, fun s tag account h => ?query⟩, fun s tag account amount h => ?credit,
    fun s tag account limit h => ?limit⟩
  case load =>
    intro run new refusal
    have hrefusal : s.popped.loadRefusal account tier balance limit = refusal := rfl
    have hbody := State.loadAccount_eq (s := s.popped) (tag := tag) (account := account) (tier := tier) (balance := balance)
      (limit := limit)
    rw [hrefusal] at hbody
    have haccepted (hr : refusal = none) : run = .next (State.replied { s with fee := s.fee.load new } 0x66 tag .ok
        (flagByte (s.fee.account? account.toNat).isSome)) := by
      rw [hr] at hbody
      exact request_answers (u := { s.popped with fee := s.fee.load new }) h hbody (h.1.1.withFee (s := s.popped) _) rfl rfl
    refine ⟨fun code hr => ?_, fun hr hnone => ?_, fun hr hsome => ?_⟩
    · rw [hr] at hbody
      exact request_replies h hbody
    · rw [haccepted hr, FeeUnit.load_new (a := new) hnone, hnone]
      rfl
    · rw [haccepted hr, FeeUnit.load_replaces (a := new) hsome, Option.isSome_iff_ne_none.2 hsome]
      rfl
  case query =>
    intro field
    refine ⟨fun hn => ?_, exec_queryAccount_unknown h, fun a hn ha => exec_queryAccount_found h hn ha⟩
    obtain ⟨l, hperm, hpairwise, hl⟩ := sorted_accounts s.fee.accounts
    refine ⟨l, hperm, hpairwise, ?_⟩
    rw [exec_queryAccount_list h hn, FeeUnit.listFields, hl]
    rfl
  case credit =>
    refine ⟨fun hn => request_replies h (State.creditAccount_outOfRange hn), fun hn hzero hmax => ?_⟩
    have hn : ¬(account = 0 ∨ amount = 0 ∨ 100000000 < amount.toNat) := by
      rintro (hn' | hzero' | hmax')
      · exact hn hn'
      · exact hzero hzero'
      · exact absurd hmax (Nat.not_le.2 hmax')
    refine ⟨fun hnone => request_replies h (State.creditAccount_unknown (s := s.popped) hn hnone), fun a ha => ?_⟩
    exact ⟨fun hlimit => request_replies h (State.creditAccount_violates (s := s.popped) hn ha hlimit), fun hlimit =>
      ⟨exec_creditAccount_empty ha h hn hlimit, exec_creditAccount_retries ha h hn hlimit⟩⟩
  case limit =>
    refine ⟨fun hn => request_replies h (State.setLimit_outOfRange hn), fun hn hmax => ?_⟩
    have hn : ¬(account = 0 ∨ 10000000 < limit.toNat) := not_or.2 ⟨hn, Nat.not_lt.2 hmax⟩
    refine ⟨fun hnone => request_replies h (State.setLimit_unknown (s := s.popped) hn hnone), fun a ha => ?_⟩
    exact ⟨fun hlow => request_replies h (State.setLimit_violates (s := s.popped) hn ha hlow),
      fun hfits hquiet => exec_setLimit_quiet ha h hn hfits hquiet,
      fun hlt hfits => exec_setLimit_retries ha h hn hfits hlt⟩

end Sys2Proof.Machine
end
